-- ==== Sys2Proof/Word.lean ====
section
/-! DEFINITION. The word types of Cerya and their plainest arithmetic: instruction words of 32 bits, scalar registers of
64 bits, bytes, and little-endian byte strings (R7). -/

namespace Sys2Proof

/-- A byte. -/
abbrev Byte := BitVec 8

/-- An instruction word (R222). -/
abbrev Word := BitVec 32

/-- A scalar register (R187). -/
abbrev Reg := BitVec 64

/-- The number that a little-endian byte string stands for (R7). -/
def leNat : List Byte → Nat
  | [] => 0
  | b :: bs => b.toNat + 256 * leNat bs

/-- The first `n` bytes of a number, little-endian (R7). -/
def leBytes : Nat → Nat → List Byte
  | 0, _ => []
  | n + 1, v => BitVec.ofNat 8 v :: leBytes n (v / 256)

/-- The `n` bits of `v` from bit `lo` up. -/
def bits (v lo n : Nat) : Nat := v / 2 ^ lo % 2 ^ n

/-- `v` read as a two's-complement number of `w` bits. -/
def signed (w v : Nat) : Int := (BitVec.ofNat w v).toInt

/-- ⌈a / b⌉. -/
def ceilDiv (a b : Nat) : Nat := (a + b - 1) / b

end Sys2Proof
end

