-- ==== Sys2Proof/Machine/Flags.lean ====
section
/-! DEFINITION. Flag sets (R215, R216) and rounding modes (R213). -/

namespace Sys2Proof.Machine

/-- A flag set: bits [5:0] are SAT, NV, DZ, OF, UF, NX (R215). -/
abbrev Flags := BitVec 6

def flNX : Flags := 1
def flUF : Flags := 2
def flOF : Flags := 4
def flDZ : Flags := 8
def flNV : Flags := 16
def flSAT : Flags := 32

/-- A flag when its condition holds. -/
def flagIf (b : Bool) (f : Flags) : Flags := if b then f else 0

/-- Rounding: to nearest even, toward zero, down, up, to nearest with ties away (R213). -/
inductive Rnd where
  | rne | rtz | rdn | rup | rna
deriving DecidableEq, Repr

/-- The rounding a V instruction selects: its override, or the mode code of VMODE (R213). -/
def rndOf (override : BitVec 2) (vmode : BitVec 2) : Rnd :=
  match override.toNat with
  | 1 => .rne
  | 2 => .rtz
  | 3 => .rna
  | _ => match vmode.toNat with
    | 0 => .rne
    | 1 => .rtz
    | 2 => .rdn
    | _ => .rup

/-- `n` plus a discarded part, rounded: `rem` of `2 ^ sh` below the last place kept. -/
def roundUp (r : Rnd) (neg : Bool) (n rem sh : Nat) : Bool :=
  match r with
  | .rne => decide (2 ^ sh < 2 * rem) || (decide (2 * rem = 2 ^ sh) && n % 2 == 1)
  | .rtz => false
  | .rdn => neg && rem != 0
  | .rup => !neg && rem != 0
  | .rna => decide (2 ^ sh ≤ 2 * rem) && rem != 0

end Sys2Proof.Machine
end

