-- ==== Sys2Proof/Machine/Numbers.lean ====
section
/-! DEFINITION. Number formats and arithmetic (R197 to R221): exact values, one rounding, conversions. -/

namespace Sys2Proof.Machine

/-- An exact value: a NaN (signalling or not), an infinity, or (-1)^neg × m × 2^e. -/
inductive Num where
  | nan (sig : Bool)
  | inf (neg : Bool)
  | fin (neg : Bool) (m : Nat) (e : Int)
deriving DecidableEq, Repr

def Num.isNan : Num → Bool
  | .nan _ => true
  | _ => false
def Num.isSig : Num → Bool
  | .nan s => s
  | _ => false
def Num.isInf : Num → Bool
  | .inf _ => true
  | _ => false
def Num.isZero : Num → Bool
  | .fin _ m _ => m == 0
  | _ => false
def Num.neg? : Num → Bool
  | .nan _ => false
  | .inf n => n
  | .fin n _ _ => n

/-- A binary format (R201): exponent bits, fraction bits; `ieee` formats have infinities, e4m3 has none. -/
structure Fmt where
  ebits : Nat
  fbits : Nat
  ieee : Bool
deriving DecidableEq, Repr

def fF32 : Fmt := { ebits := 8, fbits := 23, ieee := true }
def fF16 : Fmt := { ebits := 5, fbits := 10, ieee := true }
def fBF16 : Fmt := { ebits := 8, fbits := 7, ieee := true }
def fE5M2 : Fmt := { ebits := 5, fbits := 2, ieee := true }
def fE4M3 : Fmt := { ebits := 4, fbits := 3, ieee := false }

def Fmt.bias (f : Fmt) : Int := 2 ^ (f.ebits - 1) - 1
def Fmt.emin (f : Fmt) : Int := 1 - f.bias
def Fmt.width (f : Fmt) : Nat := 1 + f.ebits + f.fbits
def Fmt.sign (f : Fmt) (neg : Bool) : Nat := if neg then 2 ^ (f.ebits + f.fbits) else 0

/-- The canonical NaN (R203). -/
def Fmt.nan (f : Fmt) : Nat :=
  if f.ieee then (if f.fbits = 2 then 0x7E else (2 ^ f.ebits - 1) * 2 ^ f.fbits + 2 ^ (f.fbits - 1)) else 0x7F

/-- The magnitude of the largest finite value. -/
def Fmt.largest (f : Fmt) : Nat := if f.ieee then (2 ^ f.ebits - 1) * 2 ^ f.fbits - 1 else 0x7E

def Fmt.infinity (f : Fmt) : Nat := (2 ^ f.ebits - 1) * 2 ^ f.fbits

/-- The value of a bit pattern (R201, R203). Only f32, f16 and bf16 have signalling NaNs. -/
def Fmt.decode (f : Fmt) (b : Nat) : Num :=
  let neg := b.testBit (f.ebits + f.fbits)
  let ex := bits b f.fbits f.ebits
  let fr := bits b 0 f.fbits
  if f.ieee && ex == 2 ^ f.ebits - 1 then
    if fr = 0 then .inf neg else .nan (decide (7 ≤ f.fbits) && !fr.testBit (f.fbits - 1))
  else if !f.ieee && ex == 15 && fr == 7 then .nan false
  else if ex = 0 then .fin neg fr (f.emin - f.fbits)
  else .fin neg (fr + 2 ^ f.fbits) (ex - f.bias - f.fbits)

/-- `m × 2^e` rounded to a multiple of `2^q`: the multiple, and whether it is exact. -/
def quantize (r : Rnd) (neg : Bool) (m : Nat) (e q : Int) : Nat × Bool :=
  if q ≤ e then (m * 2 ^ (e - q).toNat, true)
  else
    let sh := (q - e).toNat
    let n := m / 2 ^ sh
    let rem := m % 2 ^ sh
    (if roundUp r neg n rem sh then n + 1 else n, rem == 0)

/-- Whether overflow under a rounding gives the infinity rather than the largest finite value (R214). -/
def toInfinity (r : Rnd) (neg : Bool) : Bool :=
  match r with
  | .rne => true
  | .rna => true
  | .rtz => false
  | .rdn => neg
  | .rup => !neg

/-- A finite value rounded to a format, with its flags (R214, R216). -/
def Fmt.roundFin (f : Fmt) (r : Rnd) (neg : Bool) (m : Nat) (e : Int) : Nat × Flags :=
  if m = 0 then (f.sign neg, 0)
  else
    let top : Int := (Nat.log2 m : Int) + e
    let q := max top f.emin - f.fbits
    let (n, exact) := quantize r neg m e q
    let (n1, q1) := if 2 ^ (f.fbits + 1) ≤ n then (n / 2, q + 1) else (n, q)
    let field := if n1 < 2 ^ f.fbits then 0 else (q1 + f.fbits + f.bias).toNat
    let mag := if n1 < 2 ^ f.fbits then n1 else field * 2 ^ f.fbits + (n1 - 2 ^ f.fbits)
    if f.largest < mag then
      let out := if f.ieee && toInfinity r neg then f.infinity else f.largest
      (f.sign neg + out, flOF ||| flNX)
    else
      let unb := (quantize r neg m e (top - f.fbits)).1
      let tiny := decide (top < f.emin) && decide ((unb : Int) < 2 ^ (f.fbits + 1) ∨ top + 1 < f.emin)
      (f.sign neg + mag, flagIf (!exact) flNX ||| flagIf (tiny && !exact) flUF)

/-- Conversion of a value to a float format (R214): a NaN gives the canonical NaN, an infinity stays or, in e4m3, becomes the
largest value. -/
def Fmt.round (f : Fmt) (r : Rnd) (x : Num) : Nat × Flags :=
  match x with
  | .nan sig => (f.nan, flagIf sig flNV)
  | .inf neg => if f.ieee then (f.sign neg + f.infinity, 0) else (f.sign neg + f.largest, flNV)
  | .fin neg m e => f.roundFin r neg m e

/-! Exact arithmetic. -/

/-- The signed integer of a finite value in units of `2^q`, for `q` at most its exponent. -/
def scaled (neg : Bool) (m : Nat) (e q : Int) : Int :=
  let v : Int := m * 2 ^ (e - q).toNat
  if neg then -v else v

/-- The exact sum of two finite values; `zneg` is the sign of a zero sum of values that are not both of one sign. -/
def finAdd (na : Bool) (ma : Nat) (ea : Int) (nb : Bool) (mb : Nat) (eb : Int) (zneg : Bool) : Num :=
  let q := min ea eb
  let v := scaled na ma ea q + scaled nb mb eb q
  if v = 0 then .fin (if na = nb then na else zneg) 0 0 else .fin (decide (v < 0)) v.natAbs q

/-- Addition of values, with NV for Inf − Inf and signalling NaNs (R216). -/
def Num.add (a b : Num) (zneg : Bool) : Num × Flags :=
  match a, b with
  | .nan s, y => (.nan false, flagIf (s || y.isSig) flNV)
  | _, .nan s => (.nan false, flagIf s flNV)
  | .inf x, .inf y => if x = y then (.inf x, 0) else (.nan false, flNV)
  | .inf x, .fin .. => (.inf x, 0)
  | .fin .., .inf y => (.inf y, 0)
  | .fin na ma ea, .fin nb mb eb => (finAdd na ma ea nb mb eb zneg, 0)

def Num.negate : Num → Num
  | .nan s => .nan s
  | .inf n => .inf (!n)
  | .fin n m e => .fin (!n) m e

/-- The product, with NV for 0 × Inf and signalling NaNs (R216). -/
def Num.mul (a b : Num) : Num × Flags :=
  match a, b with
  | .nan s, y => (.nan false, flagIf (s || y.isSig) flNV)
  | _, .nan s => (.nan false, flagIf s flNV)
  | .inf x, .inf y => (.inf (x != y), 0)
  | .inf x, .fin y m _ => if m = 0 then (.nan false, flNV) else (.inf (x != y), 0)
  | .fin x m _, .inf y => if m = 0 then (.nan false, flNV) else (.inf (x != y), 0)
  | .fin x m e, .fin y n f => (.fin (x != y) (m * n) (e + f), 0)

/-- a × b + c formed exactly; a signalling NaN among the three sets NV. -/
def Num.fma (a b c : Num) (zneg : Bool) : Num × Flags :=
  let (p, f) := a.mul b
  let (r, g) := p.add c zneg
  (r, f ||| g ||| flagIf c.isSig flNV)

/-- a < b for values that are no NaN, −0 ordered below +0 when `signed0`. -/
def Num.lt (a b : Num) (signed0 : Bool) : Bool :=
  match a, b with
  | .nan _, _ => false
  | _, .nan _ => false
  | .inf x, .inf y => x && !y
  | .inf x, .fin .. => x
  | .fin .., .inf y => !y
  | .fin na ma ea, .fin nb mb eb =>
    if ma = 0 ∧ mb = 0 then signed0 && na && !nb
    else
      let q := min ea eb
      decide (scaled na ma ea q < scaled nb mb eb q)

/-- Equality of values, zeros of either sign equal. -/
def Num.eq (a b : Num) : Bool := !a.isNan && !b.isNan && !a.lt b false && !b.lt a false

/-! Tapered formats (R204, R205). -/

/-- The length of the run of bits equal to `b` from position `w - 1 - m` down. -/
def tapRun (mag w : Nat) (b : Bool) : Nat → Nat → Nat
  | 0, m => m
  | n + 1, m => if m < w ∧ mag.testBit (w - 1 - m) = b then tapRun mag w b n (m + 1) else m

/-- decode_tap of R204; NaR is a quiet NaN. -/
def tapDecode (n x : Nat) : Num :=
  let w := n - 1
  let neg := x.testBit (n - 1)
  let mag := bits x 0 w
  if mag = 0 then (if neg then .nan false else .fin false 0 0)
  else
    let b := mag.testBit (w - 1)
    let m := tapRun mag w b w 1
    let k : Int := if b then (m : Int) - 1 else -(m : Int)
    let r := if m = w then 0 else w - m - 1
    let e : Int := if 1 ≤ r ∧ mag.testBit (r - 1) then 1 else 0
    let f := if 2 ≤ r then bits mag 0 (r - 1) else 0
    .fin neg (2 ^ (r - 1) + f) (2 * k + e - ((r - 1 : Nat) : Int))

/-- encode_tap of R205, with the flags of R214. -/
def tapEncode (n : Nat) (x : Num) : Nat × Flags :=
  let w := n - 1
  let nar := 2 ^ w
  match x with
  | .nan sig => (nar, flagIf sig flNV)
  | .inf _ => (nar, flNV)
  | .fin neg m e =>
    if m = 0 then (0, 0)
    else
      let s := if neg then 2 ^ w else 0
      let lim : Int := 2 * w - 2
      let l := Nat.log2 m
      let t : Int := (l : Int) + e
      let pow2 := m == 2 ^ l
      if lim ≤ t then
        (s + (2 ^ w - 1), flagIf (!(pow2 && t == lim)) (flOF ||| flNX))
      else if t < -lim ∨ (t = -lim ∧ pow2) then
        (s + 1, flagIf (!(pow2 && t == -lim)) (flUF ||| flNX))
      else
        let k := t.fdiv 2
        let eb := (t - 2 * k).toNat
        let (reg, rl) := if 0 ≤ k then ((2 ^ (k.toNat + 1) - 1) * 2, k.toNat + 2) else (1, (-k).toNat + 1)
        let q := ((reg * 2 + eb) * 2 ^ l + (m - 2 ^ l)) * 2 ^ (w + 1)
        let len := rl + 1 + l + (w + 1)
        let mag := q / 2 ^ (len - w)
        let rem := q % 2 ^ (len - w)
        let mag2 := if roundUp .rne false mag rem (len - w) then mag + 1 else mag
        (s + mag2, flagIf (rem != 0) flNX)

/-! Type codes (R197). -/

def tyI8 : Nat := 0
def tyF32 : Nat := 8
def tyI4 : Nat := 13
def tyTap6 : Nat := 12

/-- The width in bits of an element type. -/
def tyBits (t : Nat) : Nat :=
  match t with
  | 0 => 8 | 1 => 8 | 2 => 16 | 3 => 16 | 4 => 32 | 5 => 32 | 6 => 16 | 7 => 16 | 8 => 32 | 9 => 8 | 10 => 8 | 11 => 8
  | 12 => 6 | _ => 4

/-- The kinds of element. -/
inductive Kind where
  | sint (w : Nat) | uint (w : Nat) | float (f : Fmt) | tap (n : Nat)
deriving DecidableEq, Repr

def tyKind (t : Nat) : Kind :=
  match t with
  | 0 => .sint 8 | 1 => .uint 8 | 2 => .sint 16 | 3 => .uint 16 | 4 => .sint 32 | 5 => .uint 32
  | 6 => .float fF16 | 7 => .float fBF16 | 8 => .float fF32 | 9 => .float fE4M3 | 10 => .float fE5M2
  | 11 => .tap 8 | 12 => .tap 6 | _ => .sint 4

def Kind.isInt : Kind → Bool
  | .sint _ => true
  | .uint _ => true
  | _ => false

/-- The exact value of an integer. -/
def intNum (v : Int) : Num := .fin (decide (v < 0)) v.natAbs 0

/-- The value of an element. -/
def Kind.decode (k : Kind) (b : Nat) : Num :=
  match k with
  | .sint w => intNum (signed w b)
  | .uint w => .fin false (b % 2 ^ w) 0
  | .float f => f.decode b
  | .tap n => tapDecode n b

/-- An integer saturated to a range; NV when it changes (R214). -/
def saturate (lo hi v : Int) : Int × Bool := if v < lo then (lo, true) else if hi < v then (hi, true) else (v, false)

def intRange (k : Kind) : Int × Int :=
  match k with
  | .sint w => (-(2 ^ (w - 1)), 2 ^ (w - 1) - 1)
  | .uint w => (0, 2 ^ w - 1)
  | _ => (0, 0)

/-- Conversion of a value to an integer type (R214): NV alone on saturation or NaN, NX when rounding changes the value. -/
def toInt (k : Kind) (w : Nat) (r : Rnd) (x : Num) : Nat × Flags :=
  let (lo, hi) := intRange k
  let enc (v : Int) : Nat := (BitVec.ofInt w v).toNat
  match x with
  | .nan _ => (0, flNV)
  | .inf neg => (enc (if neg then lo else hi), flNV)
  | .fin neg m e =>
    let (n, exact) := quantize r neg m e 0
    let (v, sat) := saturate lo hi (if neg then -(n : Int) else n)
    (enc v, if sat then flNV else flagIf (!exact) flNX)

/-- Conversion of a value to a type (R214). -/
def Kind.encode (k : Kind) (r : Rnd) (x : Num) : Nat × Flags :=
  match k with
  | .sint w => toInt (.sint w) w r x
  | .uint w => toInt (.uint w) w r x
  | .float f => f.round r x
  | .tap n => tapEncode n x

/-- Conversion between types (R214). -/
def convert (src dst : Nat) (r : Rnd) (b : Nat) : Nat × Flags := (tyKind dst).encode r ((tyKind src).decode b)

/-! f32 operations without flags (R122, R171), with RNE. -/

def f32Val (b : Nat) : Num := fF32.decode b
def f32NaN : Nat := 0x7FC00000

def f32Add (a b : Nat) : Nat := (fF32.round .rne ((f32Val a).add (f32Val b) false).1).1

/-- maximumNumber and minimumNumber of IEEE 754-2019, −0 below +0 (R122). -/
def maxNum (f : Fmt) (a b : Nat) : Nat :=
  let x := f.decode a
  let y := f.decode b
  if x.isNan then (if y.isNan then f.nan else b) else if y.isNan then a else if x.lt y true then b else a
def minNum (f : Fmt) (a b : Nat) : Nat :=
  let x := f.decode a
  let y := f.decode b
  if x.isNan then (if y.isNan then f.nan else b) else if y.isNan then a else if y.lt x true then b else a

end Sys2Proof.Machine
end

