-- ==== Sys2Proof/Config.lean ====
section
/-! DEFINITION. What one part fixes and the specification leaves open: constants without a body, so that no proof can rest on
a value of them, and the facts of the package that the specification does give. -/

namespace Sys2Proof.Config

/-- A value the specification leaves open; applied to the counter `free` of the state (log entry 2). -/
opaque freeValue : Nat → BitVec 64

/-- The words of the curator's trap handler on a logical die (R389): part of the firmware image, which the specification does
not print (log entry 15). -/
opaque handler : Nat → List (BitVec 32)

/-- A byte of another package's memory as the device's own reads find it: what it holds is that package's matter. Applied to CYCLE,
the package and the virtual address (log entry 31). -/
opaque remoteByte : Nat → BitVec 12 → Nat → BitVec 8

/-- The part's serial number (R458). -/
opaque serial : BitVec 128

/-- The part is a DB-1536-M, not a DB-1536-P (R458). -/
opaque formM : Bool

/-- The fuses that say which quads of a logical die are spares (R2): the model reads from them one place after another in the list of
those still enabled. -/
opaque spareFuse : Nat → Nat → Nat

/-- Eight bytes of an entry of the curator error log as a host reads it, first or second: the specification gives no layout. Applied to the
half and the entry's store, address and syndrome (log entry 83). -/
opaque logHalf : Nat → Nat × Nat × Nat → BitVec 64

/-- Whether a firmware image carries valid signatures under the fused keys (R416). -/
opaque imageVerifies : List (BitVec 8) → Bool

/-- The 16-bit security version of an image (R416): the specification gives it no place in the image. -/
opaque imageVersion : List (BitVec 8) → Nat

/-- Physical quads of a die, and how many of them are spares (R2). -/
def physQuads (die : Nat) : Nat := if die < 4 then 68 else 34
def spares (die : Nat) : Nat := if die < 4 then 4 else 2

/-- The floor map of a logical die: its enabled physical quads in ascending order, so that the place in the list is the logical number
(R2, R27). -/
def floorMap (die : Nat) : List Nat :=
  (List.range (spares die)).foldl (fun l k => l.eraseIdx (spareFuse die k % l.length)) (List.range (physQuads die))

/-- The physical quad of a logical one. -/
def physQuad (die quad : Nat) : Nat := (floorMap die)[quad]?.getD 0

/-- The floor-map record of R458. -/
def floorRecord : List (BitVec 8) :=
  (List.range 8).flatMap fun d => leBytes 16 ((floorMap d).foldl (fun n q => n + 2 ^ q) 0)

/-- ORDER (R458): in ASCII, with zero bytes after it. -/
def order : List (BitVec 8) :=
  let text : List Nat := [0x44, 0x42, 0x2D, 0x31, 0x35, 0x33, 0x36, 0x2D, if formM then 0x4D else 0x50]
  (text ++ List.replicate 7 0).map (BitVec.ofNat 8)

/-- The signatures of certificates and attestations (R420 to R423): 0 by ECDSA, 1 + index by LMS. -/
opaque sign : Nat → List (BitVec 8) → List (BitVec 8)

/-- The base and selector choice of a compressed block where several payloads of the chosen code stand for the block: the
proposed payload (R86; log entry 18). -/
opaque bdiPayload : Nat → List (BitVec 8) → List (BitVec 8)

/-- Whether a quad (64 × die + logical quad) stands in the east array of its die: the place of its island (R409); the
specification does not say which quads do. -/
opaque eastQuad : Nat → Bool

/-- The number of the face die or archive die cores: 64 quads on dies 0 to 3, 32 on dies 4 to 7 (R2, R27). -/
def quadsOf (die : Nat) : Nat := if die < 4 then 64 else 32

/-- Bytes of general stratum in a column (R42). -/
def stratumSize (die : Nat) : Nat := if die < 4 then 0x200000 else 0x600000

/-- Populated bytes of a die's LPDDR-6 (R56). -/
def dramSize (die : Nat) : Nat := if die < 4 then 0x1000000000 else 0x4000000000

/-- Start of the compression-map region within a die (R56). -/
def mapBase (die : Nat) : Nat := if die < 4 then 0xFF0000000 else 0x3FC0000000

end Sys2Proof.Config
end

