-- ==== Sys2Proof/Syntax.lean ====
section
/-! DEFINITION. The instructions and events of Cerya: the one inductive `Instr`, one constructor for each row of
spec/opcode_table.json. The fields of a word are the fields its format gives it (R225, R227, R230, R232, R235), under the
table's letters; the sync and hold bits of R222 are no field of it. The rows after `vpush` are events: they have no word,
and their fields say which object they concern and what arrives from outside the machine. -/

namespace Sys2Proof

/-- The four clusters of a strand (R178), in the order C, G, M, V of R136. -/
inductive Cluster where
  | c | g | m | v
deriving DecidableEq, Repr

/-- What a request to a home asks for (R65): a load of `n` bytes, a store of bytes, or an atomic given by its op4 value
(R229), its width in bytes, its operand and its comparand. -/
inductive PeerKind where
  | load (n : Nat)
  | store (data : List (BitVec 8))
  | atomic (op : BitVec 4) (wide : Bool) (v cmp : BitVec 64) (ret : Bool)
deriving DecidableEq, Repr

/-- A request between packages (R65): the sending package, the pod job number, the virtual address, the access and its scope. -/
structure PeerReq where
  pkg : BitVec 12
  pod : BitVec 32
  va : BitVec 56
  scope : BitVec 3
  kind : PeerKind
deriving DecidableEq, Repr

/-- The forms of the management command FABRIC (R413, R414, R419): number and the packages of the connected group, the inactive routing table, the commit. -/
inductive FabricCmd where
  | number (pkg : BitVec 12) (group : List (BitVec 12))
  | table (entries : List (BitVec 12 × Nat))
  | commit
deriving DecidableEq, Repr

/-- One constructor for each row of the opcode table, in the table's order. -/
inductive Instr where
  | add (d a b : BitVec 5)
  | sub (d a b : BitVec 5)
  | mul (d a b : BitVec 5)
  | mulh (d a b : BitVec 5)
  | mulhn (d a b : BitVec 5)
  | div (d a b : BitVec 5)
  | divn (d a b : BitVec 5)
  | rem (d a b : BitVec 5)
  | remn (d a b : BitVec 5)
  | and (d a b : BitVec 5)
  | or (d a b : BitVec 5)
  | xor (d a b : BitVec 5)
  | andn (d a b : BitVec 5)
  | shl (d a b : BitVec 5)
  | shr (d a b : BitVec 5)
  | sra (d a b : BitVec 5)
  | rot (d a b : BitVec 5)
  | min (d a b : BitVec 5)
  | max (d a b : BitVec 5)
  | minn (d a b : BitVec 5)
  | maxn (d a b : BitVec 5)
  | slt (d a b : BitVec 5)
  | sltn (d a b : BitVec 5)
  | seq (d a b : BitVec 5)
  | sne (d a b : BitVec 5)
  | clz (d a : BitVec 5)
  | ctz (d a : BitVec 5)
  | popc (d a : BitVec 5)
  | addi (d a : BitVec 5) (im : BitVec 14)
  | andi (d a : BitVec 5) (im : BitVec 14)
  | ori (d a : BitVec 5) (im : BitVec 14)
  | xori (d a : BitVec 5) (im : BitVec 14)
  | shli (d a : BitVec 5) (n : BitVec 6)
  | shri (d a : BitVec 5) (n : BitVec 6)
  | srai (d a : BitVec 5) (n : BitVec 6)
  | roti (d a : BitVec 5) (n : BitVec 6)
  | slti (d a : BitVec 5) (im : BitVec 14)
  | sltni (d a : BitVec 5) (im : BitVec 14)
  | lui (d : BitVec 5) (im : BitVec 19)
  | lhi (d : BitVec 5) (im : BitVec 19)
  | lea (d a b : BitVec 5) (k : BitVec 2)
  | bfx (d a : BitVec 5) (p w : BitVec 6)
  | bfxn (d a : BitVec 5) (p w : BitVec 6)
  | bfi (d a : BitVec 5) (p w : BitVec 6)
  | ptagGet (d a : BitVec 5)
  | ptagSet (d a b : BitVec 5)
  | ldI8 (t b : BitVec 5) (o : BitVec 11) (d : BitVec 3)
  | ldN8 (t b : BitVec 5) (o : BitVec 11) (d : BitVec 3)
  | ldI16 (t b : BitVec 5) (o : BitVec 11) (d : BitVec 3)
  | ldN16 (t b : BitVec 5) (o : BitVec 11) (d : BitVec 3)
  | ldI32 (t b : BitVec 5) (o : BitVec 11) (d : BitVec 3)
  | ldN32 (t b : BitVec 5) (o : BitVec 11) (d : BitVec 3)
  | ld64 (t b : BitVec 5) (o : BitVec 11) (d : BitVec 3)
  | st8 (t b : BitVec 5) (o : BitVec 11) (d : BitVec 3)
  | st16 (t b : BitVec 5) (o : BitVec 11) (d : BitVec 3)
  | st32 (t b : BitVec 5) (o : BitVec 11) (d : BitVec 3)
  | st64 (t b : BitVec 5) (o : BitVec 11) (d : BitVec 3)
  | sld (t b : BitVec 5) (o : BitVec 11) (d : BitVec 3)
  | sst (t b : BitVec 5) (o : BitVec 11) (d : BitVec 3)
  | bld (t b : BitVec 5) (o : BitVec 9) (f : BitVec 2) (d : BitVec 3)
  | bst (t b : BitVec 5) (o : BitVec 9) (f : BitVec 2) (d : BitVec 3)
  | aadd (d a v : BitVec 5) (z : BitVec 2) (p : BitVec 3)
  | aand (d a v : BitVec 5) (z : BitVec 2) (p : BitVec 3)
  | aor (d a v : BitVec 5) (z : BitVec 2) (p : BitVec 3)
  | axor (d a v : BitVec 5) (z : BitVec 2) (p : BitVec 3)
  | aswp (d a v : BitVec 5) (z : BitVec 2) (p : BitVec 3)
  | amin (d a v : BitVec 5) (z : BitVec 2) (p : BitVec 3)
  | amax (d a v : BitVec 5) (z : BitVec 2) (p : BitVec 3)
  | aminn (d a v : BitVec 5) (z : BitVec 2) (p : BitVec 3)
  | amaxn (d a v : BitVec 5) (z : BitVec 2) (p : BitVec 3)
  | afadd (d a v : BitVec 5) (z : BitVec 2) (p : BitVec 3)
  | afmax (d a v : BitVec 5) (z : BitVec 2) (p : BitVec 3)
  | afmin (d a v : BitVec 5) (z : BitVec 2) (p : BitVec 3)
  | acas (d a v : BitVec 5) (z : BitVec 2) (p : BitVec 3)
  | ared (a v : BitVec 5) (o : BitVec 4) (z : BitVec 2) (p : BitVec 3)
  | odseti (o sp : BitVec 3) (p : BitVec 8) (c : BitVec 3)
  | odset (o : BitVec 3) (a : BitVec 5)
  | osq (d : BitVec 5) (c : BitVec 2) (sp : BitVec 3)
  | tkpost (t : BitVec 4) (c : BitVec 2) (m : BitVec 8)
  | tkwait (t : BitVec 4)
  | tktest (d : BitVec 5) (t : BitVec 4)
  | tkclr (t : BitVec 4)
  | barInit (b a : BitVec 5) (o : BitVec 3)
  | barExpect (b a : BitVec 5) (o : BitVec 3)
  | barArrive (b : BitVec 5) (o : BitVec 3)
  | barWait (b a : BitVec 5) (o : BitVec 3)
  | barTest (b a : BitVec 5) (o : BitVec 3)
  | barInval (b : BitVec 5) (o : BitVec 3)
  | hbarAw (c o : BitVec 3)
  | hbarA (c o : BitVec 3)
  | hbarW (c o : BitVec 3)
  | sysRd (d : BitVec 5) (r : BitVec 12)
  | sysWr (a : BitVec 5) (r : BitVec 12)
  | trap (c : BitVec 16)
  | xgate
  | resume (a : BitVec 5)
  | rbase
  | yield
  | branch (a b : BitVec 5) (c : BitVec 3) (o : BitVec 11)
  | jal (d : BitVec 5) (o : BitVec 19)
  | jr (a : BitVec 5)
  | loop (l : BitVec 2) (c : BitVec 5) (n : BitVec 8) (t : BitVec 2)
  | lsplit (a b c : BitVec 8)
  | lbrk
  | done
  | nop
  | dep (p a b c : BitVec 4)
  | gmov (d : BitVec 3) (sp : BitVec 5)
  | gadd (d a : BitVec 3) (im : BitVec 18)
  | glea (d a b : BitVec 3) (k : BitVec 2)
  | itld (g a o : BitVec 3)
  | itst (g a o : BitVec 3)
  | itmod (g : BitVec 3) (f : BitVec 4) (a : BitVec 3)
  | chld (c : BitVec 2) (a o : BitVec 3)
  | sbind (q g : BitVec 3) (c : BitVec 2) (d n : BitVec 1) (o : BitVec 3)
  | sunbind (q : BitVec 3)
  | sskip (q a : BitVec 3)
  | cp (d sp l b o : BitVec 3) (c : BitVec 1) (z : BitVec 2)
  | cpCg (d sp p b o : BitVec 3)
  | cpst (d sp p b o : BitVec 3)
  | wsort (d sp p b o : BitVec 3) (c l : BitVec 2)
  | xsend (k q l o : BitVec 3)
  | xwait (k o : BitVec 3)
  | xgrant (k o : BitVec 3)
  | xstat (k d o : BitVec 3)
  | clAr (d sp l r o c : BitVec 3) (p t : BitVec 2)
  | clBc (d sp l r o c : BitVec 3)
  | clAg (d sp l o c : BitVec 3)
  | clRs (d sp l r o c : BitVec 3) (p t : BitVec 2)
  | mmov (d : BitVec 3) (sp : BitVec 5)
  | madd (d a : BitVec 3) (im : BitVec 18)
  | bktz (n t o : BitVec 3)
  | bkt (a l r t : BitVec 3) (c sp : BitVec 2) (o : BitVec 3)
  | bfin (c sp a r o : BitVec 3)
  | tmma (m : BitVec 2) (n : BitVec 6) (a b c : BitVec 3) (t : BitVec 4) (im : BitVec 1)
  | tmmaSp (m : BitVec 2) (n : BitVec 6) (a b c q t : BitVec 3) (im : BitVec 1)
  | spc (im v m n t o : BitVec 3)
  | accz (a n o : BitVec 3)
  | adrain (d a sp : BitVec 3) (t : BitVec 4) (o : BitVec 3)
  | qdrain (d a sp m : BitVec 3) (t : BitVec 4) (c o : BitVec 3)
  | quant2 (d a sp x : BitVec 3) (t : BitVec 4) (o : BitVec 3)
  | accmv (d a n o : BitVec 3)
  | mstat (d : BitVec 3) (sp : BitVec 4)
  | vsh (sp : BitVec 5)
  | vadd (w : BitVec 1) (d : BitVec 5) (a b : BitVec 6) (p : BitVec 3) (f : BitVec 1) (r : BitVec 2)
  | vsub (w : BitVec 1) (d : BitVec 5) (a b : BitVec 6) (p : BitVec 3) (f : BitVec 1) (r : BitVec 2)
  | vmul (w : BitVec 1) (d : BitVec 5) (a b : BitVec 6) (p : BitVec 3) (f : BitVec 1) (r : BitVec 2)
  | vfma (w : BitVec 1) (d : BitVec 5) (a b : BitVec 6) (p : BitVec 3) (f : BitVec 1) (r : BitVec 2)
  | vfms (w : BitVec 1) (d : BitVec 5) (a b : BitVec 6) (p : BitVec 3) (f : BitVec 1) (r : BitVec 2)
  | vnfma (w : BitVec 1) (d : BitVec 5) (a b : BitVec 6) (p : BitVec 3) (f : BitVec 1) (r : BitVec 2)
  | vmin (w : BitVec 1) (d : BitVec 5) (a b : BitVec 6) (p : BitVec 3) (f : BitVec 1) (r : BitVec 2)
  | vmax (w : BitVec 1) (d : BitVec 5) (a b : BitVec 6) (p : BitVec 3) (f : BitVec 1) (r : BitVec 2)
  | vminm (w : BitVec 1) (d : BitVec 5) (a b : BitVec 6) (p : BitVec 3) (f : BitVec 1) (r : BitVec 2)
  | vmaxm (w : BitVec 1) (d : BitVec 5) (a b : BitVec 6) (p : BitVec 3) (f : BitVec 1) (r : BitVec 2)
  | vabs (w : BitVec 1) (d : BitVec 5) (a : BitVec 6) (p : BitVec 3) (f : BitVec 1) (r : BitVec 2)
  | vneg (w : BitVec 1) (d : BitVec 5) (a : BitVec 6) (p : BitVec 3) (f : BitVec 1) (r : BitVec 2)
  | vand (w : BitVec 1) (d : BitVec 5) (a b : BitVec 6) (p : BitVec 3) (f : BitVec 1) (r : BitVec 2)
  | vor (w : BitVec 1) (d : BitVec 5) (a b : BitVec 6) (p : BitVec 3) (f : BitVec 1) (r : BitVec 2)
  | vxor (w : BitVec 1) (d : BitVec 5) (a b : BitVec 6) (p : BitVec 3) (f : BitVec 1) (r : BitVec 2)
  | vshl (w : BitVec 1) (d : BitVec 5) (a b : BitVec 6) (p : BitVec 3) (f : BitVec 1) (r : BitVec 2)
  | vshr (w : BitVec 1) (d : BitVec 5) (a b : BitVec 6) (p : BitVec 3) (f : BitVec 1) (r : BitVec 2)
  | vsra (w : BitVec 1) (d : BitVec 5) (a b : BitVec 6) (p : BitVec 3) (f : BitVec 1) (r : BitVec 2)
  | vcmp (w : BitVec 1) (d : BitVec 5) (a b : BitVec 6) (c : BitVec 3) (f : BitVec 1) (r : BitVec 2)
  | vsel (w : BitVec 1) (d : BitVec 5) (a b : BitVec 6) (p : BitVec 3) (f : BitVec 1) (r : BitVec 2)
  | vcvt (w : BitVec 1) (d : BitVec 5) (a : BitVec 6) (t : BitVec 4) (p : BitVec 3) (f : BitVec 1) (r : BitVec 2)
  | vred (w : BitVec 1) (d : BitVec 5) (a : BitVec 6) (x : BitVec 1) (o : BitVec 2) (p : BitVec 3) (f : BitVec 1) (r : BitVec 2)
  | vscan (w : BitVec 1) (d : BitVec 5) (a : BitVec 6) (x : BitVec 1) (o : BitVec 2) (p : BitVec 3) (f : BitVec 1) (r : BitVec 2)
  | vperm (w : BitVec 1) (d : BitVec 5) (a b : BitVec 6) (p : BitVec 3) (f : BitVec 1) (r : BitVec 2)
  | vbcast (w : BitVec 1) (d : BitVec 5) (a im : BitVec 6) (p : BitVec 3) (f : BitVec 1) (r : BitVec 2)
  | vtrn (w : BitVec 1) (d : BitVec 5) (a : BitVec 6) (p : BitVec 3) (f : BitVec 1) (r : BitVec 2)
  | vrcp (w : BitVec 1) (d : BitVec 5) (a : BitVec 6) (p : BitVec 3) (f : BitVec 1) (r : BitVec 2)
  | vrsq (w : BitVec 1) (d : BitVec 5) (a : BitVec 6) (p : BitVec 3) (f : BitVec 1) (r : BitVec 2)
  | vrfix (w : BitVec 1) (d : BitVec 5) (a b : BitVec 6) (p : BitVec 3) (f : BitVec 1) (r : BitVec 2)
  | vrsfix (w : BitVec 1) (d : BitVec 5) (a b : BitVec 6) (p : BitVec 3) (f : BitVec 1) (r : BitVec 2)
  | vexp2 (w : BitVec 1) (d : BitVec 5) (a : BitVec 6) (p : BitVec 3) (f : BitVec 1) (r : BitVec 2)
  | vlog2 (w : BitVec 1) (d : BitVec 5) (a : BitVec 6) (p : BitVec 3) (f : BitVec 1) (r : BitVec 2)
  | vsin (w : BitVec 1) (d : BitVec 5) (a : BitVec 6) (p : BitVec 3) (f : BitVec 1) (r : BitVec 2)
  | vcos (w : BitVec 1) (d : BitVec 5) (a : BitVec 6) (p : BitVec 3) (f : BitVec 1) (r : BitVec 2)
  | vsplat (w : BitVec 1) (d : BitVec 5) (k : BitVec 1) (sp : BitVec 5) (p : BitVec 3)
  | vomov (w : BitVec 1) (d : BitVec 5) (a : BitVec 6) (p : BitVec 3) (f : BitVec 1) (r : BitVec 2)
  | vmov (w : BitVec 1) (d : BitVec 5) (a : BitVec 6) (p : BitVec 3) (f : BitVec 1) (r : BitVec 2)
  | vld (d : BitVec 5) (im o p : BitVec 3)
  | vst (d : BitVec 5) (im o p : BitVec 3)
  | vbld (d : BitVec 5) (im o p : BitVec 3)
  | vbst (d : BitVec 5) (im o p : BitVec 3)
  | vsld (d : BitVec 5) (im o p : BitVec 3)
  | vsst (d : BitVec 5) (im o p : BitVec 3)
  | vgth (w : BitVec 1) (d : BitVec 5) (a : BitVec 6) (o p : BitVec 3)
  | vsct (d : BitVec 5) (a : BitVec 6) (o p : BitVec 3)
  | viset (im : BitVec 3) (sp : BitVec 5) (o : BitVec 3)
  | pset (p a : BitVec 3) (e : BitVec 2)
  | pfirst (p : BitVec 3) (a : BitVec 6)
  | pminmax (d a b : BitVec 3) (o : BitVec 1)
  | vfr (x : BitVec 3) (im : BitVec 2)
  | vfc (x : BitVec 3)
  | vmode (x : BitVec 3) (im : BitVec 2)
  | vpop (d : BitVec 5) (q p : BitVec 3)
  | vpush (d : BitVec 5) (q p : BitVec 3)
  | commandStart (op : Nat)
  | operationPerformed (op : Nat)
  | lateFault (op : Nat)
  | fullEmptyRelease (op : Nat)
  | streamGatherEntry (core slot : Nat) (q : BitVec 3)
  | streamScatterWrite (core slot : Nat) (q : BitVec 3)
  | rendezvous (core slot : Nat)
  | hbarRelease (job : BitVec 64) (scope : Nat) (site : Nat)
  | xsendDelivery (job : BitVec 64) (link : BitVec 16) (far : Bool)
  | permitReturn (job : BitVec 64) (link : BitVec 16) (far : Bool)
  | linkFailure (link : BitVec 16)
  | correctionFreezeEnd (core : Nat)
  | patrolScrub (core : Nat) (addr : Nat)
  | columnMigrationHold (die src dst : Nat)
  | columnMigrationMove (die : Nat)
  | columnMigrationResume (die : Nat)
  | hotQuadTimeout (die quad : Nat)
  | temperatureRead (die channel : Nat) (temp : BitVec 8)
  | refreshStateChange (die channel : Nat)
  | walkComplete (walk : Nat)
  | holdRetry (walk : Nat)
  | homeRequest (req : PeerReq)
  | peerResponse (op : Nat) (err : BitVec 8) (data : List (BitVec 8))
  | movedResponse (op : Nat) (home : BitVec 12)
  | migrateAsk (pod : BitVec 32) (va : BitVec 56) (pkg : BitVec 12)
  | migrateNewHome (pod : BitVec 32) (va : BitVec 56) (leaf : BitVec 64) (data : List (BitVec 8))
  | migrateRelease (pod : BitVec 32) (va : BitVec 56)
  | pageMove (asr : Nat) (va : BitVec 56) (die : Nat)
  | pageMoveFinish (asr : Nat) (va : BitVec 56)
  | inval (q : Nat)
  | invalComplete (inv : Nat)
  | launch (q : Nat)
  | replay (q : Nat)
  | replayNodeLaunch (rep node : Nat)
  | alloc (q : Nat)
  | free (q : Nat)
  | signal (q : Nat)
  | queueDescriptorWrite (port : BitVec 3) (q off : Nat) (data : List (BitVec 8))
  | queueTailWrite (port : BitVec 3) (q : Nat) (tail : BitVec 64)
  | queueErrorClear (port : BitVec 3) (q : Nat)
  | unitPlacement (die : Nat)
  | corRelease (job : BitVec 64)
  | strandStart (core slot : Nat)
  | strandEnd (core slot : Nat)
  | jobComplete (job : BitVec 64)
  | spillRingFaultResolved (quad : Nat)
  | spillRingTimeout (quad : Nat)
  | faultFreezeEnd (core : Nat)
  | trapHandlerEntry (core slot : Nat)
  | watchdogExpiry (core slot : Nat) (cluster : Cluster)
  | preemptRequest (job : BitVec 64) (unit : BitVec 24)
  | saveStart (core slot : Nat)
  | saveWrite (core slot : Nat)
  | saveTimeout (core slot : Nat)
  | restore (job : BitVec 64) (unit : BitVec 24)
  | jobkill (port : BitVec 3) (job : BitVec 64)
  | killDrained (job : BitVec 64)
  | killCertificate (job : BitVec 64)
  | claim (port : BitVec 3)
  | handover (port : BitVec 3) (value : BitVec 64)
  | ownerLinkTimeout
  | portLinkChange (port : BitVec 3) (up : Bool)
  | bar4Read (port : BitVec 3) (off len : Nat)
  | bar4Write (port : BitVec 3) (off : Nat) (data : List (BitVec 8))
  | registerWrite (port : BitVec 3) (off : Nat) (value : BitVec 64)
  | firmwareLoad (port : BitVec 3) (img : List (BitVec 8))
  | coldStart
  | warmStart (port : Option (BitVec 3))
  | status
  | lease
  | scrub
  | attest (port : Option (BitVec 3)) (nonce : List (BitVec 8))
  | portmode (modes : BitVec 5)
  | fabric (cmd : FabricCmd)
  | image (img : List (BitVec 8))
  | svnraise
  | release
  | routingReport (member : BitVec 12) (count : Nat)
  | deliveryPacket (epoch : BitVec 32) (seq : BitVec 16) (req : PeerReq)
  | deliveryAck (ctx : Nat) (seq : BitVec 16)
  | retransmitTimeout (ctx : Nat)
  | contextTeardown (ctx : Nat)
  | contextClose (pkg : BitVec 12) (pod : BitVec 32) (epoch : BitVec 32)
  | closeAbandon (ctx : Nat)
  | allowanceUpdate (levels : List (BitVec 4))
  | malformedHeader (q : Nat)
  | migrationRefused (pod : BitVec 32) (va : BitVec 56)
  | fibreDown (fibre : Nat)
  | powerFailure
deriving DecidableEq, Repr

end Sys2Proof
end

