-- ==== Sys2Proof/WellFormed.lean ====
section
/-! DEFINITION. Which instructions a cluster accepts: the checks of steps 1 and 3 of R223 that the layout of a word does not
make by itself, constructor by constructor. -/

namespace Sys2Proof

/-- Step 1 of R223 beyond the fixed bits: every minor field holds an assigned value (R229, R231, R233, R235, R236, R363)
and every field the instruction does not read is zero. -/
def Instr.minorOk : Instr → Bool
  | .bld _ _ _ f _ => decide (f ≠ 3)
  | .bst _ _ _ f _ => decide (f ≠ 3)
  | .ared _ _ o z _ => decide (o.toNat ≤ 11 ∧ z.toNat ≤ 1)
  | .branch _ _ c _ => decide (c.toNat ≤ 5)
  | .itmod _ f _ => decide (f.toNat ≤ 8)
  | .sbind _ _ c _ n _ => decide (n = 1 ∨ c = 0)
  | .cp _ _ _ _ _ _ z => decide (z ≠ 3)
  | .wsort _ _ _ _ _ c _ => decide (c ≠ 3)
  | .clAr _ _ _ r _ _ p t => decide (p ≠ 3 ∧ t ≠ 3 ∧ r = 0)
  | .clRs _ _ _ r _ _ p t => decide (p ≠ 3 ∧ t ≠ 3 ∧ r = 0)
  | .bkt _ _ _ _ c _ _ => decide (c ≠ 3)
  | .tmma m _ _ _ _ _ _ => decide (m ≠ 3)
  | .tmmaSp m _ _ _ _ _ _ _ => decide (m ≠ 3)
  | .mstat _ sp => decide (sp.toNat ≤ 2)
  | .vcmp _ _ _ _ c _ _ => decide (c ≠ 7)
  | .vred _ _ _ _ o _ _ _ => decide (o ≠ 3)
  | .vscan _ _ _ _ o _ _ _ => decide (o ≠ 3)
  | .vsplat _ _ k sp _ => decide (k = 1 ∨ sp.toNat < 8)
  | .vfr _ im => decide (im.toNat ≤ 1)
  | .vmode x im => decide (x = 0 ∨ im = 0)
  | .aadd _ _ _ z _ => decide (z.toNat ≤ 1)
  | .aand _ _ _ z _ => decide (z.toNat ≤ 1)
  | .aor _ _ _ z _ => decide (z.toNat ≤ 1)
  | .axor _ _ _ z _ => decide (z.toNat ≤ 1)
  | .aswp _ _ _ z _ => decide (z.toNat ≤ 1)
  | .amin _ _ _ z _ => decide (z.toNat ≤ 1)
  | .amax _ _ _ z _ => decide (z.toNat ≤ 1)
  | .aminn _ _ _ z _ => decide (z.toNat ≤ 1)
  | .amaxn _ _ _ z _ => decide (z.toNat ≤ 1)
  | .afadd _ _ _ z _ => decide (z.toNat ≤ 1)
  | .afmax _ _ _ z _ => decide (z.toNat ≤ 1)
  | .afmin _ _ _ z _ => decide (z.toNat ≤ 1)
  | .acas _ _ _ z _ => decide (z.toNat ≤ 1)
  | _ => true

/-- Step 3 of R223: a register field of the common block names one of eight registers in G, M and V (R224), and a V source
field holds 0 to 44 (R235). -/
def Instr.regsOk (cl : Cluster) : Instr → Bool
  | .branch a b _ _ => cl == .c || decide (a.toNat < 8 ∧ b.toNat < 8)
  | .jal d _ => cl == .c || decide (d.toNat < 8)
  | .jr a => cl == .c || decide (a.toNat < 8)
  | .loop _ c _ _ => cl == .c || decide (c.toNat < 8)
  | .vadd _ _ a b _ _ _ => decide (a.toNat ≤ 44 ∧ b.toNat ≤ 44)
  | .vsub _ _ a b _ _ _ => decide (a.toNat ≤ 44 ∧ b.toNat ≤ 44)
  | .vmul _ _ a b _ _ _ => decide (a.toNat ≤ 44 ∧ b.toNat ≤ 44)
  | .vfma _ _ a b _ _ _ => decide (a.toNat ≤ 44 ∧ b.toNat ≤ 44)
  | .vfms _ _ a b _ _ _ => decide (a.toNat ≤ 44 ∧ b.toNat ≤ 44)
  | .vnfma _ _ a b _ _ _ => decide (a.toNat ≤ 44 ∧ b.toNat ≤ 44)
  | .vmin _ _ a b _ _ _ => decide (a.toNat ≤ 44 ∧ b.toNat ≤ 44)
  | .vmax _ _ a b _ _ _ => decide (a.toNat ≤ 44 ∧ b.toNat ≤ 44)
  | .vminm _ _ a b _ _ _ => decide (a.toNat ≤ 44 ∧ b.toNat ≤ 44)
  | .vmaxm _ _ a b _ _ _ => decide (a.toNat ≤ 44 ∧ b.toNat ≤ 44)
  | .vabs _ _ a _ _ _ => decide (a.toNat ≤ 44)
  | .vneg _ _ a _ _ _ => decide (a.toNat ≤ 44)
  | .vand _ _ a b _ _ _ => decide (a.toNat ≤ 44 ∧ b.toNat ≤ 44)
  | .vor _ _ a b _ _ _ => decide (a.toNat ≤ 44 ∧ b.toNat ≤ 44)
  | .vxor _ _ a b _ _ _ => decide (a.toNat ≤ 44 ∧ b.toNat ≤ 44)
  | .vshl _ _ a b _ _ _ => decide (a.toNat ≤ 44 ∧ b.toNat ≤ 44)
  | .vshr _ _ a b _ _ _ => decide (a.toNat ≤ 44 ∧ b.toNat ≤ 44)
  | .vsra _ _ a b _ _ _ => decide (a.toNat ≤ 44 ∧ b.toNat ≤ 44)
  | .vcmp _ _ a b _ _ _ => decide (a.toNat ≤ 44 ∧ b.toNat ≤ 44)
  | .vsel _ _ a b _ _ _ => decide (a.toNat ≤ 44 ∧ b.toNat ≤ 44)
  | .vcvt _ _ a _ _ _ _ => decide (a.toNat ≤ 44)
  | .vred _ _ a _ _ _ _ _ => decide (a.toNat ≤ 44)
  | .vscan _ _ a _ _ _ _ _ => decide (a.toNat ≤ 44)
  | .vperm _ _ a b _ _ _ => decide (a.toNat ≤ 44 ∧ b.toNat ≤ 44)
  | .vbcast _ _ a _ _ _ _ => decide (a.toNat ≤ 44)
  | .vtrn _ _ a _ _ _ => decide (a.toNat ≤ 44)
  | .vrcp _ _ a _ _ _ => decide (a.toNat ≤ 44)
  | .vrsq _ _ a _ _ _ => decide (a.toNat ≤ 44)
  | .vrfix _ _ a b _ _ _ => decide (a.toNat ≤ 44 ∧ b.toNat ≤ 44)
  | .vrsfix _ _ a b _ _ _ => decide (a.toNat ≤ 44 ∧ b.toNat ≤ 44)
  | .vexp2 _ _ a _ _ _ => decide (a.toNat ≤ 44)
  | .vlog2 _ _ a _ _ _ => decide (a.toNat ≤ 44)
  | .vsin _ _ a _ _ _ => decide (a.toNat ≤ 44)
  | .vcos _ _ a _ _ _ => decide (a.toNat ≤ 44)
  | .vomov _ _ a _ _ _ => decide (a.toNat ≤ 44)
  | .vmov _ _ a _ _ _ => decide (a.toNat ≤ 44)
  | .vgth _ _ a _ _ => decide (a.toNat ≤ 44)
  | .vsct _ a _ _ => decide (a.toNat ≤ 44)
  | .pfirst _ a => decide (a.toNat ≤ 44)
  | _ => true

/-- The clusters whose streams may hold an instruction (R225, R228, R230, R232, R236). Events stand in no stream. -/
def Instr.standsIn (i : Instr) (cl : Cluster) : Bool :=
  match i with
  | .add .. => cl == .c
  | .sub .. => cl == .c
  | .mul .. => cl == .c
  | .mulh .. => cl == .c
  | .mulhn .. => cl == .c
  | .div .. => cl == .c
  | .divn .. => cl == .c
  | .rem .. => cl == .c
  | .remn .. => cl == .c
  | .and .. => cl == .c
  | .or .. => cl == .c
  | .xor .. => cl == .c
  | .andn .. => cl == .c
  | .shl .. => cl == .c
  | .shr .. => cl == .c
  | .sra .. => cl == .c
  | .rot .. => cl == .c
  | .min .. => cl == .c
  | .max .. => cl == .c
  | .minn .. => cl == .c
  | .maxn .. => cl == .c
  | .slt .. => cl == .c
  | .sltn .. => cl == .c
  | .seq .. => cl == .c
  | .sne .. => cl == .c
  | .clz .. => cl == .c
  | .ctz .. => cl == .c
  | .popc .. => cl == .c
  | .addi .. => cl == .c
  | .andi .. => cl == .c
  | .ori .. => cl == .c
  | .xori .. => cl == .c
  | .shli .. => cl == .c
  | .shri .. => cl == .c
  | .srai .. => cl == .c
  | .roti .. => cl == .c
  | .slti .. => cl == .c
  | .sltni .. => cl == .c
  | .lui .. => cl == .c
  | .lhi .. => cl == .c
  | .lea .. => cl == .c
  | .bfx .. => cl == .c
  | .bfxn .. => cl == .c
  | .bfi .. => cl == .c
  | .ptagGet .. => cl == .c
  | .ptagSet .. => cl == .c
  | .ldI8 .. => cl == .c
  | .ldN8 .. => cl == .c
  | .ldI16 .. => cl == .c
  | .ldN16 .. => cl == .c
  | .ldI32 .. => cl == .c
  | .ldN32 .. => cl == .c
  | .ld64 .. => cl == .c
  | .st8 .. => cl == .c
  | .st16 .. => cl == .c
  | .st32 .. => cl == .c
  | .st64 .. => cl == .c
  | .sld .. => cl == .c
  | .sst .. => cl == .c
  | .bld .. => cl == .c
  | .bst .. => cl == .c
  | .aadd .. => cl == .c
  | .aand .. => cl == .c
  | .aor .. => cl == .c
  | .axor .. => cl == .c
  | .aswp .. => cl == .c
  | .amin .. => cl == .c
  | .amax .. => cl == .c
  | .aminn .. => cl == .c
  | .amaxn .. => cl == .c
  | .afadd .. => cl == .c
  | .afmax .. => cl == .c
  | .afmin .. => cl == .c
  | .acas .. => cl == .c
  | .ared .. => cl == .c
  | .odseti .. => cl == .c
  | .odset .. => cl == .c
  | .osq .. => cl == .c
  | .tkpost .. => cl == .c
  | .tkwait .. => cl == .c
  | .tktest .. => cl == .c
  | .tkclr .. => cl == .c
  | .barInit .. => cl == .c
  | .barExpect .. => cl == .c
  | .barArrive .. => cl == .c
  | .barWait .. => cl == .c
  | .barTest .. => cl == .c
  | .barInval .. => cl == .c
  | .hbarAw .. => cl == .c
  | .hbarA .. => cl == .c
  | .hbarW .. => cl == .c
  | .sysRd .. => cl == .c
  | .sysWr .. => cl == .c
  | .trap .. => cl == .c
  | .xgate .. => cl == .c
  | .resume .. => cl == .c
  | .rbase .. => cl == .c
  | .yield .. => cl == .c
  | .branch .. => true
  | .jal .. => true
  | .jr .. => true
  | .loop .. => true
  | .lsplit .. => true
  | .lbrk .. => true
  | .done .. => true
  | .nop .. => true
  | .dep .. => cl == .g || cl == .m
  | .gmov .. => cl == .g
  | .gadd .. => cl == .g
  | .glea .. => cl == .g
  | .itld .. => cl == .g
  | .itst .. => cl == .g
  | .itmod .. => cl == .g
  | .chld .. => cl == .g
  | .sbind .. => cl == .g
  | .sunbind .. => cl == .g
  | .sskip .. => cl == .g
  | .cp .. => cl == .g
  | .cpCg .. => cl == .g
  | .cpst .. => cl == .g
  | .wsort .. => cl == .g
  | .xsend .. => cl == .g
  | .xwait .. => cl == .g
  | .xgrant .. => cl == .g
  | .xstat .. => cl == .g
  | .clAr .. => cl == .g
  | .clBc .. => cl == .g
  | .clAg .. => cl == .g
  | .clRs .. => cl == .g
  | .mmov .. => cl == .m
  | .madd .. => cl == .m
  | .bktz .. => cl == .m
  | .bkt .. => cl == .m
  | .bfin .. => cl == .m
  | .tmma .. => cl == .m
  | .tmmaSp .. => cl == .m
  | .spc .. => cl == .m
  | .accz .. => cl == .m
  | .adrain .. => cl == .m
  | .qdrain .. => cl == .m
  | .quant2 .. => cl == .m
  | .accmv .. => cl == .m
  | .mstat .. => cl == .m
  | .vsh .. => cl == .v
  | .vadd .. => cl == .v
  | .vsub .. => cl == .v
  | .vmul .. => cl == .v
  | .vfma .. => cl == .v
  | .vfms .. => cl == .v
  | .vnfma .. => cl == .v
  | .vmin .. => cl == .v
  | .vmax .. => cl == .v
  | .vminm .. => cl == .v
  | .vmaxm .. => cl == .v
  | .vabs .. => cl == .v
  | .vneg .. => cl == .v
  | .vand .. => cl == .v
  | .vor .. => cl == .v
  | .vxor .. => cl == .v
  | .vshl .. => cl == .v
  | .vshr .. => cl == .v
  | .vsra .. => cl == .v
  | .vcmp .. => cl == .v
  | .vsel .. => cl == .v
  | .vcvt .. => cl == .v
  | .vred .. => cl == .v
  | .vscan .. => cl == .v
  | .vperm .. => cl == .v
  | .vbcast .. => cl == .v
  | .vtrn .. => cl == .v
  | .vrcp .. => cl == .v
  | .vrsq .. => cl == .v
  | .vrfix .. => cl == .v
  | .vrsfix .. => cl == .v
  | .vexp2 .. => cl == .v
  | .vlog2 .. => cl == .v
  | .vsin .. => cl == .v
  | .vcos .. => cl == .v
  | .vsplat .. => cl == .v
  | .vomov .. => cl == .v
  | .vmov .. => cl == .v
  | .vld .. => cl == .v
  | .vst .. => cl == .v
  | .vbld .. => cl == .v
  | .vbst .. => cl == .v
  | .vsld .. => cl == .v
  | .vsst .. => cl == .v
  | .vgth .. => cl == .v
  | .vsct .. => cl == .v
  | .viset .. => cl == .v
  | .pset .. => cl == .v
  | .pfirst .. => cl == .v
  | .pminmax .. => cl == .v
  | .vfr .. => cl == .v
  | .vfc .. => cl == .v
  | .vmode .. => cl == .v
  | .vpop .. => cl == .v
  | .vpush .. => cl == .v
  | _ => false

/-- A well-formed instruction of a cluster: it passes steps 1 and 3 of R223. -/
def Instr.wf (cl : Cluster) (i : Instr) : Bool := i.standsIn cl && i.minorOk && i.regsOk cl

/-- The engine commands a `dep` prefix may stand before (R109). -/
def Instr.takesDep : Instr → Bool
  | .cp .. | .cpCg .. | .cpst .. | .wsort .. | .xsend .. | .clAr .. | .clBc .. | .clAg .. | .clRs .. => true
  | .bktz .. | .bkt .. | .bfin .. | .tmma .. | .tmmaSp .. | .spc .. | .accz .. | .adrain .. | .qdrain .. | .quant2 .. | .accmv .. => true
  | _ => false

/-- True of the constructors that are events: rows of the opcode table without a word. -/
def Instr.isEvent (i : Instr) : Bool :=
  !(i.standsIn .c || i.standsIn .g || i.standsIn .m || i.standsIn .v)

end Sys2Proof
end

