-- ==== Sys2Proof/Decode.lean ====
section
/-! DEFINITION. Decoding: total on every 32-bit word in every cluster, by the formats and opcode maps of R225 to R236, with
the outcome of R223; and the encoder, written from the same layouts. A word is read as a number with bit 0 its least
significant bit (R222). -/

namespace Sys2Proof

/-- Why a word is no instruction: the failing step of R223, whose cause is 0x01 (step 1) or 0x02 (step 3). -/
inductive DecodeError where
  /-- Step 1: an unassigned major or minor, or a nonzero zero field. Cause 0x01. -/
  | illegalInstruction
  /-- Step 3: a register field that names no register of the cluster. Cause 0x02. -/
  | illegalOperand
deriving DecidableEq, Repr

/-- The words of the common control block (R225), the same in every cluster. -/
def rawCommon (w : Nat) : Option Instr :=
  match w / 16777216 % 64 with
  | 56 => some (.branch (.ofNat 5 (w / 524288 % 32)) (.ofNat 5 (w / 16384 % 32)) (.ofNat 3 (w / 2048 % 8)) (.ofNat 11 (w % 2048)))
  | 57 => some (.jal (.ofNat 5 (w / 524288 % 32)) (.ofNat 19 (w % 524288)))
  | 58 => if w % 524288 = 0 then some (.jr (.ofNat 5 (w / 524288 % 32)))
    else none
  | 59 => if w % 128 = 0 then some (.loop (.ofNat 2 (w / 4194304 % 4)) (.ofNat 5 (w / 131072 % 32)) (.ofNat 8 (w / 512 % 256)) (.ofNat 2 (w / 128 % 4)))
    else none
  | 60 => some (.lsplit (.ofNat 8 (w / 65536 % 256)) (.ofNat 8 (w / 256 % 256)) (.ofNat 8 (w % 256)))
  | 61 => if w % 16777216 = 0 then some (.lbrk)
    else none
  | 62 => if w % 16777216 = 0 then some (.done)
    else none
  | 63 => if w % 16777216 = 0 then some (.nop)
    else none
  | _ => none

/-- The words of the C cluster (R227 to R229). -/
def rawC (w : Nat) : Option Instr :=
  match w / 16777216 % 64 with
  | 1 => if w % 512 = 0 then some (.add (.ofNat 5 (w / 524288 % 32)) (.ofNat 5 (w / 16384 % 32)) (.ofNat 5 (w / 512 % 32)))
    else if w % 512 = 8 then some (.sub (.ofNat 5 (w / 524288 % 32)) (.ofNat 5 (w / 16384 % 32)) (.ofNat 5 (w / 512 % 32)))
    else if w % 512 = 16 then some (.mul (.ofNat 5 (w / 524288 % 32)) (.ofNat 5 (w / 16384 % 32)) (.ofNat 5 (w / 512 % 32)))
    else if w % 512 = 24 then some (.mulh (.ofNat 5 (w / 524288 % 32)) (.ofNat 5 (w / 16384 % 32)) (.ofNat 5 (w / 512 % 32)))
    else if w % 512 = 32 then some (.mulhn (.ofNat 5 (w / 524288 % 32)) (.ofNat 5 (w / 16384 % 32)) (.ofNat 5 (w / 512 % 32)))
    else if w % 512 = 40 then some (.div (.ofNat 5 (w / 524288 % 32)) (.ofNat 5 (w / 16384 % 32)) (.ofNat 5 (w / 512 % 32)))
    else if w % 512 = 48 then some (.divn (.ofNat 5 (w / 524288 % 32)) (.ofNat 5 (w / 16384 % 32)) (.ofNat 5 (w / 512 % 32)))
    else if w % 512 = 56 then some (.rem (.ofNat 5 (w / 524288 % 32)) (.ofNat 5 (w / 16384 % 32)) (.ofNat 5 (w / 512 % 32)))
    else if w % 512 = 64 then some (.remn (.ofNat 5 (w / 524288 % 32)) (.ofNat 5 (w / 16384 % 32)) (.ofNat 5 (w / 512 % 32)))
    else if w % 512 = 72 then some (.and (.ofNat 5 (w / 524288 % 32)) (.ofNat 5 (w / 16384 % 32)) (.ofNat 5 (w / 512 % 32)))
    else if w % 512 = 80 then some (.or (.ofNat 5 (w / 524288 % 32)) (.ofNat 5 (w / 16384 % 32)) (.ofNat 5 (w / 512 % 32)))
    else if w % 512 = 88 then some (.xor (.ofNat 5 (w / 524288 % 32)) (.ofNat 5 (w / 16384 % 32)) (.ofNat 5 (w / 512 % 32)))
    else if w % 512 = 96 then some (.andn (.ofNat 5 (w / 524288 % 32)) (.ofNat 5 (w / 16384 % 32)) (.ofNat 5 (w / 512 % 32)))
    else if w % 512 = 104 then some (.shl (.ofNat 5 (w / 524288 % 32)) (.ofNat 5 (w / 16384 % 32)) (.ofNat 5 (w / 512 % 32)))
    else if w % 512 = 112 then some (.shr (.ofNat 5 (w / 524288 % 32)) (.ofNat 5 (w / 16384 % 32)) (.ofNat 5 (w / 512 % 32)))
    else if w % 512 = 120 then some (.sra (.ofNat 5 (w / 524288 % 32)) (.ofNat 5 (w / 16384 % 32)) (.ofNat 5 (w / 512 % 32)))
    else if w % 512 = 128 then some (.rot (.ofNat 5 (w / 524288 % 32)) (.ofNat 5 (w / 16384 % 32)) (.ofNat 5 (w / 512 % 32)))
    else if w % 512 = 136 then some (.min (.ofNat 5 (w / 524288 % 32)) (.ofNat 5 (w / 16384 % 32)) (.ofNat 5 (w / 512 % 32)))
    else if w % 512 = 144 then some (.max (.ofNat 5 (w / 524288 % 32)) (.ofNat 5 (w / 16384 % 32)) (.ofNat 5 (w / 512 % 32)))
    else if w % 512 = 152 then some (.minn (.ofNat 5 (w / 524288 % 32)) (.ofNat 5 (w / 16384 % 32)) (.ofNat 5 (w / 512 % 32)))
    else if w % 512 = 160 then some (.maxn (.ofNat 5 (w / 524288 % 32)) (.ofNat 5 (w / 16384 % 32)) (.ofNat 5 (w / 512 % 32)))
    else if w % 512 = 168 then some (.slt (.ofNat 5 (w / 524288 % 32)) (.ofNat 5 (w / 16384 % 32)) (.ofNat 5 (w / 512 % 32)))
    else if w % 512 = 176 then some (.sltn (.ofNat 5 (w / 524288 % 32)) (.ofNat 5 (w / 16384 % 32)) (.ofNat 5 (w / 512 % 32)))
    else if w % 512 = 184 then some (.seq (.ofNat 5 (w / 524288 % 32)) (.ofNat 5 (w / 16384 % 32)) (.ofNat 5 (w / 512 % 32)))
    else if w % 512 = 192 then some (.sne (.ofNat 5 (w / 524288 % 32)) (.ofNat 5 (w / 16384 % 32)) (.ofNat 5 (w / 512 % 32)))
    else if w % 16384 = 200 then some (.clz (.ofNat 5 (w / 524288 % 32)) (.ofNat 5 (w / 16384 % 32)))
    else if w % 16384 = 208 then some (.ctz (.ofNat 5 (w / 524288 % 32)) (.ofNat 5 (w / 16384 % 32)))
    else if w % 16384 = 216 then some (.popc (.ofNat 5 (w / 524288 % 32)) (.ofNat 5 (w / 16384 % 32)))
    else none
  | 2 => some (.addi (.ofNat 5 (w / 524288 % 32)) (.ofNat 5 (w / 16384 % 32)) (.ofNat 14 (w % 16384)))
  | 3 => some (.andi (.ofNat 5 (w / 524288 % 32)) (.ofNat 5 (w / 16384 % 32)) (.ofNat 14 (w % 16384)))
  | 4 => some (.ori (.ofNat 5 (w / 524288 % 32)) (.ofNat 5 (w / 16384 % 32)) (.ofNat 14 (w % 16384)))
  | 5 => some (.xori (.ofNat 5 (w / 524288 % 32)) (.ofNat 5 (w / 16384 % 32)) (.ofNat 14 (w % 16384)))
  | 6 => if w / 64 % 256 = 0 then some (.shli (.ofNat 5 (w / 524288 % 32)) (.ofNat 5 (w / 16384 % 32)) (.ofNat 6 (w % 64)))
    else if w / 64 % 256 = 64 then some (.shri (.ofNat 5 (w / 524288 % 32)) (.ofNat 5 (w / 16384 % 32)) (.ofNat 6 (w % 64)))
    else if w / 64 % 256 = 128 then some (.srai (.ofNat 5 (w / 524288 % 32)) (.ofNat 5 (w / 16384 % 32)) (.ofNat 6 (w % 64)))
    else if w / 64 % 256 = 192 then some (.roti (.ofNat 5 (w / 524288 % 32)) (.ofNat 5 (w / 16384 % 32)) (.ofNat 6 (w % 64)))
    else none
  | 7 => some (.slti (.ofNat 5 (w / 524288 % 32)) (.ofNat 5 (w / 16384 % 32)) (.ofNat 14 (w % 16384)))
  | 8 => some (.sltni (.ofNat 5 (w / 524288 % 32)) (.ofNat 5 (w / 16384 % 32)) (.ofNat 14 (w % 16384)))
  | 9 => some (.lui (.ofNat 5 (w / 524288 % 32)) (.ofNat 19 (w % 524288)))
  | 10 => some (.lhi (.ofNat 5 (w / 524288 % 32)) (.ofNat 19 (w % 524288)))
  | 11 => if w % 8 = 0 ∧ w / 32 % 16 = 0 then some (.lea (.ofNat 5 (w / 524288 % 32)) (.ofNat 5 (w / 16384 % 32)) (.ofNat 5 (w / 512 % 32)) (.ofNat 2 (w / 8 % 4)))
    else none
  | 12 => if w % 4 = 0 then some (.bfx (.ofNat 5 (w / 524288 % 32)) (.ofNat 5 (w / 16384 % 32)) (.ofNat 6 (w / 256 % 64)) (.ofNat 6 (w / 4 % 64)))
    else if w % 4 = 1 then some (.bfxn (.ofNat 5 (w / 524288 % 32)) (.ofNat 5 (w / 16384 % 32)) (.ofNat 6 (w / 256 % 64)) (.ofNat 6 (w / 4 % 64)))
    else if w % 4 = 2 then some (.bfi (.ofNat 5 (w / 524288 % 32)) (.ofNat 5 (w / 16384 % 32)) (.ofNat 6 (w / 256 % 64)) (.ofNat 6 (w / 4 % 64)))
    else none
  | 13 => if w % 16384 = 0 then some (.ptagGet (.ofNat 5 (w / 524288 % 32)) (.ofNat 5 (w / 16384 % 32)))
    else if w % 512 = 8 then some (.ptagSet (.ofNat 5 (w / 524288 % 32)) (.ofNat 5 (w / 16384 % 32)) (.ofNat 5 (w / 512 % 32)))
    else none
  | 16 => some (.ldI8 (.ofNat 5 (w / 524288 % 32)) (.ofNat 5 (w / 16384 % 32)) (.ofNat 11 (w / 8 % 2048)) (.ofNat 3 (w % 8)))
  | 17 => some (.ldN8 (.ofNat 5 (w / 524288 % 32)) (.ofNat 5 (w / 16384 % 32)) (.ofNat 11 (w / 8 % 2048)) (.ofNat 3 (w % 8)))
  | 18 => some (.ldI16 (.ofNat 5 (w / 524288 % 32)) (.ofNat 5 (w / 16384 % 32)) (.ofNat 11 (w / 8 % 2048)) (.ofNat 3 (w % 8)))
  | 19 => some (.ldN16 (.ofNat 5 (w / 524288 % 32)) (.ofNat 5 (w / 16384 % 32)) (.ofNat 11 (w / 8 % 2048)) (.ofNat 3 (w % 8)))
  | 20 => some (.ldI32 (.ofNat 5 (w / 524288 % 32)) (.ofNat 5 (w / 16384 % 32)) (.ofNat 11 (w / 8 % 2048)) (.ofNat 3 (w % 8)))
  | 21 => some (.ldN32 (.ofNat 5 (w / 524288 % 32)) (.ofNat 5 (w / 16384 % 32)) (.ofNat 11 (w / 8 % 2048)) (.ofNat 3 (w % 8)))
  | 22 => some (.ld64 (.ofNat 5 (w / 524288 % 32)) (.ofNat 5 (w / 16384 % 32)) (.ofNat 11 (w / 8 % 2048)) (.ofNat 3 (w % 8)))
  | 23 => some (.st8 (.ofNat 5 (w / 524288 % 32)) (.ofNat 5 (w / 16384 % 32)) (.ofNat 11 (w / 8 % 2048)) (.ofNat 3 (w % 8)))
  | 24 => some (.st16 (.ofNat 5 (w / 524288 % 32)) (.ofNat 5 (w / 16384 % 32)) (.ofNat 11 (w / 8 % 2048)) (.ofNat 3 (w % 8)))
  | 25 => some (.st32 (.ofNat 5 (w / 524288 % 32)) (.ofNat 5 (w / 16384 % 32)) (.ofNat 11 (w / 8 % 2048)) (.ofNat 3 (w % 8)))
  | 26 => some (.st64 (.ofNat 5 (w / 524288 % 32)) (.ofNat 5 (w / 16384 % 32)) (.ofNat 11 (w / 8 % 2048)) (.ofNat 3 (w % 8)))
  | 27 => some (.sld (.ofNat 5 (w / 524288 % 32)) (.ofNat 5 (w / 16384 % 32)) (.ofNat 11 (w / 8 % 2048)) (.ofNat 3 (w % 8)))
  | 28 => some (.sst (.ofNat 5 (w / 524288 % 32)) (.ofNat 5 (w / 16384 % 32)) (.ofNat 11 (w / 8 % 2048)) (.ofNat 3 (w % 8)))
  | 29 => some (.bld (.ofNat 5 (w / 524288 % 32)) (.ofNat 5 (w / 16384 % 32)) (.ofNat 9 (w / 32 % 512)) (.ofNat 2 (w / 8 % 4)) (.ofNat 3 (w % 8)))
  | 30 => some (.bst (.ofNat 5 (w / 524288 % 32)) (.ofNat 5 (w / 16384 % 32)) (.ofNat 9 (w / 32 % 512)) (.ofNat 2 (w / 8 % 4)) (.ofNat 3 (w % 8)))
  | 32 => if w / 32 % 16 = 0 then some (.aadd (.ofNat 5 (w / 524288 % 32)) (.ofNat 5 (w / 16384 % 32)) (.ofNat 5 (w / 512 % 32)) (.ofNat 2 (w / 8 % 4)) (.ofNat 3 (w % 8)))
    else if w / 32 % 16 = 1 then some (.aand (.ofNat 5 (w / 524288 % 32)) (.ofNat 5 (w / 16384 % 32)) (.ofNat 5 (w / 512 % 32)) (.ofNat 2 (w / 8 % 4)) (.ofNat 3 (w % 8)))
    else if w / 32 % 16 = 2 then some (.aor (.ofNat 5 (w / 524288 % 32)) (.ofNat 5 (w / 16384 % 32)) (.ofNat 5 (w / 512 % 32)) (.ofNat 2 (w / 8 % 4)) (.ofNat 3 (w % 8)))
    else if w / 32 % 16 = 3 then some (.axor (.ofNat 5 (w / 524288 % 32)) (.ofNat 5 (w / 16384 % 32)) (.ofNat 5 (w / 512 % 32)) (.ofNat 2 (w / 8 % 4)) (.ofNat 3 (w % 8)))
    else if w / 32 % 16 = 4 then some (.aswp (.ofNat 5 (w / 524288 % 32)) (.ofNat 5 (w / 16384 % 32)) (.ofNat 5 (w / 512 % 32)) (.ofNat 2 (w / 8 % 4)) (.ofNat 3 (w % 8)))
    else if w / 32 % 16 = 5 then some (.amin (.ofNat 5 (w / 524288 % 32)) (.ofNat 5 (w / 16384 % 32)) (.ofNat 5 (w / 512 % 32)) (.ofNat 2 (w / 8 % 4)) (.ofNat 3 (w % 8)))
    else if w / 32 % 16 = 6 then some (.amax (.ofNat 5 (w / 524288 % 32)) (.ofNat 5 (w / 16384 % 32)) (.ofNat 5 (w / 512 % 32)) (.ofNat 2 (w / 8 % 4)) (.ofNat 3 (w % 8)))
    else if w / 32 % 16 = 7 then some (.aminn (.ofNat 5 (w / 524288 % 32)) (.ofNat 5 (w / 16384 % 32)) (.ofNat 5 (w / 512 % 32)) (.ofNat 2 (w / 8 % 4)) (.ofNat 3 (w % 8)))
    else if w / 32 % 16 = 8 then some (.amaxn (.ofNat 5 (w / 524288 % 32)) (.ofNat 5 (w / 16384 % 32)) (.ofNat 5 (w / 512 % 32)) (.ofNat 2 (w / 8 % 4)) (.ofNat 3 (w % 8)))
    else if w / 32 % 16 = 9 then some (.afadd (.ofNat 5 (w / 524288 % 32)) (.ofNat 5 (w / 16384 % 32)) (.ofNat 5 (w / 512 % 32)) (.ofNat 2 (w / 8 % 4)) (.ofNat 3 (w % 8)))
    else if w / 32 % 16 = 10 then some (.afmax (.ofNat 5 (w / 524288 % 32)) (.ofNat 5 (w / 16384 % 32)) (.ofNat 5 (w / 512 % 32)) (.ofNat 2 (w / 8 % 4)) (.ofNat 3 (w % 8)))
    else if w / 32 % 16 = 11 then some (.afmin (.ofNat 5 (w / 524288 % 32)) (.ofNat 5 (w / 16384 % 32)) (.ofNat 5 (w / 512 % 32)) (.ofNat 2 (w / 8 % 4)) (.ofNat 3 (w % 8)))
    else if w / 32 % 16 = 12 then some (.acas (.ofNat 5 (w / 524288 % 32)) (.ofNat 5 (w / 16384 % 32)) (.ofNat 5 (w / 512 % 32)) (.ofNat 2 (w / 8 % 4)) (.ofNat 3 (w % 8)))
    else none
  | 33 => if w / 524288 % 32 = 0 then some (.ared (.ofNat 5 (w / 16384 % 32)) (.ofNat 5 (w / 512 % 32)) (.ofNat 4 (w / 32 % 16)) (.ofNat 2 (w / 8 % 4)) (.ofNat 3 (w % 8)))
    else none
  | 34 => if w % 128 = 0 then some (.odseti (.ofNat 3 (w / 2097152 % 8)) (.ofNat 3 (w / 262144 % 8)) (.ofNat 8 (w / 1024 % 256)) (.ofNat 3 (w / 128 % 8)))
    else none
  | 35 => if w % 16384 = 0 ∧ w / 524288 % 4 = 0 then some (.odset (.ofNat 3 (w / 2097152 % 8)) (.ofNat 5 (w / 16384 % 32)))
    else none
  | 36 => if w % 16384 = 0 then some (.osq (.ofNat 5 (w / 524288 % 32)) (.ofNat 2 (w / 131072 % 4)) (.ofNat 3 (w / 16384 % 8)))
    else none
  | 37 => if w % 1024 = 0 then some (.tkpost (.ofNat 4 (w / 1048576 % 16)) (.ofNat 2 (w / 262144 % 4)) (.ofNat 8 (w / 1024 % 256)))
    else none
  | 38 => if w % 1048576 = 0 then some (.tkwait (.ofNat 4 (w / 1048576 % 16)))
    else none
  | 39 => if w % 32768 = 0 then some (.tktest (.ofNat 5 (w / 524288 % 32)) (.ofNat 4 (w / 32768 % 16)))
    else none
  | 40 => if w % 1048576 = 0 then some (.tkclr (.ofNat 4 (w / 1048576 % 16)))
    else none
  | 41 => if w / 8 % 256 = 0 ∧ w / 2097152 % 8 = 0 then some (.barInit (.ofNat 5 (w / 65536 % 32)) (.ofNat 5 (w / 2048 % 32)) (.ofNat 3 (w % 8)))
    else if w / 8 % 256 = 0 ∧ w / 2097152 % 8 = 1 then some (.barExpect (.ofNat 5 (w / 65536 % 32)) (.ofNat 5 (w / 2048 % 32)) (.ofNat 3 (w % 8)))
    else if w / 8 % 8192 = 0 ∧ w / 2097152 % 8 = 2 then some (.barArrive (.ofNat 5 (w / 65536 % 32)) (.ofNat 3 (w % 8)))
    else if w / 8 % 256 = 0 ∧ w / 2097152 % 8 = 3 then some (.barWait (.ofNat 5 (w / 65536 % 32)) (.ofNat 5 (w / 2048 % 32)) (.ofNat 3 (w % 8)))
    else if w / 8 % 256 = 0 ∧ w / 2097152 % 8 = 4 then some (.barTest (.ofNat 5 (w / 65536 % 32)) (.ofNat 5 (w / 2048 % 32)) (.ofNat 3 (w % 8)))
    else if w / 8 % 8192 = 0 ∧ w / 2097152 % 8 = 5 then some (.barInval (.ofNat 5 (w / 65536 % 32)) (.ofNat 3 (w % 8)))
    else none
  | 42 => if w / 8 % 65536 = 0 ∧ w / 4194304 % 4 = 0 then some (.hbarAw (.ofNat 3 (w / 524288 % 8)) (.ofNat 3 (w % 8)))
    else if w / 8 % 65536 = 0 ∧ w / 4194304 % 4 = 1 then some (.hbarA (.ofNat 3 (w / 524288 % 8)) (.ofNat 3 (w % 8)))
    else if w / 8 % 65536 = 0 ∧ w / 4194304 % 4 = 2 then some (.hbarW (.ofNat 3 (w / 524288 % 8)) (.ofNat 3 (w % 8)))
    else none
  | 48 => if w % 4 = 0 ∧ w / 16384 % 32 = 0 then some (.sysRd (.ofNat 5 (w / 524288 % 32)) (.ofNat 12 (w / 4 % 4096)))
    else none
  | 49 => if w % 4 = 0 ∧ w / 524288 % 32 = 0 then some (.sysWr (.ofNat 5 (w / 16384 % 32)) (.ofNat 12 (w / 4 % 4096)))
    else none
  | 50 => if w / 65536 % 256 = 0 then some (.trap (.ofNat 16 (w % 65536)))
    else none
  | 51 => if w % 16777216 = 0 then some (.xgate)
    else none
  | 52 => if w % 16384 = 0 ∧ w / 524288 % 32 = 0 then some (.resume (.ofNat 5 (w / 16384 % 32)))
    else none
  | 53 => if w % 16777216 = 0 then some (.rbase)
    else none
  | 54 => if w % 16777216 = 0 then some (.yield)
    else none
  | _ => none

/-- The words of the G cluster (R230). -/
def rawG (w : Nat) : Option Instr :=
  match w / 16777216 % 64 with
  | 1 => if w % 256 = 0 then some (.dep (.ofNat 4 (w / 1048576 % 16)) (.ofNat 4 (w / 65536 % 16)) (.ofNat 4 (w / 4096 % 16)) (.ofNat 4 (w / 256 % 16)))
    else none
  | 2 => if w % 65536 = 0 then some (.gmov (.ofNat 3 (w / 2097152 % 8)) (.ofNat 5 (w / 65536 % 32)))
    else none
  | 3 => some (.gadd (.ofNat 3 (w / 2097152 % 8)) (.ofNat 3 (w / 262144 % 8)) (.ofNat 18 (w % 262144)))
  | 4 => if w % 8192 = 0 then some (.glea (.ofNat 3 (w / 2097152 % 8)) (.ofNat 3 (w / 262144 % 8)) (.ofNat 3 (w / 32768 % 8)) (.ofNat 2 (w / 8192 % 4)))
    else none
  | 5 => if w / 8 % 32768 = 0 then some (.itld (.ofNat 3 (w / 2097152 % 8)) (.ofNat 3 (w / 262144 % 8)) (.ofNat 3 (w % 8)))
    else none
  | 6 => if w / 8 % 32768 = 0 then some (.itst (.ofNat 3 (w / 2097152 % 8)) (.ofNat 3 (w / 262144 % 8)) (.ofNat 3 (w % 8)))
    else none
  | 7 => if w % 16384 = 0 then some (.itmod (.ofNat 3 (w / 2097152 % 8)) (.ofNat 4 (w / 131072 % 16)) (.ofNat 3 (w / 16384 % 8)))
    else none
  | 8 => if w / 8 % 32768 = 0 ∧ w / 2097152 % 2 = 0 then some (.chld (.ofNat 2 (w / 4194304 % 4)) (.ofNat 3 (w / 262144 % 8)) (.ofNat 3 (w % 8)))
    else none
  | 9 => if w / 8 % 2048 = 0 then some (.sbind (.ofNat 3 (w / 2097152 % 8)) (.ofNat 3 (w / 262144 % 8)) (.ofNat 2 (w / 65536 % 4)) (.ofNat 1 (w / 32768 % 2)) (.ofNat 1 (w / 16384 % 2)) (.ofNat 3 (w % 8)))
    else none
  | 10 => if w % 2097152 = 0 then some (.sunbind (.ofNat 3 (w / 2097152 % 8)))
    else none
  | 11 => if w % 262144 = 0 then some (.sskip (.ofNat 3 (w / 2097152 % 8)) (.ofNat 3 (w / 262144 % 8)))
    else none
  | 12 => if w % 64 = 0 then some (.cp (.ofNat 3 (w / 2097152 % 8)) (.ofNat 3 (w / 262144 % 8)) (.ofNat 3 (w / 32768 % 8)) (.ofNat 3 (w / 4096 % 8)) (.ofNat 3 (w / 512 % 8)) (.ofNat 1 (w / 256 % 2)) (.ofNat 2 (w / 64 % 4)))
    else none
  | 13 => if w % 512 = 0 then some (.cpCg (.ofNat 3 (w / 2097152 % 8)) (.ofNat 3 (w / 262144 % 8)) (.ofNat 3 (w / 32768 % 8)) (.ofNat 3 (w / 4096 % 8)) (.ofNat 3 (w / 512 % 8)))
    else none
  | 14 => if w % 512 = 0 then some (.cpst (.ofNat 3 (w / 2097152 % 8)) (.ofNat 3 (w / 262144 % 8)) (.ofNat 3 (w / 32768 % 8)) (.ofNat 3 (w / 4096 % 8)) (.ofNat 3 (w / 512 % 8)))
    else none
  | 16 => if w % 32 = 0 then some (.wsort (.ofNat 3 (w / 2097152 % 8)) (.ofNat 3 (w / 262144 % 8)) (.ofNat 3 (w / 32768 % 8)) (.ofNat 3 (w / 4096 % 8)) (.ofNat 3 (w / 512 % 8)) (.ofNat 2 (w / 128 % 4)) (.ofNat 2 (w / 32 % 4)))
    else none
  | 18 => if w % 512 = 0 ∧ w / 4096 % 8 = 0 then some (.xsend (.ofNat 3 (w / 2097152 % 8)) (.ofNat 3 (w / 262144 % 8)) (.ofNat 3 (w / 32768 % 8)) (.ofNat 3 (w / 512 % 8)))
    else none
  | 19 => if w % 512 = 0 ∧ w / 4096 % 512 = 0 then some (.xwait (.ofNat 3 (w / 2097152 % 8)) (.ofNat 3 (w / 512 % 8)))
    else none
  | 20 => if w % 512 = 0 ∧ w / 4096 % 512 = 0 then some (.xgrant (.ofNat 3 (w / 2097152 % 8)) (.ofNat 3 (w / 512 % 8)))
    else none
  | 21 => if w % 512 = 0 ∧ w / 4096 % 64 = 0 then some (.xstat (.ofNat 3 (w / 2097152 % 8)) (.ofNat 3 (w / 262144 % 8)) (.ofNat 3 (w / 512 % 8)))
    else none
  | 22 => if w % 4 = 0 then some (.clAr (.ofNat 3 (w / 2097152 % 8)) (.ofNat 3 (w / 262144 % 8)) (.ofNat 3 (w / 32768 % 8)) (.ofNat 3 (w / 4096 % 8)) (.ofNat 3 (w / 512 % 8)) (.ofNat 3 (w / 64 % 8)) (.ofNat 2 (w / 16 % 4)) (.ofNat 2 (w / 4 % 4)))
    else none
  | 23 => if w % 64 = 0 then some (.clBc (.ofNat 3 (w / 2097152 % 8)) (.ofNat 3 (w / 262144 % 8)) (.ofNat 3 (w / 32768 % 8)) (.ofNat 3 (w / 4096 % 8)) (.ofNat 3 (w / 512 % 8)) (.ofNat 3 (w / 64 % 8)))
    else none
  | 24 => if w % 64 = 0 ∧ w / 4096 % 8 = 0 then some (.clAg (.ofNat 3 (w / 2097152 % 8)) (.ofNat 3 (w / 262144 % 8)) (.ofNat 3 (w / 32768 % 8)) (.ofNat 3 (w / 512 % 8)) (.ofNat 3 (w / 64 % 8)))
    else none
  | 25 => if w % 4 = 0 then some (.clRs (.ofNat 3 (w / 2097152 % 8)) (.ofNat 3 (w / 262144 % 8)) (.ofNat 3 (w / 32768 % 8)) (.ofNat 3 (w / 4096 % 8)) (.ofNat 3 (w / 512 % 8)) (.ofNat 3 (w / 64 % 8)) (.ofNat 2 (w / 16 % 4)) (.ofNat 2 (w / 4 % 4)))
    else none
  | _ => none

/-- The words of the M cluster (R232). -/
def rawM (w : Nat) : Option Instr :=
  match w / 16777216 % 64 with
  | 1 => if w % 256 = 0 then some (.dep (.ofNat 4 (w / 1048576 % 16)) (.ofNat 4 (w / 65536 % 16)) (.ofNat 4 (w / 4096 % 16)) (.ofNat 4 (w / 256 % 16)))
    else none
  | 2 => if w % 65536 = 0 then some (.mmov (.ofNat 3 (w / 2097152 % 8)) (.ofNat 5 (w / 65536 % 32)))
    else none
  | 3 => some (.madd (.ofNat 3 (w / 2097152 % 8)) (.ofNat 3 (w / 262144 % 8)) (.ofNat 18 (w % 262144)))
  | 4 => if w / 8 % 32768 = 0 then some (.bktz (.ofNat 3 (w / 2097152 % 8)) (.ofNat 3 (w / 262144 % 8)) (.ofNat 3 (w % 8)))
    else none
  | 5 => if w / 8 % 32 = 0 then some (.bkt (.ofNat 3 (w / 2097152 % 8)) (.ofNat 3 (w / 262144 % 8)) (.ofNat 3 (w / 32768 % 8)) (.ofNat 3 (w / 4096 % 8)) (.ofNat 2 (w / 1024 % 4)) (.ofNat 2 (w / 256 % 4)) (.ofNat 3 (w % 8)))
    else none
  | 6 => if w / 8 % 512 = 0 then some (.bfin (.ofNat 3 (w / 2097152 % 8)) (.ofNat 3 (w / 262144 % 8)) (.ofNat 3 (w / 32768 % 8)) (.ofNat 3 (w / 4096 % 8)) (.ofNat 3 (w % 8)))
    else none
  | 7 => if w % 4 = 0 then some (.tmma (.ofNat 2 (w / 4194304 % 4)) (.ofNat 6 (w / 65536 % 64)) (.ofNat 3 (w / 8192 % 8)) (.ofNat 3 (w / 1024 % 8)) (.ofNat 3 (w / 128 % 8)) (.ofNat 4 (w / 8 % 16)) (.ofNat 1 (w / 4 % 2)))
    else none
  | 8 => some (.tmmaSp (.ofNat 2 (w / 4194304 % 4)) (.ofNat 6 (w / 65536 % 64)) (.ofNat 3 (w / 8192 % 8)) (.ofNat 3 (w / 1024 % 8)) (.ofNat 3 (w / 128 % 8)) (.ofNat 3 (w / 16 % 8)) (.ofNat 3 (w / 2 % 8)) (.ofNat 1 (w % 2)))
  | 9 => if w / 8 % 64 = 0 then some (.spc (.ofNat 3 (w / 2097152 % 8)) (.ofNat 3 (w / 262144 % 8)) (.ofNat 3 (w / 32768 % 8)) (.ofNat 3 (w / 4096 % 8)) (.ofNat 3 (w / 512 % 8)) (.ofNat 3 (w % 8)))
    else none
  | 10 => if w / 8 % 32768 = 0 then some (.accz (.ofNat 3 (w / 2097152 % 8)) (.ofNat 3 (w / 262144 % 8)) (.ofNat 3 (w % 8)))
    else none
  | 11 => if w / 8 % 256 = 0 then some (.adrain (.ofNat 3 (w / 2097152 % 8)) (.ofNat 3 (w / 262144 % 8)) (.ofNat 3 (w / 32768 % 8)) (.ofNat 4 (w / 2048 % 16)) (.ofNat 3 (w % 8)))
    else none
  | 12 => if w / 8 % 4 = 0 then some (.qdrain (.ofNat 3 (w / 2097152 % 8)) (.ofNat 3 (w / 262144 % 8)) (.ofNat 3 (w / 32768 % 8)) (.ofNat 3 (w / 4096 % 8)) (.ofNat 4 (w / 256 % 16)) (.ofNat 3 (w / 32 % 8)) (.ofNat 3 (w % 8)))
    else none
  | 13 => if w / 8 % 32 = 0 then some (.quant2 (.ofNat 3 (w / 2097152 % 8)) (.ofNat 3 (w / 262144 % 8)) (.ofNat 3 (w / 32768 % 8)) (.ofNat 3 (w / 4096 % 8)) (.ofNat 4 (w / 256 % 16)) (.ofNat 3 (w % 8)))
    else none
  | 14 => if w / 8 % 4096 = 0 then some (.accmv (.ofNat 3 (w / 2097152 % 8)) (.ofNat 3 (w / 262144 % 8)) (.ofNat 3 (w / 32768 % 8)) (.ofNat 3 (w % 8)))
    else none
  | 15 => if w % 131072 = 0 then some (.mstat (.ofNat 3 (w / 2097152 % 8)) (.ofNat 4 (w / 131072 % 16)))
    else none
  | _ => none

/-- The words of the V cluster (R235, R236). -/
def rawV (w : Nat) : Option Instr :=
  match w / 16777216 % 64 with
  | 1 => if w % 65536 = 0 ∧ w / 2097152 % 8 = 0 then some (.vsh (.ofNat 5 (w / 65536 % 32)))
    else none
  | 2 => some (.vadd (.ofNat 1 (w / 8388608 % 2)) (.ofNat 5 (w / 262144 % 32)) (.ofNat 6 (w / 4096 % 64)) (.ofNat 6 (w / 64 % 64)) (.ofNat 3 (w / 8 % 8)) (.ofNat 1 (w / 4 % 2)) (.ofNat 2 (w % 4)))
  | 3 => some (.vsub (.ofNat 1 (w / 8388608 % 2)) (.ofNat 5 (w / 262144 % 32)) (.ofNat 6 (w / 4096 % 64)) (.ofNat 6 (w / 64 % 64)) (.ofNat 3 (w / 8 % 8)) (.ofNat 1 (w / 4 % 2)) (.ofNat 2 (w % 4)))
  | 4 => some (.vmul (.ofNat 1 (w / 8388608 % 2)) (.ofNat 5 (w / 262144 % 32)) (.ofNat 6 (w / 4096 % 64)) (.ofNat 6 (w / 64 % 64)) (.ofNat 3 (w / 8 % 8)) (.ofNat 1 (w / 4 % 2)) (.ofNat 2 (w % 4)))
  | 5 => some (.vfma (.ofNat 1 (w / 8388608 % 2)) (.ofNat 5 (w / 262144 % 32)) (.ofNat 6 (w / 4096 % 64)) (.ofNat 6 (w / 64 % 64)) (.ofNat 3 (w / 8 % 8)) (.ofNat 1 (w / 4 % 2)) (.ofNat 2 (w % 4)))
  | 6 => some (.vfms (.ofNat 1 (w / 8388608 % 2)) (.ofNat 5 (w / 262144 % 32)) (.ofNat 6 (w / 4096 % 64)) (.ofNat 6 (w / 64 % 64)) (.ofNat 3 (w / 8 % 8)) (.ofNat 1 (w / 4 % 2)) (.ofNat 2 (w % 4)))
  | 7 => some (.vnfma (.ofNat 1 (w / 8388608 % 2)) (.ofNat 5 (w / 262144 % 32)) (.ofNat 6 (w / 4096 % 64)) (.ofNat 6 (w / 64 % 64)) (.ofNat 3 (w / 8 % 8)) (.ofNat 1 (w / 4 % 2)) (.ofNat 2 (w % 4)))
  | 8 => some (.vmin (.ofNat 1 (w / 8388608 % 2)) (.ofNat 5 (w / 262144 % 32)) (.ofNat 6 (w / 4096 % 64)) (.ofNat 6 (w / 64 % 64)) (.ofNat 3 (w / 8 % 8)) (.ofNat 1 (w / 4 % 2)) (.ofNat 2 (w % 4)))
  | 9 => some (.vmax (.ofNat 1 (w / 8388608 % 2)) (.ofNat 5 (w / 262144 % 32)) (.ofNat 6 (w / 4096 % 64)) (.ofNat 6 (w / 64 % 64)) (.ofNat 3 (w / 8 % 8)) (.ofNat 1 (w / 4 % 2)) (.ofNat 2 (w % 4)))
  | 10 => some (.vminm (.ofNat 1 (w / 8388608 % 2)) (.ofNat 5 (w / 262144 % 32)) (.ofNat 6 (w / 4096 % 64)) (.ofNat 6 (w / 64 % 64)) (.ofNat 3 (w / 8 % 8)) (.ofNat 1 (w / 4 % 2)) (.ofNat 2 (w % 4)))
  | 11 => some (.vmaxm (.ofNat 1 (w / 8388608 % 2)) (.ofNat 5 (w / 262144 % 32)) (.ofNat 6 (w / 4096 % 64)) (.ofNat 6 (w / 64 % 64)) (.ofNat 3 (w / 8 % 8)) (.ofNat 1 (w / 4 % 2)) (.ofNat 2 (w % 4)))
  | 12 => if w / 64 % 64 = 0 then some (.vabs (.ofNat 1 (w / 8388608 % 2)) (.ofNat 5 (w / 262144 % 32)) (.ofNat 6 (w / 4096 % 64)) (.ofNat 3 (w / 8 % 8)) (.ofNat 1 (w / 4 % 2)) (.ofNat 2 (w % 4)))
    else if w / 64 % 64 = 1 then some (.vneg (.ofNat 1 (w / 8388608 % 2)) (.ofNat 5 (w / 262144 % 32)) (.ofNat 6 (w / 4096 % 64)) (.ofNat 3 (w / 8 % 8)) (.ofNat 1 (w / 4 % 2)) (.ofNat 2 (w % 4)))
    else none
  | 13 => some (.vand (.ofNat 1 (w / 8388608 % 2)) (.ofNat 5 (w / 262144 % 32)) (.ofNat 6 (w / 4096 % 64)) (.ofNat 6 (w / 64 % 64)) (.ofNat 3 (w / 8 % 8)) (.ofNat 1 (w / 4 % 2)) (.ofNat 2 (w % 4)))
  | 14 => some (.vor (.ofNat 1 (w / 8388608 % 2)) (.ofNat 5 (w / 262144 % 32)) (.ofNat 6 (w / 4096 % 64)) (.ofNat 6 (w / 64 % 64)) (.ofNat 3 (w / 8 % 8)) (.ofNat 1 (w / 4 % 2)) (.ofNat 2 (w % 4)))
  | 15 => some (.vxor (.ofNat 1 (w / 8388608 % 2)) (.ofNat 5 (w / 262144 % 32)) (.ofNat 6 (w / 4096 % 64)) (.ofNat 6 (w / 64 % 64)) (.ofNat 3 (w / 8 % 8)) (.ofNat 1 (w / 4 % 2)) (.ofNat 2 (w % 4)))
  | 16 => some (.vshl (.ofNat 1 (w / 8388608 % 2)) (.ofNat 5 (w / 262144 % 32)) (.ofNat 6 (w / 4096 % 64)) (.ofNat 6 (w / 64 % 64)) (.ofNat 3 (w / 8 % 8)) (.ofNat 1 (w / 4 % 2)) (.ofNat 2 (w % 4)))
  | 17 => some (.vshr (.ofNat 1 (w / 8388608 % 2)) (.ofNat 5 (w / 262144 % 32)) (.ofNat 6 (w / 4096 % 64)) (.ofNat 6 (w / 64 % 64)) (.ofNat 3 (w / 8 % 8)) (.ofNat 1 (w / 4 % 2)) (.ofNat 2 (w % 4)))
  | 18 => some (.vsra (.ofNat 1 (w / 8388608 % 2)) (.ofNat 5 (w / 262144 % 32)) (.ofNat 6 (w / 4096 % 64)) (.ofNat 6 (w / 64 % 64)) (.ofNat 3 (w / 8 % 8)) (.ofNat 1 (w / 4 % 2)) (.ofNat 2 (w % 4)))
  | 19 => some (.vcmp (.ofNat 1 (w / 8388608 % 2)) (.ofNat 5 (w / 262144 % 32)) (.ofNat 6 (w / 4096 % 64)) (.ofNat 6 (w / 64 % 64)) (.ofNat 3 (w / 8 % 8)) (.ofNat 1 (w / 4 % 2)) (.ofNat 2 (w % 4)))
  | 20 => some (.vsel (.ofNat 1 (w / 8388608 % 2)) (.ofNat 5 (w / 262144 % 32)) (.ofNat 6 (w / 4096 % 64)) (.ofNat 6 (w / 64 % 64)) (.ofNat 3 (w / 8 % 8)) (.ofNat 1 (w / 4 % 2)) (.ofNat 2 (w % 4)))
  | 21 => if w / 1024 % 4 = 0 then some (.vcvt (.ofNat 1 (w / 8388608 % 2)) (.ofNat 5 (w / 262144 % 32)) (.ofNat 6 (w / 4096 % 64)) (.ofNat 4 (w / 64 % 16)) (.ofNat 3 (w / 8 % 8)) (.ofNat 1 (w / 4 % 2)) (.ofNat 2 (w % 4)))
    else none
  | 22 => if w / 512 % 8 = 0 then some (.vred (.ofNat 1 (w / 8388608 % 2)) (.ofNat 5 (w / 262144 % 32)) (.ofNat 6 (w / 4096 % 64)) (.ofNat 1 (w / 256 % 2)) (.ofNat 2 (w / 64 % 4)) (.ofNat 3 (w / 8 % 8)) (.ofNat 1 (w / 4 % 2)) (.ofNat 2 (w % 4)))
    else none
  | 23 => if w / 512 % 8 = 0 then some (.vscan (.ofNat 1 (w / 8388608 % 2)) (.ofNat 5 (w / 262144 % 32)) (.ofNat 6 (w / 4096 % 64)) (.ofNat 1 (w / 256 % 2)) (.ofNat 2 (w / 64 % 4)) (.ofNat 3 (w / 8 % 8)) (.ofNat 1 (w / 4 % 2)) (.ofNat 2 (w % 4)))
    else none
  | 24 => some (.vperm (.ofNat 1 (w / 8388608 % 2)) (.ofNat 5 (w / 262144 % 32)) (.ofNat 6 (w / 4096 % 64)) (.ofNat 6 (w / 64 % 64)) (.ofNat 3 (w / 8 % 8)) (.ofNat 1 (w / 4 % 2)) (.ofNat 2 (w % 4)))
  | 25 => some (.vbcast (.ofNat 1 (w / 8388608 % 2)) (.ofNat 5 (w / 262144 % 32)) (.ofNat 6 (w / 4096 % 64)) (.ofNat 6 (w / 64 % 64)) (.ofNat 3 (w / 8 % 8)) (.ofNat 1 (w / 4 % 2)) (.ofNat 2 (w % 4)))
  | 26 => if w / 64 % 64 = 0 then some (.vtrn (.ofNat 1 (w / 8388608 % 2)) (.ofNat 5 (w / 262144 % 32)) (.ofNat 6 (w / 4096 % 64)) (.ofNat 3 (w / 8 % 8)) (.ofNat 1 (w / 4 % 2)) (.ofNat 2 (w % 4)))
    else none
  | 27 => if w / 64 % 64 = 0 then some (.vrcp (.ofNat 1 (w / 8388608 % 2)) (.ofNat 5 (w / 262144 % 32)) (.ofNat 6 (w / 4096 % 64)) (.ofNat 3 (w / 8 % 8)) (.ofNat 1 (w / 4 % 2)) (.ofNat 2 (w % 4)))
    else none
  | 28 => if w / 64 % 64 = 0 then some (.vrsq (.ofNat 1 (w / 8388608 % 2)) (.ofNat 5 (w / 262144 % 32)) (.ofNat 6 (w / 4096 % 64)) (.ofNat 3 (w / 8 % 8)) (.ofNat 1 (w / 4 % 2)) (.ofNat 2 (w % 4)))
    else none
  | 29 => some (.vrfix (.ofNat 1 (w / 8388608 % 2)) (.ofNat 5 (w / 262144 % 32)) (.ofNat 6 (w / 4096 % 64)) (.ofNat 6 (w / 64 % 64)) (.ofNat 3 (w / 8 % 8)) (.ofNat 1 (w / 4 % 2)) (.ofNat 2 (w % 4)))
  | 30 => some (.vrsfix (.ofNat 1 (w / 8388608 % 2)) (.ofNat 5 (w / 262144 % 32)) (.ofNat 6 (w / 4096 % 64)) (.ofNat 6 (w / 64 % 64)) (.ofNat 3 (w / 8 % 8)) (.ofNat 1 (w / 4 % 2)) (.ofNat 2 (w % 4)))
  | 31 => if w / 64 % 64 = 0 then some (.vexp2 (.ofNat 1 (w / 8388608 % 2)) (.ofNat 5 (w / 262144 % 32)) (.ofNat 6 (w / 4096 % 64)) (.ofNat 3 (w / 8 % 8)) (.ofNat 1 (w / 4 % 2)) (.ofNat 2 (w % 4)))
    else none
  | 32 => if w / 64 % 64 = 0 then some (.vlog2 (.ofNat 1 (w / 8388608 % 2)) (.ofNat 5 (w / 262144 % 32)) (.ofNat 6 (w / 4096 % 64)) (.ofNat 3 (w / 8 % 8)) (.ofNat 1 (w / 4 % 2)) (.ofNat 2 (w % 4)))
    else none
  | 33 => if w / 64 % 64 = 0 then some (.vsin (.ofNat 1 (w / 8388608 % 2)) (.ofNat 5 (w / 262144 % 32)) (.ofNat 6 (w / 4096 % 64)) (.ofNat 3 (w / 8 % 8)) (.ofNat 1 (w / 4 % 2)) (.ofNat 2 (w % 4)))
    else none
  | 34 => if w / 64 % 64 = 0 then some (.vcos (.ofNat 1 (w / 8388608 % 2)) (.ofNat 5 (w / 262144 % 32)) (.ofNat 6 (w / 4096 % 64)) (.ofNat 3 (w / 8 % 8)) (.ofNat 1 (w / 4 % 2)) (.ofNat 2 (w % 4)))
    else none
  | 35 => if w % 8 = 0 ∧ w / 64 % 64 = 0 then some (.vsplat (.ofNat 1 (w / 8388608 % 2)) (.ofNat 5 (w / 262144 % 32)) (.ofNat 1 (w / 131072 % 2)) (.ofNat 5 (w / 4096 % 32)) (.ofNat 3 (w / 8 % 8)))
    else none
  | 36 => if w / 64 % 64 = 0 then some (.vomov (.ofNat 1 (w / 8388608 % 2)) (.ofNat 5 (w / 262144 % 32)) (.ofNat 6 (w / 4096 % 64)) (.ofNat 3 (w / 8 % 8)) (.ofNat 1 (w / 4 % 2)) (.ofNat 2 (w % 4)))
    else none
  | 37 => if w / 64 % 64 = 0 then some (.vmov (.ofNat 1 (w / 8388608 % 2)) (.ofNat 5 (w / 262144 % 32)) (.ofNat 6 (w / 4096 % 64)) (.ofNat 3 (w / 8 % 8)) (.ofNat 1 (w / 4 % 2)) (.ofNat 2 (w % 4)))
    else none
  | 38 => if w % 8 = 0 ∧ w / 64 % 64 = 0 ∧ w / 8388608 % 2 = 0 then some (.vld (.ofNat 5 (w / 262144 % 32)) (.ofNat 3 (w / 32768 % 8)) (.ofNat 3 (w / 4096 % 8)) (.ofNat 3 (w / 8 % 8)))
    else none
  | 39 => if w % 8 = 0 ∧ w / 64 % 64 = 0 ∧ w / 8388608 % 2 = 0 then some (.vst (.ofNat 5 (w / 262144 % 32)) (.ofNat 3 (w / 32768 % 8)) (.ofNat 3 (w / 4096 % 8)) (.ofNat 3 (w / 8 % 8)))
    else none
  | 40 => if w % 8 = 0 ∧ w / 64 % 64 = 0 ∧ w / 8388608 % 2 = 0 then some (.vbld (.ofNat 5 (w / 262144 % 32)) (.ofNat 3 (w / 32768 % 8)) (.ofNat 3 (w / 4096 % 8)) (.ofNat 3 (w / 8 % 8)))
    else none
  | 41 => if w % 8 = 0 ∧ w / 64 % 64 = 0 ∧ w / 8388608 % 2 = 0 then some (.vbst (.ofNat 5 (w / 262144 % 32)) (.ofNat 3 (w / 32768 % 8)) (.ofNat 3 (w / 4096 % 8)) (.ofNat 3 (w / 8 % 8)))
    else none
  | 42 => if w % 8 = 0 ∧ w / 64 % 64 = 0 ∧ w / 8388608 % 2 = 0 then some (.vsld (.ofNat 5 (w / 262144 % 32)) (.ofNat 3 (w / 32768 % 8)) (.ofNat 3 (w / 4096 % 8)) (.ofNat 3 (w / 8 % 8)))
    else none
  | 43 => if w % 8 = 0 ∧ w / 64 % 64 = 0 ∧ w / 8388608 % 2 = 0 then some (.vsst (.ofNat 5 (w / 262144 % 32)) (.ofNat 3 (w / 32768 % 8)) (.ofNat 3 (w / 4096 % 8)) (.ofNat 3 (w / 8 % 8)))
    else none
  | 44 => if w % 8 = 0 ∧ w / 64 % 8 = 0 then some (.vgth (.ofNat 1 (w / 8388608 % 2)) (.ofNat 5 (w / 262144 % 32)) (.ofNat 6 (w / 4096 % 64)) (.ofNat 3 (w / 512 % 8)) (.ofNat 3 (w / 8 % 8)))
    else none
  | 45 => if w % 8 = 0 ∧ w / 64 % 8 = 0 ∧ w / 8388608 % 2 = 0 then some (.vsct (.ofNat 5 (w / 262144 % 32)) (.ofNat 6 (w / 4096 % 64)) (.ofNat 3 (w / 512 % 8)) (.ofNat 3 (w / 8 % 8)))
    else none
  | 46 => if w % 512 = 0 ∧ w / 131072 % 16 = 0 then some (.viset (.ofNat 3 (w / 2097152 % 8)) (.ofNat 5 (w / 4096 % 32)) (.ofNat 3 (w / 512 % 8)))
    else none
  | 47 => if w % 65536 = 0 then some (.pset (.ofNat 3 (w / 2097152 % 8)) (.ofNat 3 (w / 262144 % 8)) (.ofNat 2 (w / 65536 % 4)))
    else none
  | 48 => if w % 4096 = 0 ∧ w / 262144 % 8 = 0 then some (.pfirst (.ofNat 3 (w / 2097152 % 8)) (.ofNat 6 (w / 4096 % 64)))
    else none
  | 49 => if w % 16384 = 0 then some (.pminmax (.ofNat 3 (w / 2097152 % 8)) (.ofNat 3 (w / 262144 % 8)) (.ofNat 3 (w / 32768 % 8)) (.ofNat 1 (w / 16384 % 2)))
    else none
  | 50 => if w / 4 % 524288 = 0 then some (.vfr (.ofNat 3 (w / 2097152 % 8)) (.ofNat 2 (w % 4)))
    else none
  | 51 => if w % 2097152 = 0 then some (.vfc (.ofNat 3 (w / 2097152 % 8)))
    else none
  | 52 => if w / 4 % 524288 = 0 then some (.vmode (.ofNat 3 (w / 2097152 % 8)) (.ofNat 2 (w % 4)))
    else none
  | 54 => if w % 8 = 0 ∧ w / 64 % 512 = 0 ∧ w / 8388608 % 2 = 0 then some (.vpop (.ofNat 5 (w / 262144 % 32)) (.ofNat 3 (w / 32768 % 8)) (.ofNat 3 (w / 8 % 8)))
    else none
  | 55 => if w % 8 = 0 ∧ w / 64 % 512 = 0 ∧ w / 8388608 % 2 = 0 then some (.vpush (.ofNat 5 (w / 262144 % 32)) (.ofNat 3 (w / 32768 % 8)) (.ofNat 3 (w / 8 % 8)))
    else none
  | _ => none

/-- The instruction whose fixed bits a word carries in a cluster's stream, before the other checks of R223. Majors 0x38 to
0x3F belong to the common control block in every cluster (R225). -/
def rawDecode (cl : Cluster) (w : Nat) : Option Instr :=
  if 56 ≤ w / 16777216 % 64 then rawCommon w else
    match cl with
    | .c => rawC w
    | .g => rawG w
    | .m => rawM w
    | .v => rawV w

/-- Decoding of a word in a cluster's stream: steps 1 and 3 of R223, in order. Step 2 (privilege) depends on the strand and
is checked where the instruction executes. -/
def decodeWord (cl : Cluster) (w : Word) : Except DecodeError Instr :=
  match rawDecode cl w.toNat with
  | none => .error .illegalInstruction
  | some i =>
    if i.minorOk then
      if i.regsOk cl then .ok i else .error .illegalOperand
    else .error .illegalInstruction

/-- The sync bit S (R222). -/
def syncBit (w : Word) : Bool := w.toNat / 2147483648 % 2 == 1

/-- The hold bit H (R222). -/
def holdBit (w : Word) : Bool := w.toNat / 1073741824 % 2 == 1

/-- The bits [29:0] of an instruction's word, as a number (events have none and give 0). -/
def encodeNat : Instr → Nat
  | .add d a b => 16777216 + d.toNat * 524288 + a.toNat * 16384 + b.toNat * 512
  | .sub d a b => 16777224 + d.toNat * 524288 + a.toNat * 16384 + b.toNat * 512
  | .mul d a b => 16777232 + d.toNat * 524288 + a.toNat * 16384 + b.toNat * 512
  | .mulh d a b => 16777240 + d.toNat * 524288 + a.toNat * 16384 + b.toNat * 512
  | .mulhn d a b => 16777248 + d.toNat * 524288 + a.toNat * 16384 + b.toNat * 512
  | .div d a b => 16777256 + d.toNat * 524288 + a.toNat * 16384 + b.toNat * 512
  | .divn d a b => 16777264 + d.toNat * 524288 + a.toNat * 16384 + b.toNat * 512
  | .rem d a b => 16777272 + d.toNat * 524288 + a.toNat * 16384 + b.toNat * 512
  | .remn d a b => 16777280 + d.toNat * 524288 + a.toNat * 16384 + b.toNat * 512
  | .and d a b => 16777288 + d.toNat * 524288 + a.toNat * 16384 + b.toNat * 512
  | .or d a b => 16777296 + d.toNat * 524288 + a.toNat * 16384 + b.toNat * 512
  | .xor d a b => 16777304 + d.toNat * 524288 + a.toNat * 16384 + b.toNat * 512
  | .andn d a b => 16777312 + d.toNat * 524288 + a.toNat * 16384 + b.toNat * 512
  | .shl d a b => 16777320 + d.toNat * 524288 + a.toNat * 16384 + b.toNat * 512
  | .shr d a b => 16777328 + d.toNat * 524288 + a.toNat * 16384 + b.toNat * 512
  | .sra d a b => 16777336 + d.toNat * 524288 + a.toNat * 16384 + b.toNat * 512
  | .rot d a b => 16777344 + d.toNat * 524288 + a.toNat * 16384 + b.toNat * 512
  | .min d a b => 16777352 + d.toNat * 524288 + a.toNat * 16384 + b.toNat * 512
  | .max d a b => 16777360 + d.toNat * 524288 + a.toNat * 16384 + b.toNat * 512
  | .minn d a b => 16777368 + d.toNat * 524288 + a.toNat * 16384 + b.toNat * 512
  | .maxn d a b => 16777376 + d.toNat * 524288 + a.toNat * 16384 + b.toNat * 512
  | .slt d a b => 16777384 + d.toNat * 524288 + a.toNat * 16384 + b.toNat * 512
  | .sltn d a b => 16777392 + d.toNat * 524288 + a.toNat * 16384 + b.toNat * 512
  | .seq d a b => 16777400 + d.toNat * 524288 + a.toNat * 16384 + b.toNat * 512
  | .sne d a b => 16777408 + d.toNat * 524288 + a.toNat * 16384 + b.toNat * 512
  | .clz d a => 16777416 + d.toNat * 524288 + a.toNat * 16384
  | .ctz d a => 16777424 + d.toNat * 524288 + a.toNat * 16384
  | .popc d a => 16777432 + d.toNat * 524288 + a.toNat * 16384
  | .addi d a im => 33554432 + d.toNat * 524288 + a.toNat * 16384 + im.toNat
  | .andi d a im => 50331648 + d.toNat * 524288 + a.toNat * 16384 + im.toNat
  | .ori d a im => 67108864 + d.toNat * 524288 + a.toNat * 16384 + im.toNat
  | .xori d a im => 83886080 + d.toNat * 524288 + a.toNat * 16384 + im.toNat
  | .shli d a n => 100663296 + d.toNat * 524288 + a.toNat * 16384 + n.toNat
  | .shri d a n => 100667392 + d.toNat * 524288 + a.toNat * 16384 + n.toNat
  | .srai d a n => 100671488 + d.toNat * 524288 + a.toNat * 16384 + n.toNat
  | .roti d a n => 100675584 + d.toNat * 524288 + a.toNat * 16384 + n.toNat
  | .slti d a im => 117440512 + d.toNat * 524288 + a.toNat * 16384 + im.toNat
  | .sltni d a im => 134217728 + d.toNat * 524288 + a.toNat * 16384 + im.toNat
  | .lui d im => 150994944 + d.toNat * 524288 + im.toNat
  | .lhi d im => 167772160 + d.toNat * 524288 + im.toNat
  | .lea d a b k => 184549376 + d.toNat * 524288 + a.toNat * 16384 + b.toNat * 512 + k.toNat * 8
  | .bfx d a p w => 201326592 + d.toNat * 524288 + a.toNat * 16384 + p.toNat * 256 + w.toNat * 4
  | .bfxn d a p w => 201326593 + d.toNat * 524288 + a.toNat * 16384 + p.toNat * 256 + w.toNat * 4
  | .bfi d a p w => 201326594 + d.toNat * 524288 + a.toNat * 16384 + p.toNat * 256 + w.toNat * 4
  | .ptagGet d a => 218103808 + d.toNat * 524288 + a.toNat * 16384
  | .ptagSet d a b => 218103816 + d.toNat * 524288 + a.toNat * 16384 + b.toNat * 512
  | .ldI8 t b o d => 268435456 + t.toNat * 524288 + b.toNat * 16384 + o.toNat * 8 + d.toNat
  | .ldN8 t b o d => 285212672 + t.toNat * 524288 + b.toNat * 16384 + o.toNat * 8 + d.toNat
  | .ldI16 t b o d => 301989888 + t.toNat * 524288 + b.toNat * 16384 + o.toNat * 8 + d.toNat
  | .ldN16 t b o d => 318767104 + t.toNat * 524288 + b.toNat * 16384 + o.toNat * 8 + d.toNat
  | .ldI32 t b o d => 335544320 + t.toNat * 524288 + b.toNat * 16384 + o.toNat * 8 + d.toNat
  | .ldN32 t b o d => 352321536 + t.toNat * 524288 + b.toNat * 16384 + o.toNat * 8 + d.toNat
  | .ld64 t b o d => 369098752 + t.toNat * 524288 + b.toNat * 16384 + o.toNat * 8 + d.toNat
  | .st8 t b o d => 385875968 + t.toNat * 524288 + b.toNat * 16384 + o.toNat * 8 + d.toNat
  | .st16 t b o d => 402653184 + t.toNat * 524288 + b.toNat * 16384 + o.toNat * 8 + d.toNat
  | .st32 t b o d => 419430400 + t.toNat * 524288 + b.toNat * 16384 + o.toNat * 8 + d.toNat
  | .st64 t b o d => 436207616 + t.toNat * 524288 + b.toNat * 16384 + o.toNat * 8 + d.toNat
  | .sld t b o d => 452984832 + t.toNat * 524288 + b.toNat * 16384 + o.toNat * 8 + d.toNat
  | .sst t b o d => 469762048 + t.toNat * 524288 + b.toNat * 16384 + o.toNat * 8 + d.toNat
  | .bld t b o f d => 486539264 + t.toNat * 524288 + b.toNat * 16384 + o.toNat * 32 + f.toNat * 8 + d.toNat
  | .bst t b o f d => 503316480 + t.toNat * 524288 + b.toNat * 16384 + o.toNat * 32 + f.toNat * 8 + d.toNat
  | .aadd d a v z p => 536870912 + d.toNat * 524288 + a.toNat * 16384 + v.toNat * 512 + z.toNat * 8 + p.toNat
  | .aand d a v z p => 536870944 + d.toNat * 524288 + a.toNat * 16384 + v.toNat * 512 + z.toNat * 8 + p.toNat
  | .aor d a v z p => 536870976 + d.toNat * 524288 + a.toNat * 16384 + v.toNat * 512 + z.toNat * 8 + p.toNat
  | .axor d a v z p => 536871008 + d.toNat * 524288 + a.toNat * 16384 + v.toNat * 512 + z.toNat * 8 + p.toNat
  | .aswp d a v z p => 536871040 + d.toNat * 524288 + a.toNat * 16384 + v.toNat * 512 + z.toNat * 8 + p.toNat
  | .amin d a v z p => 536871072 + d.toNat * 524288 + a.toNat * 16384 + v.toNat * 512 + z.toNat * 8 + p.toNat
  | .amax d a v z p => 536871104 + d.toNat * 524288 + a.toNat * 16384 + v.toNat * 512 + z.toNat * 8 + p.toNat
  | .aminn d a v z p => 536871136 + d.toNat * 524288 + a.toNat * 16384 + v.toNat * 512 + z.toNat * 8 + p.toNat
  | .amaxn d a v z p => 536871168 + d.toNat * 524288 + a.toNat * 16384 + v.toNat * 512 + z.toNat * 8 + p.toNat
  | .afadd d a v z p => 536871200 + d.toNat * 524288 + a.toNat * 16384 + v.toNat * 512 + z.toNat * 8 + p.toNat
  | .afmax d a v z p => 536871232 + d.toNat * 524288 + a.toNat * 16384 + v.toNat * 512 + z.toNat * 8 + p.toNat
  | .afmin d a v z p => 536871264 + d.toNat * 524288 + a.toNat * 16384 + v.toNat * 512 + z.toNat * 8 + p.toNat
  | .acas d a v z p => 536871296 + d.toNat * 524288 + a.toNat * 16384 + v.toNat * 512 + z.toNat * 8 + p.toNat
  | .ared a v o z p => 553648128 + a.toNat * 16384 + v.toNat * 512 + o.toNat * 32 + z.toNat * 8 + p.toNat
  | .odseti o sp p c => 570425344 + o.toNat * 2097152 + sp.toNat * 262144 + p.toNat * 1024 + c.toNat * 128
  | .odset o a => 587202560 + o.toNat * 2097152 + a.toNat * 16384
  | .osq d c sp => 603979776 + d.toNat * 524288 + c.toNat * 131072 + sp.toNat * 16384
  | .tkpost t c m => 620756992 + t.toNat * 1048576 + c.toNat * 262144 + m.toNat * 1024
  | .tkwait t => 637534208 + t.toNat * 1048576
  | .tktest d t => 654311424 + d.toNat * 524288 + t.toNat * 32768
  | .tkclr t => 671088640 + t.toNat * 1048576
  | .barInit b a o => 687865856 + b.toNat * 65536 + a.toNat * 2048 + o.toNat
  | .barExpect b a o => 689963008 + b.toNat * 65536 + a.toNat * 2048 + o.toNat
  | .barArrive b o => 692060160 + b.toNat * 65536 + o.toNat
  | .barWait b a o => 694157312 + b.toNat * 65536 + a.toNat * 2048 + o.toNat
  | .barTest b a o => 696254464 + b.toNat * 65536 + a.toNat * 2048 + o.toNat
  | .barInval b o => 698351616 + b.toNat * 65536 + o.toNat
  | .hbarAw c o => 704643072 + c.toNat * 524288 + o.toNat
  | .hbarA c o => 708837376 + c.toNat * 524288 + o.toNat
  | .hbarW c o => 713031680 + c.toNat * 524288 + o.toNat
  | .sysRd d r => 805306368 + d.toNat * 524288 + r.toNat * 4
  | .sysWr a r => 822083584 + a.toNat * 16384 + r.toNat * 4
  | .trap c => 838860800 + c.toNat
  | .xgate => 855638016
  | .resume a => 872415232 + a.toNat * 16384
  | .rbase => 889192448
  | .yield => 905969664
  | .branch a b c o => 939524096 + a.toNat * 524288 + b.toNat * 16384 + c.toNat * 2048 + o.toNat
  | .jal d o => 956301312 + d.toNat * 524288 + o.toNat
  | .jr a => 973078528 + a.toNat * 524288
  | .loop l c n t => 989855744 + l.toNat * 4194304 + c.toNat * 131072 + n.toNat * 512 + t.toNat * 128
  | .lsplit a b c => 1006632960 + a.toNat * 65536 + b.toNat * 256 + c.toNat
  | .lbrk => 1023410176
  | .done => 1040187392
  | .nop => 1056964608
  | .dep p a b c => 16777216 + p.toNat * 1048576 + a.toNat * 65536 + b.toNat * 4096 + c.toNat * 256
  | .gmov d sp => 33554432 + d.toNat * 2097152 + sp.toNat * 65536
  | .gadd d a im => 50331648 + d.toNat * 2097152 + a.toNat * 262144 + im.toNat
  | .glea d a b k => 67108864 + d.toNat * 2097152 + a.toNat * 262144 + b.toNat * 32768 + k.toNat * 8192
  | .itld g a o => 83886080 + g.toNat * 2097152 + a.toNat * 262144 + o.toNat
  | .itst g a o => 100663296 + g.toNat * 2097152 + a.toNat * 262144 + o.toNat
  | .itmod g f a => 117440512 + g.toNat * 2097152 + f.toNat * 131072 + a.toNat * 16384
  | .chld c a o => 134217728 + c.toNat * 4194304 + a.toNat * 262144 + o.toNat
  | .sbind q g c d n o => 150994944 + q.toNat * 2097152 + g.toNat * 262144 + c.toNat * 65536 + d.toNat * 32768 + n.toNat * 16384 + o.toNat
  | .sunbind q => 167772160 + q.toNat * 2097152
  | .sskip q a => 184549376 + q.toNat * 2097152 + a.toNat * 262144
  | .cp d sp l b o c z => 201326592 + d.toNat * 2097152 + sp.toNat * 262144 + l.toNat * 32768 + b.toNat * 4096 + o.toNat * 512 + c.toNat * 256 + z.toNat * 64
  | .cpCg d sp p b o => 218103808 + d.toNat * 2097152 + sp.toNat * 262144 + p.toNat * 32768 + b.toNat * 4096 + o.toNat * 512
  | .cpst d sp p b o => 234881024 + d.toNat * 2097152 + sp.toNat * 262144 + p.toNat * 32768 + b.toNat * 4096 + o.toNat * 512
  | .wsort d sp p b o c l => 268435456 + d.toNat * 2097152 + sp.toNat * 262144 + p.toNat * 32768 + b.toNat * 4096 + o.toNat * 512 + c.toNat * 128 + l.toNat * 32
  | .xsend k q l o => 301989888 + k.toNat * 2097152 + q.toNat * 262144 + l.toNat * 32768 + o.toNat * 512
  | .xwait k o => 318767104 + k.toNat * 2097152 + o.toNat * 512
  | .xgrant k o => 335544320 + k.toNat * 2097152 + o.toNat * 512
  | .xstat k d o => 352321536 + k.toNat * 2097152 + d.toNat * 262144 + o.toNat * 512
  | .clAr d sp l r o c p t => 369098752 + d.toNat * 2097152 + sp.toNat * 262144 + l.toNat * 32768 + r.toNat * 4096 + o.toNat * 512 + c.toNat * 64 + p.toNat * 16 + t.toNat * 4
  | .clBc d sp l r o c => 385875968 + d.toNat * 2097152 + sp.toNat * 262144 + l.toNat * 32768 + r.toNat * 4096 + o.toNat * 512 + c.toNat * 64
  | .clAg d sp l o c => 402653184 + d.toNat * 2097152 + sp.toNat * 262144 + l.toNat * 32768 + o.toNat * 512 + c.toNat * 64
  | .clRs d sp l r o c p t => 419430400 + d.toNat * 2097152 + sp.toNat * 262144 + l.toNat * 32768 + r.toNat * 4096 + o.toNat * 512 + c.toNat * 64 + p.toNat * 16 + t.toNat * 4
  | .mmov d sp => 33554432 + d.toNat * 2097152 + sp.toNat * 65536
  | .madd d a im => 50331648 + d.toNat * 2097152 + a.toNat * 262144 + im.toNat
  | .bktz n t o => 67108864 + n.toNat * 2097152 + t.toNat * 262144 + o.toNat
  | .bkt a l r t c sp o => 83886080 + a.toNat * 2097152 + l.toNat * 262144 + r.toNat * 32768 + t.toNat * 4096 + c.toNat * 1024 + sp.toNat * 256 + o.toNat
  | .bfin c sp a r o => 100663296 + c.toNat * 2097152 + sp.toNat * 262144 + a.toNat * 32768 + r.toNat * 4096 + o.toNat
  | .tmma m n a b c t im => 117440512 + m.toNat * 4194304 + n.toNat * 65536 + a.toNat * 8192 + b.toNat * 1024 + c.toNat * 128 + t.toNat * 8 + im.toNat * 4
  | .tmmaSp m n a b c q t im => 134217728 + m.toNat * 4194304 + n.toNat * 65536 + a.toNat * 8192 + b.toNat * 1024 + c.toNat * 128 + q.toNat * 16 + t.toNat * 2 + im.toNat
  | .spc im v m n t o => 150994944 + im.toNat * 2097152 + v.toNat * 262144 + m.toNat * 32768 + n.toNat * 4096 + t.toNat * 512 + o.toNat
  | .accz a n o => 167772160 + a.toNat * 2097152 + n.toNat * 262144 + o.toNat
  | .adrain d a sp t o => 184549376 + d.toNat * 2097152 + a.toNat * 262144 + sp.toNat * 32768 + t.toNat * 2048 + o.toNat
  | .qdrain d a sp m t c o => 201326592 + d.toNat * 2097152 + a.toNat * 262144 + sp.toNat * 32768 + m.toNat * 4096 + t.toNat * 256 + c.toNat * 32 + o.toNat
  | .quant2 d a sp x t o => 218103808 + d.toNat * 2097152 + a.toNat * 262144 + sp.toNat * 32768 + x.toNat * 4096 + t.toNat * 256 + o.toNat
  | .accmv d a n o => 234881024 + d.toNat * 2097152 + a.toNat * 262144 + n.toNat * 32768 + o.toNat
  | .mstat d sp => 251658240 + d.toNat * 2097152 + sp.toNat * 131072
  | .vsh sp => 16777216 + sp.toNat * 65536
  | .vadd w d a b p f r => 33554432 + w.toNat * 8388608 + d.toNat * 262144 + a.toNat * 4096 + b.toNat * 64 + p.toNat * 8 + f.toNat * 4 + r.toNat
  | .vsub w d a b p f r => 50331648 + w.toNat * 8388608 + d.toNat * 262144 + a.toNat * 4096 + b.toNat * 64 + p.toNat * 8 + f.toNat * 4 + r.toNat
  | .vmul w d a b p f r => 67108864 + w.toNat * 8388608 + d.toNat * 262144 + a.toNat * 4096 + b.toNat * 64 + p.toNat * 8 + f.toNat * 4 + r.toNat
  | .vfma w d a b p f r => 83886080 + w.toNat * 8388608 + d.toNat * 262144 + a.toNat * 4096 + b.toNat * 64 + p.toNat * 8 + f.toNat * 4 + r.toNat
  | .vfms w d a b p f r => 100663296 + w.toNat * 8388608 + d.toNat * 262144 + a.toNat * 4096 + b.toNat * 64 + p.toNat * 8 + f.toNat * 4 + r.toNat
  | .vnfma w d a b p f r => 117440512 + w.toNat * 8388608 + d.toNat * 262144 + a.toNat * 4096 + b.toNat * 64 + p.toNat * 8 + f.toNat * 4 + r.toNat
  | .vmin w d a b p f r => 134217728 + w.toNat * 8388608 + d.toNat * 262144 + a.toNat * 4096 + b.toNat * 64 + p.toNat * 8 + f.toNat * 4 + r.toNat
  | .vmax w d a b p f r => 150994944 + w.toNat * 8388608 + d.toNat * 262144 + a.toNat * 4096 + b.toNat * 64 + p.toNat * 8 + f.toNat * 4 + r.toNat
  | .vminm w d a b p f r => 167772160 + w.toNat * 8388608 + d.toNat * 262144 + a.toNat * 4096 + b.toNat * 64 + p.toNat * 8 + f.toNat * 4 + r.toNat
  | .vmaxm w d a b p f r => 184549376 + w.toNat * 8388608 + d.toNat * 262144 + a.toNat * 4096 + b.toNat * 64 + p.toNat * 8 + f.toNat * 4 + r.toNat
  | .vabs w d a p f r => 201326592 + w.toNat * 8388608 + d.toNat * 262144 + a.toNat * 4096 + p.toNat * 8 + f.toNat * 4 + r.toNat
  | .vneg w d a p f r => 201326656 + w.toNat * 8388608 + d.toNat * 262144 + a.toNat * 4096 + p.toNat * 8 + f.toNat * 4 + r.toNat
  | .vand w d a b p f r => 218103808 + w.toNat * 8388608 + d.toNat * 262144 + a.toNat * 4096 + b.toNat * 64 + p.toNat * 8 + f.toNat * 4 + r.toNat
  | .vor w d a b p f r => 234881024 + w.toNat * 8388608 + d.toNat * 262144 + a.toNat * 4096 + b.toNat * 64 + p.toNat * 8 + f.toNat * 4 + r.toNat
  | .vxor w d a b p f r => 251658240 + w.toNat * 8388608 + d.toNat * 262144 + a.toNat * 4096 + b.toNat * 64 + p.toNat * 8 + f.toNat * 4 + r.toNat
  | .vshl w d a b p f r => 268435456 + w.toNat * 8388608 + d.toNat * 262144 + a.toNat * 4096 + b.toNat * 64 + p.toNat * 8 + f.toNat * 4 + r.toNat
  | .vshr w d a b p f r => 285212672 + w.toNat * 8388608 + d.toNat * 262144 + a.toNat * 4096 + b.toNat * 64 + p.toNat * 8 + f.toNat * 4 + r.toNat
  | .vsra w d a b p f r => 301989888 + w.toNat * 8388608 + d.toNat * 262144 + a.toNat * 4096 + b.toNat * 64 + p.toNat * 8 + f.toNat * 4 + r.toNat
  | .vcmp w d a b c f r => 318767104 + w.toNat * 8388608 + d.toNat * 262144 + a.toNat * 4096 + b.toNat * 64 + c.toNat * 8 + f.toNat * 4 + r.toNat
  | .vsel w d a b p f r => 335544320 + w.toNat * 8388608 + d.toNat * 262144 + a.toNat * 4096 + b.toNat * 64 + p.toNat * 8 + f.toNat * 4 + r.toNat
  | .vcvt w d a t p f r => 352321536 + w.toNat * 8388608 + d.toNat * 262144 + a.toNat * 4096 + t.toNat * 64 + p.toNat * 8 + f.toNat * 4 + r.toNat
  | .vred w d a x o p f r => 369098752 + w.toNat * 8388608 + d.toNat * 262144 + a.toNat * 4096 + x.toNat * 256 + o.toNat * 64 + p.toNat * 8 + f.toNat * 4 + r.toNat
  | .vscan w d a x o p f r => 385875968 + w.toNat * 8388608 + d.toNat * 262144 + a.toNat * 4096 + x.toNat * 256 + o.toNat * 64 + p.toNat * 8 + f.toNat * 4 + r.toNat
  | .vperm w d a b p f r => 402653184 + w.toNat * 8388608 + d.toNat * 262144 + a.toNat * 4096 + b.toNat * 64 + p.toNat * 8 + f.toNat * 4 + r.toNat
  | .vbcast w d a im p f r => 419430400 + w.toNat * 8388608 + d.toNat * 262144 + a.toNat * 4096 + im.toNat * 64 + p.toNat * 8 + f.toNat * 4 + r.toNat
  | .vtrn w d a p f r => 436207616 + w.toNat * 8388608 + d.toNat * 262144 + a.toNat * 4096 + p.toNat * 8 + f.toNat * 4 + r.toNat
  | .vrcp w d a p f r => 452984832 + w.toNat * 8388608 + d.toNat * 262144 + a.toNat * 4096 + p.toNat * 8 + f.toNat * 4 + r.toNat
  | .vrsq w d a p f r => 469762048 + w.toNat * 8388608 + d.toNat * 262144 + a.toNat * 4096 + p.toNat * 8 + f.toNat * 4 + r.toNat
  | .vrfix w d a b p f r => 486539264 + w.toNat * 8388608 + d.toNat * 262144 + a.toNat * 4096 + b.toNat * 64 + p.toNat * 8 + f.toNat * 4 + r.toNat
  | .vrsfix w d a b p f r => 503316480 + w.toNat * 8388608 + d.toNat * 262144 + a.toNat * 4096 + b.toNat * 64 + p.toNat * 8 + f.toNat * 4 + r.toNat
  | .vexp2 w d a p f r => 520093696 + w.toNat * 8388608 + d.toNat * 262144 + a.toNat * 4096 + p.toNat * 8 + f.toNat * 4 + r.toNat
  | .vlog2 w d a p f r => 536870912 + w.toNat * 8388608 + d.toNat * 262144 + a.toNat * 4096 + p.toNat * 8 + f.toNat * 4 + r.toNat
  | .vsin w d a p f r => 553648128 + w.toNat * 8388608 + d.toNat * 262144 + a.toNat * 4096 + p.toNat * 8 + f.toNat * 4 + r.toNat
  | .vcos w d a p f r => 570425344 + w.toNat * 8388608 + d.toNat * 262144 + a.toNat * 4096 + p.toNat * 8 + f.toNat * 4 + r.toNat
  | .vsplat w d k sp p => 587202560 + w.toNat * 8388608 + d.toNat * 262144 + k.toNat * 131072 + sp.toNat * 4096 + p.toNat * 8
  | .vomov w d a p f r => 603979776 + w.toNat * 8388608 + d.toNat * 262144 + a.toNat * 4096 + p.toNat * 8 + f.toNat * 4 + r.toNat
  | .vmov w d a p f r => 620756992 + w.toNat * 8388608 + d.toNat * 262144 + a.toNat * 4096 + p.toNat * 8 + f.toNat * 4 + r.toNat
  | .vld d im o p => 637534208 + d.toNat * 262144 + im.toNat * 32768 + o.toNat * 4096 + p.toNat * 8
  | .vst d im o p => 654311424 + d.toNat * 262144 + im.toNat * 32768 + o.toNat * 4096 + p.toNat * 8
  | .vbld d im o p => 671088640 + d.toNat * 262144 + im.toNat * 32768 + o.toNat * 4096 + p.toNat * 8
  | .vbst d im o p => 687865856 + d.toNat * 262144 + im.toNat * 32768 + o.toNat * 4096 + p.toNat * 8
  | .vsld d im o p => 704643072 + d.toNat * 262144 + im.toNat * 32768 + o.toNat * 4096 + p.toNat * 8
  | .vsst d im o p => 721420288 + d.toNat * 262144 + im.toNat * 32768 + o.toNat * 4096 + p.toNat * 8
  | .vgth w d a o p => 738197504 + w.toNat * 8388608 + d.toNat * 262144 + a.toNat * 4096 + o.toNat * 512 + p.toNat * 8
  | .vsct d a o p => 754974720 + d.toNat * 262144 + a.toNat * 4096 + o.toNat * 512 + p.toNat * 8
  | .viset im sp o => 771751936 + im.toNat * 2097152 + sp.toNat * 4096 + o.toNat * 512
  | .pset p a e => 788529152 + p.toNat * 2097152 + a.toNat * 262144 + e.toNat * 65536
  | .pfirst p a => 805306368 + p.toNat * 2097152 + a.toNat * 4096
  | .pminmax d a b o => 822083584 + d.toNat * 2097152 + a.toNat * 262144 + b.toNat * 32768 + o.toNat * 16384
  | .vfr x im => 838860800 + x.toNat * 2097152 + im.toNat
  | .vfc x => 855638016 + x.toNat * 2097152
  | .vmode x im => 872415232 + x.toNat * 2097152 + im.toNat
  | .vpop d q p => 905969664 + d.toNat * 262144 + q.toNat * 32768 + p.toNat * 8
  | .vpush d q p => 922746880 + d.toNat * 262144 + q.toNat * 32768 + p.toNat * 8
  | _ => 0

/-- The word of an instruction with its S and H bits (R222). -/
def encode (sync hold : Bool) (i : Instr) : Word :=
  BitVec.ofNat 32 (encodeNat i + cond sync 2147483648 0 + cond hold 1073741824 0)

/-- The first cluster, in the order C, G, M, V, whose decoder accepts a word: a word alone does not say in which of the four
streams it stands (log entry 3). -/
def clusterOfWord (w : Word) : Cluster :=
  if (decodeWord .c w).isOk then .c else if (decodeWord .g w).isOk then .g else if (decodeWord .m w).isOk then .m else .v

/-- What the decoder reads from an instruction of one 32-bit word given as a number, bit 0 the least significant bit. The
word is laid out as it is stored, little-endian (R222), and read back. -/
def decodeTableWord (_nbits w : Nat) : Option Instr :=
  let x : Word := BitVec.ofNat 32 (bits w 0 8 + bits w 8 8 * 256 + bits w 16 8 * 65536 + bits w 24 8 * 16777216)
  match decodeWord (clusterOfWord x) x with
  | .ok i => some i
  | .error _ => none

end Sys2Proof
end

