-- ==== Sys2Proof/Machine/State.lean ====
section
/-! DEFINITION. The state of the package as plain data: every piece of architectural state the specification names, the
choices of the agents still to act, and the two stop types. -/

namespace Sys2Proof.Machine

/-- Why a step stops the machine. -/
inductive Fault where
  /-- `exec` was given an instruction word while the issue turn names a slot in which no strand stands. Raised by the issue
  wrapper only; `step` never makes such a turn. Safe. -/
  | noStrand
deriving DecidableEq, Repr

/-- Why a step refuses. -/
inductive Refusal where
  /-- The instruction has no meaning in the model yet; raised by an arm of `exec` only. Safe. -/
  | notModelled (mnemonic : String)
deriving DecidableEq, Repr

/-- A vector of 64 race clocks, one for each agent of a quad (R137); entries beyond the list are 0. -/
abbrev Vec := List Nat

/-- An ordering stream of a cluster (R90, R101, R102). `ahead` lists the sequence numbers performed past a gap. -/
structure Stream where
  issued : BitVec 16
  completed : BitVec 16
  ahead : List (BitVec 16)
  exh : Bool
  held : Bool
deriving DecidableEq, Repr

/-- One level of a hardware loop (R190, R191, R395): counter, N, START, STOP, p, byte offset of the first body word, L, S,
the three boundaries, whether an `lbrk` was taken in this pass and whether one has ended the loop (R193), and DRAINED. -/
structure LoopLevel where
  ctr : Nat
  n : Nat
  start : Nat
  stop : Nat
  p : Nat
  body : Nat
  len : Nat
  stages : Nat
  b1 : Nat
  b2 : Nat
  b3 : Nat
  brk : Bool
  broken : Bool
  drained : Bool
deriving DecidableEq, Repr

/-- One cluster of a strand (R178): its stream image (R254), next word, loops (innermost first) with the values LOOPC0 to
LOOPC2, words issued in the open hold group (R185) and that group's number, whether a rendezvous has let its sync-marked
word go, how many rendezvous a precise fault has put before it again (log entry 6), the operation it waits on, the stream of a word that stalls for
its translation or for pins (R73, R81), `yield` (R269), whether it stands
at a pre-emption point at a pass boundary (R193), and the counts of R184 and R400. -/
structure ClusterSt where
  image : List (BitVec 32)
  pc : Nat
  ended : Bool
  loops : List LoopLevel
  lc : List (BitVec 32)
  group : Nat
  groupId : Nat
  released : Bool
  past : Nat
  blocked : Option Nat
  owes : Option Nat
  yielded : Bool
  point : Bool
  streams : List Stream
  wait : Nat
  stall : Nat
deriving DecidableEq, Repr

/-- A dependence token (R108) with what `tkpost` recorded (R112) and its vector (R138). -/
structure Token where
  st : BitVec 2
  cause : BitVec 8
  cover : Option (Cluster × List (Nat × BitVec 16))
  vec : Vec
deriving DecidableEq, Repr

/-- A snapshot of the scalar file and the descriptors (R115). -/
structure Snap where
  s : List (BitVec 64)
  od : List (BitVec 14)
deriving DecidableEq, Repr

/-- The direction of a bound stream register (R159). -/
inductive Dir where
  | input | output
deriving DecidableEq, Repr

/-- A bound stream register (R159, R161, R301, R302, R305): direction, the copied iterator record and chain, the binding
operation, the entries E of the whole binding, the position of the gather or scatter unit in entries and (packed streams, and in an entry that is
written in part) in bytes, the queued entries by number, the first entry no consumer has claimed, ranges to be skipped, the error met at
an entry: its cause and the values VALUE and MMX of R396; with EXPAND the packed bytes read and not yet expanded, and the error that
the unit met after them (R163); and whether a `sunbind` of this cycle has released it (R303). -/
structure Binding where
  dir : Dir
  iter : BitVec 512
  chain : BitVec 256
  op : Nat
  total : Nat
  pos : Nat
  bytePos : Nat
  queue : List (Nat × BitVec 512)
  claimed : Nat
  skips : List (Nat × Nat)
  bad : Option (Nat × BitVec 8 × BitVec 64 × BitVec 64)
  packed : List (BitVec 8)
  stuck : Option (BitVec 8 × BitVec 64 × BitVec 64)
  leaving : Bool
deriving DecidableEq, Repr

/-- The registers a later word may have to wait for (R96). -/
inductive RegName where
  | s (n : Nat) | g (n : Nat) | m (n : Nat) | x (n : Nat) | gi (n : Nat) | ch (n : Nat) | vi (n : Nat) | v (n : Nat) | p (n : Nat)
deriving DecidableEq, Repr

/-- A register that awaits the value of an issued operation. -/
structure Busy where
  reg : RegName
  op : Nat
deriving DecidableEq, Repr

/-- The registers of the G cluster (R187). An unloaded iterator or chain register is `none` (R298). -/
structure GRegs where
  g : List (BitVec 64)
  gi : List (Option (BitVec 512))
  ch : List (Option (BitVec 256))
  q : List (Option Binding)
  snap : Snap
deriving DecidableEq, Repr

/-- The registers of the M cluster and the flag set MFLAGS, with the flags that commands performed in this cycle have raised (R187, R264,
R339). -/
structure MRegs where
  m : List (BitVec 64)
  mflags : BitVec 6
  flagsNow : BitVec 6
  snap : Snap
deriving DecidableEq, Repr

/-- The registers of the V cluster (R187, R188, R342 to R345, R357): `vmodeC` is a C write of VMODE that waits for the next
rendezvous (R264), `vmodeAt` those that have taken effect, by the number of the rendezvous; `vi` records with their positions, none when unloaded; `part` the word offset and the element at which a
faulted sweep, gather or scatter goes on (R360, R361). -/
structure VRegs where
  x : List (BitVec 64)
  v : List (BitVec 8192)
  o : List (BitVec 8192)
  vi : List (Option (BitVec 512))
  viPos : List Nat
  p : List (BitVec 16)
  vsh : BitVec 64
  vmode : BitVec 2
  vmodeC : Option (BitVec 2)
  vmodeAt : List (Nat × BitVec 2)
  vflags : List (BitVec 6)
  part : Option (Nat × Nat)
  snap : Snap
deriving DecidableEq, Repr

/-- Where a strand stands: bound to a slot and not started (R381), running, between running and its handler, or its save (R391,
R401). -/
inductive Phase where
  | bound | run | frozen | framed | handler | saving
deriving DecidableEq, Repr

/-- What the frame header records of a trap (R396). -/
structure TrapInfo where
  cause : BitVec 8
  kind : BitVec 8
  cluster : Cluster
  step : BitVec 8
  qual : BitVec 8
  code : BitVec 16
  value : BitVec 64
  mmx : BitVec 64
  cycle : Nat
deriving DecidableEq, Repr

/-- An entry of a last-result file (R189): the strand's slot, the hold group and the value; a load still to be bound, with
the register of its group (R359). -/
structure Latch where
  pos : Nat
  group : Nat
  val : BitVec 8192
  op : Option (Nat × Nat)
deriving DecidableEq, Repr

/-- A scoreboard entry (R397): the held operation and the cause of its late fault. -/
structure Score where
  entry : Nat
  op : Nat
  cause : BitVec 8
deriving DecidableEq, Repr

/-- The trap, scoreboard, save and watchdog state of a strand (R389, R391, R397, R399, R401). `savedC` is the C cluster's own stream state while the
handler runs on it, `latch` the last-result entries of a hold group that is to be reopened (R189), `entry` the name the next operation had when the
handler was entered, `asked` a pre-emption request that is held until `resume` or the end of a column migration (R55, R401); `busy` the scalar
registers that await a waiting program operation while the handler runs (R267), `noted` the number of scoreboard entries that its frame holds (R397),
`arrived` an `hbar.aw` that was taken back after its arrival: its place, the phase, and its descriptor (R133). -/
structure TrapSt where
  phase : Phase
  info : TrapInfo
  score : List Score
  savedC : Option ClusterSt
  latch : List Latch
  entry : Nat
  busy : List Busy
  noted : Nat
  arrived : Option (Nat × Nat × BitVec 14)
  pend : Bool
  asked : Bool
  forced : Bool
  saveStart : Option Nat
  dzi : Bool
  dziAtFault : Bool
  trapen : BitVec 6
  wdog : BitVec 48
  age : BitVec 12
deriving DecidableEq, Repr

/-- Who a strand is (R176, R29). -/
structure Ident where
  job : BitVec 64
  unit : BitVec 24
  strand : Nat
  nstr : Nat
  role : Nat
  quadpos : BitVec 64
  arg : BitVec 64
  weight : Nat
deriving DecidableEq, Repr

/-- A strand in slot `pos mod 4` of core `pos / 4` (R178). `rdv` is the name the next operation had at the latest rendezvous
(R266), `rdvs` the number of rendezvous so far. -/
structure Strand where
  pos : Nat
  who : Ident
  c : ClusterSt
  g : ClusterSt
  m : ClusterSt
  v : ClusterSt
  s : List (BitVec 64)
  od : List (BitVec 14)
  gr : GRegs
  mr : MRegs
  vr : VRegs
  tk : List Token
  busy : List Busy
  rdv : Nat
  rdvs : Nat
  trap : TrapSt
deriving DecidableEq, Repr

/-- A run of bytes of one place: local storage at `phys`, or the memory of package `peer` at virtual address `va`. For local
global memory `va` and `mode` are those of the page (R61), `cmp` says the page is compressed, `page` and `size` give the
page; on chip, `va` is the window offset. -/
structure Seg where
  phys : Nat
  len : Nat
  va : Nat
  peer : Option (BitVec 12)
  mode : Nat
  cmp : Bool
  page : Nat
  size : Nat
deriving DecidableEq, Repr

/-- A checked footprint: the pointer, its space tag, and its runs in address order (R21). -/
structure Loc where
  ptr : BitVec 64
  tag : Nat
  segs : List Seg
deriving DecidableEq, Repr

/-- How far an issued operation is (R96, R104): issued and waiting, started, sent to a peer, held by a late fault, recorded
as waiting by a trap or a save (R279), or ended. -/
inductive OpStatus where
  | issued | started | sent | held | waiting
deriving DecidableEq, Repr

/-- An issued operation (R89, R96, R101): its agent, the strand as it stood when it issued where a precise fault may take it back
(R392; log entry 6), word (with its prefix word), stream, sequence number, the need values of
its mask, scope, produced and waited tokens, named barrier, vector (R138), register values and storage bound at issue,
stream entries claimed (stream, first, count), bytes credited, progress, result registers, the cycle of its issue, how its waited tokens
resolved (the cause of an error, if there was one; R110), and whether a credit of it found its barrier gone (R127). -/
structure Op where
  id : Nat
  pos : Nat
  job : BitVec 64
  cl : Cluster
  was : Option Strand
  word : BitVec 32
  pfx : Option (BitVec 32)
  instr : Instr
  od : Option (BitVec 14)
  seq : BitVec 16
  need : List (BitVec 16)
  prod : Nat
  waits : List Nat
  bar : Option Seg
  vec : Vec
  vals : List (BitVec 64)
  locs : List Loc
  data : List (BitVec 8192)
  claims : List (Nat × Nat × Nat)
  taken : List (Nat × BitVec 512)
  credited : Nat
  progress : Nat
  dest : List RegName
  ring : Bool
  stale : Bool
  cycle : Nat
  resolved : Option (Option (BitVec 8))
  lost : Bool
  status : OpStatus
deriving DecidableEq, Repr

/-- The bucket file of a core (R45, R325): owner slot, T, LEFT, and its nonzero words by index. -/
structure Bucket where
  owner : Option Nat
  t : Nat
  left : Nat
deriving DecidableEq, Repr

/-- A fault that has joined a fault freeze (R391, R393): its slot, cause and kind, and the cycle of its detection. -/
structure Noted where
  slot : Nat
  cause : BitVec 8
  kind : BitVec 8
  cycle : Nat
deriving DecidableEq, Repr

/-- A core: last-result file, one more than the cycles left of a correction freeze (26 in the cycle of the detection, before it begins), the cycles left of a fault freeze with its first cycle, the
faults that have joined it and the record captured in its first cycle (R393), the AGE of jobs that have written it here, in force and from the next cycle on (R264), open hold group of each physical
cluster (slot and cluster), order of service (most recent first) of the slots in each cluster, the clusters that have issued in this cycle with the
slot they served, bucket file (R189, R48, R391, R185, R183, R45). -/
structure Core where
  id : Nat
  latch : List Latch
  corr : Nat
  freeze : Nat
  freezeAt : Nat
  faults : List Noted
  record : List (BitVec 8)
  ages : List (BitVec 64 × BitVec 12)
  agesNext : List (BitVec 64 × BitVec 12)
  hold : List (Cluster × Nat)
  served : List (Cluster × List Nat)
  spent : List (Cluster × Nat)
  bucket : Bucket
deriving DecidableEq, Repr

/-- An entry of the barrier clock table (R138): the barrier's granule, its phase vector and the vector accumulating; with the name the
next operation had when it was initialised (R127) and the cause its ERROR flag reports at `bar.wait` (R51). -/
structure BarClock where
  addr : Nat
  phase : Vec
  acc : Vec
  since : Nat
  cause : BitVec 8
deriving DecidableEq, Repr

/-- A quad: race clocks and seen vectors (R137), barrier clock table, `hbar` vectors by job, scope and phase, spill-ring stall
(R148), out-of-service and no-placement marks and the cycles of its correctable errors of the last hour, the latest first (R425), and the streamer's round robin
(R149): the slot it visits, the bytes that slot's strand may still move in the round, and by slot the bytes of started commands that
later rounds carry; the rebase in progress with the slots whose `rbase` it serves, and those that a finished one has served (R144, R268). -/
structure Quad where
  id : Nat
  clock : Vec
  seen : List Vec
  bars : List BarClock
  hbars : List (BitVec 64 × Nat × Nat × Vec)
  ringStall : Option Nat
  out : Bool
  noPlace : Bool
  errTimes : List Nat
  visit : Nat
  share : Nat
  owed : List (Nat × Nat)
  rebase : Option (List Nat)
  rebased : List Nat
deriving DecidableEq, Repr

/-- A race mark (R44, R137): last writer and clock. -/
structure Mark where
  granule : Nat
  writer : BitVec 6
  clock : BitVec 16
deriving DecidableEq, Repr

/-- The side state of the stores: full 16-byte granules (R38), race marks that are not "none" (R44), faulty words and whether
their error is correctable (R47, R58), bucket words with odd parity; the granules whose full/empty bit has changed in this cycle (R40), and
by bench bank the ports it has served, the latest first (R34). `stuck` holds the sectors of LPDDR-6 that stay uncorrectable whatever is written (R423). -/
structure Side where
  full : List Nat
  marks : List Mark
  faulty : List (Nat × Bool)
  stuck : List Nat
  fresh : List Nat
  served : List (Nat × List Nat)
deriving DecidableEq, Repr

/-- A TLB entry (R71, R77): the core (first level) or quad (second level), the job, the page and its leaf. -/
structure Tlb where
  quad : Bool
  place : Nat
  job : BitVec 64
  page : Nat
  size : Nat
  leaf : BitVec 64
  stale : Bool
deriving DecidableEq, Repr

/-- A walk that waits because it read HOLD (R81): the strand and cluster or the operation that waits, and the address. -/
structure Walk where
  id : Nat
  pos : Nat
  cl : Cluster
  job : BitVec 64
  va : Nat
  since : Nat
deriving DecidableEq, Repr

/-- A quad-cache line (R67): quad, job, line key (home package and line number), the line of virtual addresses it was filled through,
and its four sectors, newest line first. -/
structure Line where
  quad : Nat
  job : BitVec 64
  home : Option (BitVec 12)
  line : Nat
  va : Nat
  sectors : List (Option (BitVec 256))
deriving DecidableEq, Repr

/-- A migrate-on-count counter (R82). -/
structure MigCtr where
  job : BitVec 64
  page : Nat
  count : Nat
deriving DecidableEq, Repr

/-- A page motion in progress: a curator's page move (R80), or one side of a migration (R83), with its phase. -/
structure Motion where
  asr : Nat
  job : BitVec 64
  pod : BitVec 32
  va : Nat
  size : Nat
  leafAt : Nat
  dst : Nat
  phase : Nat
  asHome : Bool
  pkg : BitVec 12
deriving DecidableEq, Repr

/-- An invalidation in progress (R76, R77, R369): its entry, when one asked for it, jobs, range (no pages: the whole address space),
the operations it waits for, and the frames to be freed at its end. -/
structure Inval where
  id : Nat
  queue : Option Nat
  ticket : Nat
  root : Option Nat
  jobs : List (BitVec 64)
  va : Nat
  pages : Nat
  drop : Bool
  ops : List (Nat × Nat)
  sigctr : Nat
  irq : Bool
  frames : List Nat
deriving DecidableEq, Repr

/-- A request of this package at a peer (R65): its operation, job and the part of it; `answered` says that a moved response has come and
its retry waits (R84). -/
structure Egress where
  op : Nat
  job : BitVec 64
  quad : Nat
  pkg : BitVec 12
  req : PeerReq
  part : Nat
  answered : Bool
deriving DecidableEq, Repr

/-- Translation and the load-store domain: TLBs, waiting walks, quad caches, access counters, page motions, invalidations,
requests to peers, requests that wait at this home. -/
structure Xlate where
  tlbs : List Tlb
  walks : List Walk
  lines : List Line
  counters : List MigCtr
  motions : List Motion
  invals : List Inval
  egress : List Egress
  homeWait : List PeerReq
  frames : List Nat
deriving DecidableEq, Repr

/-- A unit (R174 to R176, R23, R25): its core, windows, member index and group size, logical column, home position, strands
still live, whether it is placed, has ended, is saved, and has its bind record valid, and the collective commands it has issued
at each scope (R170). -/
structure UnitRec where
  job : BitVec 64
  num : BitVec 24
  core : Nat
  benchBase : Nat
  benchSize : Nat
  accBase : Nat
  accSize : Nat
  member : Nat
  gsize : Nat
  col : Nat
  quadpos : BitVec 64
  live : List Nat
  placed : Bool
  ended : Bool
  saved : Bool
  released : Bool
  restoring : Bool
  colls : List (Nat × Nat)
deriving DecidableEq, Repr

/-- A stratum window of a job (R24, R28): die, logical column, the core above which it stands, and its base. -/
structure ColWin where
  die : Nat
  col : Nat
  core : Nat
  base : Nat
deriving DecidableEq, Repr

/-- A link binding of the launch packet (R164, R375). -/
structure LinkBind where
  link : BitVec 16
  slots : Nat
  slotSize : Nat
  quad : Nat
  aquad : Nat
  die : Nat
deriving DecidableEq, Repr

/-- A job taken by dispatch and not complete (R371, R373 to R379, R404): JOBID, queue and ticket, header fields, the packet's
fields, the header of its image (offset and length of each stream and of the `.bench` and `.stratum` images), the effective level
at its take, address-space record and root, placement and kill progress, and its error counts; its index in the job table of each die that
has a share of it (R381), whether this part of a pod job has signalled that its units are placed, and the other parts' packages, as their
signals say (R380). -/
structure Job where
  id : BitVec 64
  queue : Nat
  ticket : Nat
  sigctr : Nat
  irq : Bool
  asr : Nat
  root : Nat
  arg : BitVec 64
  nunits : Nat
  nstr : Nat
  gsize : Nat
  klass : Nat
  corFlag : Bool
  dies : Nat
  age : Nat
  weights : List Nat
  benchw : Nat
  stratw : Nat
  accw : Nat
  migThr : Nat
  waits : List (Nat × Nat)
  pod : BitVec 32
  podN : Nat
  podIdx : Nat
  links : List LinkBind
  roles : List Nat
  prog : Nat
  level : Nat
  streams : List (Nat × Nat)
  bimg : Nat × Nat
  simg : Nat × Nat
  descs : List (List (Option (BitVec 14)))
  cols : List ColWin
  started : Bool
  killStep : Nat
  killFlags : Nat
  cancelled : Nat
  contexts : Nat
  status : Nat
  errTok : Nat
  errBar : Nat
  slots : List (Nat × Nat)
  signalled : Bool
  parts : List (Nat × BitVec 12)
deriving DecidableEq, Repr

/-- A bind record of the slot table (R381), by logical slot: the fields of the record. A slot that has none reads as zeros. -/
structure BindRec where
  pos : Nat
  quadpos : BitVec 24
  accB : Nat
  benchB : Nat
  jslot : Nat
  unit : BitVec 24
  weight : Nat
  role : Nat
  strand : Nat
  ended : Bool
  valid : Bool
deriving DecidableEq, Repr

/-- A barrier of the hierarchy (R131): job, scope, instance, phase, units arrived in the phase, the phase in which each unit
last arrived, and the last phase each strand (4 × unit + index) has acquired, plus one. -/
structure Hbar where
  job : BitVec 64
  scope : Nat
  site : Nat
  phase : Nat
  arrived : List (BitVec 24)
  last : List (BitVec 24 × Nat)
  acq : List (Nat × Nat)
deriving DecidableEq, Repr

/-- What travels to an end of a link (R167): a send with its tag and bytes, or the return of a permit; with the operation that sent
it. -/
inductive Transit where
  | send (tag : BitVec 16) (bytes : List (BitVec 8)) (op : Option Nat)
  | permit (op : Option Nat)
deriving DecidableEq, Repr

/-- One end of an exchange link of a job (R165, R166, R169): its slots, their size and window quad (64 × die + quad), TXSEQ, RXSEQ, PERMITS, FULL with
the order of delivery, delivered tags of slots, the sends and permit returns on their way to this end, the oldest first (R167), and
whether its receive slots are reserved (R164). -/
structure LinkEnd where
  job : BitVec 64
  link : BitVec 16
  far : Bool
  slots : Nat
  slotSize : Nat
  quad : Nat
  txseq : BitVec 16
  rxseq : BitVec 16
  permits : Nat
  full : List Nat
  tags : List (Nat × BitVec 16 × Nat)
  arriving : List Transit
  lerr : Bool
  placed : Bool
deriving DecidableEq, Repr

/-- A work queue (R366, R367): descriptor bytes, tail, entries taken and completed, count of JOBIDs assigned, error bit, whether it
has stopped (R387), tickets taken and not complete, since when its next entry has been ready (R370), and, of a device-fed queue, the
tickets that submitters have taken and dispatch has not reached: the first, how many, and the submitter's job (R195, R196). -/
structure Queue where
  q : Nat
  desc : List (BitVec 8)
  tail : Nat
  takenN : Nat
  doneN : Nat
  jobs : Nat
  err : Bool
  stop : Nat
  open_ : List Nat
  since : Option Nat
  takers : List (Nat × Nat × BitVec 64)
deriving DecidableEq, Repr

/-- A saved context of a strand (R401, R403): the strand, its operations, the context area that its frame stands in (R388), the bucket file
when it owned it, whose words stand in the frame, and, with the last strand of a unit, the window save areas of the unit's bench and
accumulator windows and of the stratum windows left empty of units (kind, column, length and frames of 2 MiB), with the full granules and
the initialised barriers of the bench window and the uncorrectable words of each kind, by window offset. -/
structure Saved where
  strand : Strand
  ops : List Op
  area : Nat
  bucket : Option Bucket
  windows : List (Nat × Nat × Nat × List Nat)
  full : List Nat
  bars : List Nat
  bad : List (Nat × Nat)
deriving DecidableEq, Repr

/-- A column migration in progress (R53). -/
structure ColMove where
  die : Nat
  src : Nat
  dst : Nat
  phase : Nat
deriving DecidableEq, Repr

/-- A replay of a graph (R385): queue, entry, root and address-space record, frame, the state of each node (0 waiting, 1 launched, otherwise 0x100 and its
status), the predecessors and the JOBID of each node, the dies that have a share of some node's groups (R372), and the error counts of
the nodes that have completed (R378). -/
structure Replay where
  id : Nat
  queue : Nat
  ticket : Nat
  sigctr : Nat
  irq : Bool
  root : Nat
  asr : Nat
  level : Nat
  va : Nat
  nodes : List (Nat × Nat)
  preds : List (Nat × Nat)
  jobs : List (BitVec 64)
  dies : List Nat
  errTok : Nat
  errBar : Nat
deriving DecidableEq, Repr

/-- A delivery context (R415): peer, pod job, the job that opened it, whether this package is the sender, epoch, next number to send or expected,
packets unacknowledged with the cycle each was last sent and its retransmissions (at the home, packets not yet performed), cycle of
the last acknowledgement, whether it is being closed, since when, and whether it is closed. -/
structure Ctx where
  id : Nat
  pkg : BitVec 12
  pod : BitVec 32
  job : Option (BitVec 64)
  sender : Bool
  epoch : BitVec 32
  next : BitVec 16
  window : List (BitVec 16 × PeerReq × Nat × Nat)
  ackAt : Nat
  closing : Bool
  closeAt : Nat
  closed : Bool
deriving DecidableEq, Repr

/-- What a part of a pod job says of its command of a collective: its share, that the command has ended in error, or that it can issue no
command of this number or a later one (R172). -/
inductive PartState where
  | share | failed | ended
deriving DecidableEq, Repr

/-- What the part of a pod job on one package contributes to a collective at pod scope (R170): the pod job, which collective of
the scope it is, the part (R373) and its package, operation with operator and type, byte count, root, one block for each participant,
and how its command stands (R172). -/
structure PodPart where
  pod : BitVec 32
  num : Nat
  part : Nat
  pkg : BitVec 12
  kind : Nat
  len : Nat
  root : Nat
  blocks : List (List (BitVec 8))
  state : PartState
deriving DecidableEq, Repr

/-- An access through the aperture that waits for answers of peers (R411): its number, its port, whether it writes, the bytes of a read as far
as they are known, and whether a part of it has failed. -/
structure HostAccess where
  id : Nat
  port : BitVec 3
  write : Bool
  bytes : List (BitVec 8)
  failed : Bool
deriving DecidableEq, Repr

/-- What the package sends out: interrupts, with the port, or on every host port (R407, R409), fabric packets, acknowledgements and CLOSE (R415), the messages of a migration (1 ask,
2 refusal, 3 new home) and its page (R83), answers of a home (R65, R84), answers to the host and to management
(R411, R419), the management controller's in-band interrupt (R425), sends and permits on peer links (R167), its share of a collective (R170), the
signal that its part of a co-resident pod job is placed (R380), its pod barrier message, the number of phases in which every unit of its part has
arrived, or all once they have ended (R131, R413), word that its part of a pod job is killed (R404), its count of packets of the old generation, to a member of its group (R414), and a curator fault
at a slot (R381). -/
inductive Output where
  | irq (port : Option Nat) (vector : Nat)
  | packet (pkg : BitVec 12) (epoch : BitVec 32) (seq : BitVec 16) (gen : Nat) (req : PeerReq)
  | ack (pkg : BitVec 12) (epoch : BitVec 32) (seq : BitVec 16)
  | close (pkg : BitVec 12) (epoch : BitVec 32) (pod : BitVec 32)
  | message (pkg : BitVec 12) (pod : BitVec 32) (what : Nat) (va : BitVec 56)
  | page (pkg : BitVec 12) (pod : BitVec 32) (va : BitVec 56) (leaf : BitVec 64) (data : List (BitVec 8))
  | moved (pkg : BitVec 12) (home : BitVec 12) (va : BitVec 56)
  | response (pkg : BitVec 12) (err : BitVec 8) (data : List (BitVec 8))
  | data (bytes : List (BitVec 8))
  | result (code : Nat)
  | linkSend (job : BitVec 64) (link : BitVec 16) (tag : BitVec 16) (bytes : List (BitVec 8))
  | linkPermit (job : BitVec 64) (link : BitVec 16)
  | share (p : PodPart)
  | placed (pod : BitVec 32) (part : Nat) (pkg : BitVec 12)
  | arrived (pod : BitVec 32) (part : Nat) (phases : Option Nat) (pkg : BitVec 12)
  | killed (pod : BitVec 32) (part : Nat) (flags : Nat) (pkg : BitVec 12)
  | report (member : BitVec 12) (count : Nat)
  | curatorFault (pos : Nat)
  | inband
deriving DecidableEq, Repr

/-- The stores whose errors the curator logs (R47, R58). -/
inductive Store where
  | bench | stratum | accumulator | marks | bucket | memory
deriving DecidableEq, Repr

/-- An entry of the curator's error log (R49): store, physical address, and syndrome, which is open. -/
structure LogEntry where
  store : Store
  addr : Nat
  syndrome : BitVec 64
deriving DecidableEq, Repr

/-- Host, fabric, boot and lease (R407 to R427, R458): power, whether the floor map is applied and the spare quads are fenced (R2, R417), the start
that waits for kills (1 lease, 2 warm), DEVSTAT fields, aperture with the size of each port's BAR4 as a power of two, error log with the count of its
entries, ports, island allowances, memory status, mailbox, certificates, flash and running image, fuses, open service requests by row of R425 and what
they are about, fabric tables with the packets in flight at the last commit by context, number and times sent (R414). -/
structure Platform where
  powered : Bool
  fenced : Bool
  pending : Nat
  ownValid : Bool
  owner : Nat
  claimAt : Option Nat
  leaseOpen : Bool
  recovery : Bool
  run : Bool
  dropped : Nat
  apstat : Nat
  apasr : BitVec 64
  apbase : BitVec 64
  barSize : List Nat
  accesses : List HostAccess
  ports : List Nat
  portsNext : List Nat
  links : List Bool
  linkDown : Option Nat
  tar : List (BitVec 64)
  memStatus : List (BitVec 64)
  log : List LogEntry
  logCount : Nat
  certs : List (List (BitVec 8))
  certCount : Nat
  mailbox : List (BitVec 8)
  flash : List (BitVec 8)
  running : List (BitVec 8)
  minVersion : Nat
  lmsUsed : Nat
  leaseCtr : Nat
  scrubSeq : Nat
  lastCert : List (BitVec 8)
  services : List (Nat × Nat)
  pkgNum : Option (BitVec 12)
  fabGroup : List (BitVec 12)
  routes : List (BitVec 12 × Nat)
  routesNew : List (BitVec 12 × Nat)
  generation : Nat
  retiring : Bool
  reports : List (BitVec 12 × Nat)
  oldFlight : List (Nat × BitVec 16 × Nat)
  fibres : List Nat
  ctxs : List Ctx
  lastQueue : List Nat
  nextTake : Nat
  lowered : List (Nat × Nat)
  hotSince : List (Nat × Nat)
deriving DecidableEq, Repr

/-- Who acts next: a cluster issues a word, an event of the opcode table takes place, `n` cycles of the reference clock pass,
a stored word is upset, a sector of LPDDR-6 becomes uncorrectable for good (R423), a TLB entry or a cache line is replaced, a spill ring meets a translation fault (R148), a send, a permit, a
share of a collective, the signal of a placed part, a pod barrier message or word of a kill arrives from another package (R166, R170, R380, R404,
R413), a host port reads a word of BAR0 or BAR2 (R7, R409, R410), or the size of its BAR4 is set (R409). -/
inductive Choice where
  | issue (pos : Nat) (cl : Cluster)
  | event (e : Instr)
  | tick (n : Nat)
  | upset (addr : Nat) (correctable : Bool)
  | stuck (addr : Nat)
  | evict (place : Nat) (quad : Bool) (page : Nat)
  | dropLine (quad : Nat) (line : Nat)
  | ringFault (quad : Nat)
  | peerSend (job : BitVec 64) (link : BitVec 16) (tag : BitVec 16) (data : List (BitVec 8))
  | peerPermit (job : BitVec 64) (link : BitVec 16)
  | podShare (p : PodPart)
  | podPlaced (pod : BitVec 32) (part : Nat) (pkg : BitVec 12)
  | podArrived (pod : BitVec 32) (part : Nat) (phases : Option Nat)
  | podKilled (pod : BitVec 32) (flags : Nat)
  | bar0Read (port : BitVec 3) (off : Nat)
  | bar2Read (port : BitVec 3) (off : Nat)
  | bar4Resize (port : BitVec 3) (log : Nat)
deriving DecidableEq, Repr

/-- Whose word `exec` runs: the slot, the cluster, the word with its S and H bits, and the `dep` or `lsplit` word before it. -/
structure Turn where
  pos : Nat
  cl : Cluster
  word : BitVec 32
  pfx : Option (BitVec 32)
deriving DecidableEq, Repr

/-- Everything but the bytes of memory: `signals` holds the signals of other parts of pod jobs, by pod job, part and package, that no job here
has used (R380); `phases` what each part of a pod job has said of its arrivals at the pod barrier (R131). `agenda`, `turn`, `nextId` and `free` are the model's own. -/
structure Chip where
  agenda : List Choice
  turn : Turn
  nextId : Nat
  free : Nat
  cycle : Nat
  side : Side
  xl : Xlate
  strands : List Strand
  ops : List Op
  cores : List Core
  quads : List Quad
  units : List UnitRec
  jobs : List Job
  hbars : List Hbar
  links : List LinkEnd
  queues : List Queue
  counters : List (Nat × Nat)
  replays : List Replay
  saved : List Saved
  moves : List ColMove
  pods : List PodPart
  signals : List (BitVec 32 × Nat × BitVec 12)
  phases : List (BitVec 32 × Nat × Option Nat)
  binds : List BindRec
  plat : Platform
  out : List Output
deriving DecidableEq, Repr

/-- The state: the bytes of every store at their physical addresses (unlisted bytes read zero), and the rest. -/
structure State where
  mem : List Host.Cell
  ch : Chip
deriving DecidableEq, Repr

/-- A stream at strand start (R90). -/
def Stream.fresh : Stream := { issued := 0, completed := 0, ahead := [], exh := false, held := false }

/-- A cluster at strand start (R178). -/
def ClusterSt.fresh (image : List (BitVec 32)) : ClusterSt :=
  { image := image, pc := 0, ended := false, loops := [], lc := [0, 0, 0], group := 0, groupId := 0, released := false,
    past := 0, blocked := none, owes := none, yielded := false, point := false, streams := List.replicate 8 Stream.fresh,
    wait := 0, stall := 0 }

/-- A token at strand start (R108). -/
def Token.fresh : Token := { st := 0, cause := 0, cover := none, vec := [] }

/-- No trap (R391). -/
def TrapInfo.fresh : TrapInfo :=
  { cause := 0, kind := 0, cluster := .c, step := 0, qual := 0, code := 0, value := 0, mmx := 0, cycle := 0 }

/-- Trap state at strand start (R399); TRAPEN and DZI are 0 (log entry 17). -/
def TrapSt.fresh : TrapSt :=
  { phase := .run, info := TrapInfo.fresh, score := [], savedC := none, latch := [],
    entry := 0, busy := [], noted := 0, arrived := none, pend := false, asked := false, forced := false, saveStart := none,
    dzi := false, dziAtFault := false, trapen := 0, wdog := 0x0B7200000B72#48, age := 64 }

/-- A descriptor at strand start: os0, mask 0xFF, core (R92). -/
def odFresh : BitVec 14 := 0x07F8#14

/-- A strand at its start (R178). -/
def Strand.fresh (pos : Nat) (who : Ident) (c g m v : List (BitVec 32)) (od : List (BitVec 14)) : Strand :=
  let snap : Snap := { s := List.replicate 32 0, od := od }
  { pos := pos, who := who, c := ClusterSt.fresh c, g := ClusterSt.fresh g, m := ClusterSt.fresh m, v := ClusterSt.fresh v,
    s := List.replicate 32 0, od := od,
    gr := { g := List.replicate 8 0, gi := List.replicate 8 none, ch := List.replicate 4 none, q := List.replicate 8 none,
            snap := snap },
    mr := { m := List.replicate 8 0, mflags := 0, flagsNow := 0, snap := snap },
    vr := { x := List.replicate 8 0, v := List.replicate 32 0, o := List.replicate 8 0, vi := List.replicate 8 none,
            viPos := List.replicate 8 0, p := List.replicate 8 0, vsh := 0x0080178F#64, vmode := 0, vmodeC := none, vmodeAt := [],
            vflags := List.replicate 64 0, part := none, snap := snap },
    tk := List.replicate 16 Token.fresh, busy := [], rdv := 0, rdvs := 0, trap := TrapSt.fresh }

/-- A core after cold start (R46). -/
def Core.fresh (id : Nat) : Core :=
  { id := id, latch := [], corr := 0, freeze := 0, freezeAt := 0, faults := [], record := [], ages := [], agesNext := [], hold := [], served := [], spent := [],
    bucket := { owner := none, t := 0, left := 0 } }

/-- A quad after cold start: every clock 1, every seen entry 0 (R137). -/
def Quad.fresh (id : Nat) : Quad :=
  { id := id, clock := List.replicate 64 1, seen := [], bars := [], hbars := [], ringStall := none, out := false,
    noPlace := false, errTimes := [], visit := 15, share := 0, owed := [], rebase := none, rebased := [] }

/-- The platform at its reset values, before step 6 of R417 has started an image (R409 to R411, R417, R424, R426, R458); log entries 14 and 16
name the values the specification does not give. -/
def Platform.fresh : Platform :=
  { powered := true, fenced := true, pending := 0, ownValid := false, owner := 0, claimAt := none, leaseOpen := false, recovery := false,
    run := false, dropped := 0, apstat := 0, apasr := 0,
    apbase := 0, barSize := List.replicate 6 30, accesses := [], ports := [0, 0, 0, 0, 0, 0], portsNext := [0, 0, 0, 0, 0, 0],
    links := [true, true, true, true, true, true], linkDown := none,
    tar := List.replicate 24 0xF78#64, memStatus := List.replicate 256 0, log := [], logCount := 0, certs := [], certCount := 0,
    mailbox := [], flash := [], running := [], minVersion := 0, lmsUsed := 0, leaseCtr := 0, scrubSeq := 0, lastCert := [],
    services := [], pkgNum := none, fabGroup := [], routes := [], routesNew := [], generation := 0, retiring := false,
    reports := [], oldFlight := [], fibres := [], ctxs := [], lastQueue := [0, 0, 0, 0], nextTake := 0, lowered := [], hotSince := [] }

/-- The issue turn before any word has issued. -/
def Turn.none : Turn := { pos := 0, cl := .c, word := 0, pfx := .none }

/-- The machine at its reset values (R417): stores all zero with nothing listed, no job, queues disabled, no image started yet. -/
def State.reset : State :=
  { mem := [],
    ch := { agenda := [], turn := Turn.none, nextId := 0, free := 0, cycle := 0,
            side := { full := [], marks := [], faulty := [], stuck := [], fresh := [], served := [] },
            xl := { tlbs := [], walks := [], lines := [], counters := [], motions := [], invals := [], egress := [],
                    homeWait := [], frames := [] },
            strands := [], ops := [], cores := [], quads := [], units := [], jobs := [], hbars := [], links := [],
            queues := [], counters := [], replays := [], saved := [], moves := [], pods := [], signals := [], phases := [],
            binds := [], plat := Platform.fresh, out := [] } }

end Sys2Proof.Machine
end

