-- ==== Sys2Proof/Machine/Ops.lean ====
section
/-! DEFINITION. The named operations over memory, registers, cluster streams and operations that every meaning is built from;
issuing a word; taking a trap. -/

namespace Sys2Proof.Machine

/-! Memory: one list of cells for every store, unlisted bytes reading zero (R46, R417 step 5). -/

/-- The canonical form: addresses strictly rising, no cell that holds what an unlisted address reads as. -/
def memWf : List Host.Cell → Bool
  | [] => true
  | [c] => c.2 != 0
  | c :: d :: cs => decide (c.1 < d.1) && c.2 != 0 && memWf (d :: cs)

/-- The byte at an address. -/
def memRead : List Host.Cell → Nat → Byte
  | [], _ => 0
  | c :: cs, a => if c.1 = a then c.2 else memRead cs a

/-- The cells of a byte string that starts at `a`. -/
def cellsOf : Nat → List Byte → List Host.Cell
  | _, [] => []
  | a, b :: bs => if b = 0 then cellsOf (a + 1) bs else (a, b) :: cellsOf (a + 1) bs

/-- A byte string written at `a`. -/
def memWrite (m : List Host.Cell) (a : Nat) (bs : List Byte) : List Host.Cell :=
  m.filter (fun c => decide (c.1 < a)) ++ cellsOf a bs ++ m.filter (fun c => decide (a + bs.length ≤ c.1))

/-- Byte strings written in order. -/
def memWriteAll : List Host.Cell → List (Nat × List Byte) → List Host.Cell
  | m, [] => m
  | m, w :: ws => memWriteAll (memWrite m w.1 w.2) ws

/-- `n` bytes from `a` up. -/
def memBytes (m : List Host.Cell) (a n : Nat) : List Byte :=
  let w := m.filter (fun c => decide (a ≤ c.1 ∧ c.1 < a + n))
  (List.range n).map fun i => memRead w (a + i)

/-- The little-endian number of `n` bytes at `a` (R7). -/
def memNat (m : List Host.Cell) (a n : Nat) : Nat := leNat (memBytes m a n)

/-- Physical addresses: LPDDR-6 at its DPA (R56), then the stores of each core. A core is numbered 256 × die + 4 × logical
quad + logical core (R27). -/
def benchAt (core : Nat) : Nat := 0x20000000000 + core * 0x100000
def stratumAt (core : Nat) : Nat := 0x40000000000 + core * 0x800000
def accAt (core : Nat) : Nat := 0x80000000000 + core * 0x200000
def bucketAt (core : Nat) : Nat := 0x100000000000 + core * 0x10000

/-- The die, the quad (numbered 64 × die + logical quad) and the core of a slot. -/
def coreOf (pos : Nat) : Nat := pos / 4
def quadOf (core : Nat) : Nat := core / 4
def dieOf (core : Nat) : Nat := core / 256

/-- Context areas and spill rings stand in the top 256 MiB of the allocatable part of each die (log entry 8). -/
def curatorBase (die : Nat) : Nat := die * 2 ^ 38 + Config.mapBase die - 0x10000000
def ctxArea (pos : Nat) : Nat := curatorBase (dieOf (coreOf pos)) + pos % 1024 * 0x30000

/-! What a meaning does. -/

/-- The effect of a step: everything but memory as it stands afterwards, and the bytes written, in order. -/
structure Eff where
  chip : Chip
  writes : List (Nat × List Byte)

/-- The state after an effect. -/
def State.commit (s : State) (e : Eff) : State := { mem := memWriteAll s.mem e.writes, ch := e.chip }

/-- An effect that writes no byte. -/
def Eff.quiet (c : Chip) : Eff := { chip := c, writes := [] }

/-- An effect followed by a change of the chip alone. -/
def Eff.mapChip (e : Eff) (f : Chip → Chip) : Eff := { e with chip := f e.chip }

/-- An effect followed by another that sees its result. -/
def Eff.andThen (e : Eff) (s : State) (f : State → Eff) : Eff :=
  let e2 := f (s.commit e)
  { chip := e2.chip, writes := e.writes ++ e2.writes }

/-- A precise fault (R22, R396): cause, failing step, qualifier, pointer or granule, MMX, `trap` code, KIND, whether the
return point is the word after (R392), and the page-table entries that a failed walk has read, until what can be corrected in them is
(R58). -/
structure TrapReq where
  cause : BitVec 8
  step : BitVec 8 := 0
  qual : BitVec 8 := 0
  value : BitVec 64 := 0
  mmx : BitVec 64 := 0
  code : BitVec 16 := 0
  kind : BitVec 8 := 0
  after : Bool := false
  via : List Nat := []
deriving DecidableEq, Repr

/-- What issuing a word comes to: it issues with an effect and goes on in sequence or at a target; it faults, from the chip as it
stands or from a changed one; or it cannot issue yet. -/
inductive Res where
  | go (e : Eff) (jump : Option Nat)
  | trap (t : TrapReq)
  | trapFrom (c : Chip) (t : TrapReq)
  | stall (c : Chip)

/-! Lists as register files. -/

/-- Entry `n` of a file, or `d` beyond its end. -/
def nth {α : Type} (d : α) (l : List α) (n : Nat) : α := l.getD n d

/-- Entry `n` of a file replaced; a file reads `d` beyond the end of its list. -/
def setNth {α : Type} (d : α) : List α → Nat → α → List α
  | [], 0, v => [v]
  | [], n + 1, v => d :: setNth d [] n v
  | _ :: l, 0, v => v :: l
  | x :: l, n + 1, v => x :: setNth d l n v

/-! Strands. -/

def Chip.strand? (c : Chip) (pos : Nat) : Option Strand := c.strands.find? (fun σ => σ.pos == pos)

def Chip.modStrand (c : Chip) (pos : Nat) (f : Strand → Strand) : Chip :=
  { c with strands := c.strands.map fun σ => if σ.pos == pos then f σ else σ }

def Strand.cl (σ : Strand) : Cluster → ClusterSt
  | .c => σ.c
  | .g => σ.g
  | .m => σ.m
  | .v => σ.v

def Strand.modCl (σ : Strand) (k : Cluster) (f : ClusterSt → ClusterSt) : Strand :=
  match k with
  | .c => { σ with c := f σ.c }
  | .g => { σ with g := f σ.g }
  | .m => { σ with m := f σ.m }
  | .v => { σ with v := f σ.v }

/-- The number of a cluster (R136). -/
def clNum : Cluster → Nat
  | .c => 0
  | .g => 1
  | .m => 2
  | .v => 3

def clOf (n : Nat) : Cluster :=
  match n with
  | 0 => .c
  | 1 => .g
  | 2 => .m
  | _ => .v

/-- Scalar registers: register 0 of each file reads zero (R187, R224). -/
def Strand.getS (σ : Strand) (n : Nat) : Reg := if n = 0 then 0 else nth 0 σ.s n
def Strand.getG (σ : Strand) (n : Nat) : Reg := if n = 0 then 0 else nth 0 σ.gr.g n
def Strand.getM (σ : Strand) (n : Nat) : Reg := if n = 0 then 0 else nth 0 σ.mr.m n
def Strand.getX (σ : Strand) (n : Nat) : Reg := if n = 0 then 0 else nth 0 σ.vr.x n

/-- A register that is written waits for no earlier operation any more. -/
def Strand.settle (σ : Strand) (r : RegName) : Strand := { σ with busy := σ.busy.filter fun b => b.reg != r }

/-- A write to register 0 is discarded (R224). -/
def Strand.setS (σ : Strand) (n : Nat) (v : Reg) : Strand :=
  if n = 0 then σ else { σ with s := setNth 0 σ.s n v }.settle (.s n)
def Strand.setG (σ : Strand) (n : Nat) (v : Reg) : Strand :=
  if n = 0 then σ else { σ with gr := { σ.gr with g := setNth 0 σ.gr.g n v } }.settle (.g n)
def Strand.setM (σ : Strand) (n : Nat) (v : Reg) : Strand :=
  if n = 0 then σ else { σ with mr := { σ.mr with m := setNth 0 σ.mr.m n v } }.settle (.m n)
def Strand.setX (σ : Strand) (n : Nat) (v : Reg) : Strand :=
  if n = 0 then σ else { σ with vr := { σ.vr with x := setNth 0 σ.vr.x n v } }.settle (.x n)

/-- The local register of a cluster that a field of the common block names (R225). -/
def Strand.local (σ : Strand) (k : Cluster) (n : Nat) : Reg :=
  match k with
  | .c => σ.getS n
  | .g => σ.getG n
  | .m => σ.getM n
  | .v => σ.getX n

def Strand.setLocal (σ : Strand) (k : Cluster) (n : Nat) (v : Reg) : Strand :=
  match k with
  | .c => σ.setS n v
  | .g => σ.setG n v
  | .m => σ.setM n v
  | .v => σ.setX n v

def localName (k : Cluster) (n : Nat) : RegName :=
  match k with
  | .c => .s n
  | .g => .g n
  | .m => .m n
  | .v => .x n

/-- The snapshot a cluster reads scalars and descriptors from (R19, R93, R115); C reads the current values. -/
def Strand.snap (σ : Strand) : Cluster → Snap
  | .c => { s := σ.s, od := σ.od }
  | .g => σ.gr.snap
  | .m => σ.mr.snap
  | .v => σ.vr.snap

def Strand.snapS (σ : Strand) (k : Cluster) (n : Nat) : Reg := if n = 0 then 0 else nth 0 (σ.snap k).s n
def Strand.odOf (σ : Strand) (k : Cluster) (n : Nat) : BitVec 14 := nth odFresh (σ.snap k).od n

/-- Fields of a descriptor (R91). -/
def odStream (d : BitVec 14) : Nat := bits d.toNat 11 3
def odMask (d : BitVec 14) : Nat := bits d.toNat 3 8
def odScope (d : BitVec 14) : Nat := bits d.toNat 0 3
def odWord (os pm scope : Nat) : BitVec 14 := BitVec.ofNat 14 (os * 2048 + pm * 8 + scope)

/-- Registers awaited by none of the strand's operations (R96, R182). Register 0 is never awaited. -/
def Strand.free (σ : Strand) (rs : List RegName) : Bool := rs.all fun r => σ.busy.all fun b => b.reg != r

/-- The strand is in privileged mode (R389). -/
def Strand.privileged (σ : Strand) : Bool := σ.trap.phase == .handler

/-! Cores, quads, units, jobs: records made when first needed. -/

def Chip.core (c : Chip) (id : Nat) : Core := (c.cores.find? (fun k => k.id == id)).getD (Core.fresh id)

def Chip.modCore (c : Chip) (id : Nat) (f : Core → Core) : Chip :=
  if c.cores.any (fun k => k.id == id) then
    { c with cores := c.cores.map fun k => if k.id == id then f k else k }
  else { c with cores := f (Core.fresh id) :: c.cores }

def Chip.quad (c : Chip) (id : Nat) : Quad := (c.quads.find? (fun k => k.id == id)).getD (Quad.fresh id)

def Chip.modQuad (c : Chip) (id : Nat) (f : Quad → Quad) : Chip :=
  if c.quads.any (fun k => k.id == id) then
    { c with quads := c.quads.map fun k => if k.id == id then f k else k }
  else { c with quads := f (Quad.fresh id) :: c.quads }

def Chip.unit? (c : Chip) (job : BitVec 64) (num : BitVec 24) : Option UnitRec :=
  c.units.find? fun u => u.job == job && u.num == num

def Chip.modUnit (c : Chip) (job : BitVec 64) (num : BitVec 24) (f : UnitRec → UnitRec) : Chip :=
  { c with units := c.units.map fun u => if u.job == job && u.num == num then f u else u }

def Chip.job? (c : Chip) (id : BitVec 64) : Option Job := c.jobs.find? fun j => j.id == id

def Chip.modJob (c : Chip) (id : BitVec 64) (f : Job → Job) : Chip :=
  { c with jobs := c.jobs.map fun j => if j.id == id then f j else j }

def Chip.unitOf? (c : Chip) (σ : Strand) : Option UnitRec := c.unit? σ.who.job σ.who.unit

def Chip.op? (c : Chip) (id : Nat) : Option Op := c.ops.find? fun o => o.id == id

def Chip.modOp (c : Chip) (id : Nat) (f : Op → Op) : Chip :=
  { c with ops := c.ops.map fun o => if o.id == id then f o else o }

def Chip.dropOp (c : Chip) (id : Nat) : Chip := { c with ops := c.ops.filter fun o => o.id != id }

/-- A free value (log entry 2), and the chip with the next one ahead. -/
def Chip.freeVal (c : Chip) : BitVec 64 × Chip := (Config.freeValue c.free, { c with free := c.free + 1 })

/-! The loop engine (R190, R191, R193). -/

/-- The stage of body word `i`: the boundaries below S at or before it (R190). -/
def LoopLevel.stageOf (l : LoopLevel) (i : Nat) : Nat :=
  (if 2 ≤ l.stages ∧ l.b1 ≤ i then 1 else 0) + (if 3 ≤ l.stages ∧ l.b2 ≤ i then 1 else 0)
    + (if 4 ≤ l.stages ∧ l.b3 ≤ i then 1 else 0)

/-- Whether word `i` issues in pass p (R191). -/
def LoopLevel.enabled (l : LoopLevel) (i : Nat) : Bool :=
  decide (l.start + l.stageOf i ≤ l.p ∧ l.p < l.stop + l.stageOf i)

/-- The condition of the loop of R191. -/
def LoopLevel.goesOn (l : LoopLevel) : Bool := decide (l.start < l.stop ∧ l.p + 2 ≤ l.stop + l.stages)

/-- The first enabled word of the body from word `i` on. -/
def LoopLevel.firstFrom (l : LoopLevel) (i : Nat) : Option Nat :=
  (List.range' i (l.len - i)).find? l.enabled

/-- Where a cluster goes on: next word, loops, LOOPC values, and whether it stands at a pre-emption point. -/
structure Flow where
  pc : Nat
  loops : List LoopLevel
  lc : List (BitVec 32)
  point : Bool

/-- From position `n` of the stream, the next word the loop engine issues (R191): disabled words are passed over, and the end
of a body is a pass boundary. `pend` says that pre-emption is requested and no hold group is open (R193); where a drain ends with no point,
inside a hold group or after a forced save, the iterations from `stop` on go on at once, so that each issues once. The fuel bounds the
passes in which no word is enabled, which are fewer than S at each level. -/
def loopFlow (fuel : Nat) (pend : Bool) (n : Nat) (loops : List LoopLevel) (lc : List (BitVec 32)) (point : Bool) : Flow :=
  match fuel with
  | 0 => { pc := n, loops := loops, lc := lc, point := point }
  | fuel + 1 =>
    match loops with
    | [] => { pc := n, loops := [], lc := lc, point := point }
    | l :: outer =>
      match (if n < l.body + 4 * l.len then l.firstFrom ((n - l.body) / 4) else none) with
      | some i => { pc := l.body + 4 * i, loops := l :: outer, lc := lc, point := point }
      | none =>
        let stop := if l.brk || pend then min l.stop (l.p + 1) else l.stop
        let l2 := { l with stop := stop, broken := l.broken || l.brk, p := l.p + 1, brk := false }
        if l2.goesOn then
          loopFlow fuel pend l.body (l2 :: outer) (setNth 0 lc l.ctr (BitVec.ofNat 32 l2.p)) point
        else if !l2.broken && decide (l2.stop < l2.n) then
          if pend then
            { pc := l.body, loops := { l2 with start := l2.stop, drained := true } :: outer,
              lc := setNth 0 lc l.ctr (BitVec.ofNat 32 l2.p), point := true }
          else
            loopFlow fuel pend l.body ({ l2 with start := l2.stop, stop := l2.n, p := l2.stop } :: outer)
              (setNth 0 lc l.ctr (BitVec.ofNat 32 l2.stop)) point
        else
          loopFlow fuel pend (l.body + 4 * l.len) outer (setNth 0 lc l.ctr (BitVec.ofNat 32 (l2.stop + l2.stages - 1)))
            (point || pend)

/-- Fuel enough for three levels of four stages. -/
def loopFuel : Nat := 64

/-- The hold group the next word of a cluster belongs to (R185, R189). -/
def ClusterSt.curGroup (k : ClusterSt) : Nat := if k.group = 0 then k.groupId + 1 else k.groupId

/-- Bits S and H of a word (R222). -/
def wordSync (w : Word) : Bool := w.getLsbD 31
def wordHold (w : Word) : Bool := w.getLsbD 30

/-- The cluster stands at a sync-marked word that it issues again alone, its rendezvous having taken place before a precise fault took
it back (log entry 6). -/
def ClusterSt.issuesAlone (k : ClusterSt) : Bool := decide (0 < k.past) && !k.released && (k.image[k.pc / 4]?).any wordSync

/-- A cluster after it has issued a word of `size` bytes: the loop engine moves on or the jump is taken, the hold group goes on
or ends with H, and the stall and wait counts return to zero (R184, R185, R191, R254, R400). -/
def ClusterSt.issued (k : ClusterSt) (size : Nat) (hold pend : Bool) (jump : Option Nat) : ClusterSt :=
  let f := loopFlow loopFuel (pend && !hold) (jump.getD (k.pc + size)) k.loops k.lc false
  { k with pc := f.pc, loops := f.loops, lc := f.lc, point := f.point, groupId := k.curGroup,
           group := if hold then k.group + 1 else 0, released := false, past := if k.issuesAlone then k.past - 1 else k.past,
           owes := none, wait := 0, stall := 0 }

/-- The word that governs S and H of the turn: the prefix of a pair, or the word itself (R237, R259). -/
def Turn.lead (t : Turn) : Word := t.pfx.getD t.word

/-- The bytes the turn's word, or pair, occupies. -/
def Turn.size (t : Turn) : Nat := if t.pfx.isSome then 8 else 4

/-- An element put in order before the first one it may precede. -/
def insertBy {α : Type} (le : α → α → Bool) (x : α) : List α → List α
  | [] => [x]
  | y :: ys => if le x y then x :: y :: ys else y :: insertBy le x ys

/-- A list in order; equal elements keep theirs. -/
def sortBy {α : Type} (le : α → α → Bool) : List α → List α
  | [] => []
  | x :: xs => insertBy le x (sortBy le xs)

/-- A list of slots with `x` moved to the front. -/
def toFront (x : Nat) (l : List Nat) : List Nat := x :: l.filter (fun y => y != x)

/-- The value kept for a key, replaced. -/
def putKey {α β : Type} [BEq α] (k : α) (v : β) (l : List (α × β)) : List (α × β) := (k, v) :: l.filter fun e => !(e.1 == k)

/-- The physical cluster after it served a slot (R183, R185). -/
def Core.serve (k : Core) (cl : Cluster) (slot : Nat) (hold : Bool) : Core :=
  { k with served := putKey cl (toFront slot ((k.served.lookup cl).getD [])) k.served, spent := putKey cl slot k.spent,
           hold := if hold then putKey cl slot k.hold else k.hold.filter fun e => !(e.1 == cl && e.2 == slot) }

/-- The chip after the turn's word has issued. -/
def Chip.wordIssued (c : Chip) (t : Turn) (jump : Option Nat) : Chip :=
  let hold := wordHold t.lead
  (c.modStrand t.pos fun σ => σ.modCl t.cl fun k => k.issued t.size hold σ.trap.pend jump).modCore (coreOf t.pos)
    fun k => k.serve t.cl (t.pos % 4) hold

/-! Taking a trap (R391). -/

/-- The kill of a job begins (R404); the flags are those of the drain certificate (R405). -/
def Chip.startKill (c : Chip) (job : BitVec 64) (flags : Nat) : Chip :=
  c.modJob job fun j => if j.killStep = 0 then { j with killStep := 1, killFlags := flags } else j

/-- A fault joins the faults of a freeze: one for a slot, the first, but of a late and a precise fault of one cycle the precise one (R244, R393). -/
def joinFault (x : Noted) (l : List Noted) : List Noted :=
  match l.find? fun f => f.slot == x.slot with
  | none => l ++ [x]
  | some f => if f.kind = 1 ∧ x.kind ≠ 1 ∧ f.cycle = x.cycle then l.map fun g => if g.slot == x.slot then x else g else l

/-- The core's schedule freezes for 16 cycles from the first fault of any strand, and every fault until its end joins it (step 1 of R391). -/
def Chip.freezeCore (c : Chip) (pos : Nat) (t : TrapReq) : Chip :=
  let x : Noted := { slot := pos % 4, cause := t.cause, kind := t.kind, cycle := c.cycle }
  c.modCore (coreOf pos) fun k =>
    let k1 : Core := { k with faults := joinFault x k.faults }
    if k.freeze = 0 ∧ k.faults.isEmpty then { k1 with freeze := 16, freezeAt := c.cycle, record := [] } else k1

/-- Steps 1 and 3 of R391 for one strand, shared by every trap: the core's schedule freezes, the strand stops, and what its frame will
record is noted; of a late and a precise fault of one cycle the precise one is named (R244). A fault in privileged mode is a double fault,
which kills the job (R390). The frame is written by FAULT_FREEZE_END and the handler entered by TRAP_HANDLER_ENTRY. -/
def Chip.takeTrap (c : Chip) (pos : Nat) (cl : Cluster) (t : TrapReq) : Chip :=
  match c.strand? pos with
  | none => c
  | some σ =>
    if σ.privileged then (c.startKill σ.who.job 4).freezeCore pos t
    else
      let info : TrapInfo := { cause := t.cause, kind := t.kind, cluster := cl, step := t.step, qual := t.qual,
                               code := t.code, value := t.value, mmx := t.mmx, cycle := c.cycle }
      let c1 := c.modStrand pos fun σ =>
        if σ.trap.phase = .run ∨ σ.trap.phase = .saving then
          { σ with trap := { σ.trap with phase := .frozen, info := info, dziAtFault := σ.trap.dzi, saveStart := none } }
        else if σ.trap.phase = .frozen ∧ σ.trap.info.kind = 1 ∧ σ.trap.info.cycle = c.cycle ∧ t.kind ≠ 1 then
          { σ with trap := { σ.trap with info := info } }
        else σ
      c1.freezeCore pos t

/-- A fault freeze holds a core until its end has been taken (R391). -/
def Chip.faultFrozen (c : Chip) (core : Nat) : Bool :=
  (c.core core).freeze != 0 || !(c.core core).faults.isEmpty || c.strands.any fun σ => coreOf σ.pos == core && σ.trap.phase == .frozen

/-- A fault of a cluster of a strand. The header of the frame of a strand that faults in privileged mode records DOUBLE
(R390, R396: byte 5, bit 3). -/
def State.trapTo (s : State) (c : Chip) (pos : Nat) (cl : Cluster) (t : TrapReq) : State :=
  let double := match c.strand? pos with
    | some σ => σ.privileged
    | none => false
  let flags := ctxArea pos + 5
  s.commit { chip := c.takeTrap pos cl t, writes := if double then [(flags, [memRead s.mem flags ||| 8])] else [] }

/-! Faults of one cycle (R244). -/

/-- A core with the fault freeze of this cycle left out of account. -/
def State.thaw (s : State) (core : Nat) : State :=
  let run (σ : Strand) : Strand :=
    if coreOf σ.pos = core ∧ σ.trap.phase = .frozen then { σ with trap := { σ.trap with phase := .run } } else σ
  { s with ch := ({ s.ch with strands := s.ch.strands.map run } : Chip).modCore core fun k => { k with freeze := 0, faults := [] } }

/-- A state after a further fault of the cycle: every strand that had trapped stands as it did, with its new entries of the scoreboard, and of a
late and a precise fault of one strand the precise one is named. -/
def State.refreeze (t s : State) (core : Nat) : State :=
  let again (σ : Strand) : Strand := match s.ch.strand? σ.pos with
    | some τ =>
      if coreOf σ.pos ≠ core ∨ τ.trap.phase ≠ .frozen ∨ (τ.trap.info.kind = 1 ∧ σ.trap.phase = .frozen ∧ σ.trap.info.kind ≠ 1) then σ
      else { σ with trap := { τ.trap with score := σ.trap.score } }
    | none => σ
  let old := s.ch.core core
  { t with ch := ({ t.ch with strands := t.ch.strands.map again } : Chip).modCore core fun k =>
    { k with freeze := old.freeze, freezeAt := old.freezeAt, faults := k.faults.foldl (fun l x => joinFault x l) old.faults } }

/-- In the cycle in which a fault freezes a core nothing goes on there any more, but what faults in that cycle faults too (R244, R391). -/
def State.inCycle (s : State) (core : Nat) (f : State → Host.Outcome State Fault Refusal) : Host.Outcome State Fault Refusal :=
  if (s.ch.core core).freeze = 16 ∧ (s.ch.core core).freezeAt = s.ch.cycle then
    match f (s.thaw core) with
    | .next t => .next (if (t.ch.core core).faults.isEmpty then s else t.refreeze s core)
    | r => r
  else f s

/-! Issuing a word. -/

/-- The return point of a trap: the word itself, or the word after it (R392). -/
def trapPoint (c : Chip) (t : Turn) (r : TrapReq) : Chip := if r.after then c.wordIssued t none else c

/-- The end of issuing: the effect with the cluster moved on, the trap taken, or nothing but the mark of a stall. -/
def finish (s : State) (r : Res) : Host.Outcome State Fault Refusal :=
  match r with
  | .go e jump => .next (s.commit (e.mapChip fun c => c.wordIssued s.ch.turn jump))
  | .trap t => .next (s.trapTo (trapPoint s.ch s.ch.turn t) s.ch.turn.pos s.ch.turn.cl t)
  | .trapFrom c t => .next (s.trapTo (trapPoint c s.ch.turn t) s.ch.turn.pos s.ch.turn.cl t)
  | .stall c => .next { s with ch := c }

/-- Issue of the turn's word: it waits while a source register awaits a value (R96), and otherwise does what `body` says of
its strand. -/
def issue (s : State) (srcs : List RegName) (body : Strand → Res) : Host.Outcome State Fault Refusal :=
  match s.ch.strand? s.ch.turn.pos with
  | none => .fault .noStrand
  | some σ => if σ.free srcs then finish s (body σ) else .next s

/-- A change of the issuing strand alone. -/
def onStrand (s : State) (f : Strand → Strand) : Res := .go (Eff.quiet (s.ch.modStrand s.ch.turn.pos f)) none

/-- A precise fault of a cause with no pointer. -/
def faulty (cause : BitVec 8) : Res := .trap { cause := cause }

end Sys2Proof.Machine
end

