-- ==== Sys2Proof/Machine/Race.lean ====
section
/-! DEFINITION. Race detection: agents, clocks, releases and acquires, and the check of a race granule (R136 to R142). -/

namespace Sys2Proof.Machine

/-- The agent number of a cluster-strand within its quad (R136). -/
def agentOf (pos : Nat) (cl : Cluster) : Nat := pos % 16 * 4 + clNum cl

/-- Entry `i` of a vector of clocks. -/
def vget (v : Vec) (i : Nat) : Nat := nth 0 v i

/-- The element-wise maximum (R138). -/
def vjoin : Vec → Vec → Vec
  | [], w => w
  | v, [] => v
  | x :: v, y :: w => max x y :: vjoin v w

/-- A vector with entry `i` replaced. -/
def vput (v : Vec) (i x : Nat) : Vec := (List.range 64).map fun j => if j = i then x else vget v j

def Quad.seenOf (q : Quad) (a : Nat) : Vec := nth [] q.seen a

def Quad.setSeen (q : Quad) (a : Nat) (v : Vec) : Quad :=
  { q with seen := (List.range 64).map fun j => if j = a then v else q.seenOf j }

/-- now(a): seen[a] with entry a replaced by clock[a] (R137). -/
def Quad.now (q : Quad) (a : Nat) : Vec := vput (q.seenOf a) a (vget q.clock a)

/-- The quad of a slot. -/
def quadOfPos (pos : Nat) : Nat := quadOf (coreOf pos)

/-- now of the agent of a cluster-strand. -/
def Chip.now (c : Chip) (pos : Nat) (cl : Cluster) : Vec := (c.quad (quadOfPos pos)).now (agentOf pos cl)

/-- A release of agent a would raise its clock to 0xFFFF (R144). -/
def Chip.exhausted (c : Chip) (pos : Nat) (cl : Cluster) : Bool :=
  decide (vget (c.quad (quadOfPos pos)).clock (agentOf pos cl) + 1 ≥ 0xFFFF)

/-- The end of a release: the releasing agent's clock advances by one (R138). -/
def Chip.advanceClock (c : Chip) (pos : Nat) (cl : Cluster) : Chip :=
  let a := agentOf pos cl
  c.modQuad (quadOfPos pos) fun q => { q with clock := vput q.clock a (vget q.clock a + 1) }

/-- An acquire: seen[a] := join(seen[a], v) (R138). -/
def Chip.acquire (c : Chip) (pos : Nat) (cl : Cluster) (v : Vec) : Chip :=
  let a := agentOf pos cl
  c.modQuad (quadOfPos pos) fun q => q.setSeen a (vjoin (q.seenOf a) v)

/-- The rendezvous edge: every agent of the strand takes the largest of the four agents' seen entries (R138). -/
def Chip.rendezvousEdge (c : Chip) (pos : Nat) (cls : List Cluster) : Chip :=
  c.modQuad (quadOfPos pos) fun q =>
    let all := [Cluster.c, .g, .m, .v].foldl (fun v k => vjoin v (q.seenOf (agentOf pos k))) []
    cls.foldl (fun q k => q.setSeen (agentOf pos k) all) q

/-- Step 3 of R144 for a quad's own vectors; those of its `hbar` phases go too (log entry 78). The strands whose `rbase` has joined are
served. -/
def Quad.rebaseNow (q : Quad) : Quad :=
  { q with clock := List.replicate 64 1, seen := [], bars := q.bars.map fun b => { b with phase := [], acc := [] },
           hbars := q.hbars.map (fun h => (h.1, h.2.1, h.2.2.1, [])), rebase := none, rebased := q.rebase.getD [] ++ q.rebased }

/-- A rebase of a quad begins, or a slot's `rbase` joins the one in progress (R144 step 1, R268). -/
def Chip.askRebase (c : Chip) (quad : Nat) (slots : List Nat) : Chip :=
  c.modQuad quad fun q => { q with rebase := some (slots ++ (q.rebase.getD []).filter fun p => !slots.contains p) }

/-- The 64-byte granules of a quad's tracked memory. -/
def granuleInQuad (quad g : Nat) : Bool :=
  (List.range 4).any fun i =>
    let core := quad * 4 + i
    decide (benchAt core ≤ 64 * g ∧ 64 * g < benchAt core + 0x100000) ||
    decide (stratumAt core ≤ 64 * g ∧ 64 * g < stratumAt core + 0x800000)

/-- R144 step 3: marks none, clocks 1, seen 0, and every token, barrier and command vector of the quad 0, those of
operations issued and not yet performed among them (log entry 78). -/
def Chip.rebase (c : Chip) (quad : Nat) : Chip :=
  let c1 := c.modQuad quad Quad.rebaseNow
  { c1 with
    side := { c1.side with marks := c1.side.marks.filter fun m => !granuleInQuad quad m.granule },
    strands := c1.strands.map fun σ =>
      if quadOfPos σ.pos == quad then { σ with tk := σ.tk.map fun t => { t with vec := [] } } else σ,
    ops := c1.ops.map fun o => if quadOfPos o.pos == quad then { o with vec := [] } else o }

/-- The advance of R142 would raise a clock of the quad to 0xFFFF: the quad is rebased first. -/
def Chip.mustRebase (c : Chip) (pos : Nat) : Bool := (c.quad (quadOfPos pos)).clock.any fun k => decide (k + 1 ≥ 0xFFFF)

/-- The seen and clock entries of a strand that starts or is restored in a slot (R142), after the rebase if one is due. -/
def Chip.enterSlot (c : Chip) (pos : Nat) : Chip :=
  let c1 := if c.mustRebase pos then c.rebase (quadOfPos pos) else c
  c1.modQuad (quadOfPos pos) fun q =>
    let q1 := [Cluster.c, .g, .m, .v].foldl (fun q k => q.setSeen (agentOf pos k) q.clock) q
    { q1 with clock := (List.range 64).map (fun i => vget q1.clock i + 1), rebased := q1.rebased.filter fun p => p != pos }

/-- Tracked memory is the bench and the general stratum (R136). -/
def tracked (a : Nat) : Bool := decide (benchAt 0 ≤ a ∧ a < accAt 0)

/-- The core whose store holds a tracked address. -/
def trackedCore (a : Nat) : Nat :=
  if a < stratumAt 0 then (a - benchAt 0) / 0x100000 else (a - stratumAt 0) / 0x800000

def Side.mark? (d : Side) (g : Nat) : Option Mark := d.marks.find? fun m => m.granule == g

/-- The granules a run of bytes touches. -/
def granules (a n : Nat) : List Nat := if n = 0 then [] else List.range' (a / 64) ((a + n - 1) / 64 - a / 64 + 1)

/-- check of R139: the mark that conflicts with agent `a` whose vector is `v`. -/
def Side.conflict? (d : Side) (a : Nat) (v : Vec) (g : Nat) : Option Mark :=
  (d.mark? g).filter fun m => m.clock != 0 && m.writer.toNat != a && decide (vget v m.writer.toNat < m.clock.toNat)

/-- The first granule of a run that conflicts. -/
def Side.firstRace (d : Side) (a : Nat) (v : Vec) : List Nat → Option Mark
  | [] => none
  | g :: gs => match d.conflict? a v g with
    | some m => some m
    | none => d.firstRace a v gs

/-- Marks kept sorted by granule, one for each. -/
def insertMark (m : Mark) : List Mark → List Mark
  | [] => [m]
  | x :: xs => if m.granule < x.granule then m :: x :: xs
    else if m.granule = x.granule then m :: xs else x :: insertMark m xs

/-- The marks of a plain write (R139). -/
def Side.setMarks (d : Side) (a : Nat) (k : Nat) (gs : List Nat) : Side :=
  let mk (g : Nat) : Mark := { granule := g, writer := BitVec.ofNat 6 a, clock := BitVec.ofNat 16 k }
  { d with marks := gs.foldl (fun l g => insertMark (mk g) l) d.marks }

/-- An external write sets marks to none (R141). -/
def Side.clearMarks (d : Side) (gs : List Nat) : Side := { d with marks := d.marks.filter fun m => !gs.contains m.granule }

/-- Full/empty bits: the sorted list of full granules (R38); a bit that changes is fresh for the rest of the cycle (R40). -/
def insertNat (n : Nat) : List Nat → List Nat
  | [] => [n]
  | x :: xs => if n < x then n :: x :: xs else if n = x then x :: xs else x :: insertNat n xs

def Side.isFull (d : Side) (g : Nat) : Bool := d.full.contains g
def Side.setFull (d : Side) (g : Nat) (b : Bool) : Side :=
  { d with full := if b then insertNat g d.full else d.full.filter (fun x => x != g),
           fresh := if d.isFull g == b then d.fresh else g :: d.fresh }

end Sys2Proof.Machine
end

