-- ==== Sys2Proof/Machine/Protect.lean ====
section
/-! DEFINITION. Protected words and their errors (R47 to R51, R58): which words are faulty, the curator's error log, the service
thresholds that apply to it (R424, R425), and the correction freeze. -/

namespace Sys2Proof.Machine

/-- Race-mark words have an address of their own beyond the stores. -/
def markWord (g : Nat) : Nat := 0x200000000000 + g

/-- The size of the protected word at an address: 16 bytes in a bench, 4 in a bucket file, 32 elsewhere (R47, R58). -/
def wordSize (a : Nat) : Nat :=
  if markWord 0 ≤ a then 1 else if bucketAt 0 ≤ a then 4 else if benchAt 0 ≤ a ∧ a < stratumAt 0 then 16 else 32

/-- The protected word that holds an address. -/
def protectedWord (a : Nat) : Nat := a / wordSize a * wordSize a

/-- The store of a protected word (R47, R58). -/
def storeOf (a : Nat) : Store :=
  if a < benchAt 0 then .memory else if a < stratumAt 0 then .bench else if a < accAt 0 then .stratum
  else if a < bucketAt 0 then .accumulator else if a < markWord 0 then .bucket else .marks

/-- An address lies in a faulty word, or run and word overlap. -/
def faultIn (f : Nat × Bool) (a n : Nat) : Bool := decide (f.1 < a + n ∧ a < f.1 + wordSize f.1)

/-- The first word with an uncorrectable error in a run. -/
def Side.uncorrectable (d : Side) (a n : Nat) : Option Nat := (d.faulty.find? fun f => !f.2 && faultIn f a n).map (·.1)

/-- An uncorrectable error in the mark word of a granule (R51). -/
def Side.markBad (d : Side) (gs : List Nat) : Option Nat := gs.find? fun g => d.faulty.contains (markWord g, false)

/-- The words with a correctable error in runs, or among the marks of granules. -/
def Side.correctable (d : Side) (rs : List (Nat × Nat)) (gs : List Nat) : List Nat :=
  (d.faulty.filter fun f => f.2 && (rs.any (fun r => faultIn f r.1 r.2) || gs.any fun g => f.1 == markWord g)).map (·.1)

/-- An upset of the bits of a protected word (R47). One bit of a word is correctable and two are not; an upset of a faulty word is taken
for another bit of it. A bucket has parity only: one upset is detected and not corrected, and a second hides the first. -/
def Side.upset (d : Side) (a : Nat) (correctable : Bool) : Side :=
  let w := protectedWord a
  let rest := d.faulty.filter fun f => f.1 != w
  let known := d.faulty.any fun f => f.1 == w
  { d with faulty := if storeOf w = .bucket then (if known then rest else (w, false) :: rest) else (w, correctable && !known) :: rest }

/-- The sectors that stay uncorrectable are faulty again: what a write has put there does not read back (R423). -/
def Side.restuck (d : Side) : Side :=
  { d with faulty := ((d.stuck.filter fun w => !d.faulty.contains (w, false)).map fun w => (w, false)) ++ d.faulty }

/-- A sector of LPDDR-6 becomes uncorrectable for good (R423). -/
def Side.stick (d : Side) (a : Nat) : Side :=
  let w := protectedWord a
  if storeOf w != .memory || d.stuck.contains w then d
  else { d with stuck := w :: d.stuck, faulty := (w, false) :: d.faulty.filter fun f => f.1 != w }

/-- A write of whole protected words clears their errors (R51); of a sector that stays uncorrectable, until the step ends. -/
def Side.rewritten (d : Side) (a n : Nat) : Side :=
  { d with faulty := d.faulty.filter fun f => !decide (a ≤ f.1 ∧ f.1 + wordSize f.1 ≤ a + n) }

/-- Runs written together clear the errors of the words they write whole (R51). -/
def Side.covered (d : Side) (segs : List Seg) : Side :=
  { d with faulty := d.faulty.filter fun f => !((List.range' f.1 (wordSize f.1)).all fun a =>
      segs.any fun g => g.peer.isNone && decide (g.phys ≤ a ∧ a < g.phys + g.len)) }

/-- A word of a run that a write would only change in part and that is uncorrectable (R51). -/
def Side.partialBad (d : Side) (a n : Nat) : Option Nat := (d.rewritten a n).uncorrectable a n

/-- The core that owns an on-chip address, or the race-mark word of its storage. -/
def ownerCore (a : Nat) : Option Nat :=
  if a < benchAt 0 then none
  else if a < stratumAt 0 then some ((a - benchAt 0) / 0x100000)
  else if a < accAt 0 then some ((a - stratumAt 0) / 0x800000)
  else if a < bucketAt 0 then some ((a - accAt 0) / 0x200000)
  else if a < markWord 0 then some ((a - bucketAt 0) / 0x10000)
  else some (trackedCore (64 * (a - markWord 0)))

/-- A correction freeze holds a core: in the 24 cycles after that of the detection, and until its end is taken (R48). -/
def Chip.corrHolds (c : Chip) (core : Nat) : Bool := (c.core core).corr != 0 && (c.core core).corr != 26

/-- The core that owns the storage of a local run. -/
def Seg.owner (g : Seg) : Option Nat := if g.peer.isNone then ownerCore g.phys else none

/-- A run of another agent's storage stands still: its core is in a correction freeze (R48). -/
def Chip.segFrozen (c : Chip) (g : Seg) : Bool := g.owner.any c.corrHolds

/-- An error of the storage of a run has been corrected in this cycle: the freeze is to come (R48). -/
def Chip.freezeDue (c : Chip) (g : Seg) : Bool := g.owner.any fun k => (c.core k).corr == 26

/-! The arbiter of a bench bank (R33, R34). -/

/-- The bank of a bench granule: 64 for each core. -/
def bankOf (gr : Nat) : Nat := (gr - benchAt 0 / 16) / 65536 * 64 + gr % 64

/-- The port of a core's bench that an access of a cluster of a slot, or of the quad's streamer, goes through, numbered in the order of
R34. -/
def portOf (streamer : Bool) (pos : Nat) (cl : Cluster) (core : Nat) : Nat :=
  if streamer then 4
  else if coreOf pos ≠ core then 5
  else match cl with
    | .c => 0
    | .v => 1
    | .m => 2
    | .g => 3

/-- A bank serves port `p` before port `q`: it has served it less recently; of ports it has not served, the first listed (R34). -/
def Side.servesFirst (d : Side) (bank p q : Nat) : Bool :=
  let l := (d.served.lookup bank).getD []
  let i := l.idxOf p
  let j := l.idxOf q
  decide (j < i ∨ (i = j ∧ p < q))

/-- The banks of granules have served a port. -/
def Side.serve (d : Side) (port : Nat) (grs : List Nat) : Side :=
  { d with served := grs.foldl (fun l g => putKey (bankOf g) (toFront port ((l.lookup (bankOf g)).getD [])) l) d.served }

/-! Service thresholds (R424, R425). -/

/-- A service request opens: DEVSTAT shows it, vector 0 is raised, and the management controller interrupts (R425). `row` numbers the rows of R425, and
`which` names the quad, the channel's memory status word, or the port (64 and more: the fibre) that it is about. -/
def Chip.openService (c : Chip) (row which : Nat) : Chip :=
  if c.plat.services.contains (row, which) then c
  else { c with plat := { c.plat with services := (row, which) :: c.plat.services },
                out := c.out ++ [.irq none 0, .inband] }

/-- REFR = 2 of a channel for more than 10 s opens a service request (R425). -/
def Chip.checkHot (c : Chip) : Chip :=
  (c.plat.hotSince.filter fun x => decide (x.2 + 30000000000 < c.cycle)).foldl (fun c x => c.openService 4 x.1) c

/-- The memory status word of the channel of a DPA (R57, R424). -/
def channelOf (a : Nat) : Nat :=
  let die := a / 2 ^ 38
  let x := a % 2 ^ 38
  32 * die + (if die < 4 then bits x 11 3 ^^^ bits x 21 3 else bits x 11 5 ^^^ bits x 21 5)

/-- A 16-bit field of a memory status word counts one, saturating. -/
def countField (w : BitVec 64) (lo : Nat) : BitVec 64 :=
  let v := bits w.toNat lo 16
  if v = 65535 then w else BitVec.ofNat 64 (w.toNat + 2 ^ lo)

/-- A corrected error of LPDDR-6, or an uncorrectable sector read: CECNT (bit 16) or UECNT (bit 32), and a service request above 16
uncorrectable sectors (R424, R425). -/
def Chip.countMemory (c : Chip) (a lo : Nat) : Chip :=
  let i := channelOf a
  let w := countField (nth 0 c.plat.memStatus i) lo
  let c1 : Chip := { c with plat := { c.plat with memStatus := c.plat.memStatus.set i w } }
  if lo = 32 ∧ 16 < bits w.toNat 32 16 then c1.openService 4 i else c1

/-- Cycles of an hour at 3.0 GHz (R6). -/
def hourCycles : Nat := 3600 * 3000000000

/-- A correctable on-chip error counts for its quad; more than 1,000 in any one hour, and the quad takes no new unit (R425). -/
def Chip.countCorrected (c : Chip) (core : Nat) : Chip :=
  let quad := quadOf core
  let c1 := c.modQuad quad fun q =>
    { q with errTimes := (c.cycle :: q.errTimes.filter fun t => decide (c.cycle < t + hourCycles)).take 1001 }
  if 1000 < (c1.quad quad).errTimes.length then (c1.modQuad quad fun q => { q with noPlace := true }).openService 1 quad else c1

/-! The log and the correction. -/

/-- Entries of the curator error log's ring: 16 KiB (R409) of 16 bytes each (log entry 83). -/
def logRing : Nat := 1024

/-- A word is entered in the curator's error log (R49): its store, its address (for race marks, that of their granule) and the
syndrome, which is open (log entry 76). The ring keeps the last entries. -/
def Chip.logWord (c : Chip) (w : Nat) : Chip :=
  let (v, c1) := c.freeVal
  let at_ := if storeOf w = .marks then 64 * (w - markWord 0) else w
  let log := c1.plat.log ++ [{ store := storeOf w, addr := at_, syndrome := v }]
  { c1 with plat := { c1.plat with log := log.drop (log.length - logRing), logCount := c1.plat.logCount + 1 } }

/-- A word is corrected and logged, with no freeze (R50, R58). -/
def Chip.mendWord (c : Chip) (w : Nat) : Chip :=
  let c1 := ({ c with side := { c.side with faulty := c.side.faulty.filter fun f => f.1 != w } } : Chip).logWord w
  match ownerCore w with
  | some k => c1.countCorrected k
  | none => c1.countMemory w 16

/-- A read found a correctable error: on chip the owning core freezes for 24 cycles from the next one on, unless it is frozen already (R48, R49). -/
def Chip.correctWord (c : Chip) (w : Nat) : Chip :=
  match ownerCore w with
  | some k => (c.mendWord w).modCore k fun core => if core.corr = 0 then { core with corr := 26 } else core
  | none => c.mendWord w

/-- A read of runs, and of the marks of granules, corrects what can be corrected (R48, R58). -/
def Chip.correct (c : Chip) (rs : List (Nat × Nat)) (gs : List Nat) : Chip := (c.side.correctable rs gs).foldl Chip.correctWord c

/-- An uncorrectable sector of LPDDR-6 in a run that was read counts for its channel (R424). -/
def Chip.countBad (c : Chip) (segs : List (Nat × Nat)) : Chip :=
  match segs.findSome? fun g => if g.1 < benchAt 0 then c.side.uncorrectable g.1 g.2 else none with
  | some a => c.countMemory a 32
  | none => c

end Sys2Proof.Machine
end

