-- ==== Sys2Proof/Machine/Space.lean ====
section
/-! DEFINITION. Pointers and their checks (R10 to R22), windows (R23 to R28), page tables and the TLBs (R60 to R66, R71 to R74,
R389), and the footprint of an access. -/

namespace Sys2Proof.Machine

/-- What an access does to a page (R63). -/
inductive Access where
  | load | store | atomic
deriving DecidableEq, Repr

/-- The spaces an instruction accepts (R20). -/
structure Allow where
  global : Bool := false
  bench : Bool := false
  stratumOwn : Bool := false
  stratumAny : Bool := false
  acc : Bool := false
  slot : Bool := false

/-- The outcome of a check: a result, a fault, a walk that read HOLD (R81), or storage that a column migration holds (R53). -/
inductive Chk (α : Type) where
  | ok (a : α)
  | bad (t : TrapReq)
  | hold (va : Nat)
  | held

def Chk.bind {α β : Type} (x : Chk α) (f : α → Chk β) : Chk β :=
  match x with
  | .ok a => f a
  | .bad t => .bad t
  | .hold va => .hold va
  | .held => .held

/-- Fields of pointers (R10 to R16). -/
def ptrTag (p : Reg) : Nat := bits p.toNat 60 4
def fieldBits (tag : Nat) : Nat :=
  match tag with
  | 0 => 56
  | 1 => 20
  | 2 => 23
  | 3 => 21
  | _ => 24
def ptrOff (p : Reg) : Nat := bits p.toNat 0 (fieldBits (ptrTag p))
def ptrMember (p : Reg) : Nat := bits p.toNat 20 2
def ptrSel (p : Reg) : Nat := bits p.toNat 24 10
def ptrLink (p : Reg) : Nat := bits p.toNat 32 16
def ptrSlot (p : Reg) : Nat := bits p.toNat 24 8

/-- The reserved bits of a layout are zero (R12 to R16). -/
def ptrReservedOk (p : Reg) : Bool :=
  let n := p.toNat
  match ptrTag p with
  | 0 => bits n 56 4 == 0
  | 1 => bits n 22 38 == 0
  | 2 => bits n 34 26 == 0 && bits n 23 1 == 0
  | 3 => bits n 21 39 == 0
  | _ => bits n 48 12 == 0

/-- The valid logical columns of a die (R14). -/
def columnsOf (die : Nat) : Nat := if die < 4 then 256 else 128

/-- A fault of step `step` of R21 at pointer `p`. -/
def ptrFault (cause : BitVec 8) (step : Nat) (p : Reg) : TrapReq :=
  { cause := cause, step := BitVec.ofNat 8 step, value := p }

/-- The end of a link a die is (R17): the face die of a pair is the near end; a peer link's local end is the near end. -/
def endOfDie (link : Nat) (die : Nat) : Bool := decide (link < 4 ∧ 4 ≤ die)

/-- The end of a link bound to a job at a die. -/
def Chip.linkEnd? (c : Chip) (job : BitVec 64) (link die : Nat) : Option LinkEnd :=
  c.links.find? fun l => l.job == job && l.link.toNat == link && l.far == endOfDie link die && (decide (0x10 ≤ link) || l.quad / 64 == die)

def Chip.modLink (c : Chip) (job : BitVec 64) (link : BitVec 16) (far : Bool) (f : LinkEnd → LinkEnd) : Chip :=
  { c with links := c.links.map fun l => if l.job == job && l.link == link && l.far == far then f l else l }

/-- The physical address of byte 0 of a receive slot: the top of the general stratum of core `k` of the window quad (R164). -/
def slotAt (l : LinkEnd) (k : Nat) : Nat :=
  stratumAt (4 * l.quad + k) + Config.stratumSize (l.quad / 64) - l.slotSize

/-- The member of a quad group (R30) whose bench window stands: an ended member's has been released with it, and the pointer reaches nothing
(log entry 86). -/
def Chip.member? (c : Chip) (u : UnitRec) (m : Nat) : Option UnitRec :=
  c.units.find? fun w => w.job == u.job && w.num.toNat / u.gsize == u.num.toNat / u.gsize && w.member == m && w.placed && !w.ended

/-- The stratum window of a job at a logical column of a die (R24, R28). -/
def Chip.colWin? (c : Chip) (job : BitVec 64) (die col : Nat) : Option ColWin :=
  (c.job? job).bind fun j => j.cols.find? fun w => w.die == die && w.col == col

/-- The window a pointer names: physical base and size (step 5 of R21), and the space-specific part of step 3. `none` means
step 3 fails: so does a source slot that is not delivered or is granted already; the window of an ended member is empty, and step 5 fails (log entry 86). -/
def Chip.window? (c : Chip) (σ : Strand) (u : UnitRec) (p : Reg) : Option (Nat × Nat) :=
  let die := dieOf u.core
  match ptrTag p with
  | 0 => some (0, 2 ^ 56)
  | 1 => if ptrMember p < u.gsize then
      some ((c.member? u (ptrMember p)).elim (0, 0) fun w => (benchAt w.core + w.benchBase, w.benchSize)) else none
  | 2 =>
    let col := if ptrSel p = 0x3FF then u.col else ptrSel p
    if ptrSel p = 0x3FF ∨ ptrSel p < columnsOf die then
      match c.colWin? σ.who.job die col, c.job? σ.who.job with
      | some w, some j => some (stratumAt w.core + w.base, j.stratw)
      | _, _ => some (0, 0)
    else none
  | 3 => some (accAt u.core + u.accBase, u.accSize)
  | _ => match c.linkEnd? σ.who.job (ptrLink p) die with
    | some l => if ptrSlot p < l.slots ∧ l.full.contains (ptrSlot p) then some (slotAt l (ptrSlot p), l.slotSize) else none
    | none => none

/-- The quad a column migration holds: the source, and from the move to the resumption the target (R53). -/
def ColMove.held (m : ColMove) : Nat := m.die * 64 + (if m.phase = 4 then m.dst else m.src)

/-- Storage that a column migration moves, from its phase 1 to its end (R52, R53): the bench, stratum and accumulator store of
the cores it holds. -/
def Chip.movesAt (c : Chip) (a : Nat) : Bool :=
  match ownerCore a with
  | some k => c.moves.any fun m => quadOf k == m.held
  | none => false

/-- Runs of which one lies in moving storage. -/
def Chip.moving (c : Chip) (segs : List Seg) : Bool := segs.any fun g => g.peer.isNone && c.movesAt g.phys

/-- Runs of which one lies in storage that is being copied to its target (phase 4 of R53). -/
def Chip.copying (c : Chip) (segs : List Seg) : Bool :=
  segs.any fun g => g.peer.isNone && (ownerCore g.phys).any fun k => c.moves.any fun m => m.phase == 4 && quadOf k == m.held

/-- Steps 1 to 6 of R21 for the bytes from `p + lo` to `p + hi` (R18), aligned to `align`: the window base, and the offsets of
the first and last byte. Of a pointer that names moving storage nothing further is checked (R53). -/
def Chip.checkPtr (c : Chip) (σ : Strand) (allow : Allow) (p : Reg) (lo hi : Int) (align : Nat) : Chk (Nat × Nat × Nat) :=
  match c.unitOf? σ with
  | none => .bad (ptrFault 0x12 1 p)
  | some u =>
    let tag := ptrTag p
    let accepts := match tag with
      | 0 => allow.global
      | 1 => allow.bench
      | 2 => allow.stratumAny || (allow.stratumOwn && ptrSel p == 0x3FF)
      | 3 => allow.acc
      | _ => allow.slot
    if 4 < tag then .bad (ptrFault 0x12 1 p)
    else if !accepts then .bad (ptrFault 0x12 2 p)
    else match (if ptrReservedOk p then c.window? σ u p else none) with
      | none => .bad (ptrFault 0x12 3 p)
      | some (base, size) =>
        let first := (ptrOff p : Int) + lo
        let last := (ptrOff p : Int) + hi
        if tag ≠ 0 ∧ size ≠ 0 ∧ c.movesAt base then .held
        else if first < 0 ∨ last < 0 ∨ (2 : Int) ^ fieldBits tag ≤ first ∨ (2 : Int) ^ fieldBits tag ≤ last then .bad (ptrFault 0x14 4 p)
        else if (size : Int) ≤ last ∨ (size : Int) ≤ first then .bad (ptrFault 0x14 5 p)
        else if first.toNat % align ≠ 0 then .bad (ptrFault 0x13 6 p)
        else .ok (base, first.toNat, last.toNat)

/-! Page tables. -/

/-- The spill ring of a quad (R148), above the context areas. -/
def spillRing (quad : Nat) : Nat := curatorBase (quad / 64) + 0xC000000 + quad % 64 * 0x40000

/-- A DPA that is populated and outside the compression maps (R56, R63). -/
def dpaOk (a : Nat) : Bool := decide (a < 2 ^ 41 ∧ a % 2 ^ 38 < Config.mapBase (a / 2 ^ 38))

/-- A leaf and the page it maps, with the sectors of page tables that a walk read for it. -/
structure Page where
  page : Nat
  size : Nat
  leaf : BitVec 64
  via : List Nat := []
deriving DecidableEq, Repr

/-- The outcome of a walk that went through the entry at an address first. -/
def Chk.through (a : Nat) (x : Chk Page) : Chk Page :=
  match x with
  | .ok p => .ok { p with via := a :: p.via }
  | .bad t => .bad { t with via := a :: t.via }
  | y => y

/-- Fields of a leaf (R61). -/
def leafPeer (l : BitVec 64) : BitVec 12 := BitVec.ofNat 12 (bits l.toNat 52 12)
def leafMode (l : BitVec 64) : Nat := bits l.toNat 50 2
def leafCmp (l : BitVec 64) : Bool := l.getLsbD 49
def leafFrame (l : BitVec 64) : Nat := bits l.toNat 16 25 * 65536
def leafHold (l : BitVec 64) : Bool := l.getLsbD 5

/-- A translation fault of a walk: qualifier and level (R63, R396). -/
def walkFault (cause : BitVec 8) (qual level : Nat) (va : Nat) : TrapReq :=
  { cause := cause, step := 7, qual := BitVec.ofNat 8 (qual + 16 * level), value := BitVec.ofNat 64 va }

/-- A failed translation is reported with the pointer used (R22, R396). -/
def Chk.at {α : Type} (x : Chk α) (p : Reg) : Chk α :=
  match x with
  | .bad t => .bad { t with value := p }
  | y => y

/-- A leaf at level 2 or 3 is well formed (R61, R63). -/
def leafWf (level : Nat) (l : BitVec 64) : Bool :=
  let n := l.toNat
  let frame := leafFrame l
  bits n 41 8 == 0 && bits n 6 10 == 0 && (level == 3 || bits n 16 5 == 0) &&
  (if leafPeer l = 0xFFF then dpaOk frame && dpaOk (frame + (if level = 2 then 0x1FFFFF else 0xFFFF))
   else leafMode l != 0 && frame == 0) &&
  !(leafMode l == 2 && leafPeer l != 0xFFF && l.getLsbD 3)

/-- The index bits of a level and the alignment of the table below an entry of it (R60). -/
def levelIndex (level va : Nat) : Nat :=
  match level with
  | 0 => bits va 47 9
  | 1 => bits va 34 13
  | 2 => bits va 21 13
  | _ => bits va 16 5
def tableAlign (level : Nat) : Nat :=
  match level with
  | 0 => 4096
  | 1 => 65536
  | 2 => 65536
  | _ => 256

/-- The entry of a level for a virtual address: where it stands in the table at `table`. -/
def entryAt (level va table : Nat) : Nat := table + 8 * levelIndex level va

/-- A walk from the table at `table` of level `3 - n` (R60 to R63). A misaligned table is reported at its own level, an entry in an
uncorrectable sector as data that the access consumes (R58; log entry 77). -/
def walkFrom (d : Side) (mem : List Host.Cell) (va : Nat) : Nat → Nat → Chk Page
  | n, table =>
    let level := 3 - n
    let a := entryAt level va table
    let entry := BitVec.ofNat 64 (memNat mem a 8)
    let bad (q : Nat) : Chk Page := Chk.through a (.bad (walkFault 0x10 q level va))
    if table % tableAlign level ≠ 0 then .bad (walkFault 0x10 1 level va)
    else if (d.uncorrectable a 8).isSome then Chk.through a (.bad (walkFault 0x38 0 level va))
    else if !entry.getLsbD 0 then bad 0
    else if entry.getLsbD 1 then
      if level < 2 || !leafWf level entry then bad 1
      else if leafHold entry then .hold va
      else
        let size := if level = 2 then 0x200000 else 0x10000
        .ok { page := va / size * size, size := size, leaf := entry, via := [a] }
    else
      let next := bits entry.toNat 8 33 * 256
      match n with
      | 0 => bad 1
      | n + 1 =>
        if bits entry.toNat 41 23 ≠ 0 ∨ bits entry.toNat 2 6 ≠ 0 ∨ !dpaOk next then bad 1
        else (walkFrom d mem va n next).through a

/-- The entries that a walk from the table at `table` of level `3 - n` reads. -/
def walkPath (mem : List Host.Cell) (va : Nat) : Nat → Nat → List Nat
  | n, table =>
    let a := entryAt (3 - n) va table
    let entry := BitVec.ofNat 64 (memNat mem a 8)
    if table % tableAlign (3 - n) ≠ 0 then []
    else match n with
      | 0 => [a]
      | n + 1 =>
        let next := bits entry.toNat 8 33 * 256
        if entry.getLsbD 0 && !entry.getLsbD 1 && dpaOk next then a :: walkPath mem va n next else [a]

/-- Page-table entries have been read: what can be corrected in their sectors is, and an uncorrectable one counts (R58, R424). -/
def Chip.tablesRead (c : Chip) (via : List Nat) : Chip :=
  (c.correct (via.map fun a => (a, 8)) []).countBad (via.map fun a => (a, 8))

/-- The entries that a walk of a job's tables reads. -/
def State.pathOf (s : State) (job : BitVec 64) (va : Nat) : List Nat :=
  match s.ch.job? job with
  | some j => walkPath s.mem va 3 j.root
  | none => []

/-- Permissions of a leaf (R63): 0x11 with the level of the leaf. -/
def leafPerm (acc : Access) (p : Page) (va : Nat) : Chk Page :=
  let rd := p.leaf.getLsbD 2
  let wr := p.leaf.getLsbD 3
  let ok := match acc with
    | .load => rd
    | .store => wr
    | .atomic => p.leaf.getLsbD 4 && rd && wr
  if ok then .ok p else .bad { walkFault 0x11 2 (if p.size = 0x200000 then 2 else 3) va with via := p.via }

/-- The curator's mapping of the context areas of a die, one for each slot, for a strand in privileged mode (R388, R389). -/
def curatorPage (die va : Nat) : Chk Page :=
  let a := va % 2 ^ 41
  let base := curatorBase die
  if va / 2 ^ 41 = 2 ^ 14 ∧ base ≤ a ∧ a < base + 16 * Config.quadsOf die * 0x30000 ∧ (a - base) % 0x30000 < 0x24000 then
    .ok { page := va / 65536 * 65536, size := 65536, leaf := BitVec.ofNat 64 (0xFFF * 2 ^ 52 + a / 65536 * 65536 + 15) }
  else .bad (walkFault 0x10 0 0 va)

/-- The walker of a quad has its eight walks in flight (R71). -/
def Chip.walkerBusy (c : Chip) (quad : Nat) : Bool := decide (8 ≤ (c.xl.walks.filter fun w => quadOfPos w.pos == quad).length)

/-- The page of a virtual address: from a TLB of the core or quad, or else by a walk, for which the quad's walker must have room (R71). -/
def State.translate (s : State) (σ : Strand) (acc : Access) (va : Nat) : Chk Page :=
  let core := coreOf σ.pos
  let viaTable : Chk Page :=
    match s.ch.xl.tlbs.find? (fun t => t.job == σ.who.job && !t.stale && (if t.quad then t.place == quadOf core else t.place == core)
        && decide (t.page ≤ va ∧ va < t.page + t.size)) with
    | some t => .ok { page := t.page, size := t.size, leaf := t.leaf }
    | none => match s.ch.job? σ.who.job with
      | some j => if s.ch.walkerBusy (quadOf core) then .hold va else walkFrom s.ch.side s.mem va 3 j.root
      | none => .bad (walkFault 0x10 0 0 va)
  (if σ.privileged && decide (2 ^ 55 ≤ va) then curatorPage (dieOf core) va else viaTable).bind fun p => leafPerm acc p va

/-- The runs of a global range, page by page in ascending order (R72, R75): `pages` are those counted already, of which at most
64 are allowed. The fuel is the number of 64 KiB pages. -/
def State.pagesOf (s : State) (σ : Strand) (acc : Access) (p : Reg) :
    Nat → Nat → Nat → List (Nat × Nat) → Chk (List Seg × List (Nat × Nat) × List Page)
  | 0, _, _, pages => .ok ([], pages, [])
  | fuel + 1, va, len, pages =>
    if len = 0 then .ok ([], pages, [])
    else
      ((s.translate σ acc va).at p).bind fun pg =>
        let pages2 := if pages.contains (pg.page, pg.size) then pages else (pg.page, pg.size) :: pages
        if 64 < pages2.length then .bad (ptrFault 0x14 7 p)
        else
          let n := min len (pg.page + pg.size - va)
          let peer := leafPeer pg.leaf
          let seg : Seg :=
            { phys := if peer = 0xFFF then leafFrame pg.leaf + (va - pg.page) else 0, len := n, va := va,
              peer := if peer = 0xFFF then none else some peer, mode := leafMode pg.leaf, cmp := leafCmp pg.leaf && peer == 0xFFF,
              page := pg.page, size := pg.size }
          (State.pagesOf s σ acc p fuel (va + n) (len - n) pages2).bind fun r => .ok (seg :: r.1, r.2.1, pg :: r.2.2)

/-- A resolved footprint with the pages counted and the leaves read so far. -/
structure Found where
  loc : Loc
  pages : List (Nat × Nat)
  leaves : List Page

/-- All seven steps of R21 for the bytes from `p + lo` to `p + hi`. -/
def State.footprint (s : State) (σ : Strand) (allow : Allow) (acc : Access) (p : Reg) (lo hi : Int) (align : Nat)
    (pages : List (Nat × Nat)) : Chk Found :=
  (s.ch.checkPtr σ allow p lo hi align).bind fun r =>
    let (base, first, last) := r
    if ptrTag p = 0 then
      (s.pagesOf σ acc p ((last / 65536 - first / 65536) + 1) first (last + 1 - first) pages).bind fun g =>
        .ok { loc := { ptr := p, tag := 0, segs := g.1 }, pages := g.2.1, leaves := g.2.2 }
    else
      .ok { loc := { ptr := p, tag := ptrTag p,
                     segs := [{ phys := base + first, len := last + 1 - first, va := first, peer := none, mode := 0, cmp := false,
                                page := 0, size := 0 }] },
            pages := pages, leaves := [] }

/-- The entries of one TLB, newest first, cut to its size: the one filled longest ago is replaced (log entry 68), a pinned second-level entry never
(R71, R73). -/
def cutTlb (cap : Nat) (pinned : Tlb → Bool) (l : List Tlb) : List Tlb :=
  if l.length ≤ cap then l
  else match l.reverse.find? (fun t => !pinned t) with
    | some victim => l.filter fun t => !(t == victim)
    | none => l.take cap

/-- A page lies in a range of 64 KiB pages; no pages stand for the whole address space. -/
def inRange (va pages page size : Nat) : Bool := pages == 0 || decide (page < va + 65536 * pages ∧ va < page + size)

/-- The second-level TLB entry that a run of an operation was translated by: job, page, and the invalidations that have marked it stale since;
the entry of a later translation of the page is another one (R73, R77). -/
def Chip.pinOf (c : Chip) (o : Op) (g : Seg) : BitVec 64 × Nat × List Nat :=
  (o.job, g.page, (c.xl.invals.filter fun v => v.ops.any (fun x => x.1 == o.id) && inRange v.va v.pages g.page g.size).map (·.id))

/-- The pins that the issued engine commands of a quad hold (R73). -/
def Chip.pins (c : Chip) (quad : Nat) : List (BitVec 64 × Nat × List Nat) :=
  (c.ops.filter fun o => o.cl == .g && quadOfPos o.pos == quad).flatMap fun o =>
    (o.locs.flatMap fun l => l.segs.filter fun g => g.size != 0).map fun g => c.pinOf o g

/-- An entry of a quad's second-level TLB is pinned (R73). -/
def Chip.pinned (c : Chip) (quad : Nat) (t : Tlb) : Bool := (c.pins quad).any fun p => p.1 == t.job && p.2.1 == t.page && p.2.2.isEmpty == !t.stale

/-- The TLBs after translations of a strand: new entries at both levels, an existing one left where it is; the sectors the walks have read
are corrected (R58). -/
def Chip.fillTlb (c : Chip) (σ : Strand) (ps : List Page) : Chip :=
  let core := coreOf σ.pos
  let add (quad : Bool) (place cap : Nat) (l : List Tlb) (p : Page) : List Tlb :=
    if decide (p.page ≥ 2 ^ 55) && σ.privileged then l
    else if l.any (fun t => t.quad == quad && t.place == place && t.job == σ.who.job && t.page == p.page && !t.stale) then l
    else
      let e : Tlb := { quad := quad, place := place, job := σ.who.job, page := p.page, size := p.size, leaf := p.leaf, stale := false }
      let mine := l.filter fun t => t.quad == quad && t.place == place
      let rest := l.filter fun t => !(t.quad == quad && t.place == place)
      cutTlb cap (fun t => quad && c.pinned place t) (e :: mine) ++ rest
  let tlbs := ps.foldl (fun l p => add true (quadOf core) 2048 (add false core 64 l p) p) c.xl.tlbs
  ({ c with xl := { c.xl with tlbs := tlbs } } : Chip).correct ((ps.flatMap (·.via)).map fun a => (a, 8)) []

/-- The entries pinned in a quad, with those of new runs of a job (R73). -/
def Chip.pinCount (c : Chip) (quad : Nat) (job : BitVec 64) (segs : List Seg) : Nat :=
  (c.pins quad ++ (segs.filter fun g => g.size != 0).map fun (g : Seg) => (job, g.page, ([] : List Nat))).eraseDups.length

/-- A walk that read HOLD is noted once for a cluster and address, when the walker has room for it (R71, R81). -/
def Chip.noteWalk (c : Chip) (σ : Strand) (cl : Cluster) (va : Nat) : Chip :=
  if c.xl.walks.any (fun w => w.pos == σ.pos && w.cl == cl && w.va == va) || c.walkerBusy (quadOfPos σ.pos) then c
  else { c with nextId := c.nextId + 1,
                xl := { c.xl with walks := { id := c.nextId, pos := σ.pos, cl := cl, job := σ.who.job, va := va, since := c.cycle }
                  :: c.xl.walks } }

/-- The mark of a word that stalls for its translation or for pins (R73, R81). -/
def Chip.markOwed (c : Chip) (pos : Nat) (k : Cluster) (od : BitVec 14) : Chip :=
  c.modStrand pos fun σ => σ.modCl k fun x => { x with owes := some (odStream od) }

/-- What a failed or waiting check does to the issuing word. A cluster whose walk has met HOLD waits for its completion (R81); what the walk has
read is corrected (R58). -/
def State.onChk {α : Type} (s : State) (σ : Strand) (cl : Cluster) (od : BitVec 14) (x : Chk α) (f : α → Res) : Res :=
  if s.ch.xl.walks.any (fun w => w.pos == σ.pos && w.cl == cl) then .stall s.ch
  else match x with
  | .ok a => f a
  | .bad t => if t.via.isEmpty then .trap t else .trapFrom (s.ch.tablesRead t.via) { t with via := [] }
  | .hold va => .stall (((s.ch.tablesRead (s.pathOf σ.who.job va)).noteWalk σ cl va).markOwed σ.pos cl od)
  | .held => .stall s.ch

end Sys2Proof.Machine
end

