-- ==== Sys2Proof/Machine/Access.lean ====
section
/-! DEFINITION. Reading and writing bytes: protected words and their errors (R51, R58), base-delta-immediate blocks
(R85 to R88, R153), quad caches (R67 to R70), and the runs of a footprint. -/

namespace Sys2Proof.Machine

/-! Base-delta-immediate blocks. -/

/-- Base and delta bytes of a code with deltas (R153). -/
def bdiShape (code : Nat) : Option (Nat × Nat) :=
  match code with
  | 2 => some (8, 1)
  | 3 => some (8, 2)
  | 4 => some (8, 4)
  | 5 => some (4, 1)
  | 6 => some (4, 2)
  | 7 => some (2, 1)
  | _ => none

/-- Payload bytes of a code (R86); none for the reserved codes. -/
def bdiSize (code : Nat) : Option Nat :=
  match code with
  | 0 => some 0
  | 1 => some 8
  | 15 => some 128
  | _ => (bdiShape code).map fun (w, d) => w + 128 / w / 8 + 128 / w * d

/-- The 128 bytes a payload stands for (R86). -/
def bdiExpand (code : Nat) (pay : List Byte) : Option (List Byte) :=
  match code with
  | 0 => some (List.replicate 128 0)
  | 1 => some ((List.range 16).flatMap fun _ => pay.take 8)
  | 15 => some (pay.take 128)
  | _ => (bdiShape code).map fun (w, d) =>
    let n := 128 / w
    let base := leNat (pay.take w)
    let sel := leNat ((pay.drop w).take (n / 8))
    let deltas := pay.drop (w + n / 8)
    (List.range n).flatMap fun i =>
      let delta := signed (8 * d) (leNat ((deltas.drop (i * d)).take d))
      let e := ((if sel.testBit i then (base : Int) else 0) + delta) % (2 ^ (8 * w) : Nat)
      leBytes w e.toNat

/-- Whether `e` is within `d` signed bytes of `base`, modulo the element width. -/
def bdiNear (w d base e : Nat) : Bool :=
  let diff := (e + 2 ^ (8 * w) - base) % 2 ^ (8 * w)
  decide ((diff + 2 ^ (8 * d - 1)) % 2 ^ (8 * w) < 2 ^ (8 * d))

/-- The payload of a block with the zero base taken where it fits and `base` elsewhere. -/
def bdiPack (w d base : Nat) (es : List Nat) : List Byte :=
  let sel := es.map fun e => !bdiNear w d 0 e
  let selN := (List.range es.length).foldl (fun n i => if nth false sel i then n + 2 ^ i else n) 0
  leBytes w base ++ leBytes (es.length / 8) selN ++
    es.flatMap fun e => leBytes d ((if bdiNear w d 0 e then e else e + 2 ^ (8 * w) - base) % 2 ^ (8 * d))

/-- The payload of a block under a code, when one stands for it: the base is the first element the zero base does not cover
where that base serves (the worked example of R155); where only another base serves, the choice is open (log entry 18). -/
def bdiTry (code : Nat) (blk : List Byte) : Option (List Byte) :=
  match code with
  | 0 => if blk.all (· == 0) then some [] else none
  | 1 => if (List.range 128).all (fun i => nth 0 blk i == nth 0 blk (i % 8)) then some (blk.take 8) else none
  | 15 => some blk
  | _ => (bdiShape code).bind fun (w, d) =>
    let es := (List.range (128 / w)).map fun i => leNat ((blk.drop (i * w)).take w)
    let rest := es.filter fun e => !bdiNear w d 0 e
    let serves (b : Nat) : Bool := rest.all (bdiNear w d b)
    match rest with
    | [] => some (bdiPack w d 0 es)
    | e :: _ =>
      if serves e then some (bdiPack w d e es)
      else
        match (rest.map fun e => (e + 2 ^ (8 * d - 1)) % 2 ^ (8 * w)).find? serves with
        | none => none
        | some b =>
          let open_ := Config.bdiPayload code blk
          if open_.length = w + 128 / w / 8 + 128 / w * d ∧ bdiExpand code open_ = some blk then some open_ else some (bdiPack w d b es)

/-- The codes in order of payload size, the lower code first on a tie (R86, R87). -/
def bdiOrder : List Nat := [0, 1, 2, 5, 3, 6, 4, 7, 15]

/-- The code and payload a block is stored with (R87, R154). -/
def bdiCompress (blk : List Byte) : Nat × List Byte :=
  match bdiOrder.findSome? fun c => (bdiTry c blk).map fun p => (c, p) with
  | some r => r
  | none => (15, blk)

/-- The address and nibble of the map code of a block (R85). -/
def mapCodeAt (blkAddr : Nat) : Nat × Bool :=
  let die := blkAddr / 2 ^ 38
  let x := blkAddr % 2 ^ 38
  let b := x % 65536 / 128
  (die * 2 ^ 38 + Config.mapBase die + x / 65536 * 256 + b / 2, b % 2 == 1)

def mapCode (mem : List Host.Cell) (blkAddr : Nat) : Nat :=
  let (a, hi) := mapCodeAt blkAddr
  let v := (memRead mem a).toNat
  if hi then v / 16 else v % 16

/-- The 128 bytes of a compressed block, or none for a reserved code (R88). -/
def blockBytes (mem : List Host.Cell) (blkAddr : Nat) : Option (List Byte) :=
  let code := mapCode mem blkAddr
  (bdiSize code).bind fun n => bdiExpand code (memBytes mem blkAddr n)

/-- The writes that store a block compressed (R87). -/
def blockWrites (mem : List Host.Cell) (blkAddr : Nat) (blk : List Byte) : List (Nat × List Byte) :=
  let (code, pay) := bdiCompress blk
  let (a, hi) := mapCodeAt blkAddr
  let v := (memRead mem a).toNat
  let v2 := if hi then v % 16 + 16 * code else v / 16 * 16 + code
  [(blkAddr, pay), (a, [BitVec.ofNat 8 v2])]

/-! Local global memory. -/

/-- Why bytes could not be moved: the cause, and the physical address. -/
structure Bad where
  cause : BitVec 8
  addr : Nat
deriving DecidableEq, Repr

/-- The blocks of a compressed page that a run touches, by number. -/
def blocksOf (a n : Nat) : List Nat := if n = 0 then [] else List.range' (a / 128) ((a + n - 1) / 128 - a / 128 + 1)

/-- What a read of a block of a compressed page reads: its payload and its map entry (R85, R86). -/
def blockReads (mem : List Host.Cell) (b : Nat) : List (Nat × Nat) :=
  [((mapCodeAt (b * 128)).1, 1), (b * 128, (bdiSize (mapCode mem (b * 128))).getD 0)]

/-- An uncorrectable sector that a read of a block meets (R58). -/
def State.blockBad (s : State) (b : Nat) : Option Nat := (blockReads s.mem b).findSome? fun r => s.ch.side.uncorrectable r.1 r.2

/-- The bytes of a run of a compressed page. -/
def readCmp (s : State) (a n : Nat) : Except Bad (List Byte) :=
  let rec go : List Nat → Except Bad (List Byte)
    | [] => .ok []
    | b :: bs =>
      match s.blockBad b with
      | some w => .error { cause := 0x38, addr := w }
      | none => match blockBytes s.mem (b * 128) with
        | none => .error { cause := 0x31, addr := b * 128 }
        | some x => match go bs with
          | .ok y => .ok (x ++ y)
          | .error e => .error e
  (go (blocksOf a n)).map fun l => (l.drop (a % 128)).take n

/-- The bytes of a run at its home. -/
def readHome (s : State) (g : Seg) : Except Bad (List Byte) :=
  if g.len = 0 then .ok []
  else if g.cmp then readCmp s g.phys g.len
  else match s.ch.side.uncorrectable g.phys g.len with
    | some w => .error { cause := 0x38, addr := w }
    | none => .ok (memBytes s.mem g.phys g.len)

/-- The writes of bytes into a run at its home. A partial write of a word that is uncorrectable, or of a block whose code is
reserved, is not performed (R51, R88). -/
def writeHome (s : State) (g : Seg) (bs : List Byte) : Except Bad (List (Nat × List Byte)) :=
  if g.len = 0 then .ok []
  else if g.cmp then
    let rec go : List Nat → List Host.Cell → Except Bad (List (Nat × List Byte))
      | [], _ => .ok []
      | b :: rest, m =>
        let lo := max g.phys (b * 128)
        let hi := min (g.phys + g.len) (b * 128 + 128)
        let part := (bs.drop (lo - g.phys)).take (hi - lo)
        let whole := hi - lo = 128
        match (if whole then none else State.blockBad { s with mem := m } b) with
        | some w => .error { cause := 0x38, addr := w }
        | none => match (if whole then some part else (blockBytes m (b * 128)).map fun old =>
              old.take (lo - b * 128) ++ part ++ old.drop (hi - b * 128)) with
          | none => .error { cause := 0x11, addr := b * 128 }
          | some blk =>
            let ws := blockWrites m (b * 128) blk
            match go rest (memWriteAll m ws) with
            | .ok r => .ok (ws ++ r)
            | .error e => .error e
    go (blocksOf g.phys g.len) s.mem
  else match s.ch.side.partialBad g.phys g.len with
    | some w => .error { cause := 0x38, addr := w }
    | none => .ok [(g.phys, bs.take g.len)]

/-- What a read of a run reads at its home: its bytes, or in a compressed page the payloads and map entries of its blocks. -/
def Seg.reads (g : Seg) (mem : List Host.Cell) : List (Nat × Nat) :=
  if g.cmp then (blocksOf g.phys g.len).flatMap (blockReads mem) else [(g.phys, g.len)]

/-- A read of a run, and of the marks of granules, has corrected what it met (R48, R58). -/
def State.corrected (s : State) (g : Seg) (gs : List Nat) : Chip := s.ch.correct (g.reads s.mem) gs

/-- Writes of a run at its home clear the errors of the words written whole; what of the run is written in part was read, and is corrected
with the marks that were consulted (R48, R51, R58). -/
def State.cleaned (s : State) (g : Seg) (ws : List (Nat × List Byte)) (gs : List Nat) : Chip :=
  let c : Chip := { s.ch with side := ws.foldl (fun d w => d.rewritten w.1 w.2.length) s.ch.side }
  let parts := (blocksOf g.phys g.len).filter fun b => decide (b * 128 < g.phys ∨ g.phys + g.len < b * 128 + 128)
  c.correct (if g.cmp then parts.flatMap (blockReads s.mem) else [(g.phys, g.len)]) gs

/-! Quad caches (R67 to R70). -/

/-- The line number of a run's bytes: of its DPA, or of the virtual address for a page cached from a peer. -/
def Seg.lineBase (g : Seg) : Nat := if g.peer.isSome then g.va else g.phys

/-- Whether the cache may hold bytes of a run (R64). -/
def Seg.cacheable (g : Seg) : Bool :=
  decide (g.size ≠ 0) && match g.peer with
    | none => g.mode != 1
    | some _ => g.mode == 2

/-- Whether a load of a scope may read a run from the cache (R64, R68). -/
def Seg.mayHit (g : Seg) (scope : Nat) : Bool :=
  g.cacheable && (if g.peer.isSome then decide (scope ≤ 3) else decide (scope ≤ 1))

/-- The sets of a 16-way cache of 256 KiB with 128-byte lines (R67); the index is the line number modulo the sets (log entry
19). -/
def cacheSets : Nat := 128

def Chip.line? (c : Chip) (quad : Nat) (job : BitVec 64) (home : Option (BitVec 12)) (line : Nat) : Option Line :=
  c.xl.lines.find? fun l => l.quad == quad && l.job == job && l.home == home && l.line == line

/-- The cached sector, when valid. -/
def Chip.sector? (c : Chip) (quad : Nat) (job : BitVec 64) (home : Option (BitVec 12)) (sec : Nat) : Option (BitVec 256) :=
  (c.line? quad job home (sec / 4)).bind fun l => nth none l.sectors (sec % 4)

/-- The virtual address of a sector of local memory that a run touches. -/
def Seg.vaOf (g : Seg) (sec : Nat) : Nat := if g.phys ≤ sec * 32 then g.va + (sec * 32 - g.phys) else g.va - (g.phys - sec * 32)

/-- A sector brought in or refreshed; its line becomes the newest, and the oldest of a full set leaves (R67). -/
def Chip.fillSector (c : Chip) (quad : Nat) (job : BitVec 64) (home : Option (BitVec 12)) (sec va : Nat) (v : BitVec 256) : Chip :=
  let same (l : Line) : Bool := l.quad == quad && l.job == job && l.home == home && l.line == sec / 4
  let old := c.line? quad job home (sec / 4)
  let new : Line := { quad := quad, job := job, home := home, line := sec / 4, va := (old.map (·.va)).getD (va / 128),
                      sectors := ((old.map (·.sectors)).getD [none, none, none, none]).set (sec % 4) (some v) }
  let rest := c.xl.lines.filter fun l => !same l
  let inSet (l : Line) : Bool := l.quad == quad && l.line % cacheSets == sec / 4 % cacheSets
  let set := rest.filter inSet
  let rest2 := if 16 ≤ set.length then match set.getLast? with
      | some victim => rest.filter fun l => !(l == victim)
      | none => rest
    else rest
  { c with xl := { c.xl with lines := new :: rest2 } }

/-- A sector of a cached-read page that a home has answered with: kept where the load may hit, refreshed where it is valid (R68). -/
def Chip.keepSector (c : Chip) (quad : Nat) (job : BitVec 64) (g : Seg) (scope sec : Nat) (v : BitVec 256) : Chip :=
  if g.cacheable && (g.mayHit scope || (c.sector? quad job g.peer sec).isSome) then c.fillSector quad job g.peer sec (sec * 32) v else c

/-- The sectors a run touches. -/
def sectorsOf (a n : Nat) : List Nat := if n = 0 then [] else List.range' (a / 32) ((a + n - 1) / 32 - a / 32 + 1)

/-- A load of a run of local global memory at a scope: each sector from the quad cache where the load may hit there and the
sector is valid, and otherwise from the home, which fills the cache or refreshes valid sectors (R68). -/
def loadCached (s : State) (quad : Nat) (job : BitVec 64) (scope : Nat) (g : Seg) : Except Bad (List Byte × Chip) :=
  let rec go : List Nat → Chip → Except Bad (List Byte × Chip)
    | [], c => .ok ([], c)
    | sec :: rest, c =>
      let lo := max g.phys (sec * 32)
      let hi := min (g.phys + g.len) (sec * 32 + 32)
      let hit := if g.mayHit scope then c.sector? quad job none sec else none
      match hit with
      | some v => match go rest (c.fillSector quad job none sec (g.vaOf sec) v) with
        | .ok (y, c2) => .ok (((leBytes 32 v.toNat).drop (lo - sec * 32)).take (hi - lo) ++ y, c2)
        | .error e => .error e
      | none =>
        let whole := { g with phys := sec * 32, len := 32 }
        match readHome s whole with
        | .error e => .error e
        | .ok bs =>
          let keep := g.cacheable && (decide (scope ≤ 1) || (c.sector? quad job none sec).isSome)
          let c1 := (if keep then c.fillSector quad job none sec (g.vaOf sec) (BitVec.ofNat 256 (leNat bs)) else c).correct (whole.reads s.mem) []
          match go rest c1 with
          | .ok (y, c2) => .ok ((bs.drop (lo - sec * 32)).take (hi - lo) ++ y, c2)
          | .error e => .error e
  go (sectorsOf g.phys g.len) s.ch

/-- A sector with the bytes of a run that lie in it replaced. -/
def patchSector (sec : Nat) (g : Seg) (bs : List Byte) (v : BitVec 256) : BitVec 256 :=
  let old := leBytes 32 v.toNat
  let lo := max g.phys (sec * 32)
  let hi := min (g.phys + g.len) (sec * 32 + 32)
  BitVec.ofNat 256 (leNat (old.take (lo - sec * 32) ++ (bs.drop (lo - g.phys)).take (hi - lo) ++ old.drop (hi - sec * 32)))

/-- A store updates the sectors it writes that the issuing quad's cache holds, in the lines of whichever job, and uses those lines (R67,
R69); so does one through a mapping that is not cached, of a frame that another mapping caches (R98). -/
def Chip.storeCached (c : Chip) (quad : Nat) (g : Seg) (bs : List Byte) : Chip :=
  let secs := if g.peer.isNone && decide (g.size ≠ 0) then sectorsOf g.phys g.len else []
  let hit (l : Line) : Bool := l.quad == quad && l.home.isNone && secs.any fun sec => l.line == sec / 4 && (nth none l.sectors (sec % 4)).isSome
  let write (l : Line) : Line := secs.foldl (fun l sec =>
    if l.line = sec / 4 then { l with sectors := l.sectors.set (sec % 4) ((nth none l.sectors (sec % 4)).map (patchSector sec g bs)) } else l) l
  { c with xl := { c.xl with lines := (c.xl.lines.filter hit).map write ++ c.xl.lines.filter fun l => !hit l } }

/-- The lines of a job a quad drops (R70). -/
def Chip.dropJobLines (c : Chip) (quad : Nat) (job : BitVec 64) : Chip :=
  { c with xl := { c.xl with lines := c.xl.lines.filter fun l => !(l.quad == quad && l.job == job) } }

/-! Runs of a footprint. -/

/-- How the accesses of an agent to tracked memory are checked: not at all (external or race-exempt), or against a vector
(R139, R141). `external` writes set marks to none. -/
inductive Check where
  | exempt
  | external
  | agent (a : Nat) (v : Vec)
deriving DecidableEq, Repr

/-- Whether a physical address is checked for an agent of a quad: its own quad's bench and general stratum, outside the
receive slots (R136, R141). -/
def Check.of (quad a : Nat) (v : Vec) (addr : Nat) : Check :=
  if tracked addr then (if quadOf (trackedCore addr) = quad then .agent a v else .external) else .exempt

/-- A conflict, or an uncorrectable mark word, in a run. -/
inductive MarkBad where
  | race (m : Mark)
  | word (g : Nat)

def Side.checkRun (d : Side) (k : Check) (a n : Nat) : Option MarkBad :=
  match k with
  | .agent ag v => match d.markBad (granules a n) with
    | some g => some (.word g)
    | none => (d.firstRace ag v (granules a n)).map .race
  | _ => none

/-- The mark words of granules are written whole, with fresh check bits (R51). -/
def Side.freshMarks (d : Side) (gs : List Nat) : Side :=
  { d with faulty := d.faulty.filter fun f => !gs.any fun g => f.1 == markWord g }

/-- The marks after a write of a run. -/
def Side.markRun (d : Side) (k : Check) (a n : Nat) : Side :=
  match k with
  | .agent ag v => (d.setMarks ag (vget v ag) (granules a n)).freshMarks (granules a n)
  | .external => if tracked a then (d.clearMarks (granules a n)).freshMarks (granules a n) else d
  | .exempt => d

/-- The granules whose marks an access of a run consults (R139). -/
def Check.consults (k : Check) (a n : Nat) : List Nat :=
  match k with
  | .agent _ _ => granules a n
  | _ => []

/-- The chip after writes of a run that has passed its check: errors cleared or corrected, marks, and the issuing quad's cache. -/
def State.stored (s : State) (quad : Nat) (k : Check) (g : Seg) (bs : List Byte) (ws : List (Nat × List Byte)) : Chip :=
  let c := s.cleaned g ws (k.consults g.phys g.len)
  ({ c with side := c.side.markRun k g.phys g.len } : Chip).storeCached quad g bs

/-- The MMX word of a race (R396). -/
def mmxWord (agent : Nat) (m : Mark) : BitVec 64 :=
  BitVec.ofNat 64 (agent + 256 * m.writer.toNat + 65536 * m.clock.toNat)

end Sys2Proof.Machine
end

