-- ==== Sys2Proof/Machine/Issue.lean ====
section
/-! DEFINITION. Operations: streams and sequence numbers (R89 to R107), tokens (R108 to R113), byte barriers (R125 to R129),
and the ways an operation ends: performed, in error, held by a late fault, or in a precise fault. -/

namespace Sys2Proof.Machine

/-! Streams. -/

def ClusterSt.stream (k : ClusterSt) (n : Nat) : Stream := nth Stream.fresh k.streams n

def ClusterSt.modStream (k : ClusterSt) (n : Nat) (f : Stream → Stream) : ClusterSt :=
  { k with streams := setNth Stream.fresh k.streams n (f (k.stream n)) }

/-- The outstanding count (R90). -/
def Stream.out (x : Stream) : Nat := (x.issued - x.completed).toNat

/-- The stream word of R102. -/
def Stream.word (x : Stream) : BitVec 64 :=
  BitVec.ofNat 64 (x.issued.toNat + x.completed.toNat * 65536 + x.out * 2 ^ 32 + cond x.exh (2 ^ 38) 0 + cond x.held (2 ^ 39) 0)

/-- The stream word of a cluster: a word that stalls for its translation or for pins counts as outstanding (R73, R81). -/
def ClusterSt.word (k : ClusterSt) (n : Nat) : BitVec 64 := (k.stream n).word + if k.owes = some n then 0x100000000#64 else 0

/-- COMPLETED advances over a run of performed operations with no gap (R101); the fuel is the number performed. -/
def Stream.drain : Nat → Stream → Stream
  | 0, x => x
  | n + 1, x => if x.ahead.contains (x.completed + 1) then
      Stream.drain n { x with completed := x.completed + 1, ahead := x.ahead.filter fun k => k != x.completed + 1 }
    else x

/-- An operation of the stream is performed; exhaustion ends as COMPLETED advances (R101). -/
def Stream.performed (x : Stream) (seq : BitVec 16) : Stream :=
  let y := Stream.drain (x.ahead.length + 1) { x with ahead := seq :: x.ahead }
  { y with exh := y.exh && decide (32 ≤ y.out) }

/-- `completed` has reached `need` (may_begin of R101). -/
def reached (completed need : BitVec 16) : Bool := decide ((completed - need).toNat < 32768)

/-- The need values of an operation that issues now under a descriptor: ISSUED of each stream of its mask, 0 for the others (R101). -/
def ClusterSt.needs (k : ClusterSt) (d : BitVec 14) : List (BitVec 16) :=
  (List.range 8).map fun n => if (odMask d).testBit n then (k.stream n).issued else 0

/-- The predecessors of an operation are performed (R94). -/
def Chip.mayBegin (c : Chip) (o : Op) : Bool :=
  match c.strand? o.pos, o.od with
  | some σ, some d => (List.range 8).all fun k =>
      !(odMask d).testBit k || reached ((σ.cl o.cl).stream k).completed (nth 0 o.need k)
  | _, _ => true

/-! Tokens. -/

def Strand.token (σ : Strand) (t : Nat) : Token := nth Token.fresh σ.tk t

def Strand.setToken (σ : Strand) (t : Nat) (v : Token) : Strand := if t = 0 then σ else { σ with tk := setNth Token.fresh σ.tk t v }

/-- The token word of R108. -/
def Token.word (t : Token) : BitVec 64 := BitVec.ofNat 64 (t.st.toNat + t.cause.toNat * 256)

/-- A `tkpost` token whose streams have all reached their values goes to done (R112). -/
def Strand.settleTokens (σ : Strand) (zeroToo : Bool) : Strand :=
  { σ with tk := σ.tk.map fun t =>
      match t.cover with
      | some (k, l) =>
        if t.st = 1 ∧ (zeroToo ∨ l ≠ []) ∧ l.all (fun e => reached ((σ.cl k).stream e.1).completed e.2) then
          { t with st := 2, cover := none }
        else t
      | none => t }

/-- The produced token of an operation changes state (R110). -/
def Strand.endToken (σ : Strand) (t : Nat) (st : BitVec 2) (cause : BitVec 8) : Strand :=
  if t = 0 then σ else σ.setToken t { σ.token t with st := st, cause := cause, cover := none }

/-! Byte barriers (R125, R126). -/

/-- A barrier's fields. -/
structure Bar where
  expected : Nat
  pendArr : Nat
  pendBytes : Int
  phase : Nat
  error : Bool
  overrun : Bool
  init : Bool
  upper : Nat
deriving DecidableEq, Repr

def Bar.read (mem : List Host.Cell) (a : Nat) : Bar :=
  let v := memNat mem a 16
  { expected := bits v 0 16, pendArr := bits v 16 16, pendBytes := signed 32 (bits v 32 32), phase := bits v 64 8,
    error := v.testBit 72, overrun := v.testBit 73, init := v.testBit 74, upper := v / 2 ^ 75 }

def Bar.bytes (b : Bar) : List Byte :=
  leBytes 16 (b.expected + b.pendArr * 2 ^ 16 + (BitVec.ofInt 32 b.pendBytes).toNat * 2 ^ 32 + b.phase * 2 ^ 64
    + cond b.error (2 ^ 72) 0 + cond b.overrun (2 ^ 73) 0 + cond b.init (2 ^ 74) 0 + b.upper * 2 ^ 75)

/-- PENDBYTES kept in range; leaving it sets OVERRUN (R126). -/
def Bar.setPend (b : Bar) (x : Int) : Bar :=
  if x > 2147483647 then { b with pendBytes := 2147483647, overrun := true }
  else if x < -2147483648 then { b with pendBytes := -2147483648, overrun := true }
  else { b with pendBytes := x }

/-- The phase completes when it is due; the second component says so (R126). -/
def Bar.complete (b : Bar) : Bar × Bool :=
  if b.pendArr = 0 ∧ b.pendBytes ≤ 0 then
    ({ b with overrun := b.overrun || decide (b.pendBytes < 0), pendBytes := 0, phase := (b.phase + 1) % 256,
              pendArr := b.expected }, true)
  else (b, false)

def Bar.arrival (b : Bar) : Bar × Bool :=
  (if b.pendArr = 0 then { b with overrun := true } else { b with pendArr := b.pendArr - 1 }).complete

def Bar.credit (b : Bar) (m : Nat) : Bar × Bool := (b.setPend (b.pendBytes - m)).complete

/-- The quad of a bench address. -/
def quadOfBench (a : Nat) : Nat := quadOf ((a - benchAt 0) / 0x100000)

/-- The clock-table entry of a barrier (R138). -/
def Chip.barClock? (c : Chip) (a : Nat) : Option BarClock := (c.quad (quadOfBench a)).bars.find? fun b => b.addr == a

def Chip.modBarClock (c : Chip) (a : Nat) (f : BarClock → BarClock) : Chip :=
  c.modQuad (quadOfBench a) fun q => { q with bars := q.bars.map fun b => if b.addr == a then f b else b }

/-- A release into the phase being accumulated (R138). -/
def Chip.barRelease (c : Chip) (a : Nat) (v : Vec) : Chip := c.modBarClock a fun b => { b with acc := vjoin b.acc v }

/-- A completed phase's vector joins the phase vector (R138). -/
def Chip.barPhase (c : Chip) (a : Nat) (completed : Bool) : Chip :=
  if completed then c.modBarClock a fun b => { b with phase := vjoin b.phase b.acc, acc := [] } else c

/-- A barrier is the one that stood at its granule when operation `op` issued: initialised, and not since (R127). -/
def State.sameBarrier (s : State) (a op : Nat) : Bool :=
  (Bar.read s.mem a).init && (match s.ch.barClock? a with
    | some b => decide (b.since ≤ op)
    | none => true)

/-- A credit of operation `op` of `m` bytes to barrier `a`, with ERROR set when the command ended in error with a cause (R51, R127).
The second component is false when the barrier has been invalidated. Its granule is read, and corrected where it can be (R48). -/
def creditBar (s0 : State) (op a m : Nat) (err : Option (BitVec 8)) : Eff × Bool :=
  let s : State := { s0 with ch := s0.ch.correct [(a, 16)] [] }
  let b := Bar.read s.mem a
  if s.sameBarrier a op then
    let (b2, done) := b.credit m
    let c := s.ch.barPhase a done
    match err with
    | none => ({ chip := c, writes := [(a, b2.bytes)] }, true)
    | some cause =>
      let c2 := c.modBarClock a fun x => if b.error || cause ≠ 0x38 then x else { x with cause := 0x38 }
      ({ chip := c2, writes := [(a, { b2 with error := true }.bytes)] }, true)
  else (Eff.quiet s.ch, false)

/-! Making an operation. -/

/-- The strand as an issuing operation leaves it behind: with the last-result entries of its core, which a fault gives back (R189). -/
def Chip.standing (c : Chip) (σ : Strand) : Strand :=
  { σ with trap := { σ.trap with latch := (c.core (coreOf σ.pos)).latch } }

/-- Where the word of an operation stands in its stream. -/
def Op.at (o : Op) : Nat := (o.was.map fun σ => (σ.cl o.cl).pc).getD 0

/-- The issuing operation with the values every operation has (R89, R93, R101); `vec` is now(a) at issue (R139). -/
def State.opOf (s : State) (σ : Strand) (i : Instr) (od : BitVec 14) : Op :=
  let t := s.ch.turn
  { id := s.ch.nextId, pos := σ.pos, job := σ.who.job, cl := t.cl, was := some (s.ch.standing σ), word := t.word, pfx := t.pfx,
    instr := i, od := some od, seq := ((σ.cl t.cl).stream (odStream od)).issued + 1, need := (σ.cl t.cl).needs od, prod := 0,
    waits := [], bar := none, vec := s.ch.now σ.pos t.cl, vals := [], locs := [], data := [], claims := [], taken := [],
    credited := 0, progress := 0, dest := [], ring := false, stale := false, cycle := s.ch.cycle, resolved := none, lost := false, status := .issued }

/-- A stream is exhausted (R101). -/
def Strand.exhausted (σ : Strand) (k : Cluster) (od : BitVec 14) : Bool :=
  decide (32 ≤ ((σ.cl k).stream (odStream od)).out)

/-- The chip with an operation issued: ISSUED advances, EXH clears, and the destinations await the value (R96, R101). -/
def Chip.addOp (c : Chip) (o : Op) : Chip :=
  let c1 := c.modStrand o.pos fun σ =>
    let σ1 := match o.od with
      | some d => σ.modCl o.cl fun k => k.modStream (odStream d) fun x => { x with issued := x.issued + 1, exh := false }
      | none => σ
    let ds := o.dest.filter fun r => match r with
      | .s 0 => false
      | .g 0 => false
      | .m 0 => false
      | .x 0 => false
      | _ => true
    { σ1 with busy := (ds.map fun r => { reg := r, op := o.id : Busy }) ++ σ1.busy.filter fun b => !ds.contains b.reg }
  { c1 with ops := c1.ops ++ [o], nextId := c1.nextId + 1 }

/-- The mark of an exhaustion stall (R101). -/
def Chip.markExh (c : Chip) (pos : Nat) (k : Cluster) (od : BitVec 14) : Chip :=
  c.modStrand pos fun σ => σ.modCl k fun x => x.modStream (odStream od) fun y => { y with exh := true }

/-- Issue of an operation whose checks have passed: a stall on an exhausted stream, or the operation in flight. -/
def State.launchOp (s : State) (σ : Strand) (o : Op) (leaves : List Page) : Res :=
  match o.od with
  | some d =>
    if σ.exhausted o.cl d then .stall (s.ch.markExh σ.pos o.cl d)
    else .go (Eff.quiet ((s.ch.fillTlb σ leaves).addOp o)) none
  | none => .go (Eff.quiet (s.ch.addOp o)) none

/-- A cluster issues nothing more until an operation ends. -/
def Chip.block (c : Chip) (o : Op) : Chip := c.modStrand o.pos fun σ => σ.modCl o.cl fun k => { k with blocked := some o.id }

/-- An operation in flight that its cluster waits for (R182). -/
def Res.blocking (r : Res) (o : Op) : Res :=
  match r with
  | .go e j => .go (e.mapChip fun c => c.block o) j
  | y => y

/-! The end of an operation. -/

/-- An operation leaves: its stream counts it as performed, its produced token takes the state given, its cluster's wait on it
ends, its destinations await it no more, and `tkpost` tokens are settled (R101, R110, R112). -/
def Chip.retire (c : Chip) (o : Op) (st : BitVec 2) (cause : BitVec 8) : Chip :=
  let c1 := c.modStrand o.pos fun σ =>
    let σ1 := match o.od with
      | some d => σ.modCl o.cl fun k => k.modStream (odStream d) fun x => x.performed o.seq
      | none => σ
    let σ2 := σ1.modCl o.cl fun k => if k.blocked = some o.id then { k with blocked := none } else k
    let σ3 := { σ2 with busy := σ2.busy.filter fun b => b.op != o.id,
                        trap := { σ2.trap with score := σ2.trap.score.filter fun e => e.op != o.id } }
    (σ3.endToken o.prod st cause).settleTokens false
  c1.dropOp o.id

/-- How an attempt to perform an operation ends. -/
inductive Perf where
  /-- Performed (R97). -/
  | done (e : Eff)
  /-- Ended in error with the bytes it wrote (R105). -/
  | failed (e : Eff) (cause : BitVec 8)
  /-- Left neither done nor undone by a late fault (R106). -/
  | late (e : Eff) (t : TrapReq)
  /-- A precise fault at the word (R22, R51, R140). -/
  | fault (e : Eff) (t : TrapReq)
  /-- Not performed yet. -/
  | notYet (e : Eff)

/-- The scoreboard entry of a held operation: the next number after those pending (R397). -/
def TrapSt.addScore (t : TrapSt) (op : Nat) (cause : BitVec 8) : TrapSt :=
  let n := t.score.foldl (fun n e => max n (e.entry + 1)) 0
  { t with score := t.score ++ [{ entry := n, op := op, cause := cause }] }

/-- A late fault: the operation is held and its strand traps, unless it is trapping already, when the core freezes all the same (R106, R391,
R397, R406). -/
def Chip.lateFault (c : Chip) (o : Op) (t : TrapReq) : Chip :=
  let c1 := (c.modOp o.id fun x => { x with status := .held }).modStrand o.pos fun σ =>
    let σ1 := match o.od with
      | some d => σ.modCl o.cl fun k => k.modStream (odStream d) fun x => { x with held := true }
      | none => σ
    { σ1 with trap := σ1.trap.addScore o.id t.cause }
  match c1.strand? o.pos with
  | some σ =>
    if σ.trap.phase = .run ∨ σ.trap.phase = .saving then
      (c1.modStrand o.pos fun σ => { σ with trap := { σ.trap with phase := .run, saveStart := none } }).takeTrap o.pos o.cl
        { t with kind := 1 }
    else c1.freezeCore o.pos { t with kind := 1 }
  | none => c1

/-- The strand after an operation has changed registers of its cluster, and the strand as each operation issued after it would find it,
should a precise fault take that one back. -/
def Chip.bind (c : Chip) (o : Op) (f : Strand → Strand) : Chip :=
  let c1 := c.modStrand o.pos f
  { c1 with ops := c1.ops.map fun p =>
      if p.pos == o.pos && p.cl == o.cl && decide (o.id ≤ p.id) then { p with was := p.was.map f } else p }

/-- A scalar register. -/
def RegName.isS : RegName → Bool
  | .s _ => true
  | _ => false

/-- The cluster in whose files a register lies (R187). -/
def RegName.home : RegName → Cluster
  | .s _ => .c
  | .g _ => .g
  | .gi _ => .g
  | .ch _ => .g
  | .m _ => .m
  | _ => .v

/-- A strand with one cluster's registers and place as they were. The rendezvous that have taken place since then are not repeated. -/
def Strand.backTo (σ was : Strand) (cl : Cluster) (live : Nat → Bool) : Strand :=
  let σ1 := match cl with
    | .c => { σ with s := was.s, od := was.od }
    | .g => { σ with gr := { σ.gr with g := was.gr.g, gi := was.gr.gi, ch := was.gr.ch } }
    | .m => { σ with mr := { σ.mr with m := was.mr.m } }
    | .v => { σ with vr := { σ.vr with x := was.vr.x, v := was.vr.v, o := was.vr.o, vi := was.vr.vi, viPos := was.vr.viPos, p := was.vr.p,
                                       vsh := was.vr.vsh, part := was.vr.part, vmode := was.vr.vmode, vflags := was.vr.vflags },
                     trap := { σ.trap with latch := if was.v.group ≠ 0 then was.trap.latch else [] } }
  let b := was.cl cl
  let busy := (σ.busy.filter fun x => x.reg.home != cl) ++ was.busy.filter fun x => x.reg.home == cl && live x.op
  ({ σ1 with busy := busy } : Strand).modCl cl fun k =>
    { k with pc := b.pc, loops := b.loops, lc := b.lc, group := b.group, groupId := b.groupId, released := b.released,
             past := b.past + (σ.rdvs - was.rdvs), blocked := none, owes := none, ended := false, yielded := false,
             point := false }

/-- An operation's number is given back when it is the last of its stream, and is counted as performed otherwise. -/
def Chip.giveBack (c : Chip) (o : Op) : Chip :=
  (c.modStrand o.pos fun σ => match o.od with
    | some d => σ.modCl o.cl fun k => k.modStream (odStream d) fun x =>
        if x.issued = o.seq then { x with issued := x.issued - 1, exh := false } else x.performed o.seq
    | none => σ).dropOp o.id

/-- An `hbar.aw` that is taken back after its arrival: when its word issues again, only its wait does (R133). -/
def Chip.noteArrived (c : Chip) (o : Op) : Chip := match o.instr, o.progress, o.taken.lookup 0, o.was with
  | .hbarAw .., 1, some p, some w => c.modStrand o.pos fun σ =>
      { σ with trap := { σ.trap with arrived := some (w.c.pc, p.toNat, o.od.getD odFresh) } }
  | _, _, _, _ => c

/-- An operation, and those of its cluster issued after it that have not been performed and are no commands, are taken back as not
issued; the cluster returns to the word with its registers as they were (R22, R392, R394; log entry 6). -/
def Chip.retract (c : Chip) (o : Op) : Chip :=
  let gone := c.ops.filter fun p => p.id == o.id || (p.pos == o.pos && p.cl == o.cl && decide (o.id < p.id) && p.was.isSome
    && (p.status == .issued || p.status == .started || p.status == .waiting))
  let c1 := gone.reverse.foldl Chip.giveBack c
  match (c.op? o.id).bind Op.was with
  | none => c1
  | some was =>
    let held := ((c.core (coreOf o.pos)).hold.lookup .v) == some (o.pos % 4)
    let c2 := c1.modStrand o.pos fun σ => σ.backTo was o.cl fun n => c1.ops.any fun p => p.id == n
    if o.cl = .v then
      c2.modCore (coreOf o.pos) fun k => { k with latch := if held then was.trap.latch else k.latch.filter fun l => l.pos != o.pos }
    else gone.foldl Chip.noteArrived c2

/-- A precise fault found when the operation was to be performed: it is taken back and the trap is taken (R22, R392). -/
def Chip.preciseFault (c : Chip) (o : Op) (t : TrapReq) : Chip := (c.retract o).takeTrap o.pos o.cl t

/-- The credit of the bytes an operation has written since the last one; it notes when its barrier is gone (R127). -/
def State.creditOp (s : State) (o : Op) (b : Seg) (err : Option (BitVec 8)) : State :=
  let m := ((s.ch.op? o.id).map (·.credited)).getD 0
  let (e, live) := creditBar s o.id b.phys (m - o.credited) err
  s.commit (e.mapChip fun c => if live then c else c.modOp o.id fun x => { x with lost := true })

/-- The state after an attempt to perform an operation: barrier credits follow the bytes written (R127), then the stream, the
token and the operation itself (R101, R105, R110). -/
def State.settle (s : State) (o : Op) (r : Perf) : State :=
  match r with
  | .done e =>
    let s1 := s.commit e
    match o.bar with
    | some b =>
      let s2 := s1.creditOp o b none
      if (s2.ch.op? o.id).any (·.lost) then { s2 with ch := s2.ch.retire o 3 0x31 } else { s2 with ch := s2.ch.retire o 2 0 }
    | none => { s1 with ch := s1.ch.retire o 2 0 }
  | .failed e cause =>
    let s1 := s.commit e
    match o.bar with
    | some b =>
      let s2 := s1.creditOp o b (some cause)
      { s2 with ch := s2.ch.retire o 3 cause }
    | none => { s1 with ch := s1.ch.retire o 3 cause }
  | .late e t =>
    let s1 := s.commit e
    match o.bar with
    | some b =>
      let s2 := s1.creditOp o b none
      { s2 with ch := s2.ch.lateFault o t }
    | none => { s1 with ch := s1.ch.lateFault o t }
  | .fault e t => (s.commit e).trapTo (e.chip.retract o) o.pos o.cl t
  | .notYet e => s.commit e

/-- Bytes of the operation written so far, for the credit of its barrier (R127, R397). -/
def Chip.wrote (c : Chip) (o : Op) (n : Nat) : Chip := c.modOp o.id fun x => { x with credited := n }

/-- Discard of a held operation (R106): performed with no further effect; token and barrier learn of the error. -/
def State.discard (s : State) (o : Op) (cause : BitVec 8) : State :=
  let clear (c : Chip) : Chip := c.modStrand o.pos fun σ => match o.od with
    | some d => σ.modCl o.cl fun k => k.modStream (odStream d) fun x => { x with held := false }
    | none => σ
  match o.bar with
  | some b =>
    let v := Bar.read s.mem b.phys
    s.commit { chip := clear ((s.ch.correct [(b.phys, 16)] []).retire o 3 cause),
               writes := if s.sameBarrier b.phys o.id then [(b.phys, { v with error := true }.bytes)] else [] }
  | none => { s with ch := clear (s.ch.retire o 3 cause) }

end Sys2Proof.Machine
end

