-- ==== Sys2Proof/Machine/Peer.lean ====
section
/-! DEFINITION. Requests to peer packages: reachability, delivery contexts at the sender (R65, R66, R415), and the access
counters of migrate-on-count pages (R82). -/

namespace Sys2Proof.Machine

/-- A peer this package can reach: it has a number and its active routing table leads to the peer (R66, R413, R414). -/
def Chip.reachable (c : Chip) (pkg : BitVec 12) : Bool :=
  c.plat.pkgNum.isSome && c.plat.routes.any fun r => r.1 == pkg

/-- The open sending context for a peer and a pod job. -/
def Chip.ctx? (c : Chip) (pkg : BitVec 12) (pod : BitVec 32) : Option Ctx :=
  c.plat.ctxs.find? fun x => x.sender && x.pkg == pkg && x.pod == pod && !x.closing && !x.closed

/-- The epoch of the next context to a peer: one above the last (R415). -/
def Chip.nextEpoch (c : Chip) (pkg : BitVec 12) : BitVec 32 :=
  (c.plat.ctxs.filter fun x => x.sender && x.pkg == pkg).foldl (fun e x => if e.toNat < x.epoch.toNat then x.epoch else e) 0 + 1

/-- Room for a request: a context is open, or one can be opened once the one before it is closed (R415). -/
def Chip.ctxRoom (c : Chip) (pkg : BitVec 12) (pod : BitVec 32) : Bool :=
  (c.ctx? pkg pod).isSome || !(c.plat.ctxs.any fun x => x.sender && x.pkg == pkg && x.pod == pod && x.closing && !x.closed) &&
    decide ((c.plat.ctxs.filter fun x => !x.closed).length < 4096)

/-- A request of a job, or of dispatch, leaves in its context, with the next sequence number, which is 1 for the first (R415). -/
def Chip.sendPacket (c : Chip) (pkg : BitVec 12) (req : PeerReq) (job : Option (BitVec 64)) : Chip :=
  let go (x : Ctx) : Ctx := { x with next := x.next + 1, window := x.window ++ [(x.next, req, c.cycle, 0)] }
  match c.ctx? pkg req.pod with
  | some x =>
    let ctxs := c.plat.ctxs.map fun y => if y.id == x.id then go y else y
    { c with plat := { c.plat with ctxs := ctxs }, out := c.out ++ [.packet pkg x.epoch x.next c.plat.generation req] }
  | none =>
    let x : Ctx := { id := c.nextId, pkg := pkg, pod := req.pod, job := job, sender := true, epoch := c.nextEpoch pkg, next := 1, window := [],
                     ackAt := c.cycle, closing := false, closeAt := 0, closed := false }
    { c with nextId := c.nextId + 1, plat := { c.plat with ctxs := go x :: c.plat.ctxs },
             out := c.out ++ [.packet pkg x.epoch 1 c.plat.generation req] }

/-- Count one request of up to 64 bytes to a remote migrate-on-count page: the counter becomes the newest of 8,192; at the
job's threshold it is cleared and a curator is to ask the home for the page (R82; phase 0 until it has a frame, R83). While the answer is
awaited nothing is counted (R83). -/
def Chip.countRequest (c : Chip) (job : BitVec 64) (va : Nat) (pkg : BitVec 12) : Chip :=
  let page := va / 65536
  let n := ((c.xl.counters.find? fun k => k.job == job && k.page == page).map (·.count)).getD 0 + 1
  let rest := c.xl.counters.filter fun k => !(k.job == job && k.page == page)
  let thr := ((c.job? job).map (·.migThr)).getD 65536
  let pod := ((c.job? job).map (·.pod)).getD 0
  let asks : Motion := { asr := 0, job := job, pod := pod, va := page * 65536, size := 0, leafAt := 0, dst := 0, phase := 0, asHome := false,
                         pkg := pkg }
  if c.xl.motions.any (fun m => !m.asHome && m.job == job && m.va / 65536 == page) then c
  else if thr ≤ n then
    { c with xl := { c.xl with counters := { job := job, page := page, count := 0 } :: rest.take 8191, motions := asks :: c.xl.motions } }
  else { c with xl := { c.xl with counters := { job := job, page := page, count := n } :: rest.take 8191 } }

/-- An operation sends one request of at most 64 bytes to a peer; the answer comes back by PEER_RESPONSE. -/
def Chip.request (c : Chip) (o : Op) (g : Seg) (kind : PeerKind) (part : Nat) : Chip :=
  match g.peer with
  | none => c
  | some pkg =>
    let req : PeerReq := { pkg := c.plat.pkgNum.getD 0, pod := ((c.job? o.job).map (·.pod)).getD 0, va := BitVec.ofNat 56 g.va,
                           scope := BitVec.ofNat 3 ((o.od.map odScope).getD 0), kind := kind }
    let c1 := c.sendPacket pkg req (some o.job)
    let e : Egress := { op := o.id, job := o.job, quad := quadOfPos o.pos, pkg := pkg, req := req, part := part, answered := false }
    let c2 := { c1 with xl := { c1.xl with egress := c1.xl.egress ++ [e] } }
    let c3 := if g.mode = 3 then c2.countRequest o.job g.va pkg else c2
    c3.modOp o.id fun x => { x with status := .sent }

/-- The pod job of an operation. -/
def Chip.podOf (c : Chip) (o : Op) : BitVec 32 := ((c.job? o.job).map (·.pod)).getD 0

/-- The parts of at most 64 bytes, none crossing a 64-byte boundary, that a run is sent in (R65, R82). -/
def partsOf : Nat → Nat → Nat → List (Nat × Nat)
  | 0, _, _ => []
  | fuel + 1, va, len =>
    if len = 0 then []
    else
      let n := min len (64 - va % 64)
      (va, n) :: partsOf fuel (va + n) (len - n)

end Sys2Proof.Machine
end

