-- ==== Sys2Proof/Machine/Memory.lean ====
section
/-! DEFINITION. Loads, stores and atomics of the C cluster (R271 to R282, R39 to R41, R120 to R124): their issue, and what each
does when it is performed. -/

namespace Sys2Proof.Machine

/-! Forms. -/

/-- The qualifiers of `bld` and `bst` (R39, R229). -/
inductive Qual where
  | plain | full | fullSwap
deriving DecidableEq, Repr

def qualOf (f : BitVec 2) : Qual :=
  match f.toNat with
  | 0 => .plain
  | 1 => .full
  | _ => .fullSwap

/-- What a C memory operation does when performed: a load of `w` bytes into an s register, a store of `w` bytes, or an
atomic (R229's op4; the destination register when it returns the old value). -/
inductive CForm where
  | load (t : Nat) (w : Nat) (sgn : Bool) (q : Qual)
  | store (w : Nat) (q : Qual)
  | atomic (op : Nat) (wide : Bool) (d : Option Nat)
deriving DecidableEq, Repr

def cForm : Instr → Option CForm
  | .ldI8 t _ _ _ => some (.load t.toNat 1 true .plain)
  | .ldN8 t _ _ _ => some (.load t.toNat 1 false .plain)
  | .ldI16 t _ _ _ => some (.load t.toNat 2 true .plain)
  | .ldN16 t _ _ _ => some (.load t.toNat 2 false .plain)
  | .ldI32 t _ _ _ => some (.load t.toNat 4 true .plain)
  | .ldN32 t _ _ _ => some (.load t.toNat 4 false .plain)
  | .ld64 t _ _ _ => some (.load t.toNat 8 false .plain)
  | .st8 .. => some (.store 1 .plain)
  | .st16 .. => some (.store 2 .plain)
  | .st32 .. => some (.store 4 .plain)
  | .st64 .. => some (.store 8 .plain)
  | .sld t _ _ _ => some (.load t.toNat 8 false .plain)
  | .sst .. => some (.store 8 .plain)
  | .bld t _ _ f _ => some (.load t.toNat 8 false (qualOf f))
  | .bst _ _ _ f _ => some (.store 8 (qualOf f))
  | .aadd d _ _ z _ => some (.atomic 0 (z == 1) (some d.toNat))
  | .aand d _ _ z _ => some (.atomic 1 (z == 1) (some d.toNat))
  | .aor d _ _ z _ => some (.atomic 2 (z == 1) (some d.toNat))
  | .axor d _ _ z _ => some (.atomic 3 (z == 1) (some d.toNat))
  | .aswp d _ _ z _ => some (.atomic 4 (z == 1) (some d.toNat))
  | .amin d _ _ z _ => some (.atomic 5 (z == 1) (some d.toNat))
  | .amax d _ _ z _ => some (.atomic 6 (z == 1) (some d.toNat))
  | .aminn d _ _ z _ => some (.atomic 7 (z == 1) (some d.toNat))
  | .amaxn d _ _ z _ => some (.atomic 8 (z == 1) (some d.toNat))
  | .afadd d _ _ z _ => some (.atomic 9 (z == 1) (some d.toNat))
  | .afmax d _ _ z _ => some (.atomic 10 (z == 1) (some d.toNat))
  | .afmin d _ _ z _ => some (.atomic 11 (z == 1) (some d.toNat))
  | .acas d _ _ z _ => some (.atomic 12 (z == 1) (some d.toNat))
  | .ared _ _ o z _ => some (.atomic o.toNat (z == 1) none)
  | _ => none

/-- A loaded value, extended (R274). -/
def extend (w : Nat) (sgn : Bool) (v : Nat) : Reg :=
  if sgn then BitVec.ofInt 64 (signed (8 * w) v) else BitVec.ofNat 64 v

/-- The value an atomic writes, or none (R121). -/
def atomicNew (op : Nat) (wide : Bool) (old v cmp : Nat) : Option Nat :=
  let w := if wide then 64 else 32
  let a := old % 2 ^ w
  let b := v % 2 ^ w
  match op with
  | 0 => some ((a + b) % 2 ^ w)
  | 1 => some (a &&& b)
  | 2 => some (a ||| b)
  | 3 => some (a ^^^ b)
  | 4 => some b
  | 5 => some (if signed w a ≤ signed w b then a else b)
  | 6 => some (if signed w a ≤ signed w b then b else a)
  | 7 => some (min a b)
  | 8 => some (max a b)
  | 9 => some (f32Add a b)
  | 10 => some (maxNum fF32 a b)
  | 11 => some (minNum fF32 a b)
  | _ => if a = cmp % 2 ^ w then some b else none

/-- The value an atomic with return writes to d (R121, R281). -/
def atomicRet (op : Nat) (wide : Bool) (old : Nat) : Reg :=
  if wide then BitVec.ofNat 64 old else extend 4 (decide (op < 7 ∨ op = 12)) (old % 2 ^ 32)

/-! Issue. -/

/-- The issue of a C memory operation of `n` bytes at base + off (R271). -/
def cMemory (s : State) (i : Instr) (srcs : List (BitVec 5)) (dest : List RegName) (base : BitVec 5) (off : Int) (n : Nat)
    (allow : Allow) (acc : Access) (od : BitVec 3) (vals : Strand → List Reg) : Host.Outcome State Fault Refusal :=
  issue s (.s base.toNat :: srcs.map fun r => .s r.toNat) fun σ =>
    s.onChk σ .c (σ.odOf .c od.toNat) (s.footprint σ allow acc (σ.getS base.toNat) off (off + n - 1) n []) fun f =>
      if s.ch.moving f.loc.segs then .stall s.ch
      else
        s.launchOp σ { s.opOf σ i (σ.odOf .c od.toNat) with vals := vals σ, locs := [f.loc], dest := dest } f.leaves

def globalOnly : Allow := { global := true }
def benchOnly : Allow := { bench := true }
def ownColumn : Allow := { stratumOwn := true }
def atomicSpaces : Allow := { global := true, bench := true, stratumOwn := true }

/-- A load: it awaits its base and makes t await its value (R96, R272). -/
def load (s : State) (i : Instr) (t b : BitVec 5) (off : Int) (n : Nat) (allow : Allow) (od : BitVec 3) :=
  cMemory s i [] [.s t.toNat] b off n allow .load od fun _ => []

/-- A store: its data is read at issue (R272). -/
def store (s : State) (i : Instr) (t b : BitVec 5) (off : Int) (n : Nat) (allow : Allow) (od : BitVec 3) :=
  cMemory s i [t] [] b off n allow .store od fun σ => [σ.getS t.toNat]

def execLdI8 (t b : BitVec 5) (o : BitVec 11) (d : BitVec 3) (s : State) := load s (.ldI8 t b o d) t b o.toInt 1 globalOnly d
def execLdN8 (t b : BitVec 5) (o : BitVec 11) (d : BitVec 3) (s : State) := load s (.ldN8 t b o d) t b o.toInt 1 globalOnly d
def execLdI16 (t b : BitVec 5) (o : BitVec 11) (d : BitVec 3) (s : State) :=
  load s (.ldI16 t b o d) t b (2 * o.toInt) 2 globalOnly d
def execLdN16 (t b : BitVec 5) (o : BitVec 11) (d : BitVec 3) (s : State) :=
  load s (.ldN16 t b o d) t b (2 * o.toInt) 2 globalOnly d
def execLdI32 (t b : BitVec 5) (o : BitVec 11) (d : BitVec 3) (s : State) :=
  load s (.ldI32 t b o d) t b (4 * o.toInt) 4 globalOnly d
def execLdN32 (t b : BitVec 5) (o : BitVec 11) (d : BitVec 3) (s : State) :=
  load s (.ldN32 t b o d) t b (4 * o.toInt) 4 globalOnly d
def execLd64 (t b : BitVec 5) (o : BitVec 11) (d : BitVec 3) (s : State) :=
  load s (.ld64 t b o d) t b (8 * o.toInt) 8 globalOnly d
def execSt8 (t b : BitVec 5) (o : BitVec 11) (d : BitVec 3) (s : State) := store s (.st8 t b o d) t b o.toInt 1 globalOnly d
def execSt16 (t b : BitVec 5) (o : BitVec 11) (d : BitVec 3) (s : State) :=
  store s (.st16 t b o d) t b (2 * o.toInt) 2 globalOnly d
def execSt32 (t b : BitVec 5) (o : BitVec 11) (d : BitVec 3) (s : State) :=
  store s (.st32 t b o d) t b (4 * o.toInt) 4 globalOnly d
def execSt64 (t b : BitVec 5) (o : BitVec 11) (d : BitVec 3) (s : State) :=
  store s (.st64 t b o d) t b (8 * o.toInt) 8 globalOnly d
def execSld (t b : BitVec 5) (o : BitVec 11) (d : BitVec 3) (s : State) :=
  load s (.sld t b o d) t b (8 * o.toInt) 8 ownColumn d
def execSst (t b : BitVec 5) (o : BitVec 11) (d : BitVec 3) (s : State) :=
  store s (.sst t b o d) t b (8 * o.toInt) 8 ownColumn d
def execBld (t b : BitVec 5) (o : BitVec 9) (f : BitVec 2) (d : BitVec 3) (s : State) :=
  load s (.bld t b o f d) t b (8 * o.toInt) 8 benchOnly d
def execBst (t b : BitVec 5) (o : BitVec 9) (f : BitVec 2) (d : BitVec 3) (s : State) :=
  store s (.bst t b o f d) t b (8 * o.toInt) 8 benchOnly d

/-- An atomic (R280 to R282): v, and the comparand of `acas` from d, are read at issue; a floating-point operation of 64 bits
is illegal. -/
def atomic (s : State) (i : Instr) (op : Nat) (d : Option (BitVec 5)) (a v : BitVec 5) (z : BitVec 2) (p : BitVec 3) :
    Host.Outcome State Fault Refusal :=
  if 9 ≤ op ∧ op ≤ 11 ∧ z = 1 then issue s [] fun _ => faulty 0x02
  else
    cMemory s i (v :: (if op = 12 then d.toList else [])) (d.toList.map fun r => .s r.toNat) a 0 (if z = 1 then 8 else 4) atomicSpaces
      .atomic p fun σ => [σ.getS v.toNat, (d.map fun r => σ.getS r.toNat).getD 0]

def execAadd (d a v : BitVec 5) (z : BitVec 2) (p : BitVec 3) (s : State) := atomic s (.aadd d a v z p) 0 (some d) a v z p
def execAand (d a v : BitVec 5) (z : BitVec 2) (p : BitVec 3) (s : State) := atomic s (.aand d a v z p) 1 (some d) a v z p
def execAor (d a v : BitVec 5) (z : BitVec 2) (p : BitVec 3) (s : State) := atomic s (.aor d a v z p) 2 (some d) a v z p
def execAxor (d a v : BitVec 5) (z : BitVec 2) (p : BitVec 3) (s : State) := atomic s (.axor d a v z p) 3 (some d) a v z p
def execAswp (d a v : BitVec 5) (z : BitVec 2) (p : BitVec 3) (s : State) := atomic s (.aswp d a v z p) 4 (some d) a v z p
def execAmin (d a v : BitVec 5) (z : BitVec 2) (p : BitVec 3) (s : State) := atomic s (.amin d a v z p) 5 (some d) a v z p
def execAmax (d a v : BitVec 5) (z : BitVec 2) (p : BitVec 3) (s : State) := atomic s (.amax d a v z p) 6 (some d) a v z p
def execAminn (d a v : BitVec 5) (z : BitVec 2) (p : BitVec 3) (s : State) := atomic s (.aminn d a v z p) 7 (some d) a v z p
def execAmaxn (d a v : BitVec 5) (z : BitVec 2) (p : BitVec 3) (s : State) := atomic s (.amaxn d a v z p) 8 (some d) a v z p
def execAfadd (d a v : BitVec 5) (z : BitVec 2) (p : BitVec 3) (s : State) := atomic s (.afadd d a v z p) 9 (some d) a v z p
def execAfmax (d a v : BitVec 5) (z : BitVec 2) (p : BitVec 3) (s : State) := atomic s (.afmax d a v z p) 10 (some d) a v z p
def execAfmin (d a v : BitVec 5) (z : BitVec 2) (p : BitVec 3) (s : State) := atomic s (.afmin d a v z p) 11 (some d) a v z p
def execAcas (d a v : BitVec 5) (z : BitVec 2) (p : BitVec 3) (s : State) := atomic s (.acas d a v z p) 12 (some d) a v z p
def execAred (a v : BitVec 5) (o : BitVec 4) (z : BitVec 2) (p : BitVec 3) (s : State) :=
  atomic s (.ared a v o z p) o.toNat none a v z p

/-! Performing. -/

/-- A register takes the value of the operation it awaits; one written meanwhile keeps its value. -/
def Chip.bindS (c : Chip) (o : Op) (n : Nat) (v : Reg) : Chip :=
  c.bind o fun σ => if σ.busy.any (fun b => b.reg == .s n && b.op == o.id) then σ.setS n v else σ

/-- The scope an operation names (R91). -/
def Op.scope (o : Op) : Nat := (o.od.map odScope).getD 0

/-- A race or mark error of a run as a precise fault: the window offset of the granule, and MMX (R140, R51, R396). -/
def markFault (o : Op) (g : Seg) (b : MarkBad) : TrapReq :=
  match b with
  | .race m => { cause := 0x18, value := BitVec.ofNat 64 (m.granule * 64 + g.va - g.phys), mmx := mmxWord (agentOf o.pos o.cl) m }
  | .word n => { cause := 0x38, value := BitVec.ofNat 64 (n * 64 + g.va - g.phys) }

/-- How the agent of an operation is checked at a run (R136, R141). -/
def Op.check (o : Op) (g : Seg) : Check := Check.of (quadOfPos o.pos) (agentOf o.pos o.cl) o.vec g.phys

/-- The run of a C operation. -/
def Op.run (o : Op) : Seg :=
  match o.locs with
  | l :: _ => l.segs.headD { phys := 0, len := 0, va := 0, peer := none, mode := 0, cmp := false, page := 0, size := 0 }
  | [] => { phys := 0, len := 0, va := 0, peer := none, mode := 0, cmp := false, page := 0, size := 0 }

/-- A load's bytes are bound. -/
def finishLoad (c : Chip) (o : Op) (t w : Nat) (sgn : Bool) (bs : List Byte) : Eff :=
  Eff.quiet (c.bindS o t (extend w sgn (leNat bs)))

/-- A precise 0x38 or 0x31 at a run. -/
def badFault (g : Seg) (b : Bad) : TrapReq := { cause := b.cause, value := BitVec.ofNat 64 (b.addr + g.va - g.phys) }

/-- A word that cannot be read ends an access; what else it reads and can be corrected is corrected first, and the access is tried
again after the freeze (R51). -/
def State.faultAfter (s : State) (g : Seg) (gs : List Nat) (t : TrapReq) : Perf :=
  if (s.ch.side.correctable (g.reads s.mem) gs).isEmpty && !s.ch.freezeDue g then .fault (Eff.quiet s.ch) t
  else .notYet (Eff.quiet (s.corrected g gs))

/-- How a C access of the bench or of the general stratum is checked: one with a qualifier is not (R41, R139). -/
def Op.checkAs (o : Op) (q : Qual) (g : Seg) : Check := if q = .plain then o.check g else .exempt

/-- A plain load or store of tracked memory or of local global memory, and of the bench under a qualifier whose condition
holds: one indivisible cycle of the bank (R35, R39, R139). -/
def performLoad (s : State) (o : Op) (t w : Nat) (sgn : Bool) (q : Qual) : Perf :=
  let g := o.run
  let k := o.checkAs q g
  let gs := k.consults g.phys g.len
  match s.ch.side.checkRun k g.phys g.len with
  | some b => s.faultAfter g gs (markFault o g b)
  | none =>
    if g.size = 0 then
      match readHome s g with
      | .error b => s.faultAfter g gs (badFault g b)
      | .ok bs =>
        let c1 := s.corrected g gs
        let c2 := if q = .fullSwap then { c1 with side := c1.side.setFull (g.phys / 16) false } else c1
        .done (finishLoad c2 o t w sgn bs)
    else
      match loadCached s (quadOfPos o.pos) o.job o.scope g with
      | .error b => s.faultAfter g gs (badFault g b)
      | .ok (bs, c1) => .done (finishLoad c1 o t w sgn bs)

/-- A store is held where a page of local global memory does not let it be made: a word it would write in part is uncorrectable, or a
block's code is reserved (R88, R275). -/
def performStore (s : State) (o : Op) (w : Nat) (q : Qual) : Perf :=
  let g := o.run
  let bs := leBytes w (nth 0 o.vals 0).toNat
  let k := o.checkAs q g
  let gs := k.consults g.phys g.len
  match s.ch.side.checkRun k g.phys g.len with
  | some b => s.faultAfter g gs (markFault o g b)
  | none =>
    match writeHome s g bs with
    | .error b => if g.size ≠ 0 then .late (Eff.quiet s.ch) (badFault g b) else s.faultAfter g gs (badFault g b)
    | .ok ws =>
      let c := s.stored (quadOfPos o.pos) k g bs ws
      .done { chip := if q = .plain then c else { c with side := c.side.setFull (g.phys / 16) true }, writes := ws }

/-! Queue descriptors, and the tickets of device-fed queues (R195, R196, R366). -/

/-- Fields of a byte string. -/
def field (bs : List Byte) (lo n : Nat) : Nat := leNat ((bs.drop lo).take n)

/-- The root an address-space record names, when the record is well formed (R366). -/
def asrRoot (mem : List Host.Cell) (asr : Nat) : Option Nat :=
  let root := memNat mem asr 8
  if asr % 64 = 0 ∧ dpaOk asr ∧ root % 4096 = 0 ∧ dpaOk root ∧ memNat mem (asr + 8) 56 = 0 then some root else none

/-- A queue that nothing has written. -/
def Queue.fresh (q : Nat) : Queue :=
  { q := q, desc := List.replicate 64 0, tail := 0, takenN := 0, doneN := 0, jobs := 0, err := false, stop := 0, open_ := [],
    since := none, takers := [] }

def Chip.queue (c : Chip) (q : Nat) : Queue := (c.queues.find? fun x => x.q == q).getD (Queue.fresh q)

def Chip.modQueue (c : Chip) (q : Nat) (f : Queue → Queue) : Chip :=
  if c.queues.any (fun x => x.q == q) then { c with queues := c.queues.map fun x => if x.q == q then f x else x }
  else { c with queues := f (Queue.fresh q) :: c.queues }

/-- Fields of a descriptor (R366). -/
def Queue.ring (x : Queue) : Nat := field x.desc 0 8
def Queue.asr (x : Queue) : Nat := field x.desc 8 8
def Queue.size (x : Queue) : Nat := field x.desc 16 4
def Queue.ctl (x : Queue) : Nat := field x.desc 20 1
def Queue.cpl (x : Queue) : Nat := field x.desc 24 8
def Queue.ctrl (x : Queue) : Nat := field x.desc 32 8
def Queue.enabled (x : Queue) : Bool := x.ctl.testBit 0
def Queue.devsub (x : Queue) : Bool := x.ctl.testBit 1
def Queue.prio (x : Queue) : Nat := bits x.ctl 2 2

/-- Where the control record of a device-fed queue stands in this package's memory. -/
def State.ctrlAt (s : State) (x : Queue) : Option Nat :=
  if x.enabled && x.devsub then
    match (asrRoot s.mem x.asr).map (walkFrom s.ch.side s.mem x.ctrl 3) with
    | some (.ok p) => if leafPeer p.leaf = 0xFFF then some (leafFrame p.leaf + (x.ctrl - p.page)) else none
    | _ => none
  else none

/-- An atomic of a job that advances RESERVE of a device-fed queue takes the tickets from the old value up to the new (R195). -/
def State.noteTickets (s : State) (c : Chip) (g : Seg) (old new : Nat) (job : BitVec 64) : Chip :=
  if g.len = 8 ∧ old < new then
    { c with queues := c.queues.map fun x =>
        if s.ctrlAt x = some g.phys then { x with takers := x.takers ++ [(old, new - old, job)] } else x }
  else c

/-- An atomic: its read and its write in one indivisible step, race-exempt (R120 to R123). -/
def performAtomic (s : State) (o : Op) (op : Nat) (wide : Bool) (d : Option Nat) : Perf :=
  let g := o.run
  match readHome s g with
  | .error b => s.faultAfter g [] (badFault g b)
  | .ok old =>
    let v := leNat old
    let c1 := s.corrected g []
    let c2 := match d with
      | some n => c1.bindS o n (atomicRet op wide v)
      | none => c1
    match atomicNew op wide v (nth 0 o.vals 0).toNat (nth 0 o.vals 1).toNat with
    | none => .done (Eff.quiet c2)
    | some new =>
      let bs := leBytes g.len new
      match writeHome s g bs with
      | .error b => s.faultAfter g [] (badFault g b)
      | .ok ws => .done { chip := s.noteTickets (c2.storeCached (quadOfPos o.pos) g bs) g v new o.job, writes := ws }

/-- The forms that wait on the bit (R39): `bld.wf`, `bld.wfc` and `bst.wesf`. -/
def waitsOnBit (isLoad : Bool) (q : Qual) : Bool :=
  match q with
  | .plain => false
  | .full => isLoad
  | .fullSwap => true

/-- An operation waits on the bit in the same sense: for full, or for empty. -/
def opWaits (isLoad : Bool) (p : Op) : Bool :=
  match cForm p.instr with
  | some (.load _ _ _ q) => isLoad && waitsOnBit true q
  | some (.store _ q) => !isLoad && waitsOnBit false q
  | _ => false

/-- The core whose storage the run of a C operation lies in, and the bench port it comes through (R34). -/
def Op.port (o : Op) : Nat := portOf false o.pos o.cl ((ownerCore o.run.phys).getD 0)

/-- Whether a qualified access may be performed (R39, R40, R278): the bit is as it waits for and has not changed in this cycle; of the
accesses that wait on the granule through its port it began first, and its port's turn comes before the others' (R34). An access that a
trap has recorded, or whose core is in a freeze, does not ask. -/
def qualReady (c : Chip) (o : Op) (isLoad : Bool) (q : Qual) : Bool :=
  let gr := o.run.phys / 16
  if !waitsOnBit isLoad q then true
  else c.side.isFull gr == isLoad && !c.side.fresh.contains gr && c.ops.all fun p =>
    p.id == o.id || p.progress == 0 || p.status == .waiting || c.corrHolds (coreOf p.pos) || p.run.phys / 16 != gr
      || !opWaits isLoad p
      || (if p.port = o.port then decide (o.progress ≠ 0 ∧ o.progress < p.progress) else !c.side.servesFirst (bankOf gr) p.port o.port)

/-- The access begins to wait, or keeps waiting (R40). -/
def beginWait (c : Chip) (o : Op) : Perf :=
  if o.progress = 0 then
    .notYet (Eff.quiet { (c.modOp o.id fun x => { x with progress := c.nextId + 1 }) with nextId := c.nextId + 1 })
  else .notYet (Eff.quiet c)

/-- The request a C operation sends to a peer home (R65). -/
def cPeerKind (o : Op) (f : CForm) : PeerKind :=
  match f with
  | .load _ w _ _ => .load w
  | .store w _ => .store (leBytes w (nth 0 o.vals 0).toNat)
  | .atomic op wide d => .atomic (BitVec.ofNat 4 op) wide (nth 0 o.vals 0) (nth 0 o.vals 1) d.isSome

/-- The pointer an operation used first (R22). -/
def Op.ptr (o : Op) : Reg := (o.locs.head?.map Loc.ptr).getD 0

/-- The cause of the late fault of an access that returns nothing and that its home refuses: the home's 0x31 and 0x38, and 0x11 for a
refusal (R58, R65). -/
def heldCause (cause : BitVec 8) : BitVec 8 := if cause = 0x31 ∨ cause = 0x38 then cause else 0x11

/-- The end of a C operation at a peer that failed with a cause: precise for what returns a value, held otherwise (R65). -/
def cPeerFail (c : Chip) (o : Op) (f : CForm) (cause qual : BitVec 8) : Perf :=
  match f with
  | .store .. => .late (Eff.quiet c) { cause := heldCause cause, value := o.ptr }
  | .atomic _ _ none => .late (Eff.quiet c) { cause := heldCause cause, value := o.ptr }
  | _ => .fault (Eff.quiet c) { cause := cause, step := if cause = 0x31 ∨ cause = 0x38 then 0 else 7, qual := qual, value := o.ptr }

/-- The run of a cached-read page that is fetched: whole sectors (R64, R67). -/
def sectorRun (g : Seg) : Seg := { g with va := g.va / 32 * 32, len := 32 }

/-- A C operation at a peer home: a cached-read load may hit in the quad cache, whose line it uses (R64, R67, R68); otherwise a request is sent when a
context has room, and the answer ends the operation (R65, R415). -/
def performAtPeer (s : State) (o : Op) (f : CForm) (pkg : BitVec 12) : Perf :=
  let g := o.run
  let hit := match f with
    | .load .. => if g.mayHit o.scope then s.ch.sector? (quadOfPos o.pos) o.job (some pkg) (g.va / 32) else none
    | _ => none
  match f, hit with
  | .load t w sgn _, some v =>
    let c := s.ch.fillSector (quadOfPos o.pos) o.job (some pkg) (g.va / 32) g.va v
    .done (finishLoad c o t w sgn (((leBytes 32 v.toNat).drop (g.va % 32)).take w))
  | _, _ =>
    if o.status = .sent then .notYet (Eff.quiet s.ch)
    else if !s.ch.reachable pkg then cPeerFail s.ch o f 0x31 0
    else if !s.ch.ctxRoom pkg (s.ch.podOf o) then .notYet (Eff.quiet s.ch)
    else if g.cacheable then .notYet (Eff.quiet (s.ch.request o (sectorRun g) (.load 32) 0))
    else .notYet (Eff.quiet (s.ch.request o g (cPeerKind o f) 0))

/-- An attempt to perform a C memory operation. -/
def performC (s : State) (o : Op) (f : CForm) : Perf :=
  match o.run.peer with
  | some pkg => performAtPeer s o f pkg
  | none =>
    match f with
    | .load t w sgn q => if qualReady s.ch o true q then performLoad s o t w sgn q else beginWait s.ch o
    | .store w q => if qualReady s.ch o false q then performStore s o w q else beginWait s.ch o
    | .atomic op wide d => performAtomic s o op wide d

/-- The answer of the home (R65): the loaded bytes or the old value, with the sector of a cached-read page kept where the load may hit
there, and refreshed where it is valid (R68). -/
def answerC (s : State) (o : Op) (f : CForm) (err : BitVec 8) (qual : BitVec 8) (data : List Byte) : Perf :=
  let g := o.run
  if err ≠ 0 then cPeerFail s.ch o f err qual
  else match f with
    | .load t w sgn _ =>
      if g.cacheable then
        let c1 := s.ch.keepSector (quadOfPos o.pos) o.job g o.scope (g.va / 32) (BitVec.ofNat 256 (leNat data))
        .done (finishLoad c1 o t w sgn ((data.drop (g.va % 32)).take w))
      else .done (finishLoad s.ch o t w sgn data)
    | .store .. => .done (Eff.quiet s.ch)
    | .atomic op wide (some n) => .done (Eff.quiet (s.ch.bindS o n (atomicRet op wide (leNat data))))
    | .atomic _ _ none => .done (Eff.quiet s.ch)

end Sys2Proof.Machine
end

