-- ==== Sys2Proof/Machine/Chain.lean ====
section
/-! DEFINITION. Stream bindings: iterator records (R160), chains (R162), the entries of a stream and the expansion of a packed one
(R153, R155, R161, R163, R301, R304). -/

namespace Sys2Proof.Machine

/-! Iterator records (R160). -/

def iterBase (r : BitVec 512) : Reg := r.setWidth 64
def iterType (r : BitVec 512) : Nat := bits r.toNat 64 4
def iterLog (r : BitVec 512) : Nat := bits r.toNat 72 8
def iterDims (r : BitVec 512) : Nat := bits r.toNat 80 8
def iterCount (r : BitVec 512) (k : Nat) : Nat := bits r.toNat (128 + 96 * k) 32
def iterStride (r : BitVec 512) (k : Nat) : Int := signed 64 (bits r.toNat (160 + 96 * k) 64)

/-- A record that `itld` accepts (R298). -/
def iterOk (r : BitVec 512) : Bool :=
  let n := r.toNat
  decide (bits n 64 8 < 14 ∧ iterLog r ≤ 6 ∧ 1 ≤ iterDims r ∧ iterDims r ≤ 4) && bits n 88 40 == 0 &&
    (List.range 4).all fun k =>
      if k < iterDims r then iterCount r k != 0 else iterCount r k == 0 && iterStride r k == 0

/-- A record with `n` bits at `lo` replaced. -/
def putBits (r : BitVec 512) (lo n v : Nat) : BitVec 512 :=
  BitVec.ofNat 512 (r.toNat - bits r.toNat lo n * 2 ^ lo + v % 2 ^ n * 2 ^ lo)

/-- The number of elements, and the offset of element `e` from BASE, dimension 0 fastest (R160). -/
def iterTotal (r : BitVec 512) : Nat := (List.range (iterDims r)).foldl (fun n k => n * iterCount r k) 1

def iterOff (r : BitVec 512) (e : Nat) : Int :=
  ((List.range (iterDims r)).foldl (fun (x : Nat × Int) k =>
    (x.1 / iterCount r k, x.2 + ((x.1 % iterCount r k : Nat) : Int) * iterStride r k)) (e, 0)).2

/-- The lowest and highest byte of the whole range, from BASE (R300). -/
def iterRange (r : BitVec 512) : Int × Int :=
  let ends := (List.range (iterDims r)).map fun k => ((iterCount r k : Int) - 1) * iterStride r k
  (ends.foldl (fun a x => a + min x 0) 0, ends.foldl (fun a x => a + max x 0) 0 + (2 ^ iterLog r - 1))

/-- BASE and every stride in use are multiples of min(2^LOGE, 16) (R300). -/
def iterAligned (r : BitVec 512) : Bool :=
  let a := min (2 ^ iterLog r) 16
  (iterBase r).toNat % a == 0 && (List.range (iterDims r)).all fun k => iterStride r k % (a : Int) == 0

/-! Chains (R162). -/

/-- A step: operation, type code and operand. -/
structure ChainStep where
  op : Nat
  ty : Nat
  arg : Nat
deriving DecidableEq, Repr

def chainWord (c : BitVec 256) (k : Nat) : Nat := bits c.toNat (64 * k) 64
def chainStep (c : BitVec 256) (k : Nat) : ChainStep :=
  let w := chainWord c k
  { op := bits w 56 8, ty := bits w 52 4, arg := bits w 0 32 }

/-- The steps before the end. -/
def chainSteps (c : BitVec 256) : List ChainStep := ((List.range 4).map (chainStep c)).takeWhile fun x => x.op != 0

/-- The steps are legal one after the other for an element of type `t` (R162). -/
def stepsOk : List ChainStep → Nat → Nat → Bool
  | [], _, _ => true
  | x :: xs, k, t =>
    match x.op with
    | 1 => k == 0 && stepsOk xs (k + 1) t
    | 2 => decide (x.ty < 14) && stepsOk xs (k + 1) x.ty
    | 3 => t == tyF32 && stepsOk xs (k + 1) t
    | 4 => t == tyF32 && stepsOk xs (k + 1) t
    | 5 => t != tyI4 && t != tyTap6 && stepsOk xs (k + 1) t
    | _ => false

def hasExpand (steps : List ChainStep) : Bool := steps.any fun x => x.op == 1

/-- The checks of R162 and of the second row of R300. The declared length of EXPAND is a multiple of 128, as R155 demands (log
entry 22). -/
def chainOk (c : BitVec 256) (rec : BitVec 512) (d : Dir) : Bool :=
  let steps := chainSteps c
  let n := steps.length
  let zeros := (List.range 4).all fun k => bits (chainWord c k) 32 20 == 0 && (decide (k ≤ n) || chainWord c k == 0)
  let t := iterType rec
  let acts := steps.any fun x => x.op != 1
  zeros && stepsOk steps 0 t
    && (!acts || (t != tyI4 && t != tyTap6 && 8 * 2 ^ iterLog rec == tyBits t))
    && (!hasExpand steps || (d == .input && iterLog rec == 0 && steps.all fun x => x.op != 1 || x.arg % 128 == 0))

/-- SCALE and BIAS: f32, RNE, any NaN 0x7FC0_0000; no flag (R162). -/
def chainF32 (op a b : Nat) : Nat :=
  let r := if op = 3 then ((f32Val a).mul (f32Val b)).1 else ((f32Val a).add (f32Val b) false).1
  (fF32.round .rne r).1

/-- RELU by type (R162). -/
def chainRelu (t b : Nat) : Nat :=
  match tyKind t with
  | .sint w => if b.testBit (w - 1) then 0 else b
  | .uint _ => b
  | .float f => match f.decode b with
    | .nan _ => f.nan
    | x => if x.neg? then 0 else b
  | .tap n => match tapDecode n b with
    | .fin true _ _ => 0
    | _ => b

/-- The steps applied to an element of type `t`; its type and bits afterwards. -/
def chainApply : List ChainStep → Nat → Nat → Nat
  | [], _, b => b
  | x :: xs, t, b =>
    match x.op with
    | 1 => chainApply xs t b
    | 2 => chainApply xs x.ty (convert t x.ty .rne b).1
    | 5 => chainApply xs t (chainRelu t b)
    | op => chainApply xs t (chainF32 op b x.arg)

/-- The width in bits of a result (R301): of the last CVT, or of the element. -/
def resultBits (steps : List ChainStep) (rec : BitVec 512) : Nat :=
  match steps.reverse.find? fun x => x.op == 2 with
  | some x => tyBits x.ty
  | none => 8 * 2 ^ iterLog rec

/-- Results in an entry: 512 bits of them, or 64 of tap6 (R301). -/
def perEntry (w : Nat) : Nat := if w = 6 then 64 else 512 / w

/-- The results a binding delivers: elements of the iterator, or bytes of the declared length (R163, R301). -/
def resultTotal (steps : List ChainStep) (rec : BitVec 512) : Nat :=
  match steps.find? fun x => x.op == 1 with
  | some x => x.arg
  | none => iterTotal rec

/-- Results packed into an entry. -/
def packEntry (w : Nat) (vs : List Nat) : BitVec 512 :=
  BitVec.ofNat 512 ((vs.foldl (fun (x : Nat × Nat) v => (x.1 + v * 2 ^ x.2, x.2 + w)) (0, 0)).1)

/-- Entries cut from results. -/
def entriesOf : Nat → Nat → Nat → Nat → List Nat → List (Nat × BitVec 512)
  | 0, _, _, _, _ => []
  | fuel + 1, k, w, per, vs =>
    if vs.isEmpty then [] else (k, packEntry w (vs.take per)) :: entriesOf fuel (k + 1) w per (vs.drop per)

/-- Entry `k` is to be passed over (R304). -/
def Binding.skipped (b : Binding) (k : Nat) : Bool := b.skips.any fun r => decide (r.1 ≤ k ∧ k < r.1 + r.2)

/-- The runs to be passed over that the unit has not left behind. -/
def Binding.pruned (b : Binding) : Binding := { b with skips := b.skips.filter fun r => decide (b.pos < r.1 + r.2) }

/-- Entries join the queue, but for those passed over. -/
def Binding.fill (b : Binding) (es : List (Nat × BitVec 512)) : Binding :=
  ({ b with queue := b.queue ++ es.filter fun e => !b.skipped e.1, pos := b.pos + es.length } : Binding).pruned

/-- The entry at a number, when it stands in the queue. -/
def Binding.entry? (b : Binding) (k : Nat) : Option (BitVec 512) := b.queue.lookup k

/-- A run of entries joins the runs to be passed over: it continues the run before it where it can. -/
def addRun : List (Nat × Nat) → Nat → Nat → List (Nat × Nat)
  | [], first, n => [(first, n)]
  | (a, k) :: rest, first, n => if a + k = first then (a, k + n) :: rest else (a, k) :: addRun rest first n

/-- Entries are passed over: those queued leave, an error met at one is forgotten, the others will be dropped when the unit reaches
them (R304). -/
def Binding.passOver (b : Binding) (first n : Nat) : Binding :=
  if n = 0 then b
  else
    let b2 : Binding :=
      { b with queue := b.queue.filter fun e => !decide (first ≤ e.1 ∧ e.1 < first + n), skips := addRun b.skips first n,
               bad := b.bad.filter fun e => !decide (first ≤ e.1 ∧ e.1 < first + n) }
    b2.pruned

/-- The first entry from `k` on that is not passed over: each run is left at most once. -/
def Binding.landing (b : Binding) (k : Nat) : Nat :=
  b.skips.foldl (fun k _ => match b.skips.find? fun r => decide (r.1 ≤ k ∧ k < r.1 + r.2) with
    | some r => r.1 + r.2
    | none => k) k

/-- A binding whose consumers expand packed bytes (R163). -/
def Binding.expands (b : Binding) : Bool := hasExpand (chainSteps b.chain)

/-- The next block of the packed bytes is expanded (R153, R163): 128 bytes, the later chain steps applied to each. A reserved code, a
nonzero header field, an END before the declared length or none at it, and packed bytes beyond the iterator's are errors at the
entry where they bite (log entry 22); a read error bites when its bytes are needed. `none` while bytes have still to come. -/
def Binding.expand1 (b : Binding) : Option Binding :=
  let steps := chainSteps b.chain
  let w := resultBits steps b.iter
  let fail (k : Nat) (x : BitVec 8 × BitVec 64 × BitVec 64) (b : Binding) : Option Binding := some { b with bad := some (b.landing k, x) }
  let short : Option Binding := match b.stuck with
    | some x => fail b.pos x b
    | none => if iterTotal b.iter ≤ b.bytePos then fail b.pos (0x31, 0, 0) b else none
  if b.bad.isSome ∨ b.total ≤ b.pos then none
  else match b.packed with
    | [] => short
    | hd :: rest =>
      let h := hd.toNat
      match (if bits h 4 3 = 0 then bdiSize (h % 16) else none) with
      | none => fail b.pos (0x31, 0, 0) b
      | some n =>
        if rest.length < n then short
        else
          let bytes := ((bdiExpand (h % 16) (rest.take n)).getD []).map (·.toNat)
          let es := entriesOf 16 b.pos w (perEntry w) (bytes.map (chainApply steps (iterType b.iter)))
          let b2 : Binding := { b.fill es with packed := rest.drop n }
          let last := b2.total - 1
          if h.testBit 7 ∧ b2.pos < b2.total then fail b2.pos (0x31, 0, 0) b2
          else if !h.testBit 7 ∧ b2.total ≤ b2.pos then
            fail last (0x31, 0, 0) { b2 with queue := b2.queue.filter fun e => e.1 != last }
          else some b2

/-- Blocks are expanded until an entry stands in the queue, or none can be; the fuel bounds the packed bytes. -/
def Binding.reach : Nat → Binding → Nat → Binding
  | 0, b, _ => b
  | n + 1, b, k =>
    if !b.expands ∨ (b.entry? k).isSome ∨ k < b.pos then b
    else match b.expand1 with
      | some b2 => Binding.reach n b2 k
      | none => b

/-- The binding once a consumer has asked for entry `k` (R163). -/
def Binding.wanted (b : Binding) (k : Nat) : Binding := b.reach (b.packed.length + 2) k

end Sys2Proof.Machine
end

