-- ==== Sys2Proof/Machine/Engine.lean ====
section
/-! DEFINITION. Engine commands: their prefix, their stream entries and their issue (R109 to R111, R293, R294, R302, R319 to
R322), and the choice an engine makes among the issued ones (R149, R294, R320). -/

namespace Sys2Proof.Machine

/-! Stream registers (R159, R161, R302). -/

def Strand.binding? (σ : Strand) (q : Nat) : Option Binding := nth none σ.gr.q q

def Strand.setBinding (σ : Strand) (q : Nat) (b : Option Binding) : Strand :=
  { σ with gr := { σ.gr with q := setNth none σ.gr.q q b } }

def Chip.modBinding (c : Chip) (pos q : Nat) (f : Binding → Binding) : Chip :=
  c.modStrand pos fun σ => match σ.binding? q with
    | some b => σ.setBinding q (some (f b))
    | none => σ

/-- A consumer of `n` entries takes the next numbers (R302); beyond the last entry there is none to take. -/
def Binding.claim (b : Binding) (n : Nat) : Binding := { b with claimed := min b.total (b.claimed + n) }

/-- The claim a consumer of `n` entries makes of stream `q` as it issues: the stream, the first number and the count; 8 is added
to the stream number where no stream of that direction is bound (R302). -/
def Strand.claimOf (σ : Strand) (q n : Nat) (d : Dir) : Nat × Nat × Nat :=
  match σ.binding? q with
  | some b => if b.dir = d then (q, b.claimed, n) else (q + 8, 0, n)
  | none => (q + 8, 0, n)

/-- The claims of the fields of a command, in field order (R322), and the strand after them. -/
def Strand.claimAll (σ : Strand) : List (Nat × Nat × Dir) → List (Nat × Nat × Nat) × Strand
  | [] => ([], σ)
  | (q, n, d) :: rest =>
    let cl := σ.claimOf q n d
    let σ2 := if cl.1 < 8 then match σ.binding? q with
        | some b => σ.setBinding q (some (b.claim n))
        | none => σ
      else σ
    let (cs, σ3) := σ2.claimAll rest
    (cl :: cs, σ3)

/-- Where the entries a command has taken are kept: by claim and place in the claim. -/
def takenKey (claim i : Nat) : Nat := claim * 2 ^ 32 + i

/-- The entries of claim `j` an operation has taken, in order. -/
def Op.entries (o : Op) (j : Nat) : List (BitVec 512) :=
  (List.range (nth (0, 0, 0) o.claims j).2.2).filterMap fun i => o.taken.lookup (takenKey j i)

/-- How many entries of claim `j` an operation has taken. -/
def Op.takenOf (o : Op) (j : Nat) : Nat := (o.taken.filter fun e => e.1 / 2 ^ 32 == j).length

/-- The bytes of the entries of a claim. -/
def Op.claimBytes (o : Op) (j : Nat) : List Byte := (o.entries j).flatMap fun e => leBytes 64 e.toNat

/-- The direction of claim `j` of an instruction: `spc` pushes through its second and third stream fields, and `vpush` pushes
(R322, R362). -/
def claimDir (i : Instr) (j : Nat) : Dir :=
  match i with
  | .vpush .. => .output
  | .spc .. => if j = 0 then .input else .output
  | _ => .input

/-- The first claim of input entries that an operation has not taken whole (R322: all of one field before any of the next). -/
def Op.wants (o : Op) : Option (Nat × Nat × Nat) :=
  (List.range o.claims.length).findSome? fun j =>
    let (q, first, n) := nth (0, 0, 0) o.claims j
    if claimDir o.instr j = .input ∧ o.takenOf j < n then some (j, q, first + o.takenOf j) else none

/-- One entry goes from a queue to an operation that has started and wants it; what that expands stays expanded. -/
def Chip.deliver1 (c : Chip) (o : Op) : Option Chip :=
  match o.wants, c.strand? o.pos with
  | some (j, q, k), some σ =>
    if q < 8 ∧ o.status = .started then
      match σ.binding? q with
      | some b =>
        let b2 := b.wanted k
        match b2.entry? k with
        | some e => some ((c.modBinding o.pos q fun _ => { b2 with queue := b2.queue.filter fun x => x.1 != k }).modOp o.id fun p =>
            { p with taken := p.taken ++ [(takenKey j (o.takenOf j), e)] })
        | none => if b2 = b then none else some (c.modBinding o.pos q fun _ => b2)
      | none => none
    else none
  | _, _ => none

/-- Entries go to the commands of a slot that have started, as long as any goes. The fuel bounds the entries at hand. -/
def Chip.deliver : Nat → Chip → Nat → Chip
  | 0, c, _ => c
  | n + 1, c, pos =>
    match (c.ops.filter fun o => o.pos == pos).findSome? c.deliver1 with
    | some c2 => Chip.deliver n c2 pos
    | none => c

/-- Eight queues of sixteen entries, of packed bytes at most eight entries for each. -/
def deliverFuel : Nat := 70000

/-- The entries of a command that ends without taking them are passed over (R110, R302; log entry 21). -/
def Chip.dropClaims (c : Chip) (o : Op) : Chip :=
  (List.range o.claims.length).foldl (fun c j =>
    let (q, first, n) := nth (0, 0, 0) o.claims j
    let got := if claimDir o.instr j = .input then o.takenOf j else 0
    if q < 8 then c.modBinding o.pos q fun b =>
        if b.op < o.id ∧ b.dir = claimDir o.instr j then b.passOver (first + got) (min n (b.total - first) - got) else b
    else c) c

/-- The error a gather unit met at entry `k`, as a fault of the consumer (R51, R140, R163, R305). -/
def Binding.badAt (b : Binding) (k : Nat) : Option TrapReq :=
  match b.bad with
  | some (n, cause, value, mmx) => if n = k then some { cause := cause, value := value, mmx := mmx } else none
  | none => none

/-- Why claim `j` of an operation cannot be met: no stream of that direction is bound, or its iterator ends before it (R161,
R302, R322). -/
def Chip.claimShort (c : Chip) (o : Op) (j : Nat) : Bool :=
  let (q, first, n) := nth (0, 0, 0) o.claims j
  (n != 0 || decide (8 ≤ q)) && match (c.strand? o.pos).bind fun σ => if q < 8 then σ.binding? q else none with
    | some b => decide (b.total < first + n)
    | none => true

/-- Why the entries an operation wants cannot come, if they cannot: the next entry of its input claims is beyond the end or has
met an error, an output claim is short, or a field, be its count 0, names no stream of its direction. -/
def Chip.claimFault (c : Chip) (o : Op) : Option TrapReq :=
  let judged := (List.range o.claims.length).filter fun j => claimDir o.instr j == .output || decide (8 ≤ (nth (0, 0, 0) o.claims j).1)
  let short : Option TrapReq := if judged.any (c.claimShort o) then some { cause := 0x02 } else none
  match o.wants with
  | none => short
  | some (_, q, k) =>
    match (c.strand? o.pos).bind fun σ => if q < 8 then σ.binding? q else none with
    | none => some { cause := 0x02 }
    | some b => if b.total ≤ k then some { cause := 0x02 } else b.badAt k

/-! The prefix (R109, R111). -/

/-- The produced token and the waited tokens of the turn's prefix word. -/
def Turn.tokens (t : Turn) : Nat × List Nat :=
  match t.pfx with
  | .none => (0, [])
  | some w =>
    let n := w.toNat
    (bits n 20 4, [bits n 16 4, bits n 12 4, bits n 8 4].filter fun k => k != 0)

/-! Which engine a command goes to (R294, R320). -/

inductive Unit_ where
  | streamer | screen | link | collective | bucket | tile | drain
deriving DecidableEq, Repr

def engineOf : Instr → Option Unit_
  | .cp .. => some .streamer
  | .cpCg .. => some .streamer
  | .cpst .. => some .streamer
  | .wsort .. => some .screen
  | .xsend .. => some .link
  | .clAr .. => some .collective
  | .clBc .. => some .collective
  | .clAg .. => some .collective
  | .clRs .. => some .collective
  | .bktz .. => some .bucket
  | .bkt .. => some .bucket
  | .bfin .. => some .bucket
  | .tmma .. => some .tile
  | .tmmaSp .. => some .tile
  | .spc .. => some .tile
  | .accz .. => some .drain
  | .accmv .. => some .drain
  | .adrain .. => some .drain
  | .qdrain .. => some .drain
  | .quant2 .. => some .drain
  | _ => none

/-- Commands of one engine that stand in its queue, held ones among them (R393): not those recorded as waiting. -/
def Chip.queued (c : Chip) (f : Op → Bool) : List Op := c.ops.filter fun o => (engineOf o.instr).isSome && o.status != .waiting && f o

/-- The streamer's commands of a quad (R146). -/
def Chip.streamerOps (c : Chip) (quad : Nat) : List Op :=
  c.queued fun o => engineOf o.instr == some .streamer && quadOfPos o.pos == quad

/-- Commands move from the ring to the queue of 64, oldest first, unless a fault stops ring traffic (R147, R148). -/
def Chip.drainRing (c : Chip) (quad : Nat) : Chip :=
  if (c.quad quad).ringStall.isSome then c
  else
    let ops := c.streamerOps quad
    let room := 64 - (ops.filter fun o => !o.ring).length
    let ids := ((ops.filter fun o => o.ring).take room).map (·.id)
    if ids.isEmpty then c else { c with ops := c.ops.map fun o => if ids.contains o.id then { o with ring := false } else o }

/-- Whether an engine has room for one more command of a slot, and whether it goes to the spill ring (R147, R148, R294, R319). -/
def Chip.engineRoom (c : Chip) (i : Instr) (pos : Nat) : Bool × Bool :=
  let quad := quadOfPos pos
  match engineOf i with
  | some .streamer =>
    let ops := c.streamerOps quad
    let inQueue := (ops.filter fun o => !o.ring).length
    let inRing := (ops.filter fun o => o.ring).length
    if inQueue < 64 then (true, false)
    else (decide (inRing < 4096) && (c.quad quad).ringStall.isNone, true)
  | some .screen => (decide ((c.queued fun o => engineOf o.instr == some .screen && quadOfPos o.pos == quad).length < 16), false)
  | some .link => (true, false)
  | some .collective =>
    (decide ((c.queued fun o => engineOf o.instr == some .collective && dieOf (coreOf o.pos) == dieOf (coreOf pos)).length < 256),
      false)
  | _ => (decide ((c.queued fun o => o.cl == .m && coreOf o.pos == coreOf pos).length < 32), false)

/-! Issue of a command (steps 1 and 6 of R293 and R319). -/

/-- A command passes to its engine when its stream has a place, its queue room, the quad's second-level TLB pins (R73) and its
release a clock (R144). The produced token goes to pending and carries the vector of R138; a named barrier receives the release;
the issuing agent's clock advances once. The claims of its stream fields are made. -/
def State.launchCommand (s : State) (σ : Strand) (o : Op) (fields : List (Nat × Nat × Dir)) (leaves : List Page) : Res :=
  let (prod, waits) := s.ch.turn.tokens
  let od := o.od.getD odFresh
  let release := prod != 0 || o.bar.isSome
  let (room, ring) := s.ch.engineRoom o.instr σ.pos
  let segs := o.locs.flatMap fun l => l.segs
  if σ.exhausted o.cl od then .stall (s.ch.markExh σ.pos o.cl od)
  else if !room || s.ch.moving segs then .stall s.ch
  else if o.cl = .g ∧ 1984 < s.ch.pinCount (quadOfPos σ.pos) σ.who.job segs then .stall (s.ch.markOwed σ.pos o.cl od)
  else if release && s.ch.exhausted σ.pos o.cl then faulty 0x19
  else
    let v := waits.foldl (fun v k => vjoin v (σ.token k).vec) o.vec
    let (claims, σ2) := σ.claimAll fields
    let o2 := { o with was := none, prod := prod, waits := waits, ring := ring, claims := claims }
    let c1 := (s.ch.fillTlb σ leaves).modStrand σ.pos fun τ =>
      if prod = 0 then τ else τ.setToken prod { st := 1, cause := 0, cover := none, vec := v }
    let c2 := (c1.modStrand σ.pos fun τ => { τ with gr := { τ.gr with q := σ2.gr.q } }).addOp o2
    let c3 := match o.bar with
      | some b => c2.barRelease b.phys v
      | none => c2
    .go (Eff.quiet (if release then c3.advanceClock σ.pos o.cl else c3)) none

/-! Starting (R104, R109, R110). -/

/-- The core of a slot makes progress: neither a correction freeze nor a fault freeze holds it (R48, R391). -/
def Chip.coreMoves (c : Chip) (pos : Nat) : Bool := !c.corrHolds (coreOf pos) && !c.faultFrozen (coreOf pos)

/-- The local runs of an operation, its named barrier among them. -/
def Op.segs (o : Op) : List Seg := o.bar.toList ++ o.locs.flatMap fun l => l.segs

/-- An operation stands still with its own core or with one whose storage it needs (R48, R391). -/
def Chip.frozenOut (c : Chip) (o : Op) : Bool := !c.coreMoves o.pos || o.segs.any c.segFrozen

/-- Whether a command of a strand may start: the strand has not trapped and its job is not being killed (R391, R404). -/
def Chip.engineLive (c : Chip) (o : Op) : Bool :=
  (match c.strand? o.pos with
    | some σ => σ.trap.phase == .run || σ.trap.phase == .saving
    | none => false)
  && c.coreMoves o.pos
  && (match c.job? o.job with
    | some j => j.killStep == 0
    | none => true)

/-- The waited tokens of a command have all left idle and pending (R110). -/
def Strand.resolved (σ : Strand) (o : Op) : Bool := o.waits.all fun k => 2 ≤ (σ.token k).st.toNat

/-- The cause of the first waited token in error, in field order (R110). -/
def Strand.waitError (σ : Strand) (o : Op) : Option (BitVec 8) :=
  o.waits.findSome? fun k => if (σ.token k).st = 3 then some (σ.token k).cause else none

/-- How the waited tokens of a command resolve: as they did in the first cycle in which they could, or now; the inner value is the cause
of an error (R110). -/
def Chip.outcome (c : Chip) (o : Op) : Option (Option (BitVec 8)) :=
  match o.resolved, c.strand? o.pos with
  | some x, _ => some x
  | none, some σ => if c.mayBegin o && σ.resolved o then some (σ.waitError o) else none
  | none, none => none

/-- The commands whose waited tokens resolve in this cycle keep the outcome (R110). -/
def Chip.resolveOps (c : Chip) : Chip :=
  { c with ops := c.ops.map fun o => if (engineOf o.instr).isSome && o.status == .issued then { o with resolved := c.outcome o } else o }

/-- A command that is resolved may leave its queue: it starts, or ends in error (R110, R391). -/
def Chip.settled (c : Chip) (o : Op) : Option (Option (BitVec 8)) :=
  if o.status = .issued ∧ c.mayBegin o ∧ c.engineLive o then c.outcome o else none

/-- A command is eligible: predecessors performed and every waited token done (R104, R109, R149). -/
def Chip.eligible (c : Chip) (o : Op) : Bool := c.settled o == some none

/-- The bytes that a copy transfers: payload, rows or elements (log entry 74). -/
def Op.transfer (o : Op) : Nat :=
  let v := (nth 0 o.vals 2).toNat
  match o.instr with
  | .cpst .. => bits v 32 32 * bits v 0 32
  | .cpCg .. =>
    let ws := (List.range 16).map fun k => bits (nth 0 o.data 0).toNat (64 * k) 64
    (ws.filter fun w => bits w 60 4 == 4).foldl (fun n w => n * (bits w 22 20 + 1)) (2 ^ bits (nth 0 ws 0) 8 3)
  | _ => if v / 2 ^ 32 = 0 then v % 2 ^ 32 else v / 2 ^ 32

/-- The bytes a strand may move in one round of the streamer (R149). -/
def Chip.roundShare (c : Chip) (pos : Nat) : Nat :=
  match c.strand? pos with
  | some σ => 4096 * σ.who.weight
  | none => 0

/-- The bytes of a strand's started copies that later rounds carry (R149, point 4). -/
def Chip.copyOwed (c : Chip) (pos : Nat) : Nat :=
  if (c.streamerOps (quadOfPos pos)).any fun p => p.pos == pos && p.status != .issued then
    ((c.quad (quadOfPos pos)).owed.lookup pos).getD 0
  else 0

/-- The rounds after which a strand's share exceeds what its started copies take of it. -/
def Chip.roundsBefore (c : Chip) (pos : Nat) : Nat := c.copyOwed pos / c.roundShare pos + 1

/-- The slots of a quad in the order of their next visit (R149, point 2): agent numbers rise, the slot visited now comes last. -/
def Chip.visitOrder (c : Chip) (quad : Nat) : List Nat :=
  (List.range 16).map fun k => 16 * quad + ((c.quad quad).visit + 1 + k) % 16

/-- A command already issued on a core that a column migration holds runs out in phase 1 (R53). -/
def Chip.runsOut (c : Chip) (o : Op) : Bool := c.moves.any fun m => m.phase == 1 && quadOfPos o.pos == m.held

/-- A command may not start: it names moving storage, and a migration does not let it run out (R53). -/
def Chip.barred (c : Chip) (o : Op) : Bool := c.moving (o.locs.flatMap fun l => l.segs) && !c.runsOut o

/-- The earliest issued of a strand's copies that may start now (R149, point 3). -/
def Chip.strandCopy (c : Chip) (pos : Nat) : Option Op :=
  (c.streamerOps (quadOfPos pos)).find? fun p => p.pos == pos && c.eligible p
    && !(p.ring && (c.quad (quadOfPos pos)).ringStall.isSome) && !c.barred p

/-- The copy a streamer starts next, and in how many rounds from now: of the strand it visits while that strand's share lasts, else of the
strand whose share is first open again. -/
def Chip.nextCopy (c : Chip) (quad : Nat) : Option (Op × Nat) :=
  let k := c.quad quad
  let now := if k.share = 0 then none else c.strandCopy (16 * quad + k.visit % 16)
  match now with
  | some o => some (o, 0)
  | none => (c.visitOrder quad).foldl (fun best pos =>
      match c.strandCopy pos with
      | none => best
      | some o =>
        let n := c.roundsBefore pos
        match best with
        | some (_, m) => if n < m then some (o, n) else best
        | none => some (o, n)) none

/-- The round robin after a copy has started (R149): the strands visited before it have moved their shares of the rounds that passed,
and of the copy the share takes what it can. -/
def Chip.chargeCopy (c : Chip) (o : Op) : Chip :=
  let quad := quadOfPos o.pos
  match engineOf o.instr, c.nextCopy quad with
  | some .streamer, some (_, n) =>
    let order := c.visitOrder quad
    let left (pos : Nat) : Nat := c.copyOwed pos
    let share := if n = 0 then (c.quad quad).share else n * c.roundShare o.pos - left o.pos
    let owed := order.map fun pos =>
      if pos = o.pos then (pos, (if n = 0 then left pos else 0) + (o.transfer - share))
      else if n = 0 then (pos, left pos)
      else (pos, left pos - (if order.idxOf pos < order.idxOf o.pos then n else n - 1) * c.roundShare pos)
    c.modQuad quad fun k => { k with visit := o.pos % 16, share := share - o.transfer, owed := owed.filter fun x => x.2 != 0 }
  | _, _ => c

/-- The order in which the commands of a unit issued: one cycle's in the order of their agents (R294, R320). -/
def Op.before (a b : Op) : Bool :=
  let x := agentOf a.pos a.cl
  let y := agentOf b.pos b.cl
  decide (a.cycle < b.cycle ∨ (a.cycle = b.cycle ∧ (x < y ∨ (x = y ∧ a.id < b.id))))

/-- The unit of the multiply engine, or of the quad, that a command needs is free and no command with an earlier claim to it is
eligible (R149: at most eight of the streamer's move bytes, and the round robin decides; R294; R320: the earliest issued, and bucket commands of a strand in
issue order). A started `wsort` keeps the screen while it is held (R294); a held command of the multiply engine leaves its unit free
(log entry 80). -/
def Chip.unitFree (c : Chip) (o : Op) : Bool :=
  let busy (l : List Op) : List Op := l.filter fun p => p.status == .started || p.status == .sent
  match engineOf o.instr with
  | some .streamer => decide ((busy (c.streamerOps (quadOfPos o.pos))).length < 8)
      && (match c.nextCopy (quadOfPos o.pos) with
          | some (p, _) => p.id == o.id
          | none => false)
  | some .screen =>
    let l := c.queued fun p => engineOf p.instr == some .screen && quadOfPos p.pos == quadOfPos o.pos
    (l.all fun p => p.status == .issued) && l.all fun p => !p.before o || !c.eligible p
  | some .link => true
  | some .collective => true
  | some u =>
    let l := c.queued fun p => engineOf p.instr == some u && coreOf p.pos == coreOf o.pos
    (busy l).isEmpty && (l.all fun p => !p.before o || !c.eligible p)
      && (u != .bucket || (c.ops.filter fun p => p.pos == o.pos && engineOf p.instr == some .bucket && p.status == .issued).all fun p => decide (o.id ≤ p.id))
  | none => false

end Sys2Proof.Machine
end

