-- ==== Sys2Proof/Machine/Transfer.lean ====
section
/-! DEFINITION. How a started engine command moves bytes: runs read and written in order, piece by piece up to the granule at
which it stops, and the requests it sends to peer homes (R51, R65, R88, R127, R140, R151). -/

namespace Sys2Proof.Machine

/-- Why a transfer stops: a late fault, or an end in error with a cause (R51, R105, R140). -/
inductive Stop where
  | late (t : TrapReq)
  | error (cause : BitVec 8)
deriving DecidableEq, Repr

/-- A transfer under way: the state so far, the bytes written to it, the requests to peers, and the bytes moved. -/
structure Run where
  s : State
  writes : List (Nat × List Byte)
  sends : List (Seg × List Byte)
  n : Nat

def Run.start (s : State) : Run := { s := s, writes := [], sends := [], n := 0 }

def Run.chip (r : Run) (f : Chip → Chip) : Run := { r with s := { r.s with ch := f r.s.ch } }

/-- Bytes written, with a new chip. -/
def Run.put (r : Run) (c : Chip) (ws : List (Nat × List Byte)) (k : Nat) : Run :=
  { r with s := r.s.commit { chip := c, writes := ws }, writes := r.writes ++ ws, n := r.n + k }

/-- `n` bytes of a list of runs from offset `off`. -/
def sliceSegs : List Seg → Nat → Nat → List Seg
  | [], _, _ => []
  | g :: gs, off, n =>
    if n = 0 then []
    else if g.len ≤ off then sliceSegs gs (off - g.len) n
    else
      let k := min n (g.len - off)
      { g with phys := g.phys + off, va := g.va + off, len := k } :: sliceSegs gs 0 (n - k)

/-- A run cut at the multiples of 64 bytes of its own place, or of 128 bytes in a compressed page. -/
def cutSeg : Nat → Seg → List Seg
  | 0, _ => []
  | fuel + 1, g =>
    let unit := if g.cmp then 128 else 64
    let a := if g.peer.isSome then g.va else g.phys
    if g.len = 0 then []
    else
      let k := min g.len (unit - a % unit)
      { g with len := k } :: cutSeg fuel { g with phys := g.phys + k, va := g.va + k, len := g.len - k }

def Seg.pieces (g : Seg) : List Seg := cutSeg (g.len / 64 + 2) g

/-- What stops an operation is a late fault of it for M commands, and for a stream, whose consumer takes it up (R51, R305). -/
def Op.stopsLate (o : Op) : Bool := o.cl == .m || match o.instr with
  | .sbind .. => true
  | _ => false

/-- A mark error of a piece as it stops a command: M commands and streams hold, others end in error (R51, R140). -/
def markStop (o : Op) (g : Seg) (b : MarkBad) : Stop :=
  match b with
  | .race _ => .late (markFault o g b)
  | .word _ => if o.stopsLate then .late (markFault o g b) else .error 0x38

/-- A word that cannot be read or written in part: late for M commands and streams; a reserved block code is a transfer error (R51, R88). -/
def badStop (o : Op) (g : Seg) (b : Bad) : Stop :=
  if o.stopsLate then .late (badFault g b) else .error (if b.cause = 0x38 then 0x38 else 0x31)

/-- The bytes of a piece of a peer's memory, from the answers the command holds by 64-byte block. -/
def peerBytes (o : Op) (g : Seg) : List Byte :=
  (List.range g.len).map fun i =>
    let a := g.va + i
    nth 0 (leBytes 64 ((o.taken.lookup (a / 64)).getD 0).toNat) (a % 64)

/-- One piece is read: the race check of R139 where the place is tracked, correction, and the bytes at the home. -/
def Run.readSeg (r : Run) (o : Op) (k : Check) (g : Seg) : Except Stop (List Byte × Run) :=
  match g.peer with
  | some _ => .ok (peerBytes o g, r)
  | none =>
    match r.s.ch.side.checkRun k g.phys g.len with
    | some b => .error (markStop o g b)
    | none => match readHome r.s g with
      | .error b => .error (badStop o g b)
      | .ok bs => .ok (bs, { r with s := { r.s with ch := r.s.corrected g (k.consults g.phys g.len) } })

/-- Pieces are read in order. -/
def Run.readSegs (o : Op) (ck : Seg → Check) : List Seg → Run → Except Stop (List Byte × Run)
  | [], r => .ok ([], r)
  | g :: gs, r =>
    match r.readSeg o (ck g) g with
    | .error e => .error e
    | .ok (bs, r1) => match Run.readSegs o ck gs r1 with
      | .error e => .error e
      | .ok (cs, r2) => .ok (bs ++ cs, r2)

/-- `n` bytes of a footprint from offset `off`. -/
def Run.read (r : Run) (o : Op) (l : Loc) (off n : Nat) : Except Stop (List Byte × Run) :=
  Run.readSegs o o.check ((sliceSegs l.segs off n).flatMap Seg.pieces) r

/-- One piece is written: the race check, the write at the home, marks, and the valid sectors of the quad's cache (R69, R139). -/
def Run.writeSeg (r : Run) (o : Op) (k : Check) (g : Seg) (bs : List Byte) : Except Stop Run :=
  match g.peer with
  | some _ => .ok { r with sends := r.sends ++ [(g, bs)], n := r.n + g.len }
  | none =>
    match r.s.ch.side.checkRun k g.phys g.len with
    | some b => .error (markStop o g b)
    | none => match writeHome r.s g bs with
      | .error b => .error (badStop o g b)
      | .ok ws =>
        .ok (r.put (r.s.stored (quadOfPos o.pos) k g bs ws) ws g.len)

/-- Pieces are written in order; the run stands as far as it came. -/
def Run.writeSegs (o : Op) (ck : Seg → Check) : List Seg → List Byte → Run → Run × Option Stop
  | [], _, r => (r, none)
  | g :: gs, bs, r =>
    match r.writeSeg o (ck g) g (bs.take g.len) with
    | .error e => (r, some e)
    | .ok r1 => Run.writeSegs o ck gs (bs.drop g.len) r1

/-- Bytes are written into a footprint from offset `off`. -/
def Run.write (r : Run) (o : Op) (l : Loc) (off : Nat) (bs : List Byte) : Run × Option Stop :=
  Run.writeSegs o o.check ((sliceSegs l.segs off bs.length).flatMap Seg.pieces) bs r

/-- Bytes are copied from one footprint to another, piece by piece of the destination. -/
def Run.copySegs (o : Op) (src : Loc) : List Seg → Nat → Run → Run × Option Stop
  | [], _, r => (r, none)
  | g :: gs, off, r =>
    match r.read o src off g.len with
    | .error e => (r, some e)
    | .ok (bs, r1) => match r1.writeSeg o (o.check g) g bs with
      | .error e => (r1, some e)
      | .ok r2 => Run.copySegs o src gs (off + g.len) r2

def Run.copy (r : Run) (o : Op) (src dst : Loc) (so d n : Nat) : Run × Option Stop :=
  Run.copySegs o src ((sliceSegs dst.segs d n).flatMap Seg.pieces) so r

/-- A step of a transfer after another, unless that one stopped. -/
def Run.next (x : Run × Option Stop) (f : Run → Run × Option Stop) : Run × Option Stop :=
  match x.2 with
  | none => f x.1
  | some _ => x

/-! Peers. -/

/-- The 64-byte blocks of peer memory that ranges of a source footprint touch, each once. -/
def peerBlocks (l : Loc) (ranges : List (Nat × Nat)) : List Seg :=
  let all := ranges.flatMap fun r => ((sliceSegs l.segs r.1 r.2).filter fun g => g.peer.isSome).flatMap fun g =>
    (List.range' (g.va / 64) ((g.va + g.len - 1) / 64 - g.va / 64 + 1)).map fun k => { g with va := k * 64, len := 64 }
  all.foldl (fun acc g => if acc.any (fun x => x.va == g.va) then acc else acc ++ [g]) []

/-- Every peer of a list of runs can be reached (R65, R66). -/
def Chip.allReachable (c : Chip) (gs : List Seg) : Bool := gs.all fun g => match g.peer with
  | some p => c.reachable p
  | none => true

def Chip.allRoom (c : Chip) (o : Op) (gs : List Seg) : Bool := gs.all fun g => match g.peer with
  | some p => c.ctxRoom p (c.podOf o)
  | none => true

/-- The source bytes that lie at peers are fetched before anything moves: the requests go out and the command waits for the
answers (`progress` 1); `none` when the bytes are at hand. -/
def fetchPeers (s : State) (o : Op) (src : Loc) (ranges : List (Nat × Nat)) : Option Perf :=
  let blocks := (peerBlocks src ranges).filter fun g => (o.taken.lookup (g.va / 64)).isNone
  if blocks.isEmpty then none
  else if !s.ch.allReachable blocks then some (.failed (Eff.quiet s.ch) 0x31)
  else if !s.ch.allRoom o blocks then some (.notYet (Eff.quiet s.ch))
  else
    let c := blocks.foldl (fun c g => c.request o g (.load 64) (g.va / 64)) s.ch
    some (.notYet (Eff.quiet (c.modOp o.id fun x => { x with progress := 1 })))

/-! Where a command keeps, while the homes of its writes answer, the bytes it has written and how it is to end (R105, R127). -/

def writtenKey : Nat := 2 ^ 60
def endKey : Nat := 2 ^ 60 + 1

/-- What stops a transfer, as one value; 0 when nothing does. -/
def endWord : Option Stop → BitVec 512
  | none => 0
  | some (.error cause) => BitVec.ofNat 512 (1 + cause.toNat * 4)
  | some (.late t) => BitVec.ofNat 512 (2 + t.cause.toNat * 4 + t.value.toNat * 2 ^ 16 + t.mmx.toNat * 2 ^ 80)

/-- The end of a transfer that such a value stops. -/
def endOf (w : BitVec 512) (e : Eff) : Perf :=
  let n := w.toNat
  let cause := BitVec.ofNat 8 (n / 4)
  match n % 4 with
  | 0 => .done e
  | 1 => .failed e cause
  | _ => .late e { cause := cause, value := BitVec.ofNat 64 (n / 2 ^ 16), mmx := BitVec.ofNat 64 (n / 2 ^ 80) }

/-- The end of a transfer: its bytes are counted for the barrier. Where it has written to peers, those writes go out, and it ends, be it in
error, when the last of them is answered (`progress` 2; R105). -/
def Run.finish (x : Run × Option Stop) (o : Op) : Perf :=
  let r := x.1
  let segs := r.sends.map (·.1)
  let written (n : Nat) : Eff := { chip := r.s.ch.wrote o (max n o.credited), writes := r.writes }
  if !r.s.ch.allReachable segs then .failed (written (r.n - (segs.map (·.len)).sum)) 0x31
  else if r.sends.isEmpty then endOf (endWord x.2) (written r.n)
  else
    let c := r.sends.foldl (fun c e => c.request o e.1 (.store e.2) e.1.len) r.s.ch
    let keep (l : List (Nat × BitVec 512)) := putKey writtenKey (BitVec.ofNat 512 r.n) (putKey endKey (endWord x.2) l)
    .notYet { chip := c.modOp o.id fun y => { y with progress := 2, taken := keep y.taken }, writes := r.writes }

/-- The answer of a home to a command (R65): bytes of a block, or the end of a write. A failure stops the command as a transfer error does,
and its bytes are not written; the command goes on, or ends, when its last request is answered (R105). -/
def answerCommand (s : State) (o : Op) (part : Nat) (err : BitVec 8) (data : List Byte) : Perf :=
  let left := (s.ch.xl.egress.filter fun e => e.op == o.id).length
  let had (k : Nat) : BitVec 512 := (o.taken.lookup k).getD 0
  let written := (had writtenKey).toNat - if err ≠ 0 then part else 0
  let stop := if err ≠ 0 ∧ had endKey = 0 then endWord (some (.error 0x31)) else had endKey
  let kept := putKey writtenKey (BitVec.ofNat 512 written) (putKey endKey stop o.taken)
  let taken := if err ≠ 0 then kept else if o.progress = 2 then o.taken else putKey part (BitVec.ofNat 512 (leNat data)) o.taken
  let c := s.ch.modOp o.id fun x => { x with taken := taken }
  if left ≠ 0 then .notYet (Eff.quiet c)
  else if o.progress = 2 ∨ stop ≠ 0 then endOf stop (Eff.quiet (c.wrote o (max written o.credited)))
  else .notYet (Eff.quiet (c.modOp o.id fun x => { x with status := .started }))

/-! Words that a transfer writes whole, be it part by part (R51). -/

/-- A transfer that is to write runs: the errors of the words it writes whole do not stop it. -/
def Run.over (s : State) (segs : List Seg) : Run := Run.start { s with ch := { s.ch with side := s.ch.side.covered segs } }

/-- One that stops leaves the uncorrectable words that it has not written whole as they were. -/
def Run.stopped (r : Run) (s : State) : Eff :=
  let inWrites (a : Nat) : Bool := r.writes.any fun w => decide (w.1 ≤ a ∧ a < w.1 + w.2.length)
  let left := s.ch.side.faulty.filter fun f => !f.2 && !r.s.ch.side.faulty.contains f && !((List.range' f.1 (wordSize f.1)).all inWrites)
  { chip := { r.s.ch with side := { r.s.ch.side with faulty := r.s.ch.side.faulty ++ left } }, writes := r.writes }

/-- The place of an operation on two footprints of one command overlaps (R151, R308). -/
def Loc.overlaps (a b : Loc) : Bool :=
  a.tag == b.tag && a.segs.any fun g => b.segs.any fun h =>
    if a.tag = 0 then decide (g.va < h.va + h.len ∧ h.va < g.va + g.len)
    else decide (g.phys < h.phys + h.len ∧ h.phys < g.phys + g.len)

end Sys2Proof.Machine
end

