-- ==== Sys2Proof/Machine/Gather.lean ====
section
/-! DEFINITION. The G cluster's scalar words, iterators, chains and stream bindings, and the gather and scatter units (R159 to
R163, R295 to R305). -/

namespace Sys2Proof.Machine

/-! Scalar words (R295). -/

/-- Issue of a G word with g registers as sources. -/
def gIssue (s : State) (gs : List (BitVec 3)) (more : List RegName) (body : Strand → Res) : Host.Outcome State Fault Refusal :=
  issue s ((gs.map fun r => .g r.toNat) ++ more) body

def execGmov (d : BitVec 3) (sp : BitVec 5) (s : State) : Host.Outcome State Fault Refusal :=
  gIssue s [] [] fun _ => onStrand s fun σ => σ.setG d.toNat (σ.snapS .g sp.toNat)

def execGadd (d a : BitVec 3) (im : BitVec 18) (s : State) : Host.Outcome State Fault Refusal :=
  gIssue s [a] [] fun _ => onStrand s fun σ => σ.setG d.toNat (σ.getG a.toNat + im.signExtend 64)

def execGlea (d a b : BitVec 3) (k : BitVec 2) (s : State) : Host.Outcome State Fault Refusal :=
  gIssue s [a, b] [] fun _ => onStrand s fun σ => σ.setG d.toNat (σ.getG a.toNat + σ.getG b.toNat <<< k.toNat)

/-! Loading and storing records (R297 to R299). -/

/-- Issue of `itld`, `itst` and `chld`: one stream operation and one tile access of the bench. -/
def recordIssue (s : State) (i : Instr) (a : BitVec 3) (size : Nat) (srcs dest : List RegName) (acc : Access) (od : BitVec 3)
    (data : Strand → List (BitVec 8192)) : Host.Outcome State Fault Refusal :=
  gIssue s [a] srcs fun σ =>
    s.onChk σ .g (σ.odOf .g od.toNat) (s.footprint σ benchOnly acc (σ.getG a.toNat) 0 (size - 1) size []) fun f =>
      if s.ch.moving f.loc.segs then .stall s.ch
      else
        let o := s.opOf σ i (σ.odOf .g od.toNat)
        s.launchOp σ { o with locs := [f.loc], dest := dest, data := data σ } f.leaves

def execItld (g a o : BitVec 3) (s : State) : Host.Outcome State Fault Refusal :=
  recordIssue s (.itld g a o) a 64 [] [.gi g.toNat] .load o fun _ => []

def execItst (g a o : BitVec 3) (s : State) : Host.Outcome State Fault Refusal :=
  recordIssue s (.itst g a o) a 64 [.gi g.toNat] [] .store o fun σ => [((nth none σ.gr.gi g.toNat).getD 0).setWidth 8192]

def execChld (c : BitVec 2) (a o : BitVec 3) (s : State) : Host.Outcome State Fault Refusal :=
  recordIssue s (.chld c a o) a 32 [] [.ch c.toNat] .load o fun _ => []

/-- A register takes the value of the operation it awaits. -/
def Chip.bindReg (c : Chip) (o : Op) (r : RegName) (f : Strand → Strand) : Chip :=
  c.bind o fun σ => if σ.busy.any (fun b => b.reg == r && b.op == o.id) then (f σ).settle r else σ

/-- A record operation performed (R297, R298): the race check, the access, and the record's own checks. -/
def performRecord (s : State) (o : Op) : Perf :=
  let g := o.run
  let k := o.check g
  let gs := k.consults g.phys g.len
  match s.ch.side.checkRun k g.phys g.len with
  | some b => s.faultAfter g gs (markFault o g b)
  | none =>
    match o.instr with
    | .itst .. =>
      let bs := leBytes 64 (nth 0 o.data 0).toNat
      match writeHome s g bs with
      | .error b => s.faultAfter g gs (badFault g b)
      | .ok ws => .done { chip := s.stored (quadOfPos o.pos) k g bs ws, writes := ws }
    | _ =>
      match readHome s g with
      | .error b => s.faultAfter g gs (badFault g b)
      | .ok bs =>
        let c := s.corrected g gs
        let n := leNat bs
        match o.instr with
        | .itld gi _ _ =>
          let r := BitVec.ofNat 512 n
          if iterOk r then
            .done (Eff.quiet (c.bindReg o (.gi gi.toNat) fun σ => { σ with gr := { σ.gr with gi := setNth none σ.gr.gi gi.toNat (some r) } }))
          else .fault (Eff.quiet c) { cause := 0x02 }
        | .chld ch _ _ =>
          .done (Eff.quiet (c.bindReg o (.ch ch.toNat) fun σ =>
            { σ with gr := { σ.gr with ch := setNth none σ.gr.ch ch.toNat (some (BitVec.ofNat 256 n)) } }))
        | _ => .done (Eff.quiet c)

def execItmod (g : BitVec 3) (f : BitVec 4) (a : BitVec 3) (s : State) : Host.Outcome State Fault Refusal :=
  gIssue s [a] [.gi g.toNat] fun σ =>
    let v := (σ.getG a.toNat).toNat
    match nth none σ.gr.gi g.toNat with
    | none => faulty 0x02
    | some r =>
      let n := f.toNat
      let k := (n - 1) % 4
      let live := decide (k < iterDims r)
      let ok := if n = 0 then true else if n ≤ 4 then decide (v < 2 ^ 32) && (live == (v != 0)) else live || v == 0
      let r2 := if n = 0 then putBits r 0 64 v else if n ≤ 4 then putBits r (128 + 96 * k) 32 v else putBits r (160 + 96 * k) 64 v
      if ok then onStrand s fun τ => { τ with gr := { τ.gr with gi := setNth none τ.gr.gi g.toNat (some r2) } } else faulty 0x02

/-! Binding (R300 to R304). -/

def execSbind (q g : BitVec 3) (c : BitVec 2) (d n : BitVec 1) (o : BitVec 3) (s : State) : Host.Outcome State Fault Refusal :=
  gIssue s [] (.gi g.toNat :: if n = 1 then [.ch c.toNat] else []) fun σ =>
    let dir : Dir := if d = 1 then .output else .input
    match σ.binding? q.toNat, nth none σ.gr.gi g.toNat, (if n = 1 then nth none σ.gr.ch c.toNat else some 0) with
    | none, some rec, some ch =>
      if (d = 1 ∧ n = 1) ∨ !chainOk ch rec dir then faulty 0x02
      else
        let (lo, hi) := iterRange rec
        let allow : Allow := { bench := true, stratumOwn := true, slot := dir == .input }
        let od := σ.odOf .g o.toNat
        s.onChk σ .g od (s.ch.checkPtr σ allow (iterBase rec) lo hi 1) fun _ =>
          if !iterAligned rec then .trap (ptrFault 0x13 6 (iterBase rec))
          else
            let steps := chainSteps ch
            let b : Binding :=
              { dir := dir, iter := rec, chain := ch, op := s.ch.nextId,
                total := ceilDiv (resultTotal steps rec) (perEntry (resultBits steps rec)), pos := 0, bytePos := 0, queue := [],
                claimed := 0, skips := [], bad := none, packed := [], stuck := none, leaving := false }
            match s.launchOp σ { s.opOf σ (.sbind q g c d n o) od with was := none } [] with
            | .go e j => .go (e.mapChip fun x => x.modStrand σ.pos fun τ => τ.setBinding q.toNat (some b)) j
            | r => r
    | _, _, _ => faulty 0x02

/-- A consumer of a stream that issued since it was bound has entries still to take or to push (R303). -/
def Chip.awaited (c : Chip) (pos q : Nat) (b : Binding) : Bool :=
  c.ops.any fun o => o.pos == pos && decide (b.op < o.id) && (List.range o.claims.length).any fun j =>
    let cl := nth (0, 0, 0) o.claims j
    cl.1 == q && cl.2.2 != 0 && (claimDir o.instr j == .output || decide (o.takenOf j < cl.2.2))

/-- The release of a binding (R179, R303): an input stream is done with; an output stream's pushed entries go on to be written
from the binding operation, which keeps them, the iterator and the elements of the first entry written already. -/
def Chip.releaseStream (c : Chip) (pos q : Nat) : Chip :=
  match (c.strand? pos).bind fun σ => σ.binding? q with
  | none => c
  | some b =>
    let c1 := c.modStrand pos fun σ => σ.setBinding q none
    c1.modOp b.op fun o =>
      if b.dir = .input then { o with progress := 1 }
      else
        let part := (b.queue.lookup b.pos).isSome
        { o with progress := 1, taken := b.queue, data := [b.iter.setWidth 8192], vals := [BitVec.ofNat 64 (if part then b.bytePos else 0)] }

/-- `sunbind` (R303): the stream stays bound for the rest of the cycle, and the release takes place as the cycle ends (log entry 97). -/
def execSunbind (q : BitVec 3) (s : State) : Host.Outcome State Fault Refusal :=
  gIssue s [] [] fun σ =>
    match σ.binding? q.toNat with
    | none => faulty 0x02
    | some b =>
      if s.ch.awaited σ.pos q.toNat b then .stall s.ch
      else onStrand s fun τ => τ.setBinding q.toNat (some { b with leaving := true })

/-- The streams that `sunbind` has released are unbound as its cycle ends (R303). -/
def Chip.releaseLeaving (c : Chip) : Chip :=
  c.strands.foldl (fun c σ => (List.range 8).foldl (fun c q =>
    if (σ.binding? q).any (·.leaving) then c.releaseStream σ.pos q else c) c) c

def execSskip (q a : BitVec 3) (s : State) : Host.Outcome State Fault Refusal :=
  gIssue s [a] [] fun σ =>
    let n := (σ.getG a.toNat).toNat
    match σ.binding? q.toNat with
    | none => faulty 0x02
    | some b =>
      if 2 ^ 32 ≤ n ∨ b.total < b.claimed + n then faulty 0x02
      else onStrand s fun τ => τ.setBinding q.toNat (some ((b.passOver b.claimed n).claim n))

/-! The gather and scatter units. -/

/-- The physical address of offset 0 of the window, or of the slot, that a stream's BASE names; a slot granted since stays
readable (R316). -/
def Chip.streamBase (c : Chip) (σ : Strand) (p : Reg) : Option Nat :=
  match c.unitOf? σ with
  | none => none
  | some u =>
    if ptrTag p = 4 then (c.linkEnd? σ.who.job (ptrLink p) (dieOf u.core)).map fun l => slotAt l (ptrSlot p)
    else (c.window? σ u p).map (·.1)

/-- The run of `n` bytes at an offset of a stream's window. -/
def streamSeg (base : Nat) (off : Int) (n : Nat) : Seg :=
  { phys := base + off.toNat, len := n, va := off.toNat, peer := none, mode := 0, cmp := false, page := 0, size := 0 }

/-- Element `e` of an iterator. -/
def elementSeg (base : Nat) (rec : BitVec 512) (e : Nat) : Seg :=
  streamSeg base ((ptrOff (iterBase rec) : Int) + iterOff rec e) (2 ^ iterLog rec)

/-- Elements read one after another, up to one at which the unit stops. -/
def readElements (o : Op) (base : Nat) (rec : BitVec 512) : List Nat → Run → List Nat × Run × Option Stop
  | [], r => ([], r, none)
  | e :: es, r =>
    match Run.readSegs o o.check (elementSeg base rec e).pieces r with
    | .error x => ([], r, some x)
    | .ok (bs, r1) =>
      let (vs, r2, x) := readElements o base rec es r1
      (leNat bs :: vs, r2, x)

/-- The error of a stop, as it waits for the consumer. -/
def stopBad (x : Stop) : BitVec 8 × BitVec 64 × BitVec 64 :=
  match x with
  | .late t => (t.cause, t.value, t.mmx)
  | .error cause => (cause, 0, 0)

/-- A gather unit with no EXPAND reads the elements of its next entry (R161, R301); an entry to be passed over is not read. -/
def gatherPlain (s : State) (o : Op) (base : Nat) (b : Binding) : Binding × Chip :=
  let steps := chainSteps b.chain
  let w := resultBits steps b.iter
  let per := perEntry w
  if b.skipped b.pos then (({ b with pos := b.pos + 1 } : Binding).pruned, s.ch)
  else
    let first := b.pos * per
    match readElements o base b.iter (List.range' first (min per (iterTotal b.iter - first))) (Run.start s) with
    | (_, r, some x) => ({ b with bad := some (b.pos, stopBad x) }, r.s.ch)
    | (vs, r, none) => (b.fill [(b.pos, packEntry w (vs.map (chainApply steps (iterType b.iter))))], r.s.ch)

/-- A gather unit with EXPAND moves packed bytes into the queue, up to 64 at a time (R163). -/
def gatherPacked (s : State) (o : Op) (base : Nat) (b : Binding) : Binding × Chip :=
  let n := min 64 (iterTotal b.iter - b.bytePos)
  let (vs, r, x) := readElements o base b.iter (List.range' b.bytePos n) (Run.start s)
  ({ b with packed := b.packed ++ vs.map (BitVec.ofNat 8), bytePos := b.bytePos + vs.length, stuck := x.map stopBad }, r.s.ch)

/-- A gather unit may read on: it has met no error, its queue of 16 entries has room, and there is something left to read (R161). -/
def Binding.reads (b : Binding) : Bool :=
  if b.expands then decide (b.packed.length ≤ 960 ∧ b.bytePos < iterTotal b.iter) && b.stuck.isNone
  else decide (b.queue.length < 16 ∧ b.pos < b.total) && b.bad.isNone

/-- The banks of the bench granules that runs lie in have served a port (R34). The first 64 granules of a run lie in all the banks
that the run touches (R33). -/
def Chip.serveRuns (c : Chip) (streamer : Bool) (pos : Nat) (cl : Cluster) (gs : List Seg) : Chip :=
  let bench := gs.filter fun g => g.peer.isNone && decide (benchAt 0 ≤ g.phys ∧ g.phys < stratumAt 0)
  { c with side := bench.foldl (fun d g => d.serve (portOf streamer pos cl ((ownerCore g.phys).getD 0))
      (if g.len = 0 then [] else List.range' (g.phys / 16) (min 64 ((g.phys + g.len - 1) / 16 - g.phys / 16 + 1)))) c.side }

/-- The elements of the entry that a stream's unit comes to next; of a packed stream the bytes it reads next. -/
def Binding.nextRuns (b : Binding) (base : Nat) : List Seg :=
  let es := if b.expands then List.range' b.bytePos (min 64 (iterTotal b.iter - b.bytePos))
    else
      let per := perEntry (match b.dir with
        | .input => resultBits (chainSteps b.chain) b.iter
        | .output => 8 * 2 ^ iterLog b.iter)
      List.range' (b.pos * per) (min per (iterTotal b.iter - b.pos * per))
  es.map (elementSeg base b.iter)

/-- A run on chip cut at the 32-byte granules it lies in. -/
def Seg.granules (g : Seg) : List Seg :=
  (List.range (g.len / 32 + 2)).filterMap fun k =>
    let lo := max g.phys ((g.phys / 32 + k) * 32)
    let hi := min (g.phys + g.len) ((g.phys / 32 + k + 1) * 32)
    if lo < hi then some { g with phys := lo, va := g.va + (lo - g.phys), len := hi - lo } else none

/-- The elements of an output entry are written in order, granule by granule, the first from its byte `skip` on; with what stops the
writing, the byte of the entry at which the granule stands that it stops before (R305). -/
def scatterElements (o : Op) (base : Nat) (rec : BitVec 512) (k : Nat) (v : Nat) : Nat → List Nat → Run → Nat × Run × Option Stop
  | _, [], r => (0, r, none)
  | skip, i :: is, r =>
    let per := perEntry (8 * 2 ^ iterLog rec)
    let g := elementSeg base rec (k * per + i)
    let at_ := g.len * i + skip
    match Run.writeSegs o o.check ((sliceSegs [g] skip (g.len - skip)).flatMap Seg.granules) (leBytes (g.len - skip) (v / 2 ^ (8 * at_))) r with
    | (r1, some x) => (at_ + (r1.n - r.n), r1, some x)
    | (r1, none) => scatterElements o base rec k v 0 is r1

/-- Entry `k` from its byte `from_` on. -/
def scatterEntry (o : Op) (base : Nat) (rec : BitVec 512) (k : Nat) (e : BitVec 512) (from_ : Nat) (r : Run) :
    Nat × Run × Option Stop :=
  let size := 2 ^ iterLog rec
  let per := perEntry (8 * size)
  let n := min per (iterTotal rec - k * per)
  scatterElements o base rec k e.toNat (from_ % size) (List.range' (from_ / size) (n - from_ / size)) r

/-- A stop of a scatter unit is a late fault of the binding (R305). -/
def stopLate (x : Stop) : TrapReq :=
  match x with
  | .late t => t
  | .error cause => { cause := cause }

/-- STREAM_SCATTER_WRITE (R161, R305): a scatter unit whose binding's predecessors are performed writes its next pushed entry. -/
def execStreamScatterWrite (core slot : Nat) (q : BitVec 3) (s : State) : Host.Outcome State Fault Refusal :=
  let pos := 4 * core + slot
  match s.ch.strand? pos with
  | none => .next s
  | some σ => match σ.binding? q.toNat with
    | none => .next s
    | some b => match s.ch.op? b.op, s.ch.streamBase σ (iterBase b.iter) with
      | some o, some base =>
        let put (b2 : Binding) (c : Chip) : Chip := c.modStrand pos fun τ => τ.setBinding q.toNat (some b2)
        if b.dir = .output ∧ s.ch.mayBegin o ∧ o.status ≠ .held ∧ s.ch.coreMoves pos ∧ !s.ch.segFrozen (streamSeg base 0 1) then
          if b.skipped b.pos then .next { s with ch := put ({ b with pos := b.pos + 1, bytePos := 0 } : Binding).pruned s.ch }
          else match b.entry? b.pos with
            | none => .next s
            | some e =>
              match scatterEntry o base b.iter b.pos e b.bytePos (Run.start s) with
              | (_, r, none) =>
                let b2 : Binding := { b with queue := b.queue.filter (fun x => x.1 != b.pos), pos := b.pos + 1, bytePos := 0 }
                .next (s.commit { chip := (put b2.pruned r.s.ch).serveRuns false pos .g (b.nextRuns base), writes := r.writes })
              | (i, r, some x) =>
                .next (s.commit { chip := (put { b with bytePos := i } r.s.ch).lateFault o (stopLate x), writes := r.writes })
        else .next s
      | _, _ => .next s

/-- The entries a released output binding still holds are written in order (R303); where one stops, the rest stay with it. -/
def scatterRest (o : Op) (base : Nat) (rec : BitVec 512) : List (Nat × BitVec 512) → Nat → Run →
    List (Nat × BitVec 512) × Nat × Run × Option Stop
  | [], _, r => ([], 0, r, none)
  | e :: es, from_, r =>
    match scatterEntry o base rec e.1 e.2 from_ r with
    | (_, r1, none) => scatterRest o base rec es 0 r1
    | (i, r1, some x) => (e :: es, i, r1, some x)

/-- The binding operation performed once it is released (R107, R303). -/
def performSbind (s : State) (o : Op) : Perf :=
  if o.progress = 0 then .notYet (Eff.quiet s.ch)
  else match o.data with
    | [] => .done (Eff.quiet s.ch)
    | d :: _ =>
      let rec_ : BitVec 512 := d.setWidth 512
      match (s.ch.strand? o.pos).bind fun σ => s.ch.streamBase σ (iterBase rec_) with
      | none => .done (Eff.quiet s.ch)
      | some base =>
        match scatterRest o base rec_ o.taken (nth 0 o.vals 0).toNat (Run.start s) with
        | (_, _, r, none) => .done { chip := r.s.ch, writes := r.writes }
        | (es, i, r, some x) =>
          let c := r.s.ch.modOp o.id fun p => { p with taken := es, vals := [BitVec.ofNat 64 i] }
          .late { chip := c, writes := r.writes } (stopLate x)

end Sys2Proof.Machine
end

