-- ==== Sys2Proof/Machine/Copy.lean ====
section
/-! DEFINITION. Copies and the weight-tile sort (R146 to R158, R306 to R312). -/

namespace Sys2Proof.Machine

/-! Issue. -/

/-- The checks of R21 on `n` bytes from `p + lo`; an extent of no bytes passes steps 4, 5 and 7. -/
def State.extent (s : State) (σ : Strand) (allow : Allow) (acc : Access) (p : Reg) (lo : Int) (n align : Nat)
    (pages : List (Nat × Nat)) : Chk Found :=
  if n = 0 then
    let none_ : Found := { loc := { ptr := p, tag := ptrTag p, segs := [] }, pages := pages, leaves := [] }
    match s.ch.checkPtr σ allow p 0 0 align with
    | .bad t =>
      if t.step = 4 ∨ t.step = 5 then (if ptrOff p % align = 0 then .ok none_ else .bad (ptrFault 0x13 6 p)) else .bad t
    | .hold va => .hold va
    | .held => .held
    | .ok _ => .ok none_
  else s.footprint σ allow acc p lo (lo + n - 1) align pages

/-- The named barrier of a command (R127, R292): no barrier for field 0; otherwise its bench pointer's checks. -/
def State.barrierOf (s : State) (σ : Strand) (b : BitVec 3) : Chk (Option Seg) :=
  if b = 0 then .ok none
  else (s.footprint σ benchOnly .store (σ.getG b.toNat) 0 15 16 []).bind fun f => .ok f.loc.segs.head?

/-- Step 5 of R293: a named barrier is initialised. -/
def State.barrierLive (s : State) (bar : Option Seg) : Bool :=
  match bar with
  | none => true
  | some g => (Bar.read s.mem g.phys).init

/-- A side of a copy: its pointer, the first byte relative to it, the extent, and the alignment. -/
structure Extent where
  ptr : Reg
  lo : Int
  n : Nat
  align : Nat

/-- The spaces of a copy's source and destination (R20). -/
def copySource : Allow := { global := true, bench := true, stratumAny := true, slot := true }
def copyDest : Allow := { global := true, bench := true, stratumAny := true }
def sortSource : Allow := { global := true, bench := true, stratumAny := true }
def sortDest : Allow := { bench := true, stratumAny := true }

/-- Steps 3 to 6 of R293 for a command of two footprints and a barrier field. -/
def copyIssue (s : State) (σ : Strand) (o : Op) (da sa : Allow) (d e : Extent) (b : BitVec 3) (more : Found → List Page) : Res :=
  s.onChk σ .g (o.od.getD odFresh) (s.extent σ da .store d.ptr d.lo d.n d.align []) fun fd =>
    s.onChk σ .g (o.od.getD odFresh) (s.extent σ sa .load e.ptr e.lo e.n e.align fd.pages) fun fs =>
      s.onChk σ .g (o.od.getD odFresh) (s.barrierOf σ b) fun bar =>
        if fd.loc.overlaps fs.loc then faulty 0x02
        else if !s.barrierLive bar then faulty 0x02
        else s.launchCommand σ { o with locs := [fd.loc, fs.loc], bar := bar } [] (fd.leaves ++ fs.leaves ++ more fd)

/-- The register of the pair that a shape field names (R309). -/
def gNext (g : BitVec 3) : BitVec 3 := g + 1

/-- Payload bytes, the source extent and the destination extent of a `cp`, by R307; none where len breaks its limits. -/
def cpExtents (zmode : Nat) (csum : Bool) (len : Nat) : Option (Nat × Nat × Nat) :=
  let b := len % 2 ^ 32
  let p := len / 2 ^ 32
  let t := if csum then 4 else 0
  match zmode with
  | 0 => if p = 0 then some (b, b + t, b) else none
  | 1 => if p = 0 ∧ b % 128 = 0 then some (b, b + t, b + b / 128) else none
  | _ => if p ≠ 0 ∧ b % 128 = 0 then some (p, p + t, b) else none

def execCp (d sp l b o : BitVec 3) (c : BitVec 1) (z : BitVec 2) (s : State) : Host.Outcome State Fault Refusal :=
  gIssue s [d, sp, l, b] [] fun σ =>
    match cpExtents z.toNat (c == 1) (σ.getG l.toNat).toNat with
    | none => faulty 0x02
    | some (_, sn, dn) =>
      let op := { s.opOf σ (.cp d sp l b o c z) (σ.odOf .g o.toNat) with
                  vals := [σ.getG d.toNat, σ.getG sp.toNat, σ.getG l.toNat, σ.getG b.toNat] }
      copyIssue s σ op copyDest copySource { ptr := σ.getG d.toNat, lo := 0, n := dn, align := 1 }
        { ptr := σ.getG sp.toNat, lo := 0, n := sn, align := 1 } b fun _ => []

/-- The two registers of a `cpst` shape: rows, row length, destination pitch, source pitch (R309). -/
structure Shape where
  rows : Nat
  len : Nat
  dp : Int
  sp : Int

def shapeOf (a b : Reg) : Shape :=
  { rows := bits a.toNat 32 32, len := bits a.toNat 0 32, dp := signed 32 (bits b.toNat 32 32), sp := signed 32 (bits b.toNat 0 32) }

/-- The lowest row start and the bytes from it to the end of the highest row (R309). -/
def rowsExtent (rows len : Nat) (pitch : Int) : Int × Nat :=
  let last := ((rows : Int) - 1) * pitch
  if rows = 0 ∨ len = 0 then (0, 0) else (min last 0, (max last 0 - min last 0).toNat + len)

def execCpst (d sp p b o : BitVec 3) (s : State) : Host.Outcome State Fault Refusal :=
  gIssue s [d, sp, p, gNext p, b] [] fun σ =>
    if p = 0 ∨ p = 7 then faulty 0x02
    else
      let sh := shapeOf (σ.getG p.toNat) (σ.getG (gNext p).toNat)
      let (dlo, dn) := rowsExtent sh.rows sh.len sh.dp
      let (slo, sn) := rowsExtent sh.rows sh.len sh.sp
      let op := { s.opOf σ (.cpst d sp p b o) (σ.odOf .g o.toNat) with
                  vals := [σ.getG d.toNat, σ.getG sp.toNat, σ.getG p.toNat, σ.getG (gNext p).toNat, σ.getG b.toNat] }
      copyIssue s σ op copyDest copySource { ptr := σ.getG d.toNat, lo := dlo, n := dn, align := 1 }
        { ptr := σ.getG sp.toNat, lo := slo, n := sn, align := 1 } b fun _ => []

/-! Coordinate-generator programs (R156 to R158). -/

structure CgAxis where
  axis : Nat
  org : Int
  ext : Nat
deriving DecidableEq, Repr

structure CgDim where
  axis : Nat
  factor : Int
  count : Nat
  stride : Int
deriving DecidableEq, Repr

structure CgProg where
  loge : Nat
  fill : Byte
  axes : List CgAxis
  strides : List (Nat × Int)
  dims : List CgDim
deriving DecidableEq, Repr

/-- The axis part of a program: AXIS and ASTR words in any order, each axis once in each (R156). -/
def cgAxes : List Nat → CgProg → Option (List Nat × CgProg)
  | [], _ => none
  | w :: ws, p =>
    let a := bits w 58 2
    match bits w 60 4 with
    | 2 =>
      if bits w 56 2 ≠ 0 ∨ bits w 0 32 = 0 ∨ p.axes.any (fun x => x.axis == a) then none
      else cgAxes ws { p with axes := p.axes ++ [{ axis := a, org := signed 24 (bits w 32 24), ext := bits w 0 32 }] }
    | 3 =>
      if bits w 48 10 ≠ 0 ∨ (p.strides.lookup a).isSome then none
      else cgAxes ws { p with strides := p.strides ++ [(a, signed 48 (bits w 0 48))] }
    | _ => some (w :: ws, p)

/-- The DIM words and the END word. -/
def cgDims : List Nat → CgProg → Option CgProg
  | [], _ => none
  | w :: ws, p =>
    match bits w 60 4 with
    | 4 =>
      let a := bits w 58 2
      if p.dims.length = 6 ∨ !p.axes.any (fun x => x.axis == a) then none
      else cgDims ws { p with dims := p.dims ++ [{ axis := a, factor := signed 16 (bits w 42 16), count := bits w 22 20 + 1,
                                                   stride := signed 22 (bits w 0 22) }] }
    | 15 => if bits w 0 60 = 0 ∧ p.dims ≠ [] then some p else none
    | _ => none

/-- A program of 5 to 16 words, legal by R156 and R158. -/
def cgParse : List Nat → Option CgProg
  | [] => none
  | h :: ws =>
    if bits h 60 4 = 1 ∧ bits h 11 49 = 0 ∧ bits h 8 3 ≤ 6 then
      (cgAxes ws { loge := bits h 8 3, fill := BitVec.ofNat 8 h, axes := [], strides := [], dims := [] }).bind fun (rest, p) =>
        if p.axes.length = p.strides.length ∧ p.axes ≠ [] ∧ p.axes.all (fun x => (p.strides.lookup x.axis).isSome) then cgDims rest p
        else none
    else none

/-- Every stride is a multiple of the element size (R158): those of the source, and of the destination too. -/
def CgProg.sourceAligned (p : CgProg) : Bool := p.strides.all fun x => x.2 % (2 ^ p.loge : Nat) == 0
def CgProg.aligned (p : CgProg) : Bool := p.sourceAligned && p.dims.all fun x => x.stride % (2 ^ p.loge : Nat) == 0

/-- The values of an axis over all counters (R157). -/
def CgProg.axisValues (p : CgProg) (x : CgAxis) : List Int :=
  (p.dims.filter fun d => d.axis == x.axis).foldl (fun vs d =>
    vs.flatMap fun v => (List.range d.count).map fun (c : Nat) => v + d.factor * (c : Int)) [x.org]

/-- The lowest and highest source offset of the elements that are read, or none when every element is fill (R158). -/
def CgProg.sourceRange (p : CgProg) : Option (Int × Int) :=
  p.axes.foldl (fun acc x =>
    let vs := (p.axisValues x).filter fun (v : Int) => decide (0 ≤ v ∧ v < (x.ext : Int))
    let offs := vs.map fun (v : Int) => v * (p.strides.lookup x.axis).getD 0
    match acc, offs with
    | some (lo, hi), f :: rest => some (lo + rest.foldl min f, hi + rest.foldl max f)
    | _, _ => none) (some (0, 0))

def CgProg.destRange (p : CgProg) : Int × Int :=
  p.dims.foldl (fun (lo, hi) d =>
    let e := d.stride * ((d.count : Int) - 1)
    (lo + min e 0, hi + max e 0)) (0, 0)

/-- The elements in order, outermost counter first: source offset, or none for fill, and destination offset (R157). -/
def CgProg.elements (p : CgProg) : List (Option Int × Int) :=
  let tuples := p.dims.foldl (fun ts d => ts.flatMap fun t => (List.range d.count).map fun (c : Nat) => t ++ [(c : Int)]) [([] : List Int)]
  tuples.map fun t =>
    let at_ := p.dims.zip t
    let xs := p.axes.map fun x =>
      (x, at_.foldl (fun v dc => if dc.1.axis = x.axis then v + dc.1.factor * dc.2 else v) x.org)
    let dst := at_.foldl (fun v dc => v + dc.1.stride * dc.2) 0
    if xs.all fun e => decide (0 ≤ e.2 ∧ e.2 < e.1.ext) then
      (some (xs.foldl (fun v e => v + e.2 * (p.strides.lookup e.1.axis).getD 0) 0), dst)
    else (none, dst)

/-- The program's words, read from the bench up to its END as one race-checked tile access (R310). The fuel is the 16 words a
program may have. -/
def State.readProgram (s : State) (σ : Strand) (o : Op) (p : Reg) : Nat → Nat → List Nat → Chk (List Nat)
  | 0, _, acc => .ok acc
  | fuel + 1, k, acc =>
    (s.footprint σ benchOnly .load p (8 * k) (8 * k + 7) 8 []).bind fun f =>
      let g := { o with locs := [f.loc] }.run
      match s.ch.side.checkRun (o.check g) g.phys 8 with
      | some b => .bad (markFault o g b)
      | none => match readHome s g with
        | .error b => .bad (badFault g b)
        | .ok bs =>
          let w := leNat bs
          if bits w 60 4 = 15 then .ok (acc ++ [w]) else s.readProgram σ o p fuel (k + 1) (acc ++ [w])

/-- The read of a program corrects what it meets (R48). -/
def State.programRead (s : State) (σ : Strand) (o : Op) (p : Reg) (ws : List Nat) : Chip :=
  match s.footprint σ benchOnly .load p 0 (8 * ws.length - 1) 8 [] with
  | .ok f =>
    let g := { o with locs := [f.loc] }.run
    (s.corrected g ((o.check g).consults g.phys g.len)).serveRuns false o.pos .g [g]
  | _ => s.ch

/-- The words of a program as one value, and back. -/
def packWords (ws : List Nat) : BitVec 8192 := BitVec.ofNat 8192 ((ws.foldl (fun (x : Nat × Nat) w => (x.1 + w * 2 ^ x.2, x.2 + 64)) (0, 0)).1)
def unpackWords (v : BitVec 8192) : List Nat := (List.range 16).map fun k => bits v.toNat (64 * k) 64

/-- The program pointer is checked and the program read before the footprints it gives are; a misaligned stride is reported with the pointer
it is added to (log entry 23). -/
def execCpCg (d sp p b o : BitVec 3) (s : State) : Host.Outcome State Fault Refusal :=
  gIssue s [d, sp, p, b] [] fun σ =>
    let op := { s.opOf σ (.cpCg d sp p b o) (σ.odOf .g o.toNat) with
                vals := [σ.getG d.toNat, σ.getG sp.toNat, σ.getG p.toNat, σ.getG b.toNat] }
    s.onChk σ .g (σ.odOf .g o.toNat) (s.readProgram σ op (σ.getG p.toNat) 16 0 []) fun ws =>
      let s : State := { s with ch := s.programRead σ op (σ.getG p.toNat) ws }
      match cgParse ws with
      | none => faulty 0x02
      | some prog =>
        if !prog.aligned then .trap (ptrFault 0x13 6 (σ.getG (if prog.sourceAligned then d else sp).toNat))
        else
          let size := 2 ^ prog.loge
          let (dlo, dhi) := prog.destRange
          let (slo, sn) := match prog.sourceRange with
            | some (lo, hi) => (lo, (hi - lo).toNat + size)
            | none => (0, 0)
          copyIssue s σ { op with data := [packWords ws] } copyDest copySource
            { ptr := σ.getG d.toNat, lo := dlo, n := (dhi - dlo).toNat + size, align := size }
            { ptr := σ.getG sp.toNat, lo := slo, n := sn, align := size } b fun _ => []

/-! Sorting (R311, R312). -/

/-- Rows, columns, code bits and segment length of a `wsort`, or none where its shape breaks a limit. -/
def sortShape (sh : Reg) (c l : BitVec 2) : Option (Nat × Nat × Nat × Nat) :=
  let r := bits sh.toNat 0 24
  let n := bits sh.toNat 24 24
  let len := 32 * 2 ^ l.toNat
  if r = 0 ∨ r % 64 ≠ 0 ∨ n = 0 ∨ n % len ≠ 0 ∨ bits sh.toNat 48 16 ≠ 0 then none else some (r, n, c.toNat + 1, len)

def execWsort (d sp p b o : BitVec 3) (c l : BitVec 2) (s : State) : Host.Outcome State Fault Refusal :=
  gIssue s [d, sp, p, b] [] fun σ =>
    match sortShape (σ.getG p.toNat) c l with
    | none => faulty 0x02
    | some (r, n, cb, len) =>
      let op := { s.opOf σ (.wsort d sp p b o c l) (σ.odOf .g o.toNat) with
                  vals := [σ.getG d.toNat, σ.getG sp.toNat, σ.getG p.toNat, σ.getG b.toNat] }
      copyIssue s σ op sortDest sortSource
        { ptr := σ.getG d.toNat, lo := 0, n := r / 64 * (n / len) * 64 * (len + 16), align := 16 }
        { ptr := σ.getG sp.toNat, lo := 0, n := r * n * cb / 8, align := 4 } b fun _ => []

/-- The row record of the codes of one row of one segment (R209, R312). -/
def sortRecord (codes : List Nat) : List Byte :=
  let pick (k : Nat) : List Nat := (List.range codes.length).filter fun x => nth 0 codes x == k
  let idx := (List.range 8).flatMap pick
  let ends := (List.range 8).map fun k => ((List.range (k + 1)).map fun j => (pick j).length).sum
  idx.map (BitVec.ofNat 8) ++ ends.flatMap (leBytes 2)

/-! Performing. -/

/-- CRC-32C, reflected (R152). -/
def crcBit (c : Nat) : Nat := if c % 2 = 1 then c / 2 ^^^ 0x82F63B78 else c / 2
def crcByte (c : Nat) (b : Byte) : Nat := (List.range 8).foldl (fun x _ => crcBit x) (c ^^^ b.toNat)
def crc32c (bs : List Byte) : Nat := bs.foldl crcByte 0xFFFFFFFF ^^^ 0xFFFFFFFF

/-- After the last payload byte the trailer is read and compared (R152). -/
def checkCrc (s : State) (o : Op) (src : Loc) (n : Nat) (x : Run × Option Stop) : Run × Option Stop :=
  Run.next x fun r =>
    match (Run.start s).read o src 0 (n + 4) with
    | .error e => (r, some e)
    | .ok (bs, _) => if leNat (bs.drop n) = crc32c (bs.take n) then (r, none) else (r, some (.error 0x31))

/-- Compress mode: block after block, `n` to go (R154). -/
def packBlocks (o : Op) (src dst : Loc) : Nat → Nat → Nat → Run → Run × Option Stop
  | 0, _, _, r => (r, none)
  | n + 1, i, out, r =>
    match r.read o src (128 * i) 128 with
    | .error e => (r, some e)
    | .ok (blk, r1) =>
      let (code, pay) := bdiCompress blk
      let piece := BitVec.ofNat 8 (code + (if n = 0 then 128 else 0)) :: pay
      Run.next (r1.write o dst out piece) (packBlocks o src dst n (i + 1) (out + piece.length))

/-- Expand mode: decoding from packed byte `i` of `p`, `n` blocks before the declared length (R155, R307). -/
def unpackBlocks (o : Op) (src dst : Loc) (p : Nat) : Nat → Nat → Nat → Run → Run × Option Stop
  | 0, _, _, r => (r, none)
  | n + 1, i, out, r =>
    if p ≤ i then (r, some (.error 0x31))
    else match r.read o src i 1 with
      | .error e => (r, some e)
      | .ok (hs, r1) =>
        let h := leNat hs
        match (if bits h 4 3 = 0 then bdiSize (h % 16) else none) with
        | none => (r1, some (.error 0x31))
        | some k =>
          if p < i + 1 + k then (r1, some (.error 0x31))
          else match r1.read o src (i + 1) k with
            | .error e => (r1, some e)
            | .ok (pay, r2) =>
              Run.next (r2.write o dst out ((bdiExpand (h % 16) pay).getD [])) fun r3 =>
                if h.testBit 7 then (r3, if n = 0 then none else some (.error 0x31))
                else if n = 0 then (r3, some (.error 0x31))
                else unpackBlocks o src dst p n (i + 1 + k) (out + 128) r3

/-- Rows of a `cpst`, by number (R309). -/
def copyRows (o : Op) (src dst : Loc) (sh : Shape) (slo dlo : Int) : List Nat → Run → Run × Option Stop
  | [], r => (r, none)
  | i :: is, r =>
    Run.next (r.copy o src dst ((i : Int) * sh.sp - slo).toNat ((i : Int) * sh.dp - dlo).toNat sh.len)
      (copyRows o src dst sh slo dlo is)

/-- Elements of a `cp.cg`. They are moved in no specified order (R157); the model takes the order of the counters, so that of two elements
that write one byte the later stands (log entry 81). -/
def copyElements (o : Op) (src dst : Loc) (p : CgProg) (slo dlo : Int) : List (Option Int × Int) → Run → Run × Option Stop
  | [], r => (r, none)
  | (x, d) :: es, r =>
    let n := 2 ^ p.loge
    let one := match x with
      | some off => r.copy o src dst (off - slo).toNat (d - dlo).toNat n
      | none => r.write o dst (d - dlo).toNat (List.replicate n p.fill)
    Run.next one (copyElements o src dst p slo dlo es)

/-- Records of a `wsort`: the row and the segment of each (R312). -/
def sortRows (o : Op) (src dst : Loc) (n c len : Nat) : List (Nat × Nat) → Run → Run × Option Stop
  | [], r => (r, none)
  | (i, sg) :: es, r =>
    match r.read o src (c * (i * n + len * sg) / 8) (c * len / 8) with
    | .error e => (r, some e)
    | .ok (bs, r1) =>
      let v := leNat bs
      let rec_ := sortRecord ((List.range len).map fun x => bits v (c * x) c)
      Run.next (r1.write o dst (((i / 64 * (n / len) + sg) * 64 + i % 64) * (len + 16)) rec_) (sortRows o src dst n c len es)

/-- A started streamer or screen command is performed. -/
def performCopy (s : State) (o : Op) : Perf :=
  let no : Loc := { ptr := 0, tag := 0, segs := [] }
  let dst := nth no o.locs 0
  let src := nth no o.locs 1
  let v (k : Nat) : Reg := nth 0 o.vals k
  let run (ranges : List (Nat × Nat)) (f : Run → Run × Option Stop) : Perf :=
    match fetchPeers s o src ranges with
    | some p => p
    | none => Run.finish (f (Run.start s)) o
  match o.instr with
  | .cp _ _ _ _ _ c z =>
    let b := bits (v 2).toNat 0 32
    match cpExtents z.toNat (c == 1) (v 2).toNat with
    | none => .done (Eff.quiet s.ch)
    | some (pay, sn, _) =>
      if b = 0 then Run.finish (Run.start s, none) o
      else
        run [(0, sn)] fun r =>
          let x := match z.toNat with
            | 0 => r.copy o src dst 0 0 b
            | 1 => packBlocks o src dst (b / 128) 0 0 r
            | _ => unpackBlocks o src dst pay (b / 128) 0 0 r
          if c = 1 then checkCrc s o src pay x else x
  | .cpst .. =>
    let sh := shapeOf (v 2) (v 3)
    let slo := (rowsExtent sh.rows sh.len sh.sp).1
    let dlo := (rowsExtent sh.rows sh.len sh.dp).1
    let rows := if sh.len = 0 then [] else List.range sh.rows
    run (rows.map fun (i : Nat) => (((i : Int) * sh.sp - slo).toNat, sh.len)) (copyRows o src dst sh slo dlo rows)
  | .cpCg .. =>
    match cgParse (unpackWords (nth 0 o.data 0)) with
    | none => .done (Eff.quiet s.ch)
    | some p =>
      let slo := (p.sourceRange.getD (0, 0)).1
      let es := p.elements
      run (es.filterMap fun e => e.1.map fun x => ((x - slo).toNat, 2 ^ p.loge)) (copyElements o src dst p slo p.destRange.1 es)
  | .wsort _ _ _ _ _ c l =>
    match sortShape (v 2) c l with
    | none => .done (Eff.quiet s.ch)
    | some (r, n, cb, len) =>
      let order := (List.range (r / 64)).flatMap fun g => (List.range (n / len)).flatMap fun sg =>
        (List.range 64).map fun j => (64 * g + j, sg)
      run [(0, r * n * cb / 8)] (sortRows o src dst n cb len order)
  | _ => .done (Eff.quiet s.ch)

end Sys2Proof.Machine
end

