-- ==== Sys2Proof/Machine/Exchange.lean ====
section
/-! DEFINITION. The exchange: links, sends, waits, grants and permits (R164 to R169, R313 to R316). -/

namespace Sys2Proof.Machine

/-- The checks of R21 on an lk operand, and the end of the link the strand stands at (R20, R231). -/
def Chip.linkOf (c : Chip) (σ : Strand) (p : Reg) : Except TrapReq LinkEnd :=
  match c.unitOf? σ with
  | none => .error (ptrFault 0x12 1 p)
  | some u =>
    if 4 < ptrTag p then .error (ptrFault 0x12 1 p)
    else if ptrTag p ≠ 4 then .error (ptrFault 0x12 2 p)
    else if !ptrReservedOk p ∨ ptrSlot p ≠ 0 ∨ ptrOff p ≠ 0 then .error (ptrFault 0x12 3 p)
    else match c.linkEnd? σ.who.job (ptrLink p) (dieOf u.core) with
      | some l => .ok l
      | none => .error (ptrFault 0x12 3 p)

/-- The end of a link an operation's lk operand names. -/
def Chip.linkOfOp (c : Chip) (o : Op) : Option LinkEnd :=
  match c.strand? o.pos with
  | some σ => match c.linkOf σ (nth 0 o.vals 0) with
    | .ok l => some l
    | .error _ => none
  | none => none

/-- A peer link leads to another package (R17). -/
def LinkEnd.toPeer (l : LinkEnd) : Bool := decide (0x10 ≤ l.link.toNat)

/-- The slot of a sequence number (R165). -/
def LinkEnd.slotOf (l : LinkEnd) (seq : BitVec 16) : Nat := (seq - 1).toNat % l.slots

def LinkEnd.tagAt (l : LinkEnd) (k : Nat) : Option (BitVec 16 × Nat) := l.tags.lookup k

/-- Issue of `xsend` (R314): a permit stall comes before R293; len, lk, and then q and the slot size are checked in the order of R293. -/
def execXsend (k q l o : BitVec 3) (s : State) : Host.Outcome State Fault Refusal :=
  gIssue s [k, l] [] fun σ =>
    let n := (σ.getG l.toNat).toNat
    let early : Bool := decide (n = 0 ∨ 2 ^ 32 ≤ n)
    let unbound : Bool := match σ.binding? q.toNat with
      | some b => b.dir != .input
      | none => true
    match s.ch.linkOf σ (σ.getG k.toNat) with
    | .error t => if early then faulty 0x02 else .trap t
    | .ok x =>
      if x.lerr then faulty 0x31
      else if x.permits = 0 then .stall s.ch
      else if early || unbound || decide (x.slotSize < n) then faulty 0x02
      else
        let op := { s.opOf σ (.xsend k q l o) (σ.odOf .g o.toNat) with
                    vals := [σ.getG k.toNat, σ.getG l.toNat], data := [x.txseq.setWidth 8192] }
        match s.launchCommand σ op [(q.toNat, ceilDiv n 64, .input)] [] with
        | .go e j =>
          .go (e.mapChip fun c => c.modLink x.job x.link x.far fun y =>
            { y with permits := y.permits - 1, txseq := y.txseq + 1 }) j
        | r => r

/-- Whether an operation stands at an end of a link. -/
def Chip.atEnd (c : Chip) (l : LinkEnd) (o : Op) : Bool :=
  match c.linkOfOp o with
  | some x => x.job == l.job && x.link == l.link && x.far == l.far
  | none => false

/-- What an operation sends from its end of a link may go now: the slots of the other end are reserved, and every send and grant that issued there before
it has gone (R164, R167). -/
def Chip.sendsNext (c : Chip) (l : LinkEnd) (o : Op) : Bool :=
  c.links.any (fun x => x.job == l.job && x.link == l.link && x.far == !l.far && x.placed) && c.ops.all fun p =>
    decide (o.id ≤ p.id) || p.status == .sent || !(match p.instr with
      | .xsend .. => true
      | .xgrant .. => true
      | _ => false) || !c.atEnd l p

/-- The head of what travels to an end of a link. -/
def Chip.nextArrival (c : Chip) (job : BitVec 64) (link : BitVec 16) (far : Bool) : Option (LinkEnd × Transit) :=
  (c.links.find? fun l => l.job == job && l.link == link && l.far == far).bind fun l =>
    if l.lerr then none else l.arriving.head?.map fun t => (l, t)

/-- The operation that sent what arrives, if it is one of this package, may be performed: its core is in no freeze (R117, R391). -/
def Chip.senderMoves (c : Chip) (op : Option Nat) : Bool :=
  match op.bind c.op? with
  | some o => c.coreMoves o.pos
  | none => true

/-- A started `xsend` that has its entries sends its bytes with its number to the other end (R166, R314). -/
def performXsend (s : State) (o : Op) : Perf :=
  match s.ch.claimFault o with
  | some t => .late (Eff.quiet s.ch) t
  | none =>
    if o.wants.isSome then .notYet (Eff.quiet s.ch)
    else match s.ch.linkOfOp o with
      | none => .failed (Eff.quiet s.ch) 0x31
      | some l =>
        if l.lerr then .failed (Eff.quiet s.ch) 0x31
        else if !s.ch.sendsNext l o then .notYet (Eff.quiet s.ch)
        else
          let tag : BitVec 16 := (nth 0 o.data 0).setWidth 16
          let bytes := (o.claimBytes 0).take (nth 0 o.vals 1).toNat
          let c1 := s.ch.modLink l.job l.link (!l.far) fun y => { y with arriving := y.arriving ++ [.send tag bytes (some o.id)] }
          let c2 := c1.modOp o.id fun p => { p with status := .sent }
          .notYet (Eff.quiet (if l.toPeer then { c2 with out := c2.out ++ [.linkSend l.job l.link tag bytes] } else c2))

/-- XSEND_DELIVERY (R166, R167): the oldest send on its way to an end, with nothing before it, arrives: its bytes in the slot of its
number, external to every quad (R141), and its tag. The `xsend` is performed. A failed link delivers nothing, nor does one whose slots are
not yet reserved (R164), and neither end moves while
the core of the slot or of the sender is in a freeze (R48, R391). -/
def execXsendDelivery (job : BitVec 64) (link : BitVec 16) (far : Bool) (s : State) : Host.Outcome State Fault Refusal :=
  match s.ch.nextArrival job link far with
  | some (l, .send tag bytes op) =>
    let k := l.slotOf tag
    let put := !(l.toPeer && far)
    let a := slotAt l k
    if !l.placed || (put && s.ch.segFrozen (streamSeg a 0 1)) || !s.ch.senderMoves op then .next s
    else
      let c1 := s.ch.modLink job link far fun y =>
        let z := { y with arriving := y.arriving.drop 1 }
        if put then { z with tags := putKey k (tag, bytes.length) z.tags } else z
      let c2 := { c1 with side := (c1.side.clearMarks (if put then granules a bytes.length else [])).rewritten a bytes.length }
      let s1 := s.commit { chip := if put then c2 else c1, writes := if put then [(a, bytes)] else [] }
      match op.bind s1.ch.op? with
      | some o => .next (s1.settle o (.done (Eff.quiet s1.ch)))
      | none => .next s1
  | _ => .next s

/-- Issue of the three words that name a link alone; a failed link is reported (R316). -/
def linkIssue (s : State) (i : Instr) (k o : BitVec 3) (dest : List RegName) (ready : Strand → LinkEnd → Option Res)
    (blocks : Bool) : Host.Outcome State Fault Refusal :=
  gIssue s [k] [] fun σ =>
    match s.ch.linkOf σ (σ.getG k.toNat) with
    | .error t => .trap t
    | .ok x =>
      if x.lerr then faulty 0x31
      else match ready σ x with
        | some r => r
        | none =>
          let op := { s.opOf σ i (σ.odOf .g o.toNat) with vals := [σ.getG k.toNat], dest := dest }
          match s.launchOp σ op [] with
          | .go e j =>
            .go (if blocks then e.mapChip fun c => c.modStrand σ.pos fun τ => τ.modCl .g fun y => { y with blocked := some op.id } else e) j
          | r => r

/-- Nothing stands in the slot of the next expected number (R315). -/
def xwaitStalls (l : LinkEnd) : Bool := (l.tagAt (l.slotOf l.rxseq)).isNone

def execXwait (k o : BitVec 3) (s : State) : Host.Outcome State Fault Refusal :=
  linkIssue s (.xwait k o) k o [] (fun _ x => if xwaitStalls x then some (.stall s.ch) else none) true

/-- Grants issued at an end of a link and not performed yet. -/
def Chip.pendingGrants (c : Chip) (l : LinkEnd) : Nat :=
  (c.ops.filter fun o => o.status == .issued && (match o.instr with
    | .xgrant .. => true
    | _ => false) && c.atEnd l o).length

def execXgrant (k o : BitVec 3) (s : State) : Host.Outcome State Fault Refusal :=
  linkIssue s (.xgrant k o) k o []
    (fun _ x => if x.full.length ≤ s.ch.pendingGrants x then some (faulty 0x02) else none) false

def execXstat (k d o : BitVec 3) (s : State) : Host.Outcome State Fault Refusal :=
  linkIssue s (.xstat k d o) k o [.g d.toNat] (fun _ _ => none) false

/-- The word of `xstat` (R166). -/
def LinkEnd.word (l : LinkEnd) : Reg :=
  BitVec.ofNat 64 ((if l.slots = 4 then 2 ^ 48 else 0) + l.txseq.toNat * 2 ^ 32 + l.rxseq.toNat * 2 ^ 16 + l.permits * 2 ^ 8
    + l.full.foldl (fun n k => n ||| 2 ^ (4 + k)) 0 + cond l.lerr 1 0)

/-- `xwait`, `xgrant` and `xstat` once their predecessors are performed (R166, R315). -/
def performLink (s : State) (o : Op) : Perf :=
  match s.ch.linkOfOp o with
  | none => .done (Eff.quiet s.ch)
  | some l =>
    if l.lerr then .fault (Eff.quiet s.ch) { cause := 0x31 }
    else match o.instr with
      | .xwait .. =>
        let k := l.slotOf l.rxseq
        match l.tagAt k with
        | none => .notYet (Eff.quiet s.ch)
        | some (tag, _) =>
          if tag ≠ l.rxseq then .fault (Eff.quiet s.ch) { cause := 0x33 }
          else .done (Eff.quiet (s.ch.modLink l.job l.link l.far fun y =>
            { y with full := y.full ++ [k], rxseq := y.rxseq + 1, tags := y.tags.filter fun t => t.1 != k }))
      | .xgrant .. =>
        if !s.ch.sendsNext l o then .notYet (Eff.quiet s.ch)
        else
        let c1 := s.ch.modLink l.job l.link l.far fun y => { y with full := y.full.drop 1 }
        let c2 := c1.modLink l.job l.link (!l.far) fun y => { y with arriving := y.arriving ++ [.permit (some o.id)] }
        let c3 := c2.modOp o.id fun p => { p with status := .sent }
        .notYet (Eff.quiet (if l.toPeer then { c3 with out := c3.out ++ [.linkPermit l.job l.link] } else c3))
      | .xstat _ d _ => .done (Eff.quiet (s.ch.bindReg o (.g d.toNat) fun σ => σ.setG d.toNat l.word))
      | _ => .done (Eff.quiet s.ch)

/-- PERMIT_RETURN (R166, R167, R169): a permit that is the oldest on its way reaches the sender; the `xgrant` that returned it is
performed. -/
def execPermitReturn (job : BitVec 64) (link : BitVec 16) (far : Bool) (s : State) : Host.Outcome State Fault Refusal :=
  match s.ch.nextArrival job link far with
  | some (_, .permit op) =>
    if !s.ch.senderMoves op then .next s
    else
      let s1 := { s with ch := s.ch.modLink job link far fun y => { y with arriving := y.arriving.drop 1, permits := y.permits + 1 } }
      match op.bind s1.ch.op? with
      | some o => .next (s1.settle o (.done (Eff.quiet s1.ch)))
      | none => .next s1
  | _ => .next s

/-- What becomes of an operation on a failed link (R169, R314): a send in flight ends in error 0x31; a wait or a grant that is
pending is reported, precise; on a core in a freeze, once the freeze has ended. -/
def failOnLink (s : State) (o : Op) : State :=
  if !s.ch.coreMoves o.pos then
    (if o.status = .sent then { s with ch := s.ch.modOp o.id fun x => { x with status := if (engineOf o.instr).isSome then .started else .issued } }
    else s)
  else match o.instr with
  | .xsend .. => if o.status = .sent then s.settle o (.failed (Eff.quiet s.ch) 0x31) else s
  | .xwait .. => s.settle o (.fault (Eff.quiet s.ch) { cause := 0x31 })
  | .xgrant .. => s.settle o (.fault (Eff.quiet s.ch) { cause := 0x31 })
  | _ => s

/-- A link fails (R169): LERR at both ends; nothing on its way arrives. -/
def State.failLink (s : State) (link : BitVec 16) : State :=
  let hit := s.ch.ops.filter fun o => match s.ch.linkOfOp o with
    | some l => l.link == link && (match o.instr with
      | .xsend .. => true
      | .xwait .. => true
      | .xgrant .. => true
      | _ => false)
    | none => false
  let c := { s.ch with links := s.ch.links.map fun l =>
    if l.link == link then { l with lerr := true, arriving := [] } else l }
  hit.foldl failOnLink { s with ch := c }

/-- LINK_FAILURE (R169). -/
def execLinkFailure (link : BitVec 16) (s : State) : Host.Outcome State Fault Refusal := .next (s.failLink link)

end Sys2Proof.Machine
end

