-- ==== Sys2Proof/Machine/Sync.lean ====
section
/-! DEFINITION. Descriptors, `osq`, tokens, byte barriers and hierarchy barriers of the C cluster (R283 to R291, R108 to R113,
R125 to R133, R138). -/

namespace Sys2Proof.Machine

/-! Descriptors and streams. -/

/-- `odseti` (R283): a scope of 5 to 7 is an illegal operand. -/
def execOdseti (o sp : BitVec 3) (p : BitVec 8) (c : BitVec 3) (s : State) : Host.Outcome State Fault Refusal :=
  issue s [] fun _ =>
    if 4 < c.toNat then faulty 0x02
    else onStrand s fun σ => { σ with od := setNth odFresh σ.od o.toNat (odWord sp.toNat p.toNat c.toNat) }

/-- `odset` (R283): bits [63:14] of a must be zero. -/
def execOdset (o : BitVec 3) (a : BitVec 5) (s : State) : Host.Outcome State Fault Refusal :=
  issue s [.s a.toNat] fun σ =>
    let v := (σ.getS a.toNat).toNat
    if 2 ^ 14 ≤ v ∨ 4 < v % 8 then faulty 0x02
    else onStrand s fun σ2 => { σ2 with od := setNth odFresh σ2.od o.toNat (BitVec.ofNat 14 v) }

/-- `osq` (R284): the live stream word; EXH of a C stream reads 0. -/
def execOsq (d : BitVec 5) (c : BitVec 2) (sp : BitVec 3) (s : State) : Host.Outcome State Fault Refusal :=
  issue s [] fun σ => onStrand s fun σ2 =>
    let w := (σ.cl (clOf c.toNat)).word sp.toNat
    σ2.setS d.toNat (if c = 0 then w &&& ~~~(0x4000000000#64) else w)

/-! Tokens. -/

/-- `tkpost` (R112, R286): the token records ISSUED of the masked streams of the named cluster, and carries now of that
cluster's agent. -/
def execTkpost (t : BitVec 4) (c : BitVec 2) (m : BitVec 8) (s : State) : Host.Outcome State Fault Refusal :=
  issue s [] fun σ =>
    let x := clOf c.toNat
    if t = 0 then faulty 0x02
    else if (σ.token t.toNat).st = 1 then faulty 0x32
    else if s.ch.exhausted σ.pos x then faulty 0x19
    else
      let cover := ((List.range 8).filter fun k => m.getLsbD k).map fun k => (k, ((σ.cl x).stream k).issued)
      let tok : Token := { st := 1, cause := 0, cover := some (x, cover), vec := s.ch.now σ.pos x }
      .go (Eff.quiet ((s.ch.modStrand σ.pos fun σ2 => (σ2.setToken t.toNat tok).settleTokens false).advanceClock σ.pos x)) none

/-- `tkwait` (R113, R287): waits for done and acquires; an error is reported with the token's cause. -/
def execTkwait (t : BitVec 4) (s : State) : Host.Outcome State Fault Refusal :=
  issue s [] fun σ =>
    let tok := σ.token t.toNat
    if t = 0 then faulty 0x02
    else if tok.st = 3 then .trap { cause := tok.cause, kind := 3 }
    else if tok.st = 2 then .go (Eff.quiet (s.ch.acquire σ.pos .c tok.vec)) none
    else .stall s.ch

def execTktest (d : BitVec 5) (t : BitVec 4) (s : State) : Host.Outcome State Fault Refusal :=
  issue s [] fun σ =>
    if t = 0 then faulty 0x02 else onStrand s fun σ2 => σ2.setS d.toNat (σ.token t.toNat).word

def execTkclr (t : BitVec 4) (s : State) : Host.Outcome State Fault Refusal :=
  issue s [] fun σ =>
    if t = 0 then faulty 0x02
    else if (σ.token t.toNat).st = 1 then faulty 0x32
    else onStrand s fun σ2 => σ2.endToken t.toNat 0 0

/-! Byte barriers. -/

/-- The issue of a `bar` instruction (R288): operand limits, the pointer's checks, and for a releasing form the clock. -/
def barIssue (s : State) (i : Instr) (b : BitVec 5) (a : Option (BitVec 5)) (dest : List RegName) (ok : Reg → Bool)
    (release blocks : Bool) (od : BitVec 3) : Host.Outcome State Fault Refusal :=
  issue s (.s b.toNat :: a.toList.map fun r => .s r.toNat) fun σ =>
    let v := (a.map fun r => σ.getS r.toNat).getD 0
    if !ok v then faulty 0x02
    else
      s.onChk σ .c (σ.odOf .c od.toNat) (s.footprint σ benchOnly .store (σ.getS b.toNat) 0 15 16 []) fun f =>
        if s.ch.moving f.loc.segs then .stall s.ch
        else if release && s.ch.exhausted σ.pos .c then faulty 0x19
        else
          let o := { s.opOf σ i (σ.odOf .c od.toNat) with vals := [v], locs := [f.loc], dest := dest }
          match (if blocks then (s.launchOp σ o f.leaves).blocking o else s.launchOp σ o f.leaves) with
          | .go e j => .go (if release then e.mapChip fun c => c.advanceClock σ.pos .c else e) j
          | r => r

def execBarInit (b a : BitVec 5) (o : BitVec 3) (s : State) :=
  barIssue s (.barInit b a o) b (some a) [] (fun v => decide (1 ≤ v.toNat ∧ v.toNat < 65536)) false false o
def execBarExpect (b a : BitVec 5) (o : BitVec 3) (s : State) :=
  barIssue s (.barExpect b a o) b (some a) [] (fun v => decide (1 ≤ v.toNat ∧ v.toNat < 2 ^ 31)) true false o
def execBarArrive (b : BitVec 5) (o : BitVec 3) (s : State) := barIssue s (.barArrive b o) b none [] (fun _ => true) true false o
def execBarWait (b a : BitVec 5) (o : BitVec 3) (s : State) :=
  barIssue s (.barWait b a o) b (some a) [] (fun _ => true) false true o
def execBarTest (b a : BitVec 5) (o : BitVec 3) (s : State) :=
  barIssue s (.barTest b a o) b none [.s a.toNat] (fun _ => true) false false o
def execBarInval (b : BitVec 5) (o : BitVec 3) (s : State) := barIssue s (.barInval b o) b none [] (fun _ => true) false false o

/-- The forms of `bar` (R288). -/
inductive BarForm where
  | init | expect | arrive | wait | test (d : Nat) | inval
deriving DecidableEq, Repr

def barForm : Instr → Option BarForm
  | .barInit .. => some .init
  | .barExpect .. => some .expect
  | .barArrive .. => some .arrive
  | .barWait .. => some .wait
  | .barTest _ a _ => some (.test a.toNat)
  | .barInval .. => some .inval
  | _ => none

/-- The result of `bar.test` (R126). -/
def Bar.testWord (b : Bar) : Reg :=
  BitVec.ofNat 64 ((BitVec.ofInt 32 b.pendBytes).toNat * 2 ^ 32 + cond b.init (2 ^ 26) 0 + cond b.overrun (2 ^ 25) 0
    + cond b.error (2 ^ 24) 0 + b.phase * 2 ^ 16 + b.pendArr)

/-- A barrier operation performed in one bank cycle on a granule that can be read (R126, R128, R138). -/
def performBarAt (s : State) (o : Op) (f : BarForm) : Perf :=
  let g := o.run
  let b := Bar.read s.mem g.phys
  let quiet := Eff.quiet s.ch
  let fail (cause kind : BitVec 8) : Perf := .fault quiet { cause := cause, kind := kind }
  let flagged (cause : BitVec 8) : Option Perf :=
    if b.error then some (fail cause 3) else if b.overrun then some (fail 0x30 3) else none
  match f with
    | .init =>
      let q := s.ch.quad (quadOfBench g.phys)
      if b.init ∨ 1024 ≤ q.bars.length then fail 0x02 0
      else
        let n := (nth 0 o.vals 0).toNat
        let b2 : Bar := { expected := n, pendArr := n, pendBytes := 0, phase := 0, error := false, overrun := false, init := true,
                          upper := 0 }
        .done { chip := s.ch.modQuad (quadOfBench g.phys) fun q =>
            { q with bars := { addr := g.phys, phase := [], acc := [], since := s.ch.nextId, cause := 0x31 } :: q.bars },
                writes := [(g.phys, b2.bytes)] }
    | .expect =>
      if !b.init then fail 0x02 0
      else match flagged 0x31 with
        | some r => r
        | none =>
          let (b2, done) := (b.setPend (b.pendBytes + (nth 0 o.vals 0).toNat)).arrival
          .done { chip := (s.ch.barRelease g.phys o.vec).barPhase g.phys done, writes := [(g.phys, b2.bytes)] }
    | .arrive =>
      if !b.init then fail 0x02 0
      else
        let (b2, done) := b.arrival
        .done { chip := (s.ch.barRelease g.phys o.vec).barPhase g.phys done, writes := [(g.phys, b2.bytes)] }
    | .wait =>
      if !b.init then fail 0x02 0
      else match flagged (((s.ch.barClock? g.phys).map (·.cause)).getD 0x31) with
        | some r => r
        | none =>
          if b.phase = (nth 0 o.vals 0).toNat % 256 then .notYet quiet
          else .done (Eff.quiet (s.ch.acquire o.pos .c (((s.ch.barClock? g.phys).map (·.phase)).getD [])))
    | .test d => if !b.init then fail 0x02 0 else .done (Eff.quiet (s.ch.bindS o d b.testWord))
    | .inval =>
      if !b.init then fail 0x02 0
      else
        let b2 := { b with init := false, pendArr := 0, pendBytes := 0 }
        let waiters := s.ch.ops.filter fun p => barForm p.instr == some .wait && p.run.phys == g.phys && p.status == .issued && s.ch.mayBegin p
        let c1 := s.ch.modQuad (quadOfBench g.phys) fun q => { q with bars := q.bars.filter fun e => e.addr != g.phys }
        let twice := waiters.filter fun p => (s.ch.strand? p.pos).any Strand.privileged
        .done { chip := waiters.foldl (fun c p => c.preciseFault p { cause := 0x02 }) c1,
                writes := (g.phys, b2.bytes) :: twice.map fun p => (ctxArea p.pos + 5, [memRead s.mem (ctxArea p.pos + 5) ||| 8]) }

/-- A barrier operation performed: the granule is read first, and what can be corrected in it is (R48, R51). -/
def performBar (s : State) (o : Op) (f : BarForm) : Perf :=
  match s.ch.side.uncorrectable o.run.phys 16 with
  | some w => s.faultAfter o.run [] (badFault o.run { cause := 0x38, addr := w })
  | none => performBarAt { s with ch := s.corrected o.run [] } o f

/-! Hierarchy barriers. -/

/-- The instance of a scope a unit belongs to (R130): its quad group, its die, or the one instance of pkg and pod. -/
def hbarSite (u : UnitRec) (scope : Nat) : Nat :=
  match scope with
  | 1 => u.num.toNat / u.gsize
  | 2 => bits u.quadpos.toNat 20 3
  | _ => 0

/-- The participants of an instance on this package (R130). -/
def Chip.participants (c : Chip) (job : BitVec 64) (scope site : Nat) : List UnitRec :=
  c.units.filter fun u => u.job == job && hbarSite u scope == site

def Chip.hbar (c : Chip) (job : BitVec 64) (scope site : Nat) : Hbar :=
  (c.hbars.find? fun h => h.job == job && h.scope == scope && h.site == site).getD
    { job := job, scope := scope, site := site, phase := 0, arrived := [], last := [], acq := [] }

def Chip.setHbar (c : Chip) (h : Hbar) : Chip :=
  { c with hbars := h :: c.hbars.filter fun x => !(x.job == h.job && x.scope == h.scope && x.site == h.site) }

/-- A key for the quad's vector of an instance. -/
def hbarKey (scope site : Nat) : Nat := scope * 2 ^ 24 + site

/-- The quad's vector for a phase (R138). -/
def Quad.hbarVec (q : Quad) (job : BitVec 64) (key phase : Nat) : Vec :=
  ((q.hbars.find? fun e => e.1 == job && e.2.1 == key && e.2.2.1 == phase).map fun e => e.2.2.2).getD []

def Quad.hbarRelease (q : Quad) (job : BitVec 64) (key phase : Nat) (v : Vec) : Quad :=
  let old := q.hbarVec job key phase
  { q with hbars := (job, key, phase, vjoin old v) :: q.hbars.filter fun e => !(e.1 == job && e.2.1 == key && e.2.2.1 == phase) }

/-- The unit has arrived in the phase that is not complete (R131). -/
def Hbar.hasArrived (h : Hbar) (u : BitVec 24) : Bool := h.arrived.contains u

/-- The instance and the waiting part of an `hbar` word: its scope, and whether it arrives. -/
def hbarArrives : Instr → Option Nat
  | .hbarAw c _ => some c.toNat
  | .hbarA c _ => some c.toNat
  | _ => none

/-- The phase in which the `hbar.aw` at a strand's place has arrived already, before it was taken back (R133). -/
def Strand.cameBack (σ : Strand) (arr waits : Bool) : Option Nat :=
  if arr && waits then (σ.trap.arrived.filter fun x => x.1 == σ.c.pc).map (·.2.1) else none

/-- The issue of `hbar` (R130, R131, R290): `arr` and `waits` say which parts the form has. An `hbar.aw` that has arrived already only waits
(R133). -/
def hbarIssue (s : State) (i : Instr) (sc od : BitVec 3) (arr waits : Bool) : Host.Outcome State Fault Refusal :=
  issue s [] fun σ =>
    match s.ch.unitOf? σ, s.ch.job? σ.who.job with
    | some u, some j =>
      if sc.toNat = 0 ∨ 4 < sc.toNat then faulty 0x02
      else if 2 ≤ sc.toNat ∧ !j.corFlag then faulty 0x02
      else
      let back := σ.cameBack arr waits
      if arr && back.isNone && s.ch.exhausted σ.pos .c then faulty 0x19
      else if arr && !waits && (s.ch.hbar σ.who.job sc.toNat (hbarSite u sc.toNat)).hasArrived u.num then .stall s.ch
      else
        let o : Op :=
          { s.opOf σ i (σ.odOf .c od.toNat) with
            progress := if arr && back.isNone then 0 else 1, taken := (back.map fun p => (0, BitVec.ofNat 512 p)).toList }
        let after (c : Chip) : Chip :=
          if back.isSome then c.modStrand σ.pos fun τ => { τ with trap := { τ.trap with arrived := none } }
          else if arr then c.advanceClock σ.pos .c else c
        match (if waits then (s.launchOp σ o []).blocking o else s.launchOp σ o []) with
        | .go e jmp => .go (e.mapChip after) jmp
        | r => r
    | _, _ => faulty 0x02

def execHbarAw (c o : BitVec 3) (s : State) := hbarIssue s (.hbarAw c o) c o true true
def execHbarA (c o : BitVec 3) (s : State) := hbarIssue s (.hbarA c o) c o true false
def execHbarW (c o : BitVec 3) (s : State) := hbarIssue s (.hbarW c o) c o false true

/-- The scope of an `hbar` and whether it waits. -/
def hbarForm : Instr → Option (Nat × Bool)
  | .hbarAw c _ => some (c.toNat, true)
  | .hbarA c _ => some (c.toNat, false)
  | .hbarW c _ => some (c.toNat, true)
  | _ => none

/-- The arrival of a unit in the current phase: a release into its quad's vector (R131, R138). -/
def arriveHbar (c : Chip) (o : Op) (u : UnitRec) (h : Hbar) : Chip :=
  let c1 := c.setHbar { h with arrived := u.num :: h.arrived, last := putKey u.num h.phase h.last }
  c1.modQuad (quadOfPos o.pos) fun q => q.hbarRelease h.job (hbarKey h.scope h.site) h.phase o.vec

/-- The phase that a wait awaits: the one in which the unit had last arrived when the wait began (R131, R133). -/
def Hbar.awaited (h : Hbar) (o : Op) (u : UnitRec) : Option Nat := match o.taken.lookup 0 with
  | some p => some p.toNat
  | none => h.last.lookup u.num

/-- The wait of an `hbar` completes (R131, R138, R290, R70). The last completed wait is the strand's own: a phase that another strand of the unit
has acquired is acquired all the same (log entry 51). -/
def passHbar (c : Chip) (o : Op) (u : UnitRec) (h : Hbar) (strand : Nat) : Chip :=
  let key := u.num.toNat * 4 + strand
  let c1 := match h.awaited o u with
    | none => c
    | some p =>
      if (h.acq.lookup key).getD 0 ≤ p then
        (c.setHbar { h with acq := putKey key (p + 1) h.acq }).acquire o.pos .c
          ((c.quad (quadOfPos o.pos)).hbarVec h.job (hbarKey h.scope h.site) p)
      else c
  if 2 ≤ h.scope then c1.dropJobLines (quadOfPos o.pos) o.job else c1

/-- An `hbar` performed: the arrival once the unit has none in the current phase, then the wait once the phase in which the unit had last arrived
as the wait began has completed (R131); `taken` holds that phase. `progress` 1 says that the arrival is made, 2 that it stalls its cluster until
the phase in which the unit has arrived already completes. -/
def performHbar (s : State) (o : Op) (scope : Nat) (waits : Bool) : Perf :=
  match s.ch.strand? o.pos with
  | none => .notYet (Eff.quiet s.ch)
  | some σ =>
    match s.ch.unitOf? σ with
    | none => .notYet (Eff.quiet s.ch)
    | some u =>
      let h := s.ch.hbar o.job scope (hbarSite u scope)
      let begin_ (c : Chip) (p : Nat) : Chip := c.modOp o.id fun x => { x with progress := 1, taken := [(0, BitVec.ofNat 512 p)] }
      if o.progress ≠ 1 then
        if h.hasArrived u.num then
          .notYet (Eff.quiet (if o.progress = 2 then s.ch else (s.ch.block o).modOp o.id fun x => { x with progress := 2 }))
        else
          let c1 := arriveHbar s.ch o u h
          if waits then .notYet (Eff.quiet (begin_ c1 h.phase)) else .done (Eff.quiet c1)
      else match h.awaited o u with
        | none => .done (Eff.quiet (passHbar s.ch o u h σ.who.strand))
        | some p =>
          if p < h.phase then .done (Eff.quiet (passHbar s.ch o u h σ.who.strand))
          else .notYet (Eff.quiet (if o.taken.isEmpty then begin_ s.ch p else s.ch))

/-! Pod-wide phases (R131, R413). -/

/-- A part of a pod job has said in how many phases of the pod barrier its units have arrived; all of them once they have ended. -/
def Chip.putArrival (c : Chip) (pod : BitVec 32) (part : Nat) (n : Option Nat) : Chip :=
  { c with phases := (pod, part, n) :: c.phases.filter fun p => !(p.1 == pod && p.2.1 == part) }

/-- Every unit of a part has arrived in a phase of the pod barrier. -/
def Chip.partArrived (c : Chip) (pod : BitVec 32) (part phase : Nat) : Bool := c.phases.any fun p =>
  p.1 == pod && p.2.1 == part && match p.2.2 with
    | none => true
    | some n => decide (phase < n)

/-- The pod barrier message of this package's part; a package with no number sends none (R413). -/
def Chip.tellArrival (c : Chip) (j : Job) (n : Option Nat) : Chip := match c.plat.pkgNum with
  | some p => { c.putArrival j.pod j.podIdx n with out := c.out ++ [.arrived j.pod j.podIdx n p] }
  | none => c

/-- HBAR_RELEASE (R131, R132): every participant of the instance on this package has arrived or has ended, and the phase completes. In a pod-wide
instance over several packages this part first tells the others (R413), and then awaits the message of each of them. -/
def execHbarRelease (job : BitVec 64) (scope site : Nat) (s : State) : Host.Outcome State Fault Refusal :=
  match s.ch.job? job with
  | none => .next s
  | some j =>
    let h := s.ch.hbar job scope site
    let ps := s.ch.participants job scope site
    if h.arrived.isEmpty || !ps.all (fun u => u.ended || h.hasArrived u.num) then .next s
    else if scope = 4 ∧ 1 < j.podN ∧ s.ch.partArrived j.pod j.podIdx h.phase = false then
      .next { s with ch := s.ch.tellArrival j (some (h.phase + 1)) }
    else if scope = 4 ∧ !(List.range j.podN).all (fun n => s.ch.partArrived j.pod n h.phase || decide (j.podN ≤ 1)) then .next s
    else .next { s with ch := s.ch.setHbar { h with phase := h.phase + 1, arrived := [] } }

end Sys2Proof.Machine
end

