-- ==== Sys2Proof/Machine/Collective.lean ====
section
/-! DEFINITION. The collective engines (R170 to R173, R317, R318). -/

namespace Sys2Proof.Machine

/-- The operation, operator and element type of a collective as one number, equal for matching commands (R172). -/
def collKind : Instr → Nat
  | .clAr _ _ _ _ _ _ p t => 0 + 4 * p.toNat + 16 * t.toNat
  | .clBc .. => 1
  | .clAg .. => 2
  | .clRs _ _ _ _ _ _ p t => 3 + 4 * p.toNat + 16 * t.toNat
  | _ => 0

def collScope : Instr → Option Nat
  | .clAr _ _ _ _ _ c _ _ => some c.toNat
  | .clBc _ _ _ _ _ c => some c.toNat
  | .clAg _ _ _ _ c => some c.toNat
  | .clRs _ _ _ _ _ c _ _ => some c.toNat
  | _ => none

/-- A participant before another in rank (R170). -/
def rankLe (a b : UnitRec) : Bool :=
  let da := bits a.quadpos.toNat 20 3
  let db := bits b.quadpos.toNat 20 3
  decide (da < db) || (da == db && decide (a.num.toNat ≤ b.num.toNat))

/-- The participants of a scope instance on this package, in rank order. -/
def Chip.ranked (c : Chip) (job : BitVec 64) (scope site : Nat) : List UnitRec :=
  sortBy rankLe (c.participants job scope site)

/-- The parts of a pod job in the order of their package numbers, which the parts' signals have told (R170, R380). -/
def Chip.partOrder (c : Chip) (j : Job) : List Nat :=
  (sortBy (fun a b => decide (a.2.toNat ≤ b.2.toNat)) ((j.podIdx, c.plat.pkgNum.getD 0) :: j.parts)).map (·.1)

/-- The participants of the whole instance: at pod scope each of the parts of the pod job has as many units (R373; log entry 24). -/
def Chip.collSize (c : Chip) (j : Job) (scope site : Nat) : Nat :=
  (c.ranked j.id scope site).length * (if scope = 4 then j.podN else 1)

/-- The rank of a unit. -/
def Chip.rankOf (c : Chip) (j : Job) (scope site : Nat) (u : UnitRec) : Nat :=
  let l := c.ranked j.id scope site
  (l.findIdx fun w => w.num == u.num) + (if scope = 4 then (c.partOrder j).idxOf j.podIdx * l.length else 0)

/-- A unit's count of collective commands at a scope. -/
def UnitRec.collCount (u : UnitRec) (scope : Nat) : Nat := (u.colls.lookup scope).getD 0

/-- Issue of a collective (R292, R293, R318): limits, the destination, the source where it is read, overlap. -/
def clIssue (s : State) (i : Instr) (d sp l : BitVec 3) (r : Option (BitVec 3)) (o c : BitVec 3) (elem : Nat) :
    Host.Outcome State Fault Refusal :=
  gIssue s ([d, sp, l] ++ r.toList) [] fun σ =>
    match s.ch.unitOf? σ, s.ch.job? σ.who.job with
    | some u, some j =>
      let scope := c.toNat
      let site := hbarSite u scope
      let n := s.ch.collSize j scope site
      let len := (σ.getG l.toNat).toNat
      let root := (r.map fun x => (σ.getG x.toNat).toNat).getD 0
      let kind := collKind i % 4
      let reads := kind != 1 || s.ch.rankOf j scope site u == root
      if scope < 2 ∨ 4 < scope ∨ !j.corFlag then faulty 0x02
      else if len < elem ∨ 2 ^ 31 - 4 < len ∨ len % elem ≠ 0 then faulty 0x02
      else if r.isSome ∧ n ≤ root then faulty 0x02
      else
        let allow : Allow := { global := true, bench := true }
        let dp := σ.getG d.toNat
        let ep := σ.getG sp.toNat
        let dn := if kind = 2 then n * len else len
        let sn := if !reads then 0 else if kind = 3 then n * len else len
        s.onChk σ .g (σ.odOf .g o.toNat) (s.footprint σ allow .store dp 0 (dn - 1) 1 []) fun fd =>
          s.onChk σ .g (σ.odOf .g o.toNat) (if reads then s.footprint σ allow .load ep 0 (sn - 1) 1 fd.pages
              else .ok { loc := { ptr := ep, tag := 0, segs := [] }, pages := fd.pages, leaves := [] }) fun fs =>
            if fd.loc.overlaps fs.loc && !(decide (kind < 2) && dp == ep) then faulty 0x02
            else
              let op := { s.opOf σ i (σ.odOf .g o.toNat) with
                          vals := [dp, ep, σ.getG l.toNat] ++ r.toList.map (fun x => σ.getG x.toNat), locs := [fd.loc, fs.loc],
                          data := [BitVec.ofNat 8192 (u.collCount scope)] }
              match s.launchCommand σ op [] (fd.leaves ++ fs.leaves) with
              | .go e jmp =>
                .go (e.mapChip fun ch => ch.modUnit σ.who.job σ.who.unit fun w =>
                  { w with colls := putKey scope (w.collCount scope + 1) w.colls }) jmp
              | x => x
    | _, _ => faulty 0x02

/-- The element size of a ty field. -/
def clElem (t : BitVec 2) : Nat := if t = 1 then 2 else 4

def execClAr (d sp l r o c : BitVec 3) (p t : BitVec 2) (s : State) : Host.Outcome State Fault Refusal :=
  clIssue s (.clAr d sp l r o c p t) d sp l none o c (clElem t)
def execClBc (d sp l r o c : BitVec 3) (s : State) : Host.Outcome State Fault Refusal :=
  clIssue s (.clBc d sp l r o c) d sp l (some r) o c 4
def execClAg (d sp l o c : BitVec 3) (s : State) : Host.Outcome State Fault Refusal :=
  clIssue s (.clAg d sp l o c) d sp l none o c 4
def execClRs (d sp l r o c : BitVec 3) (p t : BitVec 2) (s : State) : Host.Outcome State Fault Refusal :=
  clIssue s (.clRs d sp l r o c p t) d sp l none o c (clElem t)

/-! Reductions (R171). -/

/-- The two combine operations on f32 or i32 words: add, max, min. -/
def combineWord (isInt : Bool) (rop a b : Nat) : Nat :=
  if isInt then
    let x := signed 32 a
    let y := signed 32 b
    match rop with
    | 0 => (BitVec.ofInt 32 (saturate (-(2 ^ 31)) (2 ^ 31 - 1) (x + y)).1).toNat
    | 1 => if x < y then b else a
    | _ => if y < x then b else a
  else
    match rop with
    | 0 => f32Add a b
    | 1 => maxNum fF32 a b
    | _ => minNum fF32 a b

/-- The largest power of two below `n`. -/
def halfOf (n : Nat) : Nat := 2 ^ Nat.log2 (n - 1)

/-- The fixed tree over contributions in rank order; the fuel bounds its depth. -/
def reduceTree (f : List Nat → List Nat → List Nat) : Nat → List (List Nat) → List Nat
  | 0, xs => xs.headD []
  | fuel + 1, xs =>
    if xs.length ≤ 1 then xs.headD []
    else
      let h := halfOf xs.length
      f (reduceTree f fuel (xs.take h)) (reduceTree f fuel (xs.drop h))

/-- Cut a byte string into numbers of `w` bytes. -/
def wordsOf (w : Nat) (bs : List Byte) : List Nat := (List.range (bs.length / w)).map fun i => leNat ((bs.drop (i * w)).take w)

/-- The reduction of blocks: bf16 is widened to f32 and rounded once at the end. -/
def reduceBlocks (rop ty : Nat) (blocks : List (List Byte)) : List Byte :=
  let w := if ty = 1 then 2 else 4
  let widen (x : Nat) : Nat := if ty = 1 then x * 65536 else x
  let xs := blocks.map fun b => (wordsOf w b).map widen
  let r := reduceTree (List.zipWith (combineWord (ty == 2) rop)) blocks.length xs
  r.flatMap fun x => leBytes w (if ty = 1 then (fBF16.round .rne (f32Val x)).1 else x)

/-! Performing. -/

/-- The matching command of a participant, when it has issued one: the same scope and the same count (R170). -/
def Chip.collOp? (c : Chip) (u : UnitRec) (scope k : Nat) : Option Op :=
  c.ops.find? fun o => o.job == u.job && collScope o.instr == some scope && nth 0 o.data 0 == BitVec.ofNat 8192 k
    && (match c.strand? o.pos with
      | some σ => σ.who.unit == u.num
      | none => false)

/-- Every command of a group ends in error (R172). -/
def collFail (s : State) (cause : Op → BitVec 8) (os : List Op) : State :=
  os.foldl (fun s o => s.settle o (.failed (Eff.quiet s.ch) (cause o))) s

/-- The blocks that participants contribute, read unchecked (R318), and the state after what the reads have corrected (R48). A block that
cannot be read is none. -/
def collBlocks : List Op → State → List (Op × Option (List Byte)) × State
  | [], s => ([], s)
  | o :: os, s =>
    let l := nth { ptr := 0, tag := 0, segs := [] } o.locs 1
    let (b, s1) := match Run.readSegs o (fun _ => .exempt) (l.segs.flatMap Seg.pieces) (Run.start s) with
      | .ok (bs, r) => (some bs, r.s)
      | .error _ => (none, s)
    let (rest, s2) := collBlocks os s1
    ((o, b) :: rest, s2)

/-- The result of rank `r` (R170). -/
def collResult (i : Instr) (len root : Nat) (blocks : List (List Byte)) (r : Nat) : List Byte :=
  match i with
  | .clAr _ _ _ _ _ _ p t => reduceBlocks p.toNat t.toNat blocks
  | .clBc .. => nth [] blocks root
  | .clAg .. => blocks.flatten
  | .clRs _ _ _ _ _ _ p t => reduceBlocks p.toNat t.toNat (blocks.map fun b => (b.drop (r * len)).take len)
  | _ => []

/-- A result written at its participant, external to every quad (R318). -/
def collWrite (s : State) (o : Op) (bs : List Byte) : State :=
  let l := nth { ptr := 0, tag := 0, segs := [] } o.locs 0
  let ck (g : Seg) : Check := if tracked g.phys then .external else .exempt
  s.settle o (Run.finish (Run.writeSegs o ck (l.segs.flatMap Seg.pieces) bs (Run.start s)) o)

/-- What this package's part says of a collective at pod scope. -/
def Chip.partOf (c : Chip) (j : Job) (num kind len root : Nat) (blocks : List (List Byte)) (st : PartState) : PodPart :=
  { pod := j.pod, num := num, part := j.podIdx, pkg := c.plat.pkgNum.getD 0, kind := kind, len := len, root := root, blocks := blocks,
    state := st }

/-- The other packages are told that a command has ended in error here, or that no more commands come (R172); a package with no number sends
nothing (R413). -/
def Chip.tellParts (c : Chip) (j : Job) (num : Nat) (st : PartState) : Chip :=
  if 1 < j.podN ∧ c.plat.pkgNum.isSome then { c with out := c.out ++ [.share (c.partOf j num 0 0 0 [] st)] } else c

/-- The share of a part in the collective `k`. -/
def Chip.shareOf? (c : Chip) (j : Job) (k part : Nat) : Option PodPart :=
  c.pods.find? fun x => x.state == .share && x.pod == j.pod && x.num == k && x.part == part

/-- A part that has given no share of the collective `k` cannot give one any more (R172). -/
def Chip.partLost (c : Chip) (j : Job) (k : Nat) : Bool :=
  c.pods.any fun x => x.pod == j.pod && (c.shareOf? j k x.part).isNone
    && ((x.state == .failed && x.num == k) || (x.state == .ended && decide (x.num ≤ k)))

/-- The results of matched commands written at each participant: rank `base` is the first one's. -/
def collWriteAll (s : State) (ops : List Op) (len root : Op → Nat) (blocks : List (List Byte)) (base : Nat) : State :=
  (List.range ops.length).foldl (fun t n => match ops[n]? with
    | some p => collWrite t p (collResult p.instr (len p) (root p) blocks (base + n))
    | none => t) s

/-- The matching commands of the participants of a collective, when nothing more is wanted for it to be performed or to end in error than that
they start: none while a participant that has not ended, or another part, has given nothing. -/
def Chip.mates (c : Chip) (o : Op) : Option (List Op) :=
  match collScope o.instr, c.job? o.job, (c.strand? o.pos).bind c.unitOf? with
  | some scope, some j, some u =>
    let k := (nth 0 o.data 0).toNat
    let found := (c.ranked j.id scope (hbarSite u scope)).map fun w => (w, c.collOp? w scope k)
    let lost := found.any fun e => e.2.isNone && e.1.ended && decide (e.1.collCount scope ≤ k)
    let others := scope != 4 || decide (j.podN ≤ 1) || c.partLost j k
      || (c.partOrder j).all fun n => n == j.podIdx || (c.shareOf? j k n).isSome
    if lost then some [] else if others && found.all (fun e => e.2.isSome) then some (found.filterMap (·.2)) else none
  | _, _, _ => some []

/-- A started collective (R170 to R172): nothing while a participant has not issued its matching command or has not started it,
unless that participant has ended; then error, as for commands that differ. At pod scope the part on this package gives its share and
awaits the others; an error of one part is every part's. All matched commands on the package are performed together, once no core of a
participant and none whose storage they need stands still (R48, R117). -/
def performCollective (s : State) (o : Op) : State :=
  match collScope o.instr, s.ch.job? o.job, (s.ch.strand? o.pos).bind s.ch.unitOf? with
  | some scope, some j, some u =>
    let site := hbarSite u scope
    let k := (nth 0 o.data 0).toNat
    let us := s.ch.ranked j.id scope site
    let found := us.map fun w => (w, s.ch.collOp? w scope k)
    let ops := found.filterMap (·.2)
    if ops.any s.ch.frozenOut then s
    else
      let pods := scope == 4 && decide (1 < j.podN)
      let fail (s : State) (cause : Op → BitVec 8) : State :=
        collFail (if pods then { s with ch := s.ch.tellParts j k .failed } else s) cause (ops.filter fun p => p.status == .started)
      if found.any (fun e => e.2.isNone && e.1.ended && decide (e.1.collCount scope ≤ k)) then fail s fun _ => 0x31
      else if pods && s.ch.partLost j k then fail s fun _ => 0x31
      else if found.any (fun e => match e.2 with
          | some p => p.status != .started
          | none => true) then s
      else
        let whole (p : Op) : List (Nat × Nat) := [(0, ((nth { ptr := 0, tag := 0, segs := [] } p.locs 1).segs.map (·.len)).sum)]
        match ops.findSome? fun p => (fetchPeers s p (nth { ptr := 0, tag := 0, segs := [] } p.locs 1) (whole p)).map fun r => (p, r) with
        | some (p, r) => s.settle p r
        | none =>
          let len (p : Op) : Nat := (nth 0 p.vals 2).toNat
          let root (p : Op) : Nat := (nth 0 p.vals 3).toNat
          let (reads, s) := collBlocks ops s
          let bad := (reads.filter fun e => e.2.isNone).map fun e => e.1.id
          let blocks := reads.map fun e => e.2.getD []
          let mine := s.ch.partOf j k (collKind o.instr) (len o) (root o) blocks .share
          let same := ops.all fun p => collKind p.instr == mine.kind && len p == mine.len && root p == mine.root
          if !same then fail s fun _ => 0x31
          else if !bad.isEmpty then fail s fun p => if bad.contains p.id then 0x38 else 0x31
          else if pods then
            let s1 := if (s.ch.shareOf? j k j.podIdx).isNone then
                { s with ch := { s.ch with pods := mine :: s.ch.pods, out := s.ch.out ++ [.share mine] } } else s
            let order := s.ch.partOrder j
            let all := order.map fun n => if n = j.podIdx then some mine else s.ch.shareOf? j k n
            if s.ch.plat.pkgNum.isNone then s
            else if all.any (·.isNone) then s1
            else
              let parts := all.filterMap id
              if parts.any (fun x => x.kind != mine.kind || x.len != mine.len || x.root != mine.root) then collFail s1 (fun _ => 0x31) ops
              else collWriteAll s1 ops len root (parts.flatMap (·.blocks)) (order.idxOf j.podIdx * ops.length)
          else collWriteAll s ops len root blocks 0
  | _, _, _ => s

end Sys2Proof.Machine
end

