-- ==== Sys2Proof/Machine/Bucket.lean ====
section
/-! DEFINITION. The M cluster: scalar words, the status word, and the bucket engine (R208 to R212, R219, R220, R319 to R328, R339,
R340). -/

namespace Sys2Proof.Machine

/-! Scalar words (R324). -/

/-- Issue of an M word with m registers as sources. -/
def mIssue (s : State) (ms : List (BitVec 3)) (body : Strand → Res) : Host.Outcome State Fault Refusal :=
  issue s (ms.map fun r => .m r.toNat) body

def execMmov (d : BitVec 3) (sp : BitVec 5) (s : State) : Host.Outcome State Fault Refusal :=
  mIssue s [] fun _ => onStrand s fun σ => σ.setM d.toNat (σ.snapS .m sp.toNat)

def execMadd (d a : BitVec 3) (im : BitVec 18) (s : State) : Host.Outcome State Fault Refusal :=
  mIssue s [a] fun _ => onStrand s fun σ => σ.setM d.toNat (σ.getM a.toNat + im.signExtend 64)

/-- The bucket-file word of `mstat` (R340). -/
def Chip.bucketWord (c : Chip) (σ : Strand) : Reg :=
  let b := (c.core (coreOf σ.pos)).bucket
  let own := b.owner == some (σ.pos % 4)
  match b.owner with
  | none => 0
  | some w => BitVec.ofNat 64 (w + 4 + (if own then 8 + b.t * 256 + b.left * 65536 else 0))

/-- The engine word of `mstat` (R340): a held command is issued and not settled. -/
def Chip.engineWord (c : Chip) (σ : Strand) : Reg :=
  let l := c.ops.filter fun o => o.pos == σ.pos && o.cl == .m
  BitVec.ofNat 64 (256 * (l.length % 256) + if l.any fun o => o.status == .held then 1 else 0)

def execMstat (d : BitVec 3) (sp : BitVec 4) (s : State) : Host.Outcome State Fault Refusal :=
  mIssue s [] fun σ => onStrand s fun τ => τ.setM d.toNat (match sp.toNat with
    | 0 => σ.mr.mflags.setWidth 64
    | 1 => s.ch.bucketWord σ
    | _ => s.ch.engineWord σ)

/-! Register values and footprints (R321). -/

structure Rows where
  r : Nat
  pitch : Nat
deriving DecidableEq, Repr

/-- A rows register; `bkt` ignores PITCH. -/
def rowsOf (v : Reg) (pitched : Bool) : Option Rows :=
  let n := v.toNat
  let r := bits n 0 7
  let p := bits n 16 24
  if bits n 40 24 ≠ 0 ∨ bits n 7 9 ≠ 0 ∨ r = 0 ∨ 64 < r ∨ (pitched ∧ p ≠ 0 ∧ p < r) then none
  else some { r := r, pitch := if p = 0 then r else p }

def accOnly : Allow := { acc := true }

/-- The checks of an accumulator pointer whose footprint is `n` bytes. -/
def State.accAtPtr (s : State) (σ : Strand) (p : Reg) (n : Nat) (acc : Access) : Chk Found := s.extent σ accOnly acc p 0 n 4 []

/-- The values of the m registers of a command, in field order. -/
def Strand.mVals (σ : Strand) (ms : List (BitVec 3)) : List Reg := ms.map fun r => σ.getM r.toNat

/-- The command an M word makes. -/
def State.mOp (s : State) (σ : Strand) (i : Instr) (od : Nat) (ms : List (BitVec 3)) : Op :=
  { s.opOf σ i (σ.odOf .m od) with vals := σ.mVals ms }

/-! Ownership (R325). -/

/-- A command whose issue also changes the bucket file's ownership. -/
def Res.withBucket (r : Res) (core : Nat) (f : Bucket → Bucket) : Res :=
  match r with
  | .go e j => .go (e.mapChip fun c => c.modCore core fun k => { k with bucket := f k.bucket }) j
  | x => x

/-- The release of the bucket file: LEFT is 0 and no `bfin` of the owner is left to be performed or settled (R325). -/
def Chip.releaseBucket (c : Chip) (pos : Nat) : Chip :=
  let b := (c.core (coreOf pos)).bucket
  if b.owner = some (pos % 4) ∧ b.left = 0 ∧ !(c.ops.any fun o => o.pos == pos && (match o.instr with
      | .bfin .. => true
      | _ => false)) then
    c.modCore (coreOf pos) fun k => { k with bucket := { k.bucket with owner := none } }
  else c

/-- The owner's strand ends: the file is nobody's, its contents stand (R325). -/
def Chip.dropBucket (c : Chip) (pos : Nat) : Chip :=
  c.modCore (coreOf pos) fun k =>
    if k.bucket.owner = some (pos % 4) then { k with bucket := { k.bucket with owner := none, left := 0 } } else k

def execBktz (n t o : BitVec 3) (s : State) : Host.Outcome State Fault Refusal :=
  mIssue s [n] fun σ =>
    let f := (σ.getM n.toNat).toNat
    let core := coreOf σ.pos
    let slot := σ.pos % 4
    if 5 < t.toNat then faulty 0x02
    else if f = 0 ∨ 65536 ≤ f then faulty 0x02
    else match (s.ch.core core).bucket.owner with
      | some w =>
        if w ≠ slot then .stall s.ch
        else (s.launchCommand σ (s.mOp σ (.bktz n t o) o.toNat [n]) [] []).withBucket core fun _ =>
          { owner := some slot, t := t.toNat, left := f }
      | none => (s.launchCommand σ (s.mOp σ (.bktz n t o) o.toNat [n]) [] []).withBucket core fun _ =>
          { owner := some slot, t := t.toNat, left := f }

/-- Columns of a segment (R231). -/
def segLen (sl : BitVec 2) : Nat := 32 * 2 ^ sl.toNat

def execBkt (a l r t : BitVec 3) (c sp : BitVec 2) (o : BitVec 3) (s : State) : Host.Outcome State Fault Refusal :=
  mIssue s [r] fun σ =>
    let b := (s.ch.core (coreOf σ.pos)).bucket
    let len := segLen sp
    if 5 < t.toNat then faulty 0x02
    else match rowsOf (σ.getM r.toNat) false with
      | none => faulty 0x02
      | some rows =>
        if a = l then faulty 0x02
        else if b.owner ≠ some (σ.pos % 4) ∨ b.left = 0 ∨ t.toNat ≠ b.t then faulty 0x02
        else
          s.launchCommand σ (s.mOp σ (.bkt a l r t c sp o) o.toNat [r])
            [(a.toNat, ceilDiv (2 ^ t.toNat * len) 64, .input), (l.toNat, ceilDiv (rows.r * (len + 16)) 64, .input)] []

/-- The bytes a `bfin` or a tile spans in the accumulator window. -/
def bfinBytes (t : Nat) (rows : Rows) : Nat := 4 * ((t - 1) * rows.pitch + rows.r)

/-- `bfin`: its token factor is that of the ownership, kept with the command as its last value. -/
def execBfin (c sp a r o : BitVec 3) (s : State) : Host.Outcome State Fault Refusal :=
  mIssue s [a, r] fun σ =>
    let core := coreOf σ.pos
    let b := (s.ch.core core).bucket
    match rowsOf (σ.getM r.toNat) true with
    | none => faulty 0x02
    | some rows =>
      if c = sp then faulty 0x02
      else if b.owner ≠ some (σ.pos % 4) ∨ b.left = 0 then faulty 0x02
      else
        let t := 2 ^ b.t
        s.onChk σ .m (σ.odOf .m o.toNat) (s.accAtPtr σ (σ.getM a.toNat) (bfinBytes t rows) .store) fun f =>
          let op := s.mOp σ (.bfin c sp a r o) o.toNat [a, r]
          (s.launchCommand σ { op with locs := [f.loc], vals := op.vals ++ [BitVec.ofNat 64 b.t] }
            [(c.toNat, ceilDiv rows.r 4, .input), (sp.toNat, ceilDiv t 16, .input)] []).withBucket core fun k =>
              { k with left := k.left - 1 }

/-! Performing. -/

/-- MFLAGS gains a command's flags as it is performed (R339). -/
def Chip.addFlags (c : Chip) (pos : Nat) (f : Flags) : Chip :=
  c.modStrand pos fun σ => { σ with mr := { σ.mr with mflags := σ.mr.mflags ||| f, flagsNow := σ.mr.flagsNow ||| f } }

/-- The address of the word of a lane, bucket and token (R45). -/
def bucketWordAt (core lane k t : Nat) : Nat := bucketAt core + 4 * ((lane * 8 + k) * 32 + t)

/-- A parity error among the words that lanes below `r` and tokens below `t` use (R328). -/
def Chip.bucketBad (c : Chip) (core r t : Nat) : Bool :=
  c.side.faulty.any fun f => decide (bucketAt core ≤ f.1 ∧ f.1 < bucketAt core + 0x10000) &&
    (let w := (f.1 - bucketAt core) / 4
     decide (w / 256 < r ∧ w % 32 < t))

/-- The words of a file that lanes below `r` and tokens below `t` use are written anew: their parity is good. -/
def Chip.bucketGood (c : Chip) (core r t : Nat) : Chip :=
  let bad (f : Nat × Bool) : Bool := decide (bucketAt core ≤ f.1 ∧ f.1 < bucketAt core + 0x10000) &&
    (let w := (f.1 - bucketAt core) / 4
     decide (w / 256 < r ∧ w % 32 < t))
  { c with side := { c.side with faulty := c.side.faulty.filter fun f => !bad f } }

/-- A list strictly ascends. -/
def ascends : List Nat → Bool
  | [] => true
  | [_] => true
  | x :: y :: l => decide (x < y) && ascends (y :: l)

/-- No value of a list of values below `n` occurs twice. -/
def allOnce (n : Nat) (l : List Nat) : Bool := (List.range n).all fun x => decide (l.count x ≤ 1)

/-- A row record of a segment (R209): its indices and its end offsets. -/
structure RowRecord where
  idx : List Nat
  ends : List Nat
deriving DecidableEq, Repr

def rowRecordOf (len : Nat) (bs : List Byte) : RowRecord :=
  { idx := (bs.take len).map (·.toNat), ends := (List.range 8).map fun k => leNat ((bs.drop (len + 2 * k)).take 2) }

/-- Where bucket `k` starts and ends in IDX (R209). -/
def RowRecord.span (rec : RowRecord) (k : Nat) : Nat × Nat := (if k = 0 then 0 else nth 0 rec.ends (k - 1), nth 0 rec.ends k)

/-- A row record is well formed for codes of `c` bits (R212). -/
def RowRecord.ok (rec : RowRecord) (c len : Nat) : Bool :=
  (List.range 8).all (fun k =>
    let (lo, hi) := rec.span k
    decide (hi ≤ len ∧ lo ≤ hi) && (decide (k < 2 ^ c) || hi == len) && ascends ((rec.idx.drop lo).take (hi - lo)))
  && nth 0 rec.ends 7 == len && rec.idx.all (fun x => decide (x < len)) && allOnce len rec.idx

/-- The held fault of a malformed record (R212). -/
def listFault : TrapReq := { cause := 0x29 }

/-- The held fault of a word that cannot be read. -/
def parityFault : TrapReq := { cause := 0x38 }

/-- `bktz` clears the file (R325). -/
def performBktz (s : State) (o : Op) : Perf :=
  let core := coreOf o.pos
  .done { chip := s.ch.bucketGood core 64 32, writes := [(bucketAt core, List.replicate 0x10000 0)] }

/-- One segment's sums join the buckets of lanes 0 to r − 1 (R219, R326). -/
def performBkt (s : State) (o : Op) (t len cbits : Nat) (rows : Rows) : Perf :=
  let core := coreOf o.pos
  let acts := (o.claimBytes 0).map fun b => b.toInt
  let recs := (List.range rows.r).map fun j => rowRecordOf len (((o.claimBytes 1).drop (j * (len + 16))).take (len + 16))
  if !recs.all (fun x => x.ok cbits len) then .late (Eff.quiet s.ch) listFault
  else if s.ch.bucketBad core rows.r t then .late (Eff.quiet s.ch) parityFault
  else
    let writes := (List.range rows.r).flatMap fun j => (List.range 8).map fun k =>
      let rec_ := nth { idx := [], ends := [] } recs j
      let (lo, hi) := rec_.span k
      let cols := (rec_.idx.drop lo).take (hi - lo)
      let words := (List.range t).flatMap fun tok =>
        let old := memNat s.mem (bucketWordAt core j k tok) 4
        let gain := (cols.map fun m => nth 0 acts (tok * len + m)).sum
        leBytes 4 (((old : Int) + gain) % 2 ^ 32).toNat
      (bucketWordAt core j k 0, words)
    .done { chip := s.ch, writes := writes }

/-- alpha × s rounded, with its flags, then acc + P × t rounded once (R220). -/
def bfinValue (p : Int) (alpha sc acc : Nat) : Nat × Flags :=
  let (x, f0) := (f32Val alpha).mul (f32Val sc)
  let (t, f1) := fF32.round .rne x
  let (y, f2) := (intNum p).fma (f32Val t) (f32Val acc) false
  let (r, f3) := fF32.round .rne y
  (r, f0 ||| f1 ||| f2 ||| f3)

/-- The elements of a footprint's runs are written together: all, or none with the stop that a dry run meets (R323). -/
def writeAllOrNone (o : Op) (l : Loc) (ws : List (Nat × List Byte)) (r : Run) : Except Stop Run :=
  let rec go : List (Nat × List Byte) → Run → Except Stop Run
    | [], r => .ok r
    | w :: rest, r => match r.write o l w.1 w.2 with
      | (_, some x) => .error x
      | (r1, none) => go rest r1
  go ws r

/-- The f32 or i32 words of a footprint from `off`, `n` of them. -/
def readWords (o : Op) (l : Loc) (off n : Nat) (r : Run) : Except Stop (List Nat × Run) :=
  match r.read o l off (4 * n) with
  | .error x => .error x
  | .ok (bs, r1) => .ok ((List.range n).map fun i => leNat ((bs.drop (4 * i)).take 4), r1)

/-- The rows of the accumulator a `bfin` updates, token by token. -/
def readBfin (o : Op) (l : Loc) (rows : Rows) : List Nat → Run → Except Stop (List (List Nat) × Run)
  | [], r => .ok ([], r)
  | t :: ts, r => match readWords o l (4 * t * rows.pitch) rows.r r with
    | .error x => .error x
    | .ok (ws, r1) => match readBfin o l rows ts r1 with
      | .error x => .error x
      | .ok (rest, r2) => .ok (ws :: rest, r2)

/-- No place. -/
def Loc.none : Loc := { ptr := 0, tag := 0, segs := [] }

/-- `bfin`: buckets times codewords into the accumulator, and the buckets cleared (R220, R327). -/
def performBfin (s : State) (o : Op) (rows : Rows) : Perf :=
  let core := coreOf o.pos
  let t := 2 ^ (nth 0 o.vals 2).toNat
  let loc := nth Loc.none o.locs 0
  let books := (List.range rows.r).map fun j => ((o.claimBytes 0).drop (16 * j)).take 16
  if books.any (fun b => leNat (b.drop 12) != 0) then .late (Eff.quiet s.ch) listFault
  else if s.ch.bucketBad core rows.r t then .late (Eff.quiet s.ch) parityFault
  else match readBfin o loc rows (List.range t) (Run.start s) with
    | .error x => .late (Eff.quiet s.ch) (stopLate x)
    | .ok (accs, r) =>
      let cells := (List.range t).map fun tok => (List.range rows.r).map fun j =>
        let book := nth [] books j
        let p := ((List.range 8).map fun k =>
          (nth (0 : Byte) book k).toInt * signed 32 (memNat s.mem (bucketWordAt core j k tok) 4)).sum
        bfinValue p (leNat ((book.drop 8).take 4)) (leNat (((o.claimBytes 1).drop (4 * tok)).take 4)) (nth 0 (nth [] accs tok) j)
      let flags := cells.flatten.foldl (fun f x => f ||| x.2) 0
      let ws := (List.range t).map fun tok => (4 * tok * rows.pitch, (nth [] cells tok).flatMap fun x => leBytes 4 x.1)
      match writeAllOrNone o loc ws r with
      | .error x => .late (Eff.quiet s.ch) (stopLate x)
      | .ok r2 =>
        let zeros := (List.range rows.r).flatMap fun j => (List.range 8).map fun k =>
          (bucketWordAt core j k 0, List.replicate (4 * t) (0 : Byte))
        .done { chip := r2.s.ch.addFlags o.pos flags, writes := r2.writes ++ zeros }

/-- The entries an M command wants: wait for them, or why they cannot come (R320, R322). -/
def awaitEntries (s : State) (o : Op) (f : Unit → Perf) : Perf :=
  match s.ch.claimFault o with
  | some t => .late (Eff.quiet s.ch) t
  | none => if o.wants.isSome then .notYet (Eff.quiet s.ch) else f ()

/-- A started bucket command is performed. -/
def performBucket (s : State) (o : Op) : Perf :=
  awaitEntries s o fun _ =>
    match o.instr with
    | .bktz .. => performBktz s o
    | .bkt _ _ _ t c sp _ => match rowsOf (nth 0 o.vals 0) false with
      | some rows => performBkt s o (2 ^ t.toNat) (segLen sp) (c.toNat + 1) rows
      | none => .done (Eff.quiet s.ch)
    | .bfin .. => match rowsOf (nth 0 o.vals 1) true with
      | some rows => performBfin s o rows
      | none => .done (Eff.quiet s.ch)
    | _ => .done (Eff.quiet s.ch)

end Sys2Proof.Machine
end

