-- ==== Sys2Proof/Machine/Tile.lean ====
section
/-! DEFINITION. The tile array: `tmma`, `tmma.sp` and `spc` (R206, R217, R218, R320 to R323, R329 to R332). -/

namespace Sys2Proof.Machine

/-! Issue. -/

/-- The types of `tmma` (R197). -/
def tmmaType (t : Nat) : Bool := [0, 1, 6, 7, 9, 10, 11, 12, 13].contains t

/-- K of a type (R217). -/
def tileK (t : Nat) : Nat :=
  match t with
  | 6 => 32
  | 7 => 32
  | 13 => 128
  | _ => 64

/-- The type code of an sty value (R233). -/
def styType (t : BitVec 3) : Nat :=
  match t.toNat with
  | 0 => 0
  | 1 => 1
  | 2 => 9
  | 3 => 10
  | _ => 11

def tileM (m : BitVec 2) : Nat := 16 * 2 ^ m.toNat
def tileN (n : BitVec 6) : Nat := 16 * (n.toNat + 1)

def execTmma (m : BitVec 2) (n : BitVec 6) (a b c : BitVec 3) (t : BitVec 4) (im : BitVec 1) (s : State) :
    Host.Outcome State Fault Refusal :=
  mIssue s [c] fun σ =>
    if !tmmaType t.toNat then faulty 0x02
    else s.onChk σ .m (σ.odOf .m 0) (s.accAtPtr σ (σ.getM c.toNat) (4 * tileM m * tileN n) .store) fun f =>
      s.launchCommand σ { s.mOp σ (.tmma m n a b c t im) 0 [c] with locs := [f.loc] }
        [(a.toNat, tileM m, .input), (b.toNat, tileN n, .input)] []

def execTmmaSp (m : BitVec 2) (n : BitVec 6) (a b c q t : BitVec 3) (im : BitVec 1) (s : State) :
    Host.Outcome State Fault Refusal :=
  mIssue s [c] fun σ =>
    if 4 < t.toNat then faulty 0x02
    else s.onChk σ .m (σ.odOf .m 0) (s.accAtPtr σ (σ.getM c.toNat) (4 * tileM m * tileN n) .store) fun f =>
      s.launchCommand σ { s.mOp σ (.tmmaSp m n a b c q t im) 0 [c] with locs := [f.loc] }
        [(a.toNat, tileM m, .input), (b.toNat, 2 * tileN n, .input), (q.toNat, tileM m / 2, .input)] []

def execSpc (im v m n t o : BitVec 3) (s : State) : Host.Outcome State Fault Refusal :=
  mIssue s [n] fun σ =>
    let k := (σ.getM n.toNat).toNat
    if 4 < t.toNat then faulty 0x02
    else if 2 ^ 24 ≤ k ∨ im = v ∨ im = m ∨ v = m then faulty 0x02
    else
      s.launchCommand σ (s.mOp σ (.spc im v m n t o) o.toNat [n])
        [(im.toNat, k, .input), (v.toNat, ceilDiv k 2, .output), (m.toNat, ceilDiv k 4, .output)] []

/-! One step of one element (R217, R218). -/

/-- The exact sum of finite values. -/
def sumFin (xs : List Num) : Int × Int :=
  let q := xs.foldl (fun q x => match x with
    | .fin _ _ e => min q e
    | _ => q) (0 : Int)
  (xs.foldl (fun v x => match x with
    | .fin n m e => v + scaled n m e q
    | _ => v) 0, q)

/-- tmma_step of R217. A signalling NaN that is consumed sets NV (R203). -/
def tileFloat (acc : Num) (as bs : List Num) : Nat × Flags :=
  let ps := as.zip bs
  let all := acc :: as ++ bs
  if all.any Num.isNan then (f32NaN, flagIf (all.any Num.isSig) flNV)
  else if ps.any fun p => (p.1.isZero && p.2.isInf) || (p.1.isInf && p.2.isZero) then (f32NaN, flNV)
  else
    let terms := acc :: ps.map fun p => (p.1.mul p.2).1
    let infs := terms.filter Num.isInf
    if infs.any Num.neg? && infs.any (fun x => !x.neg?) then (f32NaN, flNV)
    else match infs with
      | x :: _ => fF32.round .rne x
      | [] =>
        let (v, q) := sumFin terms
        if v = 0 then (fF32.sign (terms.all Num.neg?), 0) else fF32.roundFin .rne (decide (v < 0)) v.natAbs q

/-- The integer step of R218. -/
def tileInt (acc : Int) (as bs : List Int) : Nat × Flags :=
  let (v, sat) := saturate (-2147483648) 2147483647 (acc + ((as.zip bs).map fun p => p.1 * p.2).sum)
  ((BitVec.ofInt 32 v).toNat, flagIf sat flSAT)

/-- The elements of a type in an entry. -/
def entryElems (t n : Nat) (e : BitVec 512) : List Nat :=
  let w := tyBits t
  (List.range n).map fun x => bits e.toNat (w * x) w

/-- The integer an element of an integer type stands for. -/
def elemInt (t b : Nat) : Int :=
  match tyKind t with
  | .uint w => ((b % 2 ^ w : Nat) : Int)
  | .sint w => signed w b
  | _ => 0

/-- The new element: from the old element, or from the initial value (R329). -/
def tileElem (t : Nat) (old : Option Nat) (as bs : List Nat) : Nat × Flags :=
  if (tyKind t).isInt then
    tileInt (match old with
      | some v => signed 32 v
      | none => 0) (as.map (elemInt t)) (bs.map (elemInt t))
  else
    tileFloat (match old with
      | some v => f32Val v
      | none => .fin true 0 0) (as.map (tyKind t).decode) (bs.map (tyKind t).decode)

/-! Performing. -/

/-- A tile of rows × columns whose element (i, j) is computed from the old element. -/
def performTile (s : State) (o : Op) (m n : Nat) (init : Bool) (f : Nat → Nat → Option Nat → Nat × Flags) : Perf :=
  let loc := nth Loc.none o.locs 0
  let olds : Except Stop (List Nat × Run) := if init then .ok ([], Run.start s) else readWords o loc 0 (m * n) (Run.start s)
  match olds with
  | .error x => .late (Eff.quiet s.ch) (stopLate x)
  | .ok (ws, r) =>
    let cells := (List.range m).flatMap fun i => (List.range n).map fun j => f i j (if init then none else some (nth 0 ws (i * n + j)))
    match writeAllOrNone o loc [(0, cells.flatMap fun x => leBytes 4 x.1)] r with
    | .error x => .late (Eff.quiet s.ch) (stopLate x)
    | .ok r2 => .done { chip := r2.s.ch.addFlags o.pos (cells.foldl (fun g x => g ||| x.2) 0), writes := r2.writes }

/-- A tap6 entry has zero bytes [63:48] (R200). -/
def tap6Ok (t : Nat) (es : List (BitVec 512)) : Bool := t != tyTap6 || es.all fun e => bits e.toNat 384 128 == 0

def performTmma (s : State) (o : Op) (m n t : Nat) (init : Bool) : Perf :=
  let as := o.entries 0
  let bs := o.entries 1
  if !tap6Ok t as || !tap6Ok t bs then .late (Eff.quiet s.ch) { cause := 0x02 }
  else
    let k := tileK t
    let ra := as.map (entryElems t k)
    let rb := bs.map (entryElems t k)
    performTile s o m n init fun i j old => tileElem t old (nth [] ra i) (nth [] rb j)

/-- The metadata halfwords of row `i` (R330). -/
def metaRow (o : Op) (i : Nat) : List Nat :=
  let e := (nth (0 : BitVec 512) (o.entries 2) (i / 2)).toNat
  (List.range 16).map fun g => bits e (256 * (i % 2) + 16 * g) 16

/-- The four dense positions of a halfword. -/
def metaIdx (h : Nat) : List Nat := (List.range 4).map fun k => bits h (3 * k) 3

def metaOk (h : Nat) : Bool := bits h 12 4 == 0 && ascends (metaIdx h)

def performTmmaSp (s : State) (o : Op) (m n t : Nat) (init : Bool) : Perf :=
  let rows := (List.range m).map (metaRow o)
  if rows.any fun r => r.any fun h => !metaOk h then .late (Eff.quiet s.ch) { cause := 0x28 }
  else
    let ra := (o.entries 0).map (entryElems t 64)
    let es := o.entries 1
    let cols := (List.range n).map fun j => entryElems t 64 (nth 0 es (2 * j)) ++ entryElems t 64 (nth 0 es (2 * j + 1))
    let picks := rows.map fun r => (List.range 16).flatMap fun g => (metaIdx (nth 0 r g)).map fun x => 8 * g + x
    performTile s o m n init fun i j old =>
      let col := nth [] cols j
      tileElem t old (nth [] ra i) ((nth [] picks i).map fun x => nth 0 col x)

/-! Pruning (R331). -/

/-- The order of magnitudes of R331. -/
def pruneKey (t b : Nat) : Nat :=
  match t with
  | 0 => (signed 8 b).natAbs
  | 1 => b
  | 9 => b % 128
  | 10 => if 0x7C < b % 128 then 0x7D else b % 128
  | _ => if b = 0x80 then 256 else b % 128

/-- The kept indices of a group: the four largest, the lower index on a tie. -/
def pruneGroup (t : Nat) (vs : List Nat) : List Nat :=
  (List.range 8).filter fun x =>
    let kx := pruneKey t (nth 0 vs x)
    let above := (List.range 8).filter fun y =>
      let ky := pruneKey t (nth 0 vs y)
      decide (kx < ky ∨ (kx = ky ∧ y < x))
    decide (above.length < 4)

/-- The value bytes and metadata bytes of an entry. -/
def pruneEntry (t : Nat) (e : BitVec 512) : List Byte × List Byte :=
  let vs := entryElems t 64 e
  let groups := (List.range 8).map fun g => (vs.drop (8 * g)).take 8
  let kept := groups.map (pruneGroup t)
  ((groups.zip kept).flatMap fun p => p.2.map fun x => BitVec.ofNat 8 (nth 0 p.1 x),
   kept.flatMap fun k => leBytes 2 (nth 0 k 0 + nth 0 k 1 * 8 + nth 0 k 2 * 64 + nth 0 k 3 * 512))

/-- The entries of a byte string, the last one filled with zeros. -/
def entriesOfBytes (n : Nat) (bs : List Byte) : List (BitVec 512) :=
  (List.range n).map fun k => BitVec.ofNat 512 (leNat ((bs.drop (64 * k)).take 64))

/-- Entries are pushed into an output stream as far as its queue of sixteen takes them (R161, R302): those still to push. -/
def Chip.pushEntries (c : Chip) (pos q : Nat) : List (Nat × BitVec 512) → Chip × List (Nat × BitVec 512)
  | [] => (c, [])
  | e :: es =>
    match (c.strand? pos).bind fun σ => σ.binding? q with
    | some b =>
      if e.1 < b.pos + 16 then Chip.pushEntries (c.modBinding pos q fun b => { b with queue := b.queue ++ [e] }) pos q es
      else (c, e :: es)
    | none => (c, [])

/-- `spc` pushes what its output streams accept; `progress` counts its pushes, values before metadata in each attempt. -/
def performSpc (s : State) (o : Op) (t : Nat) : Perf :=
  let parts := (o.entries 0).map (pruneEntry t)
  let outs (j : Nat) (bs : List Byte) : Nat × List (Nat × BitVec 512) :=
    let (q, first, n) := nth (0, 0, 0) o.claims j
    (q, ((List.range n).map fun k => first + k).zip (entriesOfBytes n bs))
  let (qv, vs) := outs 1 (parts.flatMap (·.1))
  let (qm, ms) := outs 2 (parts.flatMap (·.2))
  let doneV := o.progress % 2 ^ 32
  let doneM := o.progress / 2 ^ 32
  let (c1, restV) := s.ch.pushEntries o.pos qv (vs.drop doneV)
  let (c2, restM) := c1.pushEntries o.pos qm (ms.drop doneM)
  if restV.isEmpty && restM.isEmpty then .done (Eff.quiet c2)
  else .notYet (Eff.quiet (c2.modOp o.id fun x =>
    { x with progress := (vs.length - restV.length) + 2 ^ 32 * (ms.length - restM.length) }))

/-- A started tile command is performed. -/
def performTileOp (s : State) (o : Op) : Perf :=
  awaitEntries s o fun _ =>
    match o.instr with
    | .tmma m n _ _ _ t im => performTmma s o (tileM m) (tileN n) t.toNat (im == 1)
    | .tmmaSp m n _ _ _ _ t im => performTmmaSp s o (tileM m) (tileN n) (styType t) (im == 1)
    | .spc _ _ _ _ t _ => performSpc s o (styType t)
    | _ => .done (Eff.quiet s.ch)

end Sys2Proof.Machine
end

