-- ==== Sys2Proof/Machine/Drain.lean ====
section
/-! DEFINITION. The drain unit: `accz`, `accmv`, `adrain`, `qdrain` and `quant2` (R207, R320 to R323, R333 to R338). -/

namespace Sys2Proof.Machine

/-! Issue. -/

/-- An element count register (R321). -/
def accCount (v : Reg) : Option Nat := if v.toNat ≤ 524288 then some v.toNat else none

def execAccz (a n o : BitVec 3) (s : State) : Host.Outcome State Fault Refusal :=
  mIssue s [a, n] fun σ =>
    match accCount (σ.getM n.toNat) with
    | none => faulty 0x02
    | some k => s.onChk σ .m (σ.odOf .m o.toNat) (s.accAtPtr σ (σ.getM a.toNat) (4 * k) .store) fun f =>
        s.launchCommand σ { s.mOp σ (.accz a n o) o.toNat [a, n] with locs := [f.loc] } [] []

def execAccmv (d a n o : BitVec 3) (s : State) : Host.Outcome State Fault Refusal :=
  mIssue s [d, a, n] fun σ =>
    match accCount (σ.getM n.toNat) with
    | none => faulty 0x02
    | some k => s.onChk σ .m (σ.odOf .m o.toNat) (s.accAtPtr σ (σ.getM d.toNat) (4 * k) .store) fun fd =>
        s.onChk σ .m (σ.odOf .m o.toNat) (s.accAtPtr σ (σ.getM a.toNat) (4 * k) .load) fun fa =>
          if fd.loc.overlaps fa.loc then faulty 0x02
          else s.launchCommand σ { s.mOp σ (.accmv d a n o) o.toNat [d, a, n] with locs := [fd.loc, fa.loc] } [] []

/-- A shape register of a drain (R334). -/
structure Tile where
  dp : Nat
  sp : Nat
  r : Nat
  c : Nat
deriving DecidableEq, Repr

/-- The shape for elements of `w` bytes, or none where it breaks a limit. -/
def tileShape (v : Reg) (w : Nat) : Option Tile :=
  let n := v.toNat
  let x : Tile := { dp := bits n 48 16, sp := bits n 32 16, r := bits n 16 11, c := bits n 0 11 }
  if bits n 27 5 = 0 ∧ bits n 11 5 = 0 ∧ 1 ≤ x.r ∧ x.r ≤ 1024 ∧ 1 ≤ x.c ∧ x.c ≤ 1024 ∧ x.c ≤ x.sp ∧ x.c * w ≤ x.dp ∧ x.dp % w = 0
  then some x else none

/-- The bytes a tile spans in the accumulator and at the destination. -/
def Tile.accBytes (x : Tile) : Nat := 4 * ((x.r - 1) * x.sp + x.c)
def Tile.dstBytes (x : Tile) (w : Nat) : Nat := (x.r - 1) * x.dp + x.c * w

def drainDest : Allow := { bench := true, stratumOwn := true }

/-- The target types of `adrain`, and of `qdrain` (R335, R336). -/
def drainFloat (t : Nat) : Bool := [6, 7, 8, 9, 10, 11].contains t
def drainType (t : Nat) : Bool := drainFloat t || decide (t ≤ 4)

def execAdrain (d a sp : BitVec 3) (t : BitVec 4) (o : BitVec 3) (s : State) : Host.Outcome State Fault Refusal :=
  mIssue s [d, a, sp] fun σ =>
    let w := tyBits t.toNat / 8
    if !drainType t.toNat then faulty 0x02
    else match tileShape (σ.getM sp.toNat) w with
      | none => faulty 0x02
      | some x =>
        s.onChk σ .m (σ.odOf .m o.toNat) (s.footprint σ drainDest .store (σ.getM d.toNat) 0 (x.dstBytes w - 1) w []) fun fd =>
          s.onChk σ .m (σ.odOf .m o.toNat) (s.accAtPtr σ (σ.getM a.toNat) x.accBytes .load) fun fa =>
            s.launchCommand σ { s.mOp σ (.adrain d a sp t o) o.toNat [d, a, sp] with locs := [fd.loc, fa.loc] } [] []

def execQdrain (d a sp m : BitVec 3) (t : BitVec 4) (c o : BitVec 3) (s : State) : Host.Outcome State Fault Refusal :=
  mIssue s [d, a, sp, m] fun σ =>
    let w := tyBits t.toNat / 8
    if !drainFloat t.toNat ∨ 4 < c.toNat then faulty 0x02
    else match tileShape (σ.getM sp.toNat) w with
      | none => faulty 0x02
      | some x =>
        s.onChk σ .m (σ.odOf .m o.toNat) (s.footprint σ drainDest .store (σ.getM d.toNat) 0 (x.dstBytes w - 1) w []) fun fd =>
          s.onChk σ .m (σ.odOf .m o.toNat) (s.accAtPtr σ (σ.getM a.toNat) x.accBytes .load) fun fa =>
            s.onChk σ .m (σ.odOf .m o.toNat) (s.footprint σ atomicSpaces .atomic (σ.getM m.toNat) 0 3 4 []) fun fm =>
              s.launchCommand σ { s.mOp σ (.qdrain d a sp m t c o) o.toNat [d, a, sp, m] with locs := [fd.loc, fa.loc, fm.loc] } []
                fm.leaves

def execQuant2 (d a sp x : BitVec 3) (t : BitVec 4) (o : BitVec 3) (s : State) : Host.Outcome State Fault Refusal :=
  mIssue s [d, a, sp, x] fun σ =>
    if !([0, 9, 10].contains t.toNat) then faulty 0x02
    else match tileShape (σ.getM sp.toNat) 1 with
      | none => faulty 0x02
      | some y =>
        if y.r % 32 ≠ 0 ∨ y.c % 32 ≠ 0 then faulty 0x02
        else
          s.onChk σ .m (σ.odOf .m o.toNat) (s.footprint σ drainDest .store (σ.getM d.toNat) 0 (y.r * y.dp + y.r * y.c - 1) 1 []) fun fd =>
            s.onChk σ .m (σ.odOf .m o.toNat) (s.accAtPtr σ (σ.getM a.toNat) y.accBytes .load) fun fa =>
              s.onChk σ .m (σ.odOf .m o.toNat) (s.footprint σ drainDest .store (σ.getM x.toNat) 0 (y.r * y.c / 16 - 1) 1 []) fun fx =>
                if fd.loc.overlaps fx.loc then faulty 0x02
                else
                  s.launchCommand σ { s.mOp σ (.quant2 d a sp x t o) o.toNat [d, a, sp, x] with locs := [fd.loc, fa.loc, fx.loc] } []
                    []

/-! Performing. -/

/-- `accz`: zeros over the range (R333). -/
def performAccz (s : State) (o : Op) : Perf :=
  let loc := nth Loc.none o.locs 0
  let n := (nth 0 o.vals 1).toNat
  match (Run.start s).write o loc 0 (List.replicate (4 * n) 0) with
  | (_, some x) => .late (Eff.quiet s.ch) (stopLate x)
  | (r, none) => .done { chip := r.s.ch, writes := r.writes }

/-- `accmv`: the source is read whole before the destination changes (R333). -/
def performAccmv (s : State) (o : Op) : Perf :=
  let n := (nth 0 o.vals 2).toNat
  match (Run.start s).read o (nth Loc.none o.locs 1) 0 (4 * n) with
  | .error x => .late (Eff.quiet s.ch) (stopLate x)
  | .ok (bs, r) => match r.write o (nth Loc.none o.locs 0) 0 bs with
    | (_, some x) => .late (Eff.quiet s.ch) (stopLate x)
    | (r2, none) => .done { chip := r2.s.ch, writes := r2.writes }

/-- A drained element (R335): integer targets read i32, the others f32. -/
def drainElem (t v : Nat) : Nat × Flags := convert (if t < 6 then 4 else tyF32) t .rne v

/-- The elements of a drain in order: the flags gathered, the largest magnitude (R336), the run, and where it stops. -/
def drainElems (o : Op) (src dst : Loc) (x : Tile) (t w : Nat) : List (Nat × Nat) → Flags → Nat → Run →
    Flags × Nat × Run × Option Stop
  | [], f, mx, r => (f, mx, r, none)
  | (i, j) :: es, f, mx, r =>
    match readWords o src (4 * (i * x.sp + j)) 1 r with
    | .error e => (f, mx, r, some e)
    | .ok (vs, r1) =>
      let v := nth 0 vs 0
      let (b, g) := drainElem t v
      match r1.write o dst (i * x.dp + j * w) (leBytes w b) with
      | (r2, some e) => (f, mx, r2, some e)
      | (r2, none) => drainElems o src dst x t w es (f ||| g) (maxNum fF32 mx (v % 2 ^ 31)) r2

def Tile.places (x : Tile) : List (Nat × Nat) := (List.range x.r).flatMap fun i => (List.range x.c).map fun j => (i, j)

/-- The runs of a footprint that hold rows: where the first begins, the pitch, and the count and length of the rows. -/
def Loc.rowSegs (l : Loc) (off pitch n len : Nat) : List Seg := (List.range n).flatMap fun i => sliceSegs l.segs (off + i * pitch) len

def performAdrain (s : State) (o : Op) (t : Nat) : Perf :=
  let w := tyBits t / 8
  match tileShape (nth 0 o.vals 2) w with
  | none => .done (Eff.quiet s.ch)
  | some x =>
    let dst := nth Loc.none o.locs 0
    match drainElems o (nth Loc.none o.locs 1) dst x t w x.places 0 f32NaN (Run.over s (dst.rowSegs 0 x.dp x.r (x.c * w))) with
    | (_, _, r, some e) => .late (r.stopped s) (stopLate e)
    | (f, _, r, none) => .done { chip := r.s.ch.addFlags o.pos f, writes := r.writes }

/-- The atomic of `qdrain` at amax, made on the state after the tile (R121, R122, R336). At a peer it is a request, and the flags
wait with the command for the answer; the request carries the scope that the word names (R65). -/
def foldAmax (o : Op) (ascope : Nat) (f : Flags) (mx : Nat) (r : Run) : Perf :=
  let g := { o with locs := o.locs.drop 2 }.run
  let e : Eff := { chip := r.s.ch, writes := r.writes }
  match g.peer with
  | some pkg =>
    if !r.s.ch.reachable pkg then .late e { cause := 0x31, value := BitVec.ofNat 64 g.va }
    else if !r.s.ch.ctxRoom pkg (r.s.ch.podOf o) then .notYet e
    else
      let named := { o with od := o.od.map fun d => odWord (odStream d) (odMask d) ascope }
      let c := r.s.ch.request named g (.atomic 10 false (BitVec.ofNat 64 mx) 0 false) 0
      .notYet { e with chip := c.modOp o.id fun x => { x with data := [f.setWidth 8192] } }
  | none =>
    match readHome r.s g with
    | .error b => .late e (badFault g b)
    | .ok old =>
      let bs := leBytes 4 (maxNum fF32 (leNat old) mx)
      match writeHome r.s g bs with
      | .error b => .late e (badFault g b)
      | .ok ws =>
        let c := ((r.s.corrected g []).storeCached (quadOfPos o.pos) g bs).addFlags o.pos f
        .done { chip := c, writes := r.writes ++ ws }

def performQdrain (s : State) (o : Op) (t ascope : Nat) : Perf :=
  let w := tyBits t / 8
  if o.status = .sent then .notYet (Eff.quiet s.ch)
  else match tileShape (nth 0 o.vals 2) w with
  | none => .done (Eff.quiet s.ch)
  | some x =>
    let dst := nth Loc.none o.locs 0
    match drainElems o (nth Loc.none o.locs 1) dst x t w x.places 0 f32NaN (Run.over s (dst.rowSegs 0 x.dp x.r (x.c * w))) with
    | (_, _, r, some e) => .late (r.stopped s) (stopLate e)
    | (f, mx, r, none) => foldAmax o ascope f mx r

/-- The answer of the home to the atomic of a `qdrain` (R65). -/
def answerQdrain (s : State) (o : Op) (err qual : BitVec 8) : Perf :=
  if err ≠ 0 then
    .late (Eff.quiet s.ch) { cause := heldCause err, qual := qual,
                             value := BitVec.ofNat 64 ({ o with locs := o.locs.drop 2 }.run).va }
  else .done (Eff.quiet (s.ch.addFlags o.pos ((nth 0 o.data 0).setWidth 6)))

/-! Block quantisation (R207, R337). -/

/-- emax and the largest magnitude of a target type, as a value. -/
def quantLimits (t : Nat) : Int × Nat :=
  match t with
  | 9 => (8, 448)
  | 10 => (15, 57344)
  | _ => (6, 127)

/-- The floor of log2 of a finite nonzero value. -/
def floorLog (m : Nat) (e : Int) : Int := (Nat.log2 m : Int) + e

/-- One value of a block by the scale exponent `sc`: rounded, clamped symmetrically; a clamp sets OF. -/
def quantElem (t : Nat) (sc : Int) (x : Num) : Nat × Flags :=
  match x with
  | .fin neg m e =>
    let (_, big) := quantLimits t
    match tyKind t with
    | .float f =>
      let (b, g) := f.roundFin .rne neg m (e - sc)
      let mag := b % 2 ^ (f.width - 1)
      let lim := if f.ieee then f.largest else 0x7E
      if lim < mag ∨ g &&& flOF ≠ 0 then (f.sign neg + lim, flOF ||| flNX) else (b, g)
    | _ =>
      let (n, exact) := quantize .rne neg m (e - sc) 0
      let v : Int := if neg then -((min n big : Nat) : Int) else ((min n big : Nat) : Int)
      ((BitVec.ofInt 8 v).toNat, if big < n then flOF ||| flNX else flagIf (!exact) flNX)
  | _ => (0, 0)

/-- A block of f32 values: E and the elements, with flags. -/
def quantBlock (t : Nat) (vs : List Nat) : Nat × List Nat × Flags :=
  let xs := vs.map f32Val
  if xs.any fun x => x.isNan || x.isInf then
    (0xFF, vs.map fun _ => (if t = 9 then 0x7F else if t = 10 then 0x7E else 0), flNV)
  else
    let m := vs.foldl (fun a v => max a (v % 2 ^ 31)) 0
    let e : Int := match f32Val m with
      | .fin _ k x => if k = 0 then 0 else max (floorLog k x - (quantLimits t).1 + 127) 0
      | _ => 0
    let qs := xs.map (quantElem t (e - 127))
    (e.toNat, qs.map (·.1), qs.foldl (fun f q => f ||| q.2) 0)

/-- Elements written one at a time. -/
def writeBytes (o : Op) (dst : Loc) : List (Nat × Nat) → Run → Run × Option Stop
  | [], r => (r, none)
  | (off, b) :: es, r => match r.write o dst off [BitVec.ofNat 8 b] with
    | (r1, some x) => (r1, some x)
    | (r1, none) => writeBytes o dst es r1

/-- Blocks in order: the places of a block's elements in the accumulator and the destination, and of its scale. -/
def quantBlocks (o : Op) (x : Tile) (t : Nat) : List (List (Nat × Nat) × Nat) → Flags → Run → Flags × Run × Option Stop
  | [], f, r => (f, r, none)
  | (cells, sc) :: rest, f, r =>
    let rec read : List (Nat × Nat) → Run → Except Stop (List Nat × Run)
      | [], r => .ok ([], r)
      | c :: cs, r => match readWords o (nth Loc.none o.locs 1) c.1 1 r with
        | .error e => .error e
        | .ok (v, r1) => match read cs r1 with
          | .error e => .error e
          | .ok (vs, r2) => .ok (v ++ vs, r2)
    match read cells r with
    | .error e => (f, r, some e)
    | .ok (vs, r1) =>
      let (e, qs, g) := quantBlock t vs
      match writeBytes o (nth Loc.none o.locs 0) ((cells.map (·.2)).zip qs) r1 with
      | (r2, some e) => (f, r2, some e)
      | (r2, none) => match writeBytes o (nth Loc.none o.locs 2) [(sc, e)] r2 with
        | (r3, some e) => (f, r3, some e)
        | (r3, none) => quantBlocks o x t rest (f ||| g) r3

/-- The row blocks and then the column blocks of a tile (R337). -/
def Tile.blocks (x : Tile) : List (List (Nat × Nat) × Nat) :=
  ((List.range x.r).flatMap fun i => (List.range (x.c / 32)).map fun jb =>
    ((List.range 32).map fun k => (4 * (i * x.sp + 32 * jb + k), i * x.dp + 32 * jb + k), i * (x.c / 32) + jb))
  ++ ((List.range (x.r / 32)).flatMap fun ib => (List.range x.c).map fun j =>
    ((List.range 32).map fun k => (4 * ((32 * ib + k) * x.sp + j), x.r * x.dp + j * x.r + 32 * ib + k),
     x.r * x.c / 32 + j * (x.r / 32) + ib))

def performQuant2 (s : State) (o : Op) (t : Nat) : Perf :=
  match tileShape (nth 0 o.vals 2) 1 with
  | none => .done (Eff.quiet s.ch)
  | some x =>
    let dst := nth Loc.none o.locs 0
    let whole := dst.rowSegs 0 x.dp x.r x.c ++ dst.rowSegs (x.r * x.dp) x.r x.c x.r ++ (nth Loc.none o.locs 2).segs
    match quantBlocks o x t x.blocks 0 (Run.over s whole) with
    | (_, r, some e) => .late (r.stopped s) (stopLate e)
    | (f, r, none) => .done { chip := r.s.ch.addFlags o.pos f, writes := r.writes }

/-- A started command of the drain unit is performed. -/
def performDrain (s : State) (o : Op) : Perf :=
  match o.instr with
  | .accz .. => performAccz s o
  | .accmv .. => performAccmv s o
  | .adrain _ _ _ t _ => performAdrain s o t.toNat
  | .qdrain _ _ _ _ t c _ => performQdrain s o t.toNat c.toNat
  | .quant2 _ _ _ _ t _ => performQuant2 s o t.toNat
  | _ => .done (Eff.quiet s.ch)

end Sys2Proof.Machine
end

