-- ==== Sys2Proof/Machine/Operands.lean ====
section
/-! DEFINITION. The operand forms of the V cluster: the shape register, elements and lanes, register groups, the last-result
file, predicates, and the form every V-R instruction shares (R188, R189, R342 to R348). -/

namespace Sys2Proof.Machine

/-! The shape register (R342, R343). -/

structure VShape where
  ty : Nat
  gs : Nat
  rows : Nat
  cols : Nat
deriving DecidableEq, Repr

def vshapeOf (v : Reg) : VShape :=
  let n := v.toNat
  { ty := bits n 20 4, gs := bits n 12 3, rows := bits n 7 4 + 1, cols := bits n 0 7 + 1 }

/-- Elements a row of a type holds (R342). -/
def rowCapacity (ty : Nat) : Nat := if ty = tyTap6 then 64 else 512 / tyBits ty

/-- A value `vsh` accepts (R343). -/
def vshOk (v : Reg) : Bool :=
  let n := v.toNat
  let x := vshapeOf v
  bits n 24 40 == 0 && bits n 15 5 == 0 && bits n 11 1 == 0 && decide (x.ty < 14 ∧ 1 ≤ x.gs ∧ x.gs ≤ 6 ∧ x.cols ≤ rowCapacity x.ty)

def VShape.w (x : VShape) : Nat := tyBits x.ty
def VShape.count (x : VShape) : Nat := x.gs * x.rows * x.cols

/-- A position: register of the group, row, column. -/
structure Pos where
  g : Nat
  r : Nat
  c : Nat
deriving DecidableEq, Repr

/-- The elements in linear order (R344). -/
def VShape.elems (x : VShape) : List Pos :=
  (List.range x.gs).flatMap fun g => (List.range x.rows).flatMap fun r => (List.range x.cols).map fun c => { g := g, r := r, c := c }

def VShape.index (x : VShape) (p : Pos) : Nat := (p.g * x.rows + p.r) * x.cols + p.c

/-- The bit at which an element of width `w` starts in its register. -/
def elemBit (w : Nat) (p : Pos) : Nat := 512 * p.r + w * p.c

/-- The lane of an element: the byte of its row in which it starts (R344). -/
def laneOf (w : Nat) (p : Pos) : Nat := w * p.c / 8

/-- The element of width `w` at a position of a group's values. -/
def getElem_ (l : List Nat) (w : Nat) (p : Pos) : Nat := bits (nth 0 l p.g) (elemBit w p) w

/-- A number with `n` bits at `lo` replaced. -/
def putField (x lo n v : Nat) : Nat := x - bits x lo n * 2 ^ lo + v % 2 ^ n * 2 ^ lo

def putElem (l : List Nat) (w : Nat) (p : Pos) (v : Nat) : List Nat := l.set p.g (putField (nth 0 l p.g) (elemBit w p) w v)

/-! Register groups and source fields (R188, R189, R235). -/

/-- The main registers a source field covers. -/
def srcNames (f gs : Nat) : List RegName := if f < 32 then (List.range' f gs).map .v else []

/-- The hold group in progress of a strand's V cluster (R185, R189). -/
def Strand.vGroup (σ : Strand) : Nat := σ.v.curGroup

/-- The last-result entry a field names, when it is the strand's own of the group in progress (R189). -/
def Chip.latch? (c : Chip) (σ : Strand) (f : Nat) : Option Latch :=
  ((c.core (coreOf σ.pos)).latch[f - 40]?).filter fun l => l.pos == σ.pos && l.group == σ.vGroup

/-- A last-result entry named by a field awaits its load (R359). -/
def Chip.latchBusy (c : Chip) (σ : Strand) (f : Nat) : Bool :=
  decide (40 ≤ f ∧ f < 44) && match c.latch? σ f with
    | some l => l.op.isSome
    | none => false

/-- The values of the registers a source field covers, or the cause of R188 or R189. -/
def Chip.fetchV (c : Chip) (σ : Strand) (f gs : Nat) : Except (BitVec 8) (List Nat) :=
  if f < 32 then
    if 32 < f + gs then .error 0x02 else .ok ((List.range' f gs).map fun n => (nth 0 σ.vr.v n).toNat)
  else if f < 40 then
    if 40 < f + gs then .error 0x02 else .ok ((List.range' (f - 32) gs).map fun n => (nth 0 σ.vr.o n).toNat)
  else if f < 44 then
    if gs ≠ 1 then .error 0x02
    else match c.latch? σ f with
      | some l => .ok [l.val.toNat]
      | none => .error 0x03
  else .ok (List.replicate gs 0)

/-- A V register is written. -/
def Strand.setV (σ : Strand) (n : Nat) (x : BitVec 8192) : Strand :=
  ({ σ with vr := { σ.vr with v := setNth 0 σ.vr.v n x } } : Strand).settle (.v n)

def Strand.setO (σ : Strand) (n : Nat) (x : BitVec 8192) : Strand := { σ with vr := { σ.vr with o := setNth 0 σ.vr.o n x } }

/-- Results are pushed into the last-result file, in register order (R189, R347). Fields reach the four latest entries; older ones
are kept for a load that is taken back. -/
def Chip.pushLatches (c : Chip) (σ : Strand) (vals : List (BitVec 8192)) (op : Option Nat) : Chip :=
  c.modCore (coreOf σ.pos) fun k =>
    let new := (List.range vals.length).map fun g => { pos := σ.pos, group := σ.vGroup, val := nth 0 vals g, op := op.map fun o => (o, g) : Latch }
    { k with latch := (new.reverse ++ k.latch).take 16 }

/-- A change of the last-result entries of a strand: on its core, and as kept while its hold group is suspended (R189). -/
def Chip.modLatches (c : Chip) (pos : Nat) (f : List Latch → List Latch) : Chip :=
  (c.modCore (coreOf pos) fun k => { k with latch := f k.latch }).modStrand pos fun σ =>
    { σ with trap := { σ.trap with latch := f σ.trap.latch } }

/-- A strand, and an operation with the strand it keeps, in another slot: the last-result entries are those of the slot (R189). -/
def Strand.renamed (σ : Strand) (pos : Nat) : Strand :=
  { σ with pos := pos, trap := { σ.trap with latch := σ.trap.latch.map fun l => if l.pos = σ.pos then { l with pos := pos } else { l with pos := 0xFFFF } } }
def Op.renamed (o : Op) (pos : Nat) : Op := { o with pos := pos, was := o.was.map fun σ => σ.renamed pos }

/-- The entries a load pushed leave with it when it is taken back. -/
def Chip.popLatches (c : Chip) (o : Op) : Chip :=
  c.modLatches o.pos fun ls => ls.filter fun l => match l.op with
    | some e => e.1 != o.id
    | none => true

/-! Predicates (R345). -/

/-- EW of a type. -/
def ewOf (ty : Nat) : Nat :=
  match tyBits ty with
  | 8 => 0
  | 16 => 1
  | 32 => 2
  | _ => 3

def Strand.pred (σ : Strand) (k : Nat) : BitVec 16 := nth 0 σ.vr.p k
def predCount (p : BitVec 16) : Nat := bits p.toNat 0 14
def predEw (p : BitVec 16) : Nat := bits p.toNat 14 2

/-- The number of leading elements that are active under predicate `k`, of `n`; none when EW is not the governing width. -/
def Strand.active (σ : Strand) (k : BitVec 3) (ty n : Nat) : Option Nat :=
  if k = 0 then some n
  else if predEw (σ.pred k.toNat) = ewOf ty then some (min n (predCount (σ.pred k.toNat)))
  else none

/-! Type classes (R348). -/

def clsFloat (t : Nat) : Bool := [6, 7, 8].contains t
def clsInt (t : Nat) : Bool := decide (t < 6)
def clsBoth (t : Nat) : Bool := clsFloat t || clsInt t
def clsByte (t : Nat) : Bool := decide (t < 12)
def clsAny (t : Nat) : Bool := decide (t < 14)

/-! The V-R form (R347). -/

/-- The fields of a V-R instruction. `ofile` says that d names an operand register. -/
structure VForm where
  w : BitVec 1
  d : Nat
  a : Option (BitVec 6)
  b : Option (BitVec 6)
  p : BitVec 3
  f : BitVec 1
  ofile : Bool := false

/-- The operands at hand: the shape and the values of the groups a, b and d, and the active count. -/
structure VIn where
  sh : VShape
  a : List Nat
  b : List Nat
  d : List Nat
  n : Nat
  mode : BitVec 2

def VIn.getA (v : VIn) (p : Pos) : Nat := getElem_ v.a v.sh.w p
def VIn.getB (v : VIn) (p : Pos) : Nat := getElem_ v.b v.sh.w p
def VIn.getD (v : VIn) (p : Pos) : Nat := getElem_ v.d v.sh.w p

/-- The active elements. -/
def VIn.live (v : VIn) : List Pos := v.sh.elems.take v.n

/-- What a V-R instruction produces: elements written, and flags by lane. -/
structure VOut where
  elems : List (Pos × Nat)
  flags : List (Nat × Flags)

/-- Issue of a V word: its registers depend on the shape. -/
def vIssue (s : State) (rs : VShape → List RegName) (body : Strand → VShape → Res) : Host.Outcome State Fault Refusal :=
  match s.ch.strand? s.ch.turn.pos with
  | none => .fault .noStrand
  | some σ => issue s (rs (vshapeOf σ.vr.vsh)) fun τ => body τ (vshapeOf τ.vr.vsh)

/-- Flags joined into the lanes they belong to. -/
def orLanes (fl : List Flags) (es : List (Nat × Flags)) : List Flags := es.foldl (fun l e => l.set e.1 (nth 0 l e.1 ||| e.2)) fl

/-- The effect of results: the registers of d unless W, the last-result entries, and the flags unless F (R347). -/
def vWrite (s : State) (σ : Strand) (fm : VForm) (w : Nat) (old : List Nat) (out : VOut) : Eff :=
  let new := (out.elems.foldl (fun l e => putElem l w e.1 e.2) old).map (BitVec.ofNat 8192)
  let put (τ : Strand) : Strand :=
    if fm.w = 1 then τ
    else (List.range new.length).foldl (fun τ g =>
      if fm.ofile then τ.setO (fm.d + g) (nth 0 new g) else τ.setV (fm.d + g) (nth 0 new g)) τ
  let flag (τ : Strand) : Strand :=
    if fm.f = 1 then τ else { τ with vr := { τ.vr with vflags := orLanes τ.vr.vflags out.flags } }
  Eff.quiet ((s.ch.modStrand σ.pos fun τ => flag (put τ)).pushLatches σ new none)

/-- A V-R instruction: the class and the limits of its own rule, the predicate, the groups, stale entries, and the result. `tw`
is the width of a result element. -/
def vResult (s : State) (fm : VForm) (cls : Nat → Bool) (ok : VShape → Bool) (tw : VShape → Nat) (more : List RegName)
    (body : VIn → Strand → VOut) : Host.Outcome State Fault Refusal :=
  let names (sh : VShape) : List RegName :=
    (fm.a.toList ++ fm.b.toList).flatMap (fun f => srcNames f.toNat sh.gs) ++ more
      ++ (if fm.ofile then [] else srcNames fm.d sh.gs)
  vIssue s names fun σ sh =>
    let get (f : Option (BitVec 6)) : Except (BitVec 8) (List Nat) := match f with
      | some x => s.ch.fetchV σ x.toNat sh.gs
      | none => .ok []
    let field (x : Option (BitVec 6)) : Nat := (x.map (·.toNat)).getD 44
    if !cls sh.ty ∨ !ok sh then faulty 0x02
    else match σ.active fm.p sh.ty sh.count, s.ch.fetchV σ (if fm.ofile then 32 + fm.d else fm.d) sh.gs with
      | some n, .ok d =>
        if s.ch.latchBusy σ (field fm.a) || s.ch.latchBusy σ (field fm.b) then .stall s.ch
        else match get fm.a, get fm.b with
          | .ok a, .ok b =>
            let v : VIn := { sh := sh, a := a, b := b, d := d, n := n, mode := σ.vr.vmode }
            .go (vWrite s σ fm (tw sh) d (body v σ)) none
          | .error x, .ok _ => faulty x
          | .ok _, .error y => faulty y
          | .error x, .error y => faulty (if x = 0x02 then 0x02 else y)
      | _, _ => faulty 0x02

/-- An instruction that computes each active element by itself. -/
def vElem (s : State) (fm : VForm) (cls : Nat → Bool) (fn : VIn → Pos → Nat × Flags) : Host.Outcome State Fault Refusal :=
  vResult s fm cls (fun _ => true) VShape.w [] fun v _ =>
    let rs := v.live.map fun p => (p, fn v p)
    { elems := rs.map fun r => (r.1, r.2.1), flags := rs.map fun r => (laneOf v.sh.w r.1, r.2.2) }

end Sys2Proof.Machine
end

