-- ==== Sys2Proof/Machine/Vector.lean ====
section
/-! DEFINITION. The V cluster's arithmetic, compares, conversions, reductions, permutes, moves, predicates, flags and modes (R343,
R346, R349 to R354, R363). -/

namespace Sys2Proof.Machine

/-! Element arithmetic (R349). -/

/-- The float format of a type of the float class. -/
def fmtOf (ty : Nat) : Fmt := if ty = 6 then fF16 else if ty = 7 then fBF16 else fF32

/-- The two-operand and three-operand operations; `d` is the old destination. -/
inductive VArith where
  | add | sub | mul | fma | fms | nfma | min | max | minm | maxm | abs | neg | shl | shr | sra
deriving DecidableEq, Repr

/-- minimumNumber and maximumNumber, NV for a signalling NaN (R216, R349). -/
def floatMin (f : Fmt) (a b : Nat) : Nat × Flags := (minNum f a b, flagIf ((f.decode a).isSig || (f.decode b).isSig) flNV)
def floatMax (f : Fmt) (a b : Nat) : Nat × Flags := (maxNum f a b, flagIf ((f.decode a).isSig || (f.decode b).isSig) flNV)

def Num.abs : Num → Num
  | .fin _ m e => .fin false m e
  | .inf _ => .inf false
  | .nan s => .nan s

/-- An exact value rounded once, with the flags of forming it. -/
def rounded (f : Fmt) (r : Rnd) (x : Num × Flags) : Nat × Flags :=
  let (b, g) := f.round r x.1
  (b, x.2 ||| g)

/-- A float result. An exact zero sum of unlike signs is −0 when rounding down. -/
def floatArith (o : VArith) (f : Fmt) (r : Rnd) (a b d : Nat) : Nat × Flags :=
  let x := f.decode a
  let y := f.decode b
  let z := f.decode d
  let zn := r == .rdn
  match o with
  | .add => rounded f r (x.add y zn)
  | .sub => rounded f r (x.add y.negate zn)
  | .mul => rounded f r (x.mul y)
  | .fma => rounded f r (x.fma y z zn)
  | .fms => rounded f r (x.fma y z.negate zn)
  | .nfma => rounded f r (x.negate.fma y z zn)
  | .min => floatMin f a b
  | .max => floatMax f a b
  | .minm => if x.abs.lt y.abs false then (a, 0) else if y.abs.lt x.abs false then (b, 0) else floatMin f a b
  | .maxm => if x.abs.lt y.abs false then (b, 0) else if y.abs.lt x.abs false then (a, 0) else floatMax f a b
  | .abs => (if x.isNan then f.nan else a % f.sign true, 0)
  | .neg => (if x.isNan then f.nan else if x.neg? then a - f.sign true else a + f.sign true, 0)
  | _ => (a, 0)

/-- An integer of `w` bits, as the type reads it. -/
def vInt (ty b : Nat) : Int :=
  match tyKind ty with
  | .sint w => signed w b
  | .uint w => ((b % 2 ^ w : Nat) : Int)
  | _ => 0

/-- An integer result, reduced modulo 2^w. -/
def intArith (o : VArith) (ty a b d : Nat) : Nat :=
  let w := tyBits ty
  let x := vInt ty a
  let y := vInt ty b
  let z := vInt ty d
  let sgn := ty % 2 == 0
  let sh := b % w
  let low (v : Int) : Nat := (v % (2 ^ w : Nat)).toNat
  match o with
  | .add => low (x + y)
  | .sub => low (x - y)
  | .mul => low (x * y)
  | .fma => low (x * y + z)
  | .fms => low (x * y - z)
  | .nfma => low (z - x * y)
  | .min => low (min x y)
  | .max => low (max x y)
  | .minm => low (if sgn && x.natAbs != y.natAbs then (if x.natAbs < y.natAbs then x else y) else min x y)
  | .maxm => low (if sgn && x.natAbs != y.natAbs then (if x.natAbs < y.natAbs then y else x) else max x y)
  | .abs => low (if sgn then (x.natAbs : Int) else x)
  | .neg => low (-x)
  | .shl => a * 2 ^ sh % 2 ^ w
  | .shr => a % 2 ^ w / 2 ^ sh
  | .sra => low (signed w a / (2 ^ sh : Nat))

def vArith (o : VArith) (v : VIn) (r : Rnd) (a b d : Nat) : Nat × Flags :=
  if clsFloat v.sh.ty then floatArith o (fmtOf v.sh.ty) r a b d else (intArith o v.sh.ty a b d, 0)

/-- The shared form of the arithmetic instructions. -/
def vCompute (s : State) (o : VArith) (cls : Nat → Bool) (fm : VForm) (r : BitVec 2) : Host.Outcome State Fault Refusal :=
  vElem s fm cls fun v p => vArith o v (rndOf r v.mode) (v.getA p) (v.getB p) (v.getD p)

def binForm (w : BitVec 1) (d : BitVec 5) (a b : BitVec 6) (p : BitVec 3) (f : BitVec 1) : VForm :=
  { w := w, d := d.toNat, a := some a, b := some b, p := p, f := f }
def unForm (w : BitVec 1) (d : BitVec 5) (a : BitVec 6) (p : BitVec 3) (f : BitVec 1) : VForm :=
  { w := w, d := d.toNat, a := some a, b := none, p := p, f := f }

def execVadd (w : BitVec 1) (d : BitVec 5) (a b : BitVec 6) (p : BitVec 3) (f : BitVec 1) (r : BitVec 2) (s : State) :=
  vCompute s .add clsBoth (binForm w d a b p f) r
def execVsub (w : BitVec 1) (d : BitVec 5) (a b : BitVec 6) (p : BitVec 3) (f : BitVec 1) (r : BitVec 2) (s : State) :=
  vCompute s .sub clsBoth (binForm w d a b p f) r
def execVmul (w : BitVec 1) (d : BitVec 5) (a b : BitVec 6) (p : BitVec 3) (f : BitVec 1) (r : BitVec 2) (s : State) :=
  vCompute s .mul clsBoth (binForm w d a b p f) r
def execVfma (w : BitVec 1) (d : BitVec 5) (a b : BitVec 6) (p : BitVec 3) (f : BitVec 1) (r : BitVec 2) (s : State) :=
  vCompute s .fma clsBoth (binForm w d a b p f) r
def execVfms (w : BitVec 1) (d : BitVec 5) (a b : BitVec 6) (p : BitVec 3) (f : BitVec 1) (r : BitVec 2) (s : State) :=
  vCompute s .fms clsBoth (binForm w d a b p f) r
def execVnfma (w : BitVec 1) (d : BitVec 5) (a b : BitVec 6) (p : BitVec 3) (f : BitVec 1) (r : BitVec 2) (s : State) :=
  vCompute s .nfma clsBoth (binForm w d a b p f) r
def execVmin (w : BitVec 1) (d : BitVec 5) (a b : BitVec 6) (p : BitVec 3) (f : BitVec 1) (r : BitVec 2) (s : State) :=
  vCompute s .min clsBoth (binForm w d a b p f) r
def execVmax (w : BitVec 1) (d : BitVec 5) (a b : BitVec 6) (p : BitVec 3) (f : BitVec 1) (r : BitVec 2) (s : State) :=
  vCompute s .max clsBoth (binForm w d a b p f) r
def execVminm (w : BitVec 1) (d : BitVec 5) (a b : BitVec 6) (p : BitVec 3) (f : BitVec 1) (r : BitVec 2) (s : State) :=
  vCompute s .minm clsBoth (binForm w d a b p f) r
def execVmaxm (w : BitVec 1) (d : BitVec 5) (a b : BitVec 6) (p : BitVec 3) (f : BitVec 1) (r : BitVec 2) (s : State) :=
  vCompute s .maxm clsBoth (binForm w d a b p f) r
def execVabs (w : BitVec 1) (d : BitVec 5) (a : BitVec 6) (p : BitVec 3) (f : BitVec 1) (r : BitVec 2) (s : State) :=
  vCompute s .abs clsBoth (unForm w d a p f) r
def execVneg (w : BitVec 1) (d : BitVec 5) (a : BitVec 6) (p : BitVec 3) (f : BitVec 1) (r : BitVec 2) (s : State) :=
  vCompute s .neg clsBoth (unForm w d a p f) r
def execVshl (w : BitVec 1) (d : BitVec 5) (a b : BitVec 6) (p : BitVec 3) (f : BitVec 1) (r : BitVec 2) (s : State) :=
  vCompute s .shl clsInt (binForm w d a b p f) r
def execVshr (w : BitVec 1) (d : BitVec 5) (a b : BitVec 6) (p : BitVec 3) (f : BitVec 1) (r : BitVec 2) (s : State) :=
  vCompute s .shr clsInt (binForm w d a b p f) r
def execVsra (w : BitVec 1) (d : BitVec 5) (a b : BitVec 6) (p : BitVec 3) (f : BitVec 1) (r : BitVec 2) (s : State) :=
  vCompute s .sra clsInt (binForm w d a b p f) r

/-! Bitwise operations, moves, selection (R349, R351, R354): they do not round. -/

/-- An element-wise operation on stored bits. -/
def vBits (s : State) (cls : Nat → Bool) (fm : VForm) (fn : Nat → Nat → Nat → Nat) : Host.Outcome State Fault Refusal :=
  vElem s fm cls fun v p => (fn (v.getA p) (v.getB p) (v.getD p), 0)

def execVand (w : BitVec 1) (d : BitVec 5) (a b : BitVec 6) (p : BitVec 3) (f : BitVec 1) (_r : BitVec 2) (s : State) :=
  vBits s clsAny (binForm w d a b p f) fun x y _ => x &&& y
def execVor (w : BitVec 1) (d : BitVec 5) (a b : BitVec 6) (p : BitVec 3) (f : BitVec 1) (_r : BitVec 2) (s : State) :=
  vBits s clsAny (binForm w d a b p f) fun x y _ => x ||| y
def execVxor (w : BitVec 1) (d : BitVec 5) (a b : BitVec 6) (p : BitVec 3) (f : BitVec 1) (_r : BitVec 2) (s : State) :=
  vBits s clsAny (binForm w d a b p f) fun x y _ => x ^^^ y
def execVsel (w : BitVec 1) (d : BitVec 5) (a b : BitVec 6) (p : BitVec 3) (f : BitVec 1) (_r : BitVec 2) (s : State) :=
  vBits s clsByte (binForm w d a b p f) fun x y z => if z = 0 then y else x
def execVmov (w : BitVec 1) (d : BitVec 5) (a : BitVec 6) (p : BitVec 3) (f : BitVec 1) (_r : BitVec 2) (s : State) :=
  vBits s clsAny (unForm w d a p f) fun x _ _ => x

/-- A move within the group's elements, with the limit of its own rule. -/
def vMove (s : State) (cls : Nat → Bool) (fm : VForm) (ok : VShape → Bool) (more : List RegName) (fn : VIn → Strand → Pos → Nat) :
    Host.Outcome State Fault Refusal :=
  vResult s fm cls ok VShape.w more fun v σ => { elems := v.live.map fun p => (p, fn v σ p), flags := [] }

def execVperm (w : BitVec 1) (d : BitVec 5) (a b : BitVec 6) (p : BitVec 3) (f : BitVec 1) (_r : BitVec 2) (s : State) :=
  vMove s clsByte (binForm w d a b p f) (fun _ => true) [] fun v _ q => v.getA { q with c := v.getB q % v.sh.cols }

def execVbcast (w : BitVec 1) (d : BitVec 5) (a im : BitVec 6) (p : BitVec 3) (f : BitVec 1) (_r : BitVec 2) (s : State) :=
  vMove s clsByte (unForm w d a p f) (fun sh => decide (im.toNat < sh.cols)) [] fun v _ q => v.getA { q with c := im.toNat }

def execVtrn (w : BitVec 1) (d : BitVec 5) (a : BitVec 6) (p : BitVec 3) (f : BitVec 1) (_r : BitVec 2) (s : State) :=
  vMove s clsByte (unForm w d a p f) (fun sh => sh.rows == sh.cols) [] fun v _ q => v.getA { q with r := q.c, c := q.r }

def execVomov (w : BitVec 1) (d : BitVec 5) (a : BitVec 6) (p : BitVec 3) (f : BitVec 1) (_r : BitVec 2) (s : State) :=
  vMove s clsAny { unForm w d a p f with ofile := true } (fun _ => decide (d.toNat ≤ 7) && w == 0) [] fun v _ q => v.getA q

def execVsplat (w : BitVec 1) (d : BitVec 5) (k : BitVec 1) (sp : BitVec 5) (p : BitVec 3) (s : State) :=
  vMove s clsAny { w := w, d := d.toNat, a := none, b := none, p := p, f := 0 } (fun _ => true)
    (if k = 0 then [.x (sp.toNat % 8)] else []) fun v σ _ =>
      (if k = 0 then σ.getX (sp.toNat % 8) else σ.snapS .v sp.toNat).toNat % 2 ^ v.sh.w

/-! Compares (R350). -/

/-- Whether a condition holds, and its flags. -/
def vCond (c : Nat) (ty a b : Nat) : Bool × Flags :=
  if clsFloat ty then
    let x := (fmtOf ty).decode a
    let y := (fmtOf ty).decode b
    let un := x.isNan || y.isNan
    let nv := flagIf (x.isSig || y.isSig || (un && decide (2 ≤ c ∧ c ≤ 5))) flNV
    (match c with
      | 0 => x.eq y
      | 1 => !x.eq y
      | 2 => x.lt y false
      | 3 => !un && !y.lt x false
      | 4 => y.lt x false
      | 5 => !un && !x.lt y false
      | _ => un, nv)
  else
    let x := vInt ty a
    let y := vInt ty b
    (match c with
      | 0 => decide (x = y)
      | 1 => decide (x ≠ y)
      | 2 => decide (x < y)
      | 3 => decide (x ≤ y)
      | 4 => decide (y < x)
      | 5 => decide (y ≤ x)
      | _ => false, 0)

def execVcmp (w : BitVec 1) (d : BitVec 5) (a b : BitVec 6) (c : BitVec 3) (f : BitVec 1) (_r : BitVec 2) (s : State) :
    Host.Outcome State Fault Refusal :=
  vElem s (binForm w d a b 0 f) clsBoth fun v p =>
    let (h, g) := vCond c.toNat v.sh.ty (v.getA p) (v.getB p)
    (if h then 2 ^ v.sh.w - 1 else 0, g)

/-! Conversion (R352). -/

def execVcvt (w : BitVec 1) (d : BitVec 5) (a : BitVec 6) (t : BitVec 4) (p : BitVec 3) (f : BitVec 1) (r : BitVec 2) (s : State) :
    Host.Outcome State Fault Refusal :=
  vResult s (unForm w d a p f) clsAny (fun sh => decide (t.toNat < 14 ∧ sh.cols ≤ rowCapacity t.toNat)) (fun _ => tyBits t.toNat) []
    fun v _ =>
      let rs := v.live.map fun q => (q, convert v.sh.ty t.toNat (rndOf r v.mode) (v.getA q))
      { elems := rs.map fun x => (x.1, x.2.1), flags := rs.map fun x => (laneOf v.sh.w x.1, x.2.2) }

/-! Reductions and scans (R353). -/

/-- The operation of a reduction: add, max, min. -/
def redOp (o : BitVec 2) : VArith := if o = 0 then .add else if o = 1 then .max else .min

/-- The value of a line with no active element. -/
def redIdentity (o : BitVec 2) (ty : Nat) : Nat :=
  let w := tyBits ty
  if o = 0 then 0
  else if clsFloat ty then (fmtOf ty).sign (o == 1) + (fmtOf ty).infinity
  else if o = 1 then (if ty % 2 = 0 then 2 ^ (w - 1) else 0)
  else (if ty % 2 = 0 then 2 ^ (w - 1) - 1 else 2 ^ w - 1)

/-- The lines of an axis, each in linear order. -/
def redLines (sh : VShape) (axis : BitVec 1) : List (List Pos) :=
  if axis = 0 then
    (List.range sh.gs).flatMap fun g => (List.range sh.rows).map fun r => (List.range sh.cols).map fun c => { g := g, r := r, c := c }
  else
    (List.range sh.cols).map fun c => (List.range sh.gs).flatMap fun g => (List.range sh.rows).map fun r => { g := g, r := r, c := c }

/-- The running values of a line over its active elements, with the flags of all steps. The first active element is taken as it is, a NaN too (log
entry 99). -/
def redRun (v : VIn) (o : BitVec 2) (r : Rnd) : List Pos → Option Nat → List (Pos × Nat) × Option Nat × Flags
  | [], acc => ([], acc, 0)
  | p :: ps, acc =>
    if v.sh.index p < v.n then
      let x := v.getA p
      let (y, f) := match acc with
        | some z => vArith (redOp o) v r z x 0
        | none => (x, 0)
      let (es, last, g) := redRun v o r ps (some y)
      ((p, y) :: es, last, f ||| g)
    else redRun v o r ps acc

def vReduce (s : State) (scan : Bool) (fm : VForm) (x : BitVec 1) (o r : BitVec 2) : Host.Outcome State Fault Refusal :=
  vResult s fm clsBoth (fun _ => true) VShape.w [] fun v _ =>
    let rs := (redLines v.sh x).map fun line => (line, redRun v o (rndOf r v.mode) line none)
    let first (l : List Pos) : Pos := l.headD { g := 0, r := 0, c := 0 }
    { elems := rs.flatMap fun e =>
        if scan then e.2.1
        else if v.sh.index (first e.1) < v.n then [(first e.1, e.2.2.1.getD (redIdentity o v.sh.ty))] else [],
      flags := rs.map fun e => (laneOf v.sh.w (first e.1), e.2.2.2) }

def execVred (w : BitVec 1) (d : BitVec 5) (a : BitVec 6) (x : BitVec 1) (o : BitVec 2) (p : BitVec 3) (f : BitVec 1) (r : BitVec 2)
    (s : State) := vReduce s false (unForm w d a p f) x o r
def execVscan (w : BitVec 1) (d : BitVec 5) (a : BitVec 6) (x : BitVec 1) (o : BitVec 2) (p : BitVec 3) (f : BitVec 1) (r : BitVec 2)
    (s : State) := vReduce s true (unForm w d a p f) x o r

/-! The shape register, predicates, flags and modes (R343, R346, R363). -/

def execVsh (sp : BitVec 5) (s : State) : Host.Outcome State Fault Refusal :=
  issue s [] fun σ =>
    let v := σ.snapS .v sp.toNat
    if vshOk v then onStrand s fun τ => { τ with vr := { τ.vr with vsh := v } } else faulty 0x02

def Strand.setP (σ : Strand) (n : Nat) (v : BitVec 16) : Strand := { σ with vr := { σ.vr with p := setNth 0 σ.vr.p n v } }

/-- A predicate value. -/
def predWord (ew count : Nat) : BitVec 16 := BitVec.ofNat 16 (ew * 16384 + count)

def execPset (p a : BitVec 3) (e : BitVec 2) (s : State) : Host.Outcome State Fault Refusal :=
  issue s [.x a.toNat] fun σ =>
    if p = 0 then faulty 0x02
    else onStrand s fun τ => τ.setP p.toNat (predWord e.toNat (min (σ.getX a.toNat).toNat 16383))

def execPfirst (p : BitVec 3) (a : BitVec 6) (s : State) : Host.Outcome State Fault Refusal :=
  vIssue s (fun sh => srcNames a.toNat sh.gs) fun σ sh =>
    if p = 0 then faulty 0x02
    else if s.ch.latchBusy σ a.toNat then .stall s.ch
    else match s.ch.fetchV σ a.toNat sh.gs with
      | .error x => faulty x
      | .ok l =>
        let n := (sh.elems.takeWhile fun q => getElem_ l sh.w q == 0).length
        onStrand s fun τ => τ.setP p.toNat (predWord (ewOf sh.ty) n)

def execPminmax (d a b : BitVec 3) (o : BitVec 1) (s : State) : Host.Outcome State Fault Refusal :=
  issue s [] fun σ =>
    let x := σ.pred a.toNat
    let y := σ.pred b.toNat
    if d = 0 ∨ a = 0 ∨ b = 0 ∨ predEw x ≠ predEw y then faulty 0x02
    else onStrand s fun τ =>
      τ.setP d.toNat (predWord (predEw x) (if o = 0 then min (predCount x) (predCount y) else max (predCount x) (predCount y)))

def execVfr (x : BitVec 3) (im : BitVec 2) (s : State) : Host.Outcome State Fault Refusal :=
  issue s [] fun σ =>
    let fl := σ.vr.vflags
    let any : Reg := (fl.foldl (· ||| ·) 0).setWidth 64
    let lanes : Reg := BitVec.ofNat 64 ((List.range 64).foldl (fun v l => if nth 0 fl l = 0 then v else v + 2 ^ l) 0)
    onStrand s fun τ => τ.setX x.toNat (if im = 0 then any else lanes)

def execVfc (x : BitVec 3) (s : State) : Host.Outcome State Fault Refusal :=
  issue s [.x x.toNat] fun σ =>
    let m : BitVec 6 := (σ.getX x.toNat).setWidth 6
    onStrand s fun τ => { τ with vr := { τ.vr with vflags := τ.vr.vflags.map fun f => f &&& ~~~m } }

def execVmode (x : BitVec 3) (im : BitVec 2) (s : State) : Host.Outcome State Fault Refusal :=
  issue s [.x x.toNat] fun σ =>
    onStrand s fun τ => { τ with vr := { τ.vr with vmode := if x = 0 then im else (σ.getX x.toNat).setWidth 2 } }

end Sys2Proof.Machine
end

