-- ==== Sys2Proof/Machine/Sweep.lean ====
section
/-! DEFINITION. The V cluster's memory instructions: `viset`, the six sweeps, gather and scatter by element pointers, and `vpop` and
`vpush` (R357 to R362). -/

namespace Sys2Proof.Machine

/-! `viset` (R357). -/

def execViset (im : BitVec 3) (sp : BitVec 5) (o : BitVec 3) (s : State) : Host.Outcome State Fault Refusal :=
  issue s [] fun σ =>
    s.onChk σ .v (σ.odOf .v o.toNat) (s.footprint σ benchOnly .load (σ.snapS .v sp.toNat) 0 63 64 []) fun f =>
      if s.ch.moving f.loc.segs then .stall s.ch
      else s.launchOp σ { s.opOf σ (.viset im sp o) (σ.odOf .v o.toNat) with locs := [f.loc], dest := [.vi im.toNat] } f.leaves

def performViset (s : State) (o : Op) (im : Nat) : Perf :=
  let g := o.run
  let gs := (o.check g).consults g.phys g.len
  match s.ch.side.checkRun (o.check g) g.phys g.len with
  | some b => s.faultAfter g gs (markFault o g b)
  | none =>
    match readHome s g with
    | .error b => s.faultAfter g gs (badFault g b)
    | .ok bs =>
      let r := BitVec.ofNat 512 (leNat bs)
      let c := s.corrected g gs
      if iterOk r then
        .done (Eff.quiet (c.bindReg o (.vi im) fun σ =>
          { σ with vr := { σ.vr with vi := setNth none σ.vr.vi im (some r), viPos := setNth 0 σ.vr.viPos im 0 } }))
      else .fault (Eff.quiet c) { cause := 0x02 }

/-! The issue of a sweep, gather or scatter (R358, R360, R361). -/

/-- The element at which the word of the turn goes on after a fault. -/
def Strand.skip (σ : Strand) : Nat :=
  match σ.vr.part with
  | some (pc, e) => if pc = σ.v.pc then e else 0
  | none => 0

/-- A sweep as it is issued: which iterator it advances, its destination, its direction, W, and the elements `skip` to `last`. -/
structure SweepForm where
  vi : Option Nat
  d : Nat
  store : Bool
  w : Bool
  skip : Nat
  last : Nat
  start : Nat
  total : Nat

/-- The values an issued sweep keeps: the shape, the first element, the element after the last, the iterator's position at element
0, and the first register. -/
def SweepForm.vals (x : SweepForm) (vsh : Reg) : List Reg :=
  [vsh, BitVec.ofNat 64 x.skip, BitVec.ofNat 64 x.last, BitVec.ofNat 64 x.start, BitVec.ofNat 64 x.d]

/-- The key under which an issued sweep keeps its iterator record. -/
def sweepRec : Nat := 2 ^ 21

/-- The operation of a sweep: `locs` has one entry for each active element, its run still to be found where the element is
translated as the sweep runs. Until the last of them is found the V cluster issues no word (R74). -/
def State.launchSweep (s : State) (σ : Strand) (op : Op) (x : SweepForm) (locs : List Loc) : Res :=
  let regs := List.range' x.d (vshapeOf σ.vr.vsh).gs
  let o := { op with locs := locs, vals := x.vals σ.vr.vsh, dest := if x.store || x.w then [] else regs.map .v }
  if s.ch.moving (locs.flatMap fun l => l.segs) then .stall s.ch
  else
    let r := s.launchOp σ o []
    match (if locs.any fun l => l.segs.isEmpty then r.blocking o else r) with
    | .go ef j => .go (ef.mapChip fun c =>
        let c1 := c.modStrand σ.pos fun τ =>
          { τ with vr := { τ.vr with part := none, viPos := match x.vi with
            | some v => setNth 0 τ.vr.viPos v (x.start + x.total)
            | none => τ.vr.viPos } }
        if x.store then c1 else c1.pushLatches σ (regs.map fun n => nth 0 σ.vr.v n) (some op.id)) j
    | y => y

/-- The spaces of the sweeps (R20). -/
def sweepSpace (global bench : Bool) : Allow := if global then globalOnly else if bench then benchOnly else ownColumn

/-- The run of one element of `w` bytes at an offset of its window; a global one is translated (R74). -/
def State.elementAt (s : State) (σ : Strand) (acc : Access) (ptr : Reg) (base : Nat) (off : Int) (w : Nat) : Chk (Seg × List Page) :=
  if ptrTag ptr = 0 then
    ((s.translate σ acc off.toNat).at ptr).bind fun pg =>
      let peer := leafPeer pg.leaf
      let g : Seg :=
        { phys := if peer = 0xFFF then leafFrame pg.leaf + (off.toNat - pg.page) else 0, len := w, va := off.toNat,
          peer := if peer = 0xFFF then none else some peer, mode := leafMode pg.leaf, cmp := leafCmp pg.leaf && peer == 0xFFF,
          page := pg.page, size := pg.size }
      .ok (g, [pg])
  else .ok (streamSeg base off w, [])

/-- A sweep (R358). -/
def sweep (s : State) (i : Instr) (d : BitVec 5) (im o p : BitVec 3) (store : Bool) (allow : Allow) :
    Host.Outcome State Fault Refusal :=
  vIssue s (fun sh => .vi im.toNat :: srcNames d.toNat sh.gs) fun σ sh =>
    let wb := sh.w / 8
    let n := sh.count
    let skip := σ.skip
    let start := nth 0 σ.vr.viPos im.toNat - skip
    if !clsByte sh.ty then faulty 0x02
    else match nth none σ.vr.vi im.toNat, σ.active p sh.ty n, s.ch.fetchV σ d.toNat sh.gs with
      | some rec, some live, .ok _ =>
        if 2 ^ iterLog rec ≠ wb ∨ iterTotal rec < start + n then faulty 0x02
        else
          let base := iterBase rec
          let offs := (List.range' skip (n - skip)).map fun e => iterOff rec (start + e)
          let lo := offs.foldl min (offs.headD 0)
          let hi := offs.foldl max (offs.headD 0) + ((wb : Int) - 1)
          s.onChk σ .v (σ.odOf .v o.toNat) (s.ch.checkPtr σ allow base lo hi 1) fun r =>
            if offs.any fun x => ((ptrOff base : Int) + x) % (wb : Int) != 0 then .trap { cause := 0x13, step := 6, value := base }
            else
              let op := { s.opOf σ i (σ.odOf .v o.toNat) with
                data := if store then (List.range' d.toNat sh.gs).map fun k => nth 0 σ.vr.v k else [], taken := [(sweepRec, rec)] }
              let run (e : Nat) : Loc :=
                { ptr := base, tag := ptrTag base,
                  segs := if ptrTag base = 0 then [] else [streamSeg r.1 ((ptrOff base : Int) + iterOff rec (start + e)) wb] }
              s.launchSweep σ op
                { vi := some im.toNat, d := d.toNat, store := store, w := false, skip := skip, last := live, start := start, total := n }
                ((List.range' skip (live - skip)).map run)
      | _, _, _ => faulty 0x02

def execVld (d : BitVec 5) (im o p : BitVec 3) (s : State) := sweep s (.vld d im o p) d im o p false (sweepSpace true false)
def execVst (d : BitVec 5) (im o p : BitVec 3) (s : State) := sweep s (.vst d im o p) d im o p true (sweepSpace true false)
def execVbld (d : BitVec 5) (im o p : BitVec 3) (s : State) := sweep s (.vbld d im o p) d im o p false (sweepSpace false true)
def execVbst (d : BitVec 5) (im o p : BitVec 3) (s : State) := sweep s (.vbst d im o p) d im o p true (sweepSpace false true)
def execVsld (d : BitVec 5) (im o p : BitVec 3) (s : State) := sweep s (.vsld d im o p) d im o p false (sweepSpace false false)
def execVsst (d : BitVec 5) (im o p : BitVec 3) (s : State) := sweep s (.vsst d im o p) d im o p true (sweepSpace false false)

/-- The element pointers of a gather or scatter: a run of registers from a source field, or none where it breaks R361. -/
def Strand.pointers (σ : Strand) (f n : Nat) : Option (List Reg) :=
  let m := ceilDiv (8 * n) 1024
  if 6 < m ∨ 40 ≤ f ∨ (f < 32 ∧ 32 < f + m) ∨ 40 < f + m then none
  else
    let regs := (List.range' f m).map fun k => (if f < 32 then nth 0 σ.vr.v k else nth 0 σ.vr.o (k - 32)).toNat
    some ((List.range n).map fun e => BitVec.ofNat 64 (bits (nth 0 regs (e / 128)) (64 * (e % 128)) 64))

/-- A gather or scatter (R361). -/
def pointerSweep (s : State) (i : Instr) (w : BitVec 1) (d : BitVec 5) (a : BitVec 6) (o p : BitVec 3) (store : Bool) :
    Host.Outcome State Fault Refusal :=
  vIssue s (fun sh => srcNames a.toNat (ceilDiv (8 * sh.count) 1024) ++ srcNames d.toNat sh.gs) fun σ sh =>
    let n := sh.count
    let skip := σ.skip
    if !clsByte sh.ty then faulty 0x02
    else match σ.pointers a.toNat n, σ.active p sh.ty n, s.ch.fetchV σ d.toNat sh.gs with
      | some ptrs, some live, .ok _ =>
        let op := { s.opOf σ i (σ.odOf .v o.toNat) with data := if store then (List.range' d.toNat sh.gs).map fun k => nth 0 σ.vr.v k else [] }
        s.launchSweep σ op
          { vi := none, d := d.toNat, store := store, w := w == 1, skip := skip, last := live, start := 0, total := n }
          ((List.range' skip (live - skip)).map fun e => { ptr := nth 0 ptrs e, tag := ptrTag (nth 0 ptrs e), segs := [] })
      | _, _, _ => faulty 0x02

def execVgth (w : BitVec 1) (d : BitVec 5) (a : BitVec 6) (o p : BitVec 3) (s : State) :=
  pointerSweep s (.vgth w d a o p) w d a o p false
def execVsct (d : BitVec 5) (a : BitVec 6) (o p : BitVec 3) (s : State) := pointerSweep s (.vsct d a o p) 0 d a o p true

/-! Performing a sweep (R359, R360). -/

def sweepForm : Instr → Option Bool
  | .vld .. => some false
  | .vbld .. => some false
  | .vsld .. => some false
  | .vgth .. => some false
  | .vst .. => some true
  | .vbst .. => some true
  | .vsst .. => some true
  | .vsct .. => some true
  | _ => none

/-- The iterator of a sweep. -/
def sweepIter : Instr → Option Nat
  | .vld _ im _ _ => some im.toNat
  | .vbld _ im _ _ => some im.toNat
  | .vsld _ im _ _ => some im.toNat
  | .vst _ im _ _ => some im.toNat
  | .vbst _ im _ _ => some im.toNat
  | .vsst _ im _ _ => some im.toNat
  | _ => none

/-- Whether a gather writes no register. -/
def sweepW : Instr → Bool
  | .vgth w _ _ _ _ => w == 1
  | _ => false

def Op.val (o : Op) (k : Nat) : Nat := (nth 0 o.vals k).toNat

/-- The number, position and place of each active element of an issued sweep. -/
def Op.sweepElems (o : Op) : List (Nat × Pos × Loc) :=
  let sh := vshapeOf (nth 0 o.vals 0)
  let skip := o.val 1
  (List.range' skip (o.val 2 - skip)).zip ((sh.elems.drop skip).zip o.locs)

/-- The elements that have their runs and are not performed: `progress` counts those performed. -/
def Op.sweepTodo (o : Op) : List (Nat × Pos × Seg) :=
  ((o.sweepElems.drop o.progress).takeWhile fun x => !x.2.2.segs.isEmpty).filterMap fun x => x.2.2.segs.head?.map fun g => (x.1, x.2.1, g)

/-- The elements that have no run yet. -/
def Op.sweepRest (o : Op) : List (Nat × Loc) := (o.sweepElems.filter fun x => x.2.2.segs.isEmpty).map fun x => (x.1, x.2.2)

/-- The key under which a failed answer for an element is kept. -/
def sweepErr (e : Nat) : Nat := 2 ^ 20 + e

/-- Why an element at a peer failed, by its answer: the load's register is not written (R65). -/
def peerTrap (p : Reg) (v : Nat) : TrapReq :=
  { cause := BitVec.ofNat 8 v, step := if v % 256 = 0x31 ∨ v % 256 = 0x38 then 0 else 7, qual := BitVec.ofNat 8 (v / 256), value := p }

/-- The pointer of an element (R22). -/
def Op.elemPtr (o : Op) (e : Nat) : Reg := ((o.sweepElems.find? fun x => x.1 == e).map fun x => x.2.2.ptr).getD 0

/-- The bytes of an element of a load sweep, with what the attempt has corrected. -/
def loadElement (s : State) (o : Op) (e : Nat) (g : Seg) : Except (TrapReq × Chip) (List Byte × Chip) :=
  let part (v : Nat) : List Byte := ((leBytes 32 v).drop (g.va % 32)).take g.len
  match g.peer with
  | some pkg =>
    match o.taken.lookup (sweepErr e), o.taken.lookup e with
    | some v, _ => .error (peerTrap (o.elemPtr e) v.toNat, s.ch)
    | none, some v => .ok (if g.cacheable then part v.toNat else leBytes g.len v.toNat, s.ch)
    | none, none =>
      match s.ch.sector? (quadOfPos o.pos) o.job (some pkg) (g.va / 32) with
      | some v => .ok (part v.toNat, s.ch.fillSector (quadOfPos o.pos) o.job (some pkg) (g.va / 32) g.va v)
      | none => .ok (List.replicate g.len 0, s.ch)
  | none =>
    let gs := (o.check g).consults g.phys g.len
    match s.ch.side.checkRun (o.check g) g.phys g.len with
    | some b => .error (markFault o g b, s.corrected g gs)
    | none =>
      match (if g.size = 0 then (readHome s g).map fun bs => (bs, s.corrected g gs)
          else loadCached s (quadOfPos o.pos) o.job o.scope g) with
      | .error b => .error (badFault g b, s.corrected g gs)
      | .ok r => .ok r

/-- Elements loaded in linear order; the values bound, and where the sweep stops. -/
def loadElements (o : Op) : List (Nat × Pos × Seg) → State → List (Pos × Nat) × Chip × Option (Nat × TrapReq)
  | [], s => ([], s.ch, none)
  | (e, p, g) :: rest, s =>
    match loadElement s o e g with
    | .error (t, c) => ([], c, some (e, t))
    | .ok (bs, c) =>
      let (vs, c2, x) := loadElements o rest { s with ch := c }
      ((p, leNat bs) :: vs, c2, x)

/-- Elements stored in linear order, and where the sweep stops: precisely, or held by the protection of its home (R65, R88). -/
def storeElements (o : Op) (w : Nat) : List (Nat × Pos × Seg) → Run → Run × Option (Nat × Bool × TrapReq)
  | [], r => (r, none)
  | (e, p, g) :: rest, r =>
    let bs := leBytes g.len (getElem_ (o.data.map (·.toNat)) w p)
    match g.peer with
    | some _ => storeElements o w rest { r with sends := r.sends ++ [(g, bs)] }
    | none =>
      let k := o.check g
      match r.s.ch.side.checkRun k g.phys g.len with
      | some b => (r, some (e, true, markFault o g b))
      | none => match writeHome r.s g bs with
        | .error b => (r, some (e, b.cause != 0x11, badFault g b))
        | .ok ws => storeElements o w rest (r.put (r.s.stored (quadOfPos o.pos) k g bs ws) ws g.len)

/-- A change of the last-result entries that a load pushed, each with the register of its group. -/
def Chip.modPushed (c : Chip) (o : Op) (f : Nat → Latch → Latch) : Chip :=
  c.modLatches o.pos fun ls => ls.map fun l => match l.op with
    | some (id, g) => if id = o.id then f g l else l
    | none => l

/-- The registers and the last-result entries of a load sweep take the elements. -/
def Chip.bindSweep (c : Chip) (o : Op) (vs : List (Pos × Nat)) : Chip :=
  let sh := vshapeOf (nth 0 o.vals 0)
  let d := o.val 4
  let fill (g : Nat) (x : BitVec 8192) : BitVec 8192 :=
    BitVec.ofNat 8192 (vs.foldl (fun v e => if e.1.g = g then putField v (elemBit sh.w e.1) sh.w e.2 else v) x.toNat)
  let c1 := if sweepW o.instr then c
    else c.bind o fun σ =>
      { σ with vr := { σ.vr with v := (List.range sh.gs).foldl (fun l g => setNth 0 l (d + g) (fill g (nth 0 l (d + g)))) σ.vr.v } }
  c1.modPushed o fun g l => { l with val := fill g l.val }

/-- A sweep stopped at element e: its position and element are kept, and its last-result entries go (R360). -/
def Chip.stopSweep (c : Chip) (o : Op) (e : Nat) : Chip :=
  (c.bind o fun σ => { σ with vr := { σ.vr with
    part := some (o.at, e), viPos := match sweepIter o.instr with
      | some v => setNth 0 σ.vr.viPos v (o.val 3 + e)
      | none => σ.vr.viPos } }).popLatches o

/-- Elements found one after the other as a sweep reaches them: those of one page, or of on-chip storage, together; a failed check or a
walk that waits counts only at the first. -/
def State.findElements (s : State) (σ : Strand) (o : Op) (store : Bool) : List (Nat × Loc) → Option Seg → List Seg × List Page × Option (Chk Unit)
  | [], _ => ([], [], none)
  | (e, l) :: rest, first =>
    let acc : Access := if store then .store else .load
    let wb := (vshapeOf (nth 0 o.vals 0)).w / 8
    let found : Chk (Seg × List Page) := match o.taken.lookup sweepRec with
      | some rec => s.elementAt σ acc l.ptr 0 ((ptrOff l.ptr : Int) + iterOff rec (o.val 3 + e)) wb
      | none => (s.footprint σ atomicSpaces acc l.ptr 0 (wb - 1) wb []).bind fun f => match f.loc.segs with
        | g :: _ => .ok (g, f.leaves)
        | [] => .bad (ptrFault 0x14 5 l.ptr)
    match found, first with
    | .ok (g, ps), none =>
      let r := s.findElements σ o store rest (some g)
      (g :: r.1, ps ++ r.2.1, none)
    | .ok (g, ps), some g0 =>
      if g.size = g0.size ∧ g.page = g0.page then
        let r := s.findElements σ o store rest first
        (g :: r.1, ps ++ r.2.1, none)
      else ([], [], none)
    | .bad t, none => ([], [], some (.bad t))
    | .hold va, none => ([], [], some (.hold va))
    | .held, none => ([], [], some .held)
    | _, some _ => ([], [], none)

/-- Runs put into the entries that have none, in order. -/
def fillLocs : List Loc → List Seg → List Loc
  | l :: ls, g :: gs => if l.segs.isEmpty then { l with segs := [g] } :: fillLocs ls gs else l :: fillLocs ls (g :: gs)
  | ls, _ => ls

/-- A gather or scatter with elements in the bench: they are made under one tile lock (R35 to R37). -/
def Op.lockedSweep (o : Op) : Bool := (o.taken.lookup sweepRec).isNone && o.locs.any fun l => l.tag == 1

/-- It finds every element before it performs any, up to one that fails (R361; log entry 82). -/
def State.findsFirst (s : State) (σ : Strand) (o : Op) (store : Bool) : Bool :=
  o.lockedSweep && !o.sweepRest.isEmpty && match (s.findElements σ o store o.sweepRest none).2.2 with
    | some (.bad _) => false
    | _ => true

/-- One that meets HOLD gives up the runs it has found, which it finds again when the walk is done. -/
def Chip.forgetElements (c : Chip) (o : Op) : Chip :=
  c.modOp o.id fun x => { x with locs := x.locs.take x.progress ++ (x.locs.drop x.progress).map fun l => { l with segs := [] } }

/-- A sweep whose elements found so far are performed goes on to its next page (R74, R359): a fault stops it there, before any element
of the page; HOLD makes it wait; with the last element found, the V cluster goes on. -/
def advanceSweep (s : State) (σ : Strand) (o : Op) (store : Bool) : Perf :=
  if s.ch.xl.walks.any (fun w => w.pos == σ.pos && w.cl == .v) then .notYet (Eff.quiet s.ch)
  else match s.findElements σ o store o.sweepRest none with
  | (_, _, some (.bad t)) => .fault (Eff.quiet ((s.ch.tablesRead t.via).stopSweep o ((o.sweepRest.head?.map (·.1)).getD 0))) { t with via := [] }
  | (_, _, some (.hold va)) =>
    let c := s.ch.tablesRead (s.pathOf σ.who.job va)
    .notYet (Eff.quiet ((if o.lockedSweep then c.forgetElements o else c).noteWalk σ .v va))
  | (_, _, some .held) => .notYet (Eff.quiet s.ch)
  | (gs, ps, _) =>
    if s.ch.moving gs then .notYet (Eff.quiet s.ch)
    else
      let c := (s.ch.fillTlb σ ps).modOp o.id fun x => { x with locs := fillLocs x.locs gs }
      .notYet (Eff.quiet (if gs.length = o.sweepRest.length then
        c.modStrand σ.pos fun τ => τ.modCl .v fun k => if k.blocked = some o.id then { k with blocked := none } else k
        else c))

/-- Elements are performed: the sweep ends with the last of them. -/
def Chip.passSweep (c : Chip) (o : Op) (n : Nat) : Chip := c.modOp o.id fun x => { x with progress := o.progress + n, status := .issued }

/-- The requests of a load sweep for elements at peers that neither an answer nor the quad cache holds: sent, or noted as failed
where the peer cannot be reached (R64, R65). -/
def sweepFetch (s : State) (o : Op) : Option Chip :=
  let want := o.sweepTodo.filter fun x => match x.2.2.peer with
    | some pkg => (o.taken.lookup x.1).isNone && (o.taken.lookup (sweepErr x.1)).isNone &&
        !(x.2.2.mayHit o.scope && (s.ch.sector? (quadOfPos o.pos) o.job (some pkg) (x.2.2.va / 32)).isSome)
    | none => false
  if want.isEmpty then none
  else if !s.ch.allRoom o (want.map (·.2.2)) then some s.ch
  else some (want.foldl (fun c x =>
    match x.2.2.peer with
    | some pkg =>
      if c.reachable pkg then
        (if x.2.2.cacheable then c.request o (sectorRun x.2.2) (.load 32) x.1 else c.request o x.2.2 (.load x.2.2.len) x.1)
      else c.modOp o.id fun y => { y with taken := (sweepErr x.1, 0x31) :: y.taken }
    | none => c) s.ch)

/-- The elements at hand are performed, and the sweep with the last of them (R359): those of one page, or of an on-chip sweep, in one step in linear
order (log entry 82). -/
def performSweep (s : State) (o : Op) (store : Bool) : Perf :=
  let todo := o.sweepTodo
  let ends := decide (o.progress + todo.length = o.sweepElems.length)
  let whole (c : Chip) : Chip := if store then c else c.modPushed o fun _ l => { l with op := none }
  match s.ch.strand? o.pos with
  | none => .notYet (Eff.quiet s.ch)
  | some σ =>
    if o.status = .sent then .notYet (Eff.quiet s.ch)
    else if todo.isEmpty && ends then .done (Eff.quiet (whole s.ch))
    else if todo.isEmpty || s.findsFirst σ o store then advanceSweep s σ o store
    else if store then
      match storeElements o (vshapeOf (nth 0 o.vals 0)).w todo (Run.over s (todo.map (·.2.2))) with
      | (r, some (e, true, t)) => .fault ((r.stopped s).mapChip fun c => c.stopSweep o e) t
      | (r, some (_, false, t)) => .late (r.stopped s) t
      | (r, none) =>
        if r.sends.isEmpty then
          (if ends then .done { chip := r.s.ch, writes := r.writes } else .notYet { chip := r.s.ch.passSweep o todo.length, writes := r.writes })
        else if !r.s.ch.allReachable (r.sends.map (·.1)) then .late { chip := r.s.ch, writes := r.writes } { cause := 0x31 }
        else if !r.s.ch.allRoom o (r.sends.map (·.1)) then .notYet (Eff.quiet s.ch)
        else .notYet { chip := r.sends.foldl (fun c x => c.request o x.1 (.store x.2) 0) r.s.ch, writes := r.writes }
    else match sweepFetch s o with
      | some c => .notYet (Eff.quiet c)
      | none =>
        match loadElements o todo s with
        | (vs, c, some (e, t)) => .fault (Eff.quiet ((c.bindSweep o vs).stopSweep o e)) t
        | (vs, c, none) =>
          if ends then .done (Eff.quiet (whole (c.bindSweep o vs))) else .notYet (Eff.quiet ((c.bindSweep o vs).passSweep o todo.length))

/-- The answer of a home to a sweep (R65): an element's bytes, or the end of a store. A failed store is held. -/
def answerSweep (s : State) (o : Op) (store : Bool) (part : Nat) (err qual : BitVec 8) (data : List Byte) : Perf :=
  let left := (s.ch.xl.egress.filter fun e => e.op == o.id).length
  if store then
    if err ≠ 0 then .late (Eff.quiet s.ch) { cause := heldCause err, qual := qual }
    else if left ≠ 0 then .notYet (Eff.quiet s.ch)
    else if o.progress + o.sweepTodo.length = o.sweepElems.length then .done (Eff.quiet s.ch)
    else .notYet (Eff.quiet (s.ch.passSweep o o.sweepTodo.length))
  else
    let entry : Nat × BitVec 512 :=
      if err ≠ 0 then (sweepErr part, BitVec.ofNat 512 (err.toNat + 256 * qual.toNat)) else (part, BitVec.ofNat 512 (leNat data))
    let g := ((o.sweepTodo.find? fun x => x.1 == part).map (·.2.2)).getD o.run
    let c := if err = 0 then
        s.ch.keepSector (quadOfPos o.pos) o.job g o.scope (g.va / 32) (BitVec.ofNat 256 (leNat data)) else s.ch
    .notYet (Eff.quiet (c.modOp o.id fun x =>
      { x with taken := entry :: x.taken, status := if left = 0 then .issued else x.status }))

/-! Streams (R362). -/

/-- Rows of a group in order: register and row. -/
def VShape.rowsOf (x : VShape) : List (Nat × Nat) := (List.range x.gs).flatMap fun g => (List.range x.rows).map fun r => (g, r)

/-- Registers with whole rows replaced. -/
def putRows (old : List (BitVec 8192)) (rows : List ((Nat × Nat) × BitVec 512)) : List (BitVec 8192) :=
  (rows.foldl (fun l e => l.set e.1.1 (putField (nth 0 l e.1.1) (512 * e.1.2) 512 e.2.toNat)) (old.map (·.toNat))).map (BitVec.ofNat 8192)

def getRows (sh : VShape) (regs : List (BitVec 8192)) : List (BitVec 512) :=
  sh.rowsOf.map fun e => BitVec.ofNat 512 (bits (nth 0 regs e.1).toNat (512 * e.2) 512)

/-- An operation that keeps the V unit until its last row has moved; it belongs to no stream. -/
def State.queueOp (s : State) (σ : Strand) (o : Op) (then_ : Chip → Chip) : Res :=
  .go (Eff.quiet (then_ ((s.ch.addOp o).modStrand σ.pos fun τ => τ.modCl .v fun k => { k with blocked := some o.id }))) none

def execVpop (d : BitVec 5) (q p : BitVec 3) (s : State) : Host.Outcome State Fault Refusal :=
  vIssue s (fun sh => srcNames d.toNat sh.gs) fun σ sh =>
    let n := sh.rows * sh.gs
    let now := min n 16
    match s.ch.fetchV σ d.toNat sh.gs, σ.binding? q.toNat with
    | .ok _, some b =>
      if p ≠ 0 ∨ b.dir = .output ∨ b.total < b.claimed + n then faulty 0x02
      else
        let x := (List.range' b.claimed now).foldl Binding.wanted b
        match (List.range' b.claimed now).findSome? x.badAt with
        | some t => .trap t
        | none =>
          let got := (List.range' b.claimed now).filterMap x.entry?
          if got.length < now then .stall (if x = b then s.ch else s.ch.modStrand σ.pos fun τ => τ.setBinding q.toNat (some x))
          else
            let rest := { x.claim n with queue := x.queue.filter fun e => !decide (b.claimed ≤ e.1 ∧ e.1 < b.claimed + now) }
            let old := (List.range' d.toNat sh.gs).map fun k => nth 0 σ.vr.v k
            let c := s.ch.modStrand σ.pos fun τ => τ.setBinding q.toNat (some rest)
            if n ≤ 16 then
              let new := putRows old (sh.rowsOf.zip got)
              .go (Eff.quiet ((c.modStrand σ.pos fun τ =>
                (List.range new.length).foldl (fun τ g => τ.setV (d.toNat + g) (nth 0 new g)) τ).pushLatches σ new none)) none
            else
              let o := { s.opOf σ (.vpop d q p) odFresh with
                od := none, claims := [(q.toNat, b.claimed, n)], status := .started, vals := [σ.vr.vsh],
                taken := (List.range now).zip got, dest := (List.range' d.toNat sh.gs).map .v }
              { s with ch := c }.queueOp σ o fun x => x.pushLatches σ old (some o.id)
    | _, _ => faulty 0x02

def execVpush (d : BitVec 5) (q p : BitVec 3) (s : State) : Host.Outcome State Fault Refusal :=
  vIssue s (fun sh => srcNames d.toNat sh.gs) fun σ sh =>
    let n := sh.rows * sh.gs
    match s.ch.fetchV σ d.toNat sh.gs, σ.binding? q.toNat with
    | .ok _, some b =>
      if p ≠ 0 ∨ b.dir = .input ∨ b.total < b.claimed + n then faulty 0x02
      else if b.pos + 16 < b.claimed + min n 16 then .stall s.ch
      else
        let rows := getRows sh ((List.range' d.toNat sh.gs).map fun k => nth 0 σ.vr.v k)
        let es := (List.range' b.claimed n).zip rows
        let c := s.ch.modStrand σ.pos fun τ => τ.setBinding q.toNat (some (b.claim n))
        match c.pushEntries σ.pos q.toNat es with
        | (c1, []) => .go (Eff.quiet c1) none
        | (c1, rest) =>
          let o := { s.opOf σ (.vpush d q p) odFresh with
            od := none, claims := [(q.toNat, b.claimed, n)], status := .started, taken := rest }
          { s with ch := c1 }.queueOp σ o id
    | _, _ => faulty 0x02

/-- An issued `vpop` takes the rest of its entries; an error at one of them is precise, and the entries taken go back (R163, R362). -/
def performVpop (s : State) (o : Op) (d q : Nat) : Perf :=
  let first := (nth (0, 0, 0) o.claims 0).2.1
  match s.ch.claimFault o with
  | some t =>
    let back := o.taken.map fun e => (first + e.1, e.2)
    .fault (Eff.quiet ((s.ch.modBinding o.pos q fun b => { b with queue := back ++ b.queue, claimed := first }).popLatches o)) t
  | none =>
    if o.wants.isSome then .notYet (Eff.quiet s.ch)
    else
      let sh := vshapeOf (nth 0 o.vals 0)
      let rows := sh.rowsOf.zip (o.entries 0)
      let c := s.ch.bind o fun σ =>
        let new := putRows ((List.range' d sh.gs).map fun k => nth 0 σ.vr.v k) rows
        (List.range new.length).foldl (fun τ g => τ.setV (d + g) (nth 0 new g)) σ
      .done (Eff.quiet (c.modPushed o fun g l =>
        { l with val := nth 0 (putRows (List.replicate g 0 ++ [l.val]) (rows.filter fun e => e.1.1 == g)) g, op := none }))

/-- An issued `vpush` fills the places that the scatter unit frees. -/
def performVpush (s : State) (o : Op) (q : Nat) : Perf :=
  match s.ch.pushEntries o.pos q o.taken with
  | (c, []) => .done (Eff.quiet c)
  | (c, rest) => .notYet (Eff.quiet (c.modOp o.id fun x => { x with taken := rest }))

end Sys2Proof.Machine
end

