-- ==== Sys2Proof/Machine/Perform.lean ====
section
/-! DEFINITION. The events of an operation's life: COMMAND_START, OPERATION_PERFORMED, LATE_FAULT and FULL_EMPTY_RELEASE (R40, R94,
R97, R101, R104 to R107, R109, R110). -/

namespace Sys2Proof.Machine

/-- An attempt to perform an operation whose predecessors are performed. -/
def performOp (s : State) (o : Op) : Perf :=
  match engineOf o.instr with
  | some .streamer => performCopy s o
  | some .screen => performCopy s o
  | some .link => performXsend s o
  | some .bucket => performBucket s o
  | some .tile => performTileOp s o
  | some .drain => performDrain s o
  | some .collective => .notYet (Eff.quiet s.ch)
  | none =>
    match cForm o.instr, barForm o.instr, hbarForm o.instr, sweepForm o.instr with
    | some f, _, _, _ => performC s o f
    | none, some f, _, _ => performBar s o f
    | none, none, some (sc, w), _ => performHbar s o sc w
    | none, none, none, some st => performSweep s o st
    | none, none, none, none =>
      match o.instr with
      | .itld .. => performRecord s o
      | .itst .. => performRecord s o
      | .chld .. => performRecord s o
      | .sbind .. => performSbind s o
      | .xwait .. => performLink s o
      | .xgrant .. => performLink s o
      | .xstat .. => performLink s o
      | .viset im _ _ => performViset s o im.toNat
      | .vpop d q _ => performVpop s o d.toNat q.toNat
      | .vpush _ q _ => performVpush s o q.toNat
      | _ => .done (Eff.quiet s.ch)

/-- A qualified bench access (R39). -/
def qualified (i : Instr) : Bool :=
  match cForm i with
  | some (.load _ _ _ q) => q != .plain
  | some (.store _ q) => q != .plain
  | _ => false

/-- The job of an operation is being killed (R404). -/
def Chip.killing (c : Chip) (job : BitVec 64) : Bool :=
  match c.job? job with
  | some j => j.killStep != 0
  | none => false

/-- An operation the strand issued before its handler was entered and that could not complete until then: its state stays with the
device until `resume` (R391, R394). -/
def Chip.suspended (c : Chip) (o : Op) : Bool :=
  match c.strand? o.pos with
  | some σ => σ.privileged && decide (o.id < σ.trap.entry)
  | none => false

/-- An operation that waits as R279 says: a `bar.wait`, the wait of an `hbar` or an arrival that stalls until a phase completes (R131), or a
qualified access on its bit. -/
def Op.awaits (o : Op) : Bool :=
  barForm o.instr == some .wait || (qualified o.instr && o.progress != 0) ||
    (match hbarForm o.instr with
      | some (_, w) => (w && o.progress == 1) || o.progress == 2
      | none => false)

/-- The same of one that has not begun because its predecessors are not performed: it will wait on its bit. -/
def Op.willWait (o : Op) : Bool :=
  o.awaits || match cForm o.instr with
    | some (.load ..) => opWaits true o
    | some (.store ..) => opWaits false o
    | _ => false

/-- The predecessors of an operation that are not performed (R94). -/
def Chip.predsOf (c : Chip) (o : Op) : List Op :=
  c.ops.filter fun p => p.pos == o.pos && p.cl == o.cl && p.id != o.id && match o.od, p.od with
    | some d, some e => (odMask d).testBit (odStream e) && reached (nth 0 o.need (odStream e)) p.seq
    | _, _ => false

/-- A wait that is saved as it stands: the operation waits and its unperformed predecessors are recorded as waiting (R279). -/
def Chip.toRecord (c : Chip) (o : Op) : Bool :=
  (o.status == .issued || o.status == .started)
    && (if c.mayBegin o then o.awaits else o.willWait && (c.predsOf o).all fun p => p.status == .waiting)

/-- Operations that wait are recorded as waiting, in the order of their issue (R41, R279). -/
def Chip.recordWaits (c : Chip) (pos : Nat) : Chip :=
  (c.ops.filter fun o => o.pos == pos).foldl (fun c o =>
    if c.toRecord o then c.modOp o.id fun x => { x with status := .waiting } else c) c

/-! Which operations can still be performed while no word issues on their cores (R144 step 2, R53): each of these is told by the operations
`l` before it that cannot. -/

/-- The gather or scatter unit of a binding operation has work: entries to read ahead or pushed entries to write; or the binding is
released. -/
def Chip.unitWorks (c : Chip) (o : Op) : Bool :=
  o.progress != 0 || (c.strand? o.pos).any fun σ => (List.range 8).any fun q => (σ.binding? q).any fun b =>
    b.op == o.id && match b.dir with
      | .input => b.reads
      | .output => b.skipped b.pos || (b.entry? b.pos).isSome

/-- A token leaves idle and pending: an operation that produces it, or all that a `tkpost` awaits, can be performed. -/
def Chip.tokenComes (c : Chip) (l : List Nat) (o : Op) (k : Nat) : Bool :=
  (c.strand? o.pos).any fun σ =>
    decide (2 ≤ (σ.token k).st.toNat) || (c.ops.any fun p => p.pos == o.pos && p.prod == k && !l.contains p.id)
      || match (σ.token k).cover with
        | some (cl, ss) => c.ops.all fun p => p.pos != o.pos || p.cl != cl || !l.contains p.id
            || !(ss.any fun e => p.od.map odStream == some e.1 && reached e.2 p.seq)
        | none => false

/-- A command that has started gets its entries, or can push its own. -/
def Chip.supplied (c : Chip) (l : List Nat) (o : Op) : Bool :=
  let fed (q : Nat) (now : Binding → Bool) : Bool := match (c.strand? o.pos).bind fun σ => σ.binding? q with
    | some b => now b || !l.contains b.op
    | none => true
  (c.claimFault o).isSome || match o.wants with
    | some (_, q, k) => fed q fun b => ((b.wanted k).entry? k).isSome
    | none => o.claims.zipIdx.all fun e => claimDir o.instr e.2 == .input || e.1.2.2 == 0 || fed e.1.1 fun b => decide (b.queue.length < 16)

/-- An operation stays unperformed by itself: it is held or recorded, it waits on a bit, a token, a barrier, stream entries or the other
participants of a collective, or its strand's trap keeps it from starting (R144 step 2, R391). -/
def Chip.waitsNow (c : Chip) (l : List Nat) (alone : Op → Bool) (o : Op) : Bool :=
  let live := (c.strand? o.pos).any (fun σ => σ.trap.phase == .run || σ.trap.phase == .saving) && !c.killing o.job
  o.status == .held || o.status == .waiting || o.awaits || c.suspended o || (o.status != .sent &&
    ((match o.instr with
      | .sbind .. => !c.unitWorks o
      | .xsend .. => (c.linkOfOp o).any fun x => !(c.links.any fun y => y.job == x.job && y.link == x.link && y.far == !x.far && y.placed)
      | _ => engineOf o.instr == some .collective && alone o)
    || ((engineOf o.instr).isSome && o.status == .issued && (!live || (o.resolved.isNone && o.waits.any fun k => !c.tokenComes l o k)))
    || (o.status == .started && !o.claims.isEmpty && !c.supplied l o)))

/-- The operations that stay unperformed while others of their quad do not issue: those that wait, those behind them in order, and those
whose unit such a one holds. -/
def Chip.stuckIf (c : Chip) (alone : Op → Bool) : List Nat :=
  c.ops.foldl (fun l o =>
    let behind := (c.predsOf o).any fun p => l.contains p.id
    let shut := (engineOf o.instr).isSome && o.status == .issued && c.ops.any fun x =>
      l.contains x.id && engineOf x.instr == engineOf o.instr && coreOf x.pos == coreOf o.pos && (x.status == .started || x.status == .held)
    if c.waitsNow l alone o || behind || shut then l ++ [o.id] else l) []

/-- A collective is performed when none of its matching commands stays unperformed by itself. -/
def Chip.stuck (c : Chip) : List Nat :=
  let first := c.stuckIf fun o => (c.mates o).isNone
  c.stuckIf fun o => match c.mates o with
    | none => true
    | some ps => ps.any fun p => first.contains p.id

/-- An operation reads or writes tracked memory: by a run of it, by elements still to be found there, or by a stream. -/
def Op.onTracked (o : Op) : Bool :=
  (o.segs.any fun g => g.peer.isNone && tracked g.phys)
    || (o.sweepElems.drop o.progress).any (fun x => x.2.2.segs.isEmpty && (x.2.2.tag == 1 || x.2.2.tag == 2))
    || match o.instr with
      | .sbind .. => true
      | _ => false

/-- Step 2 of R144 is not yet done: an operation on tracked memory of a quad can still be performed. -/
def Chip.rebaseWaits (c : Chip) (quad : Nat) : Bool :=
  c.ops.any fun o => quadOfPos o.pos == quad && o.onTracked && !c.stuck.contains o.id

/-- A rebase in progress whose operations are done takes place (R144 steps 3 and 4). -/
def Chip.finishRebases (c : Chip) : Chip :=
  (c.quads.filter fun q => q.rebase.isSome).foldl (fun c q => if c.rebaseWaits q.id then c else c.rebase q.id) c

/-- A strand that starts or is restored in a slot waits for the rebase of its quad that is due (R142). -/
def Chip.entryWaits (c : Chip) (pos : Nat) : Bool := c.mustRebase pos && c.rebaseWaits (quadOfPos pos)

/-- Whether an operation may make progress, but for the tile lock: commands that have started (R104), other operations with their
predecessors performed (R94), while neither a freeze (R48, R391) nor a column migration nor a trap holds the place. -/
def Chip.mayProgress (c : Chip) (o : Op) : Bool :=
  !c.frozenOut o &&
    (if (engineOf o.instr).isSome then o.status == .started
     else (o.status == .issued || o.status == .started) && c.mayBegin o && !c.suspended o
       && !c.copying (o.locs.flatMap fun l => l.segs))

/-- A tile access of the bench: one instruction's or command's access, by an engine of the core itself, that takes the tile lock
(R35). -/
def Op.tile (o : Op) : Bool :=
  let here (gs : List Seg) : Bool := gs.any fun g => g.peer.isNone && decide (benchAt 0 ≤ g.phys ∧ g.phys < stratumAt 0)
    && ownerCore g.phys == some (coreOf o.pos)
  match o.instr with
  | .itld .. => true
  | .itst .. => true
  | .chld .. => true
  | .viset .. => true
  | i => if engineOf i = some .drain then here ((o.locs.take 1 ++ o.locs.drop 2).flatMap fun l => l.segs)
    else (sweepForm i).isSome && (here (o.sweepTodo.map fun x => x.2.2)
      || (o.lockedSweep && (o.sweepElems.drop o.progress).any fun x => x.2.2.tag == 1 && x.2.2.segs.isEmpty))

/-- The tile accesses of a core take their locks in the order of issue (R36): an operation's comes after every earlier one that can be
made. Each is made whole in one step, so that a lock is never seen held, and an access through another port sees all of it or
nothing (R37; log entry 82). -/
def Chip.tileTurn (c : Chip) (o : Op) : Bool :=
  !o.tile || c.ops.all fun p => decide (o.id ≤ p.id) || coreOf p.pos != coreOf o.pos || !p.tile || !c.mayProgress p

/-- Whether an operation may make progress. -/
def Chip.progresses (c : Chip) (o : Op) : Bool := c.mayProgress o && c.tileTurn o

/-- The turn of the read of a stream entry, a tile access that issues as its unit makes it: no tile access of the core that has issued can be
made. -/
def Chip.entryTurn (c : Chip) (base core : Nat) : Bool :=
  decide (base < benchAt 0 ∨ stratumAt 0 ≤ base) || ownerCore base != some core
    || c.ops.all fun p => coreOf p.pos != core || !p.tile || !c.mayProgress p

/-- STREAM_GATHER_ENTRY (R161): a gather unit whose binding's predecessors are performed reads ahead up to 16 entries, and hands
entries to the commands that wait for them. The read of an entry is a tile access, whose turn comes when no operation of the core
that issued before it can take the tile lock (R35, R36). -/
def execStreamGatherEntry (core slot : Nat) (q : BitVec 3) (s : State) : Host.Outcome State Fault Refusal :=
  let pos := 4 * core + slot
  match s.ch.strand? pos with
  | none => .next s
  | some σ => match σ.binding? q.toNat with
    | none => .next s
    | some b => match s.ch.op? b.op, s.ch.streamBase σ (iterBase b.iter) with
      | some o, some base =>
        if b.dir = .input ∧ s.ch.mayBegin o ∧ s.ch.coreMoves pos ∧ !s.ch.segFrozen (streamSeg base 0 1) ∧ b.reads ∧ s.ch.entryTurn base core then
          let (b2, c0) := if b.expands then gatherPacked s o base b else gatherPlain s o base b
          let c := c0.serveRuns false pos .g (if b.skipped b.pos && !b.expands then [] else b.nextRuns base)
          .next { s with ch := Chip.deliver deliverFuel (c.modStrand pos fun τ => τ.setBinding q.toNat (some b2)) pos }
        else .next s
      | _, _ => .next s

/-- The bench banks that an operation's accesses were made in have served its port (R34). -/
def Chip.serveBanks (c : Chip) (o : Op) : Chip :=
  c.serveRuns (engineOf o.instr == some .streamer || engineOf o.instr == some .screen) o.pos o.cl o.segs

/-- Commands leave the spill ring as one ends (R147), and the bucket file may be released (R325). -/
def State.afterCancel (s : State) (o : Op) : State := { s with ch := (s.ch.drainRing (quadOfPos o.pos)).releaseBucket o.pos }

/-- What follows an operation's end: its banks have served its port, commands leave the spill ring (R147), and the bucket file may be
released (R325). -/
def State.afterEnd (s : State) (o : Op) : State :=
  let c := if (s.ch.op? o.id).isSome then s.ch else s.ch.serveBanks o
  ({ s with ch := c } : State).afterCancel o

/-- The uncorrectable sectors an attempt met are counted (R424). -/
def State.countErrors (s : State) (o : Op) (r : Perf) : State :=
  let bad := match r with
    | .failed _ cause => cause == 0x38
    | .late _ t => t.cause == 0x38
    | .fault _ t => t.cause == 0x38
    | _ => false
  if bad then { s with ch := s.ch.countBad ((o.locs.flatMap fun l => l.segs).map fun g => (g.phys, g.len)) } else s

/-- The runs of the access that met a word with an uncorrectable error: of an engine's command the piece with the word (log entry 39), of
any other operation all its runs. -/
def Op.badAccess (o : Op) (s : State) : List Seg :=
  let pieces := if (engineOf o.instr).isSome then o.segs.flatMap Seg.pieces else o.segs
  let bad := pieces.filter fun g => g.peer.isNone &&
    ((g.reads s.mem).any (fun r => (s.ch.side.uncorrectable r.1 r.2).isSome) || (s.ch.side.markBad ((o.check g).consults g.phys g.len)).isSome)
  if (engineOf o.instr).isSome then bad.take 1 else if bad.isEmpty then [] else pieces.filter fun g => g.peer.isNone

/-- What an access that meets an uncorrectable error also meets and can be corrected is corrected first, and the error reported after the
freeze (R51). -/
def State.correctsFirst (s : State) (o : Op) (r : Perf) : Perf :=
  let bad := match r with
    | .failed _ cause => cause == 0x38
    | .late _ t => t.cause == 0x38
    | .fault _ t => t.cause == 0x38
    | _ => false
  let gs := if bad then o.badAccess s else []
  let marks := gs.flatMap fun g => (o.check g).consults g.phys g.len
  let runs := gs.flatMap fun g => g.reads s.mem
  if (s.ch.side.correctable runs marks).isEmpty && !gs.any s.ch.freezeDue then r else .notYet (Eff.quiet (s.ch.correct runs marks))

/-- COMMAND_START (R109, R110): a command whose waited tokens are done starts when its unit is free, with their vectors joined to its own
(R138); one with a token in error ends in error without moving a byte. -/
def execCommandStart (op : Nat) (s : State) : Host.Outcome State Fault Refusal :=
  match s.ch.op? op with
  | none => .next s
  | some o =>
    match (if (engineOf o.instr).isNone then none else s.ch.settled o), s.ch.strand? o.pos with
    | some (some cause), some _ => .next ((s.settle o (.failed (Eff.quiet (s.ch.dropClaims o)) cause)).afterCancel o)
    | some none, some σ =>
      if !s.ch.unitFree o || s.ch.barred o then .next s
      else
        let own := agentOf o.pos o.cl
        let joined := o.waits.foldl (fun v k => vjoin v (σ.token k).vec) o.vec
        let v := if o.waits.isEmpty then o.vec else vput joined own (vget o.vec own)
        let c1 := (s.ch.chargeCopy o).modOp o.id fun x => { x with status := .started, vec := v }
        let c2 := if o.prod = 0 ∨ o.waits.isEmpty then c1
          else c1.modStrand o.pos fun τ => τ.setToken o.prod { τ.token o.prod with vec := vjoin (τ.token o.prod).vec v }
        let c3 := match o.bar with
          | some b => if o.waits.isEmpty then c2 else c2.barRelease b.phys v
          | none => c2
        .next { s with ch := Chip.deliver deliverFuel c3 o.pos }
    | _, _ => .next s

/-- The core of an operation. -/
def Chip.coreOfOp (c : Chip) (op : Nat) : Nat := ((c.op? op).map fun o => coreOf o.pos).getD 0

/-- OPERATION_PERFORMED (R97, R101): an attempt to perform the operation; a late fault is LATE_FAULT's, and an access that waits on
a full/empty bit is FULL_EMPTY_RELEASE's. -/
def execOperationPerformed (op : Nat) (s : State) : Host.Outcome State Fault Refusal :=
  s.inCycle (s.ch.coreOfOp op) fun s => match s.ch.op? op with
  | none => .next s
  | some o =>
    if !s.ch.progresses o || (qualified o.instr && o.progress != 0) then .next s
    else if engineOf o.instr = some .collective then .next ((performCollective s o).afterEnd o)
    else match s.correctsFirst o (performOp s o) with
      | .late _ _ => .next s
      | r => .next (((s.settle o r).countErrors o r).afterEnd o)

/-- LATE_FAULT (R106): the command's progress ends in a late fault; it is held and takes a scoreboard entry (R397). -/
def execLateFault (op : Nat) (s : State) : Host.Outcome State Fault Refusal :=
  s.inCycle (s.ch.coreOfOp op) fun s => match s.ch.op? op with
  | none => .next s
  | some o =>
    if !s.ch.progresses o || engineOf o.instr == some .collective then .next s
    else match s.correctsFirst o (performOp s o) with
      | .late e t => .next ((s.settle o (.late e t)).countErrors o (.late e t))
      | _ => .next s

/-- FULL_EMPTY_RELEASE (R39 to R41): a waiting qualified access whose bit has come to what it waits for is released. -/
def execFullEmptyRelease (op : Nat) (s : State) : Host.Outcome State Fault Refusal :=
  match s.ch.op? op with
  | none => .next s
  | some o =>
    if !s.ch.progresses o || !qualified o.instr || o.progress == 0 then .next s
    else match s.correctsFirst o (performOp s o) with
      | .late _ _ => .next s
      | r => .next (((s.settle o r).countErrors o r).afterEnd o)

end Sys2Proof.Machine
end

