-- ==== Sys2Proof/Machine/Device.lean ====
section
/-! DEFINITION. What the dispatch engine, the curators and the host ports share: reads and writes of global memory through a set of
page tables, clearing of storage, ownership, and the completion of work-queue entries (R366 to R368, R371, R378, R383, R384, R387,
R410). -/

namespace Sys2Proof.Machine

/-! Storage. -/

/-- A range reads zero: its cells leave memory. -/
def memClear (m : List Host.Cell) (a n : Nat) : List Host.Cell := m.filter fun c => !decide (a ≤ c.1 ∧ c.1 < a + n)

/-- The cells of a range stand at another place, where they replace what stood there. -/
def memMove (m : List Host.Cell) (a b n : Nat) : List Host.Cell :=
  let moved := (m.filter fun c => decide (a ≤ c.1 ∧ c.1 < a + n)).map fun c => (c.1 - a + b, c.2)
  let rest := memClear (memClear m a n) b n
  rest.filter (fun c => decide (c.1 < b)) ++ moved ++ rest.filter fun c => decide (b + n ≤ c.1)

/-- The cells of a range by their offset in it. -/
def memCells (m : List Host.Cell) (a n : Nat) : List Host.Cell :=
  (m.filter fun c => decide (a ≤ c.1 ∧ c.1 < a + n)).map fun c => (c.1 - a, c.2)

/-- A range takes kept cells. -/
def memRestore (m : List Host.Cell) (a n : Nat) (cells : List Host.Cell) : List Host.Cell :=
  memWriteAll (memClear m a n) ((cells.filter fun c => decide (c.1 < n)).map fun c => (a + c.1, [c.2]))

/-- A range zeroed as an allocation zeroes it: no granule full, no race mark, valid check bits (R46). -/
def State.zero (s : State) (a n : Nat) : State :=
  let d := s.ch.side
  let inside (x w : Nat) : Bool := decide (a ≤ x * w ∧ x * w < a + n)
  let side : Side := { d with full := d.full.filter (fun g => !inside g 16), marks := d.marks.filter (fun m => !inside m.granule 64),
                              faulty := (d.rewritten a n).faulty.filter fun f => !decide (markWord (a / 64) ≤ f.1 ∧ f.1 < markWord ((a + n) / 64)) }
  { mem := memClear s.mem a n, ch := { s.ch with side := if n = 0 then d else side } }

def State.emit (s : State) (os : List Output) : State := { s with ch := { s.ch with out := s.ch.out ++ os } }

/-! Global memory through tables rooted at `root`. -/

/-- The runs of a range, page by page; the fuel bounds the pages. -/
def devPages (d : Side) (mem : List Host.Cell) (root : Nat) (acc : Access) : Nat → Nat → Nat → Chk (List Seg)
  | 0, _, _ => .ok []
  | fuel + 1, va, len =>
    if len = 0 then .ok []
    else
      ((walkFrom d mem va 3 root).bind fun p => leafPerm acc p va).bind fun pg =>
        let n := min len (pg.page + pg.size - va)
        let peer := leafPeer pg.leaf
        let seg : Seg :=
          { phys := if peer = 0xFFF then leafFrame pg.leaf + (va - pg.page) else 0, len := n, va := va,
            peer := if peer = 0xFFF then none else some peer, mode := leafMode pg.leaf, cmp := leafCmp pg.leaf && peer == 0xFFF,
            page := pg.page, size := pg.size }
        (devPages d mem root acc fuel (va + n) (len - n)).bind fun r => .ok (seg :: r)

def devSegs (d : Side) (mem : List Host.Cell) (root : Nat) (acc : Access) (va len : Nat) : Chk (List Seg) :=
  if 2 ^ 56 < va + len then .bad { cause := 0x10 } else devPages d mem root acc (len / 65536 + 2) va len

/-- The bytes of runs; those at another package are what that package holds (log entry 31). -/
def readRuns (s : State) : List Seg → Chk (List Byte)
  | [] => .ok []
  | g :: gs =>
    let here : Chk (List Byte) := match g.peer with
      | some pkg =>
        if s.ch.reachable pkg then .ok ((List.range g.len).map fun i => Config.remoteByte s.ch.cycle pkg (g.va + i))
        else .bad { cause := 0x31 }
      | none => match readHome s g with
        | .error b => .bad { cause := b.cause }
        | .ok bs => .ok bs
    here.bind fun bs => (readRuns s gs).bind fun r => .ok (bs ++ r)

def State.devRead (s : State) (root va len : Nat) : Chk (List Byte) :=
  (devSegs s.ch.side s.mem root .load va len).bind (readRuns s)

/-- A range has been read through tables: what can be corrected in the tables and in the range is corrected, and an uncorrectable sector
counts (R58, R424). -/
def State.seen (s : State) (acc : Access) (root va len : Nat) : State :=
  let starts := ((List.range (len / 65536 + 2)).map fun k => if k = 0 then va else (va / 65536 + k) * 65536).filter fun a => decide (a < va + len)
  let tables := (starts.flatMap fun a => walkPath s.mem a 3 root).map fun a => (a, 8)
  let runs := match acc, devSegs s.ch.side s.mem root acc va len with
    | .load, .ok gs => (gs.filter fun g => g.peer.isNone).flatMap fun g => g.reads s.mem
    | _, _ => []
  { s with ch := (s.ch.correct (tables ++ runs) []).countBad (tables ++ runs) }

/-- The pod job of the requests of the aperture: that of a job on the aperture's address space; none where no job runs on it (log entry 31). -/
def Chip.aperturePod (c : Chip) : BitVec 32 := ((c.jobs.find? fun j => j.asr == c.plat.apasr.toNat).map Job.pod).getD 0

/-- A request of the device itself leaves for a peer; one of an access through the aperture (`by_`) waits for its answer, which is for `part` of
the access (R65, R411). -/
def Chip.devRequest (c : Chip) (by_ : Option Nat) (pkg : BitVec 12) (va part : Nat) (kind : PeerKind) : Chip :=
  let pod := if by_.isSome then c.aperturePod else 0
  let req : PeerReq := { pkg := c.plat.pkgNum.getD 0, pod := pod, va := BitVec.ofNat 56 va, scope := 4, kind := kind }
  let c1 := c.sendPacket pkg req none
  match by_ with
  | none => c1
  | some id =>
    let e : Egress := { op := id, job := BitVec.allOnes 64, quad := 0, pkg := pkg, req := req, part := part, answered := false }
    { c1 with xl := { c1.xl with egress := c1.xl.egress ++ [e] } }

/-- Bytes sent to a peer home, 64 at most in a request (R65). -/
def Chip.sendBytes (c : Chip) (by_ : Option Nat) (pkg : BitVec 12) (va : Nat) (bs : List Byte) : Chip :=
  (partsOf (bs.length + 1) va bs.length).foldl (fun c p => c.devRequest by_ pkg p.1 0 (.store ((bs.drop (p.1 - va)).take p.2))) c

/-- Bytes written through the tables; false when a page does not let them be written. -/
def writeRuns (by_ : Option Nat) : List Seg → List Byte → State → State × Bool
  | [], _, s => (s, true)
  | g :: gs, bs, s =>
    match g.peer with
    | some pkg =>
      if s.ch.reachable pkg then writeRuns by_ gs (bs.drop g.len) { s with ch := s.ch.sendBytes by_ pkg g.va (bs.take g.len) } else (s, false)
    | none => match writeHome s g (bs.take g.len) with
      | .error _ => (s, false)
      | .ok ws =>
        writeRuns by_ gs (bs.drop g.len) (s.commit { chip := s.cleaned g ws [], writes := ws })

def State.devWrite (s : State) (root va : Nat) (bs : List Byte) : Chk State :=
  (devSegs s.ch.side s.mem root .store va bs.length).bind fun gs =>
    match writeRuns none gs bs (s.seen .store root va bs.length) with
    | (s1, true) => .ok s1
    | (_, false) => .bad { cause := 0x38 }

/-! Ownership (R410). -/

/-- A write of a port is performed: the port owns the package. -/
def Chip.owns (c : Chip) (port : BitVec 3) : Bool := c.plat.ownValid && c.plat.owner == port.toNat

/-- A dropped write is counted, saturating (R458). -/
def Chip.dropWrite (c : Chip) : Chip := { c with plat := { c.plat with dropped := min (c.plat.dropped + 1) (2 ^ 64 - 1) } }

/-- BAR0 and the queues answer: with power, not in recovery, and not during a lease reset (R418, R422). -/
def Chip.served (c : Chip) : Bool := c.plat.powered && !c.plat.recovery && !c.plat.leaseOpen

/-- The curators run: the device has a verified image running, or is killing the jobs before it stops (R417, R418, R422). -/
def Platform.curators (p : Platform) : Bool := p.powered && (p.run || p.pending != 0)

/-- A port whose BARs are open: a host port with its link up (R408, R409). -/
def Chip.hostPort (c : Chip) (port : BitVec 3) : Bool :=
  decide (port.toNat < 6) && nth 0 c.plat.ports port.toNat == 0 && nth false c.plat.links port.toNat

/-- A port's writes take effect: it owns the package, or no port does (R410). -/
def Chip.mayWrite (c : Chip) (port : BitVec 3) : Bool := !c.plat.ownValid || c.owns port

/-- A write of a host port: while a port owns the package, those of the others are dropped and counted. -/
def State.hostWrite (s : State) (port : BitVec 3) (f : State → State) : Host.Outcome State Fault Refusal :=
  if !s.ch.served || !s.ch.hostPort port then .next s
  else if s.ch.mayWrite port then .next (f s)
  else .next { s with ch := s.ch.dropWrite }

/-! Work queues. -/

/-- A completion counter (R384). -/
def Chip.counter (c : Chip) (n : Nat) : Nat := (c.counters.lookup n).getD 0

def Chip.bumpCounter (c : Chip) (n : Nat) : Chip :=
  if n = 0 then c else { c with counters := putKey n ((c.counter n + 1) % 2 ^ 64) c.counters }

/-- What completes: the entry, what its header asks for, and its record (R378). -/
structure Done where
  q : Nat
  ticket : Nat
  root : Option Nat
  job : Nat
  status : Nat
  errTok : Nat
  errBar : Nat
  sigctr : Nat
  irq : Bool

/-- The completion record of R378. -/
def recordBytes (d : Done) (state : Nat) : List Byte :=
  leBytes 8 d.job ++ leBytes 1 d.status ++ leBytes 1 state ++ leBytes 2 (min d.errTok 0xFFFF) ++ leBytes 2 (min d.errBar 0xFFFF)
    ++ leBytes 2 0

/-- The place of a record. -/
def Queue.recordAt (x : Queue) (ticket : Nat) : Nat := x.cpl + 16 * (ticket % x.size)

/-- The place of a record stands on a page that is being moved: the completion waits (R81). -/
def State.recordHeld (s : State) (q ticket : Nat) (root : Option Nat) : Bool :=
  match root with
  | none => false
  | some r => match devSegs s.ch.side s.mem r .store ((s.ch.queue q).recordAt ticket) 16 with
    | .hold _ | .held => true
    | _ => false

/-- An entry completes (R383): the record, at the place that the descriptor as it stands gives (log entry 101); the counter; and the interrupt, on the
owner port when there is one (R407). A record whose place cannot be written is lost, and the queue stops after the entry (R387). -/
def State.complete (s : State) (d : Done) : State :=
  let x := s.ch.queue d.q
  let close (c : Chip) : Chip := c.modQueue d.q fun y => { y with open_ := y.open_.filter fun t => t != d.ticket, doneN := y.doneN + 1 }
  let lost (c : Chip) : Chip := c.modQueue d.q fun y => { y with err := true, stop := 2 }
  let s1 : State := match d.root with
    | none => { s with ch := lost s.ch }
    | some r => match s.devWrite r (x.recordAt d.ticket) (recordBytes d 1) with
      | .ok t => t
      | _ => { s with ch := lost s.ch }
  let c2 := (close s1.ch).bumpCounter d.sigctr
  { s1 with ch := if d.irq && c2.plat.ownValid then { c2 with out := c2.out ++ [.irq (some c2.plat.owner) (1 + d.q % 2047)] } else c2 }

end Sys2Proof.Machine
end

