-- ==== Sys2Proof/Machine/Queues.lean ====
section
/-! DEFINITION. Work queues: the host's writes (R366, R367, R387), the taking of entries (R195, R196, R368 to R372), and the entries
ALLOC, FREE, INVAL and SIGNAL (R76 to R79, R369). -/

namespace Sys2Proof.Machine

/-! Writes of the host. -/

/-- The fields of a descriptor that is to be enabled are sound (R366). -/
def descOk (d : List Byte) : Bool :=
  let ctl := field d 20 1
  let size := field d 16 4
  let asr := field d 8 8
  bits ctl 4 4 == 0 && field d 21 3 == 0 && field d 40 24 == 0 && (List.range 11).any (fun k => size == 64 * 2 ^ k)
    && decide (field d 0 8 % 64 = 0 ∧ field d 24 8 % 16 = 0 ∧ asr % 64 = 0) && dpaOk asr
    && (if ctl.testBit 1 then field d 32 8 % 64 == 0 else field d 32 8 == 0)

/-- QUEUE_DESCRIPTOR_WRITE (R366): while ENABLE is 1 only bits 3 to 0 of byte 20 take writes (R8); setting ENABLE is refused, with the error bit,
where a field is unsound, a reserved one that has been written among them (log entry 96). -/
def execQueueDescriptorWrite (port : BitVec 3) (q off : Nat) (data : List Byte) (s : State) : Host.Outcome State Fault Refusal :=
  s.hostWrite port fun s =>
    if 32768 ≤ q ∨ 64 < off + data.length then s
    else
      let x := s.ch.queue q
      let put (k : Nat) (old : Byte) : Byte :=
        let v := nth 0 data (k - off)
        if off ≤ k ∧ k < off + data.length ∧ (!x.enabled ∨ k = 20) then (if x.enabled then BitVec.ofNat 8 (old.toNat / 16 * 16 + v.toNat % 16) else v)
        else old
      let d := (List.range 64).map fun k => put k (nth 0 x.desc k)
      let sets := !x.enabled && (field d 20 1).testBit 0
      if sets && !descOk d then
        let off_ := d.set 20 (BitVec.ofNat 8 (field d 20 1 - 1))
        { s with ch := s.ch.modQueue q fun y => { y with desc := off_, err := true } }
      else { s with ch := s.ch.modQueue q fun y => { y with desc := d } }

/-- QUEUE_TAIL_WRITE (R367): a tail that moves backwards or too far is ignored, with the error bit; a device-fed queue ignores it. -/
def execQueueTailWrite (port : BitVec 3) (q : Nat) (tail : BitVec 64) (s : State) : Host.Outcome State Fault Refusal :=
  s.hostWrite port fun s =>
    let x := s.ch.queue q
    if 32768 ≤ q ∨ x.devsub then s
    else if tail.toNat < x.tail ∨ x.takenN + x.size < tail.toNat then { s with ch := s.ch.modQueue q fun y => { y with err := true } }
    else { s with ch := s.ch.modQueue q fun y => { y with tail := tail.toNat } }

/-- QUEUE_ERROR_CLEAR (R387): the error bit clears, and a stopped queue goes on. -/
def execQueueErrorClear (port : BitVec 3) (q : Nat) (s : State) : Host.Outcome State Fault Refusal :=
  s.hostWrite port fun s => if 32768 ≤ q then s else { s with ch := s.ch.modQueue q fun y => { y with err := false, stop := 0 } }

/-! Answers of peers. -/

/-- The operation waits for its core: a frozen core takes no answer (R117, R391). -/
def Chip.answerHeld (c : Chip) (op : Nat) : Bool := (c.op? op).any fun o => !c.coreMoves o.pos

/-! Entries. -/

/-- What dispatch finds at a queue: nothing to take, an entry or a control record it cannot read, or an entry with the root of the
queue's tables and whether the address-space record is well formed. -/
inductive Peek where
  | none
  | stop
  | entry (root : Option Nat) (ok : Bool) (bytes : List Byte)

/-- The ring entry of a ticket. SIZE is the descriptor's, also where the control record holds another (log entry 84). -/
def Queue.entryAt (x : Queue) (ticket : Nat) : Nat := x.ring + 64 * (ticket % x.size)

/-- The next entry of a queue, ORD left aside (R195, R366, R367, R387). Where the record's level-0 address cannot be used the ring cannot be read, and
the entry is taken unread (log entry 100). -/
def State.peek (s : State) (x : Queue) : Peek :=
  let raw := memNat s.mem x.asr 8
  let root : Option Nat := if raw % 4096 = 0 ∧ dpaOk raw then some raw else none
  let ok := (asrRoot s.mem x.asr).isSome
  if !x.enabled || x.stop != 0 || !s.ch.plat.run || !s.ch.served then .none
  else if x.devsub then
    match root with
    | none => .stop
    | some r => match s.devRead r x.ctrl 64, s.devRead r (x.entryAt x.takenN) 64 with
      | .ok _, .ok e => if field e 56 8 = x.takenN + 1 then .entry root ok e else .none
      | .hold _, _ | .held, _ => .none
      | _, .hold _ | _, .held => .none
      | _, _ => .stop
  else if x.tail ≤ x.takenN then .none
  else match root with
    | none => .entry none false []
    | some r => match s.devRead r (x.entryAt x.takenN) 64 with
      | .ok e => .entry root ok e
      | .hold _ | .held => .none
      | .bad _ => .stop

/-- Dispatch has read the next entry of a queue, with the address-space record and the control record (R58, R424). -/
def State.entrySeen (s : State) (x : Queue) : State :=
  let raw := memNat s.mem x.asr 8
  let s1 : State := { s with ch := s.ch.tablesRead (if dpaOk x.asr then (List.range 8).map fun k => x.asr + 8 * k else []) }
  if raw % 4096 = 0 ∧ dpaOk raw then
    (if x.devsub then s1.seen .load raw x.ctrl 64 else s1).seen .load raw (x.entryAt x.takenN) 64
  else s1

/-- KIND of an entry; 0 for a malformed header (R368). -/
def entryKind (e : List Byte) : Nat :=
  let h := field e 0 8
  if 1 ≤ h % 256 ∧ h % 256 ≤ 6 ∧ bits h 10 6 = 0 ∧ bits h 32 32 = 0 then h % 256 else 0

def entryOrd (e : List Byte) : Bool := entryKind e != 0 && (field e 0 8).testBit 8
def entryIrq (e : List Byte) : Bool := entryKind e != 0 && (field e 0 8).testBit 9
def entrySig (e : List Byte) : Nat := if entryKind e = 0 then 0 else bits (field e 0 8) 16 16

/-- Bytes of the body that must be zero (R368, R369, R76); byte 63 to 56 hold STAMP on a device-fed queue (R195). -/
def bodyOk (x : Queue) (e : List Byte) : Bool :=
  let top := if x.devsub then 56 else 64
  match entryKind e with
  | 1 => field e 16 (top - 16) == 0
  | 2 => field e 20 4 == 0 && decide (field e 32 1 < 2) && field e 33 (top - 33) == 0
  | 3 => field e 24 (top - 24) == 0
  | 4 => field e 26 (top - 26) == 0
  | 5 => field e 24 (top - 24) == 0
  | 6 => field e 8 (top - 8) == 0
  | _ => true

/-- The units of a job on each die (R377). -/
def shareOf (nunits gsize klass dies : Nat) : List (Nat × Nat × Nat) :=
  let eligible (d : Nat) : Bool := (dies == 0 || dies.testBit d) && (match klass with
    | 1 => decide (4 ≤ d)
    | 2 => decide (d < 4)
    | _ => true)
  let es := (List.range 8).filter eligible
  let w (d : Nat) : Nat := 4 * Config.quadsOf d
  let total := (es.map w).sum
  let g := nunits / gsize
  let base := es.map fun d => (d, g * w d / total, g * w d % total)
  let left := g - (base.map fun x => x.2.1).sum
  let ranked := sortBy (fun a b => decide (b.2.2 < a.2.2) || (a.2.2 == b.2.2 && decide (a.1 ≤ b.1))) base
  let extra := (ranked.take left).map fun x => x.1
  let counts := base.map fun x => (x.1, x.2.1 + if extra.contains x.1 then 1 else 0)
  (counts.foldl (fun (acc : List (Nat × Nat × Nat) × Nat) x => (acc.1 ++ [(x.1, acc.2, x.2)], acc.2 + x.2)) ([], 0)).1

def Job.share (j : Job) (die : Nat) : Nat × Nat := ((shareOf j.nunits j.gsize j.klass j.dies).lookup die).getD (0, 0)

/-- The lowest free index of a die's job table, of the 256 it has (R372, R381). -/
def Chip.freeIndex (c : Chip) (die : Nat) : Option Nat := (List.range 256).find? fun n => !(c.jobs.any fun k => k.slots.contains (die, n))

/-- A curator holds 256 jobs (R372): the launches, and the replays, taken and not complete that have a share on its die, or the launches and the
nodes of replays that stand in its table. -/
def Chip.tableFull (c : Chip) : Bool :=
  let own (j : Job) : Bool := !(c.replays.any fun r => r.jobs.contains j.id)
  (List.range 8).any fun d => (c.freeIndex d).isNone ||
    decide (256 ≤ (c.jobs.filter fun j => own j && decide (0 < (j.share d).2)).length + (c.replays.filter fun r => r.dies.contains d).length)

/-- A job of the queue's address space is being killed: FREE entries wait for its certificate (R404). -/
def Chip.freeHeld (c : Chip) (x : Queue) : Bool := c.jobs.any fun j => j.killStep != 0 && j.asr == x.asr

/-- A queue is ready (R370), and its entry may be taken now: at most one in 64 cycles (R370, R372, R404). -/
def State.queueReady (s : State) (x : Queue) : Bool :=
  match s.peek x with
  | .none => false
  | .stop => true
  | .entry _ _ e => !(entryOrd e && !x.open_.isEmpty)

def State.mayTake (s : State) (x : Queue) : Bool :=
  decide (s.ch.plat.nextTake ≤ s.ch.cycle) && s.queueReady x && (match s.peek x with
    | .entry _ _ e => !((entryKind e == 1 || entryKind e == 3) && s.ch.tableFull) && !(entryKind e == 5 && s.ch.freeHeld x)
    | _ => true)

/-- The effective level of a queue, falling by one for each ms its entry has been ready (R370). -/
def Chip.levelOf (c : Chip) (x : Queue) : Nat := x.prio - (c.cycle - x.since.getD c.cycle) / 3000000

/-- Dispatch serves this queue next: the lowest level, round robin by number within it from the queue the level served last (R370). -/
def State.picks (s : State) (x : Queue) : Bool :=
  let turn (y : Queue) : Nat := (y.q + 32768 - nth 0 s.ch.plat.lastQueue (s.ch.levelOf x) - 1) % 32768
  s.ch.queues.all fun y => y.q == x.q || !s.mayTake y || decide (s.ch.levelOf x < s.ch.levelOf y)
    || (s.ch.levelOf x == s.ch.levelOf y && decide (turn x < turn y))

/-- Since when each queue's next entry has been ready. -/
def State.noteReady (s : State) : Chip :=
  { s.ch with queues := s.ch.queues.map fun x => { x with since := if s.queueReady x then some (x.since.getD s.ch.cycle) else none } }

/-- An entry is taken: it is open, the host's record says so, and a device queue's CONSUMED advances (R195, R371). -/
def State.take (s : State) (x : Queue) (root : Option Nat) : State :=
  let c1 := s.ch.modQueue x.q fun y =>
    { y with takenN := y.takenN + 1, open_ := y.open_ ++ [y.takenN], since := none,
             takers := y.takers.filter fun k => decide (y.takenN + 1 < k.1 + k.2.1) }
  let s1 : State := { s with ch := { c1 with plat := { c1.plat with lastQueue := c1.plat.lastQueue.set (s.ch.levelOf x) x.q, nextTake := s.ch.cycle + 64 } } }
  match root with
  | none => s1
  | some r =>
    let w := if x.devsub then s1.devWrite r (x.ctrl + 8) (leBytes 8 (x.takenN + 1))
      else s1.devWrite r (x.recordAt x.takenN + 9) [0xFF]
    match w with
    | .ok t => t
    | _ => s1

/-- What an entry completes with. -/
def doneOf (x : Queue) (root : Option Nat) (e : List Byte) (job status : Nat) : Done :=
  { q := x.q, ticket := x.takenN, root := root, job := job, status := status, errTok := 0, errBar := 0, sigctr := entrySig e,
    irq := entryIrq e }

/-- Dispatch takes the next entry of a queue when it is of the kind given (0: a malformed header) and the queue is served next
(R368 to R372). A queue whose ring or control record cannot be read stops (R387). An entry taken while the address-space record is
malformed completes with status 0x02 (R366), one with a malformed body with 0x01. `number` says how many JOBIDs the entry
assigns. -/
def takeEvent (s : State) (q kind : Nat) (number : Nat → List Byte → Nat)
    (body : State → Queue → Nat → List Byte → Nat → Option State) : Host.Outcome State Fault Refusal :=
  let x := s.ch.queue q
  match s.peek x with
  | .none => .next s
  | .stop =>
    let u := s.entrySeen x
    if s.picks x then .next { u with ch := u.ch.modQueue q fun y => { y with err := true, stop := 1 } } else .next s
  | .entry root ok e =>
    if entryKind e ≠ kind ∨ !s.mayTake x ∨ !s.picks x ∨ s.recordHeld q x.takenN root then .next s
    else
      let first := x.q * 2 ^ 32 + x.jobs % 2 ^ 32
      let ids := match root with
        | some r => if kind = 0 then 0 else number r e
        | none => 0
      let u := s.entrySeen x
      let s0 : State := { u with ch := u.ch.modQueue q fun y => { y with jobs := y.jobs + ids } }
      let s1 := s0.take x root
      let finish (status : Nat) : State := s1.complete (doneOf x root e (if kind = 1 then first else 0) status)
      match root with
      | none => .next (finish 0x02)
      | some r =>
        if kind = 0 then .next (finish 0x01)
        else if !ok then .next (finish 0x02)
        else if !bodyOk x e then .next (finish 0x01)
        else match body s1 x r e first with
          | some t => .next t
          | none => .next s

/-- MALFORMED_HEADER (R368). -/
def execMalformedHeader (q : Nat) (s : State) : Host.Outcome State Fault Refusal :=
  takeEvent s q 0 (fun _ _ => 0) fun t _ _ _ _ => some t

/-- SIGNAL (R369) only completes. -/
def execSignal (q : Nat) (s : State) : Host.Outcome State Fault Refusal :=
  takeEvent s q 6 (fun _ _ => 0) fun t x r e _ => some (t.complete (doneOf x (some r) e 0 0x00))

/-! Invalidation (R76 to R78). -/

/-- An operation's runs of global memory below a number that lie in the range of an invalidation and are not performed: the number above the
last of them. A sweep has one run for each element, of which `progress` are performed. -/
def Op.usesRange (o : Op) (v : Inval) (below : Nat) : Option Nat :=
  let hit (l : Loc) : Bool := l.segs.any fun g => g.size != 0 && inRange v.va v.pages g.page g.size
  let first := if (sweepForm o.instr).isSome then o.progress else 0
  ((List.range' first (below - first)).reverse.find? fun k => (o.locs.drop k).head?.any hit).map (· + 1)

/-- Step 1 of R77: the TLB entries of the jobs in the range are stale, and the operations that translated there are noted, a sweep with
the elements found so far, and those whose requests into the range wait in the egress queues. -/
def Chip.startInval (c : Chip) (v : Inval) : Chip :=
  let ops := (c.ops.filter fun o => v.jobs.contains o.job && (o.usesRange v o.locs.length).isSome).map fun o =>
    (o.id, (o.usesRange v o.locs.length).getD 0)
  let sent := (c.xl.egress.filter fun e => v.jobs.contains e.job && inRange v.va v.pages e.req.va.toNat 1
    && ops.all fun x => x.1 != e.op).map fun e => (e.op, 0)
  let tlbs := c.xl.tlbs.map fun t =>
    if v.jobs.contains t.job && inRange v.va v.pages t.page t.size then { t with stale := true } else t
  { c with nextId := c.nextId + 1, xl := { c.xl with tlbs := tlbs, invals := c.xl.invals ++ [{ v with id := c.nextId, ops := (ops ++ sent).eraseDups }] } }

/-- INVAL (R76): a start that is not 64 KiB aligned or lies beyond the address space is refused. -/
def execInval (q : Nat) (s : State) : Host.Outcome State Fault Refusal :=
  takeEvent s q 2 (fun _ _ => 0) fun t x r e _ =>
    let va := field e 8 8
    if va % 65536 ≠ 0 ∨ 2 ^ 56 ≤ va then some (t.complete (doneOf x (some r) e 0 0x02))
    else
      let v : Inval := { id := 0, queue := some x.q, ticket := x.takenN, root := some r, jobs := [BitVec.ofNat 64 (field e 24 8)], va := va,
                         pages := field e 16 4, drop := (field e 32 1).testBit 0, ops := [], sigctr := entrySig e, irq := entryIrq e,
                         frames := [] }
      some { t with ch := t.ch.startInval v }

/-- The cache lines an invalidation with DROPLINES drops: those in its range (R77; log entry 32). -/
def Chip.dropRange (c : Chip) (v : Inval) : Chip :=
  let hit (l : Line) : Bool := v.jobs.contains l.job && inRange v.va v.pages (128 * l.va) 128
  { c with xl := { c.xl with lines := c.xl.lines.filter fun l => !hit l } }

/-- Where the map codes of a frame begin (R85). -/
def mapAt (frame : Nat) : Nat := frame / 2 ^ 38 * 2 ^ 38 + Config.mapBase (frame / 2 ^ 38) + frame % 2 ^ 38 / 65536 * 256

/-- The bytes of a page as its frame holds them, and its map when it is compressed. -/
def pageBytes (mem : List Host.Cell) (leaf : BitVec 64) (size : Nat) : List Byte :=
  memBytes mem (leafFrame leaf) size ++ (if leafCmp leaf then memBytes mem (mapAt (leafFrame leaf)) (size / 256) else [])

/-- The copy of a page that migrates leaves its home once the home's invalidation is complete (phase 3 of R83). -/
def State.sendHeld (s : State) (leafAt : Nat) : State :=
  match s.ch.xl.motions.find? fun m => m.asHome && m.phase == 2 && m.leafAt == leafAt with
  | none => s
  | some m =>
    let leaf := BitVec.ofNat 64 (memNat s.mem leafAt 8)
    let frame := leafFrame leaf
    let runs := (frame, m.size) :: if leafCmp leaf then [(mapAt frame, m.size / 256)] else []
    let c := (s.ch.correct runs []).countBad runs
    let sent (x : Motion) : Motion := if x.asHome ∧ x.phase = 2 ∧ x.leafAt = leafAt then { x with phase := 3 } else x
    { s with ch := { c with xl := { c.xl with motions := c.xl.motions.map sent },
                            out := c.out ++ [.page m.pkg m.pod (BitVec.ofNat 56 m.va) leaf (pageBytes s.mem leaf m.size)] } }

/-- An invalidation of the same queue that came before and whose range meets this one's completes first (R78). -/
def Inval.before (w v : Inval) : Bool :=
  let meet := w.pages == 0 || v.pages == 0 || decide (w.va < v.va + 65536 * v.pages ∧ v.va < w.va + 65536 * w.pages)
  v.queue.isSome && w.queue == v.queue && meet

/-- An operation that used a stale entry holds it still, or a request of it is not acknowledged (steps 2 and 3 of R77). A sweep has done so when
the elements found by the invalidation's start are performed, whatever it does elsewhere. -/
def Chip.usesStale (c : Chip) (v : Inval) : Bool := v.ops.any fun n => match c.op? n.1 with
  | some o => (sweepForm o.instr).isNone || (o.usesRange v n.2).isSome
  | none => c.xl.egress.any fun e => e.op == n.1

/-- INVAL_COMPLETE (R77): no operation and no request that used a stale entry remains, and earlier invalidations of overlapping ranges of
the queue are complete; the lines drop, the frames of a FREE are free, and the entry completes. -/
def execInvalComplete (inv : Nat) (s : State) : Host.Outcome State Fault Refusal :=
  match s.ch.xl.invals.find? fun v => v.id == inv with
  | none => .next s
  | some v =>
    let earlier := s.ch.xl.invals.takeWhile fun w => w.id != inv
    let held := match v.queue with
      | some q => s.recordHeld q v.ticket v.root
      | none => false
    if s.ch.usesStale v || held || earlier.any (fun w => w.before v) then .next s
    else
      let c1 := if v.drop then s.ch.dropRange v else s.ch
      let tlbs := c1.xl.tlbs.filter fun t => !(t.stale && v.jobs.contains t.job && inRange v.va v.pages t.page t.size)
      let xl : Xlate := { c1.xl with tlbs := tlbs, invals := c1.xl.invals.filter (fun w => w.id != inv),
                                     frames := c1.xl.frames.filter fun f => !v.frames.contains f }
      let mem := v.frames.foldl (fun m f => memClear m (f * 65536) 65536) s.mem
      let s1 : State := { mem := mem, ch := { c1 with xl := xl } }
      match v.queue with
      | none => .next (s1.sendHeld v.ticket)
      | some q => .next (s1.complete { q := q, ticket := v.ticket, root := v.root, job := 0, status := 0x00, errTok := 0, errBar := 0,
                                       sigctr := v.sigctr, irq := v.irq })

/-! ALLOC and FREE (R79, R369). -/

/-- The address of the level-2 entry of a virtual address; none where a table above it is missing. -/
def levelTwoAt (mem : List Host.Cell) (root va : Nat) : Option Nat :=
  let entry (table level : Nat) : Nat := memNat mem (table + 8 * levelIndex level va) 8
  let next (e level : Nat) : Option Nat :=
    let t := bits e 8 33 * 256
    if e.testBit 0 && !e.testBit 1 && bits e 41 23 == 0 && bits e 2 6 == 0 && dpaOk t && t % tableAlign (level + 1) == 0 then some t else none
  (next (entry root 0) 0).bind fun t1 => (next (entry t1 1) 1).map fun t2 => t2 + 8 * levelIndex 2 va

/-- The lowest frame of 2 MiB of a die that no curator has handed out and that holds only zeros (log entry 33); `taken` are those of
the same allocation. -/
def freeFrame (s : State) (die : Nat) (taken : List Nat) : Option Nat :=
  let n := (curatorBase die - die * 2 ^ 38) / 0x200000
  (List.range n).find? (fun k =>
    let a := die * 2 ^ 38 + k * 0x200000
    !taken.contains a && !(s.ch.xl.frames.any fun f => decide (a ≤ f * 65536 ∧ f * 65536 < a + 0x200000))
      && (memCells s.mem a 0x200000).isEmpty) |>.map fun k => die * 2 ^ 38 + k * 0x200000

/-- The curator sets frames of 2 MiB aside. -/
def Chip.holdFrames (c : Chip) (fs : List Nat) : Chip :=
  { c with xl := { c.xl with frames := (fs.flatMap fun a => List.range' (a / 65536) 32) ++ c.xl.frames } }

/-- Frames are free again, and hold zeros (log entry 33). -/
def State.freeFrames (s : State) (fs : List Nat) : State :=
  let old := fs.flatMap fun a => List.range' (a / 65536) 32
  { mem := fs.foldl (fun m a => memClear m a 0x200000) s.mem,
    ch := { s.ch with side := fs.foldl (fun d a => d.rewritten a 0x200000) s.ch.side,
                      xl := { s.ch.xl with frames := s.ch.xl.frames.filter fun f => !old.contains f } } }

/-- The dies a hint names. -/
def hintDies (hint n : Nat) : List Nat :=
  match hint with
  | 0 => [4, 5, 6, 7]
  | 1 => [0, 1, 2, 3]
  | 2 => [n]
  | _ => List.range 8

/-- Frames for an allocation, one 2 MiB at a time in the order of the hint; where the named die has none, from the lowest die that
has, unnamed dies first. The second component says that a die was substituted. -/
def chooseFrames (s : State) (named : List Nat) : Nat → Nat → List Nat → Bool → Option (List Nat × Bool)
  | 0, _, taken, sub => some (taken.reverse, sub)
  | fuel + 1, i, taken, sub =>
    match freeFrame s (nth 0 named (i % named.length)) taken with
    | some a => chooseFrames s named fuel (i + 1) (a :: taken) sub
    | none =>
      let others := (List.range 8).filter (fun d => !named.contains d) ++ (List.range 8).filter named.contains
      match others.findSome? fun d => freeFrame s d taken with
      | some a => chooseFrames s named fuel (i + 1) (a :: taken) true
      | none => none

/-- ALLOC. -/
def execAlloc (q : Nat) (s : State) : Host.Outcome State Fault Refusal :=
  takeEvent s q 4 (fun _ _ => 0) fun t x r e _ =>
    let va := field e 8 8
    let len := field e 16 8
    let hint := field e 24 1
    let perm := field e 25 1
    let n := len / 0x200000
    let finish (u : State) (status : Nat) : Option State := some (u.complete (doneOf x (some r) e 0 status))
    if va % 0x200000 ≠ 0 ∨ len % 0x200000 ≠ 0 ∨ len = 0 ∨ 2 ^ 56 < va + len ∨ 32 ≤ hint ∨ 16 ≤ perm then finish t 0x02
    else
      let places := (List.range n).map fun k => levelTwoAt t.mem r (va + k * 0x200000)
      if places.any (fun p => match p with
          | none => true
          | some a => (memRead t.mem a).getLsbD 0) then finish t 0x05
      else match chooseFrames t (hintDies (hint % 4) (hint / 4)) n 0 [] false with
        | none => finish t 0x05
        | some (frames, sub) =>
          let leaf (a : Nat) : List Byte :=
            leBytes 8 (3 + 4 * (perm % 8) + a + (if perm.testBit 3 then 2 ^ 49 else 0) + 0xFFF * 2 ^ 52)
          let zeroed := frames.foldl (fun u a => (u.zero a 0x200000).zero (mapAt a) 0x2000) t
          let writes := (places.filterMap id).zip frames |>.map fun w => (w.1, leaf w.2)
          let fs := frames.flatMap fun a => List.range' (a / 65536) 32
          let u := zeroed.commit { chip := { zeroed.ch with xl := { zeroed.ch.xl with frames := fs ++ zeroed.ch.xl.frames } }, writes := writes }
          finish u (if sub then 0x06 else 0x00)

/-- A level-2 entry that ALLOC could have written (R369): a valid leaf, MODE local, PEER 0xFFF, a 2 MiB frame, reserved bits zero. -/
def freeable (e : BitVec 64) : Bool := e.getLsbD 0 && e.getLsbD 1 && leafPeer e == 0xFFF && leafMode e == 0 && leafWf 2 e

/-- FREE: every 2 MiB of the range is mapped by one leaf that ALLOC could have made; the leaves lose V and the range is invalidated for
the jobs of the address space. -/
def execFree (q : Nat) (s : State) : Host.Outcome State Fault Refusal :=
  takeEvent s q 5 (fun _ _ => 0) fun t x r e _ =>
    let va := field e 8 8
    let len := field e 16 8
    let n := len / 0x200000
    let finish (status : Nat) : Option State := some (t.complete (doneOf x (some r) e 0 status))
    if va % 0x200000 ≠ 0 ∨ len % 0x200000 ≠ 0 ∨ len = 0 ∨ 2 ^ 56 < va + len then finish 0x02
    else
      let places := (List.range n).map fun k => levelTwoAt t.mem r (va + k * 0x200000)
      let leafOf (a : Nat) : BitVec 64 := BitVec.ofNat 64 (memNat t.mem a 8)
      if places.any (fun p => match p with
          | none => true
          | some a => !freeable (leafOf a)) then finish 0x05
      else if places.any (fun p => match p with
          | none => false
          | some a => leafHold (leafOf a)) then none
      else
        let as := places.filterMap id
        let u := t.commit { chip := t.ch, writes := as.map fun a => (a, [memRead t.mem a &&& 0xFE]) }
        let v : Inval := { id := 0, queue := some x.q, ticket := x.takenN, root := some r,
                           jobs := (u.ch.jobs.filter fun j => j.root == r).map (·.id), va := va, pages := 32 * n, drop := true, ops := [],
                           sigctr := entrySig e, irq := entryIrq e,
                           frames := as.flatMap fun a => List.range' (leafFrame (leafOf a) / 65536) 32 }
        some { u with ch := u.ch.startInval v }

end Sys2Proof.Machine
end

