-- ==== Sys2Proof/Machine/Fabric.lean ====
section
/-! DEFINITION. The load-store domain: requests at their home and answers at the requester (R65, R66, R84), and delivery contexts
(R404 step 5, R415). -/

namespace Sys2Proof.Machine

/-! The home. -/

/-- How a home answers a request: it waits at a held page, names the page's new home, fails, or performs the access. -/
inductive HomeAns where
  | hold
  | moved (home : BitVec 12)
  | err (cause qual : BitVec 8)
  | ok (data : List Byte) (e : Eff)

/-- The access a request makes (R63). -/
def reqAccess (r : PeerReq) : Access :=
  match r.kind with
  | .load _ => .load
  | .store _ => .store
  | .atomic .. => .atomic

/-- The bytes a request touches. -/
def reqLen (r : PeerReq) : Nat :=
  match r.kind with
  | .load n => n
  | .store bs => bs.length
  | .atomic _ wide _ _ _ => if wide then 8 else 4

/-- The access of a request at a run of local memory (R65, R120 to R122); a ticket it takes is its pod job's here (R195). -/
def homeAccess (s : State) (r : PeerReq) (g : Seg) : HomeAns :=
  match r.kind with
  | .load _ => match readHome s g with
    | .error b => .err b.cause 0
    | .ok bs => .ok bs (Eff.quiet (s.corrected g []))
  | .store bs => match writeHome s g bs with
    | .error b => .err b.cause 0
    | .ok ws => .ok [] { chip := s.cleaned g ws [], writes := ws }
  | .atomic op wide v cmp ret => match readHome s g with
    | .error b => .err b.cause 0
    | .ok old =>
      let c := s.corrected g []
      let data := if ret then old else []
      match atomicNew op.toNat wide (leNat old) v.toNat cmp.toNat with
      | none => .ok data (Eff.quiet c)
      | some new => match writeHome s g (leBytes g.len new) with
        | .error b => .err b.cause 0
        | .ok ws =>
          let job := ((if r.pod = 0 then none else s.ch.jobs.find? fun j => j.pod == r.pod).map Job.id).getD 0
          .ok data { chip := s.noteTickets c g (leNat old) new job, writes := ws }

/-- A request translated with the tables rooted at `root` and performed (R65). -/
def homeAt (s : State) (root : Nat) (r : PeerReq) : HomeAns :=
  let va := r.va.toNat
  match walkFrom s.ch.side s.mem va 3 root with
  | .hold _ | .held => .hold
  | .bad t => .err t.cause t.qual
  | .ok p =>
    if leafPeer p.leaf ≠ 0xFFF then .moved (leafPeer p.leaf)
    else match leafPerm (reqAccess r) p va with
      | .hold _ | .held => .hold
      | .bad t => .err t.cause t.qual
      | .ok p => homeAccess s r
          { phys := leafFrame p.leaf + (va - p.page), len := reqLen r, va := va, peer := none, mode := leafMode p.leaf, cmp := leafCmp p.leaf,
            page := p.page, size := p.size }

/-- A request at this package: the tables of its pod job here; none are those of no pod job. -/
def homeServe (s : State) (r : PeerReq) : HomeAns :=
  match (if r.pod = 0 then none else s.ch.jobs.find? fun j => j.pod == r.pod) with
  | none => .err 0x10 0
  | some j => homeAt s j.root r

/-- What a request has read at its home, the tables of its pod job among it, is corrected, and an uncorrectable sector counts (R58, R424). -/
def State.homeSeen (s : State) (r : PeerReq) : State :=
  match (if r.pod = 0 then none else s.ch.jobs.find? fun j => j.pod == r.pod) with
  | none => s
  | some j => s.seen (match r.kind with
      | .store _ => .store
      | _ => .load) j.root r.va.toNat (reqLen r)

/-- A request performed, or answered in another way, a failure with the home's qualifier; nothing while its page is held. -/
def State.serve (s : State) (r : PeerReq) : Option State :=
  match homeServe s r with
  | .hold => none
  | .moved home => some ((s.homeSeen r).emit [.moved r.pkg home r.va])
  | .err cause qual => some ((s.homeSeen r).emit [.response r.pkg cause [qual]])
  | .ok data e => some (((s.commit e).homeSeen r).emit [.response r.pkg 0 data])

def Chip.modCtx (c : Chip) (id : Nat) (f : Ctx → Ctx) : Chip :=
  { c with plat := { c.plat with ctxs := c.plat.ctxs.map fun x => if x.id == id then f x else x } }

def Chip.ctxById (c : Chip) (id : Nat) : Option Ctx := c.plat.ctxs.find? fun x => x.id == id

/-- The packets of a context performed in the order of their numbers, each acknowledged, as far as they have come and no page is held
(R415). The fuel is the number of packets at hand. -/
def State.drainHome : Nat → State → Nat → State
  | 0, s, _ => s
  | n + 1, s, id =>
    match s.ch.ctxById id with
    | none => s
    | some x => match x.window.find? fun w => w.1 == x.next with
      | none => s
      | some w => match s.serve w.2.1 with
        | none => s
        | some t =>
          let c := t.ch.modCtx id fun y =>
            { y with next := y.next + 1, window := y.window.filter (fun z => z.1 != w.1), ackAt := t.ch.cycle }
          State.drainHome n { t with ch := { c with out := c.out ++ [.ack x.pkg x.epoch x.next] } } id

/-- The open context in which a request is next. -/
def Chip.headCtx (c : Chip) (r : PeerReq) : Option Ctx :=
  c.plat.ctxs.find? fun x => !x.sender && !x.closed && x.pkg == r.pkg && x.pod == r.pod
    && (x.window.find? fun w => w.1 == x.next).any fun w => w.2.1 == r

/-- HOME_REQUEST (R65, R81): a request that has reached this home is performed, in its context's turn; one whose page is held
waits. A package without a number accepts no fabric traffic (R413). -/
def execHomeRequest (req : PeerReq) (s : State) : Host.Outcome State Fault Refusal :=
  if s.ch.plat.pkgNum.isNone then .next s
  else match s.ch.headCtx req with
    | some x => .next (State.drainHome x.window.length s x.id)
    | none =>
      let rest := s.ch.xl.homeWait.filter fun r => r != req
      match s.serve req with
      | none => .next { s with ch := { s.ch with xl := { s.ch.xl with homeWait := rest ++ [req] } } }
      | some t => .next { t with ch := { t.ch with xl := { t.ch.xl with homeWait := rest } } }

/-! Delivery at the home (R415). -/

/-- The epoch of the last context a sender opened at this home, and whether that context is closed. -/
def Chip.lastEpoch (c : Chip) (pkg : BitVec 12) : Nat × Bool :=
  (c.plat.ctxs.filter fun x => !x.sender && x.pkg == pkg).foldl
    (fun b x => if b.1 < x.epoch.toNat then (x.epoch.toNat, x.closed) else b) (0, false)

/-- A packet has been performed in its context. -/
def Ctx.performed (x : Ctx) (seq : BitVec 16) : Bool := reached (x.next - 1) seq

/-- DELIVERY_PACKET: a packet of an open context is kept until its turn, or acknowledged again when it is a duplicate; only a newer
epoch opens a context; any other packet is discarded. -/
def execDeliveryPacket (epoch : BitVec 32) (seq : BitVec 16) (req : PeerReq) (s : State) : Host.Outcome State Fault Refusal :=
  let arrive (s : State) (x : Ctx) : State :=
    if x.performed seq then
      let c := s.ch.modCtx x.id fun y => { y with ackAt := s.ch.cycle }
      { s with ch := { c with out := c.out ++ [.ack x.pkg x.epoch (x.next - 1)] } }
    else
      let c := s.ch.modCtx x.id fun y =>
        if y.window.any (fun w => w.1 == seq) then y else { y with window := y.window ++ [(seq, req, s.ch.cycle, 0)] }
      State.drainHome (x.window.length + 1) { s with ch := c } x.id
  if s.ch.plat.pkgNum.isNone then .next s
  else match s.ch.plat.ctxs.find? fun x => !x.sender && !x.closed && x.pkg == req.pkg && x.pod == req.pod && x.epoch == epoch with
    | some x => .next (arrive s x)
    | none =>
      if epoch.toNat ≤ (s.ch.lastEpoch req.pkg).1 then .next s
      else if 4096 ≤ (s.ch.plat.ctxs.filter fun x => !x.closed).length then .next s
      else
        let x : Ctx := { id := s.ch.nextId, pkg := req.pkg, pod := req.pod, job := none, sender := false, epoch := epoch, next := 1, window := [],
                         ackAt := s.ch.cycle, closing := false, closeAt := 0, closed := false }
        let c := { s.ch with nextId := s.ch.nextId + 1, plat := { s.ch.plat with ctxs := x :: s.ch.plat.ctxs } }
        .next (arrive { s with ch := c } x)

/-- CONTEXT_CLOSE: the home acknowledges a CLOSE once it has performed everything before it, and the context is closed. -/
def execContextClose (pkg : BitVec 12) (pod : BitVec 32) (epoch : BitVec 32) (s : State) : Host.Outcome State Fault Refusal :=
  match s.ch.plat.ctxs.find? fun x => !x.sender && !x.closed && x.pkg == pkg && x.pod == pod && x.epoch == epoch with
  | none => .next s
  | some x =>
    if !x.window.isEmpty then .next s
    else
      let c := s.ch.modCtx x.id fun y => { y with closed := true }
      .next { s with ch := { c with out := c.out ++ [.ack pkg epoch x.next] } }

/-! Answers at the requester. -/

/-- The answer of a home to an operation, for one of its requests (R65). -/
def State.answer (s : State) (o : Op) (part : Nat) (err qual : BitVec 8) (data : List Byte) : State :=
  let r := match cForm o.instr, o.instr, sweepForm o.instr with
    | some f, _, _ => answerC s o f err qual data
    | none, .qdrain .., _ => answerQdrain s o err qual
    | none, _, some store => answerSweep s o store part err qual data
    | none, _, none => if (engineOf o.instr).isSome then answerCommand s o part err data else .done (Eff.quiet s.ch)
  ((s.settle o r).countErrors o r).afterEnd o

/-- A list without its first element that passes. -/
def eraseFirst {α : Type} (p : α → Bool) : List α → List α
  | [] => []
  | x :: xs => if p x then xs else x :: eraseFirst p xs

/-- An access through the aperture is done: a read answers, with all ones where a part of it failed, and a failure sets APERR (R411, R458). -/
def State.endAccess (s : State) (a : HostAccess) : State :=
  let p := s.ch.plat
  let done : Platform := { p with accesses := p.accesses.filter (fun x => x.id != a.id), apstat := if a.failed then p.apstat ||| 1 else p.apstat }
  let s1 : State := { s with ch := { s.ch with plat := done } }
  if a.write then s1 else s1.emit [.data (if a.failed then List.replicate a.bytes.length 0xFF else a.bytes)]

/-- The answer to a request of an access through the aperture: a read's bytes take their place, a failure is kept, and with the last answer the
access is done (R65, R411). -/
def State.answerAccess (s : State) (e : Egress) (err : BitVec 8) (data : List Byte) : State :=
  match s.ch.plat.accesses.find? fun a => a.id == e.op with
  | none => s
  | some a =>
    let got := (List.range (reqLen e.req)).map fun i => nth 0 data i
    let b : HostAccess :=
      { a with failed := a.failed || err != 0,
               bytes := if err = 0 ∧ !a.write then a.bytes.take e.part ++ got ++ a.bytes.drop (e.part + got.length) else a.bytes }
    if s.ch.xl.egress.any fun x => x.op == a.id then
      { s with ch := { s.ch with plat := { s.ch.plat with accesses := s.ch.plat.accesses.map fun x => if x.id = a.id then b else x } } }
    else s.endAccess b

/-- An answered request leaves the egress queue, and its operation, or the access through the aperture, takes the answer. -/
def State.answerEgress (s : State) (p : Egress → Bool) (err qual : BitVec 8) (data : List Byte) : State :=
  match s.ch.xl.egress.find? p with
  | none => s
  | some e =>
    let s1 : State := { s with ch := { s.ch with xl := { s.ch.xl with egress := eraseFirst p s.ch.xl.egress } } }
    match s.ch.op? e.op with
    | none => s1.answerAccess e err data
    | some o => s1.answer o e.part err qual data

/-- What a home answers with: success, or the causes of its walk, of its storage and of the path to it (R65, R243). -/
def homeCause (err : BitVec 8) : Bool := [0x00, 0x10, 0x11, 0x31, 0x38].contains err

/-- PEER_RESPONSE (R65): the oldest request of an operation is answered; the first byte of a failure is its qualifier. An operation
that has ended takes no answer; no home answers with another code; while the operation's core is frozen the answer waits. -/
def execPeerResponse (op : Nat) (err : BitVec 8) (data : List Byte) (s : State) : Host.Outcome State Fault Refusal :=
  if s.ch.answerHeld op || !homeCause err then .next s
  else .next (s.answerEgress (fun e => e.op == op) err (if err = 0 then 0 else data.headD 0) data)

/-! Contexts at the sender (R415). -/

/-- CLOSE leaves once every packet is acknowledged. -/
def Chip.sendClose (c : Chip) (id : Nat) : Chip :=
  match c.ctxById id with
  | none => c
  | some x => if x.closing && !x.closed && x.window.isEmpty then { c with out := c.out ++ [.close x.pkg x.epoch x.pod] } else c

/-- The contexts that a job opened are to be closed at its kill (step 5 of R404). -/
def Chip.closeContexts (c : Chip) (j : Job) : Chip :=
  let mine := c.plat.ctxs.filter fun x => x.sender && !x.closed && x.job == some j.id
  let mark (c : Chip) (x : Ctx) : Chip := (c.modCtx x.id fun y => { y with closing := true, closeAt := c.cycle }).sendClose x.id
  mine.foldl mark c

/-- A context that a kill closes is counted for the job's certificate. -/
def Chip.countClosed (c : Chip) (x : Ctx) : Chip :=
  { c with jobs := c.jobs.map fun j => if x.job == some j.id && j.killStep == 3 then { j with contexts := j.contexts + 1 } else j }

/-- DELIVERY_ACK: cumulative; the acknowledgement of CLOSE, which takes the next number, closes the context. -/
def execDeliveryAck (ctx : Nat) (seq : BitVec 16) (s : State) : Host.Outcome State Fault Refusal :=
  match s.ch.ctxById ctx with
  | none => .next s
  | some x =>
    if !x.sender || x.closed then .next s
    else if x.closing && x.window.isEmpty && seq == x.next then
      .next { s with ch := (s.ch.modCtx ctx fun y => { y with closed := true, ackAt := s.ch.cycle }).countClosed x }
    else
      let c := s.ch.modCtx ctx fun y =>
        { y with window := y.window.filter (fun w => !reached seq w.1), ackAt := s.ch.cycle }
      .next { s with ch := if x.window.isEmpty then c else c.sendClose ctx }

/-- A request of a context that is not acknowledged. -/
def Ctx.awaits (x : Ctx) (e : Egress) : Bool := e.pkg == x.pkg && x.window.any fun w => w.2.1 == e.req

/-- The outstanding requests of a failed context end as those of an unreachable peer. -/
def failRequests (x : Ctx) : Nat → State → State
  | 0, s => s
  | n + 1, s =>
    if s.ch.xl.egress.any x.awaits then failRequests x n (s.answerEgress x.awaits 0x31 0 []) else s

/-- A context that is not closed in order is abandoned, which the certificate of the job that closes it says (R405, R415). -/
def Chip.abandoned (c : Chip) (x : Ctx) : Chip :=
  let lost (j : Job) : Job := if x.closing ∧ x.job = some j.id ∧ j.killStep = 3 then { j with killFlags := j.killFlags ||| 16 } else j
  { c with jobs := c.jobs.map lost }

/-- RETRANSMIT_TIMEOUT: packets sent 2 µs ago and not acknowledged are sent again; where one has been sent again eight times the
context fails, once no core that awaits it is frozen. -/
def execRetransmitTimeout (ctx : Nat) (s : State) : Host.Outcome State Fault Refusal :=
  match s.ch.ctxById ctx with
  | none => .next s
  | some x =>
    let late (w : BitVec 16 × PeerReq × Nat × Nat) : Bool := decide (w.2.2.1 + 6000 ≤ s.ch.cycle)
    if !x.sender || x.closed || !x.window.any late then .next s
    else if x.window.any fun w => late w && decide (8 ≤ w.2.2.2) then
      let c := s.ch.modCtx ctx fun y => { y with closed := true, window := [] }
      if s.ch.xl.egress.any fun e => x.awaits e && s.ch.answerHeld e.op then .next s
      else .next (failRequests x (s.ch.xl.egress.length + 1) { s with ch := c.abandoned x })
    else
      let c := s.ch.modCtx ctx fun y =>
        { y with window := y.window.map fun w => if late w then (w.1, w.2.1, s.ch.cycle, w.2.2.2 + 1) else w }
      let again := (x.window.filter late).map fun w => Output.packet x.pkg x.epoch w.1 s.ch.plat.generation w.2.1
      .next { s with ch := { c with out := c.out ++ again } }

/-- CONTEXT_TEARDOWN: 4 µs after the last acknowledgement, with nothing outstanding, an end closes the context. -/
def execContextTeardown (ctx : Nat) (s : State) : Host.Outcome State Fault Refusal :=
  match s.ch.ctxById ctx with
  | none => .next s
  | some x =>
    if x.closed || x.closing || !x.window.isEmpty || x.next == 1 || decide (s.ch.cycle < x.ackAt + 12000) then .next s
    else .next { s with ch := s.ch.modCtx ctx fun y => { y with closed := true } }

/-- CLOSE_ABANDON: a context not closed within 50 µs at a kill is abandoned, which the certificate says; a request of another job that waits in
it ends as those of a failed context. -/
def execCloseAbandon (ctx : Nat) (s : State) : Host.Outcome State Fault Refusal :=
  match s.ch.ctxById ctx with
  | none => .next s
  | some x =>
    if x.closed || !x.closing || decide (s.ch.cycle < x.closeAt + 150000) then .next s
    else
      let c := s.ch.modCtx ctx fun y => { y with closed := true, window := [] }
      if s.ch.xl.egress.any fun e => x.awaits e && s.ch.answerHeld e.op then .next s
      else .next (failRequests x (s.ch.xl.egress.length + 1) { s with ch := c.abandoned x })

end Sys2Proof.Machine
end

