-- ==== Sys2Proof/Machine/Paging.lean ====
section
/-! DEFINITION. Pages in motion: walks that met HOLD (R74, R81), page moves (R80), migration on count (R82, R83), moved responses (R84). -/

namespace Sys2Proof.Machine

/-! Leaves. -/

/-- The place of the leaf entry of an address and the size of the page it maps; none where a table above it is missing. -/
def leafPlace (mem : List Host.Cell) (root va : Nat) : Option (Nat × Nat) :=
  (levelTwoAt mem root va).bind fun a =>
    let e := memNat mem a 8
    if e.testBit 0 && e.testBit 1 then some (a, 0x200000)
    else if e.testBit 0 then
      let t := bits e 8 33 * 256
      if dpaOk t ∧ bits e 41 23 = 0 ∧ bits e 2 6 = 0 then some (t + 8 * levelIndex 3 va, 0x10000) else none
    else none

def leafOf (mem : List Host.Cell) (a : Nat) : BitVec 64 := BitVec.ofNat 64 (memNat mem a 8)

/-- A valid leaf. -/
def leafValid (l : BitVec 64) (size : Nat) : Bool := l.getLsbD 0 && l.getLsbD 1 && leafWf (if size = 0x200000 then 2 else 3) l

/-- A leaf of given fields (R61). -/
def mkLeaf (peer mode frame : Nat) (cmp : Bool) (perm : Nat) (hold : Bool) : Nat :=
  3 + 4 * perm + cond hold 32 0 + frame + cond cmp (2 ^ 49) 0 + 2 ^ 50 * mode + 2 ^ 52 * peer

/-- The permissions of a leaf, bits 4 to 2. -/
def leafPerms (l : BitVec 64) : Nat := bits l.toNat 2 3

def State.putLeaf (s : State) (a v : Nat) : State := s.commit { chip := s.ch, writes := [(a, leBytes 8 v)] }

/-- The leaf with HOLD set or cleared. -/
def withHold (l : BitVec 64) (hold : Bool) : Nat := (l.toNat &&& (2 ^ 64 - 1 - 32)) + cond hold 32 0

/-- The invalidation of one page that a curator makes for itself; `ticket` keeps the leaf's place. -/
def Chip.invalPage (c : Chip) (root leafAt page size : Nat) (frames : List Nat) : Chip :=
  c.startInval { id := 0, queue := none, ticket := leafAt, root := some root, jobs := (c.jobs.filter fun j => j.root == root).map (·.id),
                 va := page, pages := size / 65536, drop := true, ops := [], sigctr := 0, irq := false, frames := frames }

/-- No invalidation of a curator for a leaf is under way. -/
def Chip.invalDone (c : Chip) (leafAt : Nat) : Bool := c.xl.invals.all fun v => v.queue.isSome || v.ticket != leafAt

def Chip.modMotions (c : Chip) (f : List Motion → List Motion) : Chip :=
  { c with xl := { c.xl with motions := f c.xl.motions } }

/-- The frames of 64 KiB that a page of `size` at `frame` takes. -/
def frameList (frame size : Nat) : List Nat := List.range' (frame / 65536) (size / 65536)

/-! Walks that wait (R81). -/

/-- What the tables of a strand's job hold at an address. -/
def State.rewalk (s : State) (w : Walk) : Chk Page :=
  match s.ch.job? w.job with
  | some j => walkFrom s.ch.side s.mem w.va 3 j.root
  | none => .bad (walkFault 0x10 0 0 w.va)

def isHeld {α : Type} : Chk α → Bool
  | .hold _ | .held => true
  | _ => false

/-- The walk has waited 256 cycles since it last read the entry. -/
def Chip.walkDue (c : Chip) (w : Walk) : Bool := decide (w.since + 256 ≤ c.cycle) || (c.strand? w.pos).isNone

/-- WALK_COMPLETE (R74, R81): the entry is read again without HOLD; the cluster goes on, with the translation or to its fault. -/
def execWalkComplete (walk : Nat) (s : State) : Host.Outcome State Fault Refusal :=
  match s.ch.xl.walks.find? fun w => w.id == walk with
  | none => .next s
  | some w =>
    if !s.ch.walkDue w || isHeld (s.rewalk w) then .next s
    else .next { s with ch := { s.ch with xl := { s.ch.xl with walks := s.ch.xl.walks.filter fun x => x.id != walk } } }

/-- HOLD_RETRY (R63, R81): the entry is read again with HOLD still set, and the walk waits 256 cycles more. -/
def execHoldRetry (walk : Nat) (s : State) : Host.Outcome State Fault Refusal :=
  match s.ch.xl.walks.find? fun w => w.id == walk with
  | none => .next s
  | some w =>
    if !s.ch.walkDue w || !isHeld (s.rewalk w) then .next s
    else
      let wait (x : Walk) : Walk := if x.id = walk then { x with since := s.ch.cycle } else x
      .next { s with ch := { s.ch with xl := { s.ch.xl with walks := s.ch.xl.walks.map wait } } }

/-! Page moves within the package (R80). -/

/-- A curator has read a page and its map: what can be corrected is, and an uncorrectable sector counts (R58, R424). -/
def Chip.pageRead (c : Chip) (frame size : Nat) (cmp : Bool) : Chip :=
  let runs := (frame, size) :: if cmp then [(mapAt frame, size / 256)] else []
  (c.correct runs []).countBad runs

/-- A page's bytes and map go to another frame, words with their errors. -/
def State.copyPage (s0 : State) (src dst size : Nat) (cmp : Bool) : State :=
  let s : State := { s0 with ch := s0.ch.pageRead src size cmp }
  let m1 := memMove s.mem src dst size
  let m2 := if cmp then memMove m1 (mapAt src) (mapAt dst) (size / 256) else m1
  let d := s.ch.side.rewritten dst size
  let go (f : Nat × Bool) : Nat × Bool := if src ≤ f.1 ∧ f.1 < src + size then (f.1 - src + dst, f.2) else f
  { mem := m2, ch := { s.ch with side := { d with faulty := d.faulty.map go } } }

/-- PAGE_MOVE (steps 1 and 2 of R80): a curator holds a valid local page of an address space and invalidates it; a free frame of the
die is set aside. Nothing happens where there is no such page or frame, or a motion of it is under way. -/
def execPageMove (asr : Nat) (va : BitVec 56) (die : Nat) (s : State) : Host.Outcome State Fault Refusal :=
  match (asrRoot s.mem asr).bind fun r => (leafPlace s.mem r va.toNat).map fun p => (r, p) with
  | none => .next s
  | some (root, at_, size) =>
    let l := leafOf s.mem at_
    if !leafValid l size || leafPeer l != 0xFFF || leafHold l || s.ch.xl.motions.any (fun m => m.asHome && m.leafAt == at_) || decide (8 ≤ die)
      || !s.ch.plat.curators
    then .next s
    else match freeFrame s die [] with
      | none => .next s
      | some dst =>
        let page := va.toNat / size * size
        let m : Motion := { asr := asr, job := 0, pod := 0, va := page, size := size, leafAt := at_, dst := dst, phase := 4, asHome := true,
                            pkg := 0xFFF }
        let s1 := s.putLeaf at_ (withHold l true)
        let c := s1.ch.modMotions fun ms => ms ++ [m]
        let c2 := { c with xl := { c.xl with frames := frameList dst size ++ c.xl.frames } }
        .next { s1 with ch := c2.invalPage root at_ page size [] }

/-- PAGE_MOVE_FINISH (steps 3 to 5 of R80): the invalidation is complete; the page is copied, its leaf names the new frame, HOLD clears,
and the old frame is free and holds zeros (log entry 33). -/
def execPageMoveFinish (asr : Nat) (va : BitVec 56) (s : State) : Host.Outcome State Fault Refusal :=
  match s.ch.xl.motions.find? fun m => m.phase == 4 && m.asr == asr && decide (m.va ≤ va.toNat ∧ va.toNat < m.va + m.size) with
  | none => .next s
  | some m =>
    if !s.ch.invalDone m.leafAt || !s.ch.plat.curators then .next s
    else
      let l := leafOf s.mem m.leafAt
      let src := leafFrame l
      let s1 := ((s.copyPage src m.dst m.size (leafCmp l)).zero src m.size).putLeaf m.leafAt
        (mkLeaf 0xFFF (leafMode l) m.dst (leafCmp l) (leafPerms l) false)
      let old := frameList src m.size
      let c := s1.ch.modMotions fun ms => ms.filter fun x => x != m
      .next { s1 with ch := { c with xl := { c.xl with frames := c.xl.frames.filter fun f => !old.contains f } } }

/-! Migration on count (R83). -/

/-- The leaf of an address in the tables of a pod job here: job, place, page size. -/
def State.podLeaf (s : State) (pod : BitVec 32) (va : Nat) : Option (Job × Nat × Nat) :=
  (if pod = 0 then none else s.ch.jobs.find? fun j => j.pod == pod).bind fun j => (leafPlace s.mem j.root va).map fun p => (j, p)

/-- A message between curators. -/
def Chip.tell (c : Chip) (pkg : BitVec 12) (pod : BitVec 32) (what : Nat) (va : BitVec 56) : Chip :=
  { c with out := c.out ++ [.message pkg pod what va] }

/-- The dies of a placement class (R83, R377). -/
def classDies (klass : Nat) : List Nat :=
  match klass with
  | 1 => [4, 5, 6, 7]
  | 2 => [0, 1, 2, 3]
  | _ => List.range 8

/-- Phase 1 of R83: the curator of the job's class sets a zeroed frame aside and asks the home; without a free frame it asks later. -/
def State.askHome (s : State) (m : Motion) : State :=
  match (s.podLeaf m.pod m.va).bind fun (j, _, size) => ((classDies j.klass).findSome? fun d => freeFrame s d []).map fun f => (f, size) with
  | none => s
  | some (dst, size) =>
    let c := s.ch.modMotions fun ms => ms.map fun x => if x = m then { m with phase := 1, dst := dst, size := size } else x
    let s1 := (({ s with ch := c } : State).zero dst size)
    let c1 : Chip := { s1.ch with xl := { s1.ch.xl with frames := frameList dst size ++ s1.ch.xl.frames } }
    { s1 with ch := c1.tell m.pkg m.pod 1 (BitVec.ofNat 56 m.va) }

/-- The migrations whose counter has reached its threshold (R82). -/
def State.askHomes (s : State) : State := if !s.ch.plat.curators then s else (s.ch.xl.motions.filter fun m => !m.asHome && m.phase == 0).foldl State.askHome s

/-- MIGRATE_ASK (phase 2 of R83, at the home): the page is held and invalidated; its copy leaves as the invalidation completes. A page
that is held, that migrates already, or that is not at home here is refused. -/
def execMigrateAsk (pod : BitVec 32) (va : BitVec 56) (pkg : BitVec 12) (s : State) : Host.Outcome State Fault Refusal :=
  let refuse : Host.Outcome State Fault Refusal := .next { s with ch := s.ch.tell pkg pod 2 va }
  if s.ch.plat.pkgNum.isNone || !s.ch.plat.curators then .next s
  else match s.podLeaf pod va.toNat with
    | none => refuse
    | some (j, at_, size) =>
      let l := leafOf s.mem at_
      if !leafValid l size || leafPeer l != 0xFFF || leafHold l || s.ch.xl.motions.any (fun m => m.asHome && m.leafAt == at_) then refuse
      else
        let page := va.toNat / size * size
        let m : Motion := { asr := j.asr, job := j.id, pod := pod, va := page, size := size, leafAt := at_, dst := 0, phase := 2, asHome := true,
                            pkg := pkg }
        let s1 := s.putLeaf at_ (withHold l true)
        .next { s1 with ch := (s1.ch.modMotions fun ms => ms ++ [m]).invalPage j.root at_ page size [] }

/-- MIGRATE_NEW_HOME (phases 3 and 4 of R83, at the requester): the copy takes the frame set aside for it, with its map; the leaf makes this
package the home, with CMP and the permissions of the leaf that came with the copy (log entry 57), the old entry is invalidated, and the old
home is told. A copy that was not asked for takes a free frame of the job's class. Without a frame, or without an entry for the page, the copy
waits. -/
def execMigrateNewHome (pod : BitVec 32) (va : BitVec 56) (leaf : BitVec 64) (data : List Byte) (s : State) :
    Host.Outcome State Fault Refusal :=
  if s.ch.plat.pkgNum.isNone || !s.ch.plat.curators then .next s
  else match s.podLeaf pod va.toNat with
    | none => .next s
    | some (j, at_, size) =>
      let page := va.toNat / size * size
      let own := leafOf s.mem at_
      let asked := s.ch.xl.motions.find? fun m => !m.asHome && m.pod == pod && decide (page ≤ m.va ∧ m.va < page + size)
      if !leafValid own size || leafPeer own == 0xFFF then .next s
      else match (match asked with
          | some m => if m.phase = 1 ∧ m.size = size then some m.dst else (classDies j.klass).findSome? fun d => freeFrame s d []
          | none => (classDies j.klass).findSome? fun d => freeFrame s d []) with
        | none => .next s
        | some dst =>
          let writes := [(dst, data.take size)] ++ (if leafCmp leaf then [(mapAt dst, data.drop size)] else [])
          let s1 := s.commit { chip := { s.ch with side := s.ch.side.rewritten dst size }, writes := writes }
          let s2 := s1.putLeaf at_ (mkLeaf 0xFFF 3 dst (leafCmp leaf) (leafPerms leaf) false)
          let home := (asked.map Motion.pkg).getD (leafPeer own)
          let c1 := s2.ch.modMotions fun ms => ms.filter fun m =>
            m.asHome || m.pod != pod || !decide (page ≤ m.va ∧ m.va < page + size)
          let c2 := { c1 with xl := { c1.xl with frames := frameList dst size ++ c1.xl.frames.filter fun f => !(frameList dst size).contains f } }
          .next { s2 with ch := (c2.invalPage j.root at_ page size []).tell home pod 3 va }

/-- MIGRATE_RELEASE (phase 5 of R83, at the old home): the leaf names the new home, the page is invalidated, and its frame is free when
that completes. -/
def execMigrateRelease (pod : BitVec 32) (va : BitVec 56) (s : State) : Host.Outcome State Fault Refusal :=
  match s.ch.xl.motions.find? fun m => s.ch.plat.curators && m.asHome && m.phase == 3 && m.pod == pod && decide (m.va ≤ va.toNat ∧ va.toNat < m.va + m.size) with
  | none => .next s
  | some m =>
    let l := leafOf s.mem m.leafAt
    let s1 := s.putLeaf m.leafAt (mkLeaf m.pkg.toNat 3 0 (leafCmp l) (leafPerms l) false)
    let root := ((s.ch.job? m.job).map Job.root).getD 0
    let c := s1.ch.modMotions fun ms => ms.filter fun x => x != m
    .next { s1 with ch := c.invalPage root m.leafAt m.va m.size (frameList (leafFrame l) m.size) }

/-- MIGRATION_REFUSED (R83, at the requester): counting goes on from zero, and the frame set aside is free again. -/
def execMigrationRefused (pod : BitVec 32) (va : BitVec 56) (s : State) : Host.Outcome State Fault Refusal :=
  match s.ch.xl.motions.find? fun m => s.ch.plat.curators && !m.asHome && m.pod == pod && m.va / 65536 == va.toNat / 65536 with
  | none => .next s
  | some m =>
    let zero (k : MigCtr) : MigCtr := if k.job = m.job ∧ k.page = m.va / 65536 then { k with count := 0 } else k
    let c := s.ch.modMotions fun ms => ms.filter fun x => x != m
    let old := frameList m.dst (if m.phase = 1 then m.size else 0)
    .next { s with ch := { c with xl := { c.xl with counters := c.xl.counters.map zero, frames := c.xl.frames.filter fun f => !old.contains f } } }

/-! Moved responses (R84). -/

/-- The leaf of a page at another package names a new home, and the page is invalidated. -/
def State.pointLeaf (s : State) (root va : Nat) (home : BitVec 12) : State :=
  match leafPlace s.mem root va with
  | none => s
  | some (at_, size) =>
    let l := leafOf s.mem at_
    if !leafValid l size || leafPeer l == 0xFFF || home == 0xFFF || leafPeer l == home then s
    else
      let s1 := s.putLeaf at_ (mkLeaf home.toNat (leafMode l) 0 (leafCmp l) (leafPerms l) (leafHold l))
      { s1 with ch := s1.ch.invalPage root at_ (va / size * size) size [] }

/-- The mode of the leaf of an address. -/
def State.leafMode? (s : State) (root va : Nat) : Option Nat := (leafPlace s.mem root va).map fun p => leafMode (leafOf s.mem p.1)

/-- The root of the tables that a request was translated with: those of its operation's job, or those of the aperture (R411). -/
def State.requestRoot (s : State) (o : Option Op) : Option Nat :=
  match o with
  | some o => (s.ch.job? o.job).map Job.root
  | none => asrRoot s.mem s.ch.plat.apasr.toNat

/-- MOVED_RESPONSE: the requester's leaf names the new home and the request goes there, counted once more (R82), or is performed here when
this package has become the home; while its own page is held, or no context has room, it waits in the egress queue, and before that
while the core is frozen. -/
def execMovedResponse (op : Nat) (home : BitVec 12) (s : State) : Host.Outcome State Fault Refusal :=
  let mine (e : Egress) : Bool := e.op == op
  match s.ch.xl.egress.find? mine with
  | none => .next s
  | some e =>
    let o := s.ch.op? op
    match (if s.ch.answerHeld op then none else s.requestRoot o) with
    | none => .next s
    | some root =>
      let s1 := if s.ch.plat.pkgNum = some home then s else s.pointLeaf root e.req.va.toNat home
      let keep (c : Chip) (waits : Bool) : Chip :=
        let x : Egress := { e with pkg := home, answered := waits }
        { c with xl := { c.xl with egress := eraseFirst mine c.xl.egress ++ [x] } }
      match homeAt s1 root e.req with
      | .hold => .next { s1 with ch := keep s1.ch true }
      | .ok data ef => .next ((s1.commit ef).answerEgress mine 0 0 data)
      | .err cause qual => .next (s1.answerEgress mine cause qual [])
      | .moved dest =>
        if !s1.ch.reachable dest then .next (s1.answerEgress mine 0x31 0 [])
        else if !s1.ch.ctxRoom dest e.req.pod then .next { s1 with ch := keep s1.ch true }
        else
          let c := (keep s1.ch false).sendPacket dest e.req (o.map Op.job)
          .next { s1 with ch := match o with
            | some o => if s1.leafMode? root e.req.va.toNat = some 3 then c.countRequest o.job e.req.va.toNat dest else c
            | none => c }

end Sys2Proof.Machine
end

