-- ==== Sys2Proof/Machine/Digest.lean ====
section
/-! DEFINITION. The digest SHA-384 that R416, R420 and R458 name, as FIPS 180-4 defines it (log entry 98). -/

namespace Sys2Proof.Machine

/-- The largest `r` below `2 ^ n` with `r ^ k ≤ v`. -/
def rootBelow (k v : Nat) : Nat → Nat → Nat
  | 0, r => r
  | n + 1, r => rootBelow k v n (if (r + 2 ^ n) ^ k ≤ v then r + 2 ^ n else r)

/-- The first 64 bits of the fraction of the `k`-th root of a number below 512. -/
def rootBits (k p : Nat) : BitVec 64 := BitVec.ofNat 64 (rootBelow k (p * 2 ^ (64 * k)) 72 0)

/-- The first 80 primes. -/
def primes : List Nat := (List.range 410).filter fun n => decide (2 ≤ n) && (List.range' 2 (n - 2)).all fun d => n % d != 0

/-- The constants of the rounds, and the hash value that SHA-384 starts from. -/
def roundConstants : List (BitVec 64) := primes.map (rootBits 3)
def hashStart : List (BitVec 64) := ((primes.drop 8).take 8).map (rootBits 2)

/-- The message schedule, the latest word first: `n` words more. -/
def scheduleMore : Nat → List (BitVec 64) → List (BitVec 64)
  | 0, l => l
  | n + 1, l =>
    let small (r1 r2 sh : Nat) (x : BitVec 64) : BitVec 64 := x.rotateRight r1 ^^^ x.rotateRight r2 ^^^ (x >>> sh)
    scheduleMore n ((small 19 61 6 (l[1]?.getD 0) + l[6]?.getD 0 + small 1 8 7 (l[14]?.getD 0) + l[15]?.getD 0) :: l)

/-- One round on the eight working variables, with its constant and its word of the schedule. -/
def hashRound (v : List (BitVec 64)) (kw : BitVec 64 × BitVec 64) : List (BitVec 64) :=
  match v with
  | [a, b, c, d, e, f, g, h] =>
    let big (r1 r2 r3 : Nat) (x : BitVec 64) : BitVec 64 := x.rotateRight r1 ^^^ x.rotateRight r2 ^^^ x.rotateRight r3
    let t1 := h + big 14 18 41 e + ((e &&& f) ^^^ (~~~e &&& g)) + kw.1 + kw.2
    let t2 := big 28 34 39 a + ((a &&& b) ^^^ (a &&& c) ^^^ (b &&& c))
    [t1 + t2, a, b, c, d + t1, e, f, g]
  | _ => v

/-- The hash value after a block of sixteen words. -/
def hashBlock (v : List (BitVec 64)) (block : List (BitVec 64)) : List (BitVec 64) :=
  let rounds := (roundConstants.zip (scheduleMore 64 block.reverse).reverse).foldl hashRound v
  List.zipWith (· + ·) v rounds

/-- Bytes as a number, the first most significant, and a number as `n` such bytes. -/
def bigNat (bs : List (BitVec 8)) : Nat := bs.foldl (fun n b => n * 256 + b.toNat) 0
def bigBytes (n v : Nat) : List (BitVec 8) := ((List.range n).map fun k => BitVec.ofNat 8 (v / 256 ^ k)).reverse

/-- A message as SHA-384 pads it to whole blocks of 128 bytes. -/
def padded (msg : List (BitVec 8)) : List (BitVec 8) :=
  msg ++ [0x80] ++ List.replicate ((239 - msg.length % 128) % 128) 0 ++ bigBytes 16 (8 * msg.length)

/-- SHA-384 of a message: 48 bytes. -/
def sha384 (msg : List (BitVec 8)) : List (BitVec 8) :=
  let bs := padded msg
  let block (k : Nat) : List (BitVec 64) := (List.range 16).map fun j => BitVec.ofNat 64 (bigNat ((bs.drop (128 * k + 8 * j)).take 8))
  (((List.range (bs.length / 128)).foldl (fun v k => hashBlock v (block k)) hashStart).take 6).flatMap fun w => bigBytes 8 w.toNat

/-- FMDIGEST, the floor-map digest (R420, R458). -/
def fmDigest : List (BitVec 8) := sha384 Config.floorRecord

end Sys2Proof.Machine
end

