-- ==== Sys2Proof/Machine/Launch.lean ====
section
/-! DEFINITION. Launches and graph replays: the checks of a packet and its image header (R373 to R377), the taking of LAUNCH and
REPLAY entries (R371, R385, R386), and the end of a job (R196, R383, R385). -/

namespace Sys2Proof.Machine

/-! The packet and the image header. -/

/-- A link binding of a packet; none when it breaks R375, `some none` when it is unused. -/
def parseLink (ports : List Nat) (v : Nat) : Option (Option LinkBind) :=
  let link := v % 256
  let quad := bits v 13 6
  let aquad := bits v 19 5
  let die := bits v 24 3
  if bits v 27 5 ≠ 0 then none
  else if link = 0xFF then (if v = 0xFF then some none else none)
  else
    let b : LinkBind := { link := BitVec.ofNat 16 link, slots := if v.testBit 8 then 4 else 2, slotSize := (bits v 9 4 + 1) * 65536,
                          quad := quad, aquad := aquad, die := die }
    if link < 4 then (if die = 0 then some (some b) else none)
    else if 0x10 ≤ link ∧ link ≤ 0x14 then
      (if nth 0 ports (link - 0xF) = 1 ∧ aquad = 0 ∧ quad < Config.quadsOf die then some (some b) else none)
    else none

/-- The bindings of a packet: each sound, no LINK twice. -/
def parseLinks (ports : List Nat) (vs : List Nat) : Option (List LinkBind) :=
  let ls := vs.map (parseLink ports)
  if ls.any (·.isNone) then none
  else
    let bs := (ls.filterMap id).filterMap id
    if (bs.map (·.link)).eraseDups.length = bs.length then some bs else none

/-- What reading a packet comes to: a page is being moved, a refusal with its status, or a job. -/
inductive Parsed where
  | hold
  | refuse (status : Nat)
  | ok (j : Job)

/-- The stream images of a header: offset and length of stream 4 × strand + cluster. -/
def headerStreams (h : List Byte) : List (Nat × Nat) :=
  (List.range 16).map fun k => (field h (8 + 8 * k) 4, field h (12 + 8 * k) 4)

/-- The descriptors of a header by strand. -/
def headerDescs (h : List Byte) : List (List (Option (BitVec 14))) :=
  (List.range 4).map fun k => (List.range 8).map fun n =>
    let v := field h (160 + 2 * (8 * k + n)) 2
    if v.testBit 15 then some (BitVec.ofNat 14 v) else none

/-- The image header passes R374 for a strand count and window sizes. -/
def headerOk (h : List Byte) (nstr benchw stratw : Nat) : Bool :=
  let absent (k : Nat) : Bool := field h (8 + 32 * k) 32 == 0 && field h (152 + k) 1 == 0 && field h (160 + 16 * k) 16 == 0
  let desc (i : Nat) : Bool :=
    let v := field h (160 + 2 * i) 2
    !v.testBit 14 && decide (v % 8 ≤ 4)
  field h 0 8 == 0 && field h 156 4 == 0 && (headerStreams h).all (fun x => x.1 % 4 == 0)
    && decide (field h 140 4 ≤ benchw ∧ field h 148 4 ≤ stratw) && (List.range 4).all (fun k => decide (field h (152 + k) 1 < 3))
    && (List.range 32).all desc && ((List.range 4).filter fun k => decide (nstr ≤ k)).all absent

/-- The job can be placed on empty cores (R376). -/
def placeable (j : Job) : Bool :=
  let share := shareOf j.nunits j.gsize j.klass j.dies
  let die (x : Nat × Nat × Nat) : Bool :=
    let (d, _, groups) := x
    let units := groups * j.gsize
    let cores := 4 * Config.quadsOf d
    groups == 0 || (decide (j.stratw ≤ Config.stratumSize d) &&
      (!j.corFlag || decide (units * j.nstr ≤ 4 * cores ∧ units * j.benchw ≤ cores * 0x100000 ∧ units * j.accw ≤ cores * 0x200000)))
  !share.isEmpty && share.all die

/-- The slots of a link fit beside a stratum window in an empty column of each of its ends (R375). -/
def linkFits (j : Job) (b : LinkBind) : Bool :=
  let fits (d : Nat) : Bool := decide (b.slotSize + j.stratw ≤ Config.stratumSize d)
  if b.link.toNat < 4 then fits b.link.toNat && fits (4 + b.link.toNat) else fits b.die

/-- A packet at an address, read and checked at take (R373 to R376). -/
def State.parsePacket (s : State) (x : Queue) (root pkt : Nat) (id : Nat) (e : List Byte) (ticket : Nat) : Parsed :=
  if pkt % 256 ≠ 0 then .refuse 0x02
  else match s.devRead root pkt 256 with
    | .hold _ | .held => .hold
    | .bad _ => .refuse 0x02
    | .ok p =>
      let prog := field p 0 8
      let n := field p 16 3 + 1
      let shape := field p 20 1
      let nstr := shape % 4 + 1
      let gcode := bits shape 2 2
      let gsize := 2 ^ gcode
      let weights := (List.range 4).map fun k => bits (field p 24 2) (4 * k) 4
      let benchw := field p 26 2 * 0x4000
      let stratw := field p 28 2 * 0x10000
      let accw := field p 30 2 * 0x10000
      let pod := field p 56 4
      let podn := field p 60 2
      let weightOk (k : Nat) : Bool := if k < nstr then nth 0 weights k != 0 else nth 0 weights k == 0
      let sound := decide (prog % 256 = 0 ∧ gcode < 3 ∧ n % gsize = 0 ∧ bits shape 4 2 < 3 ∧ shape < 128 ∧ field p 19 1 = 0)
        && decide (16 ≤ field p 22 2 ∧ field p 22 2 ≤ 4095) && (List.range 4).all weightOk
        && decide (field p 26 2 ≤ 64 ∧ field p 28 2 ≤ 96 ∧ field p 30 2 ≤ 32 ∧ 64 ≤ field p 32 4 ∧ field p 32 4 ≤ 65536)
        && field p 36 4 == 0 && decide (1 ≤ podn ∧ podn ≤ 4096 ∧ (pod = 0 → podn = 1) ∧ field p 62 2 < podn) && field p 100 156 == 0
      match (if sound then parseLinks s.ch.plat.ports ((List.range 9).map fun k => field p (64 + 4 * k) 4) else none) with
      | none => .refuse 0x02
      | some links =>
        match s.devRead root prog 288 with
        | .hold _ | .held => .hold
        | .bad _ => .refuse 0x02
        | .ok h =>
          let images := (headerStreams h).map (fun z => (prog + z.1, 4 * z.2)) ++
            [(prog + field h 136 4, field h 140 4), (prog + field h 144 4, field h 148 4)]
          let checks := (images.filter fun z => z.2 != 0).map fun z => devSegs s.ch.side s.mem root .load z.1 z.2
          if !headerOk h nstr benchw stratw then .refuse 0x02
          else if checks.any (fun c => match c with
              | .bad _ => true
              | _ => false) then .refuse 0x02
          else if checks.any (fun c => match c with
              | .hold _ | .held => true
              | _ => false) then .hold
          else
            let wait (k : Nat) : Nat × Nat := (field p (40 + 8 * k) 2, field p (42 + 8 * k) 6)
            let j : Job :=
              { id := BitVec.ofNat 64 id, queue := x.q, ticket := ticket, sigctr := entrySig e, irq := entryIrq e, asr := x.asr,
                root := root, arg := BitVec.ofNat 64 (field p 8 8), nunits := n, nstr := nstr, gsize := gsize, klass := bits shape 4 2,
                corFlag := shape.testBit 6, dies := field p 21 1, age := field p 22 2, weights := weights, benchw := benchw,
                stratw := stratw, accw := accw, migThr := field p 32 4, waits := [wait 0, wait 1], pod := BitVec.ofNat 32 pod,
                podN := podn, podIdx := field p 62 2, links := links,
                roles := (List.range 4).map fun k => field h (152 + k) 1, prog := prog, level := s.ch.levelOf x,
                streams := headerStreams h, bimg := (field h 136 4, field h 140 4), simg := (field h 144 4, field h 148 4),
                descs := headerDescs h, cols := [], started := false, killStep := 0, killFlags := 0, cancelled := 0, contexts := 0,
                status := 0, errTok := 0, errBar := 0, slots := [], signalled := false, parts := [] }
            if !links.all (linkFits j) || !placeable j then .refuse 0x03 else .ok j

/-- A packet and its image header have been read (R58, R424). -/
def State.packetSeen (s : State) (root pkt : Nat) : State :=
  match s.devRead root pkt 256 with
  | .ok p => (s.seen .load root pkt 256).seen .load root (field p 0 8) 288
  | _ => s.seen .load root pkt 256

/-- The ends of a job's links: link, whether it is the far end, and its window quad (R164). A peer link has a far end too, which stands for
what leaves the package. -/
def Job.ends (j : Job) : List (LinkBind × Bool × Nat) :=
  j.links.flatMap fun b =>
    let n := b.link.toNat
    if n < 4 then [(b, false, n * 64 + b.quad), (b, true, (4 + n) * 64 + b.aquad)]
    else [(b, false, b.die * 64 + b.quad), (b, true, b.die * 64 + b.quad)]

/-- The ends whose receive slots lie on a die. -/
def Job.endsOn (j : Job) (die : Nat) : List (LinkBind × Bool × Nat) :=
  j.ends.filter fun e => e.2.2 / 64 == die && !(decide (4 ≤ e.1.link.toNat) && e.2.1)

/-- An end of a link as its job is taken (R165): its slots are still to be reserved, and the link has failed already where its peer port is
down (R169, R408). -/
def LinkEnd.fresh (job : BitVec 64) (b : LinkBind) (far : Bool) (quad : Nat) (down : Bool) : LinkEnd :=
  { job := job, link := b.link, far := far, slots := b.slots, slotSize := b.slotSize, quad := quad, txseq := 1, rxseq := 1,
    permits := b.slots, full := [], tags := [], arriving := [], lerr := down, placed := decide (4 ≤ b.link.toNat) && far }

/-- A link leads through a peer port that is down (R408). -/
def Platform.linkIsDown (p : Platform) (link : BitVec 16) : Bool :=
  decide (0x10 ≤ link.toNat) && !nth false p.links (link.toNat - 0xF)

/-- A job enters the job tables of the dies that have a share of it, at the lowest free index of each (R372, R381; log entry 85), with the
ends of its links. -/
def Chip.addJob (c : Chip) (j : Job) : Chip :=
  let dies := (List.range 8).filter fun d => decide (0 < (j.share d).2)
  { c with jobs := c.jobs ++ [{ j with slots := dies.map fun d => (d, (c.freeIndex d).getD 0) }],
           links := c.links ++ j.ends.map fun e => LinkEnd.fresh j.id e.1 e.2.1 e.2.2 (c.plat.linkIsDown e.1.link) }

/-- LAUNCH (R371, R373): the packet is read once; a launch that is not refused becomes a job of the curators. -/
def execLaunch (q : Nat) (s : State) : Host.Outcome State Fault Refusal :=
  takeEvent s q 1 (fun _ _ => 1) fun t x r e first =>
    let u := t.packetSeen r (field e 8 8)
    match t.parsePacket x r (field e 8 8) first e x.takenN with
    | .hold => none
    | .refuse status => some (u.complete (doneOf x (some r) e first status))
    | .ok j => some { u with ch := u.ch.addJob j }

/-! Replay. -/

/-- The node count a graph header holds, when it can be read and is from 1 to 256. -/
def State.graphNodes (s : State) (root : Nat) (e : List Byte) : Nat :=
  match s.devRead root (field e 8 8) 64 with
  | .ok h => if 1 ≤ field h 0 4 ∧ field h 0 4 ≤ 256 then field h 0 4 else 0
  | _ => 0

/-- The node records of a graph: packet addresses and predecessors; none where the graph breaks R385. -/
def parseNodes (n : Nat) (bs : List Byte) : Option (List (Nat × Nat × Nat)) :=
  let node (k : Nat) : Nat × Nat × Nat := (field bs (16 * k) 8, field bs (16 * k + 8) 2, field bs (16 * k + 10) 2)
  let ok (k : Nat) : Bool :=
    let (p, a, b) := node k
    let pred (i : Nat) : Bool := i == 0xFFFF || decide (i < k ∧ i < n)
    p % 256 == 0 && pred a && pred b && field bs (16 * k + 12) 4 == 0
  if (List.range n).all ok then some ((List.range n).map node) else none

/-- The packets of the nodes copied to the frame. -/
def copyPackets (root frame : Nat) : List (Nat × Nat × Nat) → Nat → State → Chk State
  | [], _, s => .ok s
  | (p, _) :: rest, k, s =>
    (s.devRead root p 256).bind fun bs => ((s.seen .load root p 256).devWrite root (frame + 256 * k) bs).bind fun s1 => copyPackets root frame rest (k + 1) s1

/-- JOBID `k` values on from a first one: the count stays within its queue's 32 bits (R371). -/
def jobIdFrom (first k : Nat) : Nat := first / 2 ^ 32 * 2 ^ 32 + (first + k) % 2 ^ 32

/-- REPLAY (R385): the graph and every packet are read, copied and checked at take; any that fails refuses the whole replay. -/
def execReplay (q : Nat) (s : State) : Host.Outcome State Fault Refusal :=
  takeEvent s q 3 (fun r e => s.graphNodes r e) fun t x r e first =>
    let graph := field e 8 8
    let frame := field e 16 8
    let refuse (u : State) (status : Nat) : Option State := some (u.complete (doneOf x (some r) e 0 status))
    match (if graph % 64 = 0 ∧ frame % 256 = 0 then t.devRead r graph 64 else .bad { cause := 0x10 }) with
    | .hold _ | .held => none
    | .bad _ => refuse (if graph % 64 = 0 ∧ frame % 256 = 0 then t.seen .load r graph 64 else t) 0x02
    | .ok h =>
      let n := t.graphNodes r e
      let t := t.seen .load r graph 64
      if n = 0 ∨ field h 4 4 ≠ 0 ∨ field h 16 48 ≠ 0 then refuse t 0x02
      else match t.devRead r (field h 8 8) (16 * n) with
        | .hold _ | .held => none
        | .bad _ => refuse (t.seen .load r (field h 8 8) (16 * n)) 0x02
        | .ok bs => match parseNodes n bs with
          | none => refuse (t.seen .load r (field h 8 8) (16 * n)) 0x02
          | some nodes => match copyPackets r frame nodes 0 (t.seen .load r (field h 8 8) (16 * n)) with
            | .hold _ | .held => none
            | .bad _ => refuse t 0x02
            | .ok u =>
              let parsed := (List.range n).map fun k => u.parsePacket x r (frame + 256 * k) (jobIdFrom first k) e x.takenN
              let is (st : Nat) (p : Parsed) : Bool := match p with
                | .refuse v => v == st
                | _ => false
              let held (p : Parsed) : Bool := match p with
                | .hold => true
                | _ => false
              if parsed.any held then none
              else if parsed.any (is 0x02) then refuse u 0x02
              else if parsed.any (is 0x03) then refuse u 0x03
              else
                let shares (d : Nat) : Bool := parsed.any fun p => match p with
                  | .ok j => decide (0 < (j.share d).2)
                  | _ => false
                let rep : Replay :=
                  { id := u.ch.nextId, queue := x.q, ticket := x.takenN, sigctr := entrySig e, irq := entryIrq e, root := r,
                    asr := x.asr, level := u.ch.levelOf x, va := frame, nodes := (List.range n).map fun k => (k, 0),
                    preds := nodes.map fun z => (z.2.1, z.2.2), jobs := (List.range n).map fun k => BitVec.ofNat 64 (jobIdFrom first k),
                    dies := (List.range 8).filter shares, errTok := 0, errBar := 0 }
                some { u with ch := { u.ch with nextId := u.ch.nextId + 1, replays := u.ch.replays ++ [rep] } }

def Chip.modReplay (c : Chip) (id : Nat) (f : Replay → Replay) : Chip :=
  { c with replays := c.replays.map fun r => if r.id == id then f r else r }

def Replay.status (r : Replay) (k : Nat) : Nat := (r.nodes.lookup k).getD 0

/-- A node is complete once its state is 0x100 and its status. -/
def Replay.setNode (r : Replay) (k st : Nat) : Replay := { r with nodes := r.nodes.map fun x => if x.1 = k then (k, st) else x }

/-- A node's predecessors. -/
def Replay.predsOf (r : Replay) (k : Nat) : List Nat :=
  let (a, b) := nth (0xFFFF, 0xFFFF) r.preds k
  [a, b].filter fun i => i != 0xFFFF

/-- Nodes that depend on a killed node count as killed, in node order, which is an order of the graph. -/
def Replay.spreadKill (r : Replay) : Replay :=
  (List.range r.nodes.length).foldl (fun r k =>
    if r.status k = 0 ∧ (r.predsOf k).any (fun i => r.status i == 0x107) then r.setNode k 0x107 else r) r

/-- The worst of the node statuses: 0x07, 0x04, 0x06, 0x00. -/
def Replay.worst (r : Replay) : Nat :=
  let has (st : Nat) : Bool := r.nodes.any fun x => x.2 == 0x100 + st
  if has 0x07 then 0x07 else if has 0x04 then 0x04 else if has 0x06 then 0x06 else 0x00

/-- A node is complete with a status and its counts of errors, which add up for the record (R378); the entry completes when every node is
(R385). -/
def State.nodeDone (s : State) (rep k status errTok errBar : Nat) : State :=
  let count (r : Replay) : Replay := { r with errTok := r.errTok + errTok, errBar := r.errBar + errBar }
  let s1 : State := { s with ch := s.ch.modReplay rep fun r => (count (r.setNode k (0x100 + status))).spreadKill }
  match s1.ch.replays.find? fun r => r.id == rep with
  | none => s1
  | some r =>
    if r.nodes.all fun x => decide (0x100 ≤ x.2) then
      ({ s1 with ch := { s1.ch with replays := s1.ch.replays.filter fun y => y.id != rep } } : State).complete
        { q := r.queue, ticket := r.ticket, root := some r.root, job := 0, status := r.worst, errTok := r.errTok, errBar := r.errBar,
          sigctr := r.sigctr, irq := r.irq }
    else s1

/-- REPLAY_NODE_LAUNCH (R385): a node whose predecessors are complete launches from its frame copy, with the root and the address-space record of
the replay's take (R366), when the job tables of its dies have room (R381; log entry 85); one whose copy no longer passes the checks counts as killed (log entry 34). Its
take order is that of the launches of the nodes (R379; log entry 85). -/
def execReplayNodeLaunch (rep node : Nat) (s : State) : Host.Outcome State Fault Refusal :=
  match s.ch.replays.find? fun r => r.id == rep with
  | none => .next s
  | some r =>
    if r.nodes.lookup node ≠ some 0 ∨ !(r.predsOf node).all (fun i => decide (0x100 ≤ r.status i)) then .next s
    else
      let u := s.packetSeen r.root (r.va + 256 * node)
      match s.parsePacket (s.ch.queue r.queue) r.root (r.va + 256 * node) (nth 0 r.jobs node).toNat [] r.ticket with
      | .hold => .next s
      | .refuse _ => .next (u.nodeDone rep node 0x07 0 0)
      | .ok j =>
        let c := u.ch.modReplay rep fun y => y.setNode node 1
        if (List.range 8).any fun d => decide (0 < (j.share d).2) && (s.ch.freeIndex d).isNone then .next s
        else .next { u with ch := c.addJob { j with asr := r.asr, level := r.level, sigctr := 0, irq := false } }

/-! The end of a job. -/

/-- What a strand leaves at its core: its open hold groups and its last-result entries (R178, R185, R189). -/
def Core.leave (k : Core) (slot : Nat) : Core :=
  { k with hold := k.hold.filter (fun e => e.2 != slot), latch := k.latch.filter fun l => l.pos != 4 * k.id + slot }

/-- Everything of a job leaves the machine, what other packages have said of its pod job and its bind records among it. -/
def Chip.dropJob (c : Chip) (job : BitVec 64) : Chip :=
  let gone := c.strands.filter fun σ => σ.who.job == job
  let c1 := gone.foldl (fun c σ => (c.dropBucket σ.pos).modCore (coreOf σ.pos) fun k => k.leave (σ.pos % 4)) c
  let mine := c.job? job
  let pod := (mine.map Job.pod).getD 0
  let stale := pod != 0 && !(c.jobs.any fun j => j.id != job && j.pod == pod)
  let unused := stale && mine.any fun j => !j.started
  { c1 with
    strands := c1.strands.filter (fun σ => σ.who.job != job), ops := c1.ops.filter (fun o => o.job != job),
    pods := c1.pods.filter (fun p => !(stale && p.pod == pod)), signals := c1.signals.filter (fun p => !(unused && p.1 == pod)),
    phases := c1.phases.filter (fun p => !(stale && p.1 == pod)),
    binds := c1.binds.filter (fun b => !(gone.any fun σ => σ.pos == b.pos)),
    quads := c1.quads.map fun q => { q with hbars := q.hbars.filter fun h => h.1 != job },
    units := c1.units.filter (fun u => u.job != job), jobs := c1.jobs.filter (fun j => j.id != job),
    hbars := c1.hbars.filter (fun h => h.job != job), links := c1.links.filter (fun l => l.job != job),
    saved := c1.saved.filter (fun v => v.strand.who.job != job),
    xl := { c1.xl with tlbs := c1.xl.tlbs.filter (fun t => t.job != job), walks := c1.xl.walks.filter (fun w => w.job != job),
                       lines := c1.xl.lines.filter (fun l => l.job != job),
                       counters := c1.xl.counters.filter fun k => k.job != job } }

/-- The submitter of the ticket that a device queue stands at can still write its STAMP: the job that took it is there; where no atomic of
this package's jobs is on record, some job of the address space (R196; log entry 35). -/
def Chip.submitterLives (c : Chip) (x : Queue) (root : Nat) : Bool :=
  match x.takers.find? fun k => decide (k.1 ≤ x.takenN ∧ x.takenN < k.1 + k.2.1) with
  | some k => (c.job? k.2.2).isSome
  | none => c.jobs.any fun j => j.root == root

/-- A device queue that stands at an entry whose STAMP its submitter, which has ended, has not written passes it over: status 0x08, with
the error bit (R196). -/
def State.skipEntry (s : State) (q : Nat) : State :=
  let x := s.ch.queue q
  match asrRoot s.mem x.asr with
  | none => s
  | some r => match s.devRead r x.ctrl 64, s.devRead r (x.entryAt x.takenN) 64 with
    | .ok ctrl, .ok e =>
      if x.enabled && x.devsub && x.stop == 0 && decide (x.takenN < field ctrl 0 8) && field e 56 8 != x.takenN + 1
          && !s.ch.submitterLives x r && !s.recordHeld q x.takenN (some r) then
        let t := (s.take x (some r)).complete (doneOf x (some r) [] 0 0x08)
        { t with ch := t.ch.modQueue q fun y => { y with err := true } }
      else s
    | _, _ => s

/-- The frames of a saved context. -/
def Saved.frames (v : Saved) : List Nat := v.area :: v.windows.flatMap fun w => w.2.2.2

/-- The end of a job (R383, R385): its entry, or its node of a replay, completes with the status. The areas of its saved contexts are free. -/
def State.endJob (s : State) (j : Job) (status : Nat) : State :=
  let s1 := ({ s with ch := s.ch.dropJob j.id } : State).freeFrames ((s.ch.saved.filter fun v => v.strand.who.job == j.id).flatMap Saved.frames)
  match s.ch.replays.find? fun r => r.jobs.contains j.id with
    | some r => s1.nodeDone r.id (r.jobs.findIdx fun x => x == j.id) status j.errTok j.errBar
    | none => s1.complete { q := j.queue, ticket := j.ticket, root := some j.root, job := j.id.toNat, status := status, errTok := j.errTok,
                            errBar := j.errBar, sigctr := j.sigctr, irq := j.irq }

/-- The place of a job's completion record is on a page that is being moved. -/
def State.endHeld (s : State) (j : Job) : Bool := s.recordHeld j.queue j.ticket (some j.root)

/-- JOB_COMPLETE (R383): every unit has ended. -/
def execJobComplete (job : BitVec 64) (s : State) : Host.Outcome State Fault Refusal :=
  match s.ch.job? job with
  | none => .next s
  | some j =>
    let us := s.ch.units.filter fun u => u.job == job
    if j.killStep ≠ 0 ∨ us.length ≠ j.nunits ∨ us.any (fun u => !u.ended) ∨ s.endHeld j then .next s
    else .next (s.endJob j (if j.errTok = 0 ∧ j.errBar = 0 then 0x00 else 0x04))

end Sys2Proof.Machine
end

