-- ==== Sys2Proof/Machine/Start.lean ====
section
/-! DEFINITION. Starting the device, recovery, lease reset and scrub (R416 to R423), and the loss of power. -/

namespace Sys2Proof.Machine

def Chip.setPlat (c : Chip) (f : Platform → Platform) : Chip := { c with plat := f c.plat }

def State.setPlat (s : State) (f : Platform → Platform) : State := { s with ch := s.ch.setPlat f }

/-! The image. -/

/-- An image is verified (R416). -/
def Platform.verifies (p : Platform) (img : List Byte) : Bool := Config.imageVerifies img && decide (p.minVersion ≤ Config.imageVersion img)

/-- Step 6 of R417: the flash image is verified and runs, or the device is in recovery (R418). -/
def Platform.boot (p : Platform) : Platform :=
  if p.verifies p.flash then { p with run := true, recovery := false, running := p.flash } else { p with run := false, recovery := true }

/-! Starts (R417). -/

/-- What a cold start keeps of the platform: fuses, flash, port modes to come, links, the lease counter and certificates, the open
service requests, and the sizes of the apertures (log entry 60). -/
def Platform.kept (p : Platform) : Platform :=
  { Platform.fresh with flash := p.flash, minVersion := p.minVersion, lmsUsed := p.lmsUsed, leaseCtr := p.leaseCtr, scrubSeq := p.scrubSeq,
                        lastCert := p.lastCert, ports := p.portsNext, portsNext := p.portsNext, links := p.links, services := p.services, barSize := p.barSize,
                        fibres := p.fibres }

/-- DEVSTAT (R410). -/
def Platform.devstat (p : Platform) : Nat :=
  cond p.ownValid 128 0 + p.owner * 16 + cond p.leaseOpen 8 0 + cond (!p.services.isEmpty) 4 0 + cond p.recovery 2 0 + cond p.run 1 0

/-- The machine after reset, with the model's own fields and what it sent out going on; a sector that stays uncorrectable still does (R423). -/
def Chip.anew (c : Chip) (p : Platform) : Chip :=
  { State.reset.ch with
    agenda := c.agenda, turn := c.turn, nextId := c.nextId, free := c.free, out := c.out, plat := p,
    side := { State.reset.ch.side with stuck := c.side.stuck }.restuck }

/-- A cold start: every step; the floor map is applied and the spare quads are fenced (R2). A DEVSTAT other than before, or than at reset when the
power was off, raises vector 0 (R409). -/
def State.cold (s : State) : State :=
  let p := s.ch.plat.kept.boot
  let before := if s.ch.plat.powered then s.ch.plat.devstat else 0
  let t : State := { mem := [], ch := s.ch.anew p }
  if p.devstat = before then t else { t with ch := { t.ch with out := t.ch.out ++ [.irq none 0] } }

/-- Bytes of LPDDR-6 remain; every on-chip store is zero, nothing is full, and no mark or check error stands (R46, R137). -/
def State.clearChip (s : State) : State :=
  let side : Side :=
    { full := [], marks := [], faulty := s.ch.side.faulty.filter (fun f => decide (f.1 < benchAt 0)), stuck := s.ch.side.stuck, fresh := [], served := [] }
  let core (k : Core) : Core := { k with bucket := { owner := none, t := 0, left := 0 } }
  let quad (q : Quad) : Quad := { q with clock := List.replicate 64 1, seen := [], bars := [], hbars := [], rebase := none, rebased := [] }
  { mem := s.mem.filter (fun x => decide (x.1 < benchAt 0)),
    ch := { s.ch with side := side, cores := s.ch.cores.map core, quads := s.ch.quads.map quad } }

/-- A queue disabled: ENABLE clears. -/
def Queue.disabled (x : Queue) : Queue := { x with desc := x.desc.set 20 (BitVec.ofNat 8 (x.ctl / 2 * 2)) }

/-- Step 7 of R417: TLBs and quad caches are empty, queues disabled, completion counters zero. -/
def Chip.curatorsStart (c : Chip) : Chip :=
  { c with queues := c.queues.map Queue.disabled, counters := [],
           xl := { c.xl with tlbs := [], lines := [], walks := [] } }

/-- Steps 4, 6 and 7, once every job has been killed: those of a warm start. -/
def State.warm (s : State) : State :=
  let t := s.clearChip
  let c := { t.ch.curatorsStart with replays := [], plat := ({ s.ch.plat with pending := 0 } : Platform).boot }
  ({ t with ch := c } : State).emit [.irq none 0]

/-! Signatures (R420, R421). -/

/-- The number of LMS signatures. -/
def lmsAll : Nat := 524288

/-- Bytes returned with their two signatures, or unsigned and marked so once every index has been used; a service request opens when
fewer than 8,192 indices remain. -/
def State.signed (s : State) (bytes : List Byte) : State × List Byte :=
  let n := s.ch.plat.lmsUsed
  if lmsAll ≤ n then (s.emit [.result 2], bytes)
  else
    let s1 := s.setPlat fun p => { p with lmsUsed := n + 1 }
    (if lmsAll - (n + 1) < 8192 then { s1 with ch := s1.ch.openService 6 0 } else s1,
      bytes ++ Config.sign 0 bytes ++ Config.sign (1 + n) bytes)

/-! Lease reset and scrub (R422, R423). -/

/-- Bytes of LPDDR-6, and of the on-chip stores with the bucket files. -/
def lpddrBytes : Nat := ((List.range 8).map Config.dramSize).sum
def onChipBytes : Nat :=
  ((List.range 8).map fun d => 4 * Config.quadsOf d * (0x100000 + Config.stratumSize d + 0x200000 + 0x10000)).sum

/-- Steps 2 to 4 of R422: storage, context areas, spill rings and translation are clear. A sector that reads back uncorrectable stays so (R423). -/
def State.scrub (s : State) : State :=
  let t := s.clearChip
  let p : Platform := { s.ch.plat with ctxs := [], log := [], logCount := 0, accesses := [] }
  let none_ : Xlate := { tlbs := [], walks := [], lines := [], counters := [], motions := [], invals := [], egress := [], homeWait := [], frames := [] }
  { mem := [], ch := { t.ch with side := { t.ch.side with faulty := [] }.restuck, xl := none_, counters := [], plat := p, saved := [],
                                 ops := t.ch.ops.filter fun o => !o.ring } }

/-- The scrub certificate (R423). -/
def certBytes (leaseCtr seq sectors quads : Nat) : List Byte :=
  (Config.serial.toNat |> leBytes 16) ++ leBytes 8 leaseCtr ++ leBytes 8 seq ++ leBytes 8 lpddrBytes ++ leBytes 8 onChipBytes
    ++ leBytes 4 sectors ++ leBytes 4 quads ++ leBytes 1 (if sectors = 0 then 0 else 1) ++ List.replicate 199 0

/-- The conditions of open service requests that a lease reset leaves standing: a port or fibre down, REFR = 2 for over 10 s, too few
LMS indices (R425). -/
def Platform.stillOpen (p : Platform) (cycle : Nat) (n : Nat × Nat) : Bool :=
  match n.1 with
  | 5 => if 64 ≤ n.2 then p.fibres.contains (n.2 - 64) else nth 0 p.ports n.2 == 1 && !nth true p.links n.2
  | 4 => p.hotSince.any fun x => x.1 == n.2 && decide (x.2 + 30000000000 < cycle)
  | 6 => decide (lmsAll - p.lmsUsed < 8192)
  | _ => false

/-- Steps 2 to 5 of R422, once every job has been killed. The certificate, with the sectors that read back uncorrectable, is returned, and stays
readable in the mailbox; UECNT and CECNT count from here (R424); of a TAR the readings stay, while the allowance and the clock are those of
reset (R426). -/
def State.lease (s : State) : State :=
  let uncounted (w : BitVec 64) : BitVec 64 := BitVec.ofNat 64 (w.toNat % 65536)
  let ready (w : BitVec 64) : BitVec 64 := BitVec.ofNat 64 (w.toNat / 4096 * 4096 + 0xF78)
  let outQuads := (s.ch.quads.filter fun q => q.out).length
  let old := s.ch.plat
  let p : Platform := { old.kept with
    pkgNum := old.pkgNum, fabGroup := old.fabGroup, routes := old.routes, routesNew := old.routesNew, generation := old.generation,
    retiring := old.retiring, reports := old.reports, leaseCtr := old.leaseCtr + 1, scrubSeq := old.scrubSeq + 1,
    memStatus := old.memStatus.map uncounted, tar := old.tar.map ready, services := old.services.filter (old.stillOpen s.ch.cycle),
    hotSince := old.hotSince }
  let s1 : State := { mem := [], ch := s.ch.anew p.boot }
  let (s2, cert) := s1.signed (certBytes p.leaseCtr p.scrubSeq s.ch.side.stuck.length outQuads)
  (s2.setPlat fun q => { q with lastCert := cert }).emit [.data cert, .irq none 0]

/-- What waited for the last kill is done: a lease reset or a warm start. -/
def State.afterKills (s : State) : State :=
  if !s.ch.jobs.isEmpty then s
  else match s.ch.plat.pending with
    | 1 => s.lease
    | 2 => s.warm
    | _ => s

/-- Every job is to be killed; replays launch no more nodes, which count as killed. -/
def State.killAll (s : State) : State :=
  let c := s.ch.jobs.foldl (fun c j => c.startKill j.id 0) s.ch
  let waiting := s.ch.replays.flatMap fun r => (r.nodes.filter fun n => n.2 == 0).map fun n => (r.id, n.1)
  waiting.foldl (fun t n => t.nodeDone n.1 n.2 0x07 0 0) { s with ch := c }

/-! The events. -/

/-- A management command during a lease reset is refused, busy (R419); nothing answers without power. -/
def State.managed (s : State) (f : State → State) : Host.Outcome State Fault Refusal :=
  if !s.ch.plat.powered then .next s
  else if s.ch.plat.leaseOpen then .next (s.emit [.result 1])
  else .next (f s)

/-- COLD_START (R417): power-on, or a management request. -/
def execColdStart (s : State) : Host.Outcome State Fault Refusal :=
  if !s.ch.plat.powered then .next s.cold else s.managed State.cold

/-- The request for a warm start: every job is killed first. -/
def State.beginWarm (s : State) : State :=
  if s.ch.plat.pending ≠ 0 then s
  else ((s.killAll.setPlat fun p => { p with pending := 2, run := false }).emit [.irq none 0]).afterKills

/-- WARM_START (R417): asked for by the owner host or through the management port. -/
def execWarmStart (port : Option (BitVec 3)) (s : State) : Host.Outcome State Fault Refusal :=
  match port with
  | some p => s.hostWrite p fun s => if s.ch.owns p then s.beginWarm else s
  | none => s.managed State.beginWarm

/-- Step 1 of R422. -/
def State.beginLease (s : State) : State :=
  let s1 := s.killAll
  let c := { s1.ch with queues := s1.ch.queues.map Queue.disabled }
  let shut (p : Platform) : Platform := { p with pending := 1, leaseOpen := true, run := false, ownValid := false, owner := 0 }
  (({ s1 with ch := c.setPlat shut } : State).emit [.irq none 0]).afterKills

/-- LEASE (R422). -/
def execLease (s : State) : Host.Outcome State Fault Refusal := s.managed State.beginLease

/-- SCRUB (R419): steps 2 to 4 of R422 only. -/
def execScrub (s : State) : Host.Outcome State Fault Refusal := s.managed State.scrub

/-- FIRMWARE_LOAD (R416, R418): the owner's image is written to flash only when it is verified; in recovery the device then starts. -/
def execFirmwareLoad (port : BitVec 3) (img : List Byte) (s : State) : Host.Outcome State Fault Refusal :=
  let load (s : State) : State :=
    if s.ch.plat.verifies img then
      let s1 := s.setPlat fun p => { p with flash := img }
      if s.ch.plat.recovery then s1.cold else s1
    else s
  if !s.ch.plat.powered || s.ch.plat.leaseOpen || !s.ch.hostPort port then .next s
  else if s.ch.owns port then .next (load s)
  else .next (if s.ch.mayWrite port then s else { s with ch := s.ch.dropWrite })

/-- IMAGE (R418, R419): a verified image is written to flash and the device cold-starts. -/
def execImage (img : List Byte) (s : State) : Host.Outcome State Fault Refusal :=
  s.managed fun s => if s.ch.plat.verifies img then (s.setPlat fun p => { p with flash := img }).cold else s.emit [.result 3]

/-- POWER_FAILURE (R421): only the fuses, the used LMS indices, the flash and the port modes to come survive, and nothing answers until the next power-on. -/
def execPowerFailure (s : State) : Host.Outcome State Fault Refusal :=
  let p := s.ch.plat
  let off : Platform := { Platform.fresh with powered := false, fenced := false, run := false, flash := p.flash, minVersion := p.minVersion,
                                              lmsUsed := p.lmsUsed, portsNext := p.portsNext, links := List.replicate 6 false }
  .next { mem := [], ch := s.ch.anew off }

end Sys2Proof.Machine
end

