-- ==== Sys2Proof/Machine/Ports.lean ====
section
/-! DEFINITION. Host ports, ownership and the aperture (R7, R408 to R412, R458), the management port (R419 to R421), routing tables and
fibres (R413, R414, R425). -/

namespace Sys2Proof.Machine

/-! Ownership. -/

/-- Ownership moves: vector 0 is raised (R409). -/
def State.setOwner (s : State) (port : Option Nat) (claimAt : Option Nat) : State :=
  let down : Option Nat := match port with
    | some n => if nth false s.ch.plat.links n then none else some s.ch.cycle
    | none => none
  (s.setPlat fun p => { p with ownValid := port.isSome, owner := port.getD 0, claimAt := claimAt, linkDown := down }).emit [.irq none 0]

/-- CLAIM (R410): the writing port owns the package when none does; of several claims in one cycle the lowest port wins. -/
def execClaim (port : BitVec 3) (s : State) : Host.Outcome State Fault Refusal :=
  let p := s.ch.plat
  if !s.ch.served || !s.ch.hostPort port then .next s
  else if !p.ownValid || (p.claimAt == some s.ch.cycle && decide (port.toNat < p.owner)) then
    .next (s.setOwner (some port.toNat) (some s.ch.cycle))
  else .next s

/-- HANDOVER (R412). -/
def execHandover (port : BitVec 3) (value : BitVec 64) (s : State) : Host.Outcome State Fault Refusal :=
  s.hostWrite port fun s =>
    if s.ch.owns port ∧ value.toNat < 8 ∧ s.ch.hostPort (value.setWidth 3) then s.setOwner (some value.toNat) none else s

/-- OWNER_LINK_TIMEOUT (R412): the owner's link has been down for 1 s. -/
def execOwnerLinkTimeout (s : State) : Host.Outcome State Fault Refusal :=
  match s.ch.plat.linkDown with
  | none => .next s
  | some t => if s.ch.plat.ownValid ∧ t + 3000000000 ≤ s.ch.cycle then .next (s.setOwner none none) else .next s

/-- RELEASE (R419). -/
def execRelease (s : State) : Host.Outcome State Fault Refusal :=
  s.managed fun s => if s.ch.plat.ownValid then s.setOwner none none else s

/-- PORT_LINK_CHANGE (R408, R412, R425): a peer port that loses its link takes its exchange link with it, and a service request opens. -/
def execPortLinkChange (port : BitVec 3) (up : Bool) (s : State) : Host.Outcome State Fault Refusal :=
  let n := port.toNat
  if 6 ≤ n then .next s
  else
    let down (p : Platform) : Option Nat := if p.ownValid ∧ p.owner = n then (if up then none else some (p.linkDown.getD s.ch.cycle)) else p.linkDown
    let s1 := s.setPlat fun p => { p with links := p.links.set n up, linkDown := down p }
    if !up && nth 0 s.ch.plat.ports n == 1 then .next (({ s1 with ch := s1.ch.openService 5 n } : State).failLink (BitVec.ofNat 16 (0xF + n)))
    else .next s1

/-! The aperture (R411). -/

/-- The root of the tables the aperture translates through, and the address it leads to. -/
def State.aperture (s : State) (off : Nat) : Option (Nat × Nat) :=
  (asrRoot s.mem s.ch.plat.apasr.toNat).map fun r => (r, s.ch.plat.apbase.toNat + off)

/-- APERR is set (R458). -/
def State.apError (s : State) : State := s.setPlat fun p => { p with apstat := p.apstat ||| 1 }

/-- An access lies within the aperture that the port presents (R409). -/
def Chip.inAperture (c : Chip) (port : BitVec 3) (off len : Nat) : Bool := decide (off + len ≤ 2 ^ nth 30 c.plat.barSize port.toNat)

/-- The size of a port's BAR4 is set: a power of two from 1 GiB to 2 TiB (R409). -/
def Chip.resizeBar (c : Chip) (port : BitVec 3) (log : Nat) : Chip :=
  if 30 ≤ log ∧ log ≤ 41 ∧ c.hostPort port then { c with plat := { c.plat with barSize := c.plat.barSize.set port.toNat log } } else c

/-- The peers of an access of the aperture that can be reached have room for its requests (R415). -/
def Chip.apRoom (c : Chip) (gs : List Seg) : Bool := gs.all fun g => g.peer.all fun p => !c.reachable p || c.ctxRoom p c.aperturePod

/-- An access of the aperture meets HOLD, or a delivery context that it needs cannot be opened yet: it waits. -/
def State.apHeld (s : State) (acc : Access) (off len : Nat) : Bool :=
  match s.aperture off with
  | none => false
  | some (r, va) => match devSegs s.ch.side s.mem r acc va len with
    | .hold _ | .held => true
    | .bad _ => false
    | .ok gs => !s.ch.apRoom gs

/-- The bytes of runs, those at peers zero until they come. -/
def localBytes (s : State) : List Seg → Chk (List Byte)
  | [] => .ok []
  | g :: gs =>
    let here : Chk (List Byte) := match g.peer with
      | some pkg => if s.ch.reachable pkg then .ok (List.replicate g.len 0) else .bad { cause := 0x31 }
      | none => match readHome s g with
        | .error b => .bad { cause := b.cause }
        | .ok bs => .ok bs
    here.bind fun bs => (localBytes s gs).bind fun r => .ok (bs ++ r)

/-- The requests of a read through the aperture to its peers, each for its place in the read. -/
def Chip.fetchRuns (c : Chip) (id : Nat) : List Seg → Nat → Chip
  | [], _ => c
  | g :: gs, off =>
    let c1 := match g.peer with
      | some pkg => (partsOf (g.len + 1) g.va g.len).foldl (fun (c : Chip) (p : Nat × Nat) => c.devRequest (some id) pkg p.1 (off + p.1 - g.va) (.load p.2)) c
      | none => c
    c1.fetchRuns id gs (off + g.len)

/-- An access through the aperture begins; without a request to a peer it is done at once. -/
def State.beginAccess (s : State) (a : HostAccess) : State :=
  if s.ch.xl.egress.any fun e => e.op == a.id then s.setPlat fun p => { p with accesses := a :: p.accesses } else s.endAccess a

/-- BAR4_READ: any host port reads; a failure returns all ones. The part at peers is fetched from them (R65). -/
def execBar4Read (port : BitVec 3) (off len : Nat) (s : State) : Host.Outcome State Fault Refusal :=
  let fail (s : State) : State := s.apError.emit [.data (List.replicate len 0xFF)]
  if !s.ch.served || !s.ch.hostPort port || !s.ch.inAperture port off len || s.apHeld .load off len then .next s
  else match s.aperture off with
    | none => .next (fail s)
    | some (r, va) =>
      let t := s.seen .load r va len
      match (devSegs s.ch.side s.mem r .load va len).bind fun gs => (localBytes s gs).bind fun bs => .ok (gs, bs) with
      | .ok (gs, bs) =>
        let id := t.ch.nextId
        .next (({ t with ch := ({ t.ch with nextId := id + 1 } : Chip).fetchRuns id gs 0 } : State).beginAccess
          { id := id, port := port, write := false, bytes := bs, failed := false })
      | _ => .next (fail t)

/-- BAR4_WRITE: a write is performed where the leaf leads; a failure drops it. -/
def execBar4Write (port : BitVec 3) (off : Nat) (data : List Byte) (s : State) : Host.Outcome State Fault Refusal :=
  s.hostWrite port fun s =>
    if !s.ch.inAperture port off data.length || s.apHeld .store off data.length then s
    else match s.aperture off with
      | none => s.apError
      | some (r, va) =>
        let t := s.seen .store r va data.length
        match devSegs s.ch.side s.mem r .store va data.length with
        | .ok gs =>
          let id := t.ch.nextId
          match writeRuns (some id) gs data { t with ch := { t.ch with nextId := id + 1 } } with
          | (u, true) => u.beginAccess { id := id, port := port, write := true, bytes := [], failed := false }
          | (_, false) => t.apError
        | _ => t.apError

/-- A write through the aperture of a port that peers have not yet performed: what the port does next waits for it (R411). -/
def Chip.portWrites (c : Chip) (port : BitVec 3) : Bool := c.plat.accesses.any fun a => a.write && a.port == port

/-- A choice that cannot take place yet: an access through the aperture to a held page, or a write of a port that has one such before
it (R411); an answer from a peer to an operation whose core is frozen (R391). -/
def State.choiceHeld (s : State) (c : Choice) : Bool :=
  match c with
  | .event (.bar4Read _ off len) => s.apHeld .load off len
  | .event (.bar4Write _ off data) => s.apHeld .store off data.length
  | .event (.peerResponse op _ _) => s.ch.answerHeld op
  | .event (.movedResponse op _) => s.ch.answerHeld op
  | _ => false

/-- The port a choice comes from. -/
def Choice.port (c : Choice) : Option (BitVec 3) :=
  match c with
  | .event (.bar4Read p _ _) => some p
  | .event (.bar4Write p _ _) => some p
  | .event (.queueDescriptorWrite p _ _ _) => some p
  | .event (.queueTailWrite p _ _) => some p
  | .event (.queueErrorClear p _) => some p
  | .event (.jobkill p _) => some p
  | .event (.claim p) => some p
  | .event (.handover p _) => some p
  | .event (.registerWrite p _ _) => some p
  | .event (.firmwareLoad p _) => some p
  | .event (.warmStart p) => p
  | .event (.attest p _) => p
  | .bar0Read p _ => some p
  | .bar2Read p _ => some p
  | _ => none

/-- The first choice of an agenda that can take place, and the agenda without it. -/
def State.pick (s : State) : List (BitVec 3) → List Choice → Option (Choice × List Choice)
  | _, [] => none
  | ports, c :: cs =>
    let blocked := match c.port with
      | some p => ports.contains p || s.ch.portWrites p || s.choiceHeld c
      | none => s.choiceHeld c
    if blocked then (State.pick s (c.port.toList ++ ports) cs).map fun r => (r.1, c :: r.2) else some (c, cs)

/-! Registers of BAR0. -/

/-- The mailbox with a word written (R409). -/
def putMailbox (m : List Byte) (off : Nat) (bs : List Byte) : List Byte :=
  let l := m ++ List.replicate (off + bs.length - m.length) 0
  l.take off ++ bs ++ l.drop (off + bs.length)

/-- The error bits of queues 64w to 64w + 63 are cleared where a bit is 1, and those queues go on (R387, R409). -/
def Chip.clearErrors (c : Chip) (w v : Nat) : Chip :=
  { c with queues := c.queues.map fun x => if x.q / 64 = w ∧ v.testBit (x.q % 64) then { x with err := false, stop := 0 } else x }

/-- The effect of a write of a 64-bit register (R7, R411, R458); every other word ignores it. -/
def State.putRegister (s : State) (off : Nat) (value : BitVec 64) : State :=
  let v := value.toNat
  if off % 8 ≠ 0 then s
  else if off = 0x58 then s.setPlat fun p => { p with apstat := p.apstat &&& (2 ^ 64 - 1 - v % 2) }
  else if 0x4000 ≤ off ∧ off < 0x5000 then { s with ch := s.ch.clearErrors ((off - 0x4000) / 8) v }
  else if 0x3800000 ≤ off ∧ off < 0x3810000 then s.setPlat fun p => { p with mailbox := putMailbox p.mailbox (off - 0x3800000) (leBytes 8 v) }
  else if off = 0x3C00000 then s.setPlat fun p => { p with apasr := BitVec.ofNat 64 (bits v 6 35 * 64) }
  else if off = 0x3C00008 then s.setPlat fun p => { p with apbase := BitVec.ofNat 64 (bits v 21 35 * 2 ^ 21) }
  else s

/-- REGISTER_WRITE (R7, R410, R418): a host write to a register with no row of its own; in recovery only the identity page and the mailbox
answer, and APSTAT takes writes of the owner only (R458). -/
def execRegisterWrite (port : BitVec 3) (off : Nat) (value : BitVec 64) (s : State) : Host.Outcome State Fault Refusal :=
  let p := s.ch.plat
  let answers := p.powered && !p.leaseOpen && (!p.recovery || decide (off < 0x1000 ∨ (0x3800000 ≤ off ∧ off < 0x3810000)))
  if !answers || !s.ch.hostPort port then .next s
  else if s.ch.mayWrite port && (off != 0x58 || s.ch.owns port) then .next (s.putRegister off value)
  else .next { s with ch := s.ch.dropWrite }

/-! Reads of BAR0 (R7, R409, R458). -/

/-- Eight bytes of a byte string as a word; beyond its end it reads zero. -/
def wordAt (bs : List Byte) (off : Nat) : BitVec 64 := BitVec.ofNat 64 (field bs off 8)

/-- The identity page (R458). -/
def Platform.identity (p : Platform) : List Byte :=
  Config.order ++ leBytes 16 Config.serial.toNat ++ (List.range 48).map (fun k => nth 0 fmDigest k) ++ leBytes 8 p.dropped
    ++ leBytes 8 p.apstat

/-- A word of the curator error log's ring: entry `n` since the log was cleared stands in place `n` modulo the places of the ring (log entry 83). -/
def Platform.logWord (p : Platform) (k : Nat) : BitVec 64 :=
  let store (x : Store) : Nat := match x with
    | .bench => 0
    | .stratum => 1
    | .accumulator => 2
    | .marks => 3
    | .bucket => 4
    | .memory => 5
  let oldest := p.logCount - p.log.length
  match p.log[(k / 2 + logRing - oldest % logRing) % logRing]? with
  | some e => Config.logHalf (k % 2) (store e.store, e.addr, e.syndrome.toNat)
  | none => 0

/-- A queue descriptor as a host reads it: its reserved fields, CTL[7:4] and bytes 21 to 23 and 40 to 63, read zero (R8, R366; log entry 96). -/
def descRead (d : List Byte) : List Byte :=
  (List.range 40).map fun k => if k = 20 then (nth 0 d 20).extractLsb' 0 4 |>.setWidth 8 else if 20 < k ∧ k < 24 then 0 else nth 0 d k

/-- The word of BAR0 at an offset that is a multiple of 8, as a host reads it (R7, R8, R409): write-only registers, reserved fields and
offsets that name nothing read zero. The scrub certificate stands in the last 4 KiB of the mailbox (log entry 83). -/
def Chip.bar0 (c : Chip) (off : Nat) : BitVec 64 :=
  let p := c.plat
  if off < 0x1000 then wordAt p.identity off
  else if off = 0x1000 then BitVec.ofNat 64 p.devstat
  else if 0x2000 ≤ off ∧ off < 0x2800 then nth 0 p.memStatus ((off - 0x2000) / 8)
  else if 0x3000 ≤ off ∧ off < 0x30C0 then nth 0 p.tar ((off - 0x3000) / 8)
  else if 0x4000 ≤ off ∧ off < 0x5000 then
    BitVec.ofNat 64 ((List.range 64).foldl (fun n b => n + cond (c.queue (8 * (off - 0x4000) + b)).err (2 ^ b) 0) 0)
  else if 0x8000 ≤ off ∧ off < 0xC000 then p.logWord ((off - 0x8000) / 8)
  else if 0x1000000 ≤ off ∧ off < 0x1200000 then wordAt (descRead (c.queue ((off - 0x1000000) / 64)).desc) (off % 64)
  else if 0x2000008 ≤ off ∧ off < 0x2080000 then BitVec.ofNat 64 (c.counter ((off - 0x2000000) / 8))
  else if off = 0x3000008 then BitVec.ofNat 64 p.certCount
  else if 0x3001000 ≤ off ∧ off < 0x3002000 then
    let k := (off - 0x3001000) / 64
    let oldest := p.certCount - p.certs.length
    wordAt (nth [] p.certs ((k + 64 - oldest % 64) % 64)) (off % 64)
  else if 0x3800000 ≤ off ∧ off < 0x380F000 then wordAt p.mailbox (off - 0x3800000)
  else if 0x380F000 ≤ off ∧ off < 0x3810000 then wordAt p.lastCert (off - 0x380F000)
  else if off = 0x3C00000 then p.apasr
  else if off = 0x3C00008 then p.apbase
  else 0

/-- BAR0 answers a read: in recovery at the identity page, DEVSTAT and the mailbox only (R418), and during a lease reset at the first two
(R422). -/
def Platform.answersRead (p : Platform) (off : Nat) : Bool :=
  p.powered && (decide (off ≤ 0x1000) || (!p.leaseOpen && (!p.recovery || decide (0x3800000 ≤ off ∧ off < 0x3810000))))

/-- A host port reads a word of BAR0. A read at any other offset or of another width is none of the model (log entry 96). -/
def State.bar0Read (s : State) (port : BitVec 3) (off : Nat) : State :=
  if off % 8 = 0 ∧ s.ch.hostPort port ∧ s.ch.plat.answersRead off then s.emit [.data (leBytes 8 (s.ch.bar0 off).toNat)] else s

/-- A host port reads a word of BAR2: the tail of a queue, as the host last wrote it (R367, R409, R410). Tails stand 64 bytes apart, and what is between
them reads zero. -/
def State.bar2Read (s : State) (port : BitVec 3) (off : Nat) : State :=
  if off % 8 = 0 ∧ off < 0x200000 ∧ s.ch.hostPort port ∧ s.ch.served then
    s.emit [.data (leBytes 8 (if off % 64 = 0 then (s.ch.queue (off / 64)).tail else 0))]
  else s

/-! The management port. -/

/-- STATUS: DEVSTAT, the open service requests, each by its row and what it is about, the TAR of every island (log entry 60); a status read is not
refused during a lease reset. -/
def execStatus (s : State) : Host.Outcome State Fault Refusal :=
  let p := s.ch.plat
  if p.powered then
    .next (s.emit [.data (leBytes 8 p.devstat ++ p.services.flatMap (fun r => leBytes 1 r.1 ++ leBytes 2 r.2) ++ p.tar.flatMap fun w => leBytes 8 w.toNat)])
  else .next s

/-- The attestation report (R420), its items in the order of the rule. -/
def Platform.report (p : Platform) (nonce : List Byte) : List Byte :=
  leBytes 16 Config.serial.toNat ++ leBytes 1 nonce.length ++ nonce ++ sha384 p.running ++ leBytes 2 (Config.imageVersion p.running)
    ++ leBytes 2 p.minVersion ++ fmDigest ++ leBytes 8 p.leaseCtr ++ leBytes 8 p.scrubSeq
    ++ p.ports.map (BitVec.ofNat 8) ++ leBytes 8 p.devstat

/-- ATTEST (R420, R421): a nonce of 1 to 32 bytes is answered to the management port, or in the mailbox of a host port. -/
def execAttest (port : Option (BitVec 3)) (nonce : List Byte) (s : State) : Host.Outcome State Fault Refusal :=
  let ok := decide (1 ≤ nonce.length ∧ nonce.length ≤ 32)
  let make : State × List Byte := s.signed (s.ch.plat.report nonce)
  match port with
  | none => s.managed fun _ => if ok then make.1.emit [.data make.2] else s.emit [.result 3]
  | some p =>
    if ok && s.ch.plat.powered && !s.ch.plat.leaseOpen && s.ch.hostPort p then
      .next (make.1.setPlat fun q => { q with mailbox := putMailbox q.mailbox 0 make.2 })
    else .next s

/-- PORTMODE (R408): modes that take effect at the next cold start; bit k is port k + 1, 1 for a peer port. -/
def execPortmode (modes : BitVec 5) (s : State) : Host.Outcome State Fault Refusal :=
  s.managed fun s => s.setPlat fun p => { p with portsNext := 0 :: (List.range 5).map fun k => cond (modes.getLsbD k) 1 0 }

/-- SVNRAISE: the fused minimum rises to the version of the flash image. -/
def execSvnraise (s : State) : Host.Outcome State Fault Refusal :=
  s.managed fun s => s.setPlat fun p => { p with minVersion := max p.minVersion (Config.imageVersion p.flash) }

/-! Routing (R413, R414). -/

/-- The packages that are to report: those of the connected group, and this one. -/
def Platform.members (p : Platform) : List (BitVec 12) := (p.pkgNum.toList ++ p.fabGroup).eraseDups

/-- The packets in flight: context, number, and how often each has been sent. -/
def Platform.flight (p : Platform) : List (Nat × BitVec 16 × Nat) :=
  (p.ctxs.filter fun x => x.sender && !x.closed).flatMap fun x => x.window.map fun w => (x.id, w.1, w.2.2.2)

/-- The packets of the old generation that are still in flight: sent before the commit, not acknowledged, and not sent again since (R414). -/
def Platform.oldCount (p : Platform) : Nat := (p.oldFlight.filter fun x => p.flight.contains x).length

/-- A member's count is noted; when every member has reported zero the old table is retired. -/
def Platform.noteReport (p : Platform) (member : BitVec 12) (count : Nat) : Platform :=
  let reports := p.reports.map fun (r : BitVec 12 × Nat) => if r.1 = member then (member, count) else r
  if reports.all fun r => r.2 == 0 then { p with reports := [], oldFlight := [], retiring := false } else { p with reports := reports }

/-- This package reports its count of packets of the old generation to the other members of its group, whenever it has changed (step 3 of R414). -/
def Chip.reportOld (c : Chip) : Chip :=
  match c.plat.pkgNum with
  | none => c
  | some me =>
    let n := c.plat.oldCount
    if !c.plat.retiring || c.plat.reports.lookup me == some n then c
    else { c with plat := c.plat.noteReport me n, out := c.out ++ ((c.plat.members.filter fun m => m != me).map fun m => .report m n) }

/-- FABRIC (R413, R414, R419, R425): number and group, the inactive table, or the commit: the tables change places, new packets carry the new
generation, and fibres that are down are avoided; the packages of the group report how many packets of the old one are in flight. A commit before the
old table is retired is refused. -/
def execFabric (cmd : FabricCmd) (s : State) : Host.Outcome State Fault Refusal :=
  s.managed fun s =>
    match cmd with
    | .number pkg group => s.setPlat fun p => { p with pkgNum := some pkg, fabGroup := group }
    | .table entries => s.setPlat fun p => { p with routesNew := entries }
    | .commit =>
      if s.ch.plat.retiring then s.emit [.result 3]
      else
        let t := s.setPlat fun p =>
          { p with routes := p.routesNew.filter (fun r => !p.fibres.contains r.2), routesNew := p.routes, generation := 1 - p.generation,
                   retiring := !p.members.isEmpty, reports := p.members.map fun m => (m, p.flight.length + 1), oldFlight := p.flight }
        { t with ch := t.ch.reportOld }

/-- ROUTING_REPORT (R414): another member's count of packets of the old generation. -/
def execRoutingReport (member : BitVec 12) (count : Nat) (s : State) : Host.Outcome State Fault Refusal :=
  if !s.ch.plat.retiring || s.ch.plat.pkgNum == some member then .next s
  else .next (s.setPlat fun p => p.noteReport member count)

/-- FIBRE_DOWN (R425): a service request opens; routing avoids the fibre after the next commit. -/
def execFibreDown (fibre : Nat) (s : State) : Host.Outcome State Fault Refusal :=
  if 128 ≤ fibre ∨ s.ch.plat.fibres.contains fibre then .next s
  else
    let s1 := s.setPlat fun p => { p with fibres := fibre :: p.fibres }
    .next { s1 with ch := s1.ch.openService 5 (64 + fibre) }

end Sys2Proof.Machine
end

