-- ==== Sys2Proof/Machine/Control.lean ====
section
/-! DEFINITION. The common control block (R225, R254 to R262): branches, jumps, loops, `done` and `nop`, in any cluster. -/

namespace Sys2Proof.Machine

/-- A step of R223 as a precise fault. -/
def decodeFault (e : DecodeError) : TrapReq :=
  match e with
  | .illegalInstruction => { cause := 0x01, step := 1 }
  | .illegalOperand => { cause := 0x02, step := 3 }

/-- The word of a stream image at a byte offset (R254). -/
def ClusterSt.wordAt (k : ClusterSt) (off : Nat) : Option Word := k.image[off / 4]?

def ClusterSt.imageLen (k : ClusterSt) : Nat := 4 * k.image.length

/-- The majors of the commands that accept a prefix (R109, R230, R232). -/
def depMajor (cl : Cluster) (w : Word) : Bool :=
  let m := bits w.toNat 24 6
  match cl with
  | .g => [12, 13, 14, 16, 18, 22, 23, 24, 25].contains m
  | .m => decide (4 ≤ m ∧ m ≤ 14)
  | _ => false

/-- The words at an offset and after it are a pair: a `dep` prefix and a command, or an `lsplit` and a `loop` (R237, R259). -/
def ClusterSt.pairAt (k : ClusterSt) (cl : Cluster) (off : Nat) : Bool :=
  match (k.wordAt off).map (decodeWord cl), k.wordAt (off + 4) with
  | some (.ok (.dep ..)), some w => depMajor cl w
  | some (.ok (.lsplit ..)), some w => bits w.toNat 24 6 == 0x3B
  | _, _ => false

/-- The target of a branch or jump passes R254: alignment (`jr`), the image, the second word of a pair, the innermost loop
body (R192). -/
def checkTarget (k : ClusterSt) (cl : Cluster) (t : Int) : Except TrapReq Nat :=
  if t % 4 ≠ 0 then .error { cause := 0x13, step := 1 }
  else if t < 0 ∨ (k.imageLen : Int) ≤ t then .error { cause := 0x14, step := 2 }
  else
    let n := t.toNat
    if 4 ≤ n ∧ k.pairAt cl (n - 4) then .error { cause := 0x01, step := 3 }
    else match k.loops with
      | l :: _ => if l.body ≤ n ∧ n < l.body + 4 * l.len then .ok n else .error { cause := 0x01, step := 4 }
      | [] => .ok n

/-- A jump to a target, with the link written when the target passes. -/
def jumpTo (s : State) (σ : Strand) (t : Int) (f : Strand → Strand) : Res :=
  match checkTarget (σ.cl s.ch.turn.cl) s.ch.turn.cl t with
  | .ok n => .go (Eff.quiet (s.ch.modStrand s.ch.turn.pos f)) (some n)
  | .error e => .trap e

/-- The conditions of R225. -/
def condHolds (c : BitVec 3) (a b : Reg) : Bool :=
  match c.toNat with
  | 0 => a == b
  | 1 => a != b
  | 2 => decide (a.toInt < b.toInt)
  | 3 => decide (b.toInt ≤ a.toInt)
  | 4 => decide (a.toNat < b.toNat)
  | _ => decide (b.toNat ≤ a.toNat)

def execBranch (a b : BitVec 5) (c : BitVec 3) (o : BitVec 11) (s : State) : Host.Outcome State Fault Refusal :=
  let cl := s.ch.turn.cl
  issue s [localName cl a.toNat, localName cl b.toNat] fun σ =>
    if condHolds c (σ.local cl a.toNat) (σ.local cl b.toNat) then
      jumpTo s σ ((σ.cl cl).pc + 4 * o.toInt) id
    else onStrand s id

def execJal (d : BitVec 5) (o : BitVec 19) (s : State) : Host.Outcome State Fault Refusal :=
  let cl := s.ch.turn.cl
  issue s [] fun σ => jumpTo s σ ((σ.cl cl).pc + 4 * o.toInt) fun σ2 =>
    σ2.setLocal cl d.toNat (BitVec.ofNat 64 ((σ.cl cl).pc + 4))

def execJr (a : BitVec 5) (s : State) : Host.Outcome State Fault Refusal :=
  let cl := s.ch.turn.cl
  issue s [localName cl a.toNat] fun σ => jumpTo s σ ((σ.local cl a.toNat).toNat : Int) id

/-- A stage boundary field (R226). -/
def boundary (len : Nat) (f : BitVec 8) : Nat := if len = 256 ∧ f = 0 then 256 else f.toNat

/-- A word that a pipelined body may not hold: a loop, a branch, a jump or a sync-marked word (R192), whether its register fields pass step 3 of
R223 or not. -/
def barredInPipeline (cl : Cluster) (w : Word) : Bool :=
  wordSync w || match rawDecode cl w.toNat with
    | some (.loop ..) => true
    | some (.branch ..) => true
    | some (.jal ..) => true
    | some (.jr ..) => true
    | _ => false

/-- The start of a loop (R190, R192, R257, R258): operand limits, structural rules in the order of R192, the image, and the new
level. `bounds` are the fields of the `lsplit` before it. -/
def startLoop (s : State) (σ : Strand) (l : BitVec 2) (c : BitVec 5) (n : BitVec 8) (t : BitVec 2)
    (bounds : Option (BitVec 8 × BitVec 8 × BitVec 8)) : Res :=
  let cl := s.ch.turn.cl
  let k := σ.cl cl
  let count := σ.local cl c.toNat
  let len := n.toNat + 1
  let stages := t.toNat + 1
  let body := k.pc + s.ch.turn.size
  let (b1, b2, b3) := match bounds with
    | some (x, y, z) => (boundary len x, boundary len y, boundary len z)
    | none => (len, len, len)
  let boundsOk := decide (b1 ≤ b2 ∧ b2 ≤ b3 ∧ b3 ≤ len) && (decide (2 ≤ stages) || b1 == len) && (decide (3 ≤ stages) || b2 == len)
    && (decide (4 ≤ stages) || b3 == len) && (bounds.isSome || stages == 1)
  if l = 3 then faulty 0x02
  else if count.toNat / 2 ^ 32 ≠ 0 then faulty 0x02
  else if k.loops.any (fun x => x.ctr == l.toNat) then faulty 0x02
  else if 3 ≤ k.loops.length then faulty 0x01
  else if (match k.loops with
      | x :: _ => decide (x.body + 4 * x.len < body + 4 * len)
      | [] => false) then faulty 0x01
  else if 1 < stages ∧ ((List.range len).any fun i => match k.wordAt (body + 4 * i) with
      | some w => barredInPipeline cl w
      | none => false) then faulty 0x01
  else if !boundsOk then faulty 0x01
  else if k.imageLen < body + 4 * len then .trap { cause := 0x14 }
  else
    let level : LoopLevel :=
      { ctr := l.toNat, n := count.toNat, start := 0, stop := count.toNat, p := 0, body := body, len := len, stages := stages,
        b1 := b1, b2 := b2, b3 := b3, brk := false, broken := false, drained := false }
    let lc (x : ClusterSt) : List (BitVec 32) := setNth 0 x.lc l.toNat 0
    if count = 0 then
      .go (Eff.quiet (s.ch.modStrand s.ch.turn.pos fun σ2 => σ2.modCl cl fun x => { x with lc := lc x })) (some (body + 4 * len))
    else
      .go (Eff.quiet (s.ch.modStrand s.ch.turn.pos fun σ2 => σ2.modCl cl fun x => { x with lc := lc x, loops := level :: x.loops }))
        none

def execLoop (l : BitVec 2) (c : BitVec 5) (n : BitVec 8) (t : BitVec 2) (s : State) : Host.Outcome State Fault Refusal :=
  issue s [localName s.ch.turn.cl c.toNat] fun σ => startLoop s σ l c n t none

/-- The fields of a `loop`: counter, count register, length and stages. -/
def loopFields (i : Instr) : Option (BitVec 2 × BitVec 5 × BitVec 8 × BitVec 2) :=
  match i with
  | .loop l cnt n t => some (l, cnt, n, t)
  | _ => none

/-- `lsplit` and the `loop` after it issue as one pair (R259). A `loop` that its decoder does not accept gives the pair its own cause (R111,
R223, R258; log entry 92). -/
def execLsplit (a b c : BitVec 8) (s : State) : Host.Outcome State Fault Refusal :=
  match s.ch.strand? s.ch.turn.pos with
  | none => .fault .noStrand
  | some σ0 =>
    let cl := s.ch.turn.cl
    let k := σ0.cl cl
    let alone : Host.Outcome State Fault Refusal := issue s [] fun _ => faulty 0x01
    match k.wordAt (k.pc + 4) with
    | none => alone
    | some w2 =>
      match decodeWord cl w2 with
      | .error e => issue s [] fun _ => .trap (if bits w2.toNat 24 6 = 0x3B then decodeFault e else { cause := 0x01 })
      | .ok i => match loopFields i with
      | some (l, cnt, n, t) =>
        if wordSync w2 || wordHold w2 then alone
        else
          let s2 := { s with ch := { s.ch with turn := { s.ch.turn with word := w2, pfx := some s.ch.turn.word } } }
          issue s2 [localName cl cnt.toNat] fun σ => startLoop s2 σ l cnt n t (some (a, b, c))
      | none => alone

/-- `lbrk` marks the innermost loop for exit at the next pass boundary (R260). -/
def execLbrk (s : State) : Host.Outcome State Fault Refusal :=
  let cl := s.ch.turn.cl
  issue s [] fun σ =>
    if (σ.cl cl).loops.isEmpty then faulty 0x01
    else onStrand s fun σ2 => σ2.modCl cl fun k => match k.loops with
      | l :: ls => { k with loops := { l with brk := true } :: ls }
      | [] => k

/-- `done` ends the cluster (R179, R261). -/
def execDone (s : State) : Host.Outcome State Fault Refusal :=
  let cl := s.ch.turn.cl
  issue s [] fun σ =>
    if wordHold s.ch.turn.word || !(σ.cl cl).loops.isEmpty then faulty 0x01
    else onStrand s fun σ2 => σ2.modCl cl fun k => { k with ended := true }

def execNop (s : State) : Host.Outcome State Fault Refusal := issue s [] fun _ => onStrand s id

end Sys2Proof.Machine
end

