-- ==== Sys2Proof/Machine/Frame.lean ====
section
/-! DEFINITION. The context area: the trap frame and its parts (R388, R394 to R397, R279, R305), written and read back, and
`resume` (R267, R398). -/

namespace Sys2Proof.Machine

/-- The words of a list of registers. -/
def regBytes (l : List (BitVec 64)) : List Byte := l.flatMap fun v => leBytes 8 v.toNat

/-- The operation a cluster stands at, blocked. -/
def Chip.blockOp? (c : Chip) (k : ClusterSt) : Option Op := k.blocked.bind c.op?

/-- An operation that keeps its V cluster and has issued: a sweep on its way through its pages, or the rows of a `vpop` or `vpush`. -/
def Op.underWay (o : Op) : Bool :=
  (sweepForm o.instr).isSome || (match o.instr with
    | .vpop .. => true
    | .vpush .. => true
    | _ => false)

/-- The return point of a cluster (R392): the word it waits at, or its next unissued word. -/
def Chip.returnPoint (c : Chip) (k : ClusterSt) : Nat :=
  match c.blockOp? k with
  | some o => if o.underWay then k.pc else o.at
  | none => k.pc

/-! Parts of the frame. -/

/-- The header (R396). `kind` and `flags` are those of a trap or of a save. -/
def headerBytes (σ : Strand) (t : TrapInfo) (flags : Nat) : List Byte :=
  leBytes 8 (t.cause.toNat + 2 ^ 8 * t.kind.toNat + 2 ^ 16 * clNum t.cluster + 2 ^ 24 * t.step.toNat + 2 ^ 32 * t.qual.toNat
      + 2 ^ 40 * flags + 2 ^ 48 * t.code.toNat)
    ++ leBytes 8 t.value.toNat ++ leBytes 8 t.mmx.toNat ++ leBytes 8 t.cycle ++ leBytes 8 σ.who.job.toNat
    ++ leBytes 4 (σ.who.unit.toNat + 2 ^ 24 * σ.who.strand + 2 ^ 26 * (σ.pos % 4)) ++ List.replicate 20 0

/-- KIND of a scoreboard entry (R397). -/
def scoreKind (i : Instr) : Nat :=
  match engineOf i with
  | some .bucket => 0
  | some .tile => 0
  | some .drain => 0
  | some .streamer => 1
  | some .screen => 2
  | some .link => 3
  | some .collective => 0
  | none => match i, cForm i with
    | .sbind .., _ => 6
    | _, some (.atomic ..) => 5
    | _, _ => 4

/-- A scoreboard entry and its operand block (R397). -/
def scoreBytes (o : Op) (e : Score) : List Byte :=
  leBytes 4 (1 + 2 ^ 8 * scoreKind o.instr + 2 ^ 16 * e.cause.toNat
      + 2 ^ 24 * (clNum o.cl + 4 * odStream (o.od.getD odFresh)))
    ++ leBytes 4 o.seq.toNat ++ leBytes 4 o.word.toNat ++ leBytes 4 (o.pfx.getD 0).toNat
    ++ o.need.flatMap (fun n => leBytes 2 n.toNat) ++ List.replicate 24 0 ++ leBytes 4 o.credited ++ List.replicate 4 0

/-- The register operands of an operation in field order from bit 23 downwards (R397): `bfin` has two, its token factor is none; a sweep has none of
64 bits. -/
def Op.operands (o : Op) : List Reg :=
  let base := (o.locs.head?.map Loc.ptr).getD 0
  if (sweepForm o.instr).isSome then [] else
  match cForm o.instr, o.instr with
  | some (.store ..), _ => [nth 0 o.vals 0, base]
  | some (.atomic _ _ none), _ => [base, nth 0 o.vals 0]
  | _, .sbind .. => []
  | _, .bfin .. => o.vals.take 2
  | _, _ => o.vals

def operandBytes (o : Op) : List Byte := (List.range 5).flatMap fun k => leBytes 8 (nth 0 o.operands k).toNat

/-- The arrival of an `hbar` that waits has been made (R133). -/
def Op.arrived (o : Op) : Bool :=
  match hbarForm o.instr with
  | some (_, w) => w && o.progress == 1
  | none => false

/-- The phase in which a unit last arrived at the barrier that an operation waits at (R133). -/
def Chip.arrivalPhase (c : Chip) (σ : Strand) (o : Op) : Nat :=
  match hbarForm o.instr, c.unitOf? σ with
  | some (scope, _), some u => match o.taken.lookup 0 with
    | some p => p.toNat
    | none => ((c.hbars.find? fun h => h.job == o.job && h.scope == scope && h.site == hbarSite u scope).bind fun h => h.last.lookup u.num).getD 0
  | _, _ => 0

/-- An entry of the waiting list (R279; log entry 28): a mark, whether its arrival has been made, cluster and stream; sequence number and the
phase of the unit's last arrival (R133); word, descriptor and need values (R117). -/
def waitBytes (c : Chip) (σ : Strand) (o : Op) : List Byte :=
  leBytes 4 (1 + cond o.arrived 2 0 + 2 ^ 24 * (clNum o.cl + 4 * odStream (o.od.getD odFresh))) ++ leBytes 2 o.seq.toNat
    ++ leBytes 2 (c.arrivalPhase σ o) ++ leBytes 4 o.word.toNat ++ leBytes 4 (o.od.getD odFresh).toNat
    ++ (List.range 8).flatMap fun k => leBytes 2 (nth 0 o.need k).toNat

/-- The entry of an `hbar.aw` that was taken back after its arrival: it has no sequence number (R133; log entry 28). -/
def Strand.arrivedBytes (σ : Strand) (x : Nat × Nat × BitVec 14) : List Byte :=
  leBytes 4 (3 + 2 ^ 24 * (4 * odStream x.2.2)) ++ leBytes 2 0 ++ leBytes 2 x.2.1 ++ leBytes 4 ((σ.c.wordAt x.1).getD 0).toNat
    ++ leBytes 4 x.2.2.toNat ++ List.replicate 16 0

/-- The state of a stream register (R305; log entry 28): with EXPAND its sixteen entries are the packed bytes, and the entries expanded and
not yet taken stand before the runs to be skipped. -/
def bindingBytes (b : Option Binding) : List Byte :=
  match b with
  | none => List.replicate 2048 0
  | some b =>
    let bad := match b.bad, b.stuck with
      | some (k, x), _ => leBytes 4 (k + 1) ++ leBytes 4 x.1.toNat ++ leBytes 8 x.2.1.toNat ++ leBytes 8 x.2.2.toNat
      | none, some x => leBytes 4 0 ++ leBytes 4 x.1.toNat ++ leBytes 8 x.2.1.toNat ++ leBytes 8 x.2.2.toNat
      | none, none => List.replicate 24 0
    let entries (n : Nat) : List Byte := (List.range n).flatMap fun k => leBytes 64 ((b.queue[k]?.map Prod.snd).getD 0).toNat
    let runs (n : Nat) : List Byte :=
      (List.range n).flatMap fun k => (b.skips[k]?.map fun x => leBytes 4 x.1 ++ leBytes 4 x.2).getD (List.replicate 8 0)
    leBytes 8 (1 + (if b.dir = .output then 2 else 0)) ++ leBytes 8 b.pos ++ leBytes 8 b.claimed ++ leBytes 8 b.total
      ++ leBytes 8 b.bytePos ++ bad ++ leBytes 64 b.iter.toNat ++ leBytes 32 b.chain.toNat
      ++ (if b.expands then entries 7 ++ runs 52 ++ b.packed.take 1024 ++ List.replicate (1024 - b.packed.length) 0 else runs 108 ++ entries 16)

/-- A loop level (R395). -/
def loopBytes (l : LoopLevel) : List Byte :=
  leBytes 4 l.n ++ leBytes 4 l.start ++ leBytes 4 l.stop ++ leBytes 8 l.p ++ leBytes 4 l.body
    ++ leBytes 4 (l.ctr + 4 + cond l.drained 8 0 + 2 ^ 8 * (l.stages - 1) + 2 ^ 16 * (l.len - 1) + 2 ^ 24 * (l.b1 % 256))
    ++ leBytes 4 (l.b2 % 256 + 2 ^ 8 * (l.b3 % 256))

/-- The loops of a cluster, outermost first. -/
def loopsBytes (k : ClusterSt) : List Byte :=
  let l := k.loops.reverse
  (List.range 3).flatMap fun n => (l[n]?.map loopBytes).getD (List.replicate 32 0)

def snapBytes (x : Snap) : List Byte :=
  regBytes x.s ++ x.od.flatMap (fun d => leBytes 2 d.toNat) ++ List.replicate 112 0

/-- The last-result values that a strand keeps with an open hold group, and who pushed each (R189; log entry 28). -/
def Strand.latchBytes (σ : Strand) : List Byte :=
  (List.range 4).flatMap fun k => leBytes 1024 (((σ.trap.latch[k]?.filter fun l => l.pos == σ.pos).map Latch.val).getD 0).toNat

def Strand.latchOwners (σ : Strand) : List Byte :=
  (List.range 4).flatMap fun k =>
    leBytes 4 (((σ.trap.latch[k]?.filter fun l => l.pos == σ.pos).map fun l => 2 ^ 31 + 4 * (l.group % 2 ^ 24) + l.pos % 4).getD 0)

/-- A record register as its frame field holds it. -/
def optNat {n : Nat} (r : Option (BitVec n)) : Nat :=
  match r with
  | some v => v.toNat
  | none => 0

/-- The fields of the frame (R394), by offset. -/
def frameParts (s : State) (σ : Strand) (t : TrapInfo) (flags : Nat) : List (Nat × List Byte) :=
  let ks := [σ.c, σ.g, σ.m, σ.v]
  let owner := (s.ch.core (coreOf σ.pos)).bucket.owner == some (σ.pos % 4)
  let held := σ.trap.score.filterMap fun e => (s.ch.op? e.op).map fun o => (e, o)
  let waits := ((s.ch.ops.filter fun o => o.pos == σ.pos && o.status == .waiting).map (waitBytes s.ch σ)) ++ (σ.trap.arrived.map σ.arrivedBytes).toList
  [(0x0, headerBytes σ t flags),
   (0x40, ks.flatMap fun k => leBytes 8 (s.ch.returnPoint k)),
   (0x60, (ks.flatMap fun k => leBytes 4 k.group) ++ σ.latchOwners),
   (0x80, ks.flatMap fun k => (List.range 8).flatMap fun n => leBytes 8 (k.word n).toNat),
   (0x180, (List.range 16).flatMap fun k => leBytes 8 (if k = 0 then 0 else (σ.token k).word.toNat)),
   (0x200, σ.od.flatMap fun d => leBytes 2 d.toNat),
   (0x210, regBytes [σ.mr.mflags.setWidth 64, σ.vr.vmode.setWidth 64, σ.trap.trapen.setWidth 64, σ.vr.vsh, s.ch.bucketWord σ, 0]),
   (0x240, ((σ.vr.p.drop 1).take 7).flatMap (fun p => leBytes 8 p.toNat) ++ List.replicate 8 0),
   (0x280, σ.vr.vflags.flatMap fun f => leBytes 1 f.toNat),
   (0x300, regBytes σ.s),
   (0x400, snapBytes σ.gr.snap ++ snapBytes σ.mr.snap ++ snapBytes σ.vr.snap),
   (0x880, regBytes (σ.gr.g ++ σ.mr.m ++ σ.vr.x)),
   (0x940, List.replicate 192 0),
   (0xA00, σ.gr.gi.flatMap fun r => leBytes 64 (optNat r)),
   (0xC00, σ.gr.ch.flatMap fun r => leBytes 32 (optNat r)),
   (0xC80, (σ.vr.vi.flatMap fun r => leBytes 64 (optNat r)) ++ σ.vr.viPos.flatMap fun n => leBytes 8 n),
   (0x1000, (List.range 64).flatMap fun k => match held.find? fun e => e.1.entry == k with
      | some (e, o) => scoreBytes o e
      | none => List.replicate 64 0),
   (0x2000, (List.range 256).flatMap fun k => (waits[k]?).getD (List.replicate 32 0)),
   (0x4000, σ.gr.q.flatMap bindingBytes),
   (0x8000, σ.vr.v.flatMap fun x => leBytes 1024 x.toNat),
   (0x10000, σ.vr.o.flatMap fun x => leBytes 1024 x.toNat),
   (0x12000, σ.latchBytes),
   (0x13400, ks.flatMap loopsBytes),
   (0x13580, List.replicate 128 0),
   (0x13600, (List.range 64).flatMap fun k => match held.find? fun e => e.1.entry == k with
      | some (_, o) => operandBytes o
      | none => List.replicate 40 0)]
    ++ (if owner then [(0x14000, memBytes s.mem (bucketAt (coreOf σ.pos)) 65536)] else [])

/-- The frame at a context area. -/
def frameWrites (s : State) (σ : Strand) (area : Nat) (t : TrapInfo) (flags : Nat) : List (Nat × List Byte) :=
  (frameParts s σ t flags).map fun w => (area + w.1, w.2)

/-- A context area of 0x2_4000 bytes leaves the quad's cache as it is written, and its words take fresh check bits (R51, R69). -/
def Chip.areaWritten (c : Chip) (quad area : Nat) : Chip :=
  let inside (l : Line) : Bool := l.quad == quad && l.home.isNone && decide (area ≤ 128 * l.line ∧ 128 * l.line < area + 0x24000)
  { c with side := c.side.rewritten area 0x24000, xl := { c.xl with lines := c.xl.lines.filter fun l => !inside l } }

/-! The fields that `resume` takes from the frame (R394). -/

/-- `n` registers of `w` bytes at an offset of a context area. -/
def frameRegs (mem : List Host.Cell) (at_ w n : Nat) : List Nat :=
  let bs := memBytes mem at_ (w * n)
  (List.range n).map fun k => leNat ((bs.drop (w * k)).take w)

/-- A record register after `resume`: as it was when its field is as written or holds no record that may be loaded (log entry 91), and loaded with
the field otherwise. -/
def frameOpt {n : Nat} (ok : BitVec n → Bool) (old : Option (BitVec n)) (v : Nat) : Option (BitVec n) :=
  if optNat old = v ∨ ok (BitVec.ofNat n v) = false then old else some (BitVec.ofNat n v)

def zipOpt {n : Nat} (ok : BitVec n → Bool) (old : List (Option (BitVec n))) (vs : List Nat) : List (Option (BitVec n)) :=
  (List.range old.length).map fun k => frameOpt ok (nth none old k) (nth 0 vs k)

/-- The registers of a strand as its frame holds them. A descriptor's field with a scope that no descriptor can hold, a `vsh` field that the `vsh`
instruction refuses, and an iterator record that `itld` or `viset` refuses are not taken (R92, R198, R342; log entry 91), and SAT of a lane's flags stays 0 (R215). -/
def Strand.fromFrame (σ : Strand) (mem : List Host.Cell) (area : Nat) : Strand :=
  let words (off n : Nat) : List (BitVec 64) := (frameRegs mem (area + off) 8 n).map (BitVec.ofNat 64)
  let modes := words 0x210 4
  { σ with
    s := words 0x300 32, od := (List.range 8).map fun k =>
      let d := BitVec.ofNat 14 (nth 0 (frameRegs mem (area + 0x200) 2 8) k)
      if odScope d ≤ 4 then d else nth odFresh σ.od k,
    gr := { σ.gr with g := words 0x880 8, gi := zipOpt iterOk σ.gr.gi (frameRegs mem (area + 0xA00) 64 8),
                      ch := zipOpt (fun _ => true) σ.gr.ch (frameRegs mem (area + 0xC00) 32 4) },
    mr := { σ.mr with m := words 0x8C0 8, mflags := (nth 0 modes 0).setWidth 6 },
    vr := { σ.vr with x := words 0x900 8, v := (frameRegs mem (area + 0x8000) 1024 32).map (BitVec.ofNat 8192),
                      o := (frameRegs mem (area + 0x10000) 1024 8).map (BitVec.ofNat 8192),
                      vi := zipOpt iterOk σ.vr.vi (frameRegs mem (area + 0xC80) 64 8),
                      p := nth 0 σ.vr.p 0 :: (frameRegs mem (area + 0x240) 8 7).map (BitVec.ofNat 16),
                      vflags := (frameRegs mem (area + 0x280) 1 64).map fun n => BitVec.ofNat 6 (n % 32),
                      vmode := (nth 0 modes 1).setWidth 2, vsh := if vshOk (nth 0 modes 3) then nth 0 modes 3 else σ.vr.vsh },
    trap := { σ.trap with trapen := (nth 0 modes 2).setWidth 6 } }

/-- The check of a return point (R254, R394): inside the image and no second word of a pair; one the handler has changed also
inside the innermost loop body. -/
def pointCheck (k : ClusterSt) (cl : Cluster) (old new : Nat) : Option TrapReq :=
  if k.ended then none
  else if new = old then (if new < k.imageLen then none else some { cause := 0x14, step := 2 })
  else match checkTarget k cl new with
    | .ok _ => none
    | .error t => some t

/-- A cluster goes on at its return point. One that stood blocked at the word it returns to waits on; the operation of a word it
does not return to and that is no wait of R279 has not issued; the registers stay as the frame gives them. -/
def Chip.returnTo (c : Chip) (pos : Nat) (cl : Cluster) (new : Nat) : Chip :=
  match c.strand? pos with
  | none => c
  | some σ =>
    let k := σ.cl cl
    if k.ended ∨ new = c.returnPoint k then c
    else
      let c1 := match c.blockOp? k with
        | some o => if o.awaits || o.underWay then c else c.giveBack o
        | none => c
      let stays := (c.blockOp? k).any Op.underWay
      c1.modStrand pos fun τ => τ.modCl cl fun x =>
        { x with pc := new, released := false, past := 0, blocked := if stays then x.blocked else none }

/-- The settlement of one scoreboard entry (R106, R398): execution again under the same number, or discard. A command that runs again waits
for its unit; a `wsort` has kept the screen (R294, R320; log entry 80). -/
def settleEntry (again : Nat → Bool) (s : State) (e : Score) : State :=
  match s.ch.op? e.op with
  | none => s
  | some o =>
    let drop (c : Chip) : Chip := c.modStrand o.pos fun σ =>
      { σ with trap := { σ.trap with score := σ.trap.score.filter fun x => x.entry != e.entry } }
    if again e.entry then
      let copy := engineOf o.instr == some .streamer || engineOf o.instr == some .screen
      let restart (x : Op) : Op :=
        { x with status := if engineOf x.instr = some .screen then .started else .issued, resolved := some none, waits := [],
                 progress := if copy then 0 else x.progress, taken := if copy then [] else x.taken }
      { s with ch := drop (s.ch.modOp o.id restart) }
    else
      let unbind (c : Chip) : Chip := c.modStrand o.pos fun σ =>
        { σ with gr := { σ.gr with q := σ.gr.q.map fun b => match b with
            | some x => if x.op = o.id then none else some x
            | none => none } }
      let s1 := ({ s with ch := s.ch.dropClaims o } : State).discard o e.cause
      ({ s1 with ch := drop (unbind s1.ch) } : State).afterEnd o

/-- The strand as `resume` leaves it, before settlement: the fields of its frame, the clusters at their return points, operations
recorded as waiting issued again, stream errors forgotten, the registers that awaited a value awaiting it again, and user mode (R267, R279,
R389, R394). -/
def Chip.restored (c : Chip) (σ : Strand) (mem : List Host.Cell) (points : List Nat) : Chip :=
  let own (x : Strand) : Strand :=
    { x.fromFrame mem (ctxArea σ.pos) with
      c := { x.trap.savedC.getD x.c with streams := x.c.streams.map fun y => { y with held := false } },
      busy := x.busy.filter (fun b => !b.reg.isS) ++ x.trap.busy }
  let calm (k : ClusterSt) : ClusterSt := { k with streams := k.streams.map fun y => { y with held := false } }
  let back (x : Strand) : Strand :=
    { own x with
      g := calm x.g, m := calm x.m, v := calm x.v,
      gr := { (own x).gr with q := x.gr.q.map fun b => b.map fun y => { y with bad := none, stuck := none } },
      trap := { (own x).trap with phase := .run, savedC := none, busy := [], noted := 0, info := TrapInfo.fresh, pend := x.trap.pend || x.trap.asked,
                                  asked := false } }
  let c1 := c.modStrand σ.pos back
  let wake (o : Op) : Op :=
    if o.pos == σ.pos && o.status == .waiting then
      { o with status := .issued, progress := if qualified o.instr then 0 else o.progress }
    else o
  let c2 : Chip := { c1 with ops := c1.ops.map wake }
  let c3 := [Cluster.c, .g, .m, .v].foldl (fun d cl => d.returnTo σ.pos cl (nth 0 points (clNum cl))) c2
  (c3.modStrand σ.pos fun x => match x.vr.part with
    | some (at_, _) => if at_ = x.v.pc then x else { x with vr := { x.vr with part := none } }
    | none => x).modCore (coreOf σ.pos) fun k => k.serve .c (σ.pos % 4) false

/-- `resume` (R267): privileged; a mask bit that names no pending entry and a return point that fails R254 are faults in privileged
mode (R390). Every entry is settled before the strand's next instruction issues. -/
def execResume (a : BitVec 5) (s : State) : Host.Outcome State Fault Refusal :=
  let t := s.ch.turn
  match s.ch.strand? t.pos with
  | none => .fault .noStrand
  | some σ =>
    let m := (σ.getS a.toNat).toNat
    let bad (r : TrapReq) : Host.Outcome State Fault Refusal := .next (s.trapTo s.ch t.pos t.cl r)
    if !σ.free [.s a.toNat] then .next s
    else if !σ.privileged then bad { cause := 0x04, step := 2 }
    else if (List.range 64).any (fun i => m.testBit i && σ.trap.score.all fun e => e.entry != i) then bad { cause := 0x02 }
    else
      let area := ctxArea σ.pos
      let points := frameRegs s.mem (area + 0x40) 8 4
      let cl (k : Cluster) : ClusterSt := if k = .c then σ.trap.savedC.getD σ.c else σ.cl k
      match [Cluster.c, .g, .m, .v].findSome? fun k => pointCheck (cl k) k (s.ch.returnPoint (cl k)) (nth 0 points (clNum k)) with
      | some r => bad r
      | none =>
        let s1 : State := { s with ch := s.ch.restored σ s.mem points }
        .next ((sortBy (fun x y => decide (x.entry ≤ y.entry)) σ.trap.score).foldl (settleEntry m.testBit) s1)

end Sys2Proof.Machine
end

