-- ==== Sys2Proof/Machine/Schedule.lean ====
section
/-! DEFINITION. Issue choice: when a cluster may issue its next word (R180 to R186), the passing of cycles, and the order the
model takes by itself when the agenda is empty (log entry 1). -/

namespace Sys2Proof.Machine

/-- The physical cluster of a core has issued its one word of this cycle (R183). -/
def Chip.spentNow (c : Chip) (core : Nat) (cl : Cluster) : Bool := ((c.core core).spent.lookup cl).isSome

/-- A cluster's turn of this cycle has passed: the physical cluster has issued, or a later cluster of the strand has. The words of a strand
that issue in one cycle issue in the order C, G, M, V (R302). -/
def Chip.turnGone (c : Chip) (pos : Nat) (cl : Cluster) : Bool :=
  c.spentNow (coreOf pos) cl || (c.core (coreOf pos)).spent.any fun e => decide (clNum cl < clNum e.1) && e.2 == pos % 4

/-- What stands at a cluster's program counter. -/
inductive NextWord where
  | none
  | fault (t : TrapReq)
  | word (w : Word)

/-- The core holds issue: a freeze (R48, R391), a column migration of its quad (R53), a quad out of service (R425). -/
def Chip.coreHeld (c : Chip) (core : Nat) : Bool :=
  c.corrHolds core || c.faultFrozen core || (c.quad (quadOf core)).out
    || c.moves.any fun m => m.held == quadOf core

/-- The job of a strand lets it issue: it has started and is not being killed (R194, R382, R404). -/
def Chip.jobRuns (c : Chip) (job : BitVec 64) : Bool :=
  match c.job? job with
  | some j => j.killStep == 0 && (j.started || !j.corFlag)
  | none => true

/-- The next word is `rbase`. -/
def ClusterSt.atRbase (k : ClusterSt) : Bool := (k.wordAt k.pc).any fun w => match decodeWord .c w with
  | .ok .rbase => true
  | _ => false

/-- Whether a cluster may issue at all in this cycle, its word left aside: during a rebase of its quad only `rbase` does (R144, R182, R193,
R268, R389). -/
def Chip.mayIssue (c : Chip) (σ : Strand) (cl : Cluster) : Bool :=
  let k := σ.cl cl
  !k.ended && ((c.quad (quadOfPos σ.pos)).rebase.isNone || (cl == .c && k.atRbase)) && k.blocked.isNone && !k.yielded &&
    !c.coreHeld (coreOf σ.pos) && c.jobRuns σ.who.job
    && (σ.trap.phase == .run || (σ.trap.phase == .handler && cl == .c))
    && !(σ.trap.pend && k.point && σ.trap.phase == .run)

/-- The next word of a cluster, when it may issue: the end of the image (R254), a sync-marked word inside or a sixteenth word
of a hold group (R185), a sync-marked word that no rendezvous has let go (R180). -/
def nextWord (s : State) (pos : Nat) (cl : Cluster) : NextWord :=
  match s.ch.strand? pos with
  | none => .none
  | some σ =>
    let k := σ.cl cl
    if !s.ch.mayIssue σ cl then .none
    else match k.wordAt k.pc with
      | none => .fault { cause := 0x14, step := 2 }
      | some w =>
        if wordSync w && k.group != 0 then .fault { cause := 0x01 }
        else if wordHold w && k.group == 15 then .fault { cause := 0x01 }
        else if wordSync w && !k.released && !k.issuesAlone then .none
        else .word w

/-! The model's own order. -/

/-- What the machine does by itself, with no request from outside: the agents of an empty agenda. -/
inductive Own where
  | start (op : Nat)
  | perform (op : Nat)
  | fails (op : Nat)
  | fullEmpty (op : Nat)
  | gather (core slot : Nat) (q : BitVec 3)
  | scatter (core slot : Nat) (q : BitVec 3)
  | delivery (job : BitVec 64) (link : BitVec 16) (far : Bool)
  | permit (job : BitVec 64) (link : BitVec 16) (far : Bool)
  | hbar (job : BitVec 64) (scope site : Nat)
  | walkEnd (walk : Nat)
  | walkAgain (walk : Nat)
  | home (req : PeerReq)
  | moved (op : Nat) (pkg : BitVec 12)
  | pageFinish (asr : Nat) (va : BitVec 56)
  | resend (ctx : Nat)
  | teardown (ctx : Nat)
  | abandon (ctx : Nat)
  | correction (core : Nat)
  | freezeEnd (core : Nat)
  | handler (core slot : Nat)
  | watchdog (core slot : Nat) (cl : Cluster)
  | moveQuad (die : Nat)
  | moveEnd (die : Nat)
  | ringLate (quad : Nat)
  | drained (job : BitVec 64)
  | certificate (job : BitVec 64)
  | released (job : BitVec 64)
  | complete (job : BitVec 64)
  | saveStart (core slot : Nat)
  | saveWrite (core slot : Nat)
  | saveLate (core slot : Nat)
  | restore (job : BitVec 64) (unit : BitVec 24)
  | strandStart (core slot : Nat)
  | strandEnd (core slot : Nat)
  | rendezvous (core slot : Nat)
  | place (die : Nat)
  | entry (q : Nat)
  | invalDone (inv : Nat)
  | replayNode (rep node : Nat)
  | ownerLost
  | issue (pos : Nat) (cl : Cluster)

/-- The order in which the model tries the agents when nothing is asked for: operations in the order of their issue, the units
of streams, links and barriers, pages and contexts, traps, migrations, kills, saves, strands, rendezvous, scheduling, and then words. -/
def candidates (s : State) : List Own :=
  let ids := s.ch.ops.map (·.id)
  let slots := s.ch.strands.map (·.pos)
  let cores := (slots.map coreOf ++ s.ch.cores.map (·.id)).eraseDups
  let each (f : Nat → Nat → List Own) : List Own := slots.flatMap fun p => f (coreOf p) (p % 4)
  let x := s.ch.xl
  ids.map .start ++ ids.flatMap (fun n => [.fullEmpty n, .perform n, .fails n])
    ++ each (fun c k => (List.range 8).flatMap fun q => [.gather c k (BitVec.ofNat 3 q), .scatter c k (BitVec.ofNat 3 q)])
    ++ s.ch.links.flatMap (fun l => [.delivery l.job l.link l.far, .permit l.job l.link l.far])
    ++ s.ch.hbars.map (fun h => .hbar h.job h.scope h.site)
    ++ x.walks.flatMap (fun w => [.walkEnd w.id, .walkAgain w.id])
    ++ x.homeWait.map .home ++ s.ch.plat.ctxs.flatMap (fun c => if c.sender then [] else c.window.map fun w => .home w.2.1)
    ++ (x.egress.filter fun e => e.answered).map (fun e => .moved e.op e.pkg)
    ++ (x.motions.filter fun m => m.phase == 4).map (fun m => .pageFinish m.asr (BitVec.ofNat 56 m.va))
    ++ s.ch.plat.ctxs.flatMap (fun c => [.resend c.id, .teardown c.id, .abandon c.id])
    ++ cores.flatMap (fun c => [.correction c, .freezeEnd c]) ++ each (fun c k => [.handler c k])
    ++ each (fun c k => [Cluster.c, .g, .m, .v].map fun cl => .watchdog c k cl)
    ++ s.ch.moves.flatMap (fun m => [.moveQuad m.die, .moveEnd m.die]) ++ s.ch.quads.map (fun q => .ringLate q.id)
    ++ s.ch.jobs.flatMap (fun j => [.drained j.id, .certificate j.id, .released j.id, .complete j.id])
    ++ each (fun c k => [.saveStart c k, .saveWrite c k, .saveLate c k])
    ++ (s.ch.units.filter fun u => u.saved).map (fun u => .restore u.job u.num)
    ++ each (fun c k => [.strandStart c k, .strandEnd c k, .rendezvous c k])
    ++ (List.range 8).map .place
    ++ s.ch.queues.map (fun q => .entry q.q)
    ++ x.invals.map (fun i => .invalDone i.id)
    ++ s.ch.replays.flatMap (fun r => r.nodes.map fun n => .replayNode r.id n.1)
    ++ [.ownerLost]
    ++ slots.flatMap fun p => [Cluster.c, .g, .m, .v].map fun cl => .issue p cl

end Sys2Proof.Machine
end

