-- ==== Sys2Proof/Machine/Arith.lean ====
section
/-! DEFINITION. Integer and address arithmetic of the C cluster (R245 to R253). -/

namespace Sys2Proof.Machine

/-- The shared form of R245: source registers are awaited, the result is written to d (discarded for s0), nothing else changes. -/
def alu (s : State) (d : BitVec 5) (srcs : List (BitVec 5)) (f : Strand → Reg) : Host.Outcome State Fault Refusal :=
  issue s (srcs.map fun r => .s r.toNat) fun σ => onStrand s fun σ2 => σ2.setS d.toNat (f σ)

/-- The value of an s register named by a 5-bit field. -/
def Strand.rs (σ : Strand) (r : BitVec 5) : Reg := σ.getS r.toNat

/-- The shift amount: bits [5:0] of b (R246, R253). -/
def shAmt (b : Reg) : Nat := b.toNat % 64

def rotl (a : Reg) (n : Nat) : Reg := (a <<< n) ||| (a >>> (64 - n))

def mulHigh (a b : Reg) : Reg := BitVec.ofInt 64 (a.toInt * b.toInt / 2 ^ 64)
def mulHighN (a b : Reg) : Reg := BitVec.ofNat 64 (a.toNat * b.toNat / 2 ^ 64)

def minS (a b : Reg) : Reg := if a.toInt ≤ b.toInt then a else b
def maxS (a b : Reg) : Reg := if a.toInt ≤ b.toInt then b else a
def minU (a b : Reg) : Reg := if a.toNat ≤ b.toNat then a else b
def maxU (a b : Reg) : Reg := if a.toNat ≤ b.toNat then b else a

def boolReg (b : Bool) : Reg := if b then 1 else 0

/-- The number of leading zero bits of a number of `w` bits. -/
def clzN (w v : Nat) : Nat := if v = 0 then w else w - 1 - Nat.log2 v

/-- The position of the lowest one bit from bit `i` on, at most `w`. -/
def ctzFrom (v : Nat) : Nat → Nat → Nat
  | 0, i => i
  | n + 1, i => if v.testBit i then i else ctzFrom v n (i + 1)
def ctzN (w v : Nat) : Nat := ctzFrom v w 0

/-- The number of one bits among the low `w`. -/
def popN (w v : Nat) : Nat := ((List.range w).filter fun i => v.testBit i).length

/-- Division and remainder of R247. -/
def divS (a b : Reg) : Reg := if b = 0 then BitVec.allOnes 64 else BitVec.ofInt 64 (a.toInt.tdiv b.toInt)
def divU (a b : Reg) : Reg := if b = 0 then BitVec.allOnes 64 else BitVec.ofNat 64 (a.toNat / b.toNat)
def remS (a b : Reg) : Reg := if b = 0 then a else BitVec.ofInt 64 (a.toInt.tmod b.toInt)
def remU (a b : Reg) : Reg := if b = 0 then a else BitVec.ofNat 64 (a.toNat % b.toNat)

/-- A division: a zero divisor also sets DZI, whatever d is (R247, R253). -/
def divide (s : State) (d a b : BitVec 5) (f : Reg → Reg → Reg) : Host.Outcome State Fault Refusal :=
  issue s [.s a.toNat, .s b.toNat] fun σ => onStrand s fun σ2 =>
    let σ3 := σ2.setS d.toNat (f (σ.rs a) (σ.rs b))
    if σ.rs b = 0 then { σ3 with trap := { σ3.trap with dzi := true } } else σ3

def execAdd (d a b : BitVec 5) (s : State) := alu s d [a, b] fun σ => σ.rs a + σ.rs b
def execSub (d a b : BitVec 5) (s : State) := alu s d [a, b] fun σ => σ.rs a - σ.rs b
def execMul (d a b : BitVec 5) (s : State) := alu s d [a, b] fun σ => σ.rs a * σ.rs b
def execMulh (d a b : BitVec 5) (s : State) := alu s d [a, b] fun σ => mulHigh (σ.rs a) (σ.rs b)
def execMulhn (d a b : BitVec 5) (s : State) := alu s d [a, b] fun σ => mulHighN (σ.rs a) (σ.rs b)
def execDiv (d a b : BitVec 5) (s : State) := divide s d a b divS
def execDivn (d a b : BitVec 5) (s : State) := divide s d a b divU
def execRem (d a b : BitVec 5) (s : State) := divide s d a b remS
def execRemn (d a b : BitVec 5) (s : State) := divide s d a b remU
def execAnd (d a b : BitVec 5) (s : State) := alu s d [a, b] fun σ => σ.rs a &&& σ.rs b
def execOr (d a b : BitVec 5) (s : State) := alu s d [a, b] fun σ => σ.rs a ||| σ.rs b
def execXor (d a b : BitVec 5) (s : State) := alu s d [a, b] fun σ => σ.rs a ^^^ σ.rs b
def execAndn (d a b : BitVec 5) (s : State) := alu s d [a, b] fun σ => σ.rs a &&& ~~~ σ.rs b
def execShl (d a b : BitVec 5) (s : State) := alu s d [a, b] fun σ => σ.rs a <<< shAmt (σ.rs b)
def execShr (d a b : BitVec 5) (s : State) := alu s d [a, b] fun σ => σ.rs a >>> shAmt (σ.rs b)
def execSra (d a b : BitVec 5) (s : State) := alu s d [a, b] fun σ => (σ.rs a).sshiftRight (shAmt (σ.rs b))
def execRot (d a b : BitVec 5) (s : State) := alu s d [a, b] fun σ => rotl (σ.rs a) (shAmt (σ.rs b))
def execMin (d a b : BitVec 5) (s : State) := alu s d [a, b] fun σ => minS (σ.rs a) (σ.rs b)
def execMax (d a b : BitVec 5) (s : State) := alu s d [a, b] fun σ => maxS (σ.rs a) (σ.rs b)
def execMinn (d a b : BitVec 5) (s : State) := alu s d [a, b] fun σ => minU (σ.rs a) (σ.rs b)
def execMaxn (d a b : BitVec 5) (s : State) := alu s d [a, b] fun σ => maxU (σ.rs a) (σ.rs b)
def execSlt (d a b : BitVec 5) (s : State) := alu s d [a, b] fun σ => boolReg (decide ((σ.rs a).toInt < (σ.rs b).toInt))
def execSltn (d a b : BitVec 5) (s : State) := alu s d [a, b] fun σ => boolReg (decide ((σ.rs a).toNat < (σ.rs b).toNat))
def execSeq (d a b : BitVec 5) (s : State) := alu s d [a, b] fun σ => boolReg (σ.rs a == σ.rs b)
def execSne (d a b : BitVec 5) (s : State) := alu s d [a, b] fun σ => boolReg (σ.rs a != σ.rs b)
def execClz (d a : BitVec 5) (s : State) := alu s d [a] fun σ => BitVec.ofNat 64 (clzN 64 (σ.rs a).toNat)
def execCtz (d a : BitVec 5) (s : State) := alu s d [a] fun σ => BitVec.ofNat 64 (ctzN 64 (σ.rs a).toNat)
def execPopc (d a : BitVec 5) (s : State) := alu s d [a] fun σ => BitVec.ofNat 64 (popN 64 (σ.rs a).toNat)

/-- Immediates (R229, R248): sign-extended for `addi`, `slti`, `sltni`, zero-extended for the bitwise forms. -/
def execAddi (d a : BitVec 5) (im : BitVec 14) (s : State) := alu s d [a] fun σ => σ.rs a + im.signExtend 64
def execAndi (d a : BitVec 5) (im : BitVec 14) (s : State) := alu s d [a] fun σ => σ.rs a &&& im.setWidth 64
def execOri (d a : BitVec 5) (im : BitVec 14) (s : State) := alu s d [a] fun σ => σ.rs a ||| im.setWidth 64
def execXori (d a : BitVec 5) (im : BitVec 14) (s : State) := alu s d [a] fun σ => σ.rs a ^^^ im.setWidth 64
def execShli (d a : BitVec 5) (n : BitVec 6) (s : State) := alu s d [a] fun σ => σ.rs a <<< n.toNat
def execShri (d a : BitVec 5) (n : BitVec 6) (s : State) := alu s d [a] fun σ => σ.rs a >>> n.toNat
def execSrai (d a : BitVec 5) (n : BitVec 6) (s : State) := alu s d [a] fun σ => (σ.rs a).sshiftRight n.toNat
def execRoti (d a : BitVec 5) (n : BitVec 6) (s : State) := alu s d [a] fun σ => rotl (σ.rs a) n.toNat
def execSlti (d a : BitVec 5) (im : BitVec 14) (s : State) :=
  alu s d [a] fun σ => boolReg (decide ((σ.rs a).toInt < im.toInt))
def execSltni (d a : BitVec 5) (im : BitVec 14) (s : State) :=
  alu s d [a] fun σ => boolReg (decide ((σ.rs a).toNat < (im.signExtend 64).toNat))

/-- Constants (R249). -/
def execLui (d : BitVec 5) (im : BitVec 19) (s : State) := alu s d [] fun _ => im.signExtend 64 <<< 14
def execLhi (d : BitVec 5) (im : BitVec 19) (s : State) := alu s d [d] fun σ => (σ.rs d <<< 19) + im.setWidth 64
def execLea (d a b : BitVec 5) (k : BitVec 2) (s : State) := alu s d [a, b] fun σ => σ.rs a + (σ.rs b <<< k.toNat)

/-- Bit fields of width w + 1 from position p, which must lie inside the register (R251). -/
def bitField (s : State) (d : BitVec 5) (srcs : List (BitVec 5)) (p w : BitVec 6) (f : Strand → Nat → Reg) :
    Host.Outcome State Fault Refusal :=
  issue s (srcs.map fun r => .s r.toNat) fun σ =>
    if 64 < p.toNat + (w.toNat + 1) then faulty 0x02 else onStrand s fun σ2 => σ2.setS d.toNat (f σ (w.toNat + 1))

def execBfx (d a : BitVec 5) (p w : BitVec 6) (s : State) := bitField s d [a] p w fun σ n =>
  BitVec.ofInt 64 (signed n (bits (σ.rs a).toNat p.toNat n))
def execBfxn (d a : BitVec 5) (p w : BitVec 6) (s : State) := bitField s d [a] p w fun σ n =>
  BitVec.ofNat 64 (bits (σ.rs a).toNat p.toNat n)
def execBfi (d a : BitVec 5) (p w : BitVec 6) (s : State) := bitField s d [a, d] p w fun σ n =>
  let mask : Reg := BitVec.ofNat 64 ((2 ^ n - 1) * 2 ^ p.toNat)
  (σ.rs d &&& ~~~ mask) ||| ((σ.rs a <<< p.toNat) &&& mask)

/-- Pointer tags (R252). -/
def execPtagGet (d a : BitVec 5) (s : State) := alu s d [a] fun σ => σ.rs a >>> 60
def execPtagSet (d a b : BitVec 5) (s : State) := alu s d [a, b] fun σ =>
  BitVec.ofNat 64 ((σ.rs a).toNat % 2 ^ 60 + (σ.rs b).toNat % 16 * 2 ^ 60)

end Sys2Proof.Machine
end

