-- ==== Sys2Proof/Machine/Dep.lean ====
section
/-! DEFINITION. The `dep` prefix and the command it stands before, which issue as one (R109 to R111, R237). -/

namespace Sys2Proof.Machine

/-- The meaning of a command that takes a prefix. -/
def execCommand (i : Instr) (s : State) : Option (Host.Outcome State Fault Refusal) :=
  match i with
  | .cp d sp l b o c z => some (execCp d sp l b o c z s)
  | .cpCg d sp p b o => some (execCpCg d sp p b o s)
  | .cpst d sp p b o => some (execCpst d sp p b o s)
  | .wsort d sp p b o c l => some (execWsort d sp p b o c l s)
  | .xsend k q l o => some (execXsend k q l o s)
  | .clAr d sp l r o c p t => some (execClAr d sp l r o c p t s)
  | .clBc d sp l r o c => some (execClBc d sp l r o c s)
  | .clAg d sp l o c => some (execClAg d sp l o c s)
  | .clRs d sp l r o c p t => some (execClRs d sp l r o c p t s)
  | .bktz n t o => some (execBktz n t o s)
  | .bkt a l r t c sp o => some (execBkt a l r t c sp o s)
  | .bfin c sp a r o => some (execBfin c sp a r o s)
  | .tmma m n a b c t im => some (execTmma m n a b c t im s)
  | .tmmaSp m n a b c q t im => some (execTmmaSp m n a b c q t im s)
  | .spc im v m n t o => some (execSpc im v m n t o s)
  | .accz a n o => some (execAccz a n o s)
  | .adrain d a sp t o => some (execAdrain d a sp t o s)
  | .qdrain d a sp m t c o => some (execQdrain d a sp m t c o s)
  | .quant2 d a sp x t o => some (execQuant2 d a sp x t o s)
  | .accmv d a n o => some (execAccmv d a n o s)
  | _ => none

/-- The checks of R111 that the prefix makes by itself. -/
def depFault (σ : Strand) (p a b c : BitVec 4) : Option (BitVec 8) :=
  if p ≠ 0 ∧ (p = a ∨ p = b ∨ p = c) then some 0x02
  else if p ≠ 0 ∧ (σ.token p.toNat).st = 1 then some 0x32
  else none

/-- The word after a cluster's place is not the one the flow comes to (R191): it stands at the last word of its innermost loop's body, or a stage
boundary follows and the next stage is disabled in this pass. -/
def ClusterSt.endsBody (k : ClusterSt) : Bool :=
  k.loops.head?.any fun l => k.pc + 4 == l.body + 4 * l.len || !l.enabled ((k.pc + 4 - l.body) / 4)

/-- `dep` and the command after it issue as one (R109, R237). A prefix that ends a loop's body, or the enabled words of a pass before
a disabled one, stands last before the place the loop engine goes to (R111; log entry 95). Of the checks of the pair that several fail the model reports the decoding of the
second word first, then a word that takes no prefix, then S and H, then the tokens, then the command's own (log entry 92). -/
def execDep (p a b c : BitVec 4) (s : State) : Host.Outcome State Fault Refusal :=
  match s.ch.strand? s.ch.turn.pos with
  | none => .fault .noStrand
  | some σ =>
    let cl := s.ch.turn.cl
    let k := σ.cl cl
    let bad (t : TrapReq) : Host.Outcome State Fault Refusal := issue s [] fun _ => .trap t
    if k.endsBody then bad { cause := 0x01 }
    else match k.wordAt (k.pc + 4) with
    | none => bad { cause := 0x01 }
    | some w2 =>
      match decodeWord cl w2 with
      | .error e => bad (if depMajor cl w2 then decodeFault e else { cause := 0x01 })
      | .ok i =>
        let s2 := { s with ch := { s.ch with turn := { s.ch.turn with word := w2, pfx := some s.ch.turn.word } } }
        match execCommand i s2, depFault σ p a b c with
        | none, _ => bad { cause := 0x01 }
        | some _, some x => if wordSync w2 || wordHold w2 then bad { cause := 0x01 } else bad { cause := x }
        | some r, none => if wordSync w2 || wordHold w2 then bad { cause := 0x01 } else r

end Sys2Proof.Machine
end

