-- ==== Sys2Proof/Machine/Special.lean ====
section
/-! DEFINITION. Reciprocal estimates, their refinement, and the functions 2^x, log2 x, sin(πx) and cos(πx) (R221, R355, R356). -/

namespace Sys2Proof.Machine

/-! Estimates. -/

/-- Whether a value is tiny in a format: rounded to its precision with no exponent limit, it lies below the least normal (R216). -/
def Fmt.tiny (f : Fmt) (neg : Bool) (m : Nat) (e : Int) : Bool :=
  let top : Int := (Nat.log2 m : Int) + e
  let unb := (quantize .rne neg m e (top - f.fbits)).1
  decide (top < f.emin) && decide ((unb : Int) < 2 ^ (f.fbits + 1) ∨ top + 1 < f.emin)

/-- An estimate `q` of 13 bits rounded to the type; `exact` says that `q` is the true value (R355). -/
def roundEstimate (f : Fmt) (neg : Bool) (q : Nat) (e : Int) (exact : Bool) : Nat × Flags :=
  let (b, g) := f.roundFin .rne neg q e
  (b, g ||| flagIf (!exact) flNX ||| flagIf (!exact && f.tiny neg q e) flUF)

/-- The 13 leading bits of a number and the bits dropped. -/
def lead13 (n : Nat) : Nat × Nat :=
  let k := Nat.log2 n - 12
  (n / 2 ^ k, k)

/-- 1/x (R221, R355). -/
def recipEst (f : Fmt) (x : Num) : Nat × Flags :=
  match x with
  | .nan s => (f.nan, flagIf s flNV)
  | .inf n => (f.sign n, 0)
  | .fin n m e =>
    if m = 0 then (f.sign n + f.infinity, flDZ)
    else
      let k := Nat.log2 m + 20
      let (q, d) := lead13 (2 ^ k / m)
      roundEstimate f n q ((d : Int) - k - e) (q * 2 ^ d * m == 2 ^ k)

/-- The integer square root, bit by bit from bit `n - 1` down. -/
def isqrtFrom (v : Nat) : Nat → Nat → Nat
  | 0, acc => acc
  | n + 1, acc =>
    let t := acc + 2 ^ n
    isqrtFrom v n (if t * t ≤ v then t else acc)

def isqrt (v : Nat) : Nat := isqrtFrom v (Nat.log2 v / 2 + 1) 0

/-- 1/√x (R221, R355). -/
def rsqrtEst (f : Fmt) (x : Num) : Nat × Flags :=
  match x with
  | .nan s => (f.nan, flagIf s flNV)
  | .inf n => if n then (f.nan, flNV) else (0, 0)
  | .fin n m e =>
    if m = 0 then (f.sign n + f.infinity, flDZ)
    else if n then (f.nan, flNV)
    else
      let (m2, e2) := if e % 2 = 0 then (m, e) else (2 * m, e - 1)
      let k := Nat.log2 m2 / 2 + 20
      let (q, d) := lead13 (isqrt (2 ^ (2 * k) / m2))
      roundEstimate f false q ((d : Int) - k - e2 / 2) (q * 2 ^ d * (q * 2 ^ d) * m2 == 2 ^ (2 * k))

def numOne : Num := .fin false 1 0

/-- e + e × (1 − x × e), or e + e × (1 − x × e × e) / 2, rounded once (R355). -/
def refine (sq : Bool) (f : Fmt) (a b : Nat) : Nat × Flags :=
  let x := f.decode a
  let y := f.decode b
  if y.isZero || y.isInf || y.isNan then (b, 0)
  else if x.isNan then (f.nan, flagIf x.isSig flNV)
  else
    let xe := (x.mul y).1
    let t := if sq then (xe.mul y).1 else xe
    let r := (numOne.add t.negate false).1
    let p := (y.mul r).1
    let h := if sq then (p.mul (.fin false 1 (-1))).1 else p
    f.round .rne (y.add h false).1

/-! Correctly rounded functions (R356): fixed point with 400 fraction bits. Every value that is not exact is irrational, so a
value cut at 400 bits, with one more bit set for what was cut, rounds as the true one. -/

def fxBits : Nat := 400
def fxOne : Nat := 2 ^ fxBits

/-- ln 2 and π, cut at 400 bits. -/
def fxLn2 : Nat :=
  1789879222497203190815761498240779176894896805856420935579692301363062920687047601279850318367644315849030039181347319086
def fxPi : Nat :=
  8112377246730971238862271351300894519161151600179265203591191037615230905373990498745523360926816815427566779727327576236

/-- exp y − 1 minus the terms before the n-th: the series Σ yⁿ/n!. -/
def expSeries (y : Nat) : Nat → Nat → Nat → Nat → Nat
  | 0, _, _, acc => acc
  | fuel + 1, n, t, acc => expSeries y fuel (n + 1) (t * y / fxOne / n) (acc + t)

/-- 2^r for r in [0, 1) in fixed point. -/
def fxExp2 (r : Nat) : Nat := expSeries (r * fxLn2 / fxOne) 110 1 fxOne 0

/-- Σ z^(2k+1)/(2k+1). -/
def atanhSeries (z2 : Nat) : Nat → Nat → Nat → Nat → Nat
  | 0, _, _, acc => acc
  | fuel + 1, k, t, acc => atanhSeries z2 fuel (k + 1) (t * z2 / fxOne) (acc + t / (2 * k + 1))

/-- log2 of m / 2^k in fixed point, for m / 2^k in [1, 2). -/
def fxLog2 (m k : Nat) : Nat :=
  let z := (m - 2 ^ k) * fxOne / (m + 2 ^ k)
  2 * atanhSeries (z * z / fxOne) 140 0 z 0 * fxOne / fxLn2

/-- sin y for y in [0, 2) in fixed point: Σ (−1)ᵏ y^(2k+1)/(2k+1)!. -/
def sinSeries (y2 : Nat) : Nat → Nat → Int → Int → Int
  | 0, _, _, acc => acc
  | fuel + 1, k, t, acc => sinSeries y2 fuel (k + 1) (-(t * y2 / fxOne / ((2 * k + 2) * (2 * k + 3) : Nat))) (acc + t)

def fxSinPi (r : Nat) : Nat :=
  let y := r * fxPi / fxOne
  (sinSeries (y * y / fxOne) 60 0 y 0).toNat

/-- A result that is not exact, from its fixed-point value with exponent `e` of the last place. -/
def inexactF32 (neg : Bool) (v : Nat) (e : Int) : Nat × Flags := fF32.roundFin .rne neg (2 * v + 1) (e - 1)

def exp2F32 (x : Num) : Nat × Flags :=
  match x with
  | .nan s => (f32NaN, flagIf s flNV)
  | .inf n => (if n then 0 else fF32.infinity, 0)
  | .fin n m e =>
    if m = 0 then fF32.roundFin .rne false 1 0
    else if 9 ≤ (Nat.log2 m : Int) + e then
      -- |x| is 512 or more
      if n then inexactF32 false 1 (-600) else fF32.roundFin .rne false 1 600
    else
      let fx : Nat := if 0 ≤ e + fxBits then m * 2 ^ (e + fxBits).toNat else m / 2 ^ (-(e + fxBits)).toNat
      let v : Int := if n then -(fx : Int) else fx
      let i := v / (fxOne : Int)
      let r := (v % (fxOne : Int)).toNat
      if r = 0 then fF32.roundFin .rne false 1 i else inexactF32 false (fxExp2 r) (i - fxBits)

def log2F32 (x : Num) : Nat × Flags :=
  match x with
  | .nan s => (f32NaN, flagIf s flNV)
  | .inf n => if n then (f32NaN, flNV) else (fF32.infinity, 0)
  | .fin n m e =>
    if m = 0 then (fF32.sign true + fF32.infinity, flDZ)
    else if n then (f32NaN, flNV)
    else
      let k := Nat.log2 m
      let i : Int := (k : Int) + e
      if m = 2 ^ k then fF32.roundFin .rne (decide (i < 0)) i.natAbs 0
      else
        let v : Int := i * fxOne + fxLog2 m k
        if v < 0 then inexactF32 true (v.natAbs - 1) (-fxBits) else inexactF32 false v.toNat (-fxBits)

/-- sin(πx) of a finite x in fixed point modulo 2; `zneg` is the sign of an exact zero. -/
def sinPiFx (v : Nat) (zneg : Bool) : Nat × Flags :=
  let a := v % (2 * fxOne)
  let neg := fxOne ≤ a
  let b := a % fxOne
  if b = 0 then (fF32.sign zneg, 0)
  else if 2 * b = fxOne then fF32.roundFin .rne neg 1 0
  else inexactF32 neg (fxSinPi (min b (fxOne - b))) (-fxBits)

/-- A finite value in fixed point modulo 2, exact for the types that have these functions. -/
def fxMod2 (n : Bool) (m : Nat) (e : Int) : Nat :=
  let fx := if 1 ≤ e then 0 else m * 2 ^ (e + fxBits).toNat % (2 * fxOne)
  if n then (2 * fxOne - fx) % (2 * fxOne) else fx

def sinF32 (cos : Bool) (x : Num) : Nat × Flags :=
  match x with
  | .nan s => (f32NaN, flagIf s flNV)
  | .inf _ => (f32NaN, flNV)
  | .fin n m e =>
    if cos then sinPiFx (fxMod2 n m e + fxOne / 2) false else sinPiFx (fxMod2 n m e) n

/-- The f32 result, rounded again for f16 and bf16 (R356). -/
def specialRound (ty : Nat) (x : Nat × Flags) : Nat × Flags :=
  if ty = tyF32 then x
  else
    let (b, g) := (fmtOf ty).round .rne (f32Val x.1)
    (b, x.2 ||| g)

/-- `vsin` and `vcos` set no flag but NV and NX (R356; log entry 94). -/
def trigRound (cos : Bool) (ty : Nat) (x : Num) : Nat × Flags :=
  let (b, g) := specialRound ty (sinF32 cos x)
  (b, g &&& (flNV ||| flNX))

/-! The instructions. -/

/-- An instruction of one operand in the float class. -/
def vSpecial (s : State) (fm : VForm) (fn : Nat → Num → Nat × Flags) : Host.Outcome State Fault Refusal :=
  vElem s fm clsFloat fun v p => fn v.sh.ty ((fmtOf v.sh.ty).decode (v.getA p))

def execVrcp (w : BitVec 1) (d : BitVec 5) (a : BitVec 6) (p : BitVec 3) (f : BitVec 1) (_r : BitVec 2) (s : State) :=
  vSpecial s (unForm w d a p f) fun t x => recipEst (fmtOf t) x
def execVrsq (w : BitVec 1) (d : BitVec 5) (a : BitVec 6) (p : BitVec 3) (f : BitVec 1) (_r : BitVec 2) (s : State) :=
  vSpecial s (unForm w d a p f) fun t x => rsqrtEst (fmtOf t) x
def execVrfix (w : BitVec 1) (d : BitVec 5) (a b : BitVec 6) (p : BitVec 3) (f : BitVec 1) (_r : BitVec 2) (s : State) :=
  vElem s (binForm w d a b p f) clsFloat fun v q => refine false (fmtOf v.sh.ty) (v.getA q) (v.getB q)
def execVrsfix (w : BitVec 1) (d : BitVec 5) (a b : BitVec 6) (p : BitVec 3) (f : BitVec 1) (_r : BitVec 2) (s : State) :=
  vElem s (binForm w d a b p f) clsFloat fun v q => refine true (fmtOf v.sh.ty) (v.getA q) (v.getB q)
def execVexp2 (w : BitVec 1) (d : BitVec 5) (a : BitVec 6) (p : BitVec 3) (f : BitVec 1) (_r : BitVec 2) (s : State) :=
  vSpecial s (unForm w d a p f) fun t x => specialRound t (exp2F32 x)
def execVlog2 (w : BitVec 1) (d : BitVec 5) (a : BitVec 6) (p : BitVec 3) (f : BitVec 1) (_r : BitVec 2) (s : State) :=
  vSpecial s (unForm w d a p f) fun t x => specialRound t (log2F32 x)
def execVsin (w : BitVec 1) (d : BitVec 5) (a : BitVec 6) (p : BitVec 3) (f : BitVec 1) (_r : BitVec 2) (s : State) :=
  vSpecial s (unForm w d a p f) fun t x => trigRound false t x
def execVcos (w : BitVec 1) (d : BitVec 5) (a : BitVec 6) (p : BitVec 3) (f : BitVec 1) (_r : BitVec 2) (s : State) :=
  vSpecial s (unForm w d a p f) fun t x => trigRound true t x

end Sys2Proof.Machine
end

