-- ==== Sys2Proof/Machine/System.lean ====
section
/-! DEFINITION. System instructions of the C cluster (R242, R263 to R270), but for `resume`, which stands with the traps. -/

namespace Sys2Proof.Machine

/-- STRANDID (R176). -/
def strandId (σ : Strand) : Reg :=
  BitVec.ofNat 64 ((σ.who.nstr - 1) * 64 + σ.who.role * 16 + σ.pos % 4 * 4 + σ.who.strand)

/-- The island of a core: 3 × die + k (R409). -/
def islandOf (core : Nat) : Nat := 3 * dieOf core + (if Config.eastQuad (quadOf core) then 1 else 0)

/-- TRAPFRAME: the strand's context area in the curator's mapping (R242, R389). -/
def trapFrame (pos : Nat) : Nat := 2 ^ 55 + ctxArea pos

/-- SCOREBOARD: bit i is 1 while entry i is pending (R397). -/
def TrapSt.scoreboard (t : TrapSt) : Reg := BitVec.ofNat 64 (t.score.foldl (fun n e => n ||| 2 ^ e.entry) 0)

/-- AGE of a strand: what its job has written on the core, or the bound of the launch (R184, R264, R382). -/
def Chip.ageOf (c : Chip) (σ : Strand) : BitVec 12 := ((c.core (coreOf σ.pos)).ages.lookup σ.who.job).getD σ.trap.age

/-- The value of a system register in its issue cycle; none when the number is not listed (R242, R263). -/
def sysRead (c : Chip) (σ : Strand) (r : Nat) : Option Reg :=
  match r with
  | 0x000 => some (strandId σ)
  | 0x001 => some (σ.who.unit.setWidth 64)
  | 0x002 => some σ.who.job
  | 0x003 => some σ.who.arg
  | 0x004 => some σ.who.quadpos
  | 0x005 => some (BitVec.ofNat 64 c.cycle)
  | 0x010 => some ((nth 0 σ.c.lc 0).setWidth 64)
  | 0x011 => some ((nth 0 σ.c.lc 1).setWidth 64)
  | 0x012 => some ((nth 0 σ.c.lc 2).setWidth 64)
  | 0x020 => some (σ.mr.mflags.setWidth 64)
  | 0x021 => some ((σ.vr.vmodeC.getD σ.vr.vmode).setWidth 64)
  | 0x022 => some (σ.trap.trapen.setWidth 64)
  | 0x030 => some (boolReg σ.trap.pend)
  | 0x040 => some (nth 0 c.plat.tar (islandOf (coreOf σ.pos)))
  | 0x100 => some (σ.trap.info.cause.setWidth 64)
  | 0x101 => some (BitVec.ofNat 64 (trapFrame σ.pos))
  | 0x102 => some σ.trap.scoreboard
  | 0x103 => some (BitVec.ofNat 64 (trapFrame σ.pos + 0x13000))
  | 0x104 => some ((c.ageOf σ).setWidth 64)
  | 0x105 => some (σ.trap.wdog.setWidth 64)
  | _ => none
where boolReg (b : Bool) : Reg := if b then 1 else 0

def execSysRd (d : BitVec 5) (r : BitVec 12) (s : State) : Host.Outcome State Fault Refusal :=
  issue s [] fun σ =>
    if 0x100 ≤ r.toNat ∧ !σ.privileged then faulty 0x04
    else match sysRead s.ch σ r.toNat with
      | none => faulty 0x02
      | some v => onStrand s fun σ2 => σ2.setS d.toNat v

/-- The effect of a write (R264); a read-only register ignores it. MFLAGS keeps the flags of commands performed in this cycle; AGE sets the
bound of every strand of the job on the core from the next cycle on. -/
def sysWrite (s : State) (σ : Strand) (r : Nat) (v : Reg) : Res :=
  match r with
  | 0x020 => onStrand s fun σ2 => { σ2 with mr := { σ2.mr with mflags := v.setWidth 6 ||| σ2.mr.flagsNow } }
  | 0x021 => onStrand s fun σ2 => { σ2 with vr := { σ2.vr with vmodeC := some (v.setWidth 2) } }
  | 0x022 => onStrand s fun σ2 => { σ2 with trap := { σ2.trap with trapen := v.setWidth 6 } }
  | 0x104 =>
    if v.toNat < 16 ∨ 4095 < v.toNat then faulty 0x02
    else
      .go (Eff.quiet (s.ch.modCore (coreOf σ.pos) fun k => { k with agesNext := putKey σ.who.job (v.setWidth 12) k.agesNext })) none
  | 0x105 =>
    if bits v.toNat 0 32 = 0 ∨ bits v.toNat 32 16 = 0 then faulty 0x02
    else onStrand s fun σ2 => { σ2 with trap := { σ2.trap with wdog := v.setWidth 48 } }
  | _ => onStrand s id

def execSysWr (a : BitVec 5) (r : BitVec 12) (s : State) : Host.Outcome State Fault Refusal :=
  issue s [.s a.toNat] fun σ =>
    if 0x100 ≤ r.toNat ∧ !σ.privileged then faulty 0x04
    else match sysRead s.ch σ r.toNat with
      | none => faulty 0x02
      | some _ => sysWrite s σ r.toNat (σ.getS a.toNat)

/-- `trap`: software trap 0x3D, taken after the word (R265). -/
def execTrap (c : BitVec 16) (s : State) : Host.Outcome State Fault Refusal :=
  issue s [] fun _ => .trap { cause := 0x3D, code := c, after := true }

/-- The M commands an `xgate` waits for: issued before the latest rendezvous, not performed and not held (R266). In privileged
mode there are none. -/
def xgateWaits (c : Chip) (σ : Strand) : Bool :=
  !σ.privileged && c.ops.any fun o => o.pos == σ.pos && o.cl == .m && decide (o.id < σ.rdv) && o.status != .held

/-- The flags `xgate` gathers (R266). -/
def Strand.gateFlags (σ : Strand) : BitVec 6 := σ.mr.mflags ||| σ.vr.vflags.foldl (· ||| ·) 0

def execXgate (s : State) : Host.Outcome State Fault Refusal :=
  issue s [] fun σ =>
    if xgateWaits s.ch σ then .stall s.ch
    else
      let g := σ.gateFlags &&& σ.trap.trapen
      if σ.trap.dzi then
        .trapFrom (s.ch.modStrand σ.pos fun σ2 => { σ2 with trap := { σ2.trap with dzi := false } })
          { cause := 0x21, kind := 2, qual := 0x80 ||| g.setWidth 8, after := true }
      else if g ≠ 0 then .trap { cause := 0x20, kind := 2, qual := g.setWidth 8, after := true }
      else onStrand s id

/-- `rbase` (R144, R268): privileged; issue stops in the quad, and it completes once the issued operations on tracked memory are done, or
with the rebase that was in progress as it came. -/
def execRbase (s : State) : Host.Outcome State Fault Refusal :=
  issue s [] fun σ =>
    let quad := quadOfPos σ.pos
    if !σ.privileged then .trap { cause := 0x04, step := 2 }
    else if (s.ch.quad quad).rebased.contains σ.pos then
      .go (Eff.quiet (s.ch.modQuad quad fun q => { q with rebased := q.rebased.filter fun p => p != σ.pos })) none
    else if s.ch.rebaseWaits quad then .stall (s.ch.askRebase quad [σ.pos])
    else .go (Eff.quiet ((s.ch.rebase quad).modQuad quad fun q => { q with rebased := q.rebased.filter fun p => p != σ.pos })) none

/-- `yield` (R269): the strand counts as the one most recently served in every cluster, and C is not ready in the next
cycle. -/
def execYield (s : State) : Host.Outcome State Fault Refusal :=
  issue s [] fun σ =>
    if wordHold s.ch.turn.word then faulty 0x01
    else
      let c1 := s.ch.modCore (coreOf σ.pos) fun k =>
        [Cluster.c, .g, .m, .v].foldl (fun k cl =>
          { k with served := putKey cl (toFront (σ.pos % 4) ((k.served.lookup cl).getD [])) k.served }) k
      .go (Eff.quiet (c1.modStrand σ.pos fun σ2 => σ2.modCl .c fun k => { k with yielded := true })) none

end Sys2Proof.Machine
end

