-- ==== Sys2Proof/Machine/Words.lean ====
section
/-! DEFINITION. The meanings of the instruction words as one function, for what tries a word before it lets it issue (R180, R182) and
for the words of a rendezvous. -/

namespace Sys2Proof.Machine

/-- The meaning of a word; an event is none. -/
def runWord (i : Instr) (s : State) : Host.Outcome State Fault Refusal :=
  match i with
  | .add d a b => execAdd d a b s
  | .sub d a b => execSub d a b s
  | .mul d a b => execMul d a b s
  | .mulh d a b => execMulh d a b s
  | .mulhn d a b => execMulhn d a b s
  | .div d a b => execDiv d a b s
  | .divn d a b => execDivn d a b s
  | .rem d a b => execRem d a b s
  | .remn d a b => execRemn d a b s
  | .and d a b => execAnd d a b s
  | .or d a b => execOr d a b s
  | .xor d a b => execXor d a b s
  | .andn d a b => execAndn d a b s
  | .shl d a b => execShl d a b s
  | .shr d a b => execShr d a b s
  | .sra d a b => execSra d a b s
  | .rot d a b => execRot d a b s
  | .min d a b => execMin d a b s
  | .max d a b => execMax d a b s
  | .minn d a b => execMinn d a b s
  | .maxn d a b => execMaxn d a b s
  | .slt d a b => execSlt d a b s
  | .sltn d a b => execSltn d a b s
  | .seq d a b => execSeq d a b s
  | .sne d a b => execSne d a b s
  | .clz d a => execClz d a s
  | .ctz d a => execCtz d a s
  | .popc d a => execPopc d a s
  | .addi d a im => execAddi d a im s
  | .andi d a im => execAndi d a im s
  | .ori d a im => execOri d a im s
  | .xori d a im => execXori d a im s
  | .shli d a n => execShli d a n s
  | .shri d a n => execShri d a n s
  | .srai d a n => execSrai d a n s
  | .roti d a n => execRoti d a n s
  | .slti d a im => execSlti d a im s
  | .sltni d a im => execSltni d a im s
  | .lui d im => execLui d im s
  | .lhi d im => execLhi d im s
  | .lea d a b k => execLea d a b k s
  | .bfx d a p w => execBfx d a p w s
  | .bfxn d a p w => execBfxn d a p w s
  | .bfi d a p w => execBfi d a p w s
  | .ptagGet d a => execPtagGet d a s
  | .ptagSet d a b => execPtagSet d a b s
  | .ldI8 t b o d => execLdI8 t b o d s
  | .ldN8 t b o d => execLdN8 t b o d s
  | .ldI16 t b o d => execLdI16 t b o d s
  | .ldN16 t b o d => execLdN16 t b o d s
  | .ldI32 t b o d => execLdI32 t b o d s
  | .ldN32 t b o d => execLdN32 t b o d s
  | .ld64 t b o d => execLd64 t b o d s
  | .st8 t b o d => execSt8 t b o d s
  | .st16 t b o d => execSt16 t b o d s
  | .st32 t b o d => execSt32 t b o d s
  | .st64 t b o d => execSt64 t b o d s
  | .sld t b o d => execSld t b o d s
  | .sst t b o d => execSst t b o d s
  | .bld t b o f d => execBld t b o f d s
  | .bst t b o f d => execBst t b o f d s
  | .aadd d a v z p => execAadd d a v z p s
  | .aand d a v z p => execAand d a v z p s
  | .aor d a v z p => execAor d a v z p s
  | .axor d a v z p => execAxor d a v z p s
  | .aswp d a v z p => execAswp d a v z p s
  | .amin d a v z p => execAmin d a v z p s
  | .amax d a v z p => execAmax d a v z p s
  | .aminn d a v z p => execAminn d a v z p s
  | .amaxn d a v z p => execAmaxn d a v z p s
  | .afadd d a v z p => execAfadd d a v z p s
  | .afmax d a v z p => execAfmax d a v z p s
  | .afmin d a v z p => execAfmin d a v z p s
  | .acas d a v z p => execAcas d a v z p s
  | .ared a v o z p => execAred a v o z p s
  | .odseti o sp p c => execOdseti o sp p c s
  | .odset o a => execOdset o a s
  | .osq d c sp => execOsq d c sp s
  | .tkpost t c m => execTkpost t c m s
  | .tkwait t => execTkwait t s
  | .tktest d t => execTktest d t s
  | .tkclr t => execTkclr t s
  | .barInit b a o => execBarInit b a o s
  | .barExpect b a o => execBarExpect b a o s
  | .barArrive b o => execBarArrive b o s
  | .barWait b a o => execBarWait b a o s
  | .barTest b a o => execBarTest b a o s
  | .barInval b o => execBarInval b o s
  | .hbarAw c o => execHbarAw c o s
  | .hbarA c o => execHbarA c o s
  | .hbarW c o => execHbarW c o s
  | .sysRd d r => execSysRd d r s
  | .sysWr a r => execSysWr a r s
  | .trap c => execTrap c s
  | .xgate => execXgate s
  | .resume a => execResume a s
  | .rbase => execRbase s
  | .yield => execYield s
  | .branch a b c o => execBranch a b c o s
  | .jal d o => execJal d o s
  | .jr a => execJr a s
  | .loop l c n t => execLoop l c n t s
  | .lsplit a b c => execLsplit a b c s
  | .lbrk => execLbrk s
  | .done => execDone s
  | .nop => execNop s
  | .dep p a b c => execDep p a b c s
  | .gmov d sp => execGmov d sp s
  | .gadd d a im => execGadd d a im s
  | .glea d a b k => execGlea d a b k s
  | .itld g a o => execItld g a o s
  | .itst g a o => execItst g a o s
  | .itmod g f a => execItmod g f a s
  | .chld c a o => execChld c a o s
  | .sbind q g c d n o => execSbind q g c d n o s
  | .sunbind q => execSunbind q s
  | .sskip q a => execSskip q a s
  | .cp d sp l b o c z => execCp d sp l b o c z s
  | .cpCg d sp p b o => execCpCg d sp p b o s
  | .cpst d sp p b o => execCpst d sp p b o s
  | .wsort d sp p b o c l => execWsort d sp p b o c l s
  | .xsend k q l o => execXsend k q l o s
  | .xwait k o => execXwait k o s
  | .xgrant k o => execXgrant k o s
  | .xstat k d o => execXstat k d o s
  | .clAr d sp l r o c p t => execClAr d sp l r o c p t s
  | .clBc d sp l r o c => execClBc d sp l r o c s
  | .clAg d sp l o c => execClAg d sp l o c s
  | .clRs d sp l r o c p t => execClRs d sp l r o c p t s
  | .mmov d sp => execMmov d sp s
  | .madd d a im => execMadd d a im s
  | .bktz n t o => execBktz n t o s
  | .bkt a l r t c sp o => execBkt a l r t c sp o s
  | .bfin c sp a r o => execBfin c sp a r o s
  | .tmma m n a b c t im => execTmma m n a b c t im s
  | .tmmaSp m n a b c q t im => execTmmaSp m n a b c q t im s
  | .spc im v m n t o => execSpc im v m n t o s
  | .accz a n o => execAccz a n o s
  | .adrain d a sp t o => execAdrain d a sp t o s
  | .qdrain d a sp m t c o => execQdrain d a sp m t c o s
  | .quant2 d a sp x t o => execQuant2 d a sp x t o s
  | .accmv d a n o => execAccmv d a n o s
  | .mstat d sp => execMstat d sp s
  | .vsh sp => execVsh sp s
  | .vadd w d a b p f r => execVadd w d a b p f r s
  | .vsub w d a b p f r => execVsub w d a b p f r s
  | .vmul w d a b p f r => execVmul w d a b p f r s
  | .vfma w d a b p f r => execVfma w d a b p f r s
  | .vfms w d a b p f r => execVfms w d a b p f r s
  | .vnfma w d a b p f r => execVnfma w d a b p f r s
  | .vmin w d a b p f r => execVmin w d a b p f r s
  | .vmax w d a b p f r => execVmax w d a b p f r s
  | .vminm w d a b p f r => execVminm w d a b p f r s
  | .vmaxm w d a b p f r => execVmaxm w d a b p f r s
  | .vabs w d a p f r => execVabs w d a p f r s
  | .vneg w d a p f r => execVneg w d a p f r s
  | .vand w d a b p f r => execVand w d a b p f r s
  | .vor w d a b p f r => execVor w d a b p f r s
  | .vxor w d a b p f r => execVxor w d a b p f r s
  | .vshl w d a b p f r => execVshl w d a b p f r s
  | .vshr w d a b p f r => execVshr w d a b p f r s
  | .vsra w d a b p f r => execVsra w d a b p f r s
  | .vcmp w d a b c f r => execVcmp w d a b c f r s
  | .vsel w d a b p f r => execVsel w d a b p f r s
  | .vcvt w d a t p f r => execVcvt w d a t p f r s
  | .vred w d a x o p f r => execVred w d a x o p f r s
  | .vscan w d a x o p f r => execVscan w d a x o p f r s
  | .vperm w d a b p f r => execVperm w d a b p f r s
  | .vbcast w d a im p f r => execVbcast w d a im p f r s
  | .vtrn w d a p f r => execVtrn w d a p f r s
  | .vrcp w d a p f r => execVrcp w d a p f r s
  | .vrsq w d a p f r => execVrsq w d a p f r s
  | .vrfix w d a b p f r => execVrfix w d a b p f r s
  | .vrsfix w d a b p f r => execVrsfix w d a b p f r s
  | .vexp2 w d a p f r => execVexp2 w d a p f r s
  | .vlog2 w d a p f r => execVlog2 w d a p f r s
  | .vsin w d a p f r => execVsin w d a p f r s
  | .vcos w d a p f r => execVcos w d a p f r s
  | .vsplat w d k sp p => execVsplat w d k sp p s
  | .vomov w d a p f r => execVomov w d a p f r s
  | .vmov w d a p f r => execVmov w d a p f r s
  | .vld d im o p => execVld d im o p s
  | .vst d im o p => execVst d im o p s
  | .vbld d im o p => execVbld d im o p s
  | .vbst d im o p => execVbst d im o p s
  | .vsld d im o p => execVsld d im o p s
  | .vsst d im o p => execVsst d im o p s
  | .vgth w d a o p => execVgth w d a o p s
  | .vsct d a o p => execVsct d a o p s
  | .viset im sp o => execViset im sp o s
  | .pset p a e => execPset p a e s
  | .pfirst p a => execPfirst p a s
  | .pminmax d a b o => execPminmax d a b o s
  | .vfr x im => execVfr x im s
  | .vfc x => execVfc x s
  | .vmode x im => execVmode x im s
  | .vpop d q p => execVpop d q p s
  | .vpush d q p => execVpush d q p s
  | _ => .next s

end Sys2Proof.Machine
end

