-- ==== Sys2Proof/Machine/Rendezvous.lean ====
section
/-! DEFINITION. Readiness and the choice of the strand a physical cluster serves (R180 to R186), and RENDEZVOUS (R114, R115, R180, R181). -/

namespace Sys2Proof.Machine

/-! Readiness. -/

/-- The C write of VMODE that took effect at a rendezvous takes effect again when V, taken back before it, issues its word of that rendezvous anew
(R264, R363; log entry 6). -/
def Strand.vmodeAgain (σ : Strand) : Option (BitVec 2) :=
  if σ.v.issuesAlone then σ.vr.vmodeAt.lookup (σ.rdvs + 1 - σ.v.past) else none

/-- A hold group that a trap suspended is reopened as its V cluster issues again: its last-result entries return (R189). Outside a group
nothing returns. -/
def State.reopen (s0 : State) (pos : Nat) (cl : Cluster) : State :=
  let s : State := match (s0.ch.strand? pos).bind Strand.vmodeAgain, cl with
    | some m, .v => { s0 with ch := s0.ch.modStrand pos fun τ => { τ with vr := { τ.vr with vmode := m } } }
    | _, _ => s0
  match s.ch.strand? pos with
  | some σ =>
    if cl = .v ∧ σ.trap.latch ≠ [] ∧ σ.trap.phase = .run then
      let c1 := if σ.v.group = 0 then s.ch else s.ch.modCore (coreOf pos) fun k => { k with latch := σ.trap.latch }
      { s with ch := c1.modStrand pos fun τ => { τ with trap := { τ.trap with latch := [] } } }
    else s
  | none => s

/-- The turn of a cluster of a slot. -/
def turnOf (pos : Nat) (cl : Cluster) (w : Word) : Turn := { pos := pos, cl := cl, word := w, pfx := none }

/-- G, M and V take a snapshot of the scalars and descriptors, and a C write of VMODE takes effect (R115, R264). -/
def Strand.snapshot (σ : Strand) (next : Nat) : Strand :=
  let x : Snap := { s := σ.s, od := σ.od }
  { σ with gr := { σ.gr with snap := x }, mr := { σ.mr with snap := x }, rdv := next, rdvs := σ.rdvs + 1,
           vr := { σ.vr with snap := x, vmode := σ.vr.vmodeC.getD σ.vr.vmode, vmodeC := none,
                              vmodeAt := (σ.vr.vmodeC.map fun m => (σ.rdvs + 1, m)).toList ++ σ.vr.vmodeAt } }

/-- The word would issue now, with or without a fault: tried with the cluster's word let go, it goes on or its strand traps. -/
def State.couldIssue (s : State) (pos : Nat) (cl : Cluster) (w : Word) : Bool :=
  match decodeWord cl w, s.ch.strand? pos with
  | .error _, _ => true
  | _, none => false
  | .ok i, some σ =>
    let c1 := s.ch.modStrand pos fun τ => τ.modCl cl fun k => { k with released := true }
    let killed (c : Chip) : Option Nat := (c.job? σ.who.job).map (·.killStep)
    match runWord i (State.reopen { s with ch := { c1 with turn := turnOf pos cl w } } pos cl) with
    | .next t => (match t.ch.strand? pos with
        | some τ => !(τ.cl cl).released || τ.trap.phase != σ.trap.phase
        | none => true) || killed t.ch != killed s.ch
    | _ => true

/-- The sync-marked word a cluster has reached and that waits for a rendezvous (R180). -/
def Strand.syncWord (σ : Strand) (cl : Cluster) : Option Word :=
  let k := σ.cl cl
  (k.wordAt k.pc).filter fun w => wordSync w && k.group == 0 && !k.released && !k.issuesAlone

/-- The clusters of a strand that have not ended: its rendezvous set. -/
def Strand.live (σ : Strand) : List Cluster := [Cluster.c, .g, .m, .v].filter fun k => !(σ.cl k).ended

/-- The three conditions of R180: each cluster of the set has reached a sync-marked word, each word is ready with the snapshot that the
rendezvous takes (R93, R115), and every scalar register that C writes before has its value (R115). While pre-emption is pending the strand waits at
the point before it (R193). -/
def State.rendezvousReady (s : State) (σ : Strand) : Bool :=
  let after : State := { s with ch := s.ch.modStrand σ.pos fun τ => τ.snapshot s.ch.nextId }
  !σ.live.isEmpty && σ.trap.phase == .run && !σ.trap.pend
    && (σ.live.all fun k => s.ch.mayIssue σ k && (match σ.syncWord k with
      | some w => after.couldIssue σ.pos k w
      | none => false))
    && σ.busy.all fun b => match b.reg with
      | .s _ => false
      | _ => true

/-- A strand's cluster is ready (R182). -/
def State.ready (s : State) (σ : Strand) (cl : Cluster) : Bool :=
  if (σ.syncWord cl).isSome then s.rendezvousReady σ
  else match nextWord s σ.pos cl with
    | .none => false
    | .fault _ => true
    | .word w => s.couldIssue σ.pos cl w

/-! Choice (R183, R184). -/

/-- Where a slot stands in the order of service, most recent first; one not yet served stands last. A strand that is new to a slot has the
place of the slot's former strand (log entry 79). -/
def servedRank (k : Core) (cl : Cluster) (slot : Nat) : Nat :=
  let l := (k.served.lookup cl).getD []
  l.findIdx (· == slot)

/-- Of two ready strands, the one R183 puts first by rules 2 to 5; a tie goes to the lower slot. -/
def Chip.putsFirst (c : Chip) (cl : Cluster) (σ τ : Strand) : Bool :=
  let aged (x : Strand) : Bool := decide ((c.ageOf x).toNat ≤ (x.cl cl).wait)
  let rdv (x : Strand) : Bool := (x.syncWord cl).isSome
  let k := c.core (coreOf σ.pos)
  let lower := decide (σ.pos < τ.pos)
  if aged σ != aged τ then aged σ
  else if aged σ then (if (σ.cl cl).wait = (τ.cl cl).wait then lower else decide ((τ.cl cl).wait < (σ.cl cl).wait))
  else if rdv σ != rdv τ then rdv σ
  else if σ.who.role ≠ τ.who.role then decide (σ.who.role < τ.who.role)
  else
    let a := servedRank k cl (σ.pos % 4)
    let b := servedRank k cl (τ.pos % 4)
    if a = b then lower else decide (b < a)

/-- The physical cluster chooses the strand (R183): with a hold group open it is the group's strand (rule 1, R185), and else no
other ready strand of its core comes before it. -/
def State.chosen (s : State) (σ : Strand) (cl : Cluster) : Bool :=
  match (s.ch.core (coreOf σ.pos)).hold.lookup cl with
  | some slot => slot == σ.pos % 4
  | none => s.ch.strands.all fun τ => τ.pos == σ.pos || coreOf τ.pos != coreOf σ.pos || s.ch.putsFirst cl σ τ || !s.ready τ cl

/-! RENDEZVOUS. -/

/-- One word of a rendezvous issues. -/
def issueReleased (s : State) (pos : Nat) (cl : Cluster) : State :=
  match (s.ch.strand? pos).bind fun σ => (σ.cl cl).wordAt (σ.cl cl).pc with
  | none => s
  | some w =>
    let c1 := { s.ch with turn := turnOf pos cl w }
    match decodeWord cl w with
    | .error e => s.trapTo c1 pos cl (decodeFault e)
    | .ok i => match runWord i { s with ch := c1 } with
      | .next t => t
      | _ => s

/-- RENDEZVOUS (R180): the strand is ready for it and every physical cluster of its set chooses the strand; the snapshot is taken,
the agents' seen entries join (R138), and the words issue together. -/
def execRendezvous (core slot : Nat) (s : State) : Host.Outcome State Fault Refusal :=
  let pos := 4 * core + slot
  match s.ch.strand? pos with
  | none => .next s
  | some σ =>
    if σ.live.all (fun k => s.chosen σ k && !s.ch.spentNow core k) && s.rendezvousReady σ then
      let c1 := s.ch.modStrand pos fun τ =>
        σ.live.foldl (fun x k => x.modCl k fun y => { y with released := true }) (τ.snapshot s.ch.nextId)
      .next (σ.live.foldl (fun t k => issueReleased t pos k) { s with ch := c1.rendezvousEdge pos σ.live })
    else .next s

end Sys2Proof.Machine
end

