-- ==== Sys2Proof/Machine/Traps.lean ====
section
/-! DEFINITION. Events of a trap: FAULT_FREEZE_END, TRAP_HANDLER_ENTRY (R389 to R397), WATCHDOG_EXPIRY (R399, R400) and
CORRECTION_FREEZE_END (R48, R49). -/

namespace Sys2Proof.Machine

/-! The freeze record (R393). -/

def Unit_.num : Unit_ → Nat
  | .bucket => 0
  | .tile => 1
  | _ => 2

/-- Slot, stream and sequence number of a command as the record lays them out, at bits 1:0, 10:8 and 31:16. -/
def Op.tagWord (o : Op) : Nat := o.pos % 4 + 2 ^ 8 * odStream (o.od.getD odFresh) + 2 ^ 16 * o.seq.toNat

/-- A slot and cluster of the record. -/
def recordCluster (s : State) (pos : Nat) (cl : Cluster) : Nat :=
  match s.ch.strand? pos with
  | none => 0
  | some σ =>
    let k := σ.cl cl
    let ready := s.ready σ cl
    k.pc % 2 ^ 32 + cond ready (2 ^ 32) 0 + cond ((σ.syncWord cl).isSome && !ready) (2 ^ 33) 0 + cond (k.group != 0) (2 ^ 34) 0
      + cond k.ended (2 ^ 35) 0 + cond σ.privileged (2 ^ 36) 0

/-- Slots and causes of the strands that have faulted in a freeze: those that trap, those whose fault is a double fault, and those with a late fault
while a trap is being taken or the handler runs (R391). -/
def freezeCauses (c : Chip) (core : Nat) : Nat :=
  ((c.core core).faults.map fun f => 2 ^ f.slot + f.cause.toNat * 2 ^ (8 * f.slot + 8)).sum

/-- The freeze record of a core (R393). The counts of the streamer, screen, collective
and exchange fields stand in 32-bit words in the order the record names them (log entry 28). -/
def freezeRecord (s : State) (core : Nat) : List Byte :=
  let s0 := s.thaw core
  let mine := s.ch.ops.filter fun o => coreOf o.pos == core
  let mq := mine.filter fun o => o.cl == .m && (engineOf o.instr).isSome
  let busy (o : Op) : Bool := o.status == .started || o.status == .sent
  let mWord (o : Op) : Nat :=
    o.tagWord + 4 * (((engineOf o.instr).map Unit_.num).getD 0) + cond (busy o || o.status == .held) 16 0
      + cond (o.status == .held) 32 0 + 64
  let unit (u : Unit_) : Nat :=
    let l := mq.filter fun o => engineOf o.instr == some u
    let tag (o : Op) : Nat := o.seq.toNat + 2 ^ 16 * odStream (o.od.getD odFresh) + 2 ^ 19 * (o.pos % 4)
    match l.find? busy, l.find? fun o => o.status == .held with
    | some o, h => tag o + 2 ^ 21 + cond h.isSome (2 ^ 22) 0
    | none, some h => tag h + 2 ^ 22
    | none, none => 0
  let strm := mine.filter fun o => engineOf o.instr == some .streamer && o.status != .held
  let moving := strm.filter busy
  let counts (u : Unit_) : List Byte :=
    let l := mine.filter fun o => engineOf o.instr == some u && o.status != .held
    leBytes 4 (l.filter fun o => !busy o).length ++ leBytes 4 (l.filter busy).length
  leBytes 8 (s.ch.core core).freezeAt ++ leBytes 8 (freezeCauses s.ch core)
    ++ (List.range 4).flatMap (fun k => [Cluster.c, .g, .m, .v].flatMap fun cl => leBytes 8 (recordCluster s0 (4 * core + k) cl))
    ++ (List.range 32).flatMap (fun k => leBytes 8 ((mq[k]?.map mWord).getD 0))
    ++ leBytes 8 (unit .bucket) ++ leBytes 8 (unit .tile) ++ leBytes 8 (unit .drain)
    ++ leBytes 4 (strm.filter fun o => !o.ring && !busy o).length ++ leBytes 4 (strm.filter fun o => o.ring).length
    ++ leBytes 4 moving.length ++ leBytes 4 0
    ++ (List.range 8).flatMap (fun k => leBytes 8 ((moving[k]?.map fun o => o.tagWord + 2 ^ 32 * o.credited).getD 0))
    ++ counts .screen ++ counts .collective ++ counts .link ++ List.replicate 8 0 ++ List.replicate 488 0

/-! FAULT_FREEZE_END. -/

/-- FLAGS of the header of a trap (R396). -/
def trapFlags (σ : Strand) : Nat := cond σ.trap.dziAtFault 1 0

/-- The last-result entries that stand with a strand in its frame (R189, R394): those of the core, or those it keeps already when its V
cluster has not issued since. Only those of an open hold group return with it (`State.reopen`). -/
def Strand.keepsLatch (σ : Strand) (latch : List Latch) : List Latch :=
  if σ.trap.latch.isEmpty then latch else σ.trap.latch

/-- A strand leaves the freeze: its open hold groups no longer hold the physical clusters, and the last-result entries are kept with it
(R189). -/
def Strand.suspend (σ : Strand) (latch : List Latch) : Strand :=
  { σ with trap := { σ.trap with phase := .framed, latch := σ.keepsLatch latch } }

/-- The record of a freeze is captured in its first cycle (R393). -/
def State.captureRecord (s : State) (k : Core) : Core :=
  if k.freeze = 16 ∧ k.record = [] then { k with record := freezeRecord s k.id } else k

/-- FAULT_FREEZE_END (R391): the 16 cycles have passed; the freeze record of the first of them, with every fault of the freeze, is copied to
the context area of every strand that faulted in it, and each that traps writes its frame. -/
def execFaultFreezeEnd (core : Nat) (s : State) : Host.Outcome State Fault Refusal :=
  let k0 := s.ch.core core
  let faulted := s.ch.strands.filter fun σ => coreOf σ.pos == core && σ.trap.phase == .frozen
  let hit := s.ch.strands.filter fun σ => coreOf σ.pos == core && (σ.trap.phase == .frozen || k0.faults.any fun f => f.slot == σ.pos % 4)
  if k0.freeze ≠ 0 ∨ (faulted.isEmpty ∧ k0.faults.isEmpty) then .next s
  else
    let first := k0.record
    let record := if first = [] then freezeRecord s core else first.take 8 ++ leBytes 8 (freezeCauses s.ch core) ++ first.drop 16
    let frames := faulted.flatMap fun σ => frameWrites s (σ.suspend k0.latch) (ctxArea σ.pos) σ.trap.info (trapFlags σ)
    let writes := frames ++ hit.map fun σ => (ctxArea σ.pos + 0x13000, record)
    let c0 := hit.foldl (fun c σ => c.areaWritten (quadOf core) (ctxArea σ.pos)) s.ch
    let c1 := faulted.foldl (fun c σ => c.modStrand σ.pos fun τ => τ.suspend k0.latch) c0
    .next (s.commit { chip := c1.modCore core fun k =>
      { k with record := [], faults := [], hold := k.hold.filter fun e => !(faulted.any fun σ => σ.pos % 4 == e.2) }, writes := writes })

/-! TRAP_HANDLER_ENTRY. -/

/-- An operation of no engine that has come as far as it can: it waits, or its predecessors are not performed (R391 step 3). -/
def State.atRest (s : State) (o : Op) : Bool :=
  (engineOf o.instr).isSome || o.status == .waiting || o.status == .held
    || (o.status != .sent && (!s.ch.mayBegin o || (match performOp s o with
      | .notYet e => e.writes.isEmpty && decide (e.chip = s.ch)
      | _ => false)))

/-- TRAP_HANDLER_ENTRY (R389, R391): the words issued already have completed or wait; the frame holds the strand as it then stands,
and C goes on at word 0 of the handler, in privileged mode; a scalar register that awaits a waiting operation awaits it again from `resume`
on. -/
def execTrapHandlerEntry (core slot : Nat) (s : State) : Host.Outcome State Fault Refusal :=
  let pos := 4 * core + slot
  match s.ch.strand? pos with
  | none => .next s
  | some σ =>
    if σ.trap.phase ≠ .framed ∨ s.ch.killing σ.who.job ∨ (s.ch.ops.any fun o => o.pos == pos && !s.atRest o) then .next s
    else
      let s1 : State := { s with ch := s.ch.recordWaits pos }
      let enter (τ : Strand) : Strand :=
        { τ with c := { ClusterSt.fresh (Config.handler (dieOf core)) with streams := τ.c.streams }, busy := τ.busy.filter fun b => !b.reg.isS,
                 trap := { τ.trap with phase := .handler, busy := τ.busy.filter (fun b => b.reg.isS), noted := τ.trap.score.length,
                                       savedC := some { τ.c with stall := 0, wait := 0 }, entry := s.ch.nextId } }
      let c2 := (s1.ch.modStrand pos enter).areaWritten (quadOf core) (ctxArea pos)
      .next (s.commit { chip := c2, writes := frameWrites s1 σ (ctxArea pos) σ.trap.info (trapFlags σ) })

/-! WATCHDOG_EXPIRY. -/

/-- A cluster's count has reached its bound (R400). -/
def Strand.expired (σ : Strand) (cl : Cluster) : Bool :=
  !(σ.cl cl).ended && decide (bits σ.trap.wdog.toNat 0 32 * 1024 ≤ (σ.cl cl).stall)

/-- The save of a strand begins (step 1 of R401). -/
def Strand.beginSave (σ : Strand) (forced : Bool) (cycle : Nat) : Strand :=
  let calm (k : ClusterSt) : ClusterSt := { k with stall := 0, wait := 0 }
  { σ with c := calm σ.c, g := calm σ.g, m := calm σ.m, v := calm σ.v,
           trap := { σ.trap with phase := .saving, forced := forced, saveStart := some cycle } }

/-- The scoreboard entries of late faults that have come while the handler runs stand in its frame (R397). -/
def State.noteScores (s : State) : State :=
  let late (σ : Strand) : List (Nat × List Byte) :=
    if σ.trap.phase = .handler then
      (σ.trap.score.drop σ.trap.noted).flatMap fun e => match s.ch.op? e.op with
        | some o => [(ctxArea σ.pos + 0x1000 + 64 * e.entry, scoreBytes o e), (ctxArea σ.pos + 0x13600 + 40 * e.entry, operandBytes o)]
        | none => []
    else []
  let seen (σ : Strand) : Strand := { σ with trap := { σ.trap with noted := σ.trap.score.length } }
  let writes := s.ch.strands.flatMap late
  if writes.isEmpty then s else s.commit { chip := { s.ch with strands := s.ch.strands.map seen }, writes := writes }

/-- WATCHDOG_EXPIRY (R400): in privileged mode a double fault; while pre-emption is pending a forced save; during a save nothing;
otherwise trap 0x3C, which joins a trap that is being taken already. The counts of the strand start again from zero; a count of G, M or V
that does not rise in the handler does not expire there (log entry 29). -/
def execWatchdogExpiry (core slot : Nat) (cluster : Cluster) (s : State) : Host.Outcome State Fault Refusal :=
  let pos := 4 * core + slot
  match s.ch.strand? pos with
  | none => .next s
  | some σ =>
    let c1 := s.ch.modStrand pos fun τ => [Cluster.c, .g, .m, .v].foldl (fun τ k => τ.modCl k fun x => { x with stall := 0 }) τ
    if !σ.expired cluster || s.ch.killing σ.who.job then .next s
    else match σ.trap.phase with
      | .handler => if cluster ≠ .c then .next s else .next (s.trapTo c1 pos cluster { cause := 0x3C, kind := 6 })
      | .run =>
        if σ.trap.pend then .next { s with ch := s.ch.modStrand pos fun τ => τ.beginSave true s.ch.cycle }
        else .next (s.trapTo c1 pos cluster { cause := 0x3C, kind := 6 })
      | .bound => .next s
      | .saving => .next s
      | .frozen => .next (s.trapTo c1 pos cluster { cause := 0x3C, kind := 6 })
      | .framed => .next (s.trapTo c1 pos cluster { cause := 0x3C, kind := 6 })

/-- CORRECTION_FREEZE_END (R48, R49): the 24 cycles have passed and the core goes on; the corrected word was written back as it was
read. -/
def execCorrectionFreezeEnd (core : Nat) (s : State) : Host.Outcome State Fault Refusal :=
  if (s.ch.core core).corr = 1 then .next { s with ch := s.ch.modCore core fun k => { k with corr := 0 } } else .next s

end Sys2Proof.Machine
end

