-- ==== Sys2Proof/Machine/Clock.lean ====
section
/-! DEFINITION. The passing of cycles (R184, R242, R370, R400), and what takes place with no row of the opcode table. -/

namespace Sys2Proof.Machine

/-- One cycle of a cluster's counts, when it has issued no word in it: the wait count of a ready cluster rises (R184); the stall count of one that is not ready
rises, but not during a freeze, a migration or a spill-ring stall, nor in G, M and V in privileged mode (R400). -/
def tickCluster (s : State) (σ : Strand) (cl : Cluster) : ClusterSt :=
  let mine := (s.ch.core (coreOf σ.pos)).spent.lookup cl == some (σ.pos % 4)
  let k := { σ.cl cl with yielded := mine && (σ.cl cl).yielded }
  let quiet := σ.trap.phase == .bound || s.ch.coreHeld (coreOf σ.pos) || (s.ch.quad (quadOfPos σ.pos)).ringStall.isSome || (σ.privileged && cl != .c)
  if k.ended || mine then k
  else if s.ready σ cl then { k with wait := k.wait + 1 }
  else if quiet then k
  else { k with stall := k.stall + 1 }

/-- One cycle of a strand: its counts rise, and the flags of the commands performed in the cycle are past (R264). In a fault freeze its tokens do not
change (R391). -/
def tickStrand (s : State) (σ : Strand) : Strand :=
  let τ : Strand := { σ with
    c := tickCluster s σ .c, g := tickCluster s σ .g, m := tickCluster s σ .m, v := tickCluster s σ .v, mr := { σ.mr with flagsNow := 0 } }
  if s.ch.faultFrozen (coreOf σ.pos) then τ else τ.settleTokens true

/-- A job has a strand or a live unit on a core. -/
def Chip.jobOn (c : Chip) (job : BitVec 64) (core : Nat) : Bool :=
  (c.strands.any fun σ => σ.who.job == job && coreOf σ.pos == core)
    || c.units.any fun u => u.job == job && u.placed && !u.ended && u.core == core

/-- One cycle of a core: its clusters may issue again, its freezes run down (R48, R391), a fault freeze that began in the cycle has its record
(R393), and an AGE written in it is in force while the job stays (R264). -/
def tickCore (s : State) (k : Core) : Core :=
  let ages := k.agesNext.filter fun e => s.ch.jobOn e.1 k.id
  { s.captureRecord k with
    spent := [], corr := if 1 < k.corr then k.corr - 1 else k.corr, freeze := k.freeze - 1, ages := ages, agesNext := ages }

/-- One cycle of the chip: CYCLE advances (R242), counts rise, a `tkpost` with a mask of zero is done (R112), it is noted which queues have an
entry ready (R370), and the curator clears VALID in the records of strands that have ended (R382). -/
def tickChip (s : State) : Chip :=
  { s.ch with cycle := s.ch.cycle + 1, side := { s.ch.side with fresh := [] }, strands := s.ch.strands.map (tickStrand s),
              queues := s.noteReady.queues, cores := s.ch.cores.map (tickCore s),
              binds := s.ch.binds.map fun b => if b.ended then { b with valid := false } else b }

/-- One cycle, and what takes place as soon as it can: streams that a `sunbind` released are unbound (R303), commands resolve (R110), rebases end (R144), the home of a hot page is asked (R83),
queues pass over entries that nobody can stamp (R196), late faults enter the frames of running handlers (R397), a channel over its limit for 10 s opens a
service request (R425), and the members of the group hear how many packets of the old generation are in flight (R414). -/
def tick1 (s : State) : State :=
  let s1 : State := { s with ch := (tickChip s).releaseLeaving.resolveOps.finishRebases.checkHot.reportOld }
  ((s1.ch.queues.map (·.q)).foldl State.skipEntry s1.askHomes).noteScores

def tickN : Nat → State → State
  | 0, s => s
  | n + 1, s => tickN n (tick1 s)

/-- A part of a pod job that has units here hears of the others; a package with no number accepts no fabric traffic (R413). -/
def Chip.hearsPod (c : Chip) (pod : BitVec 32) : Bool := pod != 0 && c.plat.pkgNum.isSome && c.jobs.any fun j => j.pod == pod

/-- What is no word and no event of the table, cycles left aside: an upset of a stored word, a sector that fails for good, a replaced TLB entry or line, what
another package sends over a peer link or gives to a collective, and what a part of a pod job says of its placement, its arrivals and its kill. -/
def Chip.passing (c : Chip) (ch : Choice) : Chip :=
  match ch with
  | .upset a corr => { c with side := c.side.upset a corr }
  | .stuck a => { c with side := c.side.stick a }
  | .evict place quad page =>
    let tlbs := c.xl.tlbs.filter fun t => !(t.quad == quad && t.place == place && t.page == page && !(quad && c.pinned place t))
    { c with xl := { c.xl with tlbs := tlbs } }
  | .dropLine quad line => { c with xl := { c.xl with lines := c.xl.lines.filter fun l => !(l.quad == quad && l.line == line) } }
  | .ringFault quad => c.modQuad quad fun q => { q with ringStall := some (q.ringStall.getD c.cycle) }
  | .peerSend job link tag data => c.modLink job link false fun l => { l with arriving := l.arriving ++ [.send tag data none] }
  | .peerPermit job link => c.modLink job link false fun l => { l with arriving := l.arriving ++ [.permit none] }
  | .podShare p => if c.hearsPod p.pod then { c with pods := c.pods ++ [p] } else c
  | .podPlaced pod part pkg =>
    if c.plat.pkgNum.isNone || c.signals.contains (pod, part, pkg) then c else { c with signals := c.signals ++ [(pod, part, pkg)] }
  | .podArrived pod part n => if c.hearsPod pod then c.putArrival pod part n else c
  | .podKilled pod flags =>
    if c.hearsPod pod then (c.jobs.filter fun j => j.pod == pod).foldl (fun c j => c.startKill j.id (flags % 16)) c else c
  | .tick _ => c
  | .issue .. => c
  | .event _ => c
  | .bar0Read .. => c
  | .bar2Read .. => c
  | .bar4Resize port log => c.resizeBar port log

def passing (ch : Choice) (s : State) : State :=
  match ch with
  | .tick n => tickN n s
  | .bar0Read port off => s.bar0Read port off
  | .bar2Read port off => s.bar2Read port off
  | other => { s with ch := s.ch.passing other }

end Sys2Proof.Machine
end

