-- ==== Sys2Proof/Machine/Kill.lean ====
section
/-! DEFINITION. Killing a job: JOBKILL, KILL_DRAINED and KILL_CERTIFICATE (R55, R404, R405). -/

namespace Sys2Proof.Machine

/-- A migrating quad holds a unit of the job: the migration completes first (R55). -/
def Chip.killWaits (c : Chip) (job : BitVec 64) : Bool :=
  c.units.any fun u => u.job == job && u.placed && !u.ended
    && c.moves.any fun m => quadOf u.core == m.die * 64 + m.src || quadOf u.core == m.die * 64 + m.dst

/-- A queued command: issued to an engine and not started. -/
def Op.queuedCommand (o : Op) : Bool := (engineOf o.instr).isSome && o.status == .issued

/-- The other parts of a pod job are told that it is killed, and why (R404). -/
def Chip.tellKill (c : Chip) (j : Job) : Chip := match c.plat.pkgNum with
  | some n => if 1 < j.podN then { c with out := c.out ++ [.killed j.pod j.podIdx (j.killFlags % 16) n] } else c
  | none => c

/-- Step 2 of R404: queued commands are cancelled, held operations discarded, waiting ones cancelled, and the other parts of a pod job learn
that matched collectives end (R172). -/
def State.cancel (s : State) (job : BitVec 64) : State :=
  match s.ch.job? job with
  | none => s
  | some j =>
    if j.killStep ≠ 1 ∨ s.ch.killWaits job then s
    else
      let mine := s.ch.ops.filter fun o => o.job == job
      let queued := mine.filter Op.queuedCommand
      let waits := mine.filter fun o => o.status == .waiting || (o.awaits && (o.status == .issued || o.status == .started))
      let c1 := (queued ++ waits).foldl (fun c o => c.dropOp o.id) s.ch
      let c2 := (queued.map fun o => quadOfPos o.pos).eraseDups.foldl Chip.drainRing c1
      let c3 := ((c2.tellParts j 0 .ended).tellKill j).modJob job fun x => { x with killStep := 2, cancelled := x.cancelled + queued.length }
      (mine.filter fun o => o.status == .held).foldl
        (fun t o => t.discard o (((t.ch.strand? o.pos).bind fun σ => σ.trap.score.find? fun e => e.op == o.id).map Score.cause |>.getD 0x31))
        { s with ch := c3 }

/-- JOBKILL (R404): a write of the host. -/
def execJobkill (port : BitVec 3) (job : BitVec 64) (s : State) : Host.Outcome State Fault Refusal :=
  s.hostWrite port fun s => ({ s with ch := s.ch.startKill job 8 } : State).cancel job

/-- An operation is still in flight: a request of it is at a peer, it can go on, or its core or its storage stands still for now. -/
def State.inFlight (s : State) (o : Op) : Bool :=
  o.status == .sent || s.ch.xl.egress.any (fun e => e.op == o.id) || !s.ch.coreMoves o.pos || s.ch.moving (o.locs.flatMap fun l => l.segs)
    || (s.ch.progresses o &&
      if engineOf o.instr = some .collective then !decide (performCollective s o = s)
      else match performOp s o with
        | .notYet e => !e.writes.isEmpty || !decide (e.chip = s.ch)
        | _ => true)

/-- KILL_DRAINED (steps 3 to 5 of R404): every started command has come to its end or stands where it may stop, and no request of the job
waits in an egress queue; the rest stops, and the job's delivery contexts are closed. -/
def execKillDrained (job : BitVec 64) (s : State) : Host.Outcome State Fault Refusal :=
  let s1 := s.cancel job
  match s1.ch.job? job with
  | none => .next s
  | some j =>
    if j.killStep ≠ 2 ∨ s1.ch.ops.any (fun o => o.job == job && s1.inFlight o) ∨ s1.ch.xl.egress.any (fun e => e.job == job) then .next s1
    else
      let c := ({ s1.ch with ops := s1.ch.ops.filter fun o => o.job != job } : Chip).modJob job fun x => { x with killStep := 3 }
      .next { s1 with ch := c.closeContexts j }

/-- FLAGS of a drain certificate: bit 0 unless a context was abandoned, bits 3 to 1 the reasons of the kill. -/
def killFlagByte (flags : Nat) : Nat := flags % 16 / 2 * 2 + cond (flags.testBit 4) 0 1

/-- The drain certificate (R405). -/
def drainBytes (j : Job) (cycle dies : Nat) : List Byte :=
  leBytes 8 j.id.toNat ++ leBytes 8 cycle ++ leBytes 1 dies ++ leBytes 1 (killFlagByte j.killFlags) ++ [0, 0] ++ leBytes 4 j.cancelled
    ++ leBytes 4 j.contexts ++ List.replicate 36 0

/-- The dies that held units of a job, as a mask. -/
def Chip.diesOf (c : Chip) (job : BitVec 64) : Nat :=
  (c.units.filter fun u => u.job == job).foldl (fun n u => n ||| 2 ^ dieOf u.core) 0

/-- KILL_CERTIFICATE (step 6 of R404, R405): every context is closed or abandoned; the certificate is written, vector 0 raised, and the
job's entry completes with status 0x07, or 0x03 where a restore was refused (R403). -/
def execKillCertificate (job : BitVec 64) (s : State) : Host.Outcome State Fault Refusal :=
  match s.ch.job? job with
  | none => .next s
  | some j =>
    let closing := s.ch.plat.ctxs.any fun x => x.closing && !x.closed && x.job == some j.id
    if j.killStep ≠ 3 ∨ closing ∨ s.endHeld j then .next s
    else
      let cert := drainBytes j s.ch.cycle (s.ch.diesOf job)
      let s1 := (s.setPlat fun p =>
        { p with certs := (p.certs ++ [cert]).drop (p.certs.length - 63), certCount := p.certCount + 1 }).emit [.irq none 0]
      .next (s1.endJob j (if j.status = 0 then 0x07 else j.status)).afterKills

end Sys2Proof.Machine
end

