-- ==== Sys2Proof/Machine/Placement.lean ====
section
/-! DEFINITION. Placement within a die (R23 to R30, R46, R164, R379 to R381), the start and the end of strands (R178, R179, R382). -/

namespace Sys2Proof.Machine

/-! Room. -/

/-- The lowest base at a multiple of `step` where `size` bytes fit below `limit` beside the used runs (log entry 36). -/
def fitWindow (size step limit : Nat) (used : List (Nat × Nat)) : Option Nat :=
  if size = 0 then some 0
  else ((List.range (limit / step)).map (· * step)).find? fun b =>
    decide (b + size ≤ limit) && used.all fun u => decide (u.2 = 0 ∨ b + size ≤ u.1 ∨ u.1 + u.2 ≤ b)

/-- The bench window of a unit is named by an operation that is not performed: it is released after that operation (R26). -/
def Chip.windowNamed (c : Chip) (u : UnitRec) : Bool :=
  let a := benchAt u.core + u.benchBase
  c.ops.any fun o => o.job == u.job && o.segs.any fun g => g.peer.isNone && decide (a ≤ g.phys ∧ g.phys < a + u.benchSize)

/-- Units that occupy windows of a core. -/
def Chip.unitsOn (c : Chip) (core : Nat) : List UnitRec :=
  c.units.filter fun u => u.core == core && u.placed && (!u.ended || c.windowNamed u)

/-- The stratum windows and the receive slots that stand in a core's general stratum (R24, R164). -/
def Chip.stratumUsed (c : Chip) (core : Nat) : List (Nat × Nat) :=
  (c.jobs.flatMap fun j => (j.cols.filter fun w => w.core == core).map fun w => (w.base, j.stratw))
    ++ ((c.links.filter fun l => l.placed && !(decide (0x10 ≤ l.link.toNat) && l.far) && decide (4 * l.quad ≤ core ∧ core < 4 * l.quad + l.slots)).map
      fun l => (Config.stratumSize (dieOf core) - l.slotSize, l.slotSize))

/-! The slot table (R381). -/

/-- The bind record of a logical slot; all zero when none has been written. -/
def Chip.bindAt (c : Chip) (pos : Nat) : BindRec :=
  (c.binds.find? fun b => b.pos == pos).getD
    { pos := pos, quadpos := 0, accB := 0, benchB := 0, jslot := 0, unit := 0, weight := 0, role := 0, strand := 0, ended := false, valid := false }

def Chip.putBind (c : Chip) (b : BindRec) : Chip := { c with binds := b :: c.binds.filter fun x => x.pos != b.pos }

def Chip.modBind (c : Chip) (pos : Nat) (f : BindRec → BindRec) : Chip :=
  { c with binds := c.binds.map fun b => if b.pos == pos then f b else b }

/-- The 32 bytes of a record. -/
def BindRec.word (b : BindRec) : BitVec 256 :=
  BitVec.ofNat 256 (cond b.valid 1 0 + cond b.ended 2 0 + 2 ^ 24 * b.strand + 2 ^ 26 * b.role + 2 ^ 28 * b.weight + 2 ^ 32 * b.unit.toNat
    + 2 ^ 56 * b.jslot + 2 ^ 64 * b.benchB + 2 ^ 72 * b.accB + 2 ^ 80 * b.quadpos.toNat)

/-- The slot table of a die: a record for every slot of every physical core, those of spare quads zero (R2, R381). -/
def Chip.slotTable (c : Chip) (die : Nat) : List (BitVec 256) :=
  (List.range (16 * Config.physQuads die)).map fun i =>
    match (Config.floorMap die).findIdx? fun p => p == i / 16 with
    | some q => (c.bindAt (16 * (64 * die + q) + i % 16)).word
    | none => 0

/-- The job that an entry of a die's job table holds. -/
def Chip.jobEntry? (c : Chip) (die jslot : Nat) : Option Job := c.jobs.find? fun j => j.slots.contains (die, jslot)

/-- The slots of a core that can be bound: no strand stands there and VALID is 0 (R382). -/
def Chip.freeSlots (c : Chip) (core : Nat) : List Nat :=
  (List.range 4).filter fun k => (c.strand? (4 * core + k)).isNone && !(c.bindAt (4 * core + k)).valid

/-- The bind record of a strand of a unit of a job (R381). -/
def bindFor (j : Job) (u : UnitRec) (pos k weight : Nat) (valid : Bool) : BindRec :=
  { pos := pos, quadpos := u.quadpos.setWidth 24, accB := u.accBase / 0x10000, benchB := u.benchBase / 0x4000,
    jslot := (j.slots.lookup (dieOf u.core)).getD 0, unit := u.num, weight := weight, role := nth 0 j.roles k, strand := k, ended := false,
    valid := valid }

/-- Where a unit's windows would stand on a core: bench, accumulator and stratum bases; the last is `none` where the job's window
stands there already. -/
structure Room where
  bench : Nat
  acc : Nat
  strat : Option Nat

/-- Room for a unit on a core (R379). -/
def Chip.room (c : Chip) (j : Job) (core : Nat) : Option Room :=
  let us := c.unitsOn core
  let strat : Option (Option Nat) := match j.cols.find? fun w => w.core == core with
    | some _ => some none
    | none => (fitWindow j.stratw 0x10000 (Config.stratumSize (dieOf core)) (c.stratumUsed core)).map some
  match fitWindow j.benchw 0x4000 0x100000 (us.map fun u => (u.benchBase, u.benchSize)),
        fitWindow j.accw 0x10000 0x200000 (us.map fun u => (u.accBase, u.accSize)), strat with
  | some b, some a, some w => if j.nstr ≤ (c.freeSlots core).length then some { bench := b, acc := a, strat := w } else none
  | _, _, _ => none

/-- A quad takes placements (R52, R425). -/
def Chip.quadOpen (c : Chip) (quad : Nat) : Bool :=
  !(c.quad quad).out && !(c.quad quad).noPlace
    && c.moves.all fun m => m.die * 64 + m.src != quad && m.die * 64 + m.dst != quad

/-- The cores a group goes to: the quad with the most cores that it fits, the lowest on a tie, and its fitting cores in order
(R379). -/
def bestQuad (c : Chip) (die g : Nat) (fits : Nat → Bool) : Option (List Nat) :=
  let cores (q : Nat) : List Nat := if c.quadOpen (die * 64 + q) then (List.range' (4 * (die * 64 + q)) 4).filter fits else []
  let best := (List.range (Config.quadsOf die)).foldl (fun (b : List Nat) q => if b.length < (cores q).length then cores q else b) []
  if g ≤ best.length ∧ 0 < g then some (best.take g) else none

/-! Receive slots (R164, R380 step 1). -/

/-- The slots of a job's links on a die are reserved, where nothing else stands; none when the job must wait. -/
def Chip.reserveSlots (c : Chip) (j : Job) (die : Nat) : Option Chip :=
  let ends := (j.endsOn die).filter fun e => c.links.any fun l => l.job == j.id && l.link == e.1.link && l.far == e.2.1 && !l.placed
  let clear (c : Chip) (e : LinkBind × Bool × Nat) : Bool := (List.range e.1.slots).all fun k =>
    let top := Config.stratumSize die - e.1.slotSize
    (c.stratumUsed (4 * e.2.2 + k)).all fun u => decide (u.2 = 0 ∨ u.1 + u.2 ≤ top)
  ends.foldl (fun acc e => acc.bind fun c =>
    if clear c e then some (c.modLink j.id e.1.link e.2.1 fun l => { l with placed := true }) else none) (some c)

/-! Placing a unit (R380). -/

/-- `^done`, the stream of a cluster that the source leaves out (R178). -/
def doneWord : Word := 0xBE000000#32

/-- What a job's images hold as a unit is placed: the streams by strand and cluster, and the `.bench` and `.stratum` images. -/
structure Images where
  streams : List (List Word)
  bench : List Byte
  strat : List Byte

def wordsOfBytes (bs : List Byte) : List Word := (List.range (bs.length / 4)).map fun k => BitVec.ofNat 32 (field bs (4 * k) 4)

/-- Streams read one after another. -/
def readStreams (s : State) (j : Job) : List (Nat × Nat) → Chk (List (List Word))
  | [] => .ok []
  | (off, len) :: rest =>
    (if len = 0 then .ok [doneWord] else (s.devRead j.root (j.prog + off) (4 * len)).bind fun bs => .ok (wordsOfBytes bs)).bind fun w =>
      (readStreams s j rest).bind fun ws => .ok (w :: ws)

def State.readImages (s : State) (j : Job) : Chk Images :=
  let img (x : Nat × Nat) : Chk (List Byte) := if x.2 = 0 then .ok [] else s.devRead j.root (j.prog + x.1) x.2
  (readStreams s j (j.streams.take (4 * j.nstr))).bind fun ws =>
    (img j.bimg).bind fun b => (img j.simg).bind fun t => .ok { streams := ws, bench := b, strat := t }

/-- A job's images have been read (R58, R424). -/
def State.imagesSeen (s : State) (j : Job) : State :=
  let runs := (j.streams.take (4 * j.nstr)).map (fun x => (x.1, 4 * x.2)) ++ [j.bimg, j.simg]
  (runs.filter fun x => x.2 != 0).foldl (fun s x => s.seen .load j.root (j.prog + x.1) x.2) s

/-- The column number of a unit on a core (R28): that of the job's window there, the floor-map number, or the lowest free one. A number that a
saved unit of the job keeps is not free (R26). -/
def Chip.columnFor (c : Chip) (j : Job) (die core : Nat) : Nat :=
  let mine := j.cols.filter fun w => w.die == die
  match mine.find? fun w => w.core == core with
  | some w => w.col
  | none =>
    let taken (n : Nat) : Bool :=
      mine.any (fun w => w.col == n) || c.units.any fun u => u.job == j.id && !u.ended && dieOf u.core == die && u.col == n
    if taken (core % 256) then ((List.range 256).find? fun n => !taken n).getD 0 else core % 256

/-- QUADPOS (R29). -/
def quadposOf (j : Job) (die core col m : Nat) : BitVec 64 :=
  BitVec.ofNat 64 (m + 4 * (Nat.log2 j.gsize) + 16 * (core % 256 / 4) + 2 ^ 12 * col + 2 ^ 20 * die + (if 4 ≤ die then 2 ^ 23 else 0))

/-- The descriptors of a strand at its start (R92, R374). -/
def startDescs (j : Job) (k : Nat) : List (BitVec 14) :=
  (List.range 8).map fun n => (nth none (nth [] j.descs k) n).getD odFresh

/-- Strand `k` of a unit bound to a slot (R381, R382). -/
def boundStrand (j : Job) (im : Images) (u : UnitRec) (pos k : Nat) : Strand :=
  let who : Ident := { job := j.id, unit := u.num, strand := k, nstr := j.nstr, role := nth 0 j.roles k, quadpos := u.quadpos, arg := j.arg,
                       weight := nth 0 j.weights k }
  let img (c : Nat) : List Word := nth [] im.streams (4 * k + c)
  let σ := Strand.fresh pos who (img 0) (img 1) (img 2) (img 3) (startDescs j k)
  { σ with trap := { σ.trap with phase := .bound, age := BitVec.ofNat 12 j.age } }

/-- One unit placed on a core: windows allocated and zeroed, images copied, the column number assigned, the records written, and the
job's lines dropped from the quad's cache (R70). The records of a job without co-residency are valid at once, while groups of it still wait
(log entry 86). -/
def placeUnit (im : Images) (num core m : Nat) (s : State) (j : Job) (r : Room) : State × Job :=
  let die := dieOf core
  let col := s.ch.columnFor j die core
  let s1 := (s.zero (benchAt core + r.bench) j.benchw).zero (accAt core + r.acc) j.accw
  let s2 := s1.commit { chip := s1.ch, writes := [(benchAt core + r.bench, im.bench)] }
  let added (b : Nat) : Job := { j with cols := j.cols ++ [{ die := die, col := col, core := core, base := b }] }
  let (s3, j2) : State × Job := match r.strat with
    | none => (s2, j)
    | some b =>
      let a := stratumAt core + b
      let t := s2.zero a j.stratw
      (t.commit { chip := t.ch, writes := [(a, im.strat)] }, added b)
  let u : UnitRec := { job := j.id, num := BitVec.ofNat 24 num, core := core, benchBase := r.bench, benchSize := j.benchw,
                       accBase := r.acc, accSize := j.accw, member := m, gsize := j.gsize, col := col,
                       quadpos := quadposOf j die core col m, live := List.range j.nstr, placed := true, ended := false, saved := false,
                       released := !j.corFlag, restoring := false, colls := [] }
  let slots := s3.ch.freeSlots core
  let new := (List.range j.nstr).map fun k => boundStrand j im u (4 * core + nth 0 slots k) k
  let c := (s3.ch.dropJobLines (quadOf core) j.id).modJob j.id fun x => { x with cols := j2.cols }
  let bind (c : Chip) (σ : Strand) : Chip := c.putBind (bindFor j u σ.pos σ.who.strand σ.who.weight (!j.corFlag))
  ({ s3 with ch := new.foldl bind { c with units := c.units ++ [u], strands := c.strands ++ new } }, j2)

/-- The members of a group placed on their cores in turn. -/
def placeMembers (im : Images) (first : Nat) : List (Nat × Nat) → State → Job → State
  | [], s, _ => s
  | (m, core) :: rest, s, j =>
    match s.ch.room j core with
    | none => s
    | some r =>
      let (s2, j2) := placeUnit im (first + m) core m s j r
      placeMembers im first rest s2 j2

/-- The first unit number of a job's next group on a die (R377, R379). -/
def Chip.nextGroup (c : Chip) (j : Job) (die : Nat) : Option Nat :=
  let (first, count) := j.share die
  let placed := (c.units.filter fun u => u.job == j.id && bits u.quadpos.toNat 20 3 == die).length / j.gsize
  if placed < count then some (j.podIdx * j.nunits + (first + placed) * j.gsize) else none

/-- The job's WAIT counters are satisfied (R379, R384). -/
def Chip.waitsDone (c : Chip) (j : Job) : Bool := j.waits.all fun w => w.1 == 0 || decide (w.2 ≤ c.counter w.1)

/-- The job whose group comes next on a die: by effective level at take, then take order (R379). -/
def Chip.nextJob (c : Chip) (die : Nat) : Option Job :=
  let js := c.jobs.filter fun j => j.killStep == 0 && c.waitsDone j && (c.nextGroup j die).isSome
  js.foldl (fun b j => match b with
    | some x => if j.level < x.level then some j else b
    | none => some j) none

/-- A job comes before another in the placement order: by effective level at take, then take order (R379). -/
def Chip.ranksBefore (c : Chip) (a b : Job) : Bool :=
  let at_ (x : Job) : Nat := c.jobs.findIdx fun y => y.id == x.id
  decide (a.level < b.level) || (a.level == b.level && decide (at_ a < at_ b))

/-- A saved group whose restore waits in placement comes before a group of a job on a die, and holds it (R379, R403). -/
def Chip.restoresFirst (c : Chip) (j : Job) (die group : Nat) : Bool := c.units.any fun u =>
  u.restoring && bits u.quadpos.toNat 20 3 == die && match c.job? u.job with
    | some x => x.killStep == 0 && (c.ranksBefore x j || (x.id == j.id && decide (u.num.toNat / u.gsize < group)))
    | none => false

/-- The slots of jobs that have an end on a die and no share of it are reserved as room allows (R164). -/
def Chip.reserveEnds (c : Chip) (die : Nat) : Chip :=
  c.jobs.foldl (fun c j => if j.killStep == 0 && c.waitsDone j && decide ((j.share die).2 = 0) then (c.reserveSlots j die).getD c else c) c

/-- UNIT_PLACEMENT (R379, R380): the next group of a die is placed when its slots are reserved and it fits; one that does not fit
holds every later group, as a saved group that comes before it does (R403). A job whose images cannot be read any more is killed (R374). -/
def execUnitPlacement (die : Nat) (s0 : State) : Host.Outcome State Fault Refusal :=
  let s : State := { s0 with ch := s0.ch.reserveEnds die }
  if !s.ch.plat.run || !s.ch.served then .next s0
  else match s.ch.nextJob die with
    | none => .next s
    | some j => match s.ch.nextGroup j die, s.ch.reserveSlots j die with
      | some first, some c =>
        if s.ch.restoresFirst j die (first / j.gsize) then .next s
        else match bestQuad c die j.gsize fun k => (c.room j k).isSome with
        | none => .next { s with ch := c }
        | some cores => match s.readImages j with
          | .hold _ | .held => .next s
          | .bad _ =>
            let u := s.imagesSeen j
            .next { u with ch := u.ch.startKill j.id 0 }
          | .ok im => .next (placeMembers im first ((List.range cores.length).zip cores) (({ s with ch := c } : State).imagesSeen j) j)
      | _, _ => .next s

/-- The signals of the other parts of a pod job have come (R380). -/
def Chip.partsPlaced (c : Chip) (j : Job) : List (Nat × BitVec 12) :=
  ((c.signals.filter fun p => p.1 == j.pod).map fun p => p.2).filter fun p => p.1 != j.podIdx && decide (p.1 < j.podN)

/-- COR_RELEASE (R380, R381): every unit of a co-resident job is placed; its records become valid together. A part of a pod job first
signals the others, which takes a package number (R413), and then awaits the signal of each of them. -/
def execCorRelease (job : BitVec 64) (s : State) : Host.Outcome State Fault Refusal :=
  match s.ch.job? job with
  | none => .next s
  | some j =>
    let parts := s.ch.partsPlaced j
    if !j.corFlag || j.started || j.killStep != 0 || (s.ch.units.filter fun u => u.job == job).length != j.nunits then .next s
    else if 1 < j.podN ∧ j.signalled = false then
      match s.ch.plat.pkgNum with
      | none => .next s
      | some n =>
        let c := s.ch.modJob job fun x => { x with signalled := true }
        .next { s with ch := { c with out := c.out ++ [.placed j.pod j.podIdx n] } }
    else if !(List.range j.podN).all fun n => n == j.podIdx || parts.any fun p => p.1 == n then .next s
    else
      let c := s.ch.modJob job fun x => { x with started := true, parts := parts }
      let valid (u : UnitRec) : UnitRec := if u.job = job then { u with released := true } else u
      let bound (b : BindRec) : BindRec := if s.ch.strands.any fun σ => σ.pos == b.pos && σ.who.job == job then { b with valid := true } else b
      .next { s with ch := { c with units := c.units.map valid, binds := c.binds.map bound,
                                    signals := c.signals.filter fun p => j.pod == 0 || p.1 != j.pod } }

/-! Groups that leave their quad (R401). -/

/-- Initialised barriers of a unit's bench window that hold an entry of the barrier clock table (R179). -/
def Chip.barsOf (c : Chip) (u : UnitRec) : List BarClock :=
  let a := benchAt u.core + u.benchBase
  (c.quad (quadOf u.core)).bars.filter fun b => decide (a ≤ b.addr ∧ b.addr < a + u.benchSize)

/-- The members of a unit's quad group that have not ended. -/
def Chip.groupOf (c : Chip) (u : UnitRec) : List UnitRec :=
  c.units.filter fun w => w.job == u.job && w.num.toNat / w.gsize == u.num.toNat / u.gsize && !w.ended

/-- Bytes of a place go to frames of 2 MiB, and come back from them. -/
def memSpread (m : List Host.Cell) (a n : Nat) : List Nat → List Host.Cell
  | [] => m
  | f :: fs => memSpread (memRestore m f 0x200000 (memCells m a (min n 0x200000))) (a + 0x200000) (n - 0x200000) fs
def memGather (m : List Host.Cell) (a n : Nat) : List Nat → List Host.Cell
  | [] => m
  | f :: fs => memGather (memRestore m a (min n 0x200000) (memCells m f (min n 0x200000))) (a + 0x200000) (n - 0x200000) fs

/-- The first saved context of a unit, which holds what is saved of the unit's windows. -/
def Chip.savedHead (c : Chip) (u : UnitRec) : Option Saved :=
  c.saved.find? fun v => v.strand.who.job == u.job && v.strand.who.unit == u.num

/-- The storage a saved unit leaves behind: its windows, and the stratum window of its column when no other unit of the job is placed there
(kind, column, place, length). -/
def Chip.windowsOf (c : Chip) (u : UnitRec) : List (Nat × Nat × Nat × Nat) :=
  let last := !(c.units.any fun w => w.job == u.job && w.num != u.num && w.core == u.core && w.placed && !w.ended)
  let strat := if last then (c.job? u.job).bind fun j => (j.cols.find? fun w => w.core == u.core).map fun w => (3, w.col, stratumAt u.core + w.base, j.stratw)
    else none
  [(1, 0, benchAt u.core + u.benchBase, u.benchSize), (2, 0, accAt u.core + u.accBase, u.accSize)] ++ strat.toList

/-- Step 4 of R401: a unit's windows with their full/empty bits are copied to a window save area, a page at a time of frames the curator
allocates, or again to the one they have; correctable words are corrected and logged on the way. `none` while there is no frame. -/
def State.saveWindows (s : State) (u : UnitRec) : Option State :=
  match s.ch.savedHead u with
  | none => some s
  | some v =>
    let ws := s.ch.windowsOf u
    let old := v.windows.flatMap fun w => w.2.2.2
    let count (n : Nat) : Nat := (n + 0x1FFFFF) / 0x200000
    let need := (ws.map fun w => count w.2.2.2).sum
    (if old.length = need then some (old, false) else chooseFrames s [dieOf u.core] need 0 [] false).map fun r =>
      let c0 := if old.length = need then s.ch else s.ch.holdFrames r.1
      let runs := ws.map fun w => (w.2.2.1, w.2.2.2)
      let c1 := (c0.side.correctable runs []).foldl Chip.mendWord c0
      let place (acc : List (Nat × Nat × Nat × List Nat) × List Nat) (w : Nat × Nat × Nat × Nat) :=
        (acc.1 ++ [(w.1, w.2.1, w.2.2.2, acc.2.take (count w.2.2.2))], acc.2.drop (count w.2.2.2))
      let windows := (ws.foldl place ([], r.1)).1
      let mem := (ws.zip windows).foldl (fun m x => memSpread m x.1.2.2.1 x.1.2.2.2 x.2.2.2.2) s.mem
      let bench := benchAt u.core + u.benchBase
      let kept : Saved :=
        { v with windows := windows, bars := (s.ch.barsOf u).map fun b => b.addr - bench,
                 full := (c1.side.full.filter fun g => decide (bench ≤ 16 * g ∧ 16 * g < bench + u.benchSize)).map fun g => g - bench / 16,
                 bad := ws.flatMap fun w => (c1.side.faulty.filter fun f => !f.2 && decide (w.2.2.1 ≤ f.1 ∧ f.1 < w.2.2.1 + w.2.2.2)).map fun f =>
                   (w.1, f.1 - w.2.2.1) }
      { mem := mem, ch := { c1 with side := r.1.foldl (fun d f => d.rewritten f 0x200000) c1.side,
                                    saved := c1.saved.map fun x => if x == v then kept else x } }

/-- A saved unit gives its windows up, and the job's window of a column that no unit is placed in any more. -/
def State.releaseWindows (s : State) (u : UnitRec) : State :=
  let last := (s.ch.windowsOf u).any fun w => w.1 == 3
  let bars := s.ch.barsOf u
  let c1 := s.ch.modUnit u.job u.num fun x => { x with placed := false, saved := true }
  let c2 := c1.modJob u.job fun j => { j with cols := if last then j.cols.filter (fun w => w.core != u.core) else j.cols }
  { s with ch := c2.modQuad (quadOf u.core) fun q => { q with bars := q.bars.filter fun b => !(bars.any fun x => x.addr == b.addr) } }

/-- Step 4 of R401 for a strand that has left its core: its unit's windows are saved when it was the last there, and the group leaves its
quad, with what has been written since, when every strand of every member that is live is saved. -/
def State.leaveQuad (s : State) (u : UnitRec) : Option State :=
  let ms := s.ch.groupOf u
  let onCore (us : List UnitRec) : Bool := s.ch.strands.any fun σ => σ.who.job == u.job && us.any fun w => w.num == σ.who.unit
  let one (s : Option State) (w : UnitRec) : Option State := s.bind fun t => (t.saveWindows w).map fun t => t.releaseWindows w
  (if u.live.isEmpty || onCore [u] then some s else s.saveWindows u).bind fun t =>
    if ms.isEmpty || onCore ms || ms.any (fun w => !w.placed) then some t else ms.foldl one (some t)

/-! Strands. -/

/-- A rebase of the quad is asked for before a strand enters one of its slots, whose advance would raise a clock to 0xFFFF (R142). -/
def Chip.rebaseFor (c : Chip) (pos : Nat) : Chip := c.askRebase (quadOfPos pos) []

/-- STRAND_START (R178, R382): a bound strand whose records are valid starts: AGE is loaded, its agents take the quad's clocks
(R142), the cycle counts as its first rendezvous (R115), and the last-result file holds nothing of it. It waits for a rebase that is due. A
record that names an empty entry of the job table starts nothing and raises a curator fault (R381). -/
def execStrandStart (core slot : Nat) (s : State) : Host.Outcome State Fault Refusal :=
  let pos := 4 * core + slot
  match s.ch.strand? pos with
  | none => .next s
  | some σ =>
    let b := s.ch.bindAt pos
    let valid := b.valid && match s.ch.unitOf? σ with
      | some u => u.released
      | none => false
    if σ.trap.phase ≠ .bound ∨ !valid ∨ s.ch.coreHeld core ∨ !s.ch.jobRuns σ.who.job then .next s
    else if (s.ch.jobEntry? (dieOf core) b.jslot).isNone then
      let c := s.ch.modBind pos fun x => { x with valid := false }
      .next { s with ch := { c with out := c.out ++ [.curatorFault pos] } }
    else if s.ch.entryWaits pos then .next { s with ch := s.ch.rebaseFor pos }
    else
      let go (τ : Strand) : Strand := { τ with rdv := s.ch.nextId, trap := { τ.trap with phase := .run } }
      .next { s with ch := ((s.ch.modStrand pos go).modCore core fun k => k.leave slot).enterSlot pos }

/-- The end of a unit (R179, R378): its faulty barriers are counted, its entries of the clock table are free, and the other parts of its pod
job learn that it issues no more collective commands (R172; log entry 87), and with its part's last unit that the part counts as arrived at every
later phase of the pod barrier (R131). -/
def State.endUnit (s : State) (u : UnitRec) : State :=
  let bars := s.ch.barsOf u
  let bad := (bars.filter fun b => (Bar.read s.mem b.addr).error || (Bar.read s.mem b.addr).overrun).length
  let c1 := s.ch.modUnit u.job u.num fun x => { x with ended := true }
  let c2 := c1.modQuad (quadOf u.core) fun q => { q with bars := q.bars.filter fun b => !(bars.any fun x => x.addr == b.addr) }
  let c3 := c2.modJob u.job fun j => { j with errBar := j.errBar + bad }
  { s with ch := match c3.job? u.job with
      | some j =>
        let c4 := c3.tellParts j (u.collCount 4) .ended
        let mine := c3.units.filter fun w => w.job == j.id
        if 1 < j.podN ∧ mine.length = j.nunits ∧ mine.all (·.ended) then c4.tellArrival j none else c4
      | none => c3 }

/-- STRAND_END (R179, R382): the clusters have ended; bound stream registers are released, and when every operation is performed END is
set, the slot's issue state is free, tokens in error are counted, and the unit may end. -/
def execStrandEnd (core slot : Nat) (s : State) : Host.Outcome State Fault Refusal :=
  let pos := 4 * core + slot
  match s.ch.strand? pos with
  | none => .next s
  | some σ =>
    if !σ.live.isEmpty || σ.trap.phase != .run || s.ch.killing σ.who.job then .next s
    else
      let open_ := (List.range 8).filter fun q => match σ.binding? q with
        | some b => !s.ch.awaited pos q b
        | none => false
      if !open_.isEmpty then .next { s with ch := open_.foldl (fun c q => c.releaseStream pos q) s.ch }
      else if s.ch.ops.any fun o => o.pos == pos then .next s
      else
        let bad := ((List.range 16).filter fun k => k != 0 && (σ.token k).st == 3).length
        let c1 := ((s.ch.dropBucket pos).modBind pos fun b => { b with ended := true }).modCore core fun k => k.leave slot
        let c2 := ({ c1 with strands := c1.strands.filter fun τ => τ.pos != pos } : Chip).modJob σ.who.job fun j =>
          { j with errTok := j.errTok + bad }
        let c3 := c2.modUnit σ.who.job σ.who.unit fun u => { u with live := u.live.filter fun k => k != σ.who.strand }
        let s1 : State := { s with ch := c3 }
        match c3.unit? σ.who.job σ.who.unit with
        | some u => .next (((if u.live.isEmpty then s1.endUnit u else s1).leaveQuad u).getD s)
        | none => .next s1

end Sys2Proof.Machine
end

