-- ==== Sys2Proof/Machine/Save.lean ====
section
/-! DEFINITION. Pre-emption, context saves and restores (R193, R401 to R403). -/

namespace Sys2Proof.Machine

/-- The quad of a slot is being migrated. -/
def Chip.migrates (c : Chip) (quad : Nat) : Bool := c.moves.any fun m => m.die * 64 + m.src == quad || m.die * 64 + m.dst == quad

/-- PEND is set for a strand; while it is in privileged mode, or its quad moves, the request is held (R55, R401). -/
def Strand.ask (σ : Strand) (held : Bool) : Strand :=
  if held then { σ with trap := { σ.trap with asked := true } } else { σ with trap := { σ.trap with pend := true } }

/-- The request for a unit reaches every strand of every member of its group. -/
def Chip.askGroup (c : Chip) (u : UnitRec) : Chip :=
  let ms := c.groupOf u
  let hit (σ : Strand) : Bool := σ.who.job == u.job && ms.any fun w => w.num == σ.who.unit
  { c with strands := c.strands.map fun σ => if hit σ then σ.ask (σ.privileged || c.migrates (quadOfPos σ.pos)) else σ }

/-- PREEMPT_REQUEST (R193). -/
def execPreemptRequest (job : BitVec 64) (unit : BitVec 24) (s : State) : Host.Outcome State Fault Refusal :=
  match s.ch.unit? job unit with
  | none => .next s
  | some u => .next { s with ch := s.ch.askGroup u }

/-- A cluster stands at a pre-emption point (R193). -/
def Strand.atPoint (σ : Strand) (cl : Cluster) : Bool :=
  let k := σ.cl cl
  k.ended || (k.blocked.isNone && k.group == 0 && (k.point || (σ.syncWord cl).isSome))

/-- SAVE_START (R401): every cluster of a strand that has not ended (R179) stands at a point, and issue stops. -/
def execSaveStart (core slot : Nat) (s : State) : Host.Outcome State Fault Refusal :=
  let pos := 4 * core + slot
  match s.ch.strand? pos with
  | none => .next s
  | some σ =>
    if σ.trap.phase = .run ∧ σ.trap.pend ∧ !s.ch.killing σ.who.job ∧ !s.ch.coreHeld core ∧ ([Cluster.c, .g, .m, .v].all σ.atPoint)
        ∧ (!σ.live.isEmpty ∨ s.ch.ops.any fun o => o.pos == pos) then
      .next { s with ch := s.ch.modStrand pos fun τ => τ.beginSave false s.ch.cycle }
    else .next s

/-- A binding operation whose stream register is still bound (R305). -/
def Strand.bindsNow (σ : Strand) (o : Op) : Bool := σ.gr.q.any fun b => match b with
  | some x => x.op == o.id
  | none => false

/-- What the header of a save records (step 3 of R401). -/
def saveInfo (forced : Bool) (cycle : Nat) : TrapInfo :=
  { TrapInfo.fresh with cause := 0x3E, kind := if forced then 5 else 4, cycle := cycle }

/-- FLAGS of the header of a save: DZI as it stands (R247, R396). -/
def saveFlags (σ : Strand) : Nat := cond σ.trap.dzi 1 0

/-- The strand and its operations leave the slot, whose bind record is cleared; the bucket file goes with its owner. -/
def Chip.vacate (c : Chip) (pos : Nat) : Chip :=
  let c1 := (c.dropBucket pos).modCore (coreOf pos) fun k => k.leave (pos % 4)
  { c1 with binds := c1.binds.filter (fun b => b.pos != pos), strands := c1.strands.filter (fun σ => σ.pos != pos),
            ops := c1.ops.filter (fun o => o.pos != pos),
            xl := { c1.xl with walks := c1.xl.walks.filter fun w => w.pos != pos } }

/-- The strand as it is saved: its last-result entries stay with it (R189). -/
def Strand.asSaved (σ : Strand) (latch : List Latch) : Strand :=
  { σ with trap := { σ.trap with latch := σ.keepsLatch latch, saveStart := none } }

/-- Steps 2 and 3 of R401: the frame of a strand is written to its context area, a copy of the area goes to the frame at `area`, and the slot
is free. -/
def State.saveStrand (s : State) (core slot area : Nat) (σ : Strand) : State :=
  let pos := 4 * core + slot
  let s1 : State := { s with ch := s.ch.recordWaits pos }
  let mine := s1.ch.ops.filter fun o => o.pos == pos
  let k := s1.ch.core core
  let kept := σ.asSaved k.latch
  let v : Saved := { strand := kept, ops := mine, area := area, bucket := if k.bucket.owner = some slot then some k.bucket else none,
                     windows := [], full := [], bars := [], bad := [] }
  let c := ((s1.ch.vacate pos).areaWritten (quadOf core) (ctxArea pos)).holdFrames [area]
  let writes := frameWrites s1 kept (ctxArea pos) (saveInfo σ.trap.forced s.ch.cycle) (saveFlags σ)
  let t := s.commit { chip := { c with saved := c.saved ++ [v], side := c.side.rewritten area 0x200000 }, writes := writes }
  { t with mem := memRestore t.mem area 0x24000 (memCells t.mem (ctxArea pos) 0x24000) }

/-- SAVE_WRITE (R401): every issued operation is performed, waits, or binds a stream; the frame is written, and goes with the freeze record
to a context area that the curator allocates for the saved context (R388); the slot is freed, and the unit's windows are saved with its last
strand. Without a frame for them the save waits. -/
def execSaveWrite (core slot : Nat) (s : State) : Host.Outcome State Fault Refusal :=
  let pos := 4 * core + slot
  match s.ch.strand? pos with
  | none => .next s
  | some σ =>
    let s1 : State := { s with ch := s.ch.recordWaits pos }
    let mine := s1.ch.ops.filter fun o => o.pos == pos
    if σ.trap.phase ≠ .saving ∨ s.ch.killing σ.who.job ∨ !s.ch.coreMoves pos ∨ s.ch.migrates (quadOf core)
        ∨ !mine.all (fun o => o.status == .waiting || (o.status != .sent && σ.bindsNow o)) then .next s
    else match freeFrame s (dieOf core) [] with
      | none => .next s
      | some area =>
        let t2 := s.saveStrand core slot area σ
        match t2.ch.unitOf? σ with
        | some u => .next ((t2.leaveQuad u).getD s)
        | none => .next t2

/-- A save has not ended within its bound (R402). -/
def Strand.saveLate (σ : Strand) (cycle : Nat) : Bool :=
  σ.trap.phase == .saving && match σ.trap.saveStart with
    | some t => decide (t + bits σ.trap.wdog.toNat 32 16 * 1024 ≤ cycle)
    | none => false

/-- A core is reset: issue state, engine queues and bucket file (R402). -/
def State.resetCore (s : State) (core : Nat) : State :=
  let c1 : Chip := { s.ch with ops := s.ch.ops.filter fun o => coreOf o.pos != core }
  let c2 := c1.modCore core fun k => { k with latch := [], hold := [], served := [], spent := [], bucket := { owner := none, t := 0, left := 0 } }
  { mem := memClear s.mem (bucketAt core) 65536, ch := { c2 with side := c2.side.rewritten (bucketAt core) 65536 } }

/-- The context of a strand is lost: its header and stream words are written with LOST and SAVEINC, and its job is killed. -/
def State.lose (s : State) (σ : Strand) : State :=
  let area := ctxArea σ.pos
  let streams := [σ.c, σ.g, σ.m, σ.v].flatMap fun k => (List.range 8).flatMap fun n => leBytes 8 (k.word n).toNat
  s.commit { chip := (s.ch.startKill σ.who.job 2).areaWritten (quadOfPos σ.pos) area,
             writes := [(area, headerBytes σ (saveInfo σ.trap.forced s.ch.cycle) (saveFlags σ + 6)), (area + 0x80, streams)] }

/-- SAVE_TIMEOUT (R402): every other strand of the core is saved by force; once only incomplete saves remain, and strands that have not
started, the core is reset and the contexts of the incomplete ones are lost. -/
def execSaveTimeout (core slot : Nat) (s : State) : Host.Outcome State Fault Refusal :=
  match s.ch.strand? (4 * core + slot) with
  | none => .next s
  | some σ =>
    let others := s.ch.strands.filter fun τ => coreOf τ.pos == core && τ.trap.phase != .bound && !τ.saveLate s.ch.cycle
    let running := others.filter fun τ => τ.trap.phase == .run
    if !σ.saveLate s.ch.cycle || s.ch.killing σ.who.job || s.ch.migrates (quadOf core) then .next s
    else if !running.isEmpty then
      let force (c : Chip) (τ : Strand) : Chip :=
        let c1 := match c.unitOf? τ with
          | some u => c.askGroup u
          | none => c
        c1.modStrand τ.pos fun x => x.beginSave true s.ch.cycle
      .next { s with ch := running.foldl force s.ch }
    else if !others.isEmpty then .next s
    else
      let lost := s.ch.strands.filter fun τ => coreOf τ.pos == core && τ.saveLate s.ch.cycle
      .next ((lost.foldl State.lose s).resetCore core)

/-! Restore (R403). -/

/-- The saved contexts of a unit. -/
def Chip.savedOf (c : Chip) (u : UnitRec) : List Saved := c.saved.filter fun v => v.strand.who.job == u.job && v.strand.who.unit == u.num

/-- Every live strand of a unit is saved. -/
def Chip.allSaved (c : Chip) (u : UnitRec) : Bool :=
  u.saved && !u.placed && u.live.all fun k => (c.savedOf u).any fun v => v.strand.who.strand == k

/-- A core takes a saved unit: its windows and strands fit, the bucket file is free when it owned one, and the column of the core is
the unit's, or becomes it: a column in which the job's window stands under another number keeps that number (log entry 88). -/
def Chip.takesSaved (c : Chip) (j : Job) (u : UnitRec) (core : Nat) : Bool :=
  let vs := c.savedOf u
  let room := (c.room { j with nstr := u.live.length } core).isSome
  let bucket := !(vs.any fun v => v.bucket.isSome) || (c.core core).bucket.owner.isNone
  let column := match j.cols.find? fun w => w.die == dieOf core && w.col == u.col with
    | some w => w.core == core
    | none => j.cols.all fun w => w.core != core
  room && bucket && column

/-- Cores of a quad for the members of a group, in order, each on a core of its own. -/
def Chip.coresFor (c : Chip) (j : Job) (quad : Nat) : List UnitRec → List Nat → Option (List (UnitRec × Nat))
  | [], _ => some []
  | u :: us, taken =>
    match (List.range' (4 * quad) 4).find? fun k => !taken.contains k && c.takesSaved j u k with
    | none => none
    | some k => (Chip.coresFor c j quad us (k :: taken)).map fun r => (u, k) :: r

/-- The cores a saved group goes to, on the quad of its logical die with the most cores that take one of its members, the lowest on a
tie (R379, R403). -/
def Chip.placeSaved (c : Chip) (j : Job) (die : Nat) (us : List UnitRec) : Option (List (UnitRec × Nat)) :=
  let quads := (List.range (Config.quadsOf die)).map (fun q => die * 64 + q) |>.filter c.quadOpen
  let count (q : Nat) : Nat := ((List.range' (4 * q) 4).filter fun k => us.any fun u => c.takesSaved j u k).length
  (sortBy (fun a b => decide (count b < count a) || (count a == count b && decide (a ≤ b))) quads).findSome? fun q => c.coresFor j q us []

/-- A loop saved while it drained goes on from its start; any other as it stood (R193). -/
def LoopLevel.again (l : LoopLevel) : LoopLevel := if l.drained then { l with stop := l.n, p := l.start, drained := false } else l

/-- A cluster restored at its place: a loop that was drained goes on from the first word of its body that is enabled (R191, R193). -/
def ClusterSt.again (k : ClusterSt) : ClusterSt :=
  let ls := k.loops.map LoopLevel.again
  let lc := ls.foldl (fun lc l => lc.set l.ctr (BitVec.ofNat 32 l.p)) k.lc
  let f : Flow := if (k.loops.head?.map LoopLevel.drained).getD false then loopFlow loopFuel false k.pc ls lc false
    else { pc := k.pc, loops := ls, lc := lc, point := false }
  { k with pc := f.pc, loops := f.loops, lc := f.lc, point := false, stall := 0, wait := 0 }

/-- A strand as it goes on in another slot: SLOT takes its new value, no save or request stands. -/
def Strand.moved (σ : Strand) (pos : Nat) : Strand :=
  let τ := σ.renamed pos
  { τ with c := σ.c.again, g := σ.g.again, m := σ.m.again, v := σ.v.again,
           trap := { τ.trap with phase := .run, pend := false, asked := false, forced := false, saveStart := none } }

/-- The frames of the job's stratum window saved for a column of a die, with its uncorrectable words. -/
def Chip.savedColumn (c : Chip) (job : BitVec 64) (die col : Nat) : Option (List Nat × List Nat) :=
  (c.saved.filter fun v => v.strand.who.job == job && dieOf (coreOf v.strand.pos) == die).findSome? fun v =>
    (v.windows.find? fun w => w.1 == 3 && w.2.1 == col).map fun w => (w.2.2.2, (v.bad.filter fun b => b.1 == 3).map (·.2))

/-- Words of a place that came back uncorrectable. -/
def Chip.spoil (c : Chip) (base : Nat) (offs : List Nat) : Chip :=
  { c with side := { c.side with faulty := offs.map (fun b => (base + b, false)) ++ c.side.faulty } }

/-- The windows of a unit copied back onto a core; race marks are none, and the barriers initialised in the bench window have entries of the
clock table with empty vectors, however many there are (log entry 90). The save areas are free again. -/
def State.restoreWindows (s : State) (j : Job) (u : UnitRec) (core : Nat) (r : Room) : State :=
  let v? := s.ch.savedHead u
  let frames (kind : Nat) : List Nat := ((v?.bind fun v => v.windows.find? fun w => w.1 == kind).map fun w => w.2.2.2).getD []
  let bad (kind : Nat) : List Nat := ((v?.map Saved.bad).getD []).filterMap fun b => if b.1 = kind then some b.2 else none
  let bench := benchAt core + r.bench
  let acc := accAt core + r.acc
  let s1 := (s.zero bench u.benchSize).zero acc u.accSize
  let m2 := memGather (memGather s1.mem bench u.benchSize (frames 1)) acc u.accSize (frames 2)
  let full := ((v?.map Saved.full).getD []).map fun g => bench / 16 + g
  let bars := ((v?.map Saved.bars).getD []).map fun b =>
    ({ addr := bench + b, phase := [], acc := [], since := s.ch.nextId, cause := 0x31 } : BarClock)
  let side : Side := { s1.ch.side with full := full ++ s1.ch.side.full }
  let c1 := ({ s1.ch with side := side } : Chip).modQuad (quadOf core) fun q => { q with bars := q.bars ++ bars }
  let c2 := (c1.spoil bench (bad 1)).spoil acc (bad 2)
  let c3 := c2.modUnit u.job u.num fun x => { x with core := core, benchBase := r.bench, accBase := r.acc, placed := true, saved := false, restoring := false }
  let s3 := ({ mem := m2, ch := c3 } : State).freeFrames (frames 1 ++ frames 2)
  match r.strat with
  | none => s3
  | some b =>
    let a := stratumAt core + b
    let s4 := s3.zero a j.stratw
    let w : ColWin := { die := dieOf core, col := u.col, core := core, base := b }
    let (fs, bad3) := (s4.ch.savedColumn j.id (dieOf core) u.col).getD ([], [])
    let strip (v : Saved) : Saved :=
      if v.strand.who.job = j.id ∧ dieOf (coreOf v.strand.pos) = dieOf core then { v with windows := v.windows.filter fun x => !(x.1 == 3 && x.2.1 == u.col) } else v
    let c5 := (s4.ch.modJob j.id fun x => { x with cols := x.cols ++ [w] }).spoil a bad3
    ({ mem := memGather s4.mem a j.stratw fs, ch := { c5 with saved := c5.saved.map strip } } : State).freeFrames fs

/-- A saved strand stands again in a slot of a core, with its context area and the bucket file it owned; its agents' entries are those of R142,
and the vectors its tokens and operations hold are as they were saved (log entry 89). -/
def State.restoreStrand (s : State) (j : Job) (u : UnitRec) (core : Nat) (v : Saved) : State :=
  match s.ch.freeSlots core with
  | [] => s
  | slot :: _ =>
    let pos := 4 * core + slot
    let wake (o : Op) : Op :=
      { o.renamed pos with status := if o.status == .waiting then .issued else o.status,
                           progress := if o.status == .waiting && qualified o.instr then 0 else o.progress }
    let bind := bindFor j u pos v.strand.who.strand v.strand.who.weight true
    let c1 : Chip := { s.ch with strands := s.ch.strands ++ [v.strand.moved pos], ops := s.ch.ops ++ v.ops.map wake,
                                 saved := s.ch.saved.filter fun x => x != v }
    let c2 := (c1.putBind bind).enterSlot pos
    let c3 := match v.bucket with
      | none => c2
      | some b => c2.modCore core fun k => { k with bucket := { b with owner := some slot } }
    let m1 := memRestore s.mem (ctxArea pos) 0x24000 (memCells s.mem v.area 0x24000)
    let m2 := if v.bucket.isNone then m1 else memRestore m1 (bucketAt core) 65536 (memCells s.mem (v.area + 0x14000) 65536)
    ({ mem := m2, ch := c3.areaWritten (quadOf core) (ctxArea pos) } : State).freeFrames [v.area]

/-- The on-chip storage an operation names stands where its pointers lead now. -/
def Chip.relocate (c : Chip) (o : Op) : Op :=
  match c.strand? o.pos with
  | none => o
  | some σ => match c.unitOf? σ with
    | none => o
    | some u =>
      let loc (l : Loc) : Loc :=
        if l.tag = 0 then l
        else match c.window? σ u l.ptr with
          | some (base, _) => { l with segs := l.segs.map fun g => { g with phys := base + g.va } }
          | none => l
      { o with locs := o.locs.map loc }

/-- One member of a group restored onto its core. -/
def restoreMember (job : BitVec 64) (s : State) (uk : UnitRec × Nat) : State :=
  match s.ch.job? job with
  | none => s
  | some j => match s.ch.room { j with nstr := uk.1.live.length } uk.2 with
    | none => s
    | some r =>
      let vs := s.ch.savedOf uk.1
      let s1 := s.restoreWindows j uk.1 uk.2 r
      let now (v : Saved) : Option Saved := (s1.ch.savedOf uk.1).find? fun w => w.strand.who.strand == v.strand.who.strand
      let u : UnitRec := { uk.1 with core := uk.2, benchBase := r.bench, accBase := r.acc }
      let s2 : State := { s1 with ch := s1.ch.dropJobLines (quadOf uk.2) job }
      (vs.filterMap now).foldl (fun t v => t.restoreStrand j u uk.2 v) s2

/-- A group of a job fits cores of one quad of a die that is empty (R376, R379). -/
def Job.fitsEmpty (j : Job) (die : Nat) : Bool :=
  decide (j.stratw ≤ Config.stratumSize die ∧ j.benchw ≤ 0x100000 ∧ j.accw ≤ 0x200000 ∧ j.nstr ≤ 4 ∧ j.gsize ≤ 4)

/-- The strands of a group enter slots of a quad whose clocks would reach 0xFFFF by it: the quad is rebased first (R142). -/
def Chip.entryDue (c : Chip) (quad n : Nat) : Bool := (c.quad quad).clock.any fun k => decide (k + n ≥ 0xFFFF)

/-- The restore of a saved group is asked for: until it is placed it stands in the placement order (R379, R403). -/
def Chip.askRestore (c : Chip) (us : List UnitRec) : Chip := us.foldl (fun c u => c.modUnit u.job u.num fun x => { x with restoring := true }) c

/-- A group of another job, or of this one, comes before a saved group in the placement order of its die, and holds it (R379, R403). -/
def Chip.holdsRestore (c : Chip) (j : Job) (u : UnitRec) (die : Nat) : Bool :=
  c.restoresFirst j die (u.num.toNat / u.gsize) || match c.nextJob die with
    | some x => c.ranksBefore x j
    | none => false

/-- RESTORE (R403): a saved group goes to cores of one quad of its logical die, in the placement order (R379), or waits in placement, also for a
rebase of the quad that is due (R142); one that no empty core of the die can take is refused, and its job ends with status 0x03. -/
def execRestore (job : BitVec 64) (unit : BitVec 24) (s0 : State) : Host.Outcome State Fault Refusal :=
  match s0.ch.unit? job unit, s0.ch.job? job with
  | some u, some j =>
    let us := s0.ch.groupOf u
    let die := bits u.quadpos.toNat 20 3
    let s : State := { s0 with ch := s0.ch.askRestore us }
    if us.isEmpty || !us.all s0.ch.allSaved || s0.ch.killing job || !s0.ch.plat.run then .next s0
    else if !j.fitsEmpty die then
      .next { s0 with ch := (s0.ch.modJob job fun x => { x with status := 0x03 }).startKill job 0 }
    else if s.ch.holdsRestore j u die then .next s
    else match s.ch.placeSaved j die us with
      | none => .next s
      | some place =>
        let quad := ((place.head?.map Prod.snd).map quadOf).getD 0
        let due := s.ch.entryDue quad (place.map fun x => (s.ch.savedOf x.1).length).sum
        if due && s.ch.rebaseWaits quad then .next { s with ch := s.ch.askRebase quad [] }
        else
        let t := place.foldl (restoreMember job) (if due then { s with ch := s.ch.rebase quad } else s)
        let mine (σ : Strand) : Bool := σ.who.job == job && us.any fun w => w.num == σ.who.unit
        let back := (t.ch.strands.filter mine).map Strand.pos
        .next { t with ch := { t.ch with ops := t.ch.ops.map fun o => if back.contains o.pos then t.ch.relocate o else o } }
  | _, _ => .next s0

end Sys2Proof.Machine
end

