-- ==== Sys2Proof/Machine/Upkeep.lean ====
section
/-! DEFINITION. The package's upkeep: patrol scrubbing (R50), column migration (R52 to R55), temperatures, refresh and allowances (R59,
R424 to R427), spill-ring faults (R148). -/

namespace Sys2Proof.Machine

/-! Patrol scrubber. -/

/-- PATROL_SCRUB (R50, R425): the word at an address is read; a correctable error is corrected and logged with no freeze, an
uncorrectable one is logged, which opens a service request and closes the quad to new units. The scrubber reads benches, strata,
accumulator stores and race marks. -/
def execPatrolScrub (core addr : Nat) (s : State) : Host.Outcome State Fault Refusal :=
  let w := protectedWord addr
  if ownerCore w ≠ some core ∨ storeOf w = .bucket then .next s
  else match s.ch.side.faulty.lookup w with
    | none => .next s
    | some true => .next { s with ch := s.ch.mendWord w }
    | some false =>
      .next { s with ch := ((s.ch.logWord w).modQuad (quadOf core) fun q => { q with noPlace := true }).openService 3 (quadOf core) }

/-! Column migration. -/

/-- A quad whose cores host no unit, hold no stratum window and no receive slot. -/
def Chip.emptyQuad (c : Chip) (quad : Nat) : Bool :=
  (List.range' (4 * quad) 4).all fun k => (c.unitsOn k).isEmpty && (c.stratumUsed k).isEmpty && (c.strands.all fun σ => coreOf σ.pos != k)

/-- A free quad of a die takes a migration. -/
def Chip.freeQuad (c : Chip) (die q : Nat) : Bool := c.quadOpen (die * 64 + q) && c.emptyQuad (die * 64 + q)

/-- A quad can be migrated now: no migration on the die, no receive slots on it (R52), no strand of it in privileged mode (R406), no
lease reset (R427). -/
def Chip.canMigrate (c : Chip) (die src : Nat) : Bool :=
  let quad := die * 64 + src
  c.plat.run && !c.plat.leaseOpen && (c.moves.all fun m => m.die != die) && (c.strands.all fun σ => quadOfPos σ.pos != quad || !σ.privileged)
    && c.links.all fun l => !l.placed || (decide (0x10 ≤ l.link.toNat) && l.far) || l.quad != quad

/-- Phase 1 begins. -/
def Chip.beginMove (c : Chip) (die src dst : Nat) : Chip :=
  { c with moves := c.moves ++ [{ die := die, src := src, dst := dst, phase := 1 }] }

/-- COLUMN_MIGRATION_HOLD (phase 1 of R53). -/
def execColumnMigrationHold (die src dst : Nat) (s : State) : Host.Outcome State Fault Refusal :=
  if die < 8 ∧ src < Config.quadsOf die ∧ dst < Config.quadsOf die ∧ src ≠ dst ∧ s.ch.freeQuad die dst ∧ s.ch.canMigrate die src then
    .next { s with ch := s.ch.beginMove die src dst }
  else .next s

/-- The places of a migration: each store of the source cores and the context areas of their slots, with length. -/
def movePlaces (src dst : Nat) : List (Nat × Nat × Nat) :=
  (List.range 4).flatMap fun k =>
    let a := 4 * src + k
    let b := 4 * dst + k
    [(benchAt a, benchAt b, 0x100000), (stratumAt a, stratumAt b, 0x800000), (accAt a, accAt b, 0x200000), (bucketAt a, bucketAt b, 0x10000)]
      ++ (List.range 4).map fun i => (ctxArea (4 * a + i), ctxArea (4 * b + i), 0x24000)

/-- An address after the move. -/
def movedAddr (src dst a : Nat) : Nat :=
  match (movePlaces src dst).find? fun p => decide (p.1 ≤ a ∧ a < p.1 + p.2.2) with
  | some p => a - p.1 + p.2.1
  | none => a

/-- A core, and a slot, after the move. -/
def movedCore (src dst k : Nat) : Nat := if quadOf k = src then 4 * dst + k % 4 else k
def movedPos (src dst p : Nat) : Nat := if quadOfPos p = src then 16 * dst + p % 16 else p

/-- The side state of the stores after the move: that of the source's words goes with them, and of the target's words nothing stays. A
correctable word of the source has been mended before (R55). -/
def Side.moved (d : Side) (src dst : Nat) : Side :=
  let addr := movedAddr src dst
  let mark (g : Nat) : Nat := addr (g * 64) / 64
  let word (w : Nat) : Nat := if markWord 0 ≤ w then markWord (mark (w - markWord 0)) else addr w
  let stays (a : Nat) : Bool := (ownerCore a).all fun k => quadOf k != dst
  { d with full := (d.full.filter fun g => stays (g * 16)).map fun g => addr (g * 16) / 16,
           fresh := (d.fresh.filter fun g => stays (g * 16)).map fun g => addr (g * 16) / 16,
           marks := (d.marks.filter fun m => stays (m.granule * 64)).map fun m => { m with granule := mark m.granule },
           faulty := (d.faulty.filter fun f => stays f.1).map fun f => (word f.1, f.2) }

/-- Correctable errors met in phase 4 are corrected in the copy and in the source, and logged, with no freeze (R55). -/
def Chip.mendQuad (c : Chip) (quad : Nat) : Chip :=
  ((c.side.faulty.filter fun f => f.2 && (ownerCore f.1).any fun k => quadOf k == quad).map (·.1)).foldl Chip.mendWord c

/-- Steps 3 and 4 of R53 on everything that names a place: queued commands keep their position. -/
def Chip.moveQuad (c : Chip) (src dst : Nat) : Chip :=
  let addr := movedAddr src dst
  let core := movedCore src dst
  let pos := movedPos src dst
  let seg (g : Seg) : Seg := if g.peer.isNone then { g with phys := addr g.phys } else g
  let op (o : Op) : Op :=
    { (if quadOfPos o.pos = src then o.renamed (pos o.pos) else o) with bar := o.bar.map seg, locs := o.locs.map fun l => { l with segs := l.segs.map seg } }
  let a := c.quad src
  let b := c.quad dst
  let bars := a.bars.map fun x => { x with addr := addr x.addr }
  let newDst : Quad :=
    { b with clock := a.clock, seen := a.seen, bars := bars, hbars := a.hbars, visit := a.visit, share := a.share,
             owed := a.owed.map fun x => (pos x.1, x.2), rebase := a.rebase.map fun l => l.map pos, rebased := a.rebased.map pos }
  let newSrc : Quad :=
    { a with clock := List.replicate 64 1, seen := [], bars := [], hbars := [], visit := 15, share := 0, owed := [], rebase := none,
             rebased := [] }
  let rest := c.quads.filter fun q => q.id != src && q.id != dst
  let cores := (c.cores.filter fun k => quadOf k.id != dst).map fun k =>
    { k with id := core k.id, latch := k.latch.map fun l => { l with pos := pos l.pos } }
  let tlb (t : Tlb) : Tlb := { t with place := if t.quad then (if t.place = src then dst else t.place) else core t.place }
  let onDst (t : Tlb) : Bool := if t.quad then t.place == dst else quadOf t.place == dst
  let col (w : ColWin) : ColWin := { w with core := core w.core }
  { c with
    side := c.side.moved src dst, ops := c.ops.map op,
    strands := c.strands.map (fun σ => if quadOfPos σ.pos = src then σ.renamed (pos σ.pos) else σ),
    quads := newDst :: newSrc :: rest,
    cores := cores, units := c.units.map (fun u => if u.placed then { u with core := core u.core } else u),
    binds := (c.binds.filter fun b => quadOfPos b.pos != dst).map (fun b => { b with pos := pos b.pos }),
    jobs := c.jobs.map (fun j => { j with cols := j.cols.map col }),
    xl := { c.xl with tlbs := (c.xl.tlbs.filter fun t => !onDst t).map tlb, walks := c.xl.walks.map (fun w => { w with pos := pos w.pos }),
                      lines := c.xl.lines.filter (fun l => l.quad != src && l.quad != dst),
                      egress := c.xl.egress.map fun e => { e with quad := if e.quad = src then dst else e.quad } } }

/-- Runs of which one lies in the storage of a quad. -/
def namesQuad (quad : Nat) (segs : List Seg) : Bool := segs.any fun g => g.peer.isNone && (ownerCore g.phys).any fun k => quadOf k == quad

/-- A command that phases 1 and 2 wait for: of the source quad, or started and naming the moving storage; but not one that cannot be
performed while the source quad issues nothing, which moves as it stands (log entry 93). -/
def Chip.holdsMove (c : Chip) (quad : Nat) : Bool :=
  c.ops.any fun o => (engineOf o.instr).isSome && !c.stuck.contains o.id
    && (quadOfPos o.pos == quad || ((o.status == .started || o.status == .sent) && namesQuad quad o.segs))

/-- Phase 3 waits while a fault stops a spill ring of the die that holds a command to rewrite, or of the source quad (R55). -/
def Chip.ringHoldsMove (c : Chip) (quad : Nat) : Bool :=
  (c.quad quad).ringStall.isSome || c.ops.any fun o => o.ring && dieOf (coreOf o.pos) == quad / 64
    && (c.quad (quadOfPos o.pos)).ringStall.isSome && namesQuad quad (o.locs.flatMap fun l => l.segs)

/-- COLUMN_MIGRATION_MOVE (phases 2 to 4 of R53): no command that moves bytes there is under way, no fault freeze and no spill-ring fault
stands (R55); storage and state move. -/
def execColumnMigrationMove (die : Nat) (s : State) : Host.Outcome State Fault Refusal :=
  match s.ch.moves.find? fun m => m.die == die && m.phase == 1 with
  | none => .next s
  | some m =>
    let src := die * 64 + m.src
    let dst := die * 64 + m.dst
    let frozen := (List.range' (4 * src) 4).any s.ch.faultFrozen
    if s.ch.holdsMove src || frozen || s.ch.ringHoldsMove src then .next s
    else
      let mem := (movePlaces src dst).foldl (fun m p => memMove m p.1 p.2.1 p.2.2) s.mem
      let c := (s.ch.mendQuad src).moveQuad src dst
      let go (x : ColMove) : ColMove := if x.die = die then { x with phase := 4 } else x
      .next { mem := mem, ch := { c with moves := c.moves.map go } }

/-- COLUMN_MIGRATION_RESUME (phase 5 of R53): the source quad is free; requests for pre-emption that were held are taken (R55). -/
def execColumnMigrationResume (die : Nat) (s : State) : Host.Outcome State Fault Refusal :=
  match s.ch.moves.find? fun m => m.die == die && m.phase == 4 with
  | none => .next s
  | some m =>
    let take (σ : Strand) : Strand :=
      if quadOfPos σ.pos = die * 64 + m.dst ∧ σ.trap.asked ∧ !σ.privileged then
        { σ with trap := { σ.trap with asked := false, pend := true } }
      else σ
    .next { s with ch := { s.ch with moves := s.ch.moves.filter (fun x => x.die != die), strands := s.ch.strands.map take } }

/-! Thermal allowance (R426, R427). -/

/-- Replace the `n` bits of a register from bit `lo`. -/
def setField (w : BitVec 64) (lo n v : Nat) : BitVec 64 := BitVec.ofNat 64 (w.toNat - bits w.toNat lo n * 2 ^ lo + v % 2 ^ n * 2 ^ lo)

def Chip.setTar (c : Chip) (i : Nat) (f : BitVec 64 → BitVec 64) : Chip :=
  { c with plat := { c.plat with tar := c.plat.tar.set i (f (nth 0 c.plat.tar i)) } }

def Chip.allow (c : Chip) (i : Nat) : Nat := bits (nth 0 c.plat.tar i).toNat 8 4

/-- The curator lowers an island's allowance: by how much is open. The level it had is remembered. -/
def Chip.lowerAllow (c : Chip) (i : Nat) : Chip :=
  let a := c.allow i
  let (v, c1) := c.freeVal
  let keep := if c1.plat.lowered.any fun x => x.1 == i then c1.plat.lowered else (i, a) :: c1.plat.lowered
  let c2 := { c1 with plat := { c1.plat with lowered := keep } }
  if a = 0 then c2 else c2.setTar i fun w => setField w 8 4 (v.toNat % a)

/-- The curator restores an island's allowance. -/
def Chip.restoreAllow (c : Chip) (i : Nat) : Chip :=
  match c.plat.lowered.lookup i with
  | none => c
  | some a =>
    let c1 := c.setTar i fun w => setField w 8 4 a
    { c1 with plat := { c1.plat with lowered := c1.plat.lowered.filter fun x => x.1 != i } }

/-- HOT_QUAD_TIMEOUT (R427): a quad has been hot for 10 ms while its island's clock is below 3.0 GHz. When no quad of the die is free the
island's allowance is lowered; when one is, a lowered allowance is restored before anything else, and then the quad, if it can be migrated now,
goes to the coolest free one, which of them is open (log entry 53). -/
def execHotQuadTimeout (die quad : Nat) (s : State) : Host.Outcome State Fault Refusal :=
  let island := islandOf (4 * (die * 64 + quad))
  let frees := (List.range (Config.quadsOf die)).filter fun q => q != quad && s.ch.freeQuad die q
  if 8 ≤ die ∨ Config.quadsOf die ≤ quad ∨ 120 ≤ bits (nth 0 s.ch.plat.tar island).toNat 0 8 ∨ !s.ch.plat.curators then .next s
  else if frees.isEmpty then .next { s with ch := s.ch.lowerAllow island }
  else if s.ch.plat.lowered.any fun x => x.1 == island then .next { s with ch := s.ch.restoreAllow island }
  else if !s.ch.canMigrate die quad then .next s
  else
    let (v, c) := s.ch.freeVal
    .next { s with ch := c.beginMove die quad (nth 0 frees (v.toNat % frees.length)) }

/-- ALLOWANCE_UPDATE (R426): each island takes its level; one the curator has lowered stays at most as low. The clock the island comes to,
from 600 MHz to 3.0 GHz, and its temperature are open. -/
def execAllowanceUpdate (levels : List (BitVec 4)) (s : State) : Host.Outcome State Fault Refusal :=
  let set (c : Chip) (i : Nat) : Chip :=
    let level := ((levels[i]?).map fun l => l.toNat).getD (c.allow i)
    let low := c.plat.lowered.any fun x => x.1 == i
    let now := if low then min level (c.allow i) else level
    let c1 := { c with plat := { c.plat with lowered := c.plat.lowered.map fun (x : Nat × Nat) => if x.1 = i then (i, level) else x } }
    let (clk, c2) := c1.freeVal
    let (temp, c3) := c2.freeVal
    c3.setTar i fun w => setField (setField (setField w 8 4 now) 0 8 (24 + clk.toNat % 97)) 32 8 temp.toNat
  .next { s with ch := (List.range 24).foldl set s.ch }

/-! Temperature and refresh of LPDDR-6 (R59, R424). -/

/-- The channels of a die. -/
def channels (die : Nat) : Nat := if die < 4 then 8 else 32

/-- The worst of a field of the memory status words of a die. -/
def Chip.worst (c : Chip) (die lo n : Nat) : Nat :=
  (List.range (channels die)).foldl (fun m k => max m (bits (nth 0 c.plat.memStatus (32 * die + k)).toNat lo n)) 0

/-- REFR of a temperature. -/
def refrOf (temp : Nat) : Nat := if temp ≤ 85 then 0 else if temp ≤ 105 then 1 else 2

/-- The three islands of a die. -/
def islandsOf (die : Nat) : List Nat := [3 * die, 3 * die + 1, 3 * die + 2]

/-- TEMPERATURE_READ. -/
def execTemperatureRead (die channel : Nat) (temp : BitVec 8) (s : State) : Host.Outcome State Fault Refusal :=
  if 8 ≤ die ∨ channels die ≤ channel then .next s
  else
    let i := 32 * die + channel
    let c := { s.ch with plat := { s.ch.plat with memStatus := s.ch.plat.memStatus.set i (setField (nth 0 s.ch.plat.memStatus i) 0 8 temp.toNat) } }
    let hottest := c.worst die 0 8
    .next { s with ch := (islandsOf die).foldl (fun c k => c.setTar k fun w => setField w 24 8 hottest) c }

/-- REFRESH_STATE_CHANGE: the state of the last temperature takes effect; over the limit the curator lowers the allowance of the die's
islands (R424). -/
def execRefreshStateChange (die channel : Nat) (s : State) : Host.Outcome State Fault Refusal :=
  let i := 32 * die + channel
  let w := nth 0 s.ch.plat.memStatus i
  let refr := refrOf (bits w.toNat 0 8)
  if 8 ≤ die ∨ channels die ≤ channel ∨ bits w.toNat 8 2 = refr then .next s
  else
    let hot := s.ch.plat.hotSince.filter fun x => x.1 != i
    let c := { s.ch with plat := { s.ch.plat with memStatus := s.ch.plat.memStatus.set i (setField w 8 2 refr),
                                                  hotSince := if refr = 2 then (i, s.ch.cycle) :: hot else hot } }
    let worst := c.worst die 8 2
    let c1 := (islandsOf die).foldl (fun c k => c.setTar k fun w => setField w 22 2 worst) c
    .next { s with ch := if refr = 2 ∧ s.ch.plat.curators then (islandsOf die).foldl Chip.lowerAllow c1 else c1 }

/-! Spill-ring faults (R148, R425). -/

/-- SPILL_RING_FAULT_RESOLVED: within 100 µs of the fault, ring traffic goes on. -/
def execSpillRingFaultResolved (quad : Nat) (s : State) : Host.Outcome State Fault Refusal :=
  if !(s.ch.quad quad).ringStall.any fun since => decide (s.ch.cycle ≤ since + 300000) then .next s
  else .next { s with ch := (s.ch.modQuad quad fun q => { q with ringStall := none }).drainRing quad }

/-- SPILL_RING_TIMEOUT: unresolved for 100 µs, the fault takes the quad out of service and its units' jobs are killed. -/
def execSpillRingTimeout (quad : Nat) (s : State) : Host.Outcome State Fault Refusal :=
  match (s.ch.quad quad).ringStall with
  | none => .next s
  | some since =>
    if s.ch.cycle < since + 300000 then .next s
    else
      let jobs := ((s.ch.units.filter fun u => u.placed && !u.ended && quadOf u.core == quad).map fun u => u.job).eraseDups
      let c := (s.ch.modQuad quad fun q => { q with ringStall := none, out := true, noPlace := true }).openService 2 quad
      .next { s with ch := jobs.foldl (fun c j => c.startKill j 0) c }

end Sys2Proof.Machine
end

