-- ==== Sys2Proof/Machine/Dispatch.lean ====
section
/-! DEFINITION. One arm for each row of the opcode table: the meaning it calls. -/

namespace Sys2Proof.Machine

def exec (i : Instr) (s : State) : Host.Outcome State Fault Refusal :=
  match i with
  | .add d a b => Sys2Proof.Machine.execAdd d a b s
  | .sub d a b => Sys2Proof.Machine.execSub d a b s
  | .mul d a b => Sys2Proof.Machine.execMul d a b s
  | .mulh d a b => Sys2Proof.Machine.execMulh d a b s
  | .mulhn d a b => Sys2Proof.Machine.execMulhn d a b s
  | .div d a b => Sys2Proof.Machine.execDiv d a b s
  | .divn d a b => Sys2Proof.Machine.execDivn d a b s
  | .rem d a b => Sys2Proof.Machine.execRem d a b s
  | .remn d a b => Sys2Proof.Machine.execRemn d a b s
  | .and d a b => Sys2Proof.Machine.execAnd d a b s
  | .or d a b => Sys2Proof.Machine.execOr d a b s
  | .xor d a b => Sys2Proof.Machine.execXor d a b s
  | .andn d a b => Sys2Proof.Machine.execAndn d a b s
  | .shl d a b => Sys2Proof.Machine.execShl d a b s
  | .shr d a b => Sys2Proof.Machine.execShr d a b s
  | .sra d a b => Sys2Proof.Machine.execSra d a b s
  | .rot d a b => Sys2Proof.Machine.execRot d a b s
  | .min d a b => Sys2Proof.Machine.execMin d a b s
  | .max d a b => Sys2Proof.Machine.execMax d a b s
  | .minn d a b => Sys2Proof.Machine.execMinn d a b s
  | .maxn d a b => Sys2Proof.Machine.execMaxn d a b s
  | .slt d a b => Sys2Proof.Machine.execSlt d a b s
  | .sltn d a b => Sys2Proof.Machine.execSltn d a b s
  | .seq d a b => Sys2Proof.Machine.execSeq d a b s
  | .sne d a b => Sys2Proof.Machine.execSne d a b s
  | .clz d a => Sys2Proof.Machine.execClz d a s
  | .ctz d a => Sys2Proof.Machine.execCtz d a s
  | .popc d a => Sys2Proof.Machine.execPopc d a s
  | .addi d a im => Sys2Proof.Machine.execAddi d a im s
  | .andi d a im => Sys2Proof.Machine.execAndi d a im s
  | .ori d a im => Sys2Proof.Machine.execOri d a im s
  | .xori d a im => Sys2Proof.Machine.execXori d a im s
  | .shli d a n => Sys2Proof.Machine.execShli d a n s
  | .shri d a n => Sys2Proof.Machine.execShri d a n s
  | .srai d a n => Sys2Proof.Machine.execSrai d a n s
  | .roti d a n => Sys2Proof.Machine.execRoti d a n s
  | .slti d a im => Sys2Proof.Machine.execSlti d a im s
  | .sltni d a im => Sys2Proof.Machine.execSltni d a im s
  | .lui d im => Sys2Proof.Machine.execLui d im s
  | .lhi d im => Sys2Proof.Machine.execLhi d im s
  | .lea d a b k => Sys2Proof.Machine.execLea d a b k s
  | .bfx d a p w => Sys2Proof.Machine.execBfx d a p w s
  | .bfxn d a p w => Sys2Proof.Machine.execBfxn d a p w s
  | .bfi d a p w => Sys2Proof.Machine.execBfi d a p w s
  | .ptagGet d a => Sys2Proof.Machine.execPtagGet d a s
  | .ptagSet d a b => Sys2Proof.Machine.execPtagSet d a b s
  | .ldI8 t b o d => Sys2Proof.Machine.execLdI8 t b o d s
  | .ldN8 t b o d => Sys2Proof.Machine.execLdN8 t b o d s
  | .ldI16 t b o d => Sys2Proof.Machine.execLdI16 t b o d s
  | .ldN16 t b o d => Sys2Proof.Machine.execLdN16 t b o d s
  | .ldI32 t b o d => Sys2Proof.Machine.execLdI32 t b o d s
  | .ldN32 t b o d => Sys2Proof.Machine.execLdN32 t b o d s
  | .ld64 t b o d => Sys2Proof.Machine.execLd64 t b o d s
  | .st8 t b o d => Sys2Proof.Machine.execSt8 t b o d s
  | .st16 t b o d => Sys2Proof.Machine.execSt16 t b o d s
  | .st32 t b o d => Sys2Proof.Machine.execSt32 t b o d s
  | .st64 t b o d => Sys2Proof.Machine.execSt64 t b o d s
  | .sld t b o d => Sys2Proof.Machine.execSld t b o d s
  | .sst t b o d => Sys2Proof.Machine.execSst t b o d s
  | .bld t b o f d => Sys2Proof.Machine.execBld t b o f d s
  | .bst t b o f d => Sys2Proof.Machine.execBst t b o f d s
  | .aadd d a v z p => Sys2Proof.Machine.execAadd d a v z p s
  | .aand d a v z p => Sys2Proof.Machine.execAand d a v z p s
  | .aor d a v z p => Sys2Proof.Machine.execAor d a v z p s
  | .axor d a v z p => Sys2Proof.Machine.execAxor d a v z p s
  | .aswp d a v z p => Sys2Proof.Machine.execAswp d a v z p s
  | .amin d a v z p => Sys2Proof.Machine.execAmin d a v z p s
  | .amax d a v z p => Sys2Proof.Machine.execAmax d a v z p s
  | .aminn d a v z p => Sys2Proof.Machine.execAminn d a v z p s
  | .amaxn d a v z p => Sys2Proof.Machine.execAmaxn d a v z p s
  | .afadd d a v z p => Sys2Proof.Machine.execAfadd d a v z p s
  | .afmax d a v z p => Sys2Proof.Machine.execAfmax d a v z p s
  | .afmin d a v z p => Sys2Proof.Machine.execAfmin d a v z p s
  | .acas d a v z p => Sys2Proof.Machine.execAcas d a v z p s
  | .ared a v o z p => Sys2Proof.Machine.execAred a v o z p s
  | .odseti o sp p c => Sys2Proof.Machine.execOdseti o sp p c s
  | .odset o a => Sys2Proof.Machine.execOdset o a s
  | .osq d c sp => Sys2Proof.Machine.execOsq d c sp s
  | .tkpost t c m => Sys2Proof.Machine.execTkpost t c m s
  | .tkwait t => Sys2Proof.Machine.execTkwait t s
  | .tktest d t => Sys2Proof.Machine.execTktest d t s
  | .tkclr t => Sys2Proof.Machine.execTkclr t s
  | .barInit b a o => Sys2Proof.Machine.execBarInit b a o s
  | .barExpect b a o => Sys2Proof.Machine.execBarExpect b a o s
  | .barArrive b o => Sys2Proof.Machine.execBarArrive b o s
  | .barWait b a o => Sys2Proof.Machine.execBarWait b a o s
  | .barTest b a o => Sys2Proof.Machine.execBarTest b a o s
  | .barInval b o => Sys2Proof.Machine.execBarInval b o s
  | .hbarAw c o => Sys2Proof.Machine.execHbarAw c o s
  | .hbarA c o => Sys2Proof.Machine.execHbarA c o s
  | .hbarW c o => Sys2Proof.Machine.execHbarW c o s
  | .sysRd d r => Sys2Proof.Machine.execSysRd d r s
  | .sysWr a r => Sys2Proof.Machine.execSysWr a r s
  | .trap c => Sys2Proof.Machine.execTrap c s
  | .xgate => Sys2Proof.Machine.execXgate s
  | .resume a => Sys2Proof.Machine.execResume a s
  | .rbase => Sys2Proof.Machine.execRbase s
  | .yield => Sys2Proof.Machine.execYield s
  | .branch a b c o => Sys2Proof.Machine.execBranch a b c o s
  | .jal d o => Sys2Proof.Machine.execJal d o s
  | .jr a => Sys2Proof.Machine.execJr a s
  | .loop l c n t => Sys2Proof.Machine.execLoop l c n t s
  | .lsplit a b c => Sys2Proof.Machine.execLsplit a b c s
  | .lbrk => Sys2Proof.Machine.execLbrk s
  | .done => Sys2Proof.Machine.execDone s
  | .nop => Sys2Proof.Machine.execNop s
  | .dep p a b c => Sys2Proof.Machine.execDep p a b c s
  | .gmov d sp => Sys2Proof.Machine.execGmov d sp s
  | .gadd d a im => Sys2Proof.Machine.execGadd d a im s
  | .glea d a b k => Sys2Proof.Machine.execGlea d a b k s
  | .itld g a o => Sys2Proof.Machine.execItld g a o s
  | .itst g a o => Sys2Proof.Machine.execItst g a o s
  | .itmod g f a => Sys2Proof.Machine.execItmod g f a s
  | .chld c a o => Sys2Proof.Machine.execChld c a o s
  | .sbind q g c d n o => Sys2Proof.Machine.execSbind q g c d n o s
  | .sunbind q => Sys2Proof.Machine.execSunbind q s
  | .sskip q a => Sys2Proof.Machine.execSskip q a s
  | .cp d sp l b o c z => Sys2Proof.Machine.execCp d sp l b o c z s
  | .cpCg d sp p b o => Sys2Proof.Machine.execCpCg d sp p b o s
  | .cpst d sp p b o => Sys2Proof.Machine.execCpst d sp p b o s
  | .wsort d sp p b o c l => Sys2Proof.Machine.execWsort d sp p b o c l s
  | .xsend k q l o => Sys2Proof.Machine.execXsend k q l o s
  | .xwait k o => Sys2Proof.Machine.execXwait k o s
  | .xgrant k o => Sys2Proof.Machine.execXgrant k o s
  | .xstat k d o => Sys2Proof.Machine.execXstat k d o s
  | .clAr d sp l r o c p t => Sys2Proof.Machine.execClAr d sp l r o c p t s
  | .clBc d sp l r o c => Sys2Proof.Machine.execClBc d sp l r o c s
  | .clAg d sp l o c => Sys2Proof.Machine.execClAg d sp l o c s
  | .clRs d sp l r o c p t => Sys2Proof.Machine.execClRs d sp l r o c p t s
  | .mmov d sp => Sys2Proof.Machine.execMmov d sp s
  | .madd d a im => Sys2Proof.Machine.execMadd d a im s
  | .bktz n t o => Sys2Proof.Machine.execBktz n t o s
  | .bkt a l r t c sp o => Sys2Proof.Machine.execBkt a l r t c sp o s
  | .bfin c sp a r o => Sys2Proof.Machine.execBfin c sp a r o s
  | .tmma m n a b c t im => Sys2Proof.Machine.execTmma m n a b c t im s
  | .tmmaSp m n a b c q t im => Sys2Proof.Machine.execTmmaSp m n a b c q t im s
  | .spc im v m n t o => Sys2Proof.Machine.execSpc im v m n t o s
  | .accz a n o => Sys2Proof.Machine.execAccz a n o s
  | .adrain d a sp t o => Sys2Proof.Machine.execAdrain d a sp t o s
  | .qdrain d a sp m t c o => Sys2Proof.Machine.execQdrain d a sp m t c o s
  | .quant2 d a sp x t o => Sys2Proof.Machine.execQuant2 d a sp x t o s
  | .accmv d a n o => Sys2Proof.Machine.execAccmv d a n o s
  | .mstat d sp => Sys2Proof.Machine.execMstat d sp s
  | .vsh sp => Sys2Proof.Machine.execVsh sp s
  | .vadd w d a b p f r => Sys2Proof.Machine.execVadd w d a b p f r s
  | .vsub w d a b p f r => Sys2Proof.Machine.execVsub w d a b p f r s
  | .vmul w d a b p f r => Sys2Proof.Machine.execVmul w d a b p f r s
  | .vfma w d a b p f r => Sys2Proof.Machine.execVfma w d a b p f r s
  | .vfms w d a b p f r => Sys2Proof.Machine.execVfms w d a b p f r s
  | .vnfma w d a b p f r => Sys2Proof.Machine.execVnfma w d a b p f r s
  | .vmin w d a b p f r => Sys2Proof.Machine.execVmin w d a b p f r s
  | .vmax w d a b p f r => Sys2Proof.Machine.execVmax w d a b p f r s
  | .vminm w d a b p f r => Sys2Proof.Machine.execVminm w d a b p f r s
  | .vmaxm w d a b p f r => Sys2Proof.Machine.execVmaxm w d a b p f r s
  | .vabs w d a p f r => Sys2Proof.Machine.execVabs w d a p f r s
  | .vneg w d a p f r => Sys2Proof.Machine.execVneg w d a p f r s
  | .vand w d a b p f r => Sys2Proof.Machine.execVand w d a b p f r s
  | .vor w d a b p f r => Sys2Proof.Machine.execVor w d a b p f r s
  | .vxor w d a b p f r => Sys2Proof.Machine.execVxor w d a b p f r s
  | .vshl w d a b p f r => Sys2Proof.Machine.execVshl w d a b p f r s
  | .vshr w d a b p f r => Sys2Proof.Machine.execVshr w d a b p f r s
  | .vsra w d a b p f r => Sys2Proof.Machine.execVsra w d a b p f r s
  | .vcmp w d a b c f r => Sys2Proof.Machine.execVcmp w d a b c f r s
  | .vsel w d a b p f r => Sys2Proof.Machine.execVsel w d a b p f r s
  | .vcvt w d a t p f r => Sys2Proof.Machine.execVcvt w d a t p f r s
  | .vred w d a x o p f r => Sys2Proof.Machine.execVred w d a x o p f r s
  | .vscan w d a x o p f r => Sys2Proof.Machine.execVscan w d a x o p f r s
  | .vperm w d a b p f r => Sys2Proof.Machine.execVperm w d a b p f r s
  | .vbcast w d a im p f r => Sys2Proof.Machine.execVbcast w d a im p f r s
  | .vtrn w d a p f r => Sys2Proof.Machine.execVtrn w d a p f r s
  | .vrcp w d a p f r => Sys2Proof.Machine.execVrcp w d a p f r s
  | .vrsq w d a p f r => Sys2Proof.Machine.execVrsq w d a p f r s
  | .vrfix w d a b p f r => Sys2Proof.Machine.execVrfix w d a b p f r s
  | .vrsfix w d a b p f r => Sys2Proof.Machine.execVrsfix w d a b p f r s
  | .vexp2 w d a p f r => Sys2Proof.Machine.execVexp2 w d a p f r s
  | .vlog2 w d a p f r => Sys2Proof.Machine.execVlog2 w d a p f r s
  | .vsin w d a p f r => Sys2Proof.Machine.execVsin w d a p f r s
  | .vcos w d a p f r => Sys2Proof.Machine.execVcos w d a p f r s
  | .vsplat w d k sp p => Sys2Proof.Machine.execVsplat w d k sp p s
  | .vomov w d a p f r => Sys2Proof.Machine.execVomov w d a p f r s
  | .vmov w d a p f r => Sys2Proof.Machine.execVmov w d a p f r s
  | .vld d im o p => Sys2Proof.Machine.execVld d im o p s
  | .vst d im o p => Sys2Proof.Machine.execVst d im o p s
  | .vbld d im o p => Sys2Proof.Machine.execVbld d im o p s
  | .vbst d im o p => Sys2Proof.Machine.execVbst d im o p s
  | .vsld d im o p => Sys2Proof.Machine.execVsld d im o p s
  | .vsst d im o p => Sys2Proof.Machine.execVsst d im o p s
  | .vgth w d a o p => Sys2Proof.Machine.execVgth w d a o p s
  | .vsct d a o p => Sys2Proof.Machine.execVsct d a o p s
  | .viset im sp o => Sys2Proof.Machine.execViset im sp o s
  | .pset p a e => Sys2Proof.Machine.execPset p a e s
  | .pfirst p a => Sys2Proof.Machine.execPfirst p a s
  | .pminmax d a b o => Sys2Proof.Machine.execPminmax d a b o s
  | .vfr x im => Sys2Proof.Machine.execVfr x im s
  | .vfc x => Sys2Proof.Machine.execVfc x s
  | .vmode x im => Sys2Proof.Machine.execVmode x im s
  | .vpop d q p => Sys2Proof.Machine.execVpop d q p s
  | .vpush d q p => Sys2Proof.Machine.execVpush d q p s
  | .commandStart op => Sys2Proof.Machine.execCommandStart op s
  | .operationPerformed op => Sys2Proof.Machine.execOperationPerformed op s
  | .lateFault op => Sys2Proof.Machine.execLateFault op s
  | .fullEmptyRelease op => Sys2Proof.Machine.execFullEmptyRelease op s
  | .streamGatherEntry core slot q => Sys2Proof.Machine.execStreamGatherEntry core slot q s
  | .streamScatterWrite core slot q => Sys2Proof.Machine.execStreamScatterWrite core slot q s
  | .rendezvous core slot => Sys2Proof.Machine.execRendezvous core slot s
  | .hbarRelease job scope site => Sys2Proof.Machine.execHbarRelease job scope site s
  | .xsendDelivery job link far => Sys2Proof.Machine.execXsendDelivery job link far s
  | .permitReturn job link far => Sys2Proof.Machine.execPermitReturn job link far s
  | .linkFailure link => Sys2Proof.Machine.execLinkFailure link s
  | .correctionFreezeEnd core => Sys2Proof.Machine.execCorrectionFreezeEnd core s
  | .patrolScrub core addr => Sys2Proof.Machine.execPatrolScrub core addr s
  | .columnMigrationHold die src dst => Sys2Proof.Machine.execColumnMigrationHold die src dst s
  | .columnMigrationMove die => Sys2Proof.Machine.execColumnMigrationMove die s
  | .columnMigrationResume die => Sys2Proof.Machine.execColumnMigrationResume die s
  | .hotQuadTimeout die quad => Sys2Proof.Machine.execHotQuadTimeout die quad s
  | .temperatureRead die channel temp => Sys2Proof.Machine.execTemperatureRead die channel temp s
  | .refreshStateChange die channel => Sys2Proof.Machine.execRefreshStateChange die channel s
  | .walkComplete walk => Sys2Proof.Machine.execWalkComplete walk s
  | .holdRetry walk => Sys2Proof.Machine.execHoldRetry walk s
  | .homeRequest req => Sys2Proof.Machine.execHomeRequest req s
  | .peerResponse op err data => Sys2Proof.Machine.execPeerResponse op err data s
  | .movedResponse op home => Sys2Proof.Machine.execMovedResponse op home s
  | .migrateAsk pod va pkg => Sys2Proof.Machine.execMigrateAsk pod va pkg s
  | .migrateNewHome pod va leaf data => Sys2Proof.Machine.execMigrateNewHome pod va leaf data s
  | .migrateRelease pod va => Sys2Proof.Machine.execMigrateRelease pod va s
  | .pageMove asr va die => Sys2Proof.Machine.execPageMove asr va die s
  | .pageMoveFinish asr va => Sys2Proof.Machine.execPageMoveFinish asr va s
  | .inval q => Sys2Proof.Machine.execInval q s
  | .invalComplete inv => Sys2Proof.Machine.execInvalComplete inv s
  | .launch q => Sys2Proof.Machine.execLaunch q s
  | .replay q => Sys2Proof.Machine.execReplay q s
  | .replayNodeLaunch rep node => Sys2Proof.Machine.execReplayNodeLaunch rep node s
  | .alloc q => Sys2Proof.Machine.execAlloc q s
  | .free q => Sys2Proof.Machine.execFree q s
  | .signal q => Sys2Proof.Machine.execSignal q s
  | .queueDescriptorWrite port q off data => Sys2Proof.Machine.execQueueDescriptorWrite port q off data s
  | .queueTailWrite port q tail => Sys2Proof.Machine.execQueueTailWrite port q tail s
  | .queueErrorClear port q => Sys2Proof.Machine.execQueueErrorClear port q s
  | .unitPlacement die => Sys2Proof.Machine.execUnitPlacement die s
  | .corRelease job => Sys2Proof.Machine.execCorRelease job s
  | .strandStart core slot => Sys2Proof.Machine.execStrandStart core slot s
  | .strandEnd core slot => Sys2Proof.Machine.execStrandEnd core slot s
  | .jobComplete job => Sys2Proof.Machine.execJobComplete job s
  | .spillRingFaultResolved quad => Sys2Proof.Machine.execSpillRingFaultResolved quad s
  | .spillRingTimeout quad => Sys2Proof.Machine.execSpillRingTimeout quad s
  | .faultFreezeEnd core => Sys2Proof.Machine.execFaultFreezeEnd core s
  | .trapHandlerEntry core slot => Sys2Proof.Machine.execTrapHandlerEntry core slot s
  | .watchdogExpiry core slot cluster => Sys2Proof.Machine.execWatchdogExpiry core slot cluster s
  | .preemptRequest job unit => Sys2Proof.Machine.execPreemptRequest job unit s
  | .saveStart core slot => Sys2Proof.Machine.execSaveStart core slot s
  | .saveWrite core slot => Sys2Proof.Machine.execSaveWrite core slot s
  | .saveTimeout core slot => Sys2Proof.Machine.execSaveTimeout core slot s
  | .restore job unit => Sys2Proof.Machine.execRestore job unit s
  | .jobkill port job => Sys2Proof.Machine.execJobkill port job s
  | .killDrained job => Sys2Proof.Machine.execKillDrained job s
  | .killCertificate job => Sys2Proof.Machine.execKillCertificate job s
  | .claim port => Sys2Proof.Machine.execClaim port s
  | .handover port value => Sys2Proof.Machine.execHandover port value s
  | .ownerLinkTimeout => Sys2Proof.Machine.execOwnerLinkTimeout s
  | .portLinkChange port up => Sys2Proof.Machine.execPortLinkChange port up s
  | .bar4Read port off len => Sys2Proof.Machine.execBar4Read port off len s
  | .bar4Write port off data => Sys2Proof.Machine.execBar4Write port off data s
  | .registerWrite port off value => Sys2Proof.Machine.execRegisterWrite port off value s
  | .firmwareLoad port img => Sys2Proof.Machine.execFirmwareLoad port img s
  | .coldStart => Sys2Proof.Machine.execColdStart s
  | .warmStart port => Sys2Proof.Machine.execWarmStart port s
  | .status => Sys2Proof.Machine.execStatus s
  | .lease => Sys2Proof.Machine.execLease s
  | .scrub => Sys2Proof.Machine.execScrub s
  | .attest port nonce => Sys2Proof.Machine.execAttest port nonce s
  | .portmode modes => Sys2Proof.Machine.execPortmode modes s
  | .fabric cmd => Sys2Proof.Machine.execFabric cmd s
  | .image img => Sys2Proof.Machine.execImage img s
  | .svnraise => Sys2Proof.Machine.execSvnraise s
  | .release => Sys2Proof.Machine.execRelease s
  | .routingReport member count => Sys2Proof.Machine.execRoutingReport member count s
  | .deliveryPacket epoch seq req => Sys2Proof.Machine.execDeliveryPacket epoch seq req s
  | .deliveryAck ctx seq => Sys2Proof.Machine.execDeliveryAck ctx seq s
  | .retransmitTimeout ctx => Sys2Proof.Machine.execRetransmitTimeout ctx s
  | .contextTeardown ctx => Sys2Proof.Machine.execContextTeardown ctx s
  | .contextClose pkg pod epoch => Sys2Proof.Machine.execContextClose pkg pod epoch s
  | .closeAbandon ctx => Sys2Proof.Machine.execCloseAbandon ctx s
  | .allowanceUpdate levels => Sys2Proof.Machine.execAllowanceUpdate levels s
  | .malformedHeader q => Sys2Proof.Machine.execMalformedHeader q s
  | .migrationRefused pod va => Sys2Proof.Machine.execMigrationRefused pod va s
  | .fibreDown fibre => Sys2Proof.Machine.execFibreDown fibre s
  | .powerFailure => Sys2Proof.Machine.execPowerFailure s

end Sys2Proof.Machine
end

