-- ==== Sys2Proof/Machine/Step.lean ====
section
/-! DEFINITION. One step: the next choice of the agenda, or the model's own order when the agenda is empty. -/

namespace Sys2Proof.Machine

/-- The instruction of the turn runs. -/
def runTurn (s : State) (t : Turn) (i : Instr) : Host.Outcome State Fault Refusal :=
  exec i { s with ch := { s.ch with turn := t } }

/-- A cluster issues its next word, when the physical cluster has not issued in this cycle and the choice of R183 falls on it (R180 to R185, R223, R254). -/
def issueWord (s : State) (pos : Nat) (cl : Cluster) : Host.Outcome State Fault Refusal :=
  if (s.ch.strand? pos).any fun σ => σ.trap.phase == .frozen && σ.trap.info.kind != 1 then .next s
  else s.inCycle (coreOf pos) fun s => match s.ch.strand? pos with
  | none => .next s
  | some σ =>
    if s.ch.turnGone pos cl || !s.chosen σ cl then .next s
    else match nextWord s pos cl with
      | .none => .next s
      | .fault t => .next (s.trapTo { s.ch with turn := turnOf pos cl 0 } pos cl t)
      | .word w =>
        match decodeWord cl w with
        | .ok i => runTurn (s.reopen pos cl) (turnOf pos cl w) i
        | .error e => .next (s.trapTo { s.ch with turn := turnOf pos cl w } pos cl (decodeFault e))

/-- A choice takes place. -/
def runChoice (s : State) (c : Choice) : Host.Outcome State Fault Refusal :=
  match c with
  | .issue pos cl => issueWord s pos cl
  | .event e => if e.isEvent then exec e s else .next s
  | other => .next (passing other s)

/-- Dispatch takes the next entry of a queue by its kind; an entry with no kind, or a ring that cannot be read, is the malformed
header's. -/
def runEntry (q : Nat) (s : State) : Host.Outcome State Fault Refusal :=
  match s.peek (s.ch.queue q) with
  | .none => .next s
  | .stop => execMalformedHeader q s
  | .entry _ _ e => match entryKind e with
    | 1 => execLaunch q s
    | 2 => execInval q s
    | 3 => execReplay q s
    | 4 => execAlloc q s
    | 5 => execFree q s
    | 6 => execSignal q s
    | _ => execMalformedHeader q s

/-- What the machine does by itself: the meaning of the event, or the issue of a word. -/
def runOwn (s : State) (c : Own) : Host.Outcome State Fault Refusal :=
  match c with
  | .start op => execCommandStart op s
  | .perform op => execOperationPerformed op s
  | .fails op => execLateFault op s
  | .fullEmpty op => execFullEmptyRelease op s
  | .gather core slot q => execStreamGatherEntry core slot q s
  | .scatter core slot q => execStreamScatterWrite core slot q s
  | .delivery j l far => execXsendDelivery j l far s
  | .permit j l far => execPermitReturn j l far s
  | .hbar j sc site => execHbarRelease j sc site s
  | .walkEnd w => execWalkComplete w s
  | .walkAgain w => execHoldRetry w s
  | .home req => execHomeRequest req s
  | .moved op pkg => execMovedResponse op pkg s
  | .pageFinish asr va => execPageMoveFinish asr va s
  | .resend x => execRetransmitTimeout x s
  | .teardown x => execContextTeardown x s
  | .abandon x => execCloseAbandon x s
  | .correction core => execCorrectionFreezeEnd core s
  | .freezeEnd core => execFaultFreezeEnd core s
  | .handler core slot => execTrapHandlerEntry core slot s
  | .watchdog core slot cl => execWatchdogExpiry core slot cl s
  | .moveQuad die => execColumnMigrationMove die s
  | .moveEnd die => execColumnMigrationResume die s
  | .ringLate quad => execSpillRingTimeout quad s
  | .drained j => execKillDrained j s
  | .certificate j => execKillCertificate j s
  | .released j => execCorRelease j s
  | .complete j => execJobComplete j s
  | .saveStart core slot => execSaveStart core slot s
  | .saveWrite core slot => execSaveWrite core slot s
  | .saveLate core slot => execSaveTimeout core slot s
  | .restore j u => execRestore j u s
  | .strandStart core slot => execStrandStart core slot s
  | .strandEnd core slot => execStrandEnd core slot s
  | .rendezvous core slot => execRendezvous core slot s
  | .place die => execUnitPlacement die s
  | .entry q => runEntry q s
  | .invalDone v => execInvalComplete v s
  | .replayNode rep node => execReplayNodeLaunch rep node s
  | .ownerLost => execOwnerLinkTimeout s
  | .issue p cl => issueWord s p cl

/-- The first of a list that changes the state; a cycle passes when none does. -/
def firstChange (s : State) : List Own → Host.Outcome State Fault Refusal
  | [] => .next (passing (.tick 1) s)
  | c :: cs =>
    match runOwn s c with
    | .next t => if t.mem = s.mem ∧ { t.ch with turn := s.ch.turn } = s.ch then firstChange s cs else .next t
    | r => r

/-- A step takes place; what it has written to sectors that stay uncorrectable does not read back (R423). -/
def restuck (r : Host.Outcome State Fault Refusal) : Host.Outcome State Fault Refusal :=
  match r with
  | .next t => .next { t with ch := { t.ch with side := t.ch.side.restuck } }
  | r => r

/-- One step of the machine: the first choice of the agenda that can take place, or the model's own order (log entry 1). -/
def step (s : State) : Host.Outcome State Fault Refusal :=
  restuck (match s.pick [] s.ch.agenda with
    | some (c, rest) => runChoice { s with ch := { s.ch with agenda := rest } } c
    | none => firstChange s (candidates s))

/-- The strand `withFetchWord` places: one unit of one strand in slot 0 of core 0, each cluster's stream one word of zeros but
for the given one. -/
def fetchStrand (cl : Cluster) (w : Word) : Strand :=
  let who : Ident := { job := 0, unit := 0, strand := 0, nstr := 1, role := 0, quadpos := 0, arg := 0, weight := 8 }
  let img (k : Cluster) : List Word := if k = cl then [w, 0, 0, 0] else [0]
  let σ := Strand.fresh 0 who (img .c) (img .g) (img .m) (img .v) (List.replicate 8 odFresh)
  [Cluster.c, .g, .m, .v].foldl (fun σ k => σ.modCl k fun x => { x with ended := decide (k ≠ cl), released := wordSync w && k == cl }) σ

/-- `s` with an instruction standing where the next step fetches: a strand in slot 0 of core 0 whose first word it is, in the
stream of the first cluster whose decoder accepts it, and the choice to issue it (log entry 20). -/
def State.withFetchWord (s : State) (_nbits w : Nat) : State :=
  let x : Word := BitVec.ofNat 32 w
  let cl := clusterOfWord x
  let c := s.ch
  { s with ch := { c with strands := fetchStrand cl x :: c.strands.filter (fun σ => coreOf σ.pos != 0),
                          cores := c.cores.filter (fun k => k.id != 0), quads := c.quads.filter (fun q => q.id != 0),
                          moves := c.moves.filter (fun m => m.die != 0), jobs := c.jobs.filter (fun j => j.id != 0),
                          agenda := .issue 0 cl :: c.agenda } }

end Sys2Proof.Machine
end

