-- ==== Sys2Proof/Safety.lean ====
section
/-! DEFINITION. Safe runs, and the shapes of a step in which the statements speak: a word that issues, an operation put in flight, a
trap that is taken, a word that waits. -/

namespace Sys2Proof

/-- A state from which the next step stops neither with a fault nor with a refusal. -/
def Safe (s : Machine.State) : Prop := ∃ t, Machine.step s = .next t

/-- A run of `n` steps that stops nowhere. -/
def SafeRun (n : Nat) (s : Machine.State) : Prop := ∃ t, core.run n s = .next t

namespace Machine

/-- The turn names the slot of `σ`, and none of the registers `srcs` awaits a value (R96). -/
structure AtIssue (s : State) (σ : Strand) (srcs : List RegName) : Prop where
  strand : s.ch.strand? s.ch.turn.pos = some σ
  free : σ.free srcs = true

/-- The sequencing of the issuing cluster of a strand moves on past the turn's word (R184, R185, R191). -/
def Strand.advanced (τ : Strand) (t : Turn) (jump : Option Nat) : Strand :=
  τ.modCl t.cl fun k => k.issued t.size (wordHold t.lead) τ.trap.pend jump

/-- A core but for the order of service of its clusters. -/
def Core.held (k : Core) : Core := { k with served := [], spent := [], hold := [] }

/-- The turn's word has issued: its strand has become `τ`, with the issuing cluster's sequencing moved on. No byte of memory, no
other strand and no other core has changed, nor any other part of the chip; of the core itself only the order of service. -/
structure Issued (s t : State) (τ : Strand) (jump : Option Nat) : Prop where
  mem : t.mem = s.mem
  own : t.ch.strand? s.ch.turn.pos = some (τ.advanced s.ch.turn jump)
  others : ∀ p, p ≠ s.ch.turn.pos → t.ch.strand? p = s.ch.strand? p
  cores : ∀ n, n ≠ coreOf s.ch.turn.pos → t.ch.core n = s.ch.core n
  core : (t.ch.core (coreOf s.ch.turn.pos)).held = (s.ch.core (coreOf s.ch.turn.pos)).held
  rest : { t.ch with strands := s.ch.strands, cores := s.ch.cores } = s.ch

/-- The turn's word has put operation `o` in flight (R89, R96, R101): it has the next number of its stream, the registers it will
write await it, and no byte of memory, register, other strand or earlier operation has changed. -/
structure Launched (s t : State) (σ : Strand) (o : Op) : Prop where
  mem : t.mem = s.mem
  ops : t.ch.ops = s.ch.ops ++ [o]
  ident : o.id = s.ch.nextId ∧ t.ch.nextId = s.ch.nextId + 1
  others : ∀ p, p ≠ s.ch.turn.pos → t.ch.strand? p = s.ch.strand? p
  seq : ∀ d, o.od = some d → o.seq = ((σ.cl o.cl).stream (odStream d)).issued + 1
  own : ∃ τ, t.ch.strand? s.ch.turn.pos = some τ ∧ τ.s = σ.s ∧ τ.od = σ.od ∧ τ.gr.g = σ.gr.g ∧ τ.gr.gi = σ.gr.gi ∧
    τ.gr.ch = σ.gr.ch ∧ τ.mr = σ.mr ∧ τ.vr.v = σ.vr.v ∧ τ.vr.x = σ.vr.x ∧ τ.vr.vflags = σ.vr.vflags ∧ τ.trap = σ.trap ∧
    (∀ d, o.od = some d → ((τ.cl o.cl).stream (odStream d)).issued = o.seq ∧
      ((τ.cl o.cl).stream (odStream d)).completed = ((σ.cl o.cl).stream (odStream d)).completed) ∧
    (∀ r ∈ o.dest, r ≠ .s 0 → r ≠ .g 0 → r ≠ .m 0 → r ≠ .x 0 → (⟨r, o.id⟩ : Busy) ∈ τ.busy)

/-- What a strand holds of a trap that it takes outside privileged mode (R391, R396). -/
def Strand.trapped (τ : Strand) (cl : Cluster) (r : TrapReq) (cycle : Nat) : Strand :=
  { τ with trap := { τ.trap with
      phase := .frozen, saveStart := none, dziAtFault := τ.trap.dzi,
      info := { cause := r.cause, kind := r.kind, cluster := cl, step := r.step, qual := r.qual, code := r.code,
                value := r.value, mmx := r.mmx, cycle := cycle } } }

/-- The turn's word has been answered by a trap (R22, R391): the strand stands as `τ` with what its frame will record, the core
freezes for 16 cycles unless a fault freezes it already, the fault joins those that the freeze record will name (R393), and no byte of memory and no
other strand has changed. -/
structure Trapped (s t : State) (τ : Strand) (r : TrapReq) : Prop where
  mem : t.mem = s.mem
  own : t.ch.strand? s.ch.turn.pos = some (τ.trapped s.ch.turn.cl r s.ch.cycle)
  others : ∀ p, p ≠ s.ch.turn.pos → t.ch.strand? p = s.ch.strand? p
  ops : t.ch.ops = s.ch.ops
  frozen : (t.ch.core (coreOf s.ch.turn.pos)).freeze =
    if (s.ch.core (coreOf s.ch.turn.pos)).freeze = 0 ∧ (s.ch.core (coreOf s.ch.turn.pos)).faults = [] then 16
    else (s.ch.core (coreOf s.ch.turn.pos)).freeze
  noted : (t.ch.core (coreOf s.ch.turn.pos)).faults =
    joinFault { slot := s.ch.turn.pos % 4, cause := r.cause, kind := r.kind, cycle := s.ch.cycle } (s.ch.core (coreOf s.ch.turn.pos)).faults

/-- The strand runs its program: it has not trapped and is in user mode. -/
def Strand.inProgram (σ : Strand) : Prop := σ.trap.phase = .run

/-- When a branch of condition `c` is taken (R225). -/
def Taken (c : Nat) (a b : Reg) : Prop :=
  match c with
  | 0 => a = b
  | 1 => a ≠ b
  | 2 => a.toInt < b.toInt
  | 3 => b.toInt ≤ a.toInt
  | 4 => a.toNat < b.toNat
  | _ => b.toNat ≤ a.toNat

/-- A target stays in the innermost loop body of a cluster (R192). -/
def ClusterSt.InBody (k : ClusterSt) (n : Int) : Prop := ∀ l ls, k.loops = l :: ls → l.body ≤ n ∧ n < l.body + 4 * l.len

/-- The second word of a `dep` or an `lsplit` pair (R237, R259). -/
def ClusterSt.SecondOfPair (k : ClusterSt) (cl : Cluster) (n : Int) : Prop := 4 ≤ n ∧ k.pairAt cl (n.toNat - 4) = true

/-- A target lies in the image of the stream (R254). -/
def ClusterSt.InImage (k : ClusterSt) (n : Int) : Prop := 0 ≤ n ∧ n < 4 * k.image.length

/-- The state in which a pair issues: the turn's word has become the prefix of the word after it (R237, R259). -/
def State.paired (s : State) (w : Word) : State :=
  { s with ch := { s.ch with turn := { s.ch.turn with word := w, pfx := some s.ch.turn.word } } }

/-- A memory access of the C cluster (R271 to R282): the base register, the offset, the bytes, the spaces, the descriptor, the other
registers it reads, the first of them its data, and the register that awaits it. -/
structure CAccess where
  base : BitVec 5
  off : Int
  n : Nat
  allow : Allow
  acc : Access
  od : BitVec 3
  data : List (BitVec 5)
  dest : List RegName

/-- The accesses as R229 and R272 to R282 give them; a floating-point atomic of 64 bits is none. -/
def cAccess : Instr → Option CAccess
  | .ldI8 t b o d => some ⟨b, o.toInt, 1, globalOnly, .load, d, [], [.s t.toNat]⟩
  | .ldN8 t b o d => some ⟨b, o.toInt, 1, globalOnly, .load, d, [], [.s t.toNat]⟩
  | .ldI16 t b o d => some ⟨b, 2 * o.toInt, 2, globalOnly, .load, d, [], [.s t.toNat]⟩
  | .ldN16 t b o d => some ⟨b, 2 * o.toInt, 2, globalOnly, .load, d, [], [.s t.toNat]⟩
  | .ldI32 t b o d => some ⟨b, 4 * o.toInt, 4, globalOnly, .load, d, [], [.s t.toNat]⟩
  | .ldN32 t b o d => some ⟨b, 4 * o.toInt, 4, globalOnly, .load, d, [], [.s t.toNat]⟩
  | .ld64 t b o d => some ⟨b, 8 * o.toInt, 8, globalOnly, .load, d, [], [.s t.toNat]⟩
  | .st8 t b o d => some ⟨b, o.toInt, 1, globalOnly, .store, d, [t], []⟩
  | .st16 t b o d => some ⟨b, 2 * o.toInt, 2, globalOnly, .store, d, [t], []⟩
  | .st32 t b o d => some ⟨b, 4 * o.toInt, 4, globalOnly, .store, d, [t], []⟩
  | .st64 t b o d => some ⟨b, 8 * o.toInt, 8, globalOnly, .store, d, [t], []⟩
  | .sld t b o d => some ⟨b, 8 * o.toInt, 8, ownColumn, .load, d, [], [.s t.toNat]⟩
  | .sst t b o d => some ⟨b, 8 * o.toInt, 8, ownColumn, .store, d, [t], []⟩
  | .bld t b o _ d => some ⟨b, 8 * o.toInt, 8, benchOnly, .load, d, [], [.s t.toNat]⟩
  | .bst t b o _ d => some ⟨b, 8 * o.toInt, 8, benchOnly, .store, d, [t], []⟩
  | .aadd d a v z p => some ⟨a, 0, if z = 1 then 8 else 4, atomicSpaces, .atomic, p, [v], [.s d.toNat]⟩
  | .aand d a v z p => some ⟨a, 0, if z = 1 then 8 else 4, atomicSpaces, .atomic, p, [v], [.s d.toNat]⟩
  | .aor d a v z p => some ⟨a, 0, if z = 1 then 8 else 4, atomicSpaces, .atomic, p, [v], [.s d.toNat]⟩
  | .axor d a v z p => some ⟨a, 0, if z = 1 then 8 else 4, atomicSpaces, .atomic, p, [v], [.s d.toNat]⟩
  | .aswp d a v z p => some ⟨a, 0, if z = 1 then 8 else 4, atomicSpaces, .atomic, p, [v], [.s d.toNat]⟩
  | .amin d a v z p => some ⟨a, 0, if z = 1 then 8 else 4, atomicSpaces, .atomic, p, [v], [.s d.toNat]⟩
  | .amax d a v z p => some ⟨a, 0, if z = 1 then 8 else 4, atomicSpaces, .atomic, p, [v], [.s d.toNat]⟩
  | .aminn d a v z p => some ⟨a, 0, if z = 1 then 8 else 4, atomicSpaces, .atomic, p, [v], [.s d.toNat]⟩
  | .amaxn d a v z p => some ⟨a, 0, if z = 1 then 8 else 4, atomicSpaces, .atomic, p, [v], [.s d.toNat]⟩
  | .afadd d a v z p => if z = 1 then none else some ⟨a, 0, 4, atomicSpaces, .atomic, p, [v], [.s d.toNat]⟩
  | .afmax d a v z p => if z = 1 then none else some ⟨a, 0, 4, atomicSpaces, .atomic, p, [v], [.s d.toNat]⟩
  | .afmin d a v z p => if z = 1 then none else some ⟨a, 0, 4, atomicSpaces, .atomic, p, [v], [.s d.toNat]⟩
  | .acas d a v z p => some ⟨a, 0, if z = 1 then 8 else 4, atomicSpaces, .atomic, p, [v, d], [.s d.toNat]⟩
  | .ared a v o z p =>
    if 9 ≤ o.toNat ∧ z = 1 ∨ 11 < o.toNat then none else some ⟨a, 0, if z = 1 then 8 else 4, atomicSpaces, .atomic, p, [v], []⟩
  | _ => none

/-- No translation of a cluster waits on a HOLD entry (R81). -/
def State.NoWalk (s : State) (σ : Strand) (cl : Cluster) : Prop := ∀ w ∈ s.ch.xl.walks, ¬(w.pos = σ.pos ∧ w.cl = cl)

/-- What the issue of an engine command asks of the state beside its own checks (R73, R101, R147, R148, R293, R294, R319): a place in
its stream and in its queue, no column migration that holds its storage, and TLB entries to pin. -/
structure State.HasRoom (s : State) (σ : Strand) (i : Instr) (od : BitVec 14) (segs : List Seg) : Prop where
  stream : σ.exhausted s.ch.turn.cl od = false
  queue : (s.ch.engineRoom i σ.pos).1 = true
  still : s.ch.moving segs = false
  pins : s.ch.turn.cl = .g → s.ch.pinCount (quadOfPos σ.pos) σ.who.job segs ≤ 1984

/-- A command without a prefix has issued (R110, R293, R319): it is in flight with the footprints and the barrier its checks found, the
stream entries of its fields are its own (R302), it produces no token and waits for none. -/
def State.Commands (s t : State) (σ : Strand) (i : Instr) (od : BitVec 14) (locs : List Loc) (bar : Option Seg)
    (fields : List (Nat × Nat × Dir)) : Prop :=
  ∃ o τ, Launched s t σ o ∧ o.instr = i ∧ o.cl = s.ch.turn.cl ∧ o.od = some od ∧ o.locs = locs ∧ o.bar = bar ∧
    o.claims = (σ.claimAll fields).1 ∧ o.prod = 0 ∧ o.waits = [] ∧ o.status = .issued ∧
    t.ch.strand? s.ch.turn.pos = some τ ∧ τ.gr.q = (σ.claimAll fields).2.gr.q ∧ τ.tk = σ.tk

/-- The checks of a copy of two extents with a barrier field pass (R293, R306 to R312). -/
structure CopyOk (s : State) (σ : Strand) (i : Instr) (od : BitVec 14) (da sa : Allow) (d e : Extent) (b : BitVec 3) (fd fs : Found)
    (bar : Option Seg) : Prop where
  dst : s.extent σ da .store d.ptr d.lo d.n d.align [] = .ok fd
  src : s.extent σ sa .load e.ptr e.lo e.n e.align fd.pages = .ok fs
  barrier : s.barrierOf σ b = .ok bar
  apart : fd.loc.overlaps fs.loc = false
  live : s.barrierLive bar = true
  clock : bar ≠ none → s.ch.exhausted σ.pos .g = false
  room : s.HasRoom σ i od (fd.loc.segs ++ fs.loc.segs)

/-- A V word has issued with the results `new` (R189, R347): they head the last-result file, and the strand stands as `τ`. -/
structure VIssued (s t : State) (σ τ : Strand) (new : List (BitVec 8192)) : Prop where
  mem : t.mem = s.mem
  own : t.ch.strand? s.ch.turn.pos = some (τ.advanced s.ch.turn none)
  others : ∀ p, p ≠ s.ch.turn.pos → t.ch.strand? p = s.ch.strand? p
  cores : ∀ n, n ≠ coreOf s.ch.turn.pos → t.ch.core n = s.ch.core n
  latch : (t.ch.core (coreOf s.ch.turn.pos)).latch.take 4 =
    (new.reverse.map (fun x => { pos := s.ch.turn.pos, group := σ.vGroup, val := x, op := none : Latch })
      ++ (s.ch.core (coreOf s.ch.turn.pos)).latch).take 4
  ops : t.ch.ops = s.ch.ops

/-- The registers of a V word read as its rule wants them (R188, R189, R343 to R345): the shape is legal, the predicate has `n` active
elements, and the groups a, b and d hold `va`, `vb` and `vd`. -/
structure VReads (s : State) (σ : Strand) (fm : VForm) (n : Nat) (va vb vd : List Nat) : Prop where
  shape : vshOk σ.vr.vsh = true
  active : σ.active fm.p (vshapeOf σ.vr.vsh).ty (vshapeOf σ.vr.vsh).count = some n
  d : s.ch.fetchV σ (if fm.ofile then 32 + fm.d else fm.d) (vshapeOf σ.vr.vsh).gs = .ok vd
  a : ∀ f, fm.a = some f → s.ch.fetchV σ f.toNat (vshapeOf σ.vr.vsh).gs = .ok va ∧ s.ch.latchBusy σ f.toNat = false
  noA : fm.a = none → va = []
  b : ∀ f, fm.b = some f → s.ch.fetchV σ f.toNat (vshapeOf σ.vr.vsh).gs = .ok vb ∧ s.ch.latchBusy σ f.toNat = false
  noB : fm.b = none → vb = []

/-- The main registers a V word reads or writes (R96, R188). -/
def VForm.names (fm : VForm) (sh : VShape) : List RegName :=
  (fm.a.toList ++ fm.b.toList).flatMap (fun f => srcNames f.toNat sh.gs) ++ (if fm.ofile then [] else srcNames fm.d sh.gs)

/-- What a V word leaves in its strand (R347): the results `new` in the registers of d unless W is set, and everything but those
registers and the flags as it was. -/
def VForm.Leaves (fm : VForm) (gs : Nat) (σ τ : Strand) (new : List (BitVec 8192)) : Prop :=
  (∀ k, nth 0 τ.vr.v k = if fm.w = 0 ∧ fm.ofile = false ∧ fm.d ≤ k ∧ k < fm.d + gs then nth 0 new (k - fm.d) else nth 0 σ.vr.v k) ∧
  (∀ k, nth 0 τ.vr.o k = if fm.w = 0 ∧ fm.ofile = true ∧ fm.d ≤ k ∧ k < fm.d + gs then nth 0 new (k - fm.d) else nth 0 σ.vr.o k) ∧
  τ.vr.x = σ.vr.x ∧ τ.vr.p = σ.vr.p ∧ τ.vr.vsh = σ.vr.vsh ∧ τ.vr.vmode = σ.vr.vmode ∧ τ.s = σ.s ∧ τ.od = σ.od ∧ τ.gr = σ.gr ∧
  τ.mr = σ.mr ∧ τ.trap = σ.trap

/-- An instruction that gives each active element a value: its fields, the types and the shapes it accepts, the width of a result, the
registers it reads beside the groups, whether it has flags, and the value and flags of an element. -/
structure VOp where
  fm : VForm
  cls : Nat → Bool
  ok : VShape → Bool := fun _ => true
  tw : VShape → Nat := VShape.w
  more : List RegName := []
  flagged : Bool := true
  val : VIn → Strand → Pos → Nat × Flags

/-- An arithmetic form (R349). -/
def VOp.arith (o : VArith) (cls : Nat → Bool) (fm : VForm) (r : BitVec 2) : VOp :=
  { fm := fm, cls := cls, val := fun v _ q => vArith o v (rndOf r v.mode) (v.getA q) (v.getB q) (v.getD q) }

/-- A form whose result is bits of its operands (R349, R351, R354). -/
def VOp.plain (cls : Nat → Bool) (fm : VForm) (fn : VIn → Strand → Pos → Nat) : VOp :=
  { fm := fm, cls := cls, flagged := false, val := fun v σ q => (fn v σ q, 0) }

/-- A function of one float (R355, R356). -/
def VOp.special (fm : VForm) (fn : Nat → Num → Nat × Flags) : VOp :=
  { fm := fm, cls := clsFloat, val := fun v _ q => fn v.sh.ty ((fmtOf v.sh.ty).decode (v.getA q)) }

/-- The instructions that give each active element a value (R349 to R352, R354 to R356). -/
def vOp : Instr → Option VOp
  | .vadd w d a b p f r => some (.arith .add clsBoth (binForm w d a b p f) r)
  | .vsub w d a b p f r => some (.arith .sub clsBoth (binForm w d a b p f) r)
  | .vmul w d a b p f r => some (.arith .mul clsBoth (binForm w d a b p f) r)
  | .vfma w d a b p f r => some (.arith .fma clsBoth (binForm w d a b p f) r)
  | .vfms w d a b p f r => some (.arith .fms clsBoth (binForm w d a b p f) r)
  | .vnfma w d a b p f r => some (.arith .nfma clsBoth (binForm w d a b p f) r)
  | .vmin w d a b p f r => some (.arith .min clsBoth (binForm w d a b p f) r)
  | .vmax w d a b p f r => some (.arith .max clsBoth (binForm w d a b p f) r)
  | .vminm w d a b p f r => some (.arith .minm clsBoth (binForm w d a b p f) r)
  | .vmaxm w d a b p f r => some (.arith .maxm clsBoth (binForm w d a b p f) r)
  | .vabs w d a p f r => some (.arith .abs clsBoth (unForm w d a p f) r)
  | .vneg w d a p f r => some (.arith .neg clsBoth (unForm w d a p f) r)
  | .vshl w d a b p f r => some (.arith .shl clsInt (binForm w d a b p f) r)
  | .vshr w d a b p f r => some (.arith .shr clsInt (binForm w d a b p f) r)
  | .vsra w d a b p f r => some (.arith .sra clsInt (binForm w d a b p f) r)
  | .vand w d a b p f _ => some (.plain clsAny (binForm w d a b p f) fun v _ q => v.getA q &&& v.getB q)
  | .vor w d a b p f _ => some (.plain clsAny (binForm w d a b p f) fun v _ q => v.getA q ||| v.getB q)
  | .vxor w d a b p f _ => some (.plain clsAny (binForm w d a b p f) fun v _ q => v.getA q ^^^ v.getB q)
  | .vsel w d a b p f _ => some (.plain clsByte (binForm w d a b p f) fun v _ q => if v.getD q = 0 then v.getB q else v.getA q)
  | .vmov w d a p f _ => some (.plain clsAny (unForm w d a p f) fun v _ q => v.getA q)
  | .vcmp w d a b c f _ => some
    { fm := binForm w d a b 0 f, cls := clsBoth,
      val := fun v _ q => let h := vCond c.toNat v.sh.ty (v.getA q) (v.getB q)
        (if h.1 then 2 ^ v.sh.w - 1 else 0, h.2) }
  | .vcvt w d a t p f r => some
    { fm := unForm w d a p f, cls := clsAny, ok := fun sh => decide (t.toNat < 14 ∧ sh.cols ≤ rowCapacity t.toNat),
      tw := fun _ => tyBits t.toNat, val := fun v _ q => convert v.sh.ty t.toNat (rndOf r v.mode) (v.getA q) }
  | .vperm w d a b p f _ => some (.plain clsByte (binForm w d a b p f) fun v _ q => v.getA { q with c := v.getB q % v.sh.cols })
  | .vbcast w d a im p f _ => some
    { VOp.plain clsByte (unForm w d a p f) (fun v _ q => v.getA { q with c := im.toNat }) with ok := fun sh => decide (im.toNat < sh.cols) }
  | .vtrn w d a p f _ => some
    { VOp.plain clsByte (unForm w d a p f) (fun v _ q => v.getA { q with r := q.c, c := q.r }) with ok := fun sh => sh.rows == sh.cols }
  | .vsplat w d k sp p => some
    { VOp.plain clsAny { w := w, d := d.toNat, a := none, b := none, p := p, f := 0 }
        (fun v σ _ => (if k = 0 then σ.getX (sp.toNat % 8) else σ.snapS .v sp.toNat).toNat % 2 ^ v.sh.w) with
      more := if k = 0 then [.x (sp.toNat % 8)] else [] }
  | .vomov w d a p f _ => some
    { VOp.plain clsAny { unForm w d a p f with ofile := true } (fun v _ q => v.getA q) with
      ok := fun _ => decide (d.toNat ≤ 7) && w == 0 }
  | .vrcp w d a p f _ => some (.special (unForm w d a p f) fun t x => recipEst (fmtOf t) x)
  | .vrsq w d a p f _ => some (.special (unForm w d a p f) fun t x => rsqrtEst (fmtOf t) x)
  | .vexp2 w d a p f _ => some (.special (unForm w d a p f) fun t x => specialRound t (exp2F32 x))
  | .vlog2 w d a p f _ => some (.special (unForm w d a p f) fun t x => specialRound t (log2F32 x))
  | .vsin w d a p f _ => some (.special (unForm w d a p f) fun t x => trigRound false t x)
  | .vcos w d a p f _ => some (.special (unForm w d a p f) fun t x => trigRound true t x)
  | .vrfix w d a b p f _ => some
    { fm := binForm w d a b p f, cls := clsFloat, val := fun v _ q => refine false (fmtOf v.sh.ty) (v.getA q) (v.getB q) }
  | .vrsfix w d a b p f _ => some
    { fm := binForm w d a b p f, cls := clsFloat, val := fun v _ q => refine true (fmtOf v.sh.ty) (v.getA q) (v.getB q) }
  | _ => none

/-- An event or an instruction completes: it answers a next state, of which `P` holds. -/
def State.Does (s : State) (i : Instr) (P : State → Prop) : Prop := ∃ t, exec i s = .next t ∧ P t

/-- An operation can be performed now (R94, R97): it is in flight, its turn has come, no protected word has an error, and it names no barrier. -/
structure State.Performable (s : State) (σ : Strand) (o : Op) : Prop where
  op : s.ch.op? o.id = some o
  only : ∀ p ∈ s.ch.ops, p.id = o.id → p = o
  own : s.ch.strand? o.pos = some σ
  turn : s.ch.progresses o = true
  sound : s.ch.side.faulty = []
  noBar : o.bar = none

/-- An operation has been performed (R97, R101): it is gone, its strand awaits nothing of it and stands as `τ`, and the other strands are as they
were. -/
structure Performed (s t : State) (σ τ : Strand) (o : Op) : Prop where
  step : exec (.operationPerformed o.id) s = .next t
  gone : t.ch.op? o.id = none
  own : t.ch.strand? o.pos = some τ
  others : ∀ p, p ≠ o.pos → t.ch.strand? p = s.ch.strand? p
  free : ∀ b ∈ τ.busy, b.op ≠ o.id
  od : τ.od = σ.od

/-- An operation that was to be performed has taken a precise fault (R22, R392): it is gone, no byte has changed, and its strand has trapped. -/
structure Faulted (s t : State) (o : Op) (cause : BitVec 8) : Prop where
  step : exec (.operationPerformed o.id) s = .next t
  mem : t.mem = s.mem
  gone : t.ch.op? o.id = none
  trap : ∃ τ, t.ch.strand? o.pos = some τ ∧ τ.trap.phase = .frozen ∧ τ.trap.info.cause = cause ∧ τ.trap.info.cluster = o.cl

/-- A run of this package's memory that an operation may use: uncompressed, with no race mark against any part of it (R139). -/
structure State.Usable (s : State) (o : Op) (g : Seg) : Prop where
  here : g.peer = none
  plain : g.cmp = false
  clear : ∀ a n, g.phys ≤ a → a + n ≤ g.phys + g.len → s.ch.side.checkRun (o.check { g with phys := a }) a n = none

/-- A footprint of an operation is one run that it may use. -/
structure State.OneRun (s : State) (o : Op) (l : Loc) (g : Seg) : Prop where
  segs : l.segs = [g] ∨ l.segs = [] ∧ g.len = 0
  use : s.Usable o g

/-- Two runs have no byte in common. -/
def Seg.Apart (g h : Seg) : Prop := g.phys + g.len ≤ h.phys ∨ h.phys + h.len ≤ g.phys

/-- Every byte outside the runs reads as before. -/
def State.KeptBut (s t : State) (runs : List (Nat × Nat)) : Prop :=
  ∀ a, (∀ r ∈ runs, a < r.1 ∨ r.1 + r.2 ≤ a) → memRead t.mem a = memRead s.mem a

/-- The C, G and V registers of a strand, and the M registers, are as they were. -/
def Strand.KeepsRegs (σ τ : Strand) : Prop := τ.s = σ.s ∧ τ.gr = σ.gr ∧ τ.vr = σ.vr ∧ τ.mr.m = σ.mr.m

/-- Everything in the slots of the chip but one is as it was. -/
def State.OthersKept (s t : State) (pos : Nat) : Prop := ∀ p, p ≠ pos → t.ch.strand? p = s.ch.strand? p

/-- Registers, stream registers and flags of a strand, as one. -/
def Strand.SameRegs (σ τ : Strand) : Prop :=
  τ.s = σ.s ∧ τ.od = σ.od ∧ τ.gr.g = σ.gr.g ∧ τ.gr.gi = σ.gr.gi ∧ τ.gr.ch = σ.gr.ch ∧ τ.mr.m = σ.mr.m ∧ τ.mr.mflags = σ.mr.mflags ∧
  τ.vr.x = σ.vr.x ∧ τ.vr.v = σ.vr.v ∧ τ.vr.o = σ.vr.o ∧ τ.vr.vflags = σ.vr.vflags

/-- The end of a link that a job holds. -/
def Chip.endOf (c : Chip) (job : BitVec 64) (link : BitVec 16) (far : Bool) : Option LinkEnd :=
  c.links.find? fun l => l.job == job && l.link == link && l.far == far

/-- Dispatch may take the next entry of a queue, an entry of the given kind with a sound body (R195, R366 to R372). -/
structure State.Takes (s : State) (q kind root : Nat) (e : List Byte) : Prop where
  peek : s.peek (s.ch.queue q) = .entry (some root) true e
  kind : entryKind e = kind
  may : s.mayTake (s.ch.queue q) = true
  picks : s.picks (s.ch.queue q) = true
  free : s.recordHeld q (s.ch.queue q).takenN (some root) = false
  body : bodyOk (s.ch.queue q) e = true

/-- The state in which an entry that assigns `n` JOBIDs has been taken (R371). -/
def State.entered (s : State) (q root n : Nat) : State :=
  let u := s.entrySeen (s.ch.queue q)
  ({ u with ch := u.ch.modQueue q fun y => { y with jobs := y.jobs + n } } : State).take (s.ch.queue q) (some root)

/-- The next state is that of `w`, in which the entry has been taken, with the entry complete with a status (R378, R383). -/
def State.Ends (s w t : State) (q root : Nat) (e : List Byte) (job status : Nat) : Prop :=
  ∃ d : Done, t = w.complete d ∧ d.q = q ∧ d.ticket = (s.ch.queue q).takenN ∧ d.root = some root ∧ d.job = job ∧ d.status = status ∧
    d.errTok = 0 ∧ d.errBar = 0 ∧ d.sigctr = entrySig e ∧ d.irq = entryIrq e

/-- A write of a host port takes effect: the BARs answer, the port is a host port with its link up, and it owns the package or no
port does (R408 to R410, R418, R422). -/
def Chip.hears (c : Chip) (port : BitVec 3) : Prop := c.served = true ∧ c.hostPort port = true ∧ c.mayWrite port = true

/-- A management command is performed: there is power and no lease reset (R419). -/
def Chip.manages (c : Chip) : Prop := c.plat.powered = true ∧ c.plat.leaseOpen = false

/-- A word laid out by its sync and hold bits, its major and its other bits (R222). -/
def wordOf (sync hold : Bool) (major fields : Nat) : Word :=
  BitVec.ofNat 32 ((if sync then 2 ^ 31 else 0) + (if hold then 2 ^ 30 else 0) + major * 2 ^ 24 + fields)

/-- The byte of memory at an address. -/
abbrev State.byte (s : State) (a : Nat) : Byte := memRead s.mem a

end Machine
end Sys2Proof
end

