-- ==== Sys2Proof/Certificates/Slice0/Obligations.lean ====
section
/-! DEFINITION. The statements for the provers. -/

open Sys2Proof Sys2Proof.Machine

/-! The C cluster's arithmetic (R245 to R253). -/

/-- R246: sums, differences, products and the bitwise operations, and R252: setting a pointer's tag, on whole register values; nothing
but the destination changes. R246: shifts and rotation by the low six bits of b. R246: minima, maxima and comparisons, signed and
unsigned. R246: `clz`, `ctz` and `popc` count the leading zero bits, the trailing zero bits and the one bits of a, 64 zeros when a = 0;
R252: `ptag.get` reads the tag. R248, R249: the immediate forms; `lhi` reads d. R247: quotients and remainders, and what a zero divisor
leaves: all ones or the dividend, and DZI, whatever d is (R253). -/
def Obligations.IntegerResults : Prop :=
  (∀ (s : State) (σ : Strand) (d a b : BitVec 5), AtIssue s σ [.s a.toNat, .s b.toNat] →
     let x := σ.getS a.toNat
     let y := σ.getS b.toNat
     let gives (i : Instr) (r : Reg) : Prop := ∃ t, exec i s = .next t ∧ Issued s t (σ.setS d.toNat r) none
     gives (.add d a b) (BitVec.ofInt 64 (x.toInt + y.toInt)) ∧ gives (.sub d a b) (BitVec.ofInt 64 (x.toInt - y.toInt)) ∧
     gives (.mul d a b) (BitVec.ofInt 64 (x.toInt * y.toInt)) ∧
     gives (.mulh d a b) (BitVec.ofInt 64 (x.toInt * y.toInt / 2 ^ 64)) ∧
     gives (.mulhn d a b) (BitVec.ofNat 64 (x.toNat * y.toNat / 2 ^ 64)) ∧
     gives (.and d a b) (x &&& y) ∧ gives (.or d a b) (x ||| y) ∧ gives (.xor d a b) (x ^^^ y) ∧ gives (.andn d a b) (x &&& ~~~y) ∧
     (∃ r : Reg, gives (.ptagSet d a b) r ∧ ∀ i, r.getLsbD i = if i < 60 then x.getLsbD i else decide (i < 64) && y.getLsbD (i - 60))) ∧
  (∀ (s : State) (σ : Strand) (d a b : BitVec 5), AtIssue s σ [.s a.toNat, .s b.toNat] →
     let x := σ.getS a.toNat
     let n := (σ.getS b.toNat).toNat % 64
     let gives (i : Instr) (r : Reg) : Prop := ∃ t, exec i s = .next t ∧ Issued s t (σ.setS d.toNat r) none
     gives (.shl d a b) (BitVec.ofNat 64 (x.toNat * 2 ^ n)) ∧ gives (.shr d a b) (BitVec.ofNat 64 (x.toNat / 2 ^ n)) ∧
     gives (.sra d a b) (BitVec.ofInt 64 (x.toInt / 2 ^ n)) ∧
     gives (.rot d a b) (BitVec.ofNat 64 (x.toNat * 2 ^ n + x.toNat / 2 ^ (64 - n)))) ∧
  (∀ (s : State) (σ : Strand) (d a b : BitVec 5), AtIssue s σ [.s a.toNat, .s b.toNat] →
     let x := σ.getS a.toNat
     let y := σ.getS b.toNat
     let gives (i : Instr) (r : Reg) : Prop := ∃ t, exec i s = .next t ∧ Issued s t (σ.setS d.toNat r) none
     gives (.min d a b) (BitVec.ofInt 64 (min x.toInt y.toInt)) ∧ gives (.max d a b) (BitVec.ofInt 64 (max x.toInt y.toInt)) ∧
     gives (.minn d a b) (BitVec.ofNat 64 (min x.toNat y.toNat)) ∧ gives (.maxn d a b) (BitVec.ofNat 64 (max x.toNat y.toNat)) ∧
     gives (.slt d a b) (if x.toInt < y.toInt then 1 else 0) ∧ gives (.sltn d a b) (if x.toNat < y.toNat then 1 else 0) ∧
     gives (.seq d a b) (if x = y then 1 else 0) ∧ gives (.sne d a b) (if x = y then 0 else 1)) ∧
  (∀ (s : State) (σ : Strand) (d a : BitVec 5), AtIssue s σ [.s a.toNat] →
     let x := σ.getS a.toNat
     let gives (i : Instr) (n : Nat) : Prop := ∃ t, exec i s = .next t ∧ Issued s t (σ.setS d.toNat (BitVec.ofNat 64 n)) none
     (∃ n, n ≤ 64 ∧ gives (.clz d a) n ∧ (∀ i, 64 - n ≤ i → x.getLsbD i = false) ∧ (n < 64 → x.getLsbD (63 - n) = true)) ∧
     (∃ n, n ≤ 64 ∧ gives (.ctz d a) n ∧ (∀ i, i < n → x.getLsbD i = false) ∧ (n < 64 → x.getLsbD n = true)) ∧
     gives (.popc d a) ((List.range 64).filter fun i => x.getLsbD i).length ∧ gives (.ptagGet d a) (x.toNat / 2 ^ 60)) ∧
  (∀ (s : State) (σ : Strand) (d a : BitVec 5) (im : BitVec 14) (n : BitVec 6), AtIssue s σ [.s a.toNat] →
     let x := σ.getS a.toNat
     let gives (i : Instr) (r : Reg) : Prop := ∃ t, exec i s = .next t ∧ Issued s t (σ.setS d.toNat r) none
     gives (.addi d a im) (BitVec.ofInt 64 (x.toInt + im.toInt)) ∧ gives (.andi d a im) (x &&& BitVec.ofNat 64 im.toNat) ∧
     gives (.ori d a im) (x ||| BitVec.ofNat 64 im.toNat) ∧ gives (.xori d a im) (x ^^^ BitVec.ofNat 64 im.toNat) ∧
     gives (.slti d a im) (if x.toInt < im.toInt then 1 else 0) ∧
     gives (.sltni d a im) (if x.toNat < (BitVec.ofInt 64 im.toInt).toNat then 1 else 0) ∧
     gives (.shli d a n) (BitVec.ofNat 64 (x.toNat * 2 ^ n.toNat)) ∧ gives (.shri d a n) (BitVec.ofNat 64 (x.toNat / 2 ^ n.toNat)) ∧
     gives (.srai d a n) (BitVec.ofInt 64 (x.toInt / 2 ^ n.toNat)) ∧
     gives (.roti d a n) (BitVec.ofNat 64 (x.toNat * 2 ^ n.toNat + x.toNat / 2 ^ (64 - n.toNat)))) ∧
  (∀ (s : State) (σ : Strand) (d : BitVec 5) (im : BitVec 19),
     (AtIssue s σ [] → ∃ t, exec (.lui d im) s = .next t ∧ Issued s t (σ.setS d.toNat (BitVec.ofInt 64 (im.toInt * 2 ^ 14))) none) ∧
     (AtIssue s σ [.s d.toNat] → ∃ t, exec (.lhi d im) s = .next t ∧
       Issued s t (σ.setS d.toNat (BitVec.ofNat 64 ((σ.getS d.toNat).toNat * 2 ^ 19 + im.toNat))) none)) ∧
  (∀ (s : State) (σ : Strand) (d a b : BitVec 5), AtIssue s σ [.s a.toNat, .s b.toNat] →
     let x := σ.getS a.toNat
     let y := σ.getS b.toNat
     let gives (i : Instr) (r : Reg) : Prop := ∃ t, exec i s = .next t ∧ Issued s t (σ.setS d.toNat r) none
     let givesDzi (i : Instr) (r : Reg) : Prop :=
       ∃ t τ, exec i s = .next t ∧ τ = σ.setS d.toNat r ∧ Issued s t { τ with trap := { τ.trap with dzi := true } } none
     (y ≠ 0 → gives (.div d a b) (BitVec.ofInt 64 (x.toInt.tdiv y.toInt)) ∧ gives (.divn d a b) (BitVec.ofNat 64 (x.toNat / y.toNat)) ∧
       gives (.rem d a b) (BitVec.ofInt 64 (x.toInt.tmod y.toInt)) ∧ gives (.remn d a b) (BitVec.ofNat 64 (x.toNat % y.toNat))) ∧
     (y = 0 → givesDzi (.div d a b) 0xFFFFFFFFFFFFFFFF ∧ givesDzi (.divn d a b) 0xFFFFFFFFFFFFFFFF ∧
       givesDzi (.rem d a b) x ∧ givesDzi (.remn d a b) x))

/-- R251: the layout of major 0x0C and the three bit-field instructions, bit by bit; a field that leaves the register traps with 0x02,
precise, and d is unchanged; op 3 is no instruction. -/
def Obligations.BitFieldResults : Prop :=
  (∀ (d a : BitVec 5) (p w1 : BitVec 6) (op : BitVec 2) (sync hold : Bool),
     let w := wordOf sync hold 0x0C (d.toNat * 2 ^ 19 + a.toNat * 2 ^ 14 + p.toNat * 2 ^ 8 + w1.toNat * 4 + op.toNat)
     wordSync w = sync ∧ wordHold w = hold ∧ decodeWord .c w = match op.toNat with
       | 0 => .ok (.bfx d a p w1)
       | 1 => .ok (.bfxn d a p w1)
       | 2 => .ok (.bfi d a p w1)
       | _ => .error .illegalInstruction) ∧
  (∀ (s : State) (σ : Strand) (d a : BitVec 5) (p w1 : BitVec 6),
     let x := σ.getS a.toNat
     let w := w1.toNat + 1
     let gives (i : Instr) (f : Nat → Bool) : Prop :=
       ∃ t r, exec i s = .next t ∧ Issued s t (σ.setS d.toNat r) none ∧ ∀ j, j < 64 → r.getLsbD j = f j
     (AtIssue s σ [.s a.toNat] → p.toNat + w ≤ 64 →
       gives (.bfx d a p w1) (fun j => if j < w then x.getLsbD (p.toNat + j) else x.getLsbD (p.toNat + w - 1)) ∧
       gives (.bfxn d a p w1) (fun j => decide (j < w) && x.getLsbD (p.toNat + j))) ∧
     (AtIssue s σ [.s a.toNat, .s d.toNat] → p.toNat + w ≤ 64 → gives (.bfi d a p w1) (fun j =>
       if p.toNat ≤ j ∧ j < p.toNat + w then x.getLsbD (j - p.toNat) else (σ.getS d.toNat).getLsbD j)) ∧
     (64 < p.toNat + w → σ.inProgram → AtIssue s σ [.s a.toNat, .s d.toNat] → ∀ i ∈ [Instr.bfx d a p w1, .bfxn d a p w1, .bfi d a p w1],
       ∃ t, exec i s = .next t ∧ Trapped s t σ { cause := 0x02 }))

/-- R250: the layout of `lea` and the address it computes; every other fn, and a nonzero od field, is no instruction. -/
def Obligations.ScaledSum : Prop :=
  (∀ (d a b : BitVec 5) (fn : BitVec 6) (od : BitVec 3) (sync hold : Bool),
     let w := wordOf sync hold 0x0B (d.toNat * 2 ^ 19 + a.toNat * 2 ^ 14 + b.toNat * 2 ^ 9 + fn.toNat * 8 + od.toNat)
     wordSync w = sync ∧ wordHold w = hold ∧
       decodeWord .c w = if fn.toNat < 4 ∧ od = 0 then .ok (.lea d a b (fn.setWidth 2)) else .error .illegalInstruction) ∧
  (∀ (s : State) (σ : Strand) (d a b : BitVec 5) (k : BitVec 2), AtIssue s σ [.s a.toNat, .s b.toNat] →
     ∃ t, exec (.lea d a b k) s = .next t ∧
       Issued s t (σ.setS d.toNat (BitVec.ofNat 64 ((σ.getS a.toNat).toNat + (σ.getS b.toNat).toNat * 2 ^ k.toNat))) none)

/-- R187, R224: register 0 of each scalar file reads zero and a write to it is discarded; any other register reads what was written
last, and a write leaves every other register as it was. -/
def Obligations.RegisterFiles : Prop :=
  ∀ (σ : Strand) (n : Nat) (v : Reg),
    (σ.getS 0 = 0 ∧ σ.getG 0 = 0 ∧ σ.getM 0 = 0 ∧ σ.getX 0 = 0) ∧
    (σ.setS 0 v = σ ∧ σ.setG 0 v = σ ∧ σ.setM 0 v = σ ∧ σ.setX 0 v = σ) ∧
    (n ≠ 0 → (σ.setS n v).getS n = v ∧ (σ.setG n v).getG n = v ∧ (σ.setM n v).getM n = v ∧ (σ.setX n v).getX n = v) ∧
    (∀ m, m ≠ n → (σ.setS n v).getS m = σ.getS m ∧ (σ.setG n v).getG m = σ.getG m ∧ (σ.setM n v).getM m = σ.getM m ∧
      (σ.setX n v).getX m = σ.getX m) ∧
    (∀ m, (σ.setS n v).getG m = σ.getG m ∧ (σ.setS n v).getM m = σ.getM m ∧ (σ.setS n v).getX m = σ.getX m ∧
      (σ.setG n v).getS m = σ.getS m ∧ (σ.setM n v).getS m = σ.getS m ∧ (σ.setX n v).getS m = σ.getS m)

/-- R96, R182: a word of the C cluster's arithmetic whose source registers still await an earlier operation does not issue: nothing
changes. -/
def Obligations.ArithmeticWaits : Prop :=
  ∀ (s : State) (σ : Strand) (d a b : BitVec 5) (im : BitVec 14) (i19 : BitVec 19) (n w : BitVec 6) (k : BitVec 2),
    s.ch.strand? s.ch.turn.pos = some σ →
    (σ.free [.s a.toNat, .s b.toNat] = false →
      ∀ i ∈ [Instr.add d a b, .sub d a b, .mul d a b, .mulh d a b, .mulhn d a b, .div d a b, .divn d a b, .rem d a b, .remn d a b,
          .and d a b, .or d a b, .xor d a b, .andn d a b, .shl d a b, .shr d a b, .sra d a b, .rot d a b, .min d a b, .max d a b,
          .minn d a b, .maxn d a b, .slt d a b, .sltn d a b, .seq d a b, .sne d a b, .ptagSet d a b, .lea d a b k],
        exec i s = .next s) ∧
    (σ.free [.s a.toNat] = false →
      ∀ i ∈ [Instr.clz d a, .ctz d a, .popc d a, .ptagGet d a, .bfx d a n w, .bfxn d a n w, .addi d a im, .andi d a im, .ori d a im,
          .xori d a im, .slti d a im, .sltni d a im, .shli d a n, .shri d a n, .srai d a n, .roti d a n],
        exec i s = .next s) ∧
    (σ.free [.s a.toNat, .s d.toNat] = false → exec (.bfi d a n w) s = .next s) ∧
    (σ.free [.s d.toNat] = false → exec (.lhi d i19) s = .next s)

/-! The common control block (R225, R254 to R262) and the loop engine (R190, R191). -/

/-- R255: a branch whose condition does not hold goes on to the next word. R254 to R256: a taken branch, a `jal` and a `jr` go to their
target when it passes the four checks, and otherwise trap at the first check that fails, without a link. -/
def Obligations.JumpTargets : Prop :=
  (∀ (s : State) (σ : Strand) (a b : BitVec 5) (c : BitVec 3) (o : BitVec 11), c.toNat ≤ 5 →
     AtIssue s σ [localName s.ch.turn.cl a.toNat, localName s.ch.turn.cl b.toNat] →
     ¬ Taken c.toNat (σ.local s.ch.turn.cl a.toNat) (σ.local s.ch.turn.cl b.toNat) →
     ∃ t, exec (.branch a b c o) s = .next t ∧ Issued s t σ none) ∧
  (∀ (s : State) (σ : Strand) (a b d : BitVec 5) (c : BitVec 3) (o : BitVec 11) (o19 : BitVec 19), c.toNat ≤ 5 →
     AtIssue s σ [localName s.ch.turn.cl a.toNat, localName s.ch.turn.cl b.toNat] →
     let cl := s.ch.turn.cl
     let k := σ.cl cl
     let lands (i : Instr) (n : Int) (τ : Strand) : Prop :=
       (n % 4 = 0 → k.InImage n → ¬ k.SecondOfPair cl n → k.InBody n →
         ∃ t, exec i s = .next t ∧ Issued s t τ (some n.toNat)) ∧
       (σ.inProgram →
         (n % 4 ≠ 0 → ∃ t, exec i s = .next t ∧ Trapped s t σ { cause := 0x13, step := 1 }) ∧
         (n % 4 = 0 → ¬ k.InImage n → ∃ t, exec i s = .next t ∧ Trapped s t σ { cause := 0x14, step := 2 }) ∧
         (n % 4 = 0 → k.InImage n → k.SecondOfPair cl n → ∃ t, exec i s = .next t ∧ Trapped s t σ { cause := 0x01, step := 3 }) ∧
         (n % 4 = 0 → k.InImage n → ¬ k.SecondOfPair cl n → ¬ k.InBody n →
           ∃ t, exec i s = .next t ∧ Trapped s t σ { cause := 0x01, step := 4 }))
     (Taken c.toNat (σ.local cl a.toNat) (σ.local cl b.toNat) → lands (.branch a b c o) (k.pc + 4 * o.toInt) σ) ∧
     lands (.jal d o19) (k.pc + 4 * o19.toInt) (σ.setLocal cl d.toNat (BitVec.ofNat 64 (k.pc + 4))) ∧
     lands (.jr a) (σ.local cl a.toNat).toNat σ)

/-- R257, R258, R190: a `loop` of one stage starts its level, or passes over its body when N = 0; LOOPC reads 0. R259, R190: an `lsplit`
and the `loop` after it issue as one pair: a loop of S stages with the three boundaries. R192, R258: a counter of 3 or one in use and a
count of 2^32 or more trap with 0x02; a fourth level, a body that leaves the enclosing one, a pipelined body with a barred word, and
boundaries that are not in order with 0x01; a body past the image with 0x14; an `lsplit` with no plain `loop` after it with 0x01. R260 to
R262: `lbrk` marks the innermost loop, `done` ends the cluster, `nop` does nothing; the first outside a loop and the second inside one,
or with H, trap with 0x01. -/
def Obligations.LoopsAndControl : Prop :=
  (∀ (s : State) (σ : Strand) (l : BitVec 2) (cnt : BitVec 5) (len1 : BitVec 8),
     AtIssue s σ [localName s.ch.turn.cl cnt.toNat] → s.ch.turn.pfx = none →
     let cl := s.ch.turn.cl
     let k := σ.cl cl
     let n := (σ.local cl cnt.toNat).toNat
     let body := k.pc + 4
     let len := len1.toNat + 1
     let level : LoopLevel :=
       { ctr := l.toNat, n := n, start := 0, stop := n, p := 0, body := body, len := len, stages := 1, b1 := len, b2 := len, b3 := len,
         brk := false, broken := false, drained := false }
     l ≠ 3 → n < 2 ^ 32 → (∀ x ∈ k.loops, x.ctr ≠ l.toNat) → k.loops.length < 3 →
     (∀ x xs, k.loops = x :: xs → body + 4 * len ≤ x.body + 4 * x.len) → body + 4 * len ≤ 4 * k.image.length →
     (n ≠ 0 → ∃ t, exec (.loop l cnt len1 0) s = .next t ∧
       Issued s t (σ.modCl cl fun k => { k with lc := setNth 0 k.lc l.toNat 0, loops := level :: k.loops }) none) ∧
     (n = 0 → ∃ t, exec (.loop l cnt len1 0) s = .next t ∧
       Issued s t (σ.modCl cl fun k => { k with lc := setNth 0 k.lc l.toNat 0 }) (some (body + 4 * len)))) ∧
  (∀ (s : State) (σ : Strand) (l : BitVec 2) (cnt : BitVec 5) (len1 : BitVec 8) (st1 : BitVec 2),
     AtIssue s σ [localName s.ch.turn.cl cnt.toNat] → s.ch.turn.pfx = none → σ.inProgram →
     let k := σ.cl s.ch.turn.cl
     let n := (σ.local s.ch.turn.cl cnt.toNat).toNat
     let last := k.pc + 4 + 4 * (len1.toNat + 1)
     let sound : Prop := l ≠ 3 ∧ n < 2 ^ 32 ∧ ∀ x ∈ k.loops, x.ctr ≠ l.toNat
     let nested : Prop := k.loops.length < 3 ∧ ∀ x xs, k.loops = x :: xs → last ≤ x.body + 4 * x.len
     let traps (cause : BitVec 8) : Prop := ∃ t, exec (.loop l cnt len1 st1) s = .next t ∧ Trapped s t σ { cause := cause }
     (¬ sound → traps 0x02) ∧ (sound → ¬ nested ∨ st1 ≠ 0 → traps 0x01) ∧
     (sound → nested → st1 = 0 → 4 * k.image.length < last → traps 0x14)) ∧
  (∀ (s : State) (σ : Strand) (l : BitVec 2) (cnt : BitVec 5) (len1 : BitVec 8) (st1 : BitVec 2) (b1 b2 b3 : BitVec 8) (w : Word),
     AtIssue s σ [localName s.ch.turn.cl cnt.toNat] → s.ch.turn.pfx = none →
     let cl := s.ch.turn.cl
     let k := σ.cl cl
     let n := (σ.local cl cnt.toNat).toNat
     let body := k.pc + 8
     let len := len1.toNat + 1
     let edge (x : BitVec 8) : Nat := if len = 256 ∧ x = 0 then 256 else x.toNat
     let level : LoopLevel :=
       { ctr := l.toNat, n := n, start := 0, stop := n, p := 0, body := body, len := len, stages := st1.toNat + 1, b1 := edge b1,
         b2 := edge b2, b3 := edge b3, brk := false, broken := false, drained := false }
     let sound : Prop := l ≠ 3 ∧ n < 2 ^ 32 ∧ ∀ x ∈ k.loops, x.ctr ≠ l.toNat
     let nested : Prop := k.loops.length < 3 ∧ ∀ x xs, k.loops = x :: xs → body + 4 * len ≤ x.body + 4 * x.len
     let ordered : Prop := edge b1 ≤ edge b2 ∧ edge b2 ≤ edge b3 ∧ edge b3 ≤ len ∧
       (st1.toNat < 1 → edge b1 = len) ∧ (st1.toNat < 2 → edge b2 = len) ∧ (st1.toNat < 3 → edge b3 = len)
     let plain : Prop := st1.toNat = 0 ∨ ∀ i, i < len → ∀ x, k.wordAt (body + 4 * i) = some x → barredInPipeline cl x = false
     let traps (cause : BitVec 8) : Prop := ∃ t, exec (.lsplit b1 b2 b3) s = .next t ∧ Trapped (s.paired w) t σ { cause := cause }
     k.wordAt (k.pc + 4) = some w → decodeWord cl w = .ok (.loop l cnt len1 st1) → wordSync w = false → wordHold w = false →
     (sound → nested → ordered → plain → body + 4 * len ≤ 4 * k.image.length →
       (n ≠ 0 → ∃ t, exec (.lsplit b1 b2 b3) s = .next t ∧
         Issued (s.paired w) t (σ.modCl cl fun k => { k with lc := setNth 0 k.lc l.toNat 0, loops := level :: k.loops }) none) ∧
       (n = 0 → ∃ t, exec (.lsplit b1 b2 b3) s = .next t ∧
         Issued (s.paired w) t (σ.modCl cl fun k => { k with lc := setNth 0 k.lc l.toNat 0 }) (some (body + 4 * len)))) ∧
     (σ.inProgram → (¬ sound → traps 0x02) ∧ (sound → ¬ nested ∨ ¬ plain ∨ ¬ ordered → traps 0x01) ∧
       (sound → nested → plain → ordered → 4 * k.image.length < body + 4 * len → traps 0x14))) ∧
  (∀ (s : State) (σ : Strand), AtIssue s σ [] →
     let cl := s.ch.turn.cl
     let k := σ.cl cl
     (∃ t, exec .nop s = .next t ∧ Issued s t σ none) ∧
     (∀ l ls, k.loops = l :: ls → ∃ t, exec .lbrk s = .next t ∧
       Issued s t (σ.modCl cl fun k => { k with loops := { l with brk := true } :: ls }) none) ∧
     (k.loops = [] → wordHold s.ch.turn.word = false → ∃ t, exec .done s = .next t ∧
       Issued s t (σ.modCl cl fun k => { k with ended := true }) none) ∧
     (σ.inProgram → k.loops = [] → ∃ t, exec .lbrk s = .next t ∧ Trapped s t σ { cause := 0x01 }) ∧
     (σ.inProgram → k.loops ≠ [] ∨ wordHold s.ch.turn.word = true → ∃ t, exec .done s = .next t ∧ Trapped s t σ { cause := 0x01 }) ∧
     (σ.inProgram → ∀ b1 b2 b3, (∀ w, k.wordAt (k.pc + 4) = some w → ∃ i, decodeWord cl w = .ok i ∧
         (wordSync w = true ∨ wordHold w = true ∨ ∀ l c n t, i ≠ .loop l c n t)) →
       ∃ t, exec (.lsplit b1 b2 b3) s = .next t ∧ Trapped s t σ { cause := 0x01 }))

/-- R184, R185, R254: outside any loop a cluster goes on after its word, or at the target; the hold group grows under H and ends without
it; the counts of waiting return to zero. R191: in a loop body the next word is the next one whose stage is enabled in the pass; at the
end of the last pass of a loop of one stage the cluster leaves the loop with LOOPC reading N, and at the end of any other pass it starts
the next one. -/
def Obligations.WordFlow : Prop :=
  (∀ (k : ClusterSt) (size : Nat) (hold pend : Bool) (jump : Option Nat), k.loops = [] →
     let k2 := k.issued size hold pend jump
     k2.pc = jump.getD (k.pc + size) ∧ k2.loops = [] ∧ k2.lc = k.lc ∧ k2.image = k.image ∧ k2.ended = k.ended ∧
     k2.streams = k.streams ∧ k2.blocked = k.blocked ∧ k2.wait = 0 ∧ k2.stall = 0 ∧ k2.released = false ∧
     k2.owes = none ∧ k2.group = (if hold then k.group + 1 else 0)) ∧
  (∀ (k : ClusterSt) (l : LoopLevel) (ls : List LoopLevel) (i : Nat) (hold : Bool), k.loops = l :: ls → k.pc = l.body + 4 * i → i < l.len →
     (∀ j, i < j → j < l.len → l.start + l.stageOf j ≤ l.p → l.p < l.stop + l.stageOf j →
       (∀ m, i < m → m < j → ¬ (l.start + l.stageOf m ≤ l.p ∧ l.p < l.stop + l.stageOf m)) →
       (k.issued 4 hold false none).pc = l.body + 4 * j ∧ (k.issued 4 hold false none).loops = l :: ls ∧
         (k.issued 4 hold false none).lc = k.lc) ∧
     (l.stages = 1 → l.start = 0 → l.stop = l.n → l.brk = false → i + 1 = l.len →
       (l.p + 1 < l.n → (k.issued 4 hold false none).pc = l.body ∧
         (k.issued 4 hold false none).loops = { l with p := l.p + 1 } :: ls ∧
         nth 0 (k.issued 4 hold false none).lc l.ctr = BitVec.ofNat 32 (l.p + 1)) ∧
       (l.p + 1 = l.n → ls = [] → (k.issued 4 hold false none).pc = l.body + 4 * l.len ∧ (k.issued 4 hold false none).loops = [] ∧
         nth 0 (k.issued 4 hold false none).lc l.ctr = BitVec.ofNat 32 l.n)))

/-! Memory accesses of the C cluster (R271 to R282, R96, R101, R120 to R123). -/

/-- R96, R101, R271, R272, R280: a load, a store or an atomic whose pointer passes R21 is put in flight under its descriptor: it takes the
next number of its stream, its data is read at issue, and the register it returns to awaits it. The operations its mask names keep back
its performance, not its issue, and the cluster goes on. -/
def Obligations.MemoryAccessIssues : Prop :=
  ∀ (s : State) (σ : Strand) (i : Instr) (a : CAccess) (f : Found), cAccess i = some a →
    AtIssue s σ (.s a.base.toNat :: a.data.map fun r => .s r.toNat) → s.ch.turn.cl = .c → s.NoWalk σ .c →
    s.footprint σ a.allow a.acc (σ.getS a.base.toNat) a.off (a.off + a.n - 1) a.n [] = .ok f → s.ch.moving f.loc.segs = false →
    σ.exhausted .c (σ.odOf .c a.od.toNat) = false →
    ∃ t o τ, exec i s = .next t ∧ Launched s t σ o ∧ t.ch.strand? s.ch.turn.pos = some τ ∧ τ.c.blocked = σ.c.blocked ∧ o.instr = i ∧
      o.pos = s.ch.turn.pos ∧ o.cl = .c ∧
      o.od = some (σ.odOf .c a.od.toNat) ∧ o.locs = [f.loc] ∧ o.dest = a.dest ∧ (∀ r ∈ a.data.head?, nth 0 o.vals 0 = σ.getS r.toNat) ∧
      (∀ r ∈ a.data[1]?, nth 0 o.vals 1 = σ.getS r.toNat)

/-- R97, R101, R274, R35: a plain load of the bench, the stratum or a page of local global memory, performed: the little-endian bytes of
memory, extended, stand in its register (if nothing has written it since), the register awaits nothing, the operation is gone, and no byte
of memory has changed. R67, R98: where the page's mode and the scope let the load hit and its quad holds the sector, the bytes are the
sector's; a global load lies in one sector, by its alignment (R274). -/
def Obligations.LoadPerformed : Prop :=
  ∀ (s : State) (σ : Strand) (o : Op) (t w : Nat) (sgn : Bool), s.ch.op? o.id = some o → s.ch.strand? o.pos = some σ →
    cForm o.instr = some (.load t w sgn .plain) → s.ch.progresses o = true → o.bar = none → o.prod = 0 → o.run.peer = none →
    (o.run.size = 0 ∨ o.run.phys % 32 + w ≤ 32) → o.run.cmp = false → o.run.len = w → w ≠ 0 → s.ch.side.faulty = [] →
    s.ch.side.checkRun (o.check o.run) o.run.phys w = none → (t ≠ 0 → (⟨.s t, o.id⟩ : Busy) ∈ σ.busy) →
    let hit := if o.run.size ≠ 0 ∧ o.run.mayHit o.scope = true then s.ch.sector? (quadOfPos o.pos) o.job none (o.run.phys / 32) else none
    let v := match hit with
      | some x => x.toNat / 256 ^ (o.run.phys % 32) % 256 ^ w
      | none => memNat s.mem o.run.phys w
    ∃ s2 τ, exec (.operationPerformed o.id) s = .next s2 ∧ s2.mem = s.mem ∧ s2.ch.op? o.id = none ∧ s2.ch.strand? o.pos = some τ ∧
      τ.getS t = (if t = 0 then 0 else if sgn then BitVec.ofInt 64 (signed (8 * w) v) else BitVec.ofNat 64 v) ∧
      (∀ n, n ≠ t → τ.getS n = σ.getS n) ∧ (∀ b ∈ τ.busy, b.op ≠ o.id) ∧ τ.gr = σ.gr ∧ τ.mr = σ.mr ∧ τ.vr = σ.vr ∧ τ.od = σ.od ∧
      (∀ p, p ≠ o.pos → s2.ch.strand? p = s.ch.strand? p)

/-- R97, R272, R35: a plain store of the bench, the stratum or a page of local global memory, performed: the low bytes of its data stand at
the run it was issued with, little-endian, every other byte of memory is as it was, no register has changed, and the operation is
gone. -/
def Obligations.StorePerformed : Prop :=
  ∀ (s : State) (σ : Strand) (o : Op) (w : Nat), s.ch.op? o.id = some o → s.ch.strand? o.pos = some σ →
    cForm o.instr = some (.store w .plain) → s.ch.progresses o = true → o.bar = none → o.prod = 0 → o.run.peer = none →
    o.run.cmp = false → o.run.len = w → w ≠ 0 → s.ch.side.faulty = [] → s.ch.side.checkRun (o.check o.run) o.run.phys w = none →
    ∃ s2 τ, exec (.operationPerformed o.id) s = .next s2 ∧ s2.ch.op? o.id = none ∧ s2.ch.strand? o.pos = some τ ∧
      (∀ i, i < w → s2.byte (o.run.phys + i) = BitVec.ofNat 8 ((nth 0 o.vals 0).toNat / 256 ^ i)) ∧
      (∀ a, a < o.run.phys ∨ o.run.phys + w ≤ a → s2.byte a = s.byte a) ∧
      τ.s = σ.s ∧ τ.gr = σ.gr ∧ τ.mr = σ.mr ∧ τ.vr = σ.vr ∧ τ.od = σ.od ∧ (∀ p, p ≠ o.pos → s2.ch.strand? p = s.ch.strand? p)

/-- R121, for the integer operations: the value an atomic of 4 or 8 bytes writes, from the old value and its operand. R120 to R122: an
atomic of the bench, the stratum or a page of local global memory, performed in one step: the old value is returned to its register, extended as R121 gives, the new
value stands in memory unless a comparison failed, and every other byte is as it was. -/
def Obligations.AtomicPerformed : Prop :=
  (∀ (wide : Bool) (x v c : Nat),
     let w := if wide then 64 else 32
     let a : BitVec w := BitVec.ofNat w x
     let b : BitVec w := BitVec.ofNat w v
     atomicNew 0 wide x v c = some (a + b).toNat ∧ atomicNew 1 wide x v c = some (a &&& b).toNat ∧
     atomicNew 2 wide x v c = some (a ||| b).toNat ∧ atomicNew 3 wide x v c = some (a ^^^ b).toNat ∧
     atomicNew 4 wide x v c = some b.toNat ∧
     atomicNew 5 wide x v c = some (if a.toInt ≤ b.toInt then a else b).toNat ∧
     atomicNew 6 wide x v c = some (if a.toInt ≤ b.toInt then b else a).toNat ∧
     atomicNew 7 wide x v c = some (min a.toNat b.toNat) ∧ atomicNew 8 wide x v c = some (max a.toNat b.toNat) ∧
     atomicNew 12 wide x v c = (if a = BitVec.ofNat w c then some b.toNat else none)) ∧
  (∀ (s : State) (σ : Strand) (o : Op) (op w : Nat) (wide : Bool) (d : Option Nat), s.ch.op? o.id = some o → s.ch.strand? o.pos = some σ →
     cForm o.instr = some (.atomic op wide d) → s.ch.progresses o = true → o.bar = none → o.prod = 0 → o.run.peer = none →
     o.run.cmp = false → w = (if wide then 8 else 4) → o.run.len = w → s.ch.side.faulty = [] →
     (∀ n, d = some n → n ≠ 0 → (⟨.s n, o.id⟩ : Busy) ∈ σ.busy) →
     let old := memNat s.mem o.run.phys w
     let new := atomicNew op wide old (nth 0 o.vals 0).toNat (nth 0 o.vals 1).toNat
     ∃ s2 τ, exec (.operationPerformed o.id) s = .next s2 ∧ s2.ch.op? o.id = none ∧ s2.ch.strand? o.pos = some τ ∧
       (∀ n, d = some n → τ.getS n = if n = 0 then 0 else if wide then BitVec.ofNat 64 old
         else if op < 7 ∨ op = 12 then BitVec.ofInt 64 (signed 32 old) else BitVec.ofNat 64 old) ∧
       (∀ n, d ≠ some n → τ.getS n = σ.getS n) ∧
       (∀ v, new = some v → ∀ i, i < w → s2.byte (o.run.phys + i) = BitVec.ofNat 8 (v / 256 ^ i)) ∧
       (new = none → s2.mem = s.mem) ∧ (∀ a, a < o.run.phys ∨ o.run.phys + w ≤ a → s2.byte a = s.byte a))

/-! What a record, an iterator load and a sweep do when they are performed (R297, R298, R357 to R361). -/

/-- R297, R298, R357: `itld`, `chld` and `viset` performed: the record's bytes stand in its register (if nothing has written it since), `viset` sets
the position to 0, no byte changes, and an iterator record that breaks R298 traps with 0x02; `itst` performed: the 64 bytes of its record stand in
the bench. R358 to R361: a sweep, a gather or a scatter whose elements are all on chip and found, performed: a load puts each active element into
its place of its register, unless a gather has W set, and a store puts each into memory, where elements are apart; no other register and no other
byte changes. That the elements of one performance are made in one step is log entry 82. -/
def Obligations.RecordsAndSweepsPerformed : Prop :=
  ∀ (s : State) (σ : Strand) (o : Op), s.Performable σ o →
    (s.Usable o o.run → let n := memNat s.mem o.run.phys o.run.len
      (∀ gi a od, o.instr = .itld gi a od → o.run.len = 64 →
        (iterOk (BitVec.ofNat 512 n) = true → (⟨.gi gi.toNat, o.id⟩ : Busy) ∈ σ.busy → ∃ t τ, Performed s t σ τ o ∧ t.mem = s.mem ∧
          τ.gr = { σ.gr with gi := setNth none σ.gr.gi gi.toNat (some (BitVec.ofNat 512 n)) } ∧ τ.s = σ.s ∧ τ.mr = σ.mr ∧ τ.vr = σ.vr) ∧
        (iterOk (BitVec.ofNat 512 n) = false → σ.inProgram → ∃ t, Faulted s t o 0x02)) ∧
      (∀ ch a od, o.instr = .chld ch a od → o.run.len = 32 → (⟨.ch ch.toNat, o.id⟩ : Busy) ∈ σ.busy → ∃ t τ, Performed s t σ τ o ∧
        t.mem = s.mem ∧ τ.gr = { σ.gr with ch := setNth none σ.gr.ch ch.toNat (some (BitVec.ofNat 256 n)) } ∧ τ.s = σ.s ∧ τ.mr = σ.mr ∧
        τ.vr = σ.vr) ∧
      (∀ im sp od, o.instr = .viset im sp od → o.run.len = 64 →
        (iterOk (BitVec.ofNat 512 n) = true → (⟨.vi im.toNat, o.id⟩ : Busy) ∈ σ.busy → ∃ t τ, Performed s t σ τ o ∧ t.mem = s.mem ∧
          τ.vr = { σ.vr with vi := setNth none σ.vr.vi im.toNat (some (BitVec.ofNat 512 n)), viPos := setNth 0 σ.vr.viPos im.toNat 0 } ∧
          τ.s = σ.s ∧ τ.gr = σ.gr ∧ τ.mr = σ.mr) ∧
        (iterOk (BitVec.ofNat 512 n) = false → σ.inProgram → ∃ t, Faulted s t o 0x02)) ∧
      (∀ gi a od, o.instr = .itst gi a od → o.run.len = 64 → ∃ t τ, Performed s t σ τ o ∧ σ.KeepsRegs τ ∧
        (∀ i, i < 64 → t.byte (o.run.phys + i) = BitVec.ofNat 8 ((nth 0 o.data 0).toNat / 256 ^ i)) ∧ s.KeptBut t [(o.run.phys, 64)])) ∧
    (∀ store, sweepForm o.instr = some store → o.progress = 0 → o.sweepTodo.length = o.sweepElems.length →
      let sh := vshapeOf (nth 0 o.vals 0)
      let d := o.val 4
      (∀ x ∈ o.sweepTodo, s.Usable o x.2.2 ∧ x.2.2.size = 0 ∧ 8 * x.2.2.len = sh.w) →
      (store = false → vshOk (nth 0 o.vals 0) = true → σ.vr.v.length = 32 → d + sh.gs ≤ 32 → ∃ t τ, Performed s t σ τ o ∧ t.mem = s.mem ∧
        τ.s = σ.s ∧ τ.gr = σ.gr ∧ τ.mr = σ.mr ∧ τ.vr.x = σ.vr.x ∧ τ.vr.p = σ.vr.p ∧ τ.vr.o = σ.vr.o ∧
        (sweepW o.instr = true → τ.vr.v = σ.vr.v) ∧ (∀ k, k < d ∨ d + sh.gs ≤ k → nth 0 τ.vr.v k = nth 0 σ.vr.v k) ∧
        (sweepW o.instr = false → ∀ x ∈ o.sweepTodo,
          bits (nth 0 τ.vr.v (d + x.2.1.g)).toNat (512 * x.2.1.r + sh.w * x.2.1.c) sh.w = memNat s.mem x.2.2.phys x.2.2.len)) ∧
      (store = true → o.sweepTodo.Pairwise (fun x y => x.2.2.Apart y.2.2) → ∃ t τ, Performed s t σ τ o ∧ σ.KeepsRegs τ ∧
        (∀ x ∈ o.sweepTodo, memNat t.mem x.2.2.phys x.2.2.len =
          bits (nth 0 o.data x.2.1.g).toNat (512 * x.2.1.r + sh.w * x.2.1.c) sh.w) ∧
        s.KeptBut t (o.sweepTodo.map fun x => (x.2.2.phys, x.2.2.len))))

/-! Descriptors, tokens and barriers (R91, R108 to R113, R125 to R131, R283 to R291). -/

/-- R91, R283, R284: `odseti` and `odset` write a descriptor of 14 bits, os above pm above scope, and `osq` reads the live word of a stream,
in which a word that stalls for its translation is outstanding (R81) and EXH reads 0 for C; a scope above 4, or a high bit of a, traps
with 0x02. R113, R108: `tkwait` completes on a done token and reports an error with the token's cause; `tktest` reads the token word; `tkclr`
sets a token that is not pending to idle. R112: a `tkpost` on a token that is not pending makes it pending with cause 0 until the
streams of its mask have reached the numbers issued by then; it goes to done at once when they have, and one with a mask of zero as the
cycle ends. R286: on a pending token it traps with 0x32, and token 0 traps with 0x02. -/
def Obligations.DescriptorAndTokenResults : Prop :=
  (∀ (s : State) (σ : Strand) (o os c : BitVec 3) (pm : BitVec 8) (a d : BitVec 5) (x : BitVec 2) (sp : BitVec 3),
    AtIssue s σ [.s a.toNat] →
    let v := (σ.getS a.toNat).toNat
    let put (n : Nat) : Strand := { σ with od := setNth odFresh σ.od o.toNat (BitVec.ofNat 14 n) }
    let y := (σ.cl (clOf x.toNat)).stream sp.toNat
    (c.toNat ≤ 4 → ∃ t, exec (.odseti o os pm c) s = .next t ∧ Issued s t (put (os.toNat * 2048 + pm.toNat * 8 + c.toNat)) none) ∧
    (v < 2 ^ 14 → v % 8 ≤ 4 → ∃ t, exec (.odset o a) s = .next t ∧ Issued s t (put v) none) ∧
    let stalled := if (σ.cl (clOf x.toNat)).owes = some sp.toNat then 1 else 0
    let word : Reg := BitVec.ofNat 64 (y.issued.toNat + y.completed.toNat * 65536 + ((y.issued - y.completed).toNat + stalled) * 2 ^ 32
      + (if y.exh then 2 ^ 38 else 0) + (if y.held then 2 ^ 39 else 0))
    (∃ t r, exec (.osq d x sp) s = .next t ∧ Issued s t (σ.setS d.toNat r) none ∧
      ∀ i, i < 64 → r.getLsbD i = (word.getLsbD i && !(x == 0 && i == 38))) ∧
    (σ.inProgram → 4 < c.toNat → ∃ t, exec (.odseti o os pm c) s = .next t ∧ Trapped s t σ { cause := 0x02 }) ∧
    (σ.inProgram → 2 ^ 14 ≤ v ∨ 4 < v % 8 → ∃ t, exec (.odset o a) s = .next t ∧ Trapped s t σ { cause := 0x02 })) ∧
  (∀ (s : State) (σ : Strand) (t : BitVec 4) (d : BitVec 5), AtIssue s σ [] → t ≠ 0 →
     let k := σ.token t.toNat
     (∃ u, exec (.tktest d t) s = .next u ∧ Issued s u (σ.setS d.toNat (BitVec.ofNat 64 (k.st.toNat + k.cause.toNat * 256))) none) ∧
     (k.st ≠ 1 → ∃ u, exec (.tkclr t) s = .next u ∧
       Issued s u (σ.setToken t.toNat { k with st := 0, cause := 0, cover := none }) none) ∧
     (k.st = 2 → ∃ u, exec (.tkwait t) s = .next u ∧ u.mem = s.mem ∧ u.ch.strand? s.ch.turn.pos = some (σ.advanced s.ch.turn none) ∧
       u.ch.ops = s.ch.ops ∧ ∀ p, p ≠ s.ch.turn.pos → u.ch.strand? p = s.ch.strand? p) ∧
     (k.st = 0 ∨ k.st = 1 → exec (.tkwait t) s = .next s) ∧
     (σ.inProgram → k.st = 3 → ∃ u, exec (.tkwait t) s = .next u ∧ Trapped s u σ { cause := k.cause, kind := 3 }) ∧
     (σ.inProgram → k.st = 1 → ∃ u, exec (.tkclr t) s = .next u ∧ Trapped s u σ { cause := 0x32 })) ∧
  (∀ (s : State) (σ : Strand) (t : BitVec 4) (x : BitVec 2) (m : BitVec 8), AtIssue s σ [] → t ≠ 0 → (σ.token t.toNat).st ≠ 1 →
     s.ch.exhausted σ.pos (clOf x.toNat) = false → m ≠ 0 →
     ∃ u τ, exec (.tkpost t x m) s = .next u ∧ u.mem = s.mem ∧ u.ch.strand? s.ch.turn.pos = some τ ∧ (τ.token t.toNat).cause = 0 ∧
       ((τ.token t.toNat).st = 1 ∨ (τ.token t.toNat).st = 2) ∧
       ((τ.token t.toNat).st = 2 ↔ ∀ k, k < 8 → m.getLsbD k = true →
         reached ((σ.cl (clOf x.toNat)).stream k).completed ((σ.cl (clOf x.toNat)).stream k).issued = true) ∧
       τ.s = σ.s ∧ τ.gr = σ.gr ∧ τ.mr = σ.mr ∧ τ.vr = σ.vr ∧ u.ch.ops = s.ch.ops) ∧
  (∀ (s : State) (σ : Strand) (t : BitVec 4) (x : BitVec 2) (m : BitVec 8), AtIssue s σ [] →
     (t ≠ 0 → (σ.token t.toNat).st ≠ 1 → s.ch.exhausted σ.pos (clOf x.toNat) = false → ∃ u τ, exec (.tkpost t x 0) s = .next u ∧
       u.mem = s.mem ∧ u.ch.strand? s.ch.turn.pos = some τ ∧ (τ.token t.toNat).st = 1 ∧ (τ.token t.toNat).cause = 0 ∧
       (u.ch.faultFrozen (coreOf σ.pos) = false → ((tickStrand u τ).token t.toNat).st = 2) ∧
       τ.s = σ.s ∧ τ.gr = σ.gr ∧ τ.mr = σ.mr ∧ τ.vr = σ.vr ∧ u.ch.ops = s.ch.ops) ∧
     (σ.inProgram → t ≠ 0 → (σ.token t.toNat).st = 1 → ∃ u, exec (.tkpost t x m) s = .next u ∧ Trapped s u σ { cause := 0x32 }) ∧
     (σ.inProgram → ∀ d, ∀ i ∈ [Instr.tkpost 0 x m, .tkwait 0, .tktest d 0, .tkclr 0],
       ∃ u, exec i s = .next u ∧ Trapped s u σ { cause := 0x02 }))

/-- R125: the bytes of a barrier and its fields are one: reading what is written gives the fields back, and nothing else of memory
changes. R125, R126: a completed arrival. With one arrival outstanding and no byte missing the phase completes: PHASE advances modulo
256, PENDARR returns to EXPECTED and PENDBYTES to zero; bytes credited beyond the expected ones then set OVERRUN; with more outstanding only
PENDARR falls; one arrival too many sets OVERRUN. A credit lowers PENDBYTES, past zero where arrivals are outstanding, and completes the
phase where they are not; PENDBYTES stops at the ends of its range and sets OVERRUN. -/
def Obligations.BarrierArrival : Prop :=
  (∀ (mem : List Host.Cell) (a : Nat) (b : Bar), b.expected < 65536 → b.pendArr < 65536 → -2147483648 ≤ b.pendBytes → b.pendBytes ≤ 2147483647 →
     b.phase < 256 → b.upper < 2 ^ 53 →
     Bar.read (memWrite mem a b.bytes) a = b ∧ ∀ x, x < a ∨ a + 16 ≤ x → memRead (memWrite mem a b.bytes) x = memRead mem x) ∧
  (∀ b : Bar,
     let turned (late : Bool) : Bar :=
       { b with pendArr := b.expected, pendBytes := 0, phase := (b.phase + 1) % 256, overrun := b.overrun || late }
     (b.pendArr = 1 → b.pendBytes ≤ 0 → b.arrival = (turned (decide (b.pendBytes < 0)), true)) ∧
     (1 < b.pendArr → b.arrival = ({ b with pendArr := b.pendArr - 1 }, false)) ∧
     (b.pendArr = 1 → 0 < b.pendBytes → b.arrival = ({ b with pendArr := 0 }, false)) ∧
     (b.pendArr = 0 → b.arrival.1.overrun = true) ∧
     (b.pendBytes ≤ 2147483647 → ∀ m : Nat, let left : Int := b.pendBytes - m
       (-2147483648 ≤ left → 0 < left ∨ b.pendArr ≠ 0 → b.credit m = ({ b with pendBytes := left }, false)) ∧
       (-2147483648 ≤ left → left ≤ 0 → b.pendArr = 0 → b.credit m = (turned (decide (left < 0)), true)) ∧
       (left < -2147483648 → b.pendArr ≠ 0 → b.credit m = ({ b with pendBytes := -2147483648, overrun := true }, false)) ∧
       (left < -2147483648 → b.pendArr = 0 → b.credit m = (turned true, true))) ∧
     (∀ n : Nat, 2147483647 < b.pendBytes + n → b.setPend (b.pendBytes + n) = { b with pendBytes := 2147483647, overrun := true }))

/-- R288, R96: a `bar` instruction whose barrier pointer passes R21 and whose operand is in its range is put in flight; `bar.wait` keeps
its cluster until it is performed, the other forms do not. R130, R131, R290: an `hbar` of a scope the job admits is put in flight; the
forms that wait keep the cluster until the phase completes. An `hbar.a` issues when its unit has no arrival in the current phase, and does
not issue when it has. R133: an `hbar.aw` that a trap took back after its arrival only waits, for the phase in which it arrived. That a form
which waits is in flight, under a number of its stream, while it waits, an `hbar.aw` of a unit that has arrived already among them, is log
entry 51. -/
def Obligations.BarrierIssues : Prop :=
  (∀ (s : State) (σ : Strand) (b a : BitVec 5) (od : BitVec 3) (f : Found), AtIssue s σ [.s b.toNat, .s a.toNat] →
     s.ch.turn.cl = .c → s.NoWalk σ .c → s.footprint σ benchOnly .store (σ.getS b.toNat) 0 15 16 [] = .ok f →
     s.ch.moving f.loc.segs = false → s.ch.exhausted σ.pos .c = false → σ.exhausted .c (σ.odOf .c od.toNat) = false →
     let v := (σ.getS a.toNat).toNat
     let launches (i : Instr) (blocks : Bool) : Prop := ∃ t o, exec i s = .next t ∧ Launched s t σ o ∧ o.instr = i ∧ o.cl = .c ∧
       o.locs = [f.loc] ∧ ∃ τ, t.ch.strand? s.ch.turn.pos = some τ ∧ τ.c.blocked = (if blocks then some o.id else σ.c.blocked)
     (1 ≤ v → v < 65536 → launches (.barInit b a od) false) ∧ (1 ≤ v → v < 2 ^ 31 → launches (.barExpect b a od) false) ∧
     launches (.barArrive b od) false ∧ launches (.barWait b a od) true ∧ launches (.barTest b a od) false ∧
     launches (.barInval b od) false) ∧
  (∀ (s : State) (σ : Strand) (u : UnitRec) (j : Job) (sc od : BitVec 3), AtIssue s σ [] → s.ch.turn.cl = .c →
     s.ch.unitOf? σ = some u → s.ch.job? σ.who.job = some j → sc.toNat ≠ 0 → sc.toNat ≤ 4 → (2 ≤ sc.toNat → j.corFlag = true) →
     s.ch.exhausted σ.pos .c = false → σ.exhausted .c (σ.odOf .c od.toNat) = false →
     let launches (i : Instr) (blocks : Bool) : Prop := ∃ t o τ, exec i s = .next t ∧ Launched s t σ o ∧ o.instr = i ∧ o.cl = .c ∧
       t.ch.strand? s.ch.turn.pos = some τ ∧ τ.c.blocked = (if blocks then some o.id else σ.c.blocked)
     (σ.cameBack true true = none → launches (.hbarAw sc od) true) ∧ launches (.hbarW sc od) true ∧
     (∀ p, σ.cameBack true true = some p → ∃ t o τ, exec (.hbarAw sc od) s = .next t ∧ t.mem = s.mem ∧ t.ch.ops = s.ch.ops ++ [o] ∧
       o.instr = .hbarAw sc od ∧ o.progress = 1 ∧ o.taken = [(0, BitVec.ofNat 512 p)] ∧ t.ch.strand? s.ch.turn.pos = some τ ∧
       τ.trap.arrived = none ∧ τ.c.blocked = some o.id) ∧
     let arrived := (s.ch.hbar σ.who.job sc.toNat (hbarSite u sc.toNat)).hasArrived u.num
     (arrived = false → launches (.hbarA sc od) false) ∧ (arrived = true → exec (.hbarA sc od) s = .next s))

/-- R126, R288: a `bar` instruction performed. `bar.init` makes a barrier of an uninitialised granule, with a place in the quad's table; `bar.expect`
adds its bytes and arrives, `bar.arrive` arrives; `bar.wait` ends once PHASE is not the one it names, and stays until then; `bar.test` returns the
word of R126; `bar.inval` ends a barrier that no wait stands at. On a granule in the wrong state each traps with 0x02, on a barrier in error or
overrun `bar.expect` traps with 0x31 or 0x30 and `bar.wait` with 0x30. R130, R131: an `hbar` arrives once in a phase; one that waits stays until the
phase in which its unit had arrived is complete; an arrival of a unit that has arrived already stalls its cluster. -/
def Obligations.BarriersPerformed : Prop :=
  ∀ (s : State) (σ : Strand) (o : Op), s.Performable σ o →
    let stays (f : State → Op) : Prop := ∃ t, exec (.operationPerformed o.id) s = .next t ∧ t.mem = s.mem ∧ t.ch.op? o.id = some (f t)
    (∀ form, barForm o.instr = some form → let a := o.run.phys
      let b := Bar.read s.mem a
      let v := (nth 0 o.vals 0).toNat
      let writes (x : Bar) : Prop := ∃ t τ, Performed s t σ τ o ∧ σ.KeepsRegs τ ∧ (∀ i, i < 16 → t.byte (a + i) = nth 0 x.bytes i) ∧
        s.KeptBut t [(a, 16)]
      (form = .init → b.init = false → (s.ch.quad (quadOfBench a)).bars.length < 1024 →
        writes { expected := v, pendArr := v, pendBytes := 0, phase := 0, error := false, overrun := false, init := true, upper := 0 }) ∧
      (b.init = true → b.error = false → b.overrun = false →
        (form = .expect → writes (b.setPend (b.pendBytes + v)).arrival.1) ∧
        (form = .wait → b.phase ≠ v % 256 → ∃ t τ, Performed s t σ τ o ∧ t.mem = s.mem ∧ σ.KeepsRegs τ ∧
          ((σ.cl o.cl).blocked = some o.id → (τ.cl o.cl).blocked = none)) ∧
        (form = .wait → b.phase = v % 256 → stays fun _ => o)) ∧
      (b.init = true → (form = .arrive → writes b.arrival.1) ∧
        (form = .inval → (∀ p ∈ s.ch.ops, barForm p.instr = some .wait → p.run.phys ≠ a) →
          writes { b with init := false, pendArr := 0, pendBytes := 0 }) ∧
        ∀ d, form = .test d → (⟨.s d, o.id⟩ : Busy) ∈ σ.busy → ∃ t τ, Performed s t σ τ o ∧ t.mem = s.mem ∧
          (∀ k, τ.getS k = if k = d ∧ k ≠ 0 then BitVec.ofNat 64 ((BitVec.ofInt 32 b.pendBytes).toNat * 2 ^ 32 + 2 ^ 26 +
            (if b.overrun then 2 ^ 25 else 0) + (if b.error then 2 ^ 24 else 0) + b.phase * 2 ^ 16 + b.pendArr) else σ.getS k) ∧
          τ.gr = σ.gr ∧ τ.vr = σ.vr ∧ τ.mr = σ.mr) ∧
      (σ.inProgram → (b.init = (form == .init) → ∃ t, Faulted s t o 0x02) ∧
        (b.init = true → b.error = true → form = .expect → ∃ t, Faulted s t o 0x31) ∧
        (b.init = true → b.error = false → b.overrun = true → form = .expect ∨ form = .wait → ∃ t, Faulted s t o 0x30))) ∧
    (∀ sc waits u, hbarForm o.instr = some (sc, waits) → s.ch.unitOf? σ = some u → let site := hbarSite u sc
      let h := s.ch.hbar o.job sc site
      let ends : Prop := ∃ t τ, Performed s t σ τ o ∧ t.mem = s.mem ∧ σ.KeepsRegs τ
      let counted (t : State) : Prop := (t.ch.hbar o.job sc site).arrived = u.num :: h.arrived ∧ (t.ch.hbar o.job sc site).phase = h.phase
      (o.progress ≠ 1 → h.hasArrived u.num = false →
        (waits = false → ∃ t τ, Performed s t σ τ o ∧ t.mem = s.mem ∧ σ.KeepsRegs τ ∧ counted t) ∧
        (waits = true → ∃ t, exec (.operationPerformed o.id) s = .next t ∧ t.mem = s.mem ∧ counted t ∧
          t.ch.op? o.id = some { o with progress := 1, taken := [(0, BitVec.ofNat 512 h.phase)] })) ∧
      (o.progress = 0 → h.hasArrived u.num = true → ∃ t τ, exec (.operationPerformed o.id) s = .next t ∧ t.mem = s.mem ∧
        t.ch.op? o.id = some { o with progress := 2 } ∧ t.ch.strand? o.pos = some τ ∧ (τ.cl o.cl).blocked = some o.id) ∧
      (o.progress = 1 → (h.awaited o u = none → ends) ∧ ∀ p, h.awaited o u = some p → (p < h.phase → ends) ∧
        (h.phase ≤ p → o.taken ≠ [] → stays fun _ => o)))

/-! System instructions (R242, R263 to R270). -/

/-- R242, R263: what `sys.rd` reads in user mode. R242, R263, R389: the registers from 0x100 up are read in privileged mode; in user mode a
read or a write of any of them, listed or not, traps with 0x04; in user mode a number that is not listed traps with 0x02. -/
def Obligations.SystemReads : Prop :=
  (∀ (s : State) (σ : Strand) (d : BitVec 5), AtIssue s σ [] →
     let gives (r : Nat) (v : Reg) : Prop :=
       ∃ t, exec (.sysRd d (BitVec.ofNat 12 r)) s = .next t ∧ Issued s t (σ.setS d.toNat v) none
     gives 0x000 (BitVec.ofNat 64 ((σ.who.nstr - 1) * 64 + σ.who.role * 16 + σ.pos % 4 * 4 + σ.who.strand)) ∧
     gives 0x001 (σ.who.unit.setWidth 64) ∧ gives 0x002 σ.who.job ∧ gives 0x003 σ.who.arg ∧ gives 0x004 σ.who.quadpos ∧
     gives 0x005 (BitVec.ofNat 64 s.ch.cycle) ∧ gives 0x010 ((nth 0 σ.c.lc 0).setWidth 64) ∧
     gives 0x011 ((nth 0 σ.c.lc 1).setWidth 64) ∧ gives 0x012 ((nth 0 σ.c.lc 2).setWidth 64) ∧
     gives 0x020 (σ.mr.mflags.setWidth 64) ∧ gives 0x021 ((σ.vr.vmodeC.getD σ.vr.vmode).setWidth 64) ∧
     gives 0x022 (σ.trap.trapen.setWidth 64) ∧ gives 0x030 (if σ.trap.pend then 1 else 0) ∧
     gives 0x040 (nth 0 s.ch.plat.tar (islandOf (coreOf σ.pos)))) ∧
  (∀ (s : State) (σ : Strand) (d : BitVec 5), AtIssue s σ [.s d.toNat] →
     let gives (r : Nat) (v : Reg) : Prop :=
       ∃ t, exec (.sysRd d (BitVec.ofNat 12 r)) s = .next t ∧ Issued s t (σ.setS d.toNat v) none
     (σ.privileged = true → gives 0x100 (σ.trap.info.cause.setWidth 64) ∧ gives 0x104 ((s.ch.ageOf σ).setWidth 64) ∧
       gives 0x105 (σ.trap.wdog.setWidth 64) ∧
       gives 0x101 (BitVec.ofNat 64 (2 ^ 55 + ctxArea σ.pos)) ∧ gives 0x103 (BitVec.ofNat 64 (2 ^ 55 + ctxArea σ.pos + 0x13000)) ∧
       ∃ v : Reg, gives 0x102 v ∧ ∀ i, i < 64 → (v.getLsbD i = true ↔ ∃ e ∈ σ.trap.score, e.entry = i)) ∧
     (σ.inProgram → ∀ r : BitVec 12, 0x100 ≤ r.toNat →
       (∃ t, exec (.sysRd d r) s = .next t ∧ Trapped s t σ { cause := 0x04 }) ∧
       (∃ t, exec (.sysWr d r) s = .next t ∧ Trapped s t σ { cause := 0x04 })) ∧
     (σ.inProgram → ∀ r : BitVec 12, r.toNat < 0x100 →
       r.toNat ∉ [0, 1, 2, 3, 4, 5, 0x10, 0x11, 0x12, 0x20, 0x21, 0x22, 0x30, 0x40] →
       ∃ t, exec (.sysRd d r) s = .next t ∧ Trapped s t σ { cause := 0x02 }))

/-- R264, R7: what `sys.wr` changes; a read-only register ignores it. MFLAGS keeps what commands have raised in the cycle of the write; an
AGE is read from the next cycle on by every strand of the job on the core, those placed there later among them. An AGE below 16 or above
4095, and a WDOG with a half of zero, are illegal operands: a fault in privileged mode, which begins the kill of the job (R390), and no
register changes. -/
def Obligations.SystemWrites : Prop :=
  ∀ (s : State) (σ : Strand) (a : BitVec 5), AtIssue s σ [.s a.toNat] →
    let v := σ.getS a.toNat
    let gives (r : Nat) (τ : Strand) : Prop := ∃ t, exec (.sysWr a (BitVec.ofNat 12 r)) s = .next t ∧ Issued s t τ none
    gives 0x020 { σ with mr := { σ.mr with mflags := v.setWidth 6 ||| σ.mr.flagsNow } } ∧
    gives 0x021 { σ with vr := { σ.vr with vmodeC := some (v.setWidth 2) } } ∧
    gives 0x022 { σ with trap := { σ.trap with trapen := v.setWidth 6 } } ∧
    (∀ r ∈ [0, 1, 2, 3, 4, 5, 0x10, 0x11, 0x12, 0x30, 0x40], gives r σ) ∧
    (σ.privileged = true → v.toNat % 2 ^ 32 ≠ 0 → v.toNat / 2 ^ 32 % 2 ^ 16 ≠ 0 →
      gives 0x105 { σ with trap := { σ.trap with wdog := v.setWidth 48 } }) ∧
    (σ.privileged = true → 16 ≤ v.toNat → v.toNat ≤ 4095 →
      ∃ t, exec (.sysWr a 0x104#12) s = .next t ∧ t.mem = s.mem ∧
        ∀ τ : Strand, coreOf τ.pos = coreOf σ.pos → τ.who.job = σ.who.job →
          t.ch.ageOf τ = s.ch.ageOf τ ∧ (tickChip t).ageOf τ = v.setWidth 12) ∧
    (∀ j, σ.privileged = true → s.ch.job? σ.who.job = some j → j.killStep = 0 →
      let refused (r : BitVec 12) : Prop := ∃ t, exec (.sysWr a r) s = .next t ∧ t.ch.strands = s.ch.strands ∧ t.ch.ops = s.ch.ops ∧
        (t.ch.core (coreOf σ.pos)).agesNext = (s.ch.core (coreOf σ.pos)).agesNext ∧
        t.ch.job? σ.who.job = some { j with killStep := 1, killFlags := 4 }
      (v.toNat < 16 ∨ 4095 < v.toNat → refused 0x104) ∧
      (v.toNat % 2 ^ 32 = 0 ∨ v.toNat / 2 ^ 32 % 2 ^ 16 = 0 → refused 0x105))

/-- R265: `trap` is taken with its code after the word. R266: `xgate`, once the M commands it waits for are done, goes on when no
enabled flag and no zero divisor is pending, and otherwise traps after the word with the qualifier R266 gives; 0x21 clears DZI. R390,
R404: a fault of a strand in privileged mode does not enter the handler again: the kill of its job begins, its core freezes, and the header
of the frame records DOUBLE; the strand itself is as it was. -/
def Obligations.SoftwareTraps : Prop :=
  (∀ (s : State) (σ : Strand) (c : BitVec 16), AtIssue s σ [] → σ.inProgram →
     let g := (σ.mr.mflags ||| σ.vr.vflags.foldl (· ||| ·) 0) &&& σ.trap.trapen
     let quietM : Prop := ∀ o ∈ s.ch.ops, o.pos = σ.pos → o.cl = .m → o.id < σ.rdv → o.status = .held
     (∃ t, exec (.trap c) s = .next t ∧ Trapped s t (σ.advanced s.ch.turn none) { cause := 0x3D, code := c }) ∧
     (quietM → σ.trap.dzi = false → g = 0 → ∃ t, exec .xgate s = .next t ∧ Issued s t σ none) ∧
     (quietM → σ.trap.dzi = false → g ≠ 0 → ∃ t, exec .xgate s = .next t ∧
       Trapped s t (σ.advanced s.ch.turn none) { cause := 0x20, kind := 2, qual := g.setWidth 8 }) ∧
     (quietM → σ.trap.dzi = true → ∃ t, exec .xgate s = .next t ∧
       Trapped s t (({ σ with trap := { σ.trap with dzi := false } } : Strand).advanced s.ch.turn none)
         { cause := 0x21, kind := 2, qual := 0x80 ||| g.setWidth 8 })) ∧
  (∀ (s : State) (σ : Strand) (j : Job) (cl : Cluster) (r : TrapReq), s.ch.strand? σ.pos = some σ → σ.privileged = true →
     s.ch.job? σ.who.job = some j → j.killStep = 0 →
     let t := s.trapTo s.ch σ.pos cl r
     (∃ k, t.ch.job? σ.who.job = some k ∧ k.killStep = 1 ∧ k.killFlags = 4) ∧ t.ch.strands = s.ch.strands ∧ t.ch.ops = s.ch.ops ∧
     let old := s.ch.core (coreOf σ.pos)
     (t.ch.core (coreOf σ.pos)).freeze = (if old.freeze = 0 ∧ old.faults = [] then 16 else old.freeze) ∧
     (t.ch.core (coreOf σ.pos)).faults =
       joinFault { slot := σ.pos % 4, cause := r.cause, kind := r.kind, cycle := s.ch.cycle } old.faults ∧
     t.byte (ctxArea σ.pos + 5) = s.byte (ctxArea σ.pos + 5) ||| 8 ∧ (∀ a, a ≠ ctxArea σ.pos + 5 → t.byte a = s.byte a))

/-- R269: `yield` changes no register and no byte of memory, and C is not ready until the next cycle; with H it traps. R268, R144:
`rbase` in privileged mode sets every clock of the quad to 1 and every seen entry and mark to none, once the operations of the quad on
tracked memory that have issued are done; until then it waits, and no other word of the quad issues. R270: outside privileged mode
`rbase` and `resume` trap with 0x04. -/
def Obligations.YieldAndRebase : Prop :=
  ∀ (s : State) (σ : Strand) (a : BitVec 5), AtIssue s σ [.s a.toNat] → s.ch.turn.cl = .c →
    (wordHold s.ch.turn.word = false → ∃ t, exec .yield s = .next t ∧ Issued s t (σ.modCl .c fun k => { k with yielded := true }) none) ∧
    (σ.inProgram → wordHold s.ch.turn.word = true → ∃ t, exec .yield s = .next t ∧ Trapped s t σ { cause := 0x01 }) ∧
    (σ.privileged = true → (s.ch.quad (quadOfPos σ.pos)).rebased.contains σ.pos = false → s.ch.rebaseWaits (quadOfPos σ.pos) = true →
      ∃ t, exec .rbase s = .next t ∧ t.mem = s.mem ∧ t.ch.strands = s.ch.strands ∧ t.ch.ops = s.ch.ops ∧
        (t.ch.quad (quadOfPos σ.pos)).clock = (s.ch.quad (quadOfPos σ.pos)).clock ∧
        ∀ τ cl, quadOfPos τ.pos = quadOfPos σ.pos → (cl = .c → (τ.cl cl).atRbase = false) → t.ch.mayIssue τ cl = false) ∧
    (σ.privileged = true → (s.ch.quad (quadOfPos σ.pos)).rebased.contains σ.pos = false → s.ch.rebaseWaits (quadOfPos σ.pos) = false →
      ∃ t, exec .rbase s = .next t ∧ t.mem = s.mem ∧
      (t.ch.quad (quadOfPos σ.pos)).clock = List.replicate 64 1 ∧ (t.ch.quad (quadOfPos σ.pos)).seen = [] ∧
      (∀ m ∈ t.ch.side.marks, granuleInQuad (quadOfPos σ.pos) m.granule = false) ∧
      (∀ q, q ≠ quadOfPos σ.pos → t.ch.quad q = s.ch.quad q)) ∧
    (σ.inProgram → (∃ t, exec .rbase s = .next t ∧ Trapped s t σ { cause := 0x04, step := 2 }) ∧
      (∃ t, exec (.resume a) s = .next t ∧ Trapped s t σ { cause := 0x04, step := 2 }))

/-- R267, R389, R394: `resume` with no scoreboard entry pending and return points that pass R254 leaves privileged mode, with every scalar
register as the frame holds it and no byte of memory changed. -/
def Obligations.ResumeRestores : Prop :=
  ∀ (s : State) (σ : Strand) (a : BitVec 5), AtIssue s σ [.s a.toNat] → σ.privileged = true → σ.trap.score = [] →
    (∀ i, i < 64 → (σ.getS a.toNat).getLsbD i = false) →
    let area := ctxArea σ.pos
    let at_ (k : Cluster) : ClusterSt := if k = .c then σ.trap.savedC.getD σ.c else σ.cl k
    (∀ k, pointCheck (at_ k) k (s.ch.returnPoint (at_ k)) (nth 0 (frameRegs s.mem (area + 0x40) 8 4) (clNum k)) = none) →
    ∃ t τ, exec (.resume a) s = .next t ∧ t.mem = s.mem ∧ t.ch.strand? s.ch.turn.pos = some τ ∧ τ.trap.phase = .run ∧
      τ.privileged = false ∧
      (∀ n, 0 < n → n < 32 → τ.getS n = BitVec.ofNat 64 (memNat s.mem (area + 0x300 + 8 * n) 8)) ∧
      (∀ n, 0 < n → n < 8 → τ.getG n = BitVec.ofNat 64 (memNat s.mem (area + 0x880 + 8 * n) 8) ∧
        τ.getM n = BitVec.ofNat 64 (memNat s.mem (area + 0x8C0 + 8 * n) 8) ∧
        τ.getX n = BitVec.ofNat 64 (memNat s.mem (area + 0x900 + 8 * n) 8)) ∧
      ((∀ k o, s.ch.blockOp? (at_ k) = some o → o.pos = σ.pos) → ∀ p, p ≠ s.ch.turn.pos → t.ch.strand? p = s.ch.strand? p)

/-! The scalar words and the stream registers of G and M (R295 to R304, R324, R340). -/

/-- R295, R324: `gmov` and `mmov` read the snapshot, `gadd`, `madd` and `glea` compute. R340: the words of `mstat`; that
QUEUED, a field of 8 bits, counts modulo 256 is log entry 44. -/
def Obligations.ClusterScalarResults : Prop :=
  ∀ (s : State) (σ : Strand) (d a b : BitVec 3) (sp : BitVec 5) (im : BitVec 18) (k : BitVec 2),
    let givesG (i : Instr) (r : Reg) : Prop := ∃ t, exec i s = .next t ∧ Issued s t (σ.setG d.toNat r) none
    let givesM (i : Instr) (r : Reg) : Prop := ∃ t, exec i s = .next t ∧ Issued s t (σ.setM d.toNat r) none
    let f := (s.ch.core (coreOf σ.pos)).bucket
    let l := s.ch.ops.filter fun o => o.pos == σ.pos && o.cl == .m
    (AtIssue s σ [] → givesG (.gmov d sp) (if sp = 0 then 0 else nth 0 σ.gr.snap.s sp.toNat) ∧
      givesM (.mmov d sp) (if sp = 0 then 0 else nth 0 σ.mr.snap.s sp.toNat) ∧ givesM (.mstat d 0) (σ.mr.mflags.setWidth 64) ∧
      (f.owner = none → givesM (.mstat d 1) 0) ∧
      (∀ w, f.owner = some w → w ≠ σ.pos % 4 → givesM (.mstat d 1) (BitVec.ofNat 64 (4 + w))) ∧
      (f.owner = some (σ.pos % 4) → givesM (.mstat d 1) (BitVec.ofNat 64 (12 + σ.pos % 4 + f.t * 256 + f.left * 65536))) ∧
      givesM (.mstat d 2) (BitVec.ofNat 64 (l.length % 256 * 256 + if ∃ o ∈ l, o.status = .held then 1 else 0))) ∧
    (AtIssue s σ [.g a.toNat] → givesG (.gadd d a im) (BitVec.ofInt 64 ((σ.getG a.toNat).toInt + im.toInt))) ∧
    (AtIssue s σ [.m a.toNat] → givesM (.madd d a im) (BitVec.ofInt 64 ((σ.getM a.toNat).toInt + im.toInt))) ∧
    (AtIssue s σ [.g a.toNat, .g b.toNat] →
      givesG (.glea d a b k) (BitVec.ofNat 64 ((σ.getG a.toNat).toNat + (σ.getG b.toNat).toNat * 2 ^ k.toNat)))

/-- R297, R96: `itld`, `itst` and `chld` whose pointer passes R21 are put in flight, and the cluster goes on; `itst` of an unloaded register
stores zeros (R298). -/
def Obligations.RecordAccessIssues : Prop :=
  ∀ (s : State) (σ : Strand) (g a o : BitVec 3) (c : BitVec 2) (f : Found), s.ch.turn.cl = .g → s.NoWalk σ .g →
    s.ch.moving f.loc.segs = false → σ.exhausted .g (σ.odOf .g o.toNat) = false →
    let launches (i : Instr) (dest : List RegName) (data : List (BitVec 8192)) : Prop :=
      ∃ t p τ, exec i s = .next t ∧ Launched s t σ p ∧ p.instr = i ∧ p.cl = .g ∧ p.locs = [f.loc] ∧ p.dest = dest ∧ p.data = data ∧
        t.ch.strand? s.ch.turn.pos = some τ ∧ τ.g.blocked = σ.g.blocked
    (AtIssue s σ [.g a.toNat] → s.footprint σ benchOnly .load (σ.getG a.toNat) 0 63 64 [] = .ok f →
      launches (.itld g a o) [.gi g.toNat] []) ∧
    (AtIssue s σ [.g a.toNat, .gi g.toNat] → s.footprint σ benchOnly .store (σ.getG a.toNat) 0 63 64 [] = .ok f →
      launches (.itst g a o) [] [((nth none σ.gr.gi g.toNat).getD 0).setWidth 8192]) ∧
    (AtIssue s σ [.g a.toNat] → s.footprint σ benchOnly .load (σ.getG a.toNat) 0 31 32 [] = .ok f →
      launches (.chld c a o) [.ch c.toNat] [])

/-- R299: the layout of `itmod`, and how it replaces one field of a loaded record, bit by bit, by a value within its limits; it belongs
to no stream, and no binding changes; on a value outside its limits, or an unloaded register, it traps with 0x02, precise, and the
record is unchanged. -/
def Obligations.IteratorFields : Prop :=
  (∀ (g a : BitVec 3) (f : BitVec 4) (sync hold : Bool),
     let w := wordOf sync hold 0x07 (g.toNat * 2 ^ 21 + f.toNat * 2 ^ 17 + a.toNat * 2 ^ 14)
     wordSync w = sync ∧ wordHold w = hold ∧ decodeWord .g w = if f.toNat ≤ 8 then .ok (.itmod g f a) else .error .illegalInstruction) ∧
  (∀ (s : State) (σ : Strand) (g a : BitVec 3) (f : BitVec 4), AtIssue s σ [.g a.toNat, .gi g.toNat] → f.toNat ≤ 8 →
     let v := (σ.getG a.toNat).toNat
     let lo := if f = 0 then 0 else if f.toNat ≤ 4 then 128 + 96 * (f.toNat - 1) else 160 + 96 * (f.toNat - 5)
     let w := if 1 ≤ f.toNat ∧ f.toNat ≤ 4 then 32 else 64
     (nth none σ.gr.gi g.toNat = none → σ.inProgram → ∃ t, exec (.itmod g f a) s = .next t ∧ Trapped s t σ { cause := 0x02 }) ∧
     ∀ r : BitVec 512, nth none σ.gr.gi g.toNat = some r →
       let legal : Prop := (1 ≤ f.toNat → f.toNat ≤ 4 → v < 2 ^ 32 ∧ (f.toNat - 1 < iterDims r ↔ v ≠ 0)) ∧
         (5 ≤ f.toNat → f.toNat - 5 < iterDims r ∨ v = 0)
       (legal → ∃ t r2, exec (.itmod g f a) s = .next t ∧
         Issued s t { σ with gr := { σ.gr with gi := setNth none σ.gr.gi g.toNat (some r2) } } none ∧
         ∀ i, i < 512 → r2.getLsbD i = if lo ≤ i ∧ i < lo + w then (σ.getG a.toNat).getLsbD (i - lo) else r.getLsbD i) ∧
       (σ.inProgram → ¬ legal → ∃ t, exec (.itmod g f a) s = .next t ∧ Trapped s t σ { cause := 0x02 }))

/-- R300 to R304: an `sbind` that passes its checks binds the stream; its binding is one operation in flight. `sunbind` waits for the
consumers that issued; the stream is unbound as the cycle of its issue ends, and its binding operation may then be performed (log entry 97). `sskip` passes over its entries, or traps with 0x02 beyond the last. -/
def Obligations.StreamBindings : Prop :=
  ∀ (s : State) (σ : Strand) (q g a o : BitVec 3) (c : BitVec 2) (d n : BitVec 1),
    (∀ rec ch r, AtIssue s σ (.gi g.toNat :: if n = 1 then [.ch c.toNat] else []) → s.ch.turn.cl = .g → s.NoWalk σ .g →
      σ.binding? q.toNat = none → nth none σ.gr.gi g.toNat = some rec →
      (n = 1 → d = 0 ∧ nth none σ.gr.ch c.toNat = some ch) → (n = 0 → ch = 0) →
      let dir : Dir := if d = 1 then .output else .input
      chainOk ch rec dir = true →
      s.ch.checkPtr σ { bench := true, stratumOwn := true, slot := dir == .input } (iterBase rec) (iterRange rec).1 (iterRange rec).2 1
        = .ok r →
      iterAligned rec = true → σ.exhausted .g (σ.odOf .g o.toNat) = false →
      ∃ t p τ b, exec (.sbind q g c d n o) s = .next t ∧ Launched s t σ p ∧ p.instr = .sbind q g c d n o ∧
        t.ch.strand? s.ch.turn.pos = some τ ∧ τ.binding? q.toNat = some b ∧ b.dir = dir ∧ b.iter = rec ∧ b.chain = ch ∧ b.op = p.id ∧
        b.pos = 0 ∧ b.queue = [] ∧ b.claimed = 0 ∧ b.skips = [] ∧ b.bad = none ∧
        (n = 0 → b.total = ceilDiv (iterTotal rec) (64 / 2 ^ iterLog rec)) ∧ ∀ k, k ≠ q.toNat → τ.binding? k = σ.binding? k) ∧
    (∀ b, AtIssue s σ [] → σ.binding? q.toNat = some b →
      (s.ch.awaited σ.pos q.toNat b = true → exec (.sunbind q) s = .next s) ∧
      (s.ch.awaited σ.pos q.toNat b = false → ∃ t, exec (.sunbind q) s = .next t ∧
        Issued s t (σ.setBinding q.toNat (some { b with leaving := true })) none)) ∧
    (∀ (c : Chip) b, c.strand? σ.pos = some σ → σ.binding? q.toNat = some b → b.leaving = true →
      (∃ τ, c.releaseLeaving.strand? σ.pos = some τ ∧ τ.binding? q.toNat = none ∧ σ.SameRegs τ) ∧
      ∀ p, c.op? b.op = some p → ∃ p2, c.releaseLeaving.op? b.op = some p2 ∧ p2.progress = 1) ∧
    (∀ b, AtIssue s σ [.g a.toNat] → σ.binding? q.toNat = some b →
      let m := (σ.getG a.toNat).toNat
      (m < 2 ^ 32 → b.claimed + m ≤ b.total → ∃ t b2, exec (.sskip q a) s = .next t ∧
        Issued s t (σ.setBinding q.toNat (some b2)) none ∧ b2.claimed = b.claimed + m ∧ b2.total = b.total ∧
        (∀ k, b.claimed ≤ k → k < b.claimed + m → b2.entry? k = none ∧ (b.pos ≤ k → b2.skipped k = true)) ∧
        (∀ k, k < b.claimed ∨ b.claimed + m ≤ k → b2.entry? k = b.entry? k ∧ (b.pos ≤ k → b2.skipped k = b.skipped k))) ∧
      (σ.inProgram → 2 ^ 32 ≤ m ∨ b.total < b.claimed + m →
        ∃ t, exec (.sskip q a) s = .next t ∧ Trapped s t σ { cause := 0x02 }))

/-! Engine commands at issue (R109 to R111, R237, R292, R293, R306 to R322). -/

/-- R109 to R111, R237: a prefix and the accepting command after it issue as one; the command produces and waits for the prefix's tokens
(shown of `accz`). The prefix traps with 0x02 on a token it both produces and waits for, with 0x32 on a produced token that is pending,
with 0x01 when the command has S or H, or when the word after it decodes to no accepting command, or when it ends the body of a loop (log
entry 95); the order of a pair's checks is log entry 92. -/
def Obligations.PrefixedCommands : Prop :=
  ∀ (s : State) (σ : Strand) (p a b c : BitVec 4) (i : Instr) (w : Word), AtIssue s σ [] →
    let cl := s.ch.turn.cl
    let fits : Prop := p = 0 ∨ (p ≠ a ∧ p ≠ b ∧ p ≠ c ∧ (σ.token p.toNat).st ≠ 1)
    let traps (cause : BitVec 8) : Prop := ∃ t, exec (.dep p a b c) s = .next t ∧ Trapped s t σ { cause := cause }
    (σ.cl cl).wordAt ((σ.cl cl).pc + 4) = some w → decodeWord cl w = .ok i →
    ((σ.cl cl).endsBody = false → wordSync w = false → wordHold w = false → engineOf i ≠ none → fits →
      exec (.dep p a b c) s = exec i (s.paired w) ∧
      ∀ x n od f, i = .accz x n od → cl = .m → bits s.ch.turn.word.toNat 20 4 = p.toNat → bits s.ch.turn.word.toNat 16 4 = a.toNat →
        bits s.ch.turn.word.toNat 12 4 = b.toNat → bits s.ch.turn.word.toNat 8 4 = c.toNat →
        σ.free [.m x.toNat, .m n.toNat] = true → s.NoWalk σ .m → (σ.getM n.toNat).toNat ≤ 524288 →
        (s.paired w).accAtPtr σ (σ.getM x.toNat) (4 * (σ.getM n.toNat).toNat) .store = .ok f →
        (s.paired w).HasRoom σ i (σ.odOf .m od.toNat) f.loc.segs → (p ≠ 0 → s.ch.exhausted σ.pos .m = false) →
        ∃ t o τ, exec (.dep p a b c) s = .next t ∧ Launched (s.paired w) t σ o ∧ o.instr = i ∧ o.prod = p.toNat ∧
          o.waits = ([a.toNat, b.toNat, c.toNat].filter fun k => k != 0) ∧ t.ch.strand? s.ch.turn.pos = some τ ∧
          (p ≠ 0 → (τ.token p.toNat).st = 1 ∧ (τ.token p.toNat).cause = 0) ∧ ∀ k, k ≠ p.toNat → τ.token k = σ.token k) ∧
    (σ.inProgram → (σ.cl cl).endsBody = false → engineOf i ≠ none → wordSync w = false → wordHold w = false →
      (p ≠ 0 → p = a ∨ p = b ∨ p = c → traps 0x02) ∧
      (p ≠ 0 → p ≠ a → p ≠ b → p ≠ c → (σ.token p.toNat).st = 1 → traps 0x32)) ∧
    (σ.inProgram → engineOf i ≠ none → wordSync w = true ∨ wordHold w = true → traps 0x01) ∧
    (σ.inProgram → engineOf i = none → traps 0x01) ∧
    (σ.inProgram → (σ.cl cl).endsBody = true → traps 0x01)

/-- R293, R306 to R312: `cp`, `cpst`, `cp.cg` and `wsort` whose extents pass the checks of R293 are put in flight with their two footprints
and their barrier. The program of `cp.cg` is read first (log entry 23). -/
def Obligations.CopiesIssue : Prop :=
  ∀ (s : State) (σ : Strand) (d sp l b o : BitVec 3) (fd fs : Found) (bar : Option Seg), s.ch.turn.cl = .g → s.ch.turn.pfx = none →
    s.NoWalk σ .g →
    let od := σ.odOf .g o.toNat
    let v := (σ.getG l.toNat).toNat
    let issues (i : Instr) : Prop := ∃ t, exec i s = .next t ∧ s.Commands t σ i od [fd.loc, fs.loc] bar []
    (∀ (c : BitVec 1) (z : BitVec 2) sn dn, AtIssue s σ [.g d.toNat, .g sp.toNat, .g l.toNat, .g b.toNat] →
      let n := v % 2 ^ 32
      let packed := v / 2 ^ 32
      let crc := if c = 1 then 4 else 0
      (z = 0 ∧ packed = 0 ∧ sn = n + crc ∧ dn = n) ∨ (z = 1 ∧ packed = 0 ∧ n % 128 = 0 ∧ sn = n + crc ∧ dn = n + n / 128) ∨
        (z = 2 ∧ packed ≠ 0 ∧ n % 128 = 0 ∧ sn = packed + crc ∧ dn = n) →
      CopyOk s σ (.cp d sp l b o c z) od copyDest copySource ⟨σ.getG d.toNat, 0, dn, 1⟩ ⟨σ.getG sp.toNat, 0, sn, 1⟩ b fd fs bar →
      issues (.cp d sp l b o c z)) ∧
    (AtIssue s σ [.g d.toNat, .g sp.toNat, .g l.toNat, .g (l + 1).toNat, .g b.toNat] → l ≠ 0 → l ≠ 7 →
      let h := (σ.getG (l + 1).toNat).toNat
      let x := rowsExtent (v / 2 ^ 32) (v % 2 ^ 32) (signed 32 (h / 2 ^ 32))
      let y := rowsExtent (v / 2 ^ 32) (v % 2 ^ 32) (signed 32 (h % 2 ^ 32))
      CopyOk s σ (.cpst d sp l b o) od copyDest copySource ⟨σ.getG d.toNat, x.1, x.2, 1⟩ ⟨σ.getG sp.toNat, y.1, y.2, 1⟩ b fd fs bar →
      issues (.cpst d sp l b o)) ∧
    (∀ ws prog, AtIssue s σ [.g d.toNat, .g sp.toNat, .g l.toNat, .g b.toNat] →
      s.readProgram σ { s.opOf σ (.cpCg d sp l b o) od with
          vals := [σ.getG d.toNat, σ.getG sp.toNat, σ.getG l.toNat, σ.getG b.toNat] } (σ.getG l.toNat) 16 0 [] = .ok ws →
      cgParse ws = some prog → prog.aligned = true →
      let size := 2 ^ prog.loge
      let src := match prog.sourceRange with
        | some r => (r.1, (r.2 - r.1).toNat + size)
        | none => (0, 0)
      CopyOk s σ (.cpCg d sp l b o) od copyDest copySource
        ⟨σ.getG d.toNat, prog.destRange.1, (prog.destRange.2 - prog.destRange.1).toNat + size, size⟩
        ⟨σ.getG sp.toNat, src.1, src.2, size⟩ b fd fs bar →
      issues (.cpCg d sp l b o)) ∧
    (∀ c z : BitVec 2, AtIssue s σ [.g d.toNat, .g sp.toNat, .g l.toNat, .g b.toNat] →
      let rows := v % 2 ^ 24
      let cols := v / 2 ^ 24 % 2 ^ 24
      let len := 32 * 2 ^ z.toNat
      rows ≠ 0 → rows % 64 = 0 → cols ≠ 0 → cols % len = 0 → v < 2 ^ 48 →
      CopyOk s σ (.wsort d sp l b o c z) od sortDest sortSource
        ⟨σ.getG d.toNat, 0, rows / 64 * (cols / len) * 64 * (len + 16), 16⟩
        ⟨σ.getG sp.toNat, 0, rows * cols * (c.toNat + 1) / 8, 4⟩ b fd fs bar →
      issues (.wsort d sp l b o c z))

/-- R157, R307 to R309, R311, R312: a started `cp` that neither packs nor expands, a `cpst`, a `cp.cg` and a `wsort` between two runs of local memory
that have no byte in common, performed: the bytes of the source, by the rows of the shape, by the elements of the program, and as row records of the
codes, stand at the destination, and every other byte is as it was. Rows, and elements, that write no byte twice are taken. R152, R110: a `cp` whose
trailer is not the CRC-32C of its bytes moves them and ends in error with 0x31, which its token tells. -/
def Obligations.CopiesPerformed : Prop :=
  ∀ (s : State) (σ : Strand) (o : Op) (g e : Seg), s.Performable σ o → s.OneRun o (nth Loc.none o.locs 0) g →
    s.OneRun o (nth Loc.none o.locs 1) e → g.Apart e →
    let v (k : Nat) : Nat := (nth 0 o.vals k).toNat
    let moves (P : State → Prop) : Prop := ∃ t τ, Performed s t σ τ o ∧ σ.KeepsRegs τ ∧ τ.mr = σ.mr ∧ s.KeptBut t [(g.phys, g.len)] ∧ P t ∧
      (o.prod ≠ 0 → o.prod < σ.tk.length →
        let bad := ∃ d sp l b od, o.instr = .cp d sp l b od 1 0 ∧ v 2 ≠ 0 ∧ memNat s.mem (e.phys + v 2) 4 ≠ crc32c (memBytes s.mem e.phys (v 2))
        (bad → (τ.token o.prod).st = 3 ∧ (τ.token o.prod).cause = 0x31) ∧ (¬bad → (τ.token o.prod).st = 2 ∧ (τ.token o.prod).cause = 0))
    (∀ d sp l b od c, o.instr = .cp d sp l b od c 0 → v 2 < 2 ^ 32 → g.len = v 2 → e.len = v 2 + (if c = 1 then 4 else 0) →
      moves fun t => ∀ i, i < v 2 → t.byte (g.phys + i) = s.byte (e.phys + i)) ∧
    (∀ d sp l b od, o.instr = .cpst d sp l b od → let sh := shapeOf (nth 0 o.vals 2) (nth 0 o.vals 3)
      let x := rowsExtent sh.rows sh.len sh.dp
      let y := rowsExtent sh.rows sh.len sh.sp
      g.len = x.2 → e.len = y.2 → sh.len ≤ sh.dp.natAbs ∨ sh.rows ≤ 1 →
      moves fun t => ∀ i k, i < sh.rows → k < sh.len →
        t.byte (g.phys + ((i : Int) * sh.dp - x.1).toNat + k) = s.byte (e.phys + ((i : Int) * sh.sp - y.1).toNat + k)) ∧
    (∀ d sp l b od p, o.instr = .cpCg d sp l b od → cgParse (unpackWords (nth 0 o.data 0)) = some p →
      let size := 2 ^ p.loge
      let lo := (p.sourceRange.getD (0, 0)).1
      let first := p.destRange.1
      (∀ x ∈ p.elements, first ≤ x.2 ∧ (x.2 - first).toNat + size ≤ g.len ∧
        ∀ off, x.1 = some off → lo ≤ off ∧ (off - lo).toNat + size ≤ e.len) →
      p.elements.Pairwise (fun x y => x.2 + (size : Int) ≤ y.2 ∨ y.2 + (size : Int) ≤ x.2) →
      moves fun t => ∀ x ∈ p.elements, ∀ k, k < size → t.byte (g.phys + (x.2 - first).toNat + k) = match x.1 with
        | some off => s.byte (e.phys + (off - lo).toNat + k)
        | none => p.fill) ∧
    (∀ d sp l b od c z, o.instr = .wsort d sp l b od c z → c ≠ 3 →
      let rows := v 2 % 2 ^ 24
      let cols := v 2 / 2 ^ 24 % 2 ^ 24
      let len := 32 * 2 ^ z.toNat
      let w := c.toNat + 1
      rows ≠ 0 → rows % 64 = 0 → cols ≠ 0 → cols % len = 0 → v 2 < 2 ^ 48 → e.len = rows * cols * w / 8 →
      g.len = rows / 64 * (cols / len) * 64 * (len + 16) →
      moves fun t => ∀ i sg, i < rows → sg < cols / len →
        let code (x : Nat) : Nat := memNat s.mem e.phys e.len / 2 ^ (w * (i * cols + len * sg + x)) % 2 ^ w
        let at_ := g.phys + ((i / 64 * (cols / len) + sg) * 64 + i % 64) * (len + 16)
        (∀ x, x < len → t.byte (at_ + ((List.range len).filter fun y => decide (code y < code x ∨ code y = code x ∧ y < x)).length) =
          BitVec.ofNat 8 x) ∧
        ∀ k, k < 8 → memNat t.mem (at_ + len + 2 * k) 2 = ((List.range len).filter fun y => decide (code y ≤ k)).length)

/-- R313 to R316: on a link that has not failed, `xsend` with a permit takes the permit and TXSEQ and issues, and without one it stalls;
`xwait` issues when its slot holds a tag and then keeps its cluster, `xgrant` when a completed slot is not granted, and `xstat` at once.
On a failed link each of them traps with 0x31. -/
def Obligations.ExchangeIssues : Prop :=
  ∀ (s : State) (σ : Strand) (k q l d o : BitVec 3) (x : LinkEnd), s.ch.turn.cl = .g → s.ch.turn.pfx = none →
    AtIssue s σ [.g k.toNat, .g l.toNat] → s.ch.linkOf σ (σ.getG k.toNat) = .ok x →
    let od := σ.odOf .g o.toNat
    let n := (σ.getG l.toNat).toNat
    let launches (i : Instr) (dest : List RegName) (blocks : Bool) : Prop := ∃ t p τ, exec i s = .next t ∧ Launched s t σ p ∧ p.instr = i ∧
      p.dest = dest ∧ t.ch.strand? s.ch.turn.pos = some τ ∧ τ.g.blocked = (if blocks then some p.id else σ.g.blocked)
    (x.lerr = false →
      (x.permits = 0 → exec (.xsend k q l o) s = .next s) ∧
      (∀ b, x.permits ≠ 0 → n ≠ 0 → n < 2 ^ 32 → n ≤ x.slotSize → σ.binding? q.toNat = some b → b.dir = .input →
        s.HasRoom σ (.xsend k q l o) od [] →
        ∃ t, exec (.xsend k q l o) s = .next t ∧ s.Commands t σ (.xsend k q l o) od [] none [(q.toNat, ceilDiv n 64, .input)] ∧
          t.ch.links = s.ch.links.map fun y =>
            if y.job = x.job ∧ y.link = x.link ∧ y.far = x.far then { y with permits := y.permits - 1, txseq := y.txseq + 1 } else y) ∧
      (σ.exhausted .g od = false →
        (x.tagAt (x.slotOf x.rxseq) ≠ none → launches (.xwait k o) [] true) ∧
        (s.ch.pendingGrants x < x.full.length → launches (.xgrant k o) [] false) ∧ launches (.xstat k d o) [.g d.toNat] false) ∧
      (x.tagAt (x.slotOf x.rxseq) = none → exec (.xwait k o) s = .next s)) ∧
    (x.lerr = true → σ.inProgram → ∀ i ∈ [Instr.xsend k q l o, .xwait k o, .xgrant k o, .xstat k d o],
      ∃ t, exec i s = .next t ∧ Trapped s t σ { cause := 0x31 })

/-- R170, R292, R293, R318: the four collectives, whose length, scope, root and extents are legal, are put in flight, and their unit
counts them at their scope. -/
def Obligations.CollectivesIssue : Prop :=
  ∀ (s : State) (σ : Strand) (d sp l r o c : BitVec 3) (p t2 : BitVec 2) (u : UnitRec) (j : Job) (fd fs : Found), s.ch.turn.cl = .g →
    s.ch.turn.pfx = none → s.NoWalk σ .g → AtIssue s σ [.g d.toNat, .g sp.toNat, .g l.toNat, .g r.toNat] → s.ch.unitOf? σ = some u →
    s.ch.job? σ.who.job = some j → 2 ≤ c.toNat → c.toNat ≤ 4 → j.corFlag = true →
    let site := hbarSite u c.toNat
    let n := s.ch.collSize j c.toNat site
    let len := (σ.getG l.toNat).toNat
    let dp := σ.getG d.toNat
    let ep := σ.getG sp.toNat
    let allow : Allow := { global := true, bench := true }
    let od := σ.odOf .g o.toNat
    let fits (i : Instr) (elem dn sn : Nat) (same : Bool) : Prop := elem ≤ len ∧ len ≤ 2 ^ 31 - 4 ∧ len % elem = 0 ∧
      s.footprint σ allow .store dp 0 (dn - 1) 1 [] = .ok fd ∧ s.footprint σ allow .load ep 0 (sn - 1) 1 fd.pages = .ok fs ∧
      (fd.loc.overlaps fs.loc = false ∨ (same = true ∧ dp = ep)) ∧ s.HasRoom σ i od (fd.loc.segs ++ fs.loc.segs)
    let issues (i : Instr) (locs : List Loc) : Prop := ∃ t, exec i s = .next t ∧ s.Commands t σ i od locs none [] ∧
      t.ch.units = s.ch.units.map fun w => if w.job = σ.who.job ∧ w.num = σ.who.unit then
        { w with colls := putKey c.toNat (w.collCount c.toNat + 1) w.colls } else w
    (fits (.clAr d sp l r o c p t2) (if t2 = 1 then 2 else 4) len len true → issues (.clAr d sp l r o c p t2) [fd.loc, fs.loc]) ∧
    (fits (.clAg d sp l o c) 4 (n * len) len false → issues (.clAg d sp l o c) [fd.loc, fs.loc]) ∧
    (fits (.clRs d sp l r o c p t2) (if t2 = 1 then 2 else 4) len (n * len) false → issues (.clRs d sp l r o c p t2) [fd.loc, fs.loc]) ∧
    ((σ.getG r.toNat).toNat < n → s.ch.rankOf j c.toNat site u = (σ.getG r.toNat).toNat → fits (.clBc d sp l r o c) 4 len len true →
      issues (.clBc d sp l r o c) [fd.loc, fs.loc]) ∧
    ((σ.getG r.toNat).toNat < n → s.ch.rankOf j c.toNat site u ≠ (σ.getG r.toNat).toNat → 4 ≤ len → len ≤ 2 ^ 31 - 4 → len % 4 = 0 →
      s.footprint σ allow .store dp 0 (len - 1) 1 [] = .ok fd → s.HasRoom σ (.clBc d sp l r o c) od fd.loc.segs →
      issues (.clBc d sp l r o c) [fd.loc, { ptr := ep, tag := 0, segs := [] }])

/-- R171: contributions combine in the fixed tree, here of five; i32 sums saturate. R170, R172, R318: a started collective whose participants
are all on this package, have all started matching commands and have their buffers in local memory is performed for all of them at once: the block of
each is read, and the result of its rank stands at each destination. -/
def Obligations.CollectivesPerformed : Prop :=
  (∀ (f : List Nat → List Nat → List Nat) (a b c d e : List Nat), reduceTree f 5 [a, b, c, d, e] = f (f (f a b) (f c d)) e) ∧
  (∀ a b : BitVec 32, (combineWord true 0 a.toNat b.toNat : Int) % 2 ^ 32 =
    (max (-2147483648) (min 2147483647 (a.toInt + b.toInt)) : Int) % 2 ^ 32) ∧
  ∀ (s : State) (o : Op) (scope : Nat) (j : Job) (u : UnitRec) (ops : List Op) (d : Op → Seg) (e : Op → List Seg),
    s.ch.op? o.id = some o → s.ch.progresses o = true → s.ch.side.faulty = [] → collScope o.instr = some scope → s.ch.job? o.job = some j →
    (s.ch.strand? o.pos).bind s.ch.unitOf? = some u → scope ≠ 4 ∨ j.podN ≤ 1 →
    (s.ch.ranked j.id scope (hbarSite u scope)).map (fun w => s.ch.collOp? w scope (nth 0 o.data 0).toNat) = ops.map some →
    (ops.map Op.id).Nodup →
    (∀ p ∈ ops, p.status = .started ∧ p.bar = none ∧ s.ch.frozenOut p = false ∧ collKind p.instr = collKind o.instr ∧
      nth 0 p.vals 2 = nth 0 o.vals 2 ∧ nth 0 p.vals 3 = nth 0 o.vals 3 ∧ (nth Loc.none p.locs 0).segs = [d p] ∧
      (nth Loc.none p.locs 1).segs = e p ∧ ∀ g ∈ d p :: e p, g.peer = none ∧ g.cmp = false) →
    ops.Pairwise (fun p q => (d p).Apart (d q)) →
    let blocks := ops.map fun p => (e p).flatMap fun g => memBytes s.mem g.phys g.len
    let result (n : Nat) (p : Op) : List Byte := collResult p.instr (nth 0 o.vals 2).toNat (nth 0 o.vals 3).toNat blocks n
    ∃ t, exec (.operationPerformed o.id) s = .next t ∧ s.KeptBut t (ops.map fun p => ((d p).phys, (d p).len)) ∧
      ∀ n p, ops[n]? = some p → t.ch.op? p.id = none ∧
        ((result n p).length = (d p).len → ∀ i, i < (d p).len → t.byte ((d p).phys + i) = nth 0 (result n p) i)

/-- R208, R319 to R322, R325 to R332: the bucket and tile commands whose operands are legal and whose accumulator footprint passes R21
are put in flight; `bktz` takes the bucket file and sets T and LEFT, and `bfin` lowers LEFT. -/
def Obligations.TileCommandsIssue : Prop :=
  ∀ (s : State) (σ : Strand) (a b x y o : BitVec 3) (f : Found), s.ch.turn.cl = .m → s.ch.turn.pfx = none → s.NoWalk σ .m →
    let od := σ.odOf .m o.toNat
    let file (t : State) : Bucket := (t.ch.core (coreOf σ.pos)).bucket
    let own := σ.pos % 4
    let v := (σ.getM b.toNat).toNat
    (AtIssue s σ [.m b.toNat] → ∀ t : BitVec 3, t.toNat ≤ 5 → v ≠ 0 → v < 65536 → (file s).owner = none ∨ (file s).owner = some own →
      s.HasRoom σ (.bktz b t o) od [] →
      ∃ u, exec (.bktz b t o) s = .next u ∧ s.Commands u σ (.bktz b t o) od [] none [] ∧
        file u = { owner := some own, t := t.toNat, left := v }) ∧
    (AtIssue s σ [.m b.toNat] → ∀ (t : BitVec 3) (c sl : BitVec 2) rows, t.toNat ≤ 5 → rowsOf (σ.getM b.toNat) false = some rows →
      x ≠ y → (file s).owner = some own → (file s).left ≠ 0 → (file s).t = t.toNat → s.HasRoom σ (.bkt x y b t c sl o) od [] →
      let len := 32 * 2 ^ sl.toNat
      ∃ u, exec (.bkt x y b t c sl o) s = .next u ∧ s.Commands u σ (.bkt x y b t c sl o) od [] none
        [(x.toNat, ceilDiv (2 ^ t.toNat * len) 64, .input), (y.toNat, ceilDiv (rows.r * (len + 16)) 64, .input)] ∧ file u = file s) ∧
    (AtIssue s σ [.m a.toNat, .m b.toNat] → ∀ rows, rowsOf (σ.getM b.toNat) true = some rows → x ≠ y → (file s).owner = some own →
      (file s).left ≠ 0 →
      s.accAtPtr σ (σ.getM a.toNat) (4 * ((2 ^ (file s).t - 1) * rows.pitch + rows.r)) .store = .ok f →
      s.HasRoom σ (.bfin x y a b o) od f.loc.segs →
      ∃ u, exec (.bfin x y a b o) s = .next u ∧ s.Commands u σ (.bfin x y a b o) od [f.loc] none
        [(x.toNat, ceilDiv rows.r 4, .input), (y.toNat, ceilDiv (2 ^ (file s).t) 16, .input)] ∧
        file u = { file s with left := (file s).left - 1 }) ∧
    (AtIssue s σ [.m a.toNat] → ∀ (m : BitVec 2) (n : BitVec 6) (im : BitVec 1),
      s.accAtPtr σ (σ.getM a.toNat) (4 * (16 * 2 ^ m.toNat) * (16 * (n.toNat + 1))) .store = .ok f →
      (∀ t : BitVec 4, t.toNat ∈ [0, 1, 6, 7, 9, 10, 11, 12, 13] → s.HasRoom σ (.tmma m n x y a t im) (σ.odOf .m 0) f.loc.segs →
        ∃ u, exec (.tmma m n x y a t im) s = .next u ∧ s.Commands u σ (.tmma m n x y a t im) (σ.odOf .m 0) [f.loc] none
          [(x.toNat, 16 * 2 ^ m.toNat, .input), (y.toNat, 16 * (n.toNat + 1), .input)]) ∧
      (∀ q t : BitVec 3, t.toNat ≤ 4 → s.HasRoom σ (.tmmaSp m n x y a q t im) (σ.odOf .m 0) f.loc.segs →
        ∃ u, exec (.tmmaSp m n x y a q t im) s = .next u ∧ s.Commands u σ (.tmmaSp m n x y a q t im) (σ.odOf .m 0) [f.loc] none
          [(x.toNat, 16 * 2 ^ m.toNat, .input), (y.toNat, 2 * (16 * (n.toNat + 1)), .input), (q.toNat, 16 * 2 ^ m.toNat / 2, .input)])) ∧
    (AtIssue s σ [.m b.toNat] → ∀ t : BitVec 3, t.toNat ≤ 4 → v < 2 ^ 24 → x ≠ y → x ≠ a → y ≠ a → s.HasRoom σ (.spc x y a b t o) od [] →
      ∃ u, exec (.spc x y a b t o) s = .next u ∧ s.Commands u σ (.spc x y a b t o) od [] none
        [(x.toNat, v, .input), (y.toNat, ceilDiv v 2, .output), (a.toNat, ceilDiv v 4, .output)])

/-- R320 to R322, R333 to R338: the commands of the drain unit whose operands are legal and whose footprints pass R21 are put in flight
with those footprints. -/
def Obligations.DrainCommandsIssue : Prop :=
  ∀ (s : State) (σ : Strand) (d a n x o : BitVec 3) (t : BitVec 4) (fd fa fx : Found), s.ch.turn.cl = .m → s.ch.turn.pfx = none →
    s.NoWalk σ .m → AtIssue s σ [.m d.toNat, .m a.toNat, .m n.toNat, .m x.toNat] →
    let od := σ.odOf .m o.toNat
    let v := σ.getM n.toNat
    let w := tyBits t.toNat / 8
    let issues (i : Instr) (locs : List Loc) : Prop := ∃ u, exec i s = .next u ∧ s.Commands u σ i od locs none []
    (v.toNat ≤ 524288 → s.accAtPtr σ (σ.getM a.toNat) (4 * v.toNat) .store = .ok fa → s.HasRoom σ (.accz a n o) od fa.loc.segs →
      issues (.accz a n o) [fa.loc]) ∧
    (v.toNat ≤ 524288 → s.accAtPtr σ (σ.getM d.toNat) (4 * v.toNat) .store = .ok fd →
      s.accAtPtr σ (σ.getM a.toNat) (4 * v.toNat) .load = .ok fa → fd.loc.overlaps fa.loc = false →
      s.HasRoom σ (.accmv d a n o) od (fd.loc.segs ++ fa.loc.segs) → issues (.accmv d a n o) [fd.loc, fa.loc]) ∧
    (∀ y, t.toNat ∈ [0, 1, 2, 3, 4, 6, 7, 8, 9, 10, 11] → tileShape v w = some y →
      s.footprint σ drainDest .store (σ.getM d.toNat) 0 ((y.r - 1 : Nat) * y.dp + y.c * w - 1) w [] = .ok fd →
      s.accAtPtr σ (σ.getM a.toNat) (4 * ((y.r - 1) * y.sp + y.c)) .load = .ok fa →
      (s.HasRoom σ (.adrain d a n t o) od (fd.loc.segs ++ fa.loc.segs) → issues (.adrain d a n t o) [fd.loc, fa.loc]) ∧
      (∀ c : BitVec 3, 6 ≤ t.toNat → c.toNat ≤ 4 → s.footprint σ atomicSpaces .atomic (σ.getM x.toNat) 0 3 4 [] = .ok fx →
        s.HasRoom σ (.qdrain d a n x t c o) od (fd.loc.segs ++ (fa.loc.segs ++ fx.loc.segs)) →
        issues (.qdrain d a n x t c o) [fd.loc, fa.loc, fx.loc])) ∧
    (∀ y, t.toNat ∈ [0, 9, 10] → tileShape v 1 = some y → y.r % 32 = 0 → y.c % 32 = 0 →
      s.footprint σ drainDest .store (σ.getM d.toNat) 0 (y.r * y.dp + y.r * y.c - 1) 1 [] = .ok fd →
      s.accAtPtr σ (σ.getM a.toNat) (4 * ((y.r - 1) * y.sp + y.c)) .load = .ok fa →
      s.footprint σ drainDest .store (σ.getM x.toNat) 0 (y.r * y.c / 16 - 1) 1 [] = .ok fx → fd.loc.overlaps fx.loc = false →
      s.HasRoom σ (.quant2 d a n x t o) od (fd.loc.segs ++ (fa.loc.segs ++ fx.loc.segs)) →
      issues (.quant2 d a n x t o) [fd.loc, fa.loc, fx.loc])

/-- R217 to R220, R325 to R330, R333 to R339: the commands of the bucket path, the tile array and the drain unit performed, once the stream entries
they take are at hand. `bktz` clears the bucket file and `bkt` adds the columns of each record to its buckets; `bfin` adds scaled bucket sums to the
accumulator and clears the buckets; `tmma` and `tmma.sp` compute each element of their tile from the old one, or from the initial value; `accz` and
`accmv` write zeros and a copy; `adrain` converts a tile to its destination, `qdrain` also folds the largest magnitude into its word, and `quant2`
writes each block with its scale. MFLAGS gains the flags of the elements, and no other byte changes. -/
def Obligations.MatrixPerformed : Prop :=
  ∀ (s : State) (σ : Strand) (o : Op), s.Performable σ o → s.ch.claimFault o = none → o.wants = none →
    let core := coreOf o.pos
    let v (k : Nat) : Nat := (nth 0 o.vals k).toNat
    let loc (k : Nat) : Loc := nth Loc.none o.locs k
    let word (x : State) (a : Nat) : Nat := memNat x.mem a 4
    let ends (flags : List Flags) (P : State → Prop) : Prop := ∃ t τ, Performed s t σ τ o ∧ σ.KeepsRegs τ ∧
      τ.mr.mflags = σ.mr.mflags ||| flags.foldl (· ||| ·) 0 ∧ P t
    let buckets (t : State) (r n : Nat) (new : Nat → Nat → Nat → Nat) : Prop := ∀ j k tok, j < 64 → k < 8 → tok < 32 →
      word t (bucketAt core + 4 * ((j * 8 + k) * 32 + tok)) =
        if j < r ∧ tok < n then new j k tok else word s (bucketAt core + 4 * ((j * 8 + k) * 32 + tok))
    (∀ n t od, o.instr = .bktz n t od → ends [] fun u => buckets u 64 32 (fun _ _ _ => 0) ∧ s.KeptBut u [(bucketAt core, 0x10000)]) ∧
    (∀ a l r t c sp od rows, o.instr = .bkt a l r t c sp od → rowsOf (nth 0 o.vals 0) false = some rows → t.toNat ≤ 5 →
      let len := segLen sp
      let rec_ (j : Nat) : RowRecord := rowRecordOf len (((o.claimBytes 1).drop (j * (len + 16))).take (len + 16))
      (∀ j, j < rows.r → (rec_ j).ok (c.toNat + 1) len = true) →
      ends [] fun u => s.KeptBut u [(bucketAt core, 0x10000)] ∧ buckets u rows.r (2 ^ t.toNat) fun j k tok =>
        let cols := ((rec_ j).idx.drop ((rec_ j).span k).1).take (((rec_ j).span k).2 - ((rec_ j).span k).1)
        (((word s (bucketWordAt core j k tok) : Int) + (cols.map fun m => (nth 0 (o.claimBytes 0) (tok * len + m)).toInt).sum) % 2 ^ 32).toNat) ∧
    (∀ g, s.OneRun o (loc 0) g →
      let tile (m n : Nat) (cell : Nat → Nat → Nat × Flags) : Prop := g.len = 4 * (m * n) →
        ends ((List.range m).flatMap fun i => (List.range n).map fun j => (cell i j).2) fun u => s.KeptBut u [(g.phys, g.len)] ∧
          ∀ i j, i < m → j < n → word u (g.phys + 4 * (i * n + j)) = (cell i j).1 % 2 ^ 32
      let old (im : BitVec 1) (n i j : Nat) : Option Nat := if im = 1 then none else some (word s (g.phys + 4 * (i * n + j)))
      let elems (k t n : Nat) : List (List Nat) := (o.entries k).map (entryElems t n)
      (∀ m n a b c t im, o.instr = .tmma m n a b c t im → tap6Ok t.toNat (o.entries 0) = true → tap6Ok t.toNat (o.entries 1) = true →
        tile (tileM m) (tileN n) fun i j => tileElem t.toNat (old im (tileN n) i j) (nth [] (elems 0 t.toNat (tileK t.toNat)) i)
          (nth [] (elems 1 t.toNat (tileK t.toNat)) j)) ∧
      (∀ m n a b c q t im, o.instr = .tmmaSp m n a b c q t im → (∀ i, i < tileM m → ∀ h ∈ metaRow o i, metaOk h = true) →
        tile (tileM m) (tileN n) fun i j =>
          let col := entryElems (styType t) 64 (nth 0 (o.entries 1) (2 * j)) ++ entryElems (styType t) 64 (nth 0 (o.entries 1) (2 * j + 1))
          tileElem (styType t) (old im (tileN n) i j) (nth [] (elems 0 (styType t) 64) i)
            ((List.range 16).flatMap fun k => (metaIdx (nth 0 (metaRow o i) k)).map fun x => nth 0 col (8 * k + x))) ∧
      (∀ c sp a r od rows, o.instr = .bfin c sp a r od → rowsOf (nth 0 o.vals 1) true = some rows → v 2 ≤ 5 → let n := 2 ^ v 2
        g.len = 4 * ((n - 1) * rows.pitch + rows.r) → g.phys + g.len ≤ bucketAt core →
        let book (j : Nat) : List Byte := ((o.claimBytes 0).drop (16 * j)).take 16
        (∀ j, j < rows.r → leNat ((book j).drop 12) = 0) →
        let cell (tok j : Nat) : Nat × Flags :=
          bfinValue ((List.range 8).map fun k => (nth (0 : Byte) (book j) k).toInt * signed 32 (word s (bucketWordAt core j k tok))).sum
            (leNat (((book j).drop 8).take 4)) (leNat (((o.claimBytes 1).drop (4 * tok)).take 4)) (word s (g.phys + 4 * (tok * rows.pitch + j)))
        ends ((List.range n).flatMap fun tok => (List.range rows.r).map fun j => (cell tok j).2) fun u =>
          s.KeptBut u [(g.phys, g.len), (bucketAt core, 0x10000)] ∧ buckets u rows.r n (fun _ _ _ => 0) ∧
          ∀ tok j, tok < n → j < rows.r → word u (g.phys + 4 * (tok * rows.pitch + j)) = (cell tok j).1 % 2 ^ 32) ∧
      (∀ a n od, o.instr = .accz a n od → g.len = 4 * v 1 → ends [] fun u => s.KeptBut u [(g.phys, g.len)] ∧
        ∀ i, i < g.len → u.byte (g.phys + i) = 0) ∧
      ∀ e, s.OneRun o (loc 1) e → g.Apart e →
        (∀ d a n od, o.instr = .accmv d a n od → g.len = 4 * v 2 → e.len = 4 * v 2 → ends [] fun u => s.KeptBut u [(g.phys, g.len)] ∧
          ∀ i, i < g.len → u.byte (g.phys + i) = s.byte (e.phys + i)) ∧
        (∀ t w x, w = tyBits t / 8 → tileShape (nth 0 o.vals 2) w = some x → g.len = x.dstBytes w → e.len = x.accBytes →
          let at_ (p : Nat × Nat) : Nat := word s (e.phys + 4 * (p.1 * x.sp + p.2))
          let drained (u : State) : Prop := ∀ p ∈ x.places, memNat u.mem (g.phys + (p.1 * x.dp + p.2 * w)) w = (drainElem t (at_ p)).1 % 256 ^ w
          (∀ d a n ty od, o.instr = .adrain d a n ty od → ty.toNat = t → drainType t = true →
            ends (x.places.map fun p => (drainElem t (at_ p)).2) fun u => s.KeptBut u [(g.phys, g.len)] ∧ drained u) ∧
          ∀ d a n m ty c od h, o.instr = .qdrain d a n m ty c od → ty.toNat = t → drainFloat t = true → ({ o with locs := o.locs.drop 2 } : Op).run = h →
            h.peer = none → h.cmp = false → h.len = 4 → g.Apart h →
            ends (x.places.map fun p => (drainElem t (at_ p)).2) fun u => s.KeptBut u [(g.phys, g.len), (h.phys, 4)] ∧ drained u ∧
              word u h.phys = maxNum fF32 (word s h.phys) (x.places.foldl (fun m p => maxNum fF32 m (at_ p % 2 ^ 31)) f32NaN) % 2 ^ 32) ∧
        ∀ d a n q t od h x, o.instr = .quant2 d a n q t od → s.OneRun o (loc 2) h → g.Apart h → e.Apart h → tileShape (nth 0 o.vals 2) 1 = some x →
          x.r % 32 = 0 → x.c % 32 = 0 → g.len = x.r * x.dp + x.r * x.c → e.len = x.accBytes → h.len = x.r * x.c / 16 → t.toNat ∈ [0, 9, 10] →
          let done (b : List (Nat × Nat) × Nat) : Nat × List Nat × Flags := quantBlock t.toNat (b.1.map fun c => word s (e.phys + c.1))
          ends (x.blocks.map fun b => (done b).2.2) fun u => s.KeptBut u [(g.phys, g.len), (h.phys, h.len)] ∧
            ∀ b ∈ x.blocks, u.byte (h.phys + b.2) = BitVec.ofNat 8 (done b).1 ∧
              ∀ k, k < 32 → u.byte (g.phys + (nth (0, 0) b.1 k).2) = BitVec.ofNat 8 (nth 0 (done b).2.1 k))

/-! The V cluster (R342 to R363). -/

/-- R344, R345, R347, R349 to R352, R354 to R356: each active element of the result takes the value its instruction gives it and each
other element keeps d's old value; W keeps the registers, the last-result file takes the group in any case, and the flags of the
active elements join their lanes unless F is set. -/
def Obligations.VectorResults : Prop :=
  ∀ (s : State) (σ : Strand) (i : Instr) (x : VOp) (n : Nat) (va vb vd : List Nat), vOp i = some x →
    let sh := vshapeOf σ.vr.vsh
    let v : VIn := { sh := sh, a := va, b := vb, d := vd, n := n, mode := σ.vr.vmode }
    AtIssue s σ (x.fm.names sh ++ x.more) → VReads s σ x.fm n va vb vd → x.cls sh.ty = true → x.ok sh = true →
    ∃ t τ new, exec i s = .next t ∧ VIssued s t σ τ new ∧ new.length = sh.gs ∧ x.fm.Leaves sh.gs σ τ new ∧
      (∀ q ∈ sh.elems, getElem_ (new.map (·.toNat)) (x.tw sh) q =
        if sh.index q < n then (x.val v σ q).1 % 2 ^ x.tw sh else getElem_ vd (x.tw sh) q) ∧
      τ.vr.vflags = if x.fm.f = 1 ∨ x.flagged = false then σ.vr.vflags
        else orLanes σ.vr.vflags ((sh.elems.take n).map fun q => (laneOf sh.w q, (x.val v σ q).2))

/-- R353: `vred` leaves the combination of a line's active elements, in linear order, in its first element, and `vscan` the running
combination in each active element; every other element keeps d's old value, and the flags of a line's steps join its lane unless F is
set. That the first active element of a line is taken as it is, a NaN too, is log entry 99. -/
def Obligations.ReductionResults : Prop :=
  ∀ (s : State) (σ : Strand) (w : BitVec 1) (d : BitVec 5) (a : BitVec 6) (ax : BitVec 1) (o : BitVec 2) (p : BitVec 3) (f : BitVec 1)
    (r : BitVec 2) (n : Nat) (va vd : List Nat),
    let sh := vshapeOf σ.vr.vsh
    let fm := unForm w d a p f
    let v : VIn := { sh := sh, a := va, b := [], d := vd, n := n, mode := σ.vr.vmode }
    let fold (l : List Pos) : Nat := match l with
      | [] => 0
      | q :: qs => qs.foldl (fun z q => (vArith (redOp o) v (rndOf r v.mode) z (v.getA q) 0).1) (v.getA q)
    let raised (l : List Pos) : Flags := match l with
      | [] => 0
      | q :: qs => (qs.foldl (fun (z : Nat × Flags) q => let y := vArith (redOp o) v (rndOf r v.mode) z.1 (v.getA q) 0
          (y.1, z.2 ||| y.2)) (v.getA q, 0)).2
    let flags := if f = 1 then σ.vr.vflags else orLanes σ.vr.vflags ((redLines sh ax).map fun l =>
      (laneOf sh.w (l.headD { g := 0, r := 0, c := 0 }), raised (l.filter fun y => decide (sh.index y < n))))
    AtIssue s σ (fm.names sh) → VReads s σ fm n va [] vd → clsBoth sh.ty = true →
    (∃ t τ new, exec (.vred w d a ax o p f r) s = .next t ∧ VIssued s t σ τ new ∧ new.length = sh.gs ∧ fm.Leaves sh.gs σ τ new ∧
      τ.vr.vflags = flags ∧ ∀ q qs, q :: qs ∈ redLines sh ax →
        getElem_ (new.map (·.toNat)) sh.w q = (if sh.index q < n then
          fold ((q :: qs).filter fun y => decide (sh.index y < n)) % 2 ^ sh.w else getElem_ vd sh.w q) ∧
        ∀ y ∈ qs, getElem_ (new.map (·.toNat)) sh.w y = getElem_ vd sh.w y) ∧
    (∃ t τ new, exec (.vscan w d a ax o p f r) s = .next t ∧ VIssued s t σ τ new ∧ new.length = sh.gs ∧ fm.Leaves sh.gs σ τ new ∧
      τ.vr.vflags = flags ∧ ∀ l ∈ redLines sh ax, ∀ q ∈ l, getElem_ (new.map (·.toNat)) sh.w q = if sh.index q < n then
        fold (l.filter fun y => decide (sh.index y ≤ sh.index q)) % 2 ^ sh.w else getElem_ vd sh.w q)

/-- R343, R346, R363: the shape register, the predicates, the flags and the mode. -/
def Obligations.VectorControl : Prop :=
  ∀ (s : State) (σ : Strand) (sp : BitVec 5) (p a b : BitVec 3) (e im : BitVec 2) (f : BitVec 6) (o : BitVec 1),
    let gives (i : Instr) (vr : VRegs) : Prop := ∃ t, exec i s = .next t ∧ Issued s t { σ with vr := vr } none
    let pred (v : BitVec 16) : VRegs := { σ.vr with p := setNth 0 σ.vr.p p.toNat v }
    let traps (i : Instr) : Prop := ∃ t, exec i s = .next t ∧ Trapped s t σ { cause := 0x02 }
    (AtIssue s σ [] →
      (vshOk (σ.snapS .v sp.toNat) = true → gives (.vsh sp) { σ.vr with vsh := σ.snapS .v sp.toNat }) ∧
      (σ.inProgram → vshOk (σ.snapS .v sp.toNat) = false → traps (.vsh sp)) ∧
      (p ≠ 0 → a ≠ 0 → b ≠ 0 → predEw (σ.pred a.toNat) = predEw (σ.pred b.toNat) →
        gives (.pminmax p a b o) (pred (BitVec.ofNat 16 (predEw (σ.pred a.toNat) * 16384 +
          if o = 0 then min (predCount (σ.pred a.toNat)) (predCount (σ.pred b.toNat))
          else max (predCount (σ.pred a.toNat)) (predCount (σ.pred b.toNat)))))) ∧
      (σ.inProgram → p = 0 ∨ a = 0 ∨ b = 0 ∨ predEw (σ.pred a.toNat) ≠ predEw (σ.pred b.toNat) → traps (.pminmax p a b o)) ∧
      (∃ t, exec (.vfr a 0) s = .next t ∧
        Issued s t (σ.setX a.toNat ((σ.vr.vflags.foldl (· ||| ·) 0).setWidth 64)) none) ∧
      (∃ t r, exec (.vfr a 1) s = .next t ∧ Issued s t (σ.setX a.toNat r) none ∧
        ∀ l, l < 64 → r.getLsbD l = decide (nth 0 σ.vr.vflags l ≠ 0))) ∧
    (AtIssue s σ [.x a.toNat] →
      (p ≠ 0 → gives (.pset p a e) (pred (BitVec.ofNat 16 (e.toNat * 16384 + min (σ.getX a.toNat).toNat 16383)))) ∧
      (σ.inProgram → p = 0 → traps (.pset p a e)) ∧
      gives (.vfc a) { σ.vr with vflags := σ.vr.vflags.map fun x => x &&& ~~~((σ.getX a.toNat).setWidth 6) } ∧
      gives (.vmode a im) { σ.vr with vmode := if a = 0 then im else (σ.getX a.toNat).setWidth 2 }) ∧
    (∀ l, let sh := vshapeOf σ.vr.vsh
      AtIssue s σ (srcNames f.toNat sh.gs) → p ≠ 0 → s.ch.latchBusy σ f.toNat = false → s.ch.fetchV σ f.toNat sh.gs = .ok l →
      ∃ m, gives (.pfirst p f) (pred (BitVec.ofNat 16 (ewOf sh.ty * 16384 + m))) ∧ m ≤ sh.count ∧
        (∀ q ∈ sh.elems, sh.index q < m → getElem_ l sh.w q = 0) ∧
        (m < sh.count → ∃ q ∈ sh.elems, sh.index q = m ∧ getElem_ l sh.w q ≠ 0))

/-- R357, R358, R360, R361, R96: `viset`, the six sweeps, `vgth` and `vsct`, whose checks pass, are put in flight, and the iterator of a
sweep moves on past all its elements; a store reads its data at issue, a load's registers await it. R74, R359: the elements of on-chip
storage are found at issue; those of global memory are translated as the sweep runs, and the V cluster issues nothing until the last
of them is found. -/
def Obligations.VectorAccessIssues : Prop :=
  (∀ (s : State) (σ : Strand) (d : BitVec 5) (im o p : BitVec 3) (live : Nat) (regs : List Nat), s.ch.turn.cl = .v →
    s.NoWalk σ .v → σ.exhausted .v (σ.odOf .v o.toNat) = false →
    let sh := vshapeOf σ.vr.vsh
    let n := sh.count
    let wb := sh.w / 8
    let skip := σ.skip
    let group := List.range' d.toNat sh.gs
    let launches (i : Instr) (locs : List Loc) (store wflag : Bool) (moved : Option Nat) : Prop :=
      ∃ t q τ, exec i s = .next t ∧ Launched s t σ q ∧ q.instr = i ∧ q.locs = locs ∧
        q.dest = (if store || wflag then [] else group.map .v) ∧ q.data = (if store then group.map fun k => nth 0 σ.vr.v k else []) ∧
        t.ch.strand? s.ch.turn.pos = some τ ∧ τ.v.blocked = (if ∃ l ∈ locs, l.segs = [] then some q.id else σ.v.blocked) ∧
        ∀ k, nth 0 τ.vr.viPos k = if moved.isSome ∧ k = im.toNat then moved.getD 0 else nth 0 σ.vr.viPos k
    (∀ (sp : BitVec 5) f, AtIssue s σ [] → s.footprint σ benchOnly .load (σ.snapS .v sp.toNat) 0 63 64 [] = .ok f →
      s.ch.moving f.loc.segs = false →
      ∃ t q τ, exec (.viset im sp o) s = .next t ∧ Launched s t σ q ∧ q.instr = .viset im sp o ∧ q.locs = [f.loc] ∧
        q.dest = [.vi im.toNat] ∧ t.ch.strand? s.ch.turn.pos = some τ ∧ τ.v.blocked = σ.v.blocked) ∧
    (clsByte sh.ty = true → σ.active p sh.ty n = some live → s.ch.fetchV σ d.toNat sh.gs = .ok regs →
      (∀ rec r, AtIssue s σ (.vi im.toNat :: srcNames d.toNat sh.gs) → nth none σ.vr.vi im.toNat = some rec → 2 ^ iterLog rec = wb →
        let base := iterBase rec
        let start := nth 0 σ.vr.viPos im.toNat - skip
        let offs := (List.range' skip (n - skip)).map fun e => iterOff rec (start + e)
        let locs : List Loc := (List.range' skip (live - skip)).map fun e =>
          { ptr := base, tag := ptrTag base,
            segs := if ptrTag base = 0 then [] else [streamSeg r.1 ((ptrOff base : Int) + iterOff rec (start + e)) wb] }
        s.ch.moving (locs.flatMap fun l => l.segs) = false →
        start + n ≤ iterTotal rec → (∀ x ∈ offs, ((ptrOff base : Int) + x) % (wb : Int) = 0) →
        ∀ (i : Instr) (store : Bool) (allow : Allow), (i, store, allow) ∈ [(Instr.vld d im o p, false, globalOnly),
            (.vst d im o p, true, globalOnly), (.vbld d im o p, false, benchOnly), (.vbst d im o p, true, benchOnly),
            (.vsld d im o p, false, ownColumn), (.vsst d im o p, true, ownColumn)] →
          s.ch.checkPtr σ allow base (offs.foldl min (offs.headD 0)) (offs.foldl max (offs.headD 0) + ((wb : Int) - 1)) 1 = .ok r →
          launches i locs store false (some (start + n))) ∧
      (∀ (w : BitVec 1) (a : BitVec 6) ptrs, AtIssue s σ (srcNames a.toNat (ceilDiv (8 * n) 1024) ++ srcNames d.toNat sh.gs) →
        σ.pointers a.toNat n = some ptrs →
        ∀ (i : Instr) (store : Bool), (i, store) ∈ [(Instr.vgth w d a o p, false), (.vsct d a o p, true)] →
          launches i ((List.range' skip (live - skip)).map fun e => { ptr := nth 0 ptrs e, tag := ptrTag (nth 0 ptrs e), segs := [] })
            store (!store && w == 1) none))) ∧
  (∀ (s : State) (σ : Strand) (q : Op) (store : Bool) (gs : List Seg) (ps : List Page), s.ch.op? q.id = some q →
    s.ch.strand? q.pos = some σ → s.NoWalk σ .v → sweepForm q.instr = some store → s.ch.progresses q = true → q.status ≠ .sent → q.bar = none →
    q.sweepTodo = [] → q.progress < q.sweepElems.length → s.findElements σ q store q.sweepRest none = (gs, ps, none) →
    s.ch.moving gs = false →
    s.Does (.operationPerformed q.id) fun t => t.mem = s.mem ∧ s.OthersKept t q.pos ∧
      (∃ p, t.ch.op? q.id = some p ∧ p.locs = fillLocs q.locs gs ∧ p.progress = q.progress) ∧
      ∃ τ, t.ch.strand? q.pos = some τ ∧ σ.SameRegs τ ∧
        τ.v.blocked = if gs.length = q.sweepRest.length ∧ σ.v.blocked = some q.id then none else σ.v.blocked)

/-- R362: `vpop` of at most sixteen rows whose entries stand in the queue writes each row whole and pushes its result; of more, it takes
the first sixteen and keeps the V unit. `vpush` with its places free pushes its rows in order, and keeps the V unit while some
are left. Both claim their entries, and a stream that holds fewer entries or places than that makes them wait. R163: a `vpop` of a stream
with EXPAND expands the packed bytes of the queue until it has its entries. -/
def Obligations.StreamRows : Prop :=
  ∀ (s : State) (σ : Strand) (d : BitVec 5) (q : BitVec 3) (b : Binding) (regs : List Nat) (e : Nat → BitVec 512),
    let sh := vshapeOf σ.vr.vsh
    let n := sh.rows * sh.gs
    let x := (List.range' b.claimed (min n 16)).foldl Binding.wanted b
    AtIssue s σ (srcNames d.toNat sh.gs) → s.ch.fetchV σ d.toNat sh.gs = .ok regs → σ.binding? q.toNat = some b → b.claimed + n ≤ b.total →
    (b.expands = false → x = b) ∧
    (b.dir = .input → (∀ k, k < n → k < 16 → x.badAt (b.claimed + k) = none) →
      ((∀ k, k < n → k < 16 → x.entry? (b.claimed + k) = some (e k)) →
        (n ≤ 16 → ∃ t τ new b2, exec (.vpop d q 0) s = .next t ∧ VIssued s t σ τ new ∧ new.length = sh.gs ∧
          (∀ g r, g < sh.gs → r < 16 → bits (nth 0 new g).toNat (512 * r) 512 =
            if r < sh.rows then (e (g * sh.rows + r)).toNat else bits (nth 0 σ.vr.v (d.toNat + g)).toNat (512 * r) 512) ∧
          (∀ k, nth 0 τ.vr.v k = if d.toNat ≤ k ∧ k < d.toNat + sh.gs then nth 0 new (k - d.toNat) else nth 0 σ.vr.v k) ∧
          τ.binding? q.toNat = some b2 ∧ b2.claimed = b.claimed + n ∧ ∀ k, k < n → b2.entry? (b.claimed + k) = none) ∧
        (16 < n → ∃ t o τ, exec (.vpop d q 0) s = .next t ∧ t.mem = s.mem ∧ t.ch.ops = s.ch.ops ++ [o] ∧ o.instr = .vpop d q 0 ∧
          o.claims = [(q.toNat, b.claimed, n)] ∧ o.taken = (List.range 16).map (fun k => (k, e k)) ∧
          t.ch.strand? s.ch.turn.pos = some τ ∧ τ.v.blocked = some o.id ∧ τ.vr.v = σ.vr.v)) ∧
      ((∃ k, k < n ∧ k < 16 ∧ x.entry? (b.claimed + k) = none) → ∃ t τ, exec (.vpop d q 0) s = .next t ∧ t.mem = s.mem ∧
        t.ch.ops = s.ch.ops ∧ s.OthersKept t s.ch.turn.pos ∧ t.ch.strand? s.ch.turn.pos = some τ ∧ σ.SameRegs τ ∧ τ.v = σ.v ∧
        τ.binding? q.toNat = some x ∧ (x = b → t = s))) ∧
    (b.dir = .output →
      let rows := (List.range n).map fun k =>
        (b.claimed + k, BitVec.ofNat 512 (bits (nth 0 σ.vr.v (d.toNat + k / sh.rows)).toNat (512 * (k % sh.rows)) 512))
      (b.claimed + min n 16 ≤ b.pos + 16 → ∃ t τ b2, exec (.vpush d q 0) s = .next t ∧ t.mem = s.mem ∧
        t.ch.strand? s.ch.turn.pos = some τ ∧ τ.vr = σ.vr ∧ τ.binding? q.toNat = some b2 ∧ b2.claimed = b.claimed + n ∧
        (b.claimed + n ≤ b.pos + 16 → b2.queue = b.queue ++ rows ∧ t.ch.ops = s.ch.ops) ∧
        (b.pos + 16 < b.claimed + n → ∃ o, t.ch.ops = s.ch.ops ++ [o] ∧ o.instr = .vpush d q 0 ∧ o.claims = [(q.toNat, b.claimed, n)] ∧
          b2.queue ++ o.taken = b.queue ++ rows ∧ τ.v.blocked = some o.id)) ∧
      (b.pos + 16 < b.claimed + min n 16 → exec (.vpush d q 0) s = .next s))

/-! Events of operations, links and barriers. -/

/-- R109, R110, R104, R94: a command whose waited tokens have resolved, in this cycle or before, starts once its unit is free, or, with one
of them in error, ends in error with that cause and moves no byte, whether its unit is free or not. R106, R397: a command that stops short of its end
is held, takes a scoreboard entry and freezes its strand.
R39 to R41: a waiting access of the bench whose bit is as it waits for is performed, and a load of the swapping form leaves the granule
empty, a store leaves it full. -/
def Obligations.CommandEvents : Prop :=
  ∀ (s : State) (σ : Strand) (o : Op), s.ch.op? o.id = some o → s.ch.strand? o.pos = some σ → o.bar = none →
    ((engineOf o.instr).isSome = true → o.status = .issued → s.ch.mayBegin o = true → s.ch.engineLive o = true →
      let resolves (x : Option (BitVec 8)) : Prop := o.resolved = some x ∨ (o.resolved = none ∧ σ.resolved o = true ∧ σ.waitError o = x)
      (resolves none → s.ch.unitFree o = true → s.ch.moving (o.locs.flatMap fun l => l.segs) = false →
        s.Does (.commandStart o.id) fun t => t.mem = s.mem ∧ s.OthersKept t o.pos ∧
          (∃ p, t.ch.op? o.id = some p ∧ p.status = .started ∧ p.instr = o.instr ∧ p.locs = o.locs ∧ p.vals = o.vals) ∧
          ∃ τ, t.ch.strand? o.pos = some τ ∧ σ.SameRegs τ) ∧
      (∀ cause, resolves (some cause) → s.Does (.commandStart o.id) fun t => t.mem = s.mem ∧ s.OthersKept t o.pos ∧
        t.ch.op? o.id = none ∧ ∃ τ, t.ch.strand? o.pos = some τ ∧ σ.SameRegs τ ∧
          (o.prod ≠ 0 → (τ.token o.prod).st = 3 ∧ (τ.token o.prod).cause = cause))) ∧
    (∀ r, s.ch.progresses o = true → engineOf o.instr ≠ some .collective → performOp s o = .late (Eff.quiet s.ch) r → σ.inProgram →
      s.Does (.lateFault o.id) fun t => t.mem = s.mem ∧ s.OthersKept t o.pos ∧ (∃ p, t.ch.op? o.id = some p ∧ p.status = .held) ∧
        ∃ τ, t.ch.strand? o.pos = some τ ∧ σ.SameRegs τ ∧ τ.trap.phase = .frozen ∧ τ.trap.info.cause = r.cause ∧ τ.trap.info.kind = 1 ∧
          τ.trap.info.cluster = o.cl ∧ τ.trap.info.cycle = s.ch.cycle ∧ ∃ e ∈ τ.trap.score, e.op = o.id ∧ e.cause = r.cause) ∧
    (s.ch.progresses o = true → o.progress ≠ 0 → o.run.peer = none → o.run.size = 0 → o.run.cmp = false → o.run.len = 8 →
      s.ch.side.faulty = [] →
      (∀ d sgn q, q ≠ .plain → cForm o.instr = some (.load d 8 sgn q) → qualReady s.ch o true q = true →
        (d ≠ 0 → (⟨.s d, o.id⟩ : Busy) ∈ σ.busy) → s.Does (.fullEmptyRelease o.id) fun t => t.mem = s.mem ∧ s.OthersKept t o.pos ∧
          t.ch.op? o.id = none ∧
          (∀ g, t.ch.side.isFull g = if q = .fullSwap ∧ g = o.run.phys / 16 then false else s.ch.side.isFull g) ∧
          ∃ τ, t.ch.strand? o.pos = some τ ∧ τ.getS d = (if d = 0 then 0 else BitVec.ofNat 64 (memNat s.mem o.run.phys 8)) ∧ ∀ n, n ≠ d → τ.getS n = σ.getS n) ∧
      (∀ q, q ≠ .plain → cForm o.instr = some (.store 8 q) → qualReady s.ch o false q = true →
        s.Does (.fullEmptyRelease o.id) fun t => s.OthersKept t o.pos ∧ t.ch.op? o.id = none ∧
          (∀ g, t.ch.side.isFull g = if g = o.run.phys / 16 then true else s.ch.side.isFull g) ∧
          (∀ i, i < 8 → t.byte (o.run.phys + i) = BitVec.ofNat 8 ((nth 0 o.vals 0).toNat / 256 ^ i)) ∧
          (∀ a, a < o.run.phys ∨ o.run.phys + 8 ≤ a → t.byte a = s.byte a) ∧
          ∃ τ, t.ch.strand? o.pos = some τ ∧ τ.s = σ.s))

/-- R161, R301: a gather unit with room reads the elements of its next entry, applies the chain to each, and queues the packed entry. R163:
one with EXPAND queues the packed bytes themselves. R161, R305: a scatter unit writes its next pushed entry. R114, R115, R180, R264: at a
rendezvous, here of `nop`s, G, M and V take the scalars and descriptors that C has, a write of VMODE takes effect, and the word of each
cluster that has not ended issues. -/
def Obligations.StreamAndRendezvousEvents : Prop :=
  ∀ (s : State) (σ : Strand) (core slot : Nat) (q : BitVec 3), s.ch.strand? (4 * core + slot) = some σ →
    let pos := 4 * core + slot
    (∀ (b : Binding) (o : Op) (base : Nat), σ.binding? q.toNat = some b → s.ch.op? b.op = some o →
      s.ch.streamBase σ (iterBase b.iter) = some base → s.ch.mayBegin o = true → s.ch.coreMoves pos = true →
      s.ch.segFrozen (streamSeg base 0 1) = false →
      (∀ vs r, b.dir = .input → (∀ p ∈ s.ch.ops, p.pos = pos → p.wants = none) → s.ch.entryTurn base core = true →
        (b.pos < b.total → b.bad = none → b.expands = false → b.queue.length < 16 → b.skipped b.pos = false →
          let w := resultBits (chainSteps b.chain) b.iter
          let first := b.pos * perEntry w
          readElements o base b.iter (List.range' first (min (perEntry w) (iterTotal b.iter - first))) (Run.start s) = (vs, r, none) →
          s.Does (.streamGatherEntry core slot q) fun t => t.mem = s.mem ∧ s.OthersKept t pos ∧
            ∃ τ b2, t.ch.strand? pos = some τ ∧ σ.SameRegs τ ∧ τ.binding? q.toNat = some b2 ∧ b2.pos = b.pos + 1 ∧ b2.claimed = b.claimed ∧
              b2.queue = b.queue ++ [(b.pos, packEntry w (vs.map (chainApply (chainSteps b.chain) (iterType b.iter))))]) ∧
        (b.bytePos < iterTotal b.iter → b.stuck = none → b.expands = true → b.packed.length ≤ 960 →
          readElements o base b.iter (List.range' b.bytePos (min 64 (iterTotal b.iter - b.bytePos))) (Run.start s) = (vs, r, none) →
          s.Does (.streamGatherEntry core slot q) fun t => t.mem = s.mem ∧ s.OthersKept t pos ∧
            ∃ τ, t.ch.strand? pos = some τ ∧ σ.SameRegs τ ∧ τ.binding? q.toNat =
              some { b with packed := b.packed ++ vs.map (BitVec.ofNat 8), bytePos := b.bytePos + vs.length })) ∧
      (∀ e n r, b.dir = .output → o.status ≠ .held → b.skipped b.pos = false → b.entry? b.pos = some e →
        scatterEntry o base b.iter b.pos e b.bytePos (Run.start s) = (n, r, none) →
        s.Does (.streamScatterWrite core slot q) fun t => t.mem = memWriteAll s.mem r.writes ∧ s.OthersKept t pos ∧
          ∃ τ b2, t.ch.strand? pos = some τ ∧ σ.SameRegs τ ∧ τ.binding? q.toNat = some b2 ∧ b2.pos = b.pos + 1 ∧ b2.bytePos = 0 ∧
            b2.queue = b.queue.filter fun x => x.1 != b.pos)) ∧
    (s.rendezvousReady σ = true → (∀ k ∈ σ.live, s.chosen σ k = true ∧ s.ch.spentNow core k = false) →
      (∀ k ∈ σ.live, ∀ w, (σ.cl k).wordAt (σ.cl k).pc = some w → decodeWord k w = .ok .nop) →
      s.Does (.rendezvous core slot) fun t => t.mem = s.mem ∧ s.OthersKept t pos ∧ t.ch.ops = s.ch.ops ∧
        ∃ τ, t.ch.strand? pos = some τ ∧ σ.SameRegs τ ∧ τ.gr.snap = { s := σ.s, od := σ.od } ∧ τ.mr.snap = { s := σ.s, od := σ.od } ∧
          τ.vr.snap = { s := σ.s, od := σ.od } ∧ τ.vr.vmode = σ.vr.vmodeC.getD σ.vr.vmode ∧ τ.vr.vmodeC = none ∧
          ∀ k, τ.cl k = if k ∈ σ.live then (σ.cl k).issued 4 (wordHold (((σ.cl k).wordAt (σ.cl k).pc).getD 0)) false none else σ.cl k)

/-- R131: once every participant of an instance has arrived or ended the phase completes, and not before; over several packages this part of
the pod job first tells the others, and the phase completes once each of them has said so. R166, R167: what travels to one
end of a link arrives in order: a send that is the oldest stands in the slot of its number, with its tag, and the `xsend` is performed; a
permit that is the oldest reaches the sender and the `xgrant` is performed. R169: a failed link shows LERR at both ends and delivers nothing; a send
in flight ends in error 0x31. -/
def Obligations.LinkEvents : Prop :=
  ∀ (s : State) (job : BitVec 64) (link : BitVec 16) (far : Bool),
    (∀ scope site, let h := s.ch.hbar job scope site
      let due := h.arrived ≠ [] ∧ ∀ u ∈ s.ch.participants job scope site, u.ended = true ∨ h.hasArrived u.num = true
      (∀ j, s.ch.job? job = some j → due →
        (scope ≠ 4 ∨ j.podN ≤ 1 ∨ (s.ch.partArrived j.pod j.podIdx h.phase = true ∧ ∀ n, n < j.podN → s.ch.partArrived j.pod n h.phase = true) →
          s.Does (.hbarRelease job scope site) fun t => t.mem = s.mem ∧ t.ch.strands = s.ch.strands ∧ t.ch.ops = s.ch.ops ∧
            t.ch.hbar job scope site = { h with phase := h.phase + 1, arrived := [] } ∧
            ∀ sc si, sc ≠ scope ∨ si ≠ site → t.ch.hbar job sc si = s.ch.hbar job sc si) ∧
        (∀ n, scope = 4 → 1 < j.podN → s.ch.partArrived j.pod j.podIdx h.phase = false → s.ch.plat.pkgNum = some n →
          s.Does (.hbarRelease job scope site) fun t => t.mem = s.mem ∧ t.ch.strands = s.ch.strands ∧ t.ch.ops = s.ch.ops ∧
            t.ch.hbar job scope site = h ∧ t.ch.partArrived j.pod j.podIdx h.phase = true ∧
            t.ch.out = s.ch.out ++ [.arrived j.pod j.podIdx (some (h.phase + 1)) n]) ∧
        (∀ n, scope = 4 → 1 < j.podN → s.ch.partArrived j.pod j.podIdx h.phase = true → n < j.podN →
          s.ch.partArrived j.pod n h.phase = false → exec (.hbarRelease job scope site) s = .next s)) ∧
      (¬ due → exec (.hbarRelease job scope site) s = .next s)) ∧
    (∀ l tag bytes op rest, s.ch.endOf job link far = some l → l.lerr = false → l.placed = true → l.arriving = .send tag bytes op :: rest →
      (l.toPeer && far) = false → s.ch.segFrozen (streamSeg (slotAt l (l.slotOf tag)) 0 1) = false → s.ch.senderMoves op = true →
      (∀ n o, op = some n → s.ch.op? n = some o → o.bar = none) →
      s.Does (.xsendDelivery job link far) fun t =>
        (∀ i, i < bytes.length → t.byte (slotAt l (l.slotOf tag) + i) = nth 0 bytes i) ∧
        (∀ a, a < slotAt l (l.slotOf tag) ∨ slotAt l (l.slotOf tag) + bytes.length ≤ a → t.byte a = s.byte a) ∧
        (∃ l2, t.ch.endOf job link far = some l2 ∧ l2.arriving = rest ∧ l2.tagAt (l.slotOf tag) = some (tag, bytes.length) ∧
          l2.full = l.full ∧ l2.permits = l.permits ∧ l2.txseq = l.txseq ∧ l2.rxseq = l.rxseq) ∧
        ∀ n, op = some n → t.ch.op? n = none) ∧
    (∀ l op rest, s.ch.endOf job link far = some l → l.lerr = false → l.arriving = .permit op :: rest → s.ch.senderMoves op = true →
      (∀ n o, op = some n → s.ch.op? n = some o → o.bar = none) →
      exec (.xsendDelivery job link far) s = .next s ∧
      s.Does (.permitReturn job link far) fun t => t.mem = s.mem ∧
        (∃ l2, t.ch.endOf job link far = some l2 ∧ l2.permits = l.permits + 1 ∧ l2.arriving = rest ∧ l2.full = l.full ∧
          l2.txseq = l.txseq ∧ l2.rxseq = l.rxseq) ∧
        ∀ n, op = some n → t.ch.op? n = none) ∧
    (let cut : LinkEnd → LinkEnd := fun l => if l.link = link then { l with lerr := true, arriving := [] } else l;
      ((∀ o ∈ s.ch.ops, s.ch.linkOfOp o = none) →
        exec (.linkFailure link) s = .next { s with ch := { s.ch with links := s.ch.links.map cut } }) ∧
      (∀ o σ k q n p l, s.ch.ops = [o] → o.instr = .xsend k q n p → o.status = .sent → o.bar = none → o.prod ≠ 0 →
        s.ch.coreMoves o.pos = true → s.ch.strand? o.pos = some σ → s.ch.linkOfOp o = some l → l.link = link →
        s.Does (.linkFailure link) fun t => t.mem = s.mem ∧ t.ch.links = s.ch.links.map cut ∧ t.ch.ops = [] ∧
          ∃ τ, t.ch.strand? o.pos = some τ ∧ σ.SameRegs τ ∧ (τ.token o.prod).st = 3 ∧ (τ.token o.prod).cause = 0x31))

/-! Traps, saves and kills. -/

/-- R391, R394 to R396: at the end of a fault freeze the strand's frame stands in its context area: the cause and KIND of its fault, the
return points, its scalar registers; no register changes. R393: the freeze record in the area of every strand that faulted in it is the one
captured in the freeze's first cycle, with the slot and the cause of every fault of the freeze in bytes 8 to 15. R389, R391: the handler is
entered at its word 0 in privileged mode, with every register as it was; that the frame is written again as the handler is entered is log
entry 45. R400: an expired watchdog traps with 0x3C, forces the save that is pending, or in privileged mode kills the job; during a save
it does nothing. That it joins a trap that is being taken, and that G, M and V do not expire in the handler, is log entry 29.
R48: at the end of a correction freeze the core goes on. -/
def Obligations.TrapEvents : Prop :=
  ∀ (s : State) (σ : Strand) (core slot : Nat) (cl : Cluster), s.ch.strand? (4 * core + slot) = some σ →
    let pos := 4 * core + slot
    let area := ctxArea pos
    let first := (s.ch.core core).record
    let record := if first = [] then freezeRecord s core else first.take 8 ++ leBytes 8 (freezeCauses s.ch core) ++ first.drop 16
    let hit := s.ch.strands.filter fun τ =>
      coreOf τ.pos == core && (τ.trap.phase == .frozen || (s.ch.core core).faults.any fun f => f.slot == τ.pos % 4)
    let writes := frameWrites s (σ.suspend (s.ch.core core).latch) area σ.trap.info (trapFlags σ)
      ++ hit.map fun τ => (ctxArea τ.pos + 0x13000, record)
    ((s.ch.strands.filter fun τ => coreOf τ.pos == core && τ.trap.phase == .frozen) = [σ] → (s.ch.core core).freeze = 0 → σ.s.length = 32 →
      first = [] ∨ first.length = 1024 → s.Does (.faultFreezeEnd core) fun t => s.OthersKept t pos ∧ t.ch.ops = s.ch.ops ∧ (t.ch.core core).faults = [] ∧
        (∃ τ, t.ch.strand? pos = some τ ∧ σ.SameRegs τ ∧ τ.trap.phase = .framed ∧ τ.trap.info = σ.trap.info) ∧
        memNat t.mem area 1 = σ.trap.info.cause.toNat ∧ memNat t.mem (area + 1) 1 = σ.trap.info.kind.toNat ∧
        (∀ k, memNat t.mem (area + 0x40 + 8 * clNum k) 8 = s.ch.returnPoint (σ.cl k) % 2 ^ 64) ∧
        (∀ n, 0 < n → n < 32 → memNat t.mem (area + 0x300 + 8 * n) 8 = (σ.getS n).toNat) ∧
        (first.length = 1024 → ∀ τ ∈ hit, let at_ := ctxArea τ.pos + 0x13000
          (∀ i, i < 8 ∨ 16 ≤ i → i < 1024 → t.byte (at_ + i) = nth 0 first i) ∧
          (((s.ch.core core).faults.map Noted.slot).Nodup → (∀ f ∈ (s.ch.core core).faults, f.slot < 4) → ∀ f ∈ (s.ch.core core).faults,
            (memNat t.mem (at_ + 8) 8).testBit f.slot = true ∧
            memNat t.mem (at_ + 8) 8 / 2 ^ (8 * f.slot + 8) % 256 = f.cause.toNat)) ∧
        ∀ a, (∀ w ∈ writes, a < w.1 ∨ w.1 + w.2.length ≤ a) → t.byte a = s.byte a) ∧
    (σ.trap.phase = .framed → s.ch.killing σ.who.job = false → (∀ o ∈ s.ch.ops, o.pos = pos → s.atRest o = true) →
      s.Does (.trapHandlerEntry core slot) fun t => s.OthersKept t pos ∧
        (∃ τ, t.ch.strand? pos = some τ ∧ σ.SameRegs τ ∧ τ.privileged = true ∧ τ.c.pc = 0 ∧ τ.c.image = Config.handler (dieOf core) ∧
          τ.c.loops = [] ∧ τ.c.ended = false ∧ τ.c.streams = σ.c.streams ∧ τ.trap.info = σ.trap.info ∧
          τ.trap.savedC = some { σ.c with stall := 0, wait := 0 } ∧ τ.g = σ.g ∧ τ.m = σ.m ∧ τ.v = σ.v) ∧
        memNat t.mem area 1 = σ.trap.info.cause.toNat ∧
        ∀ a, a < area → t.byte a = s.byte a) ∧
    (σ.expired cl = true → s.ch.killing σ.who.job = false →
      (σ.inProgram → σ.trap.pend = false → s.Does (.watchdogExpiry core slot cl) fun t => t.mem = s.mem ∧ s.OthersKept t pos ∧
        t.ch.ops = s.ch.ops ∧ ∃ τ, t.ch.strand? pos = some τ ∧ σ.SameRegs τ ∧ τ.trap.phase = .frozen ∧ τ.trap.info.cause = 0x3C ∧
          τ.trap.info.kind = 6 ∧ τ.trap.info.cluster = cl) ∧
      (σ.inProgram → σ.trap.pend = true → s.Does (.watchdogExpiry core slot cl) fun t => t.mem = s.mem ∧ s.OthersKept t pos ∧
        t.ch.ops = s.ch.ops ∧ ∃ τ, t.ch.strand? pos = some τ ∧ σ.SameRegs τ ∧ τ.trap.phase = .saving ∧ τ.trap.forced = true ∧
          τ.trap.saveStart = some s.ch.cycle) ∧
      (σ.trap.phase = .framed → s.Does (.watchdogExpiry core slot cl) fun t => t.mem = s.mem ∧ s.OthersKept t pos ∧ t.ch.ops = s.ch.ops ∧
        (t.ch.core (coreOf pos)).faults ≠ [] ∧ ∃ τ, t.ch.strand? pos = some τ ∧ σ.SameRegs τ ∧ τ.trap = σ.trap) ∧
      (σ.trap.phase = .saving ∨ (σ.privileged = true ∧ cl ≠ .c) → exec (.watchdogExpiry core slot cl) s = .next s) ∧
      (∀ j, σ.privileged = true → cl = .c → s.ch.job? σ.who.job = some j → s.Does (.watchdogExpiry core slot cl) fun t =>
        t.ch.job? σ.who.job = some { j with killStep := 1, killFlags := 4 } ∧ s.OthersKept t pos)) ∧
    ((s.ch.core core).corr = 1 → s.Does (.correctionFreezeEnd core) fun t => t.mem = s.mem ∧ t.ch.strands = s.ch.strands ∧
      t.ch.ops = s.ch.ops ∧ (t.ch.core core).corr = 0 ∧ ∀ n, n ≠ core → t.ch.core n = s.ch.core n)

/-- R193, R401: a request sets PEND for the strands of the unit's group that run their program; with every cluster at a pre-emption
point the save begins; once no operation is in flight the frame is written, a copy of the context area goes to a frame of memory the curator
sets aside (the choice of the frame is log entry 33), and the slot is free. With the last strand of a unit its windows are saved, page by
page of 2 MiB, and the unit is placed no more; without frames for them the save waits, and nothing has changed (log entry 49). R402: a save
that is late makes the others of its core be saved by force, and when only late ones remain the core is reset and their jobs are killed.
R403: a saved unit of one strand goes on in a free slot with its registers, once nothing comes before it in the placement order, or waits;
one that no core of its die could hold is refused. The lowest free slot is log entry 36. -/
def Obligations.SaveEvents : Prop :=
  ∀ (s : State) (job : BitVec 64) (unit : BitVec 24) (u : UnitRec), s.ch.unit? job unit = some u →
    (s.Does (.preemptRequest job unit) fun t => t.mem = s.mem ∧ t.ch.ops = s.ch.ops ∧ ∀ p σ, s.ch.strand? p = some σ →
      ∃ τ, t.ch.strand? p = some τ ∧ σ.SameRegs τ ∧
        let hit := σ.who.job = job ∧ ∃ w ∈ s.ch.groupOf u, w.num = σ.who.unit
        let held := σ.privileged = true ∨ s.ch.migrates (quadOfPos p) = true
        (hit → held → τ.trap.asked = true ∧ τ.trap.pend = σ.trap.pend) ∧ (hit → ¬ held → τ.trap.pend = true) ∧ (¬ hit → τ = σ)) ∧
    (∀ (core slot : Nat) (σ : Strand), s.ch.strand? (4 * core + slot) = some σ → s.ch.killing σ.who.job = false →
      let pos := 4 * core + slot
      (σ.inProgram → σ.trap.pend = true → s.ch.coreHeld core = false → (∀ k, σ.atPoint k = true) → σ.live ≠ [] →
        s.Does (.saveStart core slot) fun t => t.mem = s.mem ∧ s.OthersKept t pos ∧ t.ch.ops = s.ch.ops ∧
          ∃ τ, t.ch.strand? pos = some τ ∧ σ.SameRegs τ ∧ τ.trap.phase = .saving ∧ τ.trap.forced = false ∧
            τ.trap.saveStart = some s.ch.cycle) ∧
      (∀ area, σ.trap.phase = .saving → s.ch.coreMoves pos = true → s.ch.migrates (quadOf core) = false → (∀ o ∈ s.ch.ops, o.pos ≠ pos) →
        memWf s.mem = true → core < 2048 → slot < 4 → freeFrame s (dieOf core) [] = some area →
        let kept := σ.asSaved (s.ch.core core).latch
        let frame := frameWrites s kept (ctxArea pos) (saveInfo σ.trap.forced s.ch.cycle) (saveFlags σ)
        let t2 := s.saveStrand core slot area σ
        (t2.ch.strand? pos = none ∧ s.OthersKept t2 pos ∧ t2.ch.ops = s.ch.ops ∧ memNat t2.mem (ctxArea pos) 1 = 0x3E ∧
          (∀ i, i < 0x24000 → t2.byte (area + i) = t2.byte (ctxArea pos + i)) ∧
          (∀ a, (∀ w ∈ frame, a < w.1 ∨ w.1 + w.2.length ≤ a) → a < area ∨ area + 0x24000 ≤ a → t2.byte a = s.byte a) ∧
          ∃ v ∈ t2.ch.saved, v.strand = kept ∧ v.ops = [] ∧ v.area = area) ∧
        (∀ w, s.ch.unitOf? σ = some w → exec (.saveWrite core slot) s = .next ((t2.leaveQuad w).getD s)) ∧
        (∀ w, s.ch.unitOf? σ = some w → w.ended = false →
          (∃ τ ∈ s.ch.strands, τ.pos ≠ pos ∧ τ.who.job = σ.who.job ∧ τ.who.unit = σ.who.unit) → exec (.saveWrite core slot) s = .next t2) ∧
        (∀ w t3, s.ch.unitOf? σ = some w → s.ch.groupOf w = [w] → w.placed = true → w.core = core → w.live ≠ [] →
          (∀ τ ∈ s.ch.strands, τ.pos ≠ pos → τ.who.job = w.job → τ.who.unit ≠ w.num) →
          (∀ v ∈ s.ch.saved, v.strand.who.job = w.job → v.strand.who.unit ≠ w.num) → t2.leaveQuad w = some t3 →
          t3.ch.strands = t2.ch.strands ∧ t3.ch.ops = s.ch.ops ∧
          (∃ x, t3.ch.unit? w.job w.num = some x ∧ x.saved = true ∧ x.placed = false) ∧
          ∃ v ∈ t3.ch.saved, v.strand = kept ∧ v.ops = [] ∧ v.area = area ∧ ∃ fs, (1, 0, w.benchSize, fs) ∈ v.windows ∧
            ∀ i, i < w.benchSize → t3.byte (nth 0 fs (i / 0x200000) + i % 0x200000) = t2.byte (benchAt core + w.benchBase + i))) ∧
      (σ.saveLate s.ch.cycle = true → s.ch.migrates (quadOf core) = false →
        (∀ p τ, s.ch.strand? p = some τ → coreOf p = core → τ.saveLate s.ch.cycle = false → τ.inProgram →
          s.Does (.saveTimeout core slot) fun t => t.mem = s.mem ∧ t.ch.ops = s.ch.ops ∧
            ∃ x, t.ch.strand? p = some x ∧ τ.SameRegs x ∧ x.trap.phase = .saving ∧ x.trap.forced = true ∧
              x.trap.saveStart = some s.ch.cycle) ∧
        (∀ j, (∀ τ ∈ s.ch.strands, coreOf τ.pos = core → τ.saveLate s.ch.cycle = true) → s.ch.job? σ.who.job = some j → slot < 4 →
          s.Does (.saveTimeout core slot) fun t => t.ch.job? σ.who.job = some { j with killStep := 1, killFlags := 2 } ∧
            t.ch.ops = s.ch.ops.filter (fun o => coreOf o.pos != core) ∧ (t.ch.core core).bucket = { owner := none, t := 0, left := 0 } ∧
            ∀ i, i < 65536 → t.byte (bucketAt core + i) = 0))) ∧
    (∀ j : Job, s.ch.job? job = some j → s.ch.plat.run = true → s.ch.killing job = false → s.ch.groupOf u = [u] → s.ch.allSaved u = true →
      let die := bits u.quadpos.toNat 20 3
      let s1 : State := { s with ch := s.ch.askRestore [u] }
      (j.fitsEmpty die = false → s.Does (.restore job unit) fun t => t.mem = s.mem ∧
        t.ch.job? job = some { j with status := 0x03, killStep := 1, killFlags := 0 }) ∧
      (j.fitsEmpty die = true → s1.ch.holdsRestore j u die = true ∨ s1.ch.placeSaved j die [u] = none →
        exec (.restore job unit) s = .next s1) ∧
      (∀ (v : Saved) (core slot : Nat) (rest : List Nat) (r : Room), j.fitsEmpty die = true → s1.ch.holdsRestore j u die = false →
        s.ch.savedOf u = [v] → v.ops = [] → v.bucket = none → u.live = [v.strand.who.strand] → s.ch.entryDue (quadOf core) 1 = false →
        s1.ch.placeSaved j die [u] = some [(u, core)] → s1.ch.room { j with nstr := 1 } core = some r → s.ch.freeSlots core = slot :: rest →
        s.Does (.restore job unit) fun t => t.ch.savedOf u = [] ∧
          (∀ p σ, p ≠ 4 * core + slot → s.ch.strand? p = some σ → ∃ τ, t.ch.strand? p = some τ ∧ σ.SameRegs τ) ∧
          (∃ w, t.ch.unit? job unit = some w ∧ w.core = core ∧ w.placed = true ∧ w.saved = false ∧ w.restoring = false ∧
            w.benchBase = r.bench ∧ w.accBase = r.acc) ∧
          ∃ τ, t.ch.strand? (4 * core + slot) = some τ ∧ v.strand.SameRegs τ ∧ τ.who = v.strand.who ∧ τ.inProgram ∧ τ.trap.pend = false))

/-- R404, R405: a host that owns the package, or any when none does, kills a job: its queued commands are cancelled and counted, while no
migration moves its quad. Once nothing of it is in flight and no request of it waits, its operations end and the delivery contexts it opened
close; then the certificate is
written, vector 0 is raised, and nothing of the job is left. R410: a port that does not own the package has its write dropped and
counted. That any port is heard while none owns is log entry 7; that the cancellation waits for a migration is log entry 65. -/
def Obligations.KillEvents : Prop :=
  ∀ (s : State) (port : BitVec 3) (job : BitVec 64) (j : Job), s.ch.job? job = some j →
    (s.ch.hears port → j.killStep = 0 → s.Does (.jobkill port job) fun t =>
      (s.ch.killWaits job = true → t.mem = s.mem ∧ t.ch.ops = s.ch.ops ∧ t.ch.job? job = some { j with killStep := 1, killFlags := 8 }) ∧
      (s.ch.killWaits job = false → t.ch.job? job =
          some { j with killStep := 2, killFlags := 8, cancelled := j.cancelled + (s.ch.ops.filter fun o => o.job == job && o.queuedCommand).length } ∧
        (∀ o ∈ t.ch.ops, o.job = job → o.queuedCommand = false) ∧
        (∀ o ∈ s.ch.ops, (∀ p ∈ s.ch.ops, p.job = job → p.id ≠ o.id) → ∃ p ∈ t.ch.ops, p.id = o.id) ∧
        ((∀ o ∈ s.ch.ops, o.job = job → o.status ≠ .held) → t.mem = s.mem))) ∧
    (s.ch.served = true → s.ch.hostPort port = true → s.ch.mayWrite port = false →
      exec (.jobkill port job) s = .next { s with ch := s.ch.dropWrite }) ∧
    (j.killStep = 2 → (∀ o ∈ s.ch.ops, o.job = job → s.inFlight o = false) → (∀ e ∈ s.ch.xl.egress, e.job ≠ job) →
      s.Does (.killDrained job) fun t => t.mem = s.mem ∧
      t.ch.ops = s.ch.ops.filter (fun o => o.job != job) ∧ t.ch.strands = s.ch.strands ∧ t.ch.job? job = some { j with killStep := 3 } ∧
      ∀ x ∈ t.ch.plat.ctxs, x.sender = true → x.closed = false → x.job = some job → x.closing = true) ∧
    (j.killStep = 3 → (∀ x ∈ s.ch.plat.ctxs, x.closing = true → x.closed = false → x.job ≠ some job) → s.endHeld j = false →
      s.ch.plat.pending = 0 → s.Does (.killCertificate job) fun t =>
        t.ch.plat.certs.getLast? = some (drainBytes j s.ch.cycle (s.ch.diesOf job)) ∧ t.ch.plat.certCount = s.ch.plat.certCount + 1 ∧
        Output.irq none 0 ∈ t.ch.out ∧ t.ch.job? job = none ∧ (∀ τ ∈ t.ch.strands, τ.who.job ≠ job) ∧ ∀ w ∈ t.ch.units, w.job ≠ job)

/-! Pages, the load-store domain and delivery. -/

/-- R81: a walk that met HOLD reads its entry again 256 cycles after it last did, and waits 256 more or goes on. R77: an invalidation
with no operation and no request left that translated through it drops the stale TLB entries and, where asked, the cache lines of its
range, and its frames read zero: that a freed frame holds zeros is log entry 33. R80: a curator that runs holds a page, invalidates it,
copies it to a free frame of the die it goes to (the lowest, log entry 33, set aside whole, log entry 57), and points its leaf there with
HOLD clear; the old frame is free. -/
def Obligations.PageEvents : Prop :=
  ∀ s : State,
    (∀ n w, s.ch.xl.walks.find? (fun x => x.id == n) = some w → s.ch.walkDue w = true →
      (isHeld (s.rewalk w) = false → s.Does (.walkComplete n) fun t => t.mem = s.mem ∧ t.ch.strands = s.ch.strands ∧
        t.ch.xl.walks = s.ch.xl.walks.filter fun x => x.id != n) ∧
      (isHeld (s.rewalk w) = true → s.Does (.holdRetry n) fun t => t.mem = s.mem ∧ t.ch.strands = s.ch.strands ∧
        t.ch.xl.walks = s.ch.xl.walks.map fun x => if x.id = n then { x with since := s.ch.cycle } else x)) ∧
    (∀ n v, s.ch.xl.invals.find? (fun x => x.id == n) = some v → (∀ k ∈ v.ops, s.ch.op? k.1 = none) →
      (∀ e ∈ s.ch.xl.egress, ∀ k ∈ v.ops, e.op ≠ k.1) → v.queue = none → s.Does (.invalComplete n) fun t => t.ch.xl.invals = s.ch.xl.invals.filter (fun x => x.id != n) ∧
        (∀ x ∈ t.ch.xl.tlbs, ¬(x.stale = true ∧ x.job ∈ v.jobs ∧ inRange v.va v.pages x.page x.size = true)) ∧
        (v.drop = true → ∀ l ∈ t.ch.xl.lines, ¬(l.job ∈ v.jobs ∧ inRange v.va v.pages (128 * l.va) 128 = true)) ∧
        (∀ f ∈ t.ch.xl.frames, f ∉ v.frames) ∧ (∀ f ∈ v.frames, ∀ i, i < 65536 → t.byte (f * 65536 + i) = 0) ∧
        ∀ a, a / 65536 ∉ v.frames → t.byte a = s.byte a) ∧
    (∀ asr (va : BitVec 56) die root at_ size dst, asrRoot s.mem asr = some root → leafPlace s.mem root va.toNat = some (at_, size) →
      leafValid (leafOf s.mem at_) size = true → leafPeer (leafOf s.mem at_) = 0xFFF → leafHold (leafOf s.mem at_) = false →
      (∀ m ∈ s.ch.xl.motions, ¬(m.asHome = true ∧ m.leafAt = at_)) → die < 8 → freeFrame s die [] = some dst → s.ch.plat.curators = true →
      s.Does (.pageMove asr va die) fun t => leafOf t.mem at_ = leafOf s.mem at_ ||| 32 ∧
        (∀ a, a < at_ ∨ at_ + 8 ≤ a → t.byte a = s.byte a) ∧ (∀ f ∈ frameList dst size, f ∈ t.ch.xl.frames) ∧
        (∃ m ∈ t.ch.xl.motions, m.leafAt = at_ ∧ m.dst = dst ∧ m.phase = 4 ∧ m.va = va.toNat / size * size ∧ m.size = size) ∧
        ∃ v ∈ t.ch.xl.invals, v.va = va.toNat / size * size ∧ v.pages = size / 65536 ∧ v.drop = true ∧ v.queue = none) ∧
    (∀ asr (va : BitVec 56) m, s.ch.xl.motions.find? (fun m => m.phase == 4 && m.asr == asr && decide (m.va ≤ va.toNat ∧ va.toNat < m.va + m.size))
        = some m → s.ch.plat.curators = true → s.ch.invalDone m.leafAt = true → leafCmp (leafOf s.mem m.leafAt) = false →
      let src := leafFrame (leafOf s.mem m.leafAt)
      (m.leafAt + 8 ≤ m.dst ∨ m.dst + m.size ≤ m.leafAt) → (src + m.size ≤ m.dst ∨ m.dst + m.size ≤ src) →
      s.Does (.pageMoveFinish asr va) fun t => (∀ i, i < m.size → t.byte (m.dst + i) = s.byte (src + i)) ∧
        memNat t.mem m.leafAt 8 = mkLeaf 0xFFF (leafMode (leafOf s.mem m.leafAt)) m.dst false (leafPerms (leafOf s.mem m.leafAt)) false % 2 ^ 64 ∧
        (∀ f ∈ t.ch.xl.frames, f ∉ frameList src m.size) ∧ t.ch.xl.motions = s.ch.xl.motions.filter fun x => x != m)

/-- R65: a home performs a request with the tables of its pod job, or answers with the fault, or with the page's new home (R84), or keeps it
while its page is held; at the requester the answer to a load stands in its register. R84: a moved response sends the request to the
new home. R83: a home holds and invalidates a page it is asked for and refuses one that is held; the requester puts the copy into the
frame set aside when it asked, points its leaf to it and tells the old home; the old home points its leaf there; a refusal frees that
frame and lets the counting begin again. The form of a response is log entry 56, the permissions of H's leaf and the frame set aside are
log entry 57, and the choice of a frame is log entry 33. -/
def Obligations.FabricEvents : Prop :=
  ∀ (s : State) (pod : BitVec 32) (va : BitVec 56) (pkg : BitVec 12), s.ch.plat.pkgNum.isSome = true →
    (∀ req, s.ch.headCtx req = none →
      (∀ data e, homeServe s req = .ok data e → s.Does (.homeRequest req) fun t => t.mem = (s.commit e).mem ∧
        t.ch.out = ((s.commit e).homeSeen req).ch.out ++ [.response req.pkg 0 data]) ∧
      (∀ cause qual, homeServe s req = .err cause qual → s.Does (.homeRequest req) fun t => t.mem = s.mem ∧
        t.ch.out = (s.homeSeen req).ch.out ++ [.response req.pkg cause [qual]]) ∧
      (∀ home, homeServe s req = .moved home → s.Does (.homeRequest req) fun t => t.mem = s.mem ∧
        t.ch.out = (s.homeSeen req).ch.out ++ [.moved req.pkg home req.va]) ∧
      (homeServe s req = .hold → s.Does (.homeRequest req) fun t => t.mem = s.mem ∧ t.ch.out = s.ch.out ∧ req ∈ t.ch.xl.homeWait)) ∧
    (∀ n (e : Egress) (o : Op) (σ : Strand) d w sgn data, s.ch.xl.egress.find? (fun x => x.op == n) = some e → s.ch.op? n = some o →
      s.ch.answerHeld n = false → s.ch.strand? o.pos = some σ → cForm o.instr = some (.load d w sgn .plain) → o.bar = none → o.run.cacheable = false →
      (d ≠ 0 → (⟨.s d, o.id⟩ : Busy) ∈ σ.busy) → s.Does (.peerResponse n 0 data) fun t => t.mem = s.mem ∧ t.ch.op? n = none ∧
        s.OthersKept t o.pos ∧ ∃ τ, t.ch.strand? o.pos = some τ ∧ τ.getS d = (if d = 0 then 0 else extend w sgn (leNat data)) ∧
          ∀ k, k ≠ d → τ.getS k = σ.getS k) ∧
    (∀ n (e : Egress) (o : Op) (j : Job) far, s.ch.xl.egress.find? (fun x => x.op == n) = some e → s.ch.op? n = some o →
      s.ch.answerHeld n = false → s.ch.job? o.job = some j → s.ch.plat.pkgNum ≠ some pkg →
      let s1 := s.pointLeaf j.root e.req.va.toNat pkg
      homeAt s1 j.root e.req = .moved far → s1.ch.reachable far = true → s1.ch.ctxRoom far e.req.pod = true →
      s.Does (.movedResponse n pkg) fun t => t.mem = s1.mem ∧ (∃ x ∈ t.ch.xl.egress, x.op = n ∧ x.pkg = pkg ∧ x.req = e.req ∧ x.answered = false) ∧
        ∃ ep sq g, t.ch.out = s1.ch.out ++ [.packet far ep sq g e.req]) ∧
    (∀ j at_ size, s.ch.plat.curators = true → s.podLeaf pod va.toNat = some (j, at_, size) → let l := leafOf s.mem at_
      (leafValid l size = true → leafPeer l = 0xFFF → leafHold l = false → (∀ m ∈ s.ch.xl.motions, ¬(m.asHome = true ∧ m.leafAt = at_)) →
        s.Does (.migrateAsk pod va pkg) fun t => leafOf t.mem at_ = l ||| 32 ∧ (∀ a, a < at_ ∨ at_ + 8 ≤ a → t.byte a = s.byte a) ∧
          (∃ m ∈ t.ch.xl.motions, m.asHome = true ∧ m.phase = 2 ∧ m.pkg = pkg ∧ m.pod = pod ∧ m.leafAt = at_) ∧
          ∃ v ∈ t.ch.xl.invals, v.va = va.toNat / size * size ∧ v.pages = size / 65536 ∧ v.queue = none ∧ v.drop = true) ∧
      (leafHold l = true → s.Does (.migrateAsk pod va pkg) fun t => t.mem = s.mem ∧ t.ch.out = s.ch.out ++ [.message pkg pod 2 va]) ∧
      (∀ leaf data dst, leafValid l size = true → leafPeer l ≠ 0xFFF → leafCmp leaf = false →
        let page := va.toNat / size * size
        let asked := s.ch.xl.motions.find? fun m => !m.asHome && m.pod == pod && decide (page ≤ m.va ∧ m.va < page + size)
        ((∃ m, asked = some m ∧ m.phase = 1 ∧ m.size = size ∧ m.dst = dst) ∨
          (∀ m, asked = some m → ¬(m.phase = 1 ∧ m.size = size)) ∧ (classDies j.klass).findSome? (fun d => freeFrame s d []) = some dst) →
        (at_ + 8 ≤ dst ∨ dst + size ≤ at_) →
        s.Does (.migrateNewHome pod va leaf data) fun t => (∀ i, i < size → i < data.length → t.byte (dst + i) = nth 0 data i) ∧
          memNat t.mem at_ 8 = mkLeaf 0xFFF 3 dst false (leafPerms leaf) false % 2 ^ 64 ∧ (∀ f ∈ frameList dst size, f ∈ t.ch.xl.frames) ∧
          (∃ home, Output.message home pod 3 va ∈ t.ch.out) ∧
          ∃ v ∈ t.ch.xl.invals, v.va = va.toNat / size * size ∧ v.pages = size / 65536 ∧ v.queue = none ∧ v.drop = true)) ∧
    (∀ m, s.ch.xl.motions.find? (fun m => m.asHome && m.phase == 3 && m.pod == pod && decide (m.va ≤ va.toNat ∧ va.toNat < m.va + m.size))
        = some m → s.ch.plat.curators = true → let l := leafOf s.mem m.leafAt
      s.Does (.migrateRelease pod va) fun t => memNat t.mem m.leafAt 8 = mkLeaf m.pkg.toNat 3 0 (leafCmp l) (leafPerms l) false % 2 ^ 64 ∧
        (∀ a, a < m.leafAt ∨ m.leafAt + 8 ≤ a → t.byte a = s.byte a) ∧ t.ch.xl.motions = s.ch.xl.motions.filter (fun x => x != m) ∧
        ∃ v ∈ t.ch.xl.invals, v.va = m.va ∧ v.pages = m.size / 65536 ∧ v.frames = frameList (leafFrame l) m.size) ∧
    (∀ m, s.ch.xl.motions.find? (fun m => !m.asHome && m.pod == pod && m.va / 65536 == va.toNat / 65536) = some m → s.ch.plat.curators = true →
      s.Does (.migrationRefused pod va) fun t => t.mem = s.mem ∧ t.ch.xl.motions = s.ch.xl.motions.filter (fun x => x != m) ∧
        (m.phase = 1 → ∀ f ∈ t.ch.xl.frames, f ∉ frameList m.dst m.size) ∧
        ∀ k ∈ t.ch.xl.counters, k.job = m.job → k.page = m.va / 65536 → k.count = 0)

/-- R415: a packet of a newer epoch opens a context at the home; one that came early is kept, the next in order is performed and
acknowledged, a duplicate is acknowledged again, and CLOSE closes the context. At the sender an acknowledgement is cumulative, a packet
not acknowledged within 2 µs is sent again, eight times before the context fails, and an idle context closes. R404, R405: a context that
is not closed in time at a kill, or that fails while it is to be closed, is abandoned, which the kill flags of its job record, bit 4, from
which FLAGS bit 0 of the certificate is made. That a packet that came early is kept, and what an end may still do in a context that closes,
is log entry 55. -/
def Obligations.DeliveryEvents : Prop :=
  ∀ s : State, s.ch.plat.pkgNum.isSome = true →
    (∀ (ep : BitVec 32) (sq : BitVec 16) (req : PeerReq),
      (∀ x ∈ s.ch.plat.ctxs, x.sender = false → x.closed = false → x.pkg = req.pkg → x.pod = req.pod → x.epoch ≠ ep) →
      (s.ch.lastEpoch req.pkg).1 < ep.toNat → (s.ch.plat.ctxs.filter fun x => !x.closed).length < 4096 → 1 < sq.toNat → sq.toNat ≤ 32768 →
      s.Does (.deliveryPacket ep sq req) fun t => t.mem = s.mem ∧ t.ch.out = s.ch.out ∧ ∃ y ∈ t.ch.plat.ctxs, y.sender = false ∧
        y.closed = false ∧ y.pkg = req.pkg ∧ y.pod = req.pod ∧ y.epoch = ep ∧ y.next = 1 ∧ y.window = [(sq, req, s.ch.cycle, 0)]) ∧
    (∀ (n : Nat) (x : Ctx), s.ch.ctxById n = some x → (∀ z ∈ s.ch.plat.ctxs, z.id = n → z = x) →
      let put (y : Ctx) : List Ctx := s.ch.plat.ctxs.map fun z => if z.id = n then y else z
      let done (i : Instr) (os : List Output) (y : Ctx) : Prop :=
        s.Does i fun t => t.mem = s.mem ∧ t.ch.out = s.ch.out ++ os ∧ t.ch.plat.ctxs = put y
      (∀ ep req, s.ch.plat.ctxs.find? (fun x => !x.sender && !x.closed && x.pkg == req.pkg && x.pod == req.pod && x.epoch == ep) = some x →
        (∀ sq, x.performed sq = true →
          done (.deliveryPacket ep sq req) [.ack x.pkg x.epoch (x.next - 1)] { x with ackAt := s.ch.cycle }) ∧
        (∀ sq, x.performed sq = false → sq ≠ x.next → x.window = [] →
          done (.deliveryPacket ep sq req) [] { x with window := [(sq, req, s.ch.cycle, 0)] }) ∧
        (∀ data e, x.window = [] →
          let s1 := s.setPlat fun p => { p with ctxs := put { x with window := [(x.next, req, s.ch.cycle, 0)] } }
          homeServe s1 req = .ok data e → s.Does (.deliveryPacket ep x.next req) fun t => t.mem = (s1.commit e).mem ∧
            t.ch.out = ((s1.commit e).homeSeen req).ch.out ++ [.response req.pkg 0 data, .ack x.pkg x.epoch x.next]) ∧
        (x.window = [] → done (.contextClose req.pkg req.pod ep) [.ack req.pkg ep x.next] { x with closed := true })) ∧
      (∀ sq, x.sender = true → x.closed = false → x.closing = false →
        done (.deliveryAck n sq) [] { x with window := x.window.filter (fun w => !reached sq w.1), ackAt := s.ch.cycle }) ∧
      (∀ w, x.sender = true → x.closed = false → x.window = [w] → w.2.2.1 + 6000 ≤ s.ch.cycle → 8 ≤ w.2.2.2 →
        (∀ e ∈ s.ch.xl.egress, x.awaits e = false) → done (.retransmitTimeout n) [] { x with closed := true, window := [] } ∧
        s.Does (.retransmitTimeout n) fun t => ∀ j ∈ t.ch.jobs, x.closing = true → x.job = some j.id → j.killStep = 3 →
          j.killFlags.testBit 4 = true) ∧
      (∀ w, x.sender = true → x.closed = false → x.window = [w] → w.2.2.1 + 6000 ≤ s.ch.cycle → w.2.2.2 < 8 →
        done (.retransmitTimeout n) [.packet x.pkg x.epoch w.1 s.ch.plat.generation w.2.1]
          { x with window := [(w.1, w.2.1, s.ch.cycle, w.2.2.2 + 1)] }) ∧
      (x.closed = false → x.closing = false → x.window = [] → x.next ≠ 1 → x.ackAt + 12000 ≤ s.ch.cycle →
        done (.contextTeardown n) [] { x with closed := true }) ∧
      (x.closed = false → x.closing = true → x.closeAt + 150000 ≤ s.ch.cycle → (∀ e ∈ s.ch.xl.egress, x.awaits e = false) →
        done (.closeAbandon n) [] { x with closed := true, window := [] } ∧
        s.Does (.closeAbandon n) fun t => ∀ j ∈ t.ch.jobs, x.job = some j.id → j.killStep = 3 → j.killFlags.testBit 4 = true))

/-! Queues and jobs. -/

/-- R378, R383, R384: what the completion of an entry does: one more entry complete, its ticket closed, the record written, its counter
one higher modulo 2^64, and its interrupt raised when it asked for one. R367, R387: a host moves a tail within the ring, and one that
moves backwards or too far is ignored with the error bit; clearing the error bit lets a stopped queue go on. R366: a disabled queue's
descriptor takes the bytes written, an enabled one's only CTL[3:0], and ENABLE is refused where a field is unsound. R369: SIGNAL
completes with status 0x00. R368: a malformed header completes with 0x01. R76, R77: INVAL makes the TLB entries of its job in its range
stale. R79, R369: ALLOC maps zeroed frames and FREE unmaps them. The model's choices: the writes of any port are heard while no port owns
(log entry 7), which frame of a die ALLOC takes and when it is free again (33), and the order of a command's checks (48). -/
def Obligations.QueueEvents : Prop :=
  (∀ (s : State) (d : Done), let x := s.ch.queue d.q
     let t := s.complete d
     (t.ch.queue d.q).doneN = x.doneN + 1 ∧ (t.ch.queue d.q).takenN = x.takenN ∧ d.ticket ∉ (t.ch.queue d.q).open_ ∧
     (∀ n, n ≠ 0 → t.ch.counter n = if n = d.sigctr then (s.ch.counter n + 1) % 2 ^ 64 else s.ch.counter n) ∧
     (d.irq = true → s.ch.plat.ownValid = true → Output.irq (some s.ch.plat.owner) (1 + d.q % 2047) ∈ t.ch.out) ∧
     (∀ r u, d.root = some r → s.devWrite r (x.cpl + 16 * (d.ticket % x.size)) (leBytes 8 d.job ++ leBytes 1 d.status ++ [1] ++
       leBytes 2 (min d.errTok 0xFFFF) ++ leBytes 2 (min d.errBar 0xFFFF) ++ [0, 0]) = .ok u → t.mem = u.mem) ∧
     (d.root = none → t.mem = s.mem ∧ (t.ch.queue d.q).err = true ∧ (t.ch.queue d.q).stop = 2) ∧
     t.ch.strands = s.ch.strands ∧ t.ch.ops = s.ch.ops ∧ t.ch.jobs = s.ch.jobs) ∧
  (∀ (s : State) (port : BitVec 3) (q : Nat), q < 32768 →
     let x := s.ch.queue q
     (s.ch.hears port →
       (∀ tail : BitVec 64, x.devsub = false → x.tail ≤ tail.toNat → tail.toNat ≤ x.takenN + x.size →
         s.Does (.queueTailWrite port q tail) fun t => t.mem = s.mem ∧ t.ch.queue q = { x with tail := tail.toNat } ∧
           ∀ r, r ≠ q → t.ch.queue r = s.ch.queue r) ∧
       (∀ tail : BitVec 64, x.devsub = false → tail.toNat < x.tail ∨ x.takenN + x.size < tail.toNat →
         s.Does (.queueTailWrite port q tail) fun t => t.mem = s.mem ∧ t.ch.queue q = { x with err := true }) ∧
       (s.Does (.queueErrorClear port q) fun t => t.mem = s.mem ∧ t.ch.queue q = { x with err := false, stop := 0 } ∧
         ∀ r, r ≠ q → t.ch.queue r = s.ch.queue r) ∧
       (∀ off (data : List Byte), off + data.length ≤ 64 →
         let d := (List.range 64).map fun k =>
           if off ≤ k ∧ k < off + data.length ∧ x.enabled = false then nth 0 data (k - off)
           else if off ≤ k ∧ k < off + data.length ∧ k = 20 then
             BitVec.ofNat 8 ((nth 0 x.desc k).toNat / 16 * 16 + (nth 0 data (k - off)).toNat % 16)
           else nth 0 x.desc k
         (x.enabled = true ∨ (field d 20 1).testBit 0 = false ∨ descOk d = true →
           s.Does (.queueDescriptorWrite port q off data) fun t => t.mem = s.mem ∧ t.ch.queue q = { x with desc := d }) ∧
         (x.enabled = false → (field d 20 1).testBit 0 = true → descOk d = false →
           s.Does (.queueDescriptorWrite port q off data) fun t => t.mem = s.mem ∧ (t.ch.queue q).enabled = false ∧ (t.ch.queue q).err = true))) ∧
     (∀ root e,
       (s.Takes q 6 root e → s.Does (.signal q) fun t => s.Ends (s.entered q root 0) t q root e 0 0x00) ∧
       (s.Takes q 0 root e → s.Does (.malformedHeader q) fun t => s.Ends (s.entered q root 0) t q root e 0 0x01) ∧
       (s.Takes q 2 root e → field e 8 8 % 65536 = 0 → field e 8 8 < 2 ^ 56 → s.Does (.inval q) fun t =>
         t.mem = (s.entered q root 0).mem ∧ t.ch.ops = s.ch.ops ∧
         (∃ v ∈ t.ch.xl.invals, v.queue = some q ∧ v.ticket = x.takenN ∧ v.jobs = [BitVec.ofNat 64 (field e 24 8)] ∧ v.va = field e 8 8 ∧
           v.pages = field e 16 4 ∧ v.drop = (field e 32 1).testBit 0) ∧
         ∀ y ∈ t.ch.xl.tlbs, y.job = BitVec.ofNat 64 (field e 24 8) → inRange (field e 8 8) (field e 16 4) y.page y.size = true → y.stale = true) ∧
       (let u := s.entered q root 0
         let va := field e 8 8
         va % 0x200000 = 0 → field e 16 8 = 0x200000 → va + 0x200000 ≤ 2 ^ 56 → ∀ p, levelTwoAt u.mem root va = some p →
           (s.Takes q 4 root e → field e 24 1 < 32 → field e 25 1 < 8 → (memRead u.mem p).getLsbD 0 = false →
             ∀ a, chooseFrames u (hintDies (field e 24 1 % 4) (field e 24 1 / 4)) 1 0 [] false = some ([a], false) →
               s.Does (.alloc q) fun t => ∃ w : State, s.Ends w t q root e 0 0x00 ∧
                 memNat w.mem p 8 = (3 + 4 * field e 25 1 + a + 0xFFF * 2 ^ 52) % 2 ^ 64 ∧
                 (∀ i, i < 0x200000 → (a + i < p ∨ p + 8 ≤ a + i) → w.byte (a + i) = 0) ∧
                 ∀ f ∈ List.range' (a / 65536) 32, f ∈ w.ch.xl.frames) ∧
           (s.Takes q 5 root e → let l := BitVec.ofNat 64 (memNat u.mem p 8)
             freeable l = true → leafHold l = false → s.Does (.free q) fun t =>
               t.byte p = u.byte p &&& 0xFE ∧ (∀ a, a ≠ p → t.byte a = u.byte a) ∧
               ∃ v ∈ t.ch.xl.invals, v.queue = some q ∧ v.va = va ∧ v.pages = 32 ∧ v.drop = true ∧
                 v.frames = List.range' (leafFrame l / 65536) 32))))

/-- R371, R373: a launch whose packet passes becomes a job with the next JOBID of its queue, and one that does not completes with its
status. R385: a graph whose packets all pass is replayed from its frame copy, and a node whose predecessors are complete launches. R380, R381: a
unit placed has its windows, with its images, its strands bound and their bind records written. R380 to R382: a co-resident job's units
are released together, a pod job's once every part has signalled; a bound strand that is released starts, and a record of an empty job
entry raises a curator fault. R179: a strand with nothing left to do frees its slot, and its unit ends with its last, which waits where a
saved context of its job needs frames. R383: a job whose units have all ended is complete, or its node of a replay. The model's choices: the
core, the room and the slots a unit is given are the lowest that R379 leaves (log entry 36), a curator fault is an output, a table index the lowest
free one and a node's root and record those of the REPLAY's take (85), and the records of a job without co-residency are valid as it is placed
(86). -/
def Obligations.JobEvents : Prop :=
  ∀ s : State,
    (∀ q root e, let first := q * 2 ^ 32 + (s.ch.queue q).jobs % 2 ^ 32
      (s.Takes q 1 root e → let u := s.entered q root 1
        (∀ j, u.parsePacket (s.ch.queue q) root (field e 8 8) first e (s.ch.queue q).takenN = .ok j → s.Does (.launch q) fun t =>
          t.mem = u.mem ∧ j.id = BitVec.ofNat 64 first ∧ t.ch.strands = s.ch.strands ∧ ∃ at_, t.ch.jobs = s.ch.jobs ++ [{ j with slots := at_ }] ∧
            ∀ d, (∃ n, (d, n) ∈ at_) ↔ d < 8 ∧ 0 < (j.share d).2) ∧
        (∀ status, u.parsePacket (s.ch.queue q) root (field e 8 8) first e (s.ch.queue q).takenN = .refuse status →
          s.Does (.launch q) fun t => s.Ends (u.packetSeen root (field e 8 8)) t q root e first status)) ∧
      (∀ h n bs nodes u, s.Takes q 3 root e → n = s.graphNodes root e → let v := s.entered q root n
        v.graphNodes root e = n → n ≠ 0 → field e 8 8 % 64 = 0 → field e 16 8 % 256 = 0 → v.devRead root (field e 8 8) 64 = .ok h →
        let v1 := v.seen .load root (field e 8 8) 64
        field h 4 4 = 0 → field h 16 48 = 0 → v1.devRead root (field h 8 8) (16 * n) = .ok bs → parseNodes n bs = some nodes →
        copyPackets root (field e 16 8) nodes 0 (v1.seen .load root (field h 8 8) (16 * n)) = .ok u →
        (∀ k, k < n → ∃ j, u.parsePacket (s.ch.queue q) root (field e 16 8 + 256 * k) (jobIdFrom first k) e (s.ch.queue q).takenN = .ok j) →
        s.Does (.replay q) fun t => t.mem = u.mem ∧ t.ch.jobs = s.ch.jobs ∧ ∃ r ∈ t.ch.replays, r.queue = q ∧ r.va = field e 16 8 ∧
          r.nodes = (List.range n).map (fun k => (k, 0)) ∧ r.preds = nodes.map (fun z => (z.2.1, z.2.2)) ∧
          r.jobs = (List.range n).map fun k => BitVec.ofNat 64 (jobIdFrom first k))) ∧
    (∀ rep node r j, s.ch.replays.find? (fun r => r.id == rep) = some r → r.nodes.lookup node = some 0 →
      (∀ i ∈ r.predsOf node, 0x100 ≤ r.status i) →
      s.parsePacket (s.ch.queue r.queue) r.root (r.va + 256 * node) (nth 0 r.jobs node).toNat [] r.ticket = .ok j →
      (∀ d, d < 8 → 0 < (j.share d).2 → (s.ch.freeIndex d).isSome = true) →
      s.Does (.replayNodeLaunch rep node) fun t => t.mem = s.mem ∧
        (∃ at_, t.ch.jobs = s.ch.jobs ++ [{ j with asr := r.asr, level := r.level, sigctr := 0, irq := false, slots := at_ }]) ∧
        ∃ y, t.ch.replays.find? (fun r => r.id == rep) = some y ∧ y.status node = 1) ∧
    (∀ die j first c core r im, s.ch.plat.run = true → s.ch.served = true → let s1 : State := { s with ch := s.ch.reserveEnds die }
      s1.ch.nextJob die = some j → s1.ch.nextGroup j die = some first → s1.ch.reserveSlots j die = some c → j.gsize = 1 →
      s1.ch.restoresFirst j die first = false →
      bestQuad c die 1 (fun k => (c.room j k).isSome) = some [core] → c.room j core = some r → s1.readImages j = .ok im →
      s.Does (.unitPlacement die) fun t =>
        (∃ u ∈ t.ch.units, u.job = j.id ∧ u.num = BitVec.ofNat 24 first ∧ u.core = core ∧ u.benchBase = r.bench ∧ u.benchSize = j.benchw ∧
          u.accBase = r.acc ∧ u.accSize = j.accw ∧ u.placed = true ∧ u.ended = false ∧ u.released = !j.corFlag ∧ u.live = List.range j.nstr) ∧
        (∀ i, i < j.benchw → t.byte (benchAt core + r.bench + i) = nth 0 im.bench i) ∧
        (∀ l ∈ t.ch.xl.lines, ¬(l.quad = quadOf core ∧ l.job = j.id)) ∧
        ∀ k, k < j.nstr → ∃ slot ∈ s.ch.freeSlots core, ∃ τ, t.ch.strand? (4 * core + slot) = some τ ∧ τ.who.strand = k ∧
          τ.who.unit = BitVec.ofNat 24 first ∧ τ.trap.phase = .bound ∧ (∀ n, τ.getS n = 0) ∧
          let b := t.ch.bindAt (4 * core + slot)
          b.valid = !j.corFlag ∧ b.ended = false ∧ b.strand = k ∧ b.unit = BitVec.ofNat 24 first ∧ b.benchB = r.bench / 0x4000) ∧
    (∀ job j, s.ch.job? job = some j →
      (j.corFlag = true → j.started = false → j.killStep = 0 → (s.ch.units.filter fun u => u.job == job).length = j.nunits →
        (∀ n, 1 < j.podN → j.signalled = false → s.ch.plat.pkgNum = some n → s.Does (.corRelease job) fun t => t.mem = s.mem ∧
          t.ch.strands = s.ch.strands ∧ t.ch.units = s.ch.units ∧ t.ch.job? job = some { j with signalled := true } ∧
          t.ch.out = s.ch.out ++ [.placed j.pod j.podIdx n]) ∧
        ((1 < j.podN → j.signalled = true) → (∀ n, n < j.podN → n ≠ j.podIdx → ∃ p ∈ s.ch.partsPlaced j, p.1 = n) →
          s.Does (.corRelease job) fun t => t.mem = s.mem ∧ t.ch.strands = s.ch.strands ∧
            t.ch.job? job = some { j with started := true, parts := s.ch.partsPlaced j } ∧ (∀ u ∈ t.ch.units, u.job = job → u.released = true) ∧
            ∀ b ∈ t.ch.binds, (∃ σ ∈ s.ch.strands, σ.pos = b.pos ∧ σ.who.job = job) → b.valid = true)) ∧
      (j.killStep = 0 → (s.ch.units.filter fun u => u.job == job).length = j.nunits → (∀ u ∈ s.ch.units, u.job = job → u.ended = true) →
        s.endHeld j = false →
        let status := if j.errTok = 0 ∧ j.errBar = 0 then 0x00 else 0x04
        let u := ({ s with ch := s.ch.dropJob job } : State).freeFrames ((s.ch.saved.filter fun v => v.strand.who.job == job).flatMap Saved.frames)
        ((∀ r ∈ s.ch.replays, job ∉ r.jobs) → s.Does (.jobComplete job) fun t => ∃ d : Done, t = u.complete d ∧ d.q = j.queue ∧
          d.ticket = j.ticket ∧ d.root = some j.root ∧ d.job = job.toNat ∧ d.status = status ∧ d.errTok = j.errTok ∧ d.errBar = j.errBar ∧
          d.sigctr = j.sigctr ∧ d.irq = j.irq) ∧
        ∀ r k i y, s.ch.replays = [r] → r.jobs.findIdx? (fun x => x == job) = some k → (r.nodes.lookup k).isSome = true → i ≠ k →
          r.nodes.lookup i = some y → 0 < y → y < 0x100 →
          s.Does (.jobComplete job) fun t => t.mem = u.mem ∧ ∃ r2, t.ch.replays = [r2] ∧ r2.status k = 0x100 + status ∧
            r2.errTok = r.errTok + j.errTok ∧ r2.errBar = r.errBar + j.errBar)) ∧
    (∀ core slot σ u, s.ch.strand? (4 * core + slot) = some σ → s.ch.unitOf? σ = some u → let pos := 4 * core + slot
      (σ.trap.phase = .bound → u.released = true → (s.ch.bindAt pos).valid = true → s.ch.coreHeld core = false → s.ch.jobRuns σ.who.job = true →
        (s.ch.jobEntry? (dieOf core) (s.ch.bindAt pos).jslot = none → s.Does (.strandStart core slot) fun t => t.mem = s.mem ∧
          t.ch.strands = s.ch.strands ∧ t.ch.out = s.ch.out ++ [.curatorFault pos]) ∧
        ((s.ch.jobEntry? (dieOf core) (s.ch.bindAt pos).jslot).isSome = true → s.ch.entryWaits pos = false →
          s.Does (.strandStart core slot) fun t => t.mem = s.mem ∧
            ∃ τ, t.ch.strand? pos = some τ ∧ σ.SameRegs τ ∧ τ.inProgram ∧ τ.c = σ.c ∧ τ.g = σ.g ∧ τ.m = σ.m ∧ τ.v = σ.v)) ∧
      (σ.live = [] → σ.inProgram → s.ch.killing σ.who.job = false → (∀ n, n < 8 → σ.binding? n = none) → (∀ o ∈ s.ch.ops, o.pos ≠ pos) →
        s.Does (.strandEnd core slot) fun t =>
          t = s ∧ (∃ v ∈ s.ch.saved, v.strand.who.job = σ.who.job) ∨
          ((∀ v ∈ s.ch.saved, v.strand.who.job ≠ σ.who.job) → t.mem = s.mem) ∧ t.ch.strand? pos = none ∧ s.OthersKept t pos ∧ t.ch.ops = s.ch.ops ∧
            (u.live = [σ.who.strand] → ∃ w, t.ch.unitOf? σ = some w ∧ w.ended = true ∧ w.live = [])))

/-! Host ports, management and upkeep. -/

/-- R409, R410, R412: CLAIM makes the writing port the owner when no port is, HANDOVER passes ownership to another host port, and a second
without the owner's link ends it, each with vector 0. R411, R458: reads and writes through the aperture move the bytes its tables lead
to, and a read at a peer sends its request; a failure sets APERR, answers all ones, and writes nothing. R7, R410: a register write from the owner
takes effect, from another port it is dropped and counted, a write of APSTAT also while no port owns (R458); a port's link follows its change.
R384, R409: a host port that reads BAR0 gets the word of the register it names, of a completion counter its count, and one that reads BAR2 gets
a tail. R416: the owner's verified image is written to flash. The model's choices: the other writes of any port are heard while no port owns
(log entry 7), reads of BAR0 and BAR2 are of aligned words (96), an access of several pages fails whole (61), and an error found in the data fails
an access as its leaf does (62). -/
def Obligations.HostEvents : Prop :=
  ∀ (s : State) (port : BitVec 3),
    let p := s.ch.plat
    (s.ch.served = true → s.ch.hostPort port = true → p.ownValid = false → s.Does (.claim port) fun t => t.mem = s.mem ∧
      t.ch.plat.ownValid = true ∧ t.ch.plat.owner = port.toNat ∧ t.ch.plat.claimAt = some s.ch.cycle ∧ t.ch.out = s.ch.out ++ [.irq none 0] ∧
      t.ch.strands = s.ch.strands) ∧
    (s.ch.hears port → s.ch.owns port = true → ∀ v : BitVec 64, v.toNat < 8 → s.ch.hostPort (v.setWidth 3) = true →
      s.Does (.handover port v) fun t => t.mem = s.mem ∧ t.ch.plat.ownValid = true ∧ t.ch.plat.owner = v.toNat ∧
        t.ch.out = s.ch.out ++ [.irq none 0]) ∧
    (∀ c, p.linkDown = some c → p.ownValid = true → c + 3000000000 ≤ s.ch.cycle → s.Does .ownerLinkTimeout fun t => t.mem = s.mem ∧
      t.ch.plat.ownValid = false ∧ t.ch.out = s.ch.out ++ [.irq none 0]) ∧
    (∀ up, port.toNat < 6 → p.links.length = 6 → up = true ∨ nth 0 p.ports port.toNat ≠ 1 → s.Does (.portLinkChange port up) fun t =>
      t.mem = s.mem ∧ t.ch.out = s.ch.out ∧ nth false t.ch.plat.links port.toNat = up ∧
      (∀ k, k ≠ port.toNat → nth false t.ch.plat.links k = nth false p.links k) ∧
      (p.ownValid = true → p.owner = port.toNat → (t.ch.plat.linkDown = none ↔ up = true))) ∧
    (s.ch.served = true → s.ch.hostPort port = true → ∀ off len, s.ch.inAperture port off len = true → s.apHeld .load off len = false →
      let fails : Prop := s.Does (.bar4Read port off len) fun t => t.mem = s.mem ∧ t.ch.strands = s.ch.strands ∧
        t.ch.out.getLast? = some (.data (List.replicate len 0xFF)) ∧ t.ch.plat.apstat.testBit 0 = true
      (s.aperture off = none → fails) ∧
      ∀ r va, s.aperture off = some (r, va) →
        (∀ x, (devSegs s.ch.side s.mem r .load va len).bind (localBytes s) = .bad x → fails) ∧
        ∀ gs, devSegs s.ch.side s.mem r .load va len = .ok gs →
          (∀ bs, (∀ g ∈ gs, g.peer = none) → localBytes s gs = .ok bs → (∀ e ∈ s.ch.xl.egress, e.op < s.ch.nextId) →
            s.Does (.bar4Read port off len) fun t => t.mem = s.mem ∧ t.ch.strands = s.ch.strands ∧ t.ch.out.getLast? = some (.data bs)) ∧
          ∀ g pkg, gs = [g] → g.peer = some pkg → 0 < g.len → s.ch.reachable pkg = true → s.Does (.bar4Read port off len) fun t => t.mem = s.mem ∧
            t.ch.strands = s.ch.strands ∧ ∃ a ∈ t.ch.plat.accesses, a.port = port ∧ a.write = false ∧ ∃ e ∈ t.ch.xl.egress, e.op = a.id ∧ e.pkg = pkg) ∧
    (s.ch.hears port → ∀ off data, s.ch.inAperture port off data.length = true → s.apHeld .store off data.length = false →
      let fails : Prop := s.Does (.bar4Write port off data) fun t => t.mem = s.mem ∧ t.ch.strands = s.ch.strands ∧ t.ch.plat.apstat.testBit 0 = true
      (s.aperture off = none → fails) ∧
      ∀ r va, s.aperture off = some (r, va) →
        (∀ x, devSegs s.ch.side s.mem r .store va data.length = .bad x → fails) ∧
        ∀ gs, devSegs s.ch.side s.mem r .store va data.length = .ok gs → let u := s.seen .store r va data.length
          let w := writeRuns (some u.ch.nextId) gs data { u with ch := { u.ch with nextId := u.ch.nextId + 1 } }
          (w.2 = false → fails) ∧ (w.2 = true → s.Does (.bar4Write port off data) fun t => t.mem = w.1.mem ∧ t.ch.strands = w.1.ch.strands)) ∧
    (s.ch.served = true → s.ch.hostPort port = true → ∀ (off : Nat) (v : BitVec 64),
      (s.ch.mayWrite port = true →
        s.Does (.registerWrite port 0x3C00000 v) (fun t => t.mem = s.mem ∧ t.ch.plat.apasr.toNat = v.toNat % 2 ^ 41 / 64 * 64) ∧
        s.Does (.registerWrite port 0x3C00008 v) (fun t => t.mem = s.mem ∧ t.ch.plat.apbase.toNat = v.toNat % 2 ^ 56 / 2 ^ 21 * 2 ^ 21)) ∧
      (s.ch.owns port = true → v.getLsbD 0 = true → s.Does (.registerWrite port 0x58 v) fun t => t.mem = s.mem ∧
        t.ch.plat.apstat.testBit 0 = false) ∧
      (s.ch.mayWrite port = false ∨ off = 0x58 ∧ s.ch.owns port = false →
        exec (.registerWrite port off v) s = .next { s with ch := s.ch.dropWrite })) ∧
    (∀ off rest, s.ch.hostPort port = true → off % 8 = 0 → s.ch.portWrites port = false →
      let reads (c : Choice) (data : Nat) : Prop := s.ch.agenda = c :: rest → ∃ t, step s = .next t ∧ t.mem = s.mem ∧ t.ch.strands = s.ch.strands ∧
        t.ch.out = s.ch.out ++ [.data (leBytes 8 data)]
      (p.answersRead off = true → reads (.bar0Read port off) (s.ch.bar0 off).toNat) ∧
      (s.ch.served = true → off < 0x200000 → off % 64 = 0 → reads (.bar2Read port off) (s.ch.queue (off / 64)).tail)) ∧
    (∀ c, 1 ≤ c → c < 65536 → s.ch.bar0 (0x2000000 + 8 * c) = BitVec.ofNat 64 (s.ch.counter c)) ∧
    (p.powered = true → p.leaseOpen = false → p.recovery = false → s.ch.hostPort port = true → s.ch.owns port = true → ∀ img,
      (p.verifies img = true → s.Does (.firmwareLoad port img) fun t => t.mem = s.mem ∧ t.ch.plat = { p with flash := img }) ∧
      (p.verifies img = false → exec (.firmwareLoad port img) s = .next s))

/-- R417, R418: a cold start leaves every store zero, no job, no owner and the queues as nothing has written them, and runs when the flash
image is verified; a warm start with no job clears the on-chip stores and disables the queues. R419: during a lease reset every
command but a status read is refused as busy. R410: STATUS answers DEVSTAT. R420: ATTEST of a nonce of 1 to 32 bytes answers a
report that has the nonce in it. R422: a lease reset with no job leaves every store zero and the package unowned, with one more lease,
and SCRUB zeroes the stores. R408, R414, R416: port modes to come, the routing tables, the flash image, the fused minimum. R421: the
loss of power leaves the fuses, the used LMS indices, the flash and the port modes to come. The model's choices: a SCRUB while jobs stand clears under
them (log entry 59), the result codes 1 and 3 and the layout of STATUS and of the report (60). -/
def Obligations.ManagementEvents : Prop :=
  ∀ s : State,
    let p := s.ch.plat
    let quiet (t : State) : Prop := t.mem = s.mem ∧ t.ch.strands = s.ch.strands ∧ t.ch.out = s.ch.out
    (p.powered = true → p.leaseOpen = true → ∀ i ∈ [Instr.coldStart, .warmStart none, .lease, .scrub, .svnraise, .release, .fabric .commit,
        .portmode 0, .attest none [0], .image []], exec i s = .next (s.emit [.result 1])) ∧
    (p.powered = true → s.Does .status fun t => t.mem = s.mem ∧ t.ch.plat = p ∧ ∃ more, t.ch.out = s.ch.out ++ [.data (leBytes 8
      ((if p.ownValid then 128 else 0) + p.owner * 16 + (if p.leaseOpen then 8 else 0) + (if p.services = [] then 0 else 4) +
        (if p.recovery then 2 else 0) + (if p.run then 1 else 0)) ++ p.services.flatMap (fun r => leBytes 1 r.1 ++ leBytes 2 r.2) ++
        more)]) ∧
    ((p.powered = false ∨ s.ch.manages) → s.Does .coldStart fun t => t.mem = [] ∧ t.ch.strands = [] ∧ t.ch.jobs = [] ∧ t.ch.ops = [] ∧
      t.ch.queues = [] ∧ t.ch.side.full = [] ∧ t.ch.side.marks = [] ∧ (s.ch.side.stuck = [] → t.ch.side.faulty = []) ∧ t.ch.plat.ownValid = false ∧
      t.ch.plat.flash = p.flash ∧ t.ch.plat.minVersion = p.minVersion ∧ t.ch.plat.ports = p.portsNext ∧
      (p.verifies p.flash = true → t.ch.plat.run = true ∧ t.ch.plat.recovery = false) ∧
      (p.verifies p.flash = false → t.ch.plat.run = false ∧ t.ch.plat.recovery = true)) ∧
    (s.ch.manages → s.ch.jobs = [] → s.ch.replays = [] → p.pending = 0 →
      (s.Does (.warmStart none) fun t => (∀ a, a < benchAt 0 → t.byte a = s.byte a) ∧ (∀ a, benchAt 0 ≤ a → t.byte a = 0) ∧
        (∀ x ∈ t.ch.queues, x.desc.length = 64 → x.enabled = false) ∧ t.ch.counters = [] ∧ t.ch.plat.flash = p.flash) ∧
      (s.Does .lease fun t => t.mem = [] ∧ t.ch.strands = [] ∧ t.ch.jobs = [] ∧ t.ch.queues = [] ∧ t.ch.plat.ownValid = false ∧
        t.ch.plat.leaseOpen = false ∧ t.ch.plat.leaseCtr = p.leaseCtr + 1 ∧ t.ch.plat.scrubSeq = p.scrubSeq + 1 ∧
        Output.data t.ch.plat.lastCert ∈ t.ch.out)) ∧
    (s.ch.manages →
      (s.Does .scrub fun t => t.mem = [] ∧ t.ch.side.full = [] ∧ t.ch.side.marks = [] ∧ (s.ch.side.stuck = [] → t.ch.side.faulty = []) ∧
        t.ch.plat.ctxs = [] ∧ t.ch.plat.log = [] ∧ t.ch.xl.tlbs = [] ∧ t.ch.xl.lines = [] ∧ t.ch.saved = [] ∧ ∀ o ∈ t.ch.ops, o.ring = false) ∧
      (∀ nonce : List Byte, 1 ≤ nonce.length → nonce.length ≤ 32 → s.Does (.attest none nonce) fun t => t.mem = s.mem ∧
        ∃ more rest, Output.data (leBytes 16 Config.serial.toNat ++ leBytes 1 nonce.length ++ nonce ++ more) ∈ rest ∧ t.ch.out = s.ch.out ++ rest) ∧
      (∀ modes : BitVec 5, s.Does (.portmode modes) fun t => quiet t ∧ t.ch.plat.ports = p.ports ∧ nth 9 t.ch.plat.portsNext 0 = 0 ∧
        ∀ k, k < 5 → nth 9 t.ch.plat.portsNext (k + 1) = if modes.getLsbD k then 1 else 0) ∧
      (∀ pkg group, s.Does (.fabric (.number pkg group)) fun t => quiet t ∧ t.ch.plat = { p with pkgNum := some pkg, fabGroup := group }) ∧
      (∀ es, s.Does (.fabric (.table es)) fun t => quiet t ∧ t.ch.plat = { p with routesNew := es }) ∧
      (p.retiring = false → s.Does (.fabric .commit) fun t => t.mem = s.mem ∧ t.ch.strands = s.ch.strands ∧
        t.ch.plat.routes = p.routesNew.filter (fun r => !p.fibres.contains r.2) ∧ t.ch.plat.routesNew = p.routes ∧
        t.ch.plat.generation = 1 - p.generation ∧ ∀ me m, p.pkgNum = some me → m ∈ p.fabGroup → m ≠ me →
          Output.report m (p.ctxs.flatMap fun x => if x.sender ∧ x.closed = false then x.window else []).length ∈ t.ch.out) ∧
      (p.retiring = true → exec (.fabric .commit) s = .next (s.emit [.result 3])) ∧
      (∀ img, p.verifies img = true → s.Does (.image img) fun t => t.mem = [] ∧ t.ch.plat.flash = img ∧ t.ch.plat.running = img ∧ t.ch.plat.run = true) ∧
      (∀ img, p.verifies img = false → exec (.image img) s = .next (s.emit [.result 3])) ∧
      (s.Does .svnraise fun t => quiet t ∧ t.ch.plat = { p with minVersion := max p.minVersion (Config.imageVersion p.flash) }) ∧
      (p.ownValid = true → s.Does .release fun t => t.mem = s.mem ∧ t.ch.plat.ownValid = false ∧ t.ch.out = s.ch.out ++ [.irq none 0])) ∧
    (∀ member count, p.retiring = true → p.pkgNum ≠ some member → s.Does (.routingReport member count) fun t => quiet t ∧
      let reports := p.reports.map fun (r : BitVec 12 × Nat) => if r.1 = member then (member, count) else r
      ((∀ r ∈ reports, r.2 = 0) → t.ch.plat.retiring = false) ∧ (¬ (∀ r ∈ reports, r.2 = 0) → t.ch.plat.retiring = true ∧ t.ch.plat.reports = reports)) ∧
    (s.Does .powerFailure fun t => t.mem = [] ∧ t.ch.strands = [] ∧ t.ch.jobs = [] ∧ t.ch.plat.powered = false ∧ t.ch.plat.flash = p.flash ∧
      t.ch.plat.minVersion = p.minVersion ∧ t.ch.plat.lmsUsed = p.lmsUsed ∧ t.ch.plat.portsNext = p.portsNext)

/-- R50: scrubbing a word corrects a correctable error, logs it and changes no byte; an uncorrectable one is logged and closes its quad to
new units, with a service request (R425). R52 to R55: a quad is held, its benches, strata and accumulator stores move to a free quad with their full
bits and race marks, and it goes on there. R59, R424: a temperature takes effect with the refresh state, R426 an allowance with its update, R427 a
hot quad moves to a free quad, and with none free its island's allowance falls. R148: a spill ring goes on when its fault is resolved within 100 µs,
and one that is not takes its quad out of service. R425: a fibre down opens a service request. Which free quad is the coolest is a free value, so a
quad moves to some free quad here (log entry 53), and the log is a ring of 1,024 entries (83). -/
def Obligations.UpkeepEvents : Prop :=
  ∀ s : State,
    (∀ core addr fix, let w := protectedWord addr
      ownerCore w = some core → storeOf w ≠ .bucket → s.ch.side.faulty.lookup w = some fix → s.Does (.patrolScrub core addr) fun t =>
        t.mem = s.mem ∧ t.ch.strands = s.ch.strands ∧ t.ch.cores = s.ch.cores ∧
        (∃ v, let log : List LogEntry := s.ch.plat.log ++
            [{ store := storeOf w, addr := if storeOf w = .marks then 64 * (w - markWord 0) else w, syndrome := v }]
          t.ch.plat.log = log.drop (log.length - 1024)) ∧
        (t.ch.side.faulty = if fix then s.ch.side.faulty.filter (fun f => f.1 != w) else s.ch.side.faulty) ∧
        (fix = false → (t.ch.quad (quadOf core)).noPlace = true ∧ (3, quadOf core) ∈ t.ch.plat.services)) ∧
    (∀ die src dst, die < 8 → src < Config.quadsOf die → dst < Config.quadsOf die → src ≠ dst → s.ch.freeQuad die dst = true →
      s.ch.canMigrate die src = true → exec (.columnMigrationHold die src dst) s =
        .next { s with ch := { s.ch with moves := s.ch.moves ++ [{ die := die, src := src, dst := dst, phase := 1 }] } }) ∧
    (∀ die m, die < 8 → s.ch.moves = [m] → m.die = die → m.phase = 1 → m.src < 64 → m.dst < 64 → m.src ≠ m.dst →
      s.ch.holdsMove (die * 64 + m.src) = false → (∀ k, k < 4 → s.ch.faultFrozen (4 * (die * 64 + m.src) + k) = false) →
      s.ch.ringHoldsMove (die * 64 + m.src) = false → s.Does (.columnMigrationMove die) fun t =>
        (∀ k, k < 4 → let a := 4 * (die * 64 + m.src) + k
          let b := 4 * (die * 64 + m.dst) + k
          (∀ i, i < 0x100000 → t.byte (benchAt b + i) = s.byte (benchAt a + i)) ∧
          (∀ i, i < 0x800000 → t.byte (stratumAt b + i) = s.byte (stratumAt a + i)) ∧
          (∀ i, i < 0x200000 → t.byte (accAt b + i) = s.byte (accAt a + i)) ∧
          (∀ i, i < 0x10000 → (benchAt b / 16 + i ∈ t.ch.side.full ↔ benchAt a / 16 + i ∈ s.ch.side.full)) ∧
          ∀ x ∈ s.ch.side.marks, (∀ i, i < 0x4000 → x.granule = benchAt a / 64 + i → { x with granule := benchAt b / 64 + i } ∈ t.ch.side.marks) ∧
            ∀ i, i < 0x20000 → x.granule = stratumAt a / 64 + i → { x with granule := stratumAt b / 64 + i } ∈ t.ch.side.marks) ∧
        t.ch.moves = [{ m with phase := 4 }] ∧
        ∀ τ ∈ s.ch.strands, (quadOfPos τ.pos = die * 64 + m.src →
          τ.renamed (16 * (die * 64 + m.dst) + τ.pos % 16) ∈ t.ch.strands) ∧
          (quadOfPos τ.pos ≠ die * 64 + m.src → τ ∈ t.ch.strands)) ∧
    (∀ die m, s.ch.moves = [m] → m.die = die → m.phase = 4 → s.Does (.columnMigrationResume die) fun t => t.mem = s.mem ∧ t.ch.moves = [] ∧
      ∀ τ ∈ s.ch.strands, ∃ x ∈ t.ch.strands, x.pos = τ.pos ∧ τ.SameRegs x ∧
        (quadOfPos τ.pos = die * 64 + m.dst → τ.trap.asked = true → τ.privileged = false → x.trap.pend = true ∧ x.trap.asked = false)) ∧
    (∀ die quad, die < 8 → quad < Config.quadsOf die → s.ch.plat.curators = true → let island := islandOf (4 * (die * 64 + quad))
      bits (nth 0 s.ch.plat.tar island).toNat 0 8 < 120 → s.ch.plat.lowered = [] →
      ((∀ v, v < Config.quadsOf die → v ≠ quad → s.ch.freeQuad die v = false) → s.ch.plat.tar.length = 24 → 0 < s.ch.allow island →
        s.Does (.hotQuadTimeout die quad) fun t => t.mem = s.mem ∧ t.ch.strands = s.ch.strands ∧ t.ch.allow island < s.ch.allow island ∧
          t.ch.moves = s.ch.moves) ∧
      ∀ v, s.ch.canMigrate die quad = true → v < Config.quadsOf die → v ≠ quad → s.ch.freeQuad die v = true → s.Does (.hotQuadTimeout die quad) fun t => t.mem = s.mem ∧ t.ch.strands = s.ch.strands ∧ ∃ d, d < Config.quadsOf die ∧ d ≠ quad ∧
        s.ch.freeQuad die d = true ∧ t.ch.moves = s.ch.moves ++ [{ die := die, src := quad, dst := d, phase := 1 }]) ∧
    (∀ die channel (temp : BitVec 8), die < 8 → channel < (if die < 4 then 8 else 32) → s.ch.plat.memStatus.length = 256 →
      let i := 32 * die + channel
      (s.Does (.temperatureRead die channel temp) fun t => t.mem = s.mem ∧ t.ch.strands = s.ch.strands ∧
        (nth 0 t.ch.plat.memStatus i).toNat % 256 = temp.toNat ∧ ∀ k, k ≠ i → nth 0 t.ch.plat.memStatus k = nth 0 s.ch.plat.memStatus k) ∧
      (let hot := (nth 0 s.ch.plat.memStatus i).toNat % 256
        let refr := if hot ≤ 85 then 0 else if hot ≤ 105 then 1 else 2
        (nth 0 s.ch.plat.memStatus i).toNat / 256 % 4 ≠ refr → s.Does (.refreshStateChange die channel) fun t => t.mem = s.mem ∧
          t.ch.strands = s.ch.strands ∧ (nth 0 t.ch.plat.memStatus i).toNat / 256 % 4 = refr ∧
          (nth 0 t.ch.plat.memStatus i).toNat % 256 = hot)) ∧
    (∀ levels : List (BitVec 4), levels.length = 24 → s.ch.plat.tar.length = 24 → s.ch.plat.lowered = [] →
      s.Does (.allowanceUpdate levels) fun t => t.mem = s.mem ∧ t.ch.strands = s.ch.strands ∧
        ∀ k, k < 24 → t.ch.allow k = (nth 0 levels k).toNat) ∧
    (∀ quad c, (s.ch.quad quad).ringStall = some c →
      (s.ch.cycle ≤ c + 300000 → s.Does (.spillRingFaultResolved quad) fun t => t.mem = s.mem ∧ t.ch.strands = s.ch.strands ∧ (t.ch.quad quad).ringStall = none) ∧
      (c + 300000 ≤ s.ch.cycle → s.Does (.spillRingTimeout quad) fun t => t.mem = s.mem ∧ t.ch.strands = s.ch.strands ∧
        (t.ch.quad quad).out = true ∧ ∀ w ∈ s.ch.units, w.placed = true → w.ended = false → quadOf w.core = quad →
          ∀ j, t.ch.job? w.job = some j → j.killStep ≠ 0)) ∧
    (∀ fibre, fibre < 128 → fibre ∉ s.ch.plat.fibres → s.Does (.fibreDown fibre) fun t => t.mem = s.mem ∧ t.ch.strands = s.ch.strands ∧
      t.ch.plat.fibres = fibre :: s.ch.plat.fibres ∧ (5, 64 + fibre) ∈ t.ch.plat.services)

/-! The machine as a whole. -/

/-- R222 to R244: decoding the word of any well-formed instruction, with any S and H bits, gives the instruction back, and
the S and H bits. An event has no word. -/
def Obligations.EncodingRoundTrip : Prop :=
  ∀ (cl : Cluster) (i : Instr) (sync hold : Bool), i.wf cl = true →
    decodeWord cl (encode sync hold i) = .ok i ∧ wordSync (encode sync hold i) = sync ∧ wordHold (encode sync hold i) = hold

/-- Words of the spec's examples (R280's word of `acas`, R249's of `lhi`, R258's of `loop`, R255's of a branch, R308, R110, R295, R311, R313, R321,
R325, R330, R343) and what they decode to. -/
def Obligations.ExampleWords : Prop :=
  decodeWord .c 0x20228B8A = .ok (.acas 4 10 5 1 2) ∧ decodeWord .c 0x0A280142 = .ok (.lhi 5 0x142) ∧
  decodeWord .c 0x3B0E0400 = .ok (.loop 0 7 2 0) ∧ decodeWord .c 0x3808C802 = .ok (.branch 1 3 1 2) ∧
  decodeWord .g 0x0CBB8780 = .ok (.cp 5 6 7 0 3 1 2) ∧ decodeWord .g 0x01523000 = .ok (.dep 5 2 3 0) ∧
  decodeWord .g 0x036FFFC0 = .ok (.gadd 3 3 0x3FFC0) ∧ decodeWord .g 0x1029C480 = .ok (.wsort 1 2 3 4 2 1 0) ∧
  decodeWord .m 0x0529AB01 = .ok (.bkt 1 2 3 2 2 3 1) ∧ decodeWord .m 0x08012A35 = .ok (.tmmaSp 0 1 1 2 4 3 2 1) ∧
  decodeWord .v 0x2F2A0000 = .ok (.pset 1 2 2) ∧ decodeWord .v 0x56A01008 = .ok (.vred 1 8 1 0 0 1 0 0) ∧
  wordHold 0x56A01008 = true ∧ ∀ cl, decodeWord cl 0 = .error .illegalInstruction

/-- R46, R417, R142: the machine after cold start. Every byte of every store reads zero and the memory is in its canonical form; no
granule is full, no mark and no check error stands; no strand, operation, unit or job is there; TLBs and quad caches are empty, no
queue is enabled and no completion counter has counted. The package is unowned and DEVSTAT's RUN is 0 (R410), until an image starts it (R418); the values of
the registers of the host interface that the spec gives none are those of log entry 14 and are not stated here. -/
def Obligations.ResetState : Prop :=
  let r := State.reset
  memWf r.mem = true ∧ (∀ a, r.byte a = 0) ∧ r.ch.side.full = [] ∧ r.ch.side.marks = [] ∧ r.ch.side.faulty = [] ∧
  (∀ p, r.ch.strand? p = none) ∧ r.ch.ops = [] ∧ r.ch.units = [] ∧ (∀ j, r.ch.job? j = none) ∧ r.ch.xl.tlbs = [] ∧ r.ch.xl.lines = [] ∧
  (∀ q, (r.ch.queue q).enabled = false) ∧ r.ch.counters = [] ∧ r.ch.plat.ownValid = false ∧ r.ch.plat.run = false ∧ r.ch.plat.routes = [] ∧ r.ch.plat.pkgNum = none

/-- R180 to R185, R223, R254: when the choice falls on a cluster that may issue, the step is the meaning of the instruction its next
word decodes to, in the turn of that word, or the trap of a word that decodes to none. When R183 chooses another strand, or the
cluster's turn of this cycle has passed, nothing issues; a sync-marked word waits for its rendezvous, and in a hold group it is illegal. The
word is the one at the cluster's program counter in its image. A strand that has trapped issues nothing more, and for a core that a fault has frozen
in this very cycle, where only what faults goes on (R244), nothing is said here. After each step the sectors that stay uncorrectable are so again
(R423: `restuck`). Which choice is next is the agenda's, and with an empty agenda the model's own order (log entry 1); a sync-marked word that a
precise fault took back issues again alone (log entry 6). -/
def Obligations.StepRunsDecodedWord : Prop :=
  ∀ (s : State) (σ : Strand) (pos : Nat) (cl : Cluster) (rest : List Choice) (w : Word), s.ch.agenda = .issue pos cl :: rest →
    let s1 : State := { s with ch := { s.ch with agenda := rest } }
    let turn (s2 : State) (w : Word) : State := { s2 with ch := { s2.ch with turn := { pos := pos, cl := cl, word := w, pfx := none } } }
    let now := (s.ch.core (coreOf pos)).freeze = 16 ∧ (s.ch.core (coreOf pos)).freezeAt = s.ch.cycle
    let ends (r : Host.Outcome State Fault Refusal) : Prop := step s = restuck r
    s.ch.strand? pos = some σ →
    (σ.trap.phase = .frozen → σ.trap.info.kind ≠ 1 → ends (.next s1)) ∧
    (¬(σ.trap.phase = .frozen ∧ σ.trap.info.kind ≠ 1) → ¬now →
      (s1.ch.turnGone pos cl = true ∨ s1.chosen σ cl = false → ends (.next s1)) ∧
      (s1.ch.turnGone pos cl = false → s1.chosen σ cl = true → let k := σ.cl cl
        (s1.ch.mayIssue σ cl = false → ends (.next s1)) ∧
        (s1.ch.mayIssue σ cl = true → k.image[k.pc / 4]? = none →
          ends (.next (s1.trapTo (turn s1 0).ch pos cl { cause := 0x14, step := 2 }))) ∧
        (s1.ch.mayIssue σ cl = true → k.image[k.pc / 4]? = some w →
          (wordSync w = false ∨ k.group = 0 ∧ (k.released = true ∨ k.issuesAlone = true) → wordHold w = false ∨ k.group ≠ 15 →
            (∀ i, decodeWord cl w = .ok i → ends (exec i (turn (s1.reopen pos cl) w))) ∧
            (decodeWord cl w = .error .illegalInstruction → ends (.next (s1.trapTo (turn s1 w).ch pos cl { cause := 0x01, step := 1 }))) ∧
            (decodeWord cl w = .error .illegalOperand → ends (.next (s1.trapTo (turn s1 w).ch pos cl { cause := 0x02, step := 3 })))) ∧
          (wordSync w = true ∧ k.group ≠ 0 ∨ wordHold w = true ∧ k.group = 15 →
            ends (.next (s1.trapTo (turn s1 0).ch pos cl { cause := 0x01 }))) ∧
          (wordSync w = true → k.group = 0 → k.released = false → k.issuesAlone = false → ends (.next s1)))))

/-- Every step of the machine answers a next state: no instruction, no event and no word stops it, from any state. That an empty agenda is
never a stop is the model's own order (log entry 1), and that an event that is not due changes nothing is log entry 73. -/
def Obligations.StepGoesOn : Prop := ∀ s : State, ∃ t, step s = .next t

/-- The canonical form of memory (one cell for a nonzero byte, addresses strictly rising) is kept by every step, whatever issues and
whatever the outside asks. That it holds after reset is in `ResetState`. -/
def Obligations.StepKeepsMemory : Prop := ∀ s t : State, memWf s.mem = true → step s = .next t → memWf t.mem = true
end

