-- ==== Sys2Proof/Laws/State.lean ====
section
/-! SUPPORT. What the updates of the state leave and change: register files, clusters, strands, cores. -/

namespace Sys2Proof.Machine

/-! Register files. -/

theorem nth_setNth {α : Type} (d : α) (l : List α) (n m : Nat) (v : α) :
    nth d (setNth d l n v) m = if m = n then v else nth d l m := by
  unfold nth
  induction n generalizing l m with
  | zero =>
    cases l <;> cases m <;> simp [setNth]
  | succ n ih =>
    cases l with
    | nil =>
      cases m with
      | zero => simp [setNth]
      | succ m => simpa [setNth] using ih [] m
    | cons x l =>
      cases m with
      | zero => simp [setNth]
      | succ m => simpa [setNth] using ih l m

/-! A cluster of a strand. -/

section
variable (σ : Strand) (k : Cluster) (f : ClusterSt → ClusterSt)
@[simp] theorem modCl_pos : (σ.modCl k f).pos = σ.pos := by cases k <;> rfl
@[simp] theorem modCl_who : (σ.modCl k f).who = σ.who := by cases k <;> rfl
@[simp] theorem modCl_s : (σ.modCl k f).s = σ.s := by cases k <;> rfl
@[simp] theorem modCl_od : (σ.modCl k f).od = σ.od := by cases k <;> rfl
@[simp] theorem modCl_gr : (σ.modCl k f).gr = σ.gr := by cases k <;> rfl
@[simp] theorem modCl_mr : (σ.modCl k f).mr = σ.mr := by cases k <;> rfl
@[simp] theorem modCl_vr : (σ.modCl k f).vr = σ.vr := by cases k <;> rfl
@[simp] theorem modCl_tk : (σ.modCl k f).tk = σ.tk := by cases k <;> rfl
@[simp] theorem modCl_busy : (σ.modCl k f).busy = σ.busy := by cases k <;> rfl
@[simp] theorem modCl_rdv : (σ.modCl k f).rdv = σ.rdv := by cases k <;> rfl
@[simp] theorem modCl_rdvs : (σ.modCl k f).rdvs = σ.rdvs := by cases k <;> rfl
@[simp] theorem modCl_trap : (σ.modCl k f).trap = σ.trap := by cases k <;> rfl
@[simp] theorem modCl_cl : (σ.modCl k f).cl k = f (σ.cl k) := by cases k <;> rfl
theorem modCl_cl_ne {j : Cluster} (h : j ≠ k) : (σ.modCl k f).cl j = σ.cl j := by cases k <;> cases j <;> first | rfl | exact absurd rfl h
end

/-! The state of G, M and V. -/

section
variable (σ : Strand) (p : Nat)
@[simp] theorem renamed_pos : (σ.renamed p).pos = p := rfl
@[simp] theorem renamed_who : (σ.renamed p).who = σ.who := rfl
@[simp] theorem renamed_s : (σ.renamed p).s = σ.s := rfl
@[simp] theorem renamed_od : (σ.renamed p).od = σ.od := rfl
@[simp] theorem renamed_cl (k : Cluster) : (σ.renamed p).cl k = σ.cl k := by cases k <;> rfl
@[simp] theorem renamed_gr : (σ.renamed p).gr = σ.gr := rfl
@[simp] theorem renamed_mr : (σ.renamed p).mr = σ.mr := rfl
@[simp] theorem renamed_vr : (σ.renamed p).vr = σ.vr := rfl
@[simp] theorem renamed_tk : (σ.renamed p).tk = σ.tk := rfl
end

/-! Scalar registers. -/

section
variable (σ : Strand) (n : Nat) (v : Reg)

@[simp] theorem settle_pos (r : RegName) : (σ.settle r).pos = σ.pos := rfl
@[simp] theorem settle_cl (r : RegName) (k : Cluster) : (σ.settle r).cl k = σ.cl k := by cases k <;> rfl

@[simp] theorem setS_pos : (σ.setS n v).pos = σ.pos := by unfold Strand.setS; split <;> rfl
@[simp] theorem setG_pos : (σ.setG n v).pos = σ.pos := by unfold Strand.setG; split <;> rfl
@[simp] theorem setM_pos : (σ.setM n v).pos = σ.pos := by unfold Strand.setM; split <;> rfl
@[simp] theorem setX_pos : (σ.setX n v).pos = σ.pos := by unfold Strand.setX; split <;> rfl
@[simp] theorem setLocal_pos (k : Cluster) : (σ.setLocal k n v).pos = σ.pos := by cases k <;> simp [Strand.setLocal]
@[simp] theorem setV_pos (x : BitVec 8192) : (σ.setV n x).pos = σ.pos := rfl
@[simp] theorem setO_pos (x : BitVec 8192) : (σ.setO n x).pos = σ.pos := rfl
@[simp] theorem setToken_pos (t : Token) : (σ.setToken n t).pos = σ.pos := by unfold Strand.setToken; split <;> rfl
@[simp] theorem endToken_pos (st : BitVec 2) (c : BitVec 8) : (σ.endToken n st c).pos = σ.pos := by
  unfold Strand.endToken; split <;> simp
@[simp] theorem settleTokens_pos (z : Bool) : (σ.settleTokens z).pos = σ.pos := rfl
@[simp] theorem setBinding_pos (b : Option Binding) : (σ.setBinding n b).pos = σ.pos := rfl

theorem getS_setS (m : Nat) : (σ.setS n v).getS m = if m = 0 then 0 else if m = n then v else σ.getS m := by
  by_cases hm : m = 0
  · simp [Strand.getS, hm]
  · by_cases hn : n = 0
    · simp [Strand.setS, Strand.getS, hm, hn]
    · simpa [Strand.setS, Strand.getS, Strand.settle, hm, hn] using nth_setNth 0 σ.s n m v

theorem getG_setG (m : Nat) : (σ.setG n v).getG m = if m = 0 then 0 else if m = n then v else σ.getG m := by
  by_cases hm : m = 0
  · simp [Strand.getG, hm]
  · by_cases hn : n = 0
    · simp [Strand.setG, Strand.getG, hm, hn]
    · simpa [Strand.setG, Strand.getG, Strand.settle, hm, hn] using nth_setNth 0 σ.gr.g n m v

theorem getM_setM (m : Nat) : (σ.setM n v).getM m = if m = 0 then 0 else if m = n then v else σ.getM m := by
  by_cases hm : m = 0
  · simp [Strand.getM, hm]
  · by_cases hn : n = 0
    · simp [Strand.setM, Strand.getM, hm, hn]
    · simpa [Strand.setM, Strand.getM, Strand.settle, hm, hn] using nth_setNth 0 σ.mr.m n m v

theorem getX_setX (m : Nat) : (σ.setX n v).getX m = if m = 0 then 0 else if m = n then v else σ.getX m := by
  by_cases hm : m = 0
  · simp [Strand.getX, hm]
  · by_cases hn : n = 0
    · simp [Strand.setX, Strand.getX, hm, hn]
    · simpa [Strand.setX, Strand.getX, Strand.settle, hm, hn] using nth_setNth 0 σ.vr.x n m v
end

/-! Strands and cores of the chip. -/

theorem find_map_pos (l : List Strand) (f : Strand → Strand) (p q : Nat) (hf : ∀ σ, (f σ).pos = σ.pos) :
    (l.map fun σ => if σ.pos == p then f σ else σ).find? (fun σ => σ.pos == q) =
      if q = p then (l.find? (fun σ => σ.pos == p)).map f else l.find? (fun σ => σ.pos == q) := by
  induction l with
  | nil => simp
  | cons x l ih =>
    by_cases hx : x.pos = p <;> by_cases hq : x.pos = q <;> by_cases hqp : q = p <;>
      simp_all

theorem strand?_modStrand (c : Chip) (p q : Nat) (f : Strand → Strand) (hf : ∀ σ, (f σ).pos = σ.pos) :
    (c.modStrand p f).strand? q = if q = p then (c.strand? p).map f else c.strand? q :=
  find_map_pos c.strands f p q hf

section
variable (c : Chip) (p : Nat) (f : Strand → Strand)
@[simp] theorem modStrand_agenda : (c.modStrand p f).agenda = c.agenda := rfl
@[simp] theorem modStrand_turn : (c.modStrand p f).turn = c.turn := rfl
@[simp] theorem modStrand_nextId : (c.modStrand p f).nextId = c.nextId := rfl
@[simp] theorem modStrand_free : (c.modStrand p f).free = c.free := rfl
@[simp] theorem modStrand_cycle : (c.modStrand p f).cycle = c.cycle := rfl
@[simp] theorem modStrand_side : (c.modStrand p f).side = c.side := rfl
@[simp] theorem modStrand_xl : (c.modStrand p f).xl = c.xl := rfl
@[simp] theorem modStrand_ops : (c.modStrand p f).ops = c.ops := rfl
@[simp] theorem modStrand_cores : (c.modStrand p f).cores = c.cores := rfl
@[simp] theorem modStrand_quads : (c.modStrand p f).quads = c.quads := rfl
@[simp] theorem modStrand_units : (c.modStrand p f).units = c.units := rfl
@[simp] theorem modStrand_jobs : (c.modStrand p f).jobs = c.jobs := rfl
@[simp] theorem modStrand_binds : (c.modStrand p f).binds = c.binds := rfl
@[simp] theorem modStrand_signals : (c.modStrand p f).signals = c.signals := rfl
@[simp] theorem modStrand_saved : (c.modStrand p f).saved = c.saved := rfl
@[simp] theorem modStrand_plat : (c.modStrand p f).plat = c.plat := rfl
@[simp] theorem modStrand_out : (c.modStrand p f).out = c.out := rfl
@[simp] theorem modStrand_core (k : Nat) : (c.modStrand p f).core k = c.core k := rfl
@[simp] theorem modStrand_quad (k : Nat) : (c.modStrand p f).quad k = c.quad k := rfl
@[simp] theorem modStrand_op? (k : Nat) : (c.modStrand p f).op? k = c.op? k := rfl
@[simp] theorem modStrand_job? (k : BitVec 64) : (c.modStrand p f).job? k = c.job? k := rfl
end

section
variable (c : Chip) (k : Nat) (f : Core → Core)

theorem modCore_cores : c.modCore k f = { c with cores := (c.modCore k f).cores } := by unfold Chip.modCore; split <;> rfl

@[simp] theorem modCore_strands : (c.modCore k f).strands = c.strands := by unfold Chip.modCore; split <;> rfl
@[simp] theorem modCore_ops : (c.modCore k f).ops = c.ops := by unfold Chip.modCore; split <;> rfl
@[simp] theorem modCore_turn : (c.modCore k f).turn = c.turn := by unfold Chip.modCore; split <;> rfl
@[simp] theorem modCore_agenda : (c.modCore k f).agenda = c.agenda := by unfold Chip.modCore; split <;> rfl
@[simp] theorem modCore_nextId : (c.modCore k f).nextId = c.nextId := by unfold Chip.modCore; split <;> rfl
@[simp] theorem modCore_cycle : (c.modCore k f).cycle = c.cycle := by unfold Chip.modCore; split <;> rfl
@[simp] theorem modCore_side : (c.modCore k f).side = c.side := by unfold Chip.modCore; split <;> rfl
@[simp] theorem modCore_xl : (c.modCore k f).xl = c.xl := by unfold Chip.modCore; split <;> rfl
@[simp] theorem modCore_quads : (c.modCore k f).quads = c.quads := by unfold Chip.modCore; split <;> rfl
@[simp] theorem modCore_units : (c.modCore k f).units = c.units := by unfold Chip.modCore; split <;> rfl
@[simp] theorem modCore_jobs : (c.modCore k f).jobs = c.jobs := by unfold Chip.modCore; split <;> rfl
@[simp] theorem modCore_binds : (c.modCore k f).binds = c.binds := by unfold Chip.modCore; split <;> rfl
@[simp] theorem modCore_signals : (c.modCore k f).signals = c.signals := by unfold Chip.modCore; split <;> rfl
@[simp] theorem modCore_saved : (c.modCore k f).saved = c.saved := by unfold Chip.modCore; split <;> rfl
@[simp] theorem modCore_plat : (c.modCore k f).plat = c.plat := by unfold Chip.modCore; split <;> rfl
@[simp] theorem modCore_out : (c.modCore k f).out = c.out := by unfold Chip.modCore; split <;> rfl
@[simp] theorem modCore_strand? (p : Nat) : (c.modCore k f).strand? p = c.strand? p := by unfold Chip.strand?; rw [modCore_strands]
@[simp] theorem modCore_op? (p : Nat) : (c.modCore k f).op? p = c.op? p := by unfold Chip.op?; rw [modCore_ops]
@[simp] theorem modCore_quad (p : Nat) : (c.modCore k f).quad p = c.quad p := by unfold Chip.quad; rw [modCore_quads]
@[simp] theorem modCore_job? (p : BitVec 64) : (c.modCore k f).job? p = c.job? p := by unfold Chip.job?; rw [modCore_jobs]
end

theorem find_map_core (l : List Core) (f : Core → Core) (k n : Nat) (hf : ∀ x, (f x).id = x.id) :
    (l.map fun x => if x.id == k then f x else x).find? (fun x => x.id == n) =
      if n = k then (l.find? (fun x => x.id == k)).map f else l.find? (fun x => x.id == n) := by
  induction l with
  | nil => simp
  | cons x l ih =>
    by_cases hx : x.id = k <;> by_cases hq : x.id = n <;> by_cases hqp : n = k <;>
      simp_all

theorem core_modCore (c : Chip) (k n : Nat) (f : Core → Core) (hf : ∀ x, (f x).id = x.id) :
    (c.modCore k f).core n = if n = k then f (c.core k) else c.core n := by
  unfold Chip.modCore Chip.core
  split
  · rename_i h
    simp only [find_map_core _ _ _ _ hf]
    split
    · rw [List.any_eq_true] at h
      obtain ⟨x, hx, hk⟩ := h
      cases hfind : c.cores.find? (fun x => x.id == k) with
      | none => exact absurd hk (by simpa using (List.find?_eq_none.mp hfind) x hx)
      | some y => simp
    · rfl
  · rename_i h
    have hnone : c.cores.find? (fun x => x.id == k) = none := by
      rw [List.find?_eq_none]; intro x hx hk; exact h (List.any_eq_true.mpr ⟨x, hx, hk⟩)
    have hid : (f (Core.fresh k)).id = k := by rw [hf]; rfl
    simp only [List.find?_cons, hid]
    by_cases hnk : n = k
    · subst hnk; simp [hnone]
    · have : (k == n) = false := by simpa using Ne.symm hnk
      simp [hnk, this]

/-! Correction and translation (R48, R58, R71): what they leave. -/

/-- Two chips with the same strands, operations, names, turn and cycle. -/
structure Chip.Alike (c d : Chip) : Prop where
  strands : d.strands = c.strands
  ops : d.ops = c.ops
  next : d.nextId = c.nextId
  turn : d.turn = c.turn
  cycle : d.cycle = c.cycle

theorem Chip.Alike.refl (c : Chip) : c.Alike c := ⟨rfl, rfl, rfl, rfl, rfl⟩

theorem Chip.Alike.trans {a b c : Chip} (h : a.Alike b) (k : b.Alike c) : a.Alike c :=
  ⟨k.1.trans h.1, k.2.trans h.2, k.3.trans h.3, k.4.trans h.4, k.5.trans h.5⟩

theorem Chip.Alike.strand? {a b : Chip} (h : a.Alike b) (p : Nat) : b.strand? p = a.strand? p := by
  unfold Chip.strand?; rw [h.strands]

theorem modCore_alike (c : Chip) (k : Nat) (f : Core → Core) : c.Alike (c.modCore k f) := by
  constructor <;> simp

theorem modQuad_alike (c : Chip) (k : Nat) (f : Quad → Quad) : c.Alike (c.modQuad k f) := by
  unfold Chip.modQuad; split <;> exact ⟨rfl, rfl, rfl, rfl, rfl⟩

theorem openService_alike (c : Chip) (n m : Nat) : c.Alike (c.openService n m) := by
  unfold Chip.openService; split <;> exact ⟨rfl, rfl, rfl, rfl, rfl⟩

theorem countCorrected_alike (c : Chip) (k : Nat) : c.Alike (c.countCorrected k) := by
  unfold Chip.countCorrected
  dsimp only
  split
  · exact ((modQuad_alike _ _ _).trans (modQuad_alike _ _ _)).trans (openService_alike _ _ _)
  · exact modQuad_alike _ _ _

theorem countMemory_alike (c : Chip) (a lo : Nat) : c.Alike (c.countMemory a lo) := by
  unfold Chip.countMemory
  dsimp only
  split
  · refine Chip.Alike.trans ?_ (openService_alike _ _ _); exact ⟨rfl, rfl, rfl, rfl, rfl⟩
  · exact ⟨rfl, rfl, rfl, rfl, rfl⟩

theorem mendWord_alike (c : Chip) (w : Nat) : c.Alike (c.mendWord w) := by
  unfold Chip.mendWord
  dsimp only
  split
  · refine Chip.Alike.trans ?_ (countCorrected_alike _ _); exact ⟨rfl, rfl, rfl, rfl, rfl⟩
  · refine Chip.Alike.trans ?_ (countMemory_alike _ _ _); exact ⟨rfl, rfl, rfl, rfl, rfl⟩

theorem correctWord_alike (c : Chip) (w : Nat) : c.Alike (c.correctWord w) := by
  unfold Chip.correctWord
  split
  · exact (mendWord_alike _ _).trans (modCore_alike _ _ _)
  · exact mendWord_alike _ _

theorem correct_alike (c : Chip) (rs : List (Nat × Nat)) (gs : List Nat) : c.Alike (c.correct rs gs) := by
  unfold Chip.correct
  generalize c.side.correctable rs gs = l
  induction l generalizing c with
  | nil => exact ⟨rfl, rfl, rfl, rfl, rfl⟩
  | cons w l ih => exact (correctWord_alike c w).trans (ih _)

theorem fillTlb_alike (c : Chip) (σ : Strand) (ps : List Page) : c.Alike (c.fillTlb σ ps) := by
  unfold Chip.fillTlb
  dsimp only
  refine Chip.Alike.trans ?_ (correct_alike _ _ _); exact ⟨rfl, rfl, rfl, rfl, rfl⟩

@[simp] theorem serve_id (k : Core) (cl : Cluster) (slot : Nat) (h : Bool) : (k.serve cl slot h).id = k.id := rfl

end Sys2Proof.Machine
end

