-- ==== Sys2Proof/Laws/Issue.lean ====
section
/-! SUPPORT. What issuing a word can come to: one lemma for each shape of a meaning's answer. -/

namespace Sys2Proof.Machine

variable {s : State} {σ : Strand} {srcs : List RegName} {body : Strand → Res}

/-- A word at issue does what its body says. -/
theorem issue_eq (h : AtIssue s σ srcs) : issue s srcs body = finish s (body σ) := by
  unfold issue; rw [h.strand]; simp [h.free]

theorem strand_pos {c : Chip} {p : Nat} (h : c.strand? p = some σ) : σ.pos = p := by
  simpa using List.find?_some h

@[simp] theorem commit_quiet (c : Chip) : s.commit (Eff.quiet c) = { mem := s.mem, ch := c } := rfl

theorem wordIssued_strand? (c : Chip) (t : Turn) (j : Option Nat) (p : Nat) :
    (c.wordIssued t j).strand? p = if p = t.pos then (c.strand? t.pos).map fun τ => τ.advanced t j else c.strand? p := by
  unfold Chip.wordIssued
  rw [modCore_strand?, strand?_modStrand _ _ _ _ (by intro; simp)]
  rfl

theorem wordIssued_core (c : Chip) (t : Turn) (j : Option Nat) (n : Nat) :
    (c.wordIssued t j).core n = if n = coreOf t.pos then (c.core n).serve t.cl (t.pos % 4) (wordHold t.lead) else c.core n := by
  unfold Chip.wordIssued
  rw [core_modCore _ _ _ _ (by intro; simp)]
  split
  · rename_i h; subst h; rfl
  · rfl

theorem wordIssued_rest (c : Chip) (t : Turn) (j : Option Nat) :
    { c.wordIssued t j with strands := c.strands, cores := c.cores } = c := by
  unfold Chip.wordIssued; rw [modCore_cores]; rfl

@[simp] theorem wordIssued_ops (c : Chip) (t : Turn) (j : Option Nat) : (c.wordIssued t j).ops = c.ops := by
  unfold Chip.wordIssued; simp
@[simp] theorem wordIssued_nextId (c : Chip) (t : Turn) (j : Option Nat) : (c.wordIssued t j).nextId = c.nextId := by
  unfold Chip.wordIssued; simp

@[simp] theorem quiet_chip (c : Chip) : (Eff.quiet c).chip = c := rfl

/-- A word that changes its own strand alone. -/
theorem finish_go (f : Strand → Strand) (jump : Option Nat) (h : s.ch.strand? s.ch.turn.pos = some σ) (hf : ∀ τ, (f τ).pos = τ.pos) :
    ∃ t, finish s (.go (Eff.quiet (s.ch.modStrand s.ch.turn.pos f)) jump) = .next t ∧ Issued s t (f σ) jump := by
  refine ⟨{ mem := s.mem, ch := (s.ch.modStrand s.ch.turn.pos f).wordIssued s.ch.turn jump }, rfl, ?_⟩
  refine ⟨rfl, ?_, ?_, ?_, ?_, ?_⟩
  · simp only [wordIssued_strand?]
    rw [strand?_modStrand _ _ _ _ hf, h]
    simp
  · intro p hp
    simp only [wordIssued_strand?, hp, if_false]
    rw [strand?_modStrand _ _ _ _ hf]
    simp [hp]
  · intro n hn
    simp only [wordIssued_core]
    simp [hn]
  · simp only [wordIssued_core]
    simp [Core.serve, Core.held]
  · exact (congrArg (fun c : Chip => { c with strands := s.ch.strands, cores := s.ch.cores })
      (wordIssued_rest (s.ch.modStrand s.ch.turn.pos f) s.ch.turn jump) : _)

theorem finish_onStrand (f : Strand → Strand) (h : s.ch.strand? s.ch.turn.pos = some σ) (hf : ∀ τ, (f τ).pos = τ.pos) :
    ∃ t, finish s (onStrand s f) = .next t ∧ Issued s t (f σ) none := finish_go f none h hf

/-- The shared form of the meanings that change one strand. -/
theorem issue_onStrand (h : AtIssue s σ srcs) (f : Strand → Strand) (hf : ∀ τ, (f τ).pos = τ.pos) (hb : body σ = onStrand s f) :
    ∃ t, issue s srcs body = .next t ∧ Issued s t (f σ) none := by
  rw [issue_eq h, hb]; exact finish_onStrand f h.strand hf

/-- The shared form of R245. -/
theorem alu_next {d : BitVec 5} {rs : List (BitVec 5)} {f : Strand → Reg} (h : AtIssue s σ (rs.map fun r => .s r.toNat)) :
    ∃ t, alu s d rs f = .next t ∧ Issued s t (σ.setS d.toNat (f σ)) none :=
  issue_onStrand h (fun τ => τ.setS d.toNat (f σ)) (by intro; simp) rfl

/-- A choice between cores with the same noted faults leaves those. -/
theorem ite_faults (P : Prop) [Decidable P] (a b : Core) (h : b.faults = a.faults) : (if P then a else b).faults = a.faults := by
  split <;> simp [h]

/-- What taking a trap does to a strand in its program (R391). -/
theorem takeTrap_run {c : Chip} {p : Nat} {cl : Cluster} {r : TrapReq} (h : c.strand? p = some σ) (hp : σ.trap.phase = .run) :
    (c.takeTrap p cl r).strand? p = some (σ.trapped cl r c.cycle) ∧
    (∀ q, q ≠ p → (c.takeTrap p cl r).strand? q = c.strand? q) ∧ (c.takeTrap p cl r).ops = c.ops ∧
    ((c.takeTrap p cl r).core (coreOf p)).freeze =
      (if (c.core (coreOf p)).freeze = 0 ∧ (c.core (coreOf p)).faults = [] then 16 else (c.core (coreOf p)).freeze) ∧
    ((c.takeTrap p cl r).core (coreOf p)).faults =
      joinFault { slot := p % 4, cause := r.cause, kind := r.kind, cycle := c.cycle } (c.core (coreOf p)).faults := by
  have hpr : σ.privileged = false := by simp [Strand.privileged, hp]
  unfold Chip.takeTrap Chip.freezeCore
  simp only [h, hpr, Bool.false_eq_true, if_false]
  refine ⟨?_, ?_, ?_, ?_, ?_⟩
  · simp only [modCore_strand?]
    rw [strand?_modStrand _ _ _ _ (by intro τ; (repeat' split) <;> rfl), h]
    simp [hp, Strand.trapped]
  · intro p hpos
    simp only [modCore_strand?]
    rw [strand?_modStrand _ _ _ _ (by intro τ; (repeat' split) <;> rfl)]
    simp [hpos]
  · simp
  · rw [core_modCore _ _ _ _ (by intro x; split <;> rfl)]
    simp only [modStrand_core, if_true, apply_ite Core.freeze, List.isEmpty_iff]
  · rw [core_modCore _ _ _ _ (by intro x; split <;> rfl)]
    simp only [modStrand_core, if_true, modStrand_cycle]
    exact ite_faults _ _ _ rfl

/-- A precise fault in a program is a trap (R22, R391). -/
theorem finish_trap (r : TrapReq) (hr : r.after = false) (h : s.ch.strand? s.ch.turn.pos = some σ) (hp : σ.trap.phase = .run) :
    ∃ t, finish s (.trap r) = .next t ∧ Trapped s t σ r := by
  have hpr : σ.privileged = false := by simp [Strand.privileged, hp]
  refine ⟨{ mem := s.mem, ch := s.ch.takeTrap s.ch.turn.pos s.ch.turn.cl r }, ?_, ?_⟩
  · simp [finish, State.trapTo, State.commit, trapPoint, hr, h, hpr, memWriteAll]
  · obtain ⟨h1, h2, h3, h4, h5⟩ := takeTrap_run (c := s.ch) (cl := s.ch.turn.cl) (r := r) h hp
    exact ⟨rfl, h1, h2, h3, h4, h5⟩

/-- The same for a trap whose return point is the word after (R392). -/
theorem finish_trap_after (r : TrapReq) (hr : r.after = true) (h : s.ch.strand? s.ch.turn.pos = some σ) (hp : σ.trap.phase = .run) :
    ∃ t, finish s (.trap r) = .next t ∧ Trapped s t (σ.advanced s.ch.turn none) r := by
  have hpr : σ.privileged = false := by simp [Strand.privileged, hp]
  have hs : (s.ch.wordIssued s.ch.turn none).strand? s.ch.turn.pos = some (σ.advanced s.ch.turn none) := by
    rw [wordIssued_strand?, h]; simp
  have hph : (σ.advanced s.ch.turn none).trap.phase = .run := by simpa [Strand.advanced] using hp
  have hpr2 : (σ.advanced s.ch.turn none).privileged = false := by simp [Strand.privileged, hph]
  have hcy : (s.ch.wordIssued s.ch.turn none).cycle = s.ch.cycle := by unfold Chip.wordIssued; simp
  refine ⟨{ mem := s.mem, ch := (s.ch.wordIssued s.ch.turn none).takeTrap s.ch.turn.pos s.ch.turn.cl r }, ?_, ?_⟩
  · simp [finish, State.trapTo, State.commit, trapPoint, hr, hs, hpr2, memWriteAll]
  · obtain ⟨h1, h2, h3, h4, h5⟩ := takeTrap_run (c := s.ch.wordIssued s.ch.turn none) (cl := s.ch.turn.cl) (r := r) hs hph
    refine ⟨rfl, hcy ▸ h1, fun p hp => ?_, by simpa using h3, ?_, ?_⟩
    · simp only [h2 p hp, wordIssued_strand?, hp, if_false]
    · simpa [wordIssued_core, Core.serve] using h4
    · simpa [wordIssued_core, Core.serve, hcy] using h5

end Sys2Proof.Machine
end

