-- ==== Sys2Proof/Laws/Memory.lean ====
section
/-! SUPPORT. Memory: what each memory operation reads as afterwards, and that it keeps the canonical form. -/

namespace Sys2Proof.Machine

/-- The canonical form as a proposition: addresses strictly rising and no zero byte listed. -/
theorem memWf_iff (m : List Host.Cell) :
    memWf m = true ↔ m.Pairwise (fun c d => c.1 < d.1) ∧ ∀ c ∈ m, c.2 ≠ 0 := by
  induction m with
  | nil => simp [memWf]
  | cons c m ih =>
    cases m with
    | nil => simp [memWf]
    | cons d m =>
      simp only [memWf, Bool.and_eq_true, decide_eq_true_eq, bne_iff_ne, ih, List.pairwise_cons, List.mem_cons, forall_eq_or_imp]
      constructor
      · rintro ⟨⟨h1, h2⟩, ⟨h3, h4⟩, h5, h6⟩
        exact ⟨⟨⟨h1, fun a ha => Nat.lt_trans h1 (h3 a ha)⟩, h3, h4⟩, h2, h5, h6⟩
      · rintro ⟨⟨⟨h1, _⟩, h3, h4⟩, h2, h5, h6⟩
        exact ⟨⟨h1, h2⟩, ⟨h3, h4⟩, h5, h6⟩

/-- Dropping cells keeps the canonical form. -/
theorem memWf_filter {m : List Host.Cell} (p : Host.Cell → Bool) (h : memWf m = true) : memWf (m.filter p) = true := by
  rw [memWf_iff] at h ⊢
  exact ⟨h.1.filter _, fun c hc => h.2 c (List.mem_filter.mp hc).1⟩

/-- Cells below `a` followed by cells from `a` on are in the canonical form. -/
theorem memWf_append {l r : List Host.Cell} (a : Nat) (hl : memWf l = true) (hr : memWf r = true)
    (h1 : ∀ c ∈ l, c.1 < a) (h2 : ∀ c ∈ r, a ≤ c.1) : memWf (l ++ r) = true := by
  rw [memWf_iff] at hl hr ⊢
  refine ⟨List.pairwise_append.mpr ⟨hl.1, hr.1, fun c hc d hd => Nat.lt_of_lt_of_le (h1 c hc) (h2 d hd)⟩, fun c hc => ?_⟩
  rcases List.mem_append.mp hc with h | h
  · exact hl.2 c h
  · exact hr.2 c h

/-- The addresses of the cells of a byte string. -/
theorem cellsOf_range (a : Nat) (bs : List Byte) : ∀ c ∈ cellsOf a bs, a ≤ c.1 ∧ c.1 < a + bs.length := by
  induction bs generalizing a with
  | nil => simp [cellsOf]
  | cons b bs ih =>
    intro c hc
    simp only [cellsOf] at hc
    split at hc
    · have := ih (a + 1) c hc; simp only [List.length_cons]; omega
    · rcases List.mem_cons.mp hc with rfl | hc
      · simp
      · have := ih (a + 1) c hc; simp only [List.length_cons]; omega

theorem memWf_cellsOf (a : Nat) (bs : List Byte) : memWf (cellsOf a bs) = true := by
  induction bs generalizing a with
  | nil => rfl
  | cons b bs ih =>
    simp only [cellsOf]
    split
    · exact ih (a + 1)
    · rename_i hb
      refine memWf_append (l := [(a, b)]) (a + 1) ?_ (ih (a + 1)) ?_ fun c hc => (cellsOf_range _ _ c hc).1
      · simpa [memWf] using hb
      · simp

/-- A write keeps the canonical form. -/
theorem memWf_memWrite {m : List Host.Cell} (h : memWf m = true) (a : Nat) (bs : List Byte) :
    memWf (memWrite m a bs) = true := by
  refine memWf_append (a + bs.length) (memWf_append a (memWf_filter _ h) (memWf_cellsOf a bs) ?_ ?_) (memWf_filter _ h) ?_ ?_
  · intro c hc; simpa using (List.mem_filter.mp hc).2
  · exact fun c hc => (cellsOf_range a bs c hc).1
  · intro c hc
    rcases List.mem_append.mp hc with h | h
    · have : c.1 < a := by simpa using (List.mem_filter.mp h).2
      omega
    · exact (cellsOf_range a bs c h).2
  · intro c hc; simpa using (List.mem_filter.mp hc).2

theorem memWf_memWriteAll {m : List Host.Cell} (h : memWf m = true) (ws : List (Nat × List Byte)) :
    memWf (memWriteAll m ws) = true := by
  induction ws generalizing m with
  | nil => exact h
  | cons w ws ih => exact ih (memWf_memWrite h w.1 w.2)

theorem memWf_memClear {m : List Host.Cell} (h : memWf m = true) (a n : Nat) : memWf (memClear m a n) = true :=
  memWf_filter _ h

/-! Reads. -/

theorem memRead_append (l r : List Host.Cell) (a : Nat) (h : ∀ c ∈ l, c.1 ≠ a) : memRead (l ++ r) a = memRead r a := by
  induction l with
  | nil => rfl
  | cons c l ih =>
    simp only [List.cons_append, memRead, if_neg (h c (List.mem_cons_self ..))]
    exact ih fun d hd => h d (List.mem_cons_of_mem _ hd)

theorem memRead_none (l : List Host.Cell) (a : Nat) (h : ∀ c ∈ l, c.1 ≠ a) : memRead l a = 0 := by
  have := memRead_append l [] a h
  rwa [List.append_nil] at this

/-- Filtering by address keeps what the addresses kept read as. -/
theorem memRead_filter (m : List Host.Cell) (p : Nat → Bool) (a : Nat) :
    memRead (m.filter fun c => p c.1) a = if p a then memRead m a else 0 := by
  induction m with
  | nil => simp [memRead]
  | cons c m ih =>
    rw [List.filter_cons]
    by_cases e : c.1 = a
    · by_cases hc : p c.1
      · rw [if_pos hc, if_pos (e ▸ hc)]; simp only [memRead, if_pos e]
      · rw [if_neg hc, ih, if_neg (e ▸ hc), if_neg (e ▸ hc)]
    · by_cases hc : p c.1
      · rw [if_pos hc]; simp only [memRead, if_neg e]; exact ih
      · rw [if_neg hc, ih]; simp only [memRead, if_neg e]

theorem memRead_append_left (l r : List Host.Cell) (a : Nat) (h : ∀ c ∈ r, c.1 ≠ a) : memRead (l ++ r) a = memRead l a := by
  induction l with
  | nil => exact memRead_none r a h
  | cons c l ih => simp only [List.cons_append, memRead, ih]

theorem memRead_cellsOf (a : Nat) (bs : List Byte) (i : Nat) (h : i < bs.length) :
    memRead (cellsOf a bs) (a + i) = nth 0 bs i := by
  induction bs generalizing a i with
  | nil => simp at h
  | cons b bs ih =>
    simp only [cellsOf]
    cases i with
    | zero =>
      split
      · rename_i hb
        subst hb
        rw [memRead_none _ _ fun c hc => by have := (cellsOf_range _ _ c hc).1; omega]
        simp [nth]
      · simp [memRead, nth]
    | succ i =>
      have e : a + (i + 1) = a + 1 + i := by omega
      have := ih (a + 1) i (by simpa using h)
      split
      · rw [e, this]; simp [nth]
      · rw [memRead, if_neg (by show ¬ a = _; omega), e, this]; simp [nth]

/-- Reading back what was written. -/
theorem memRead_memWrite_in (m : List Host.Cell) (a : Nat) (bs : List Byte) (i : Nat) (h : i < bs.length) :
    memRead (memWrite m a bs) (a + i) = nth 0 bs i := by
  unfold memWrite
  rw [memRead_append_left _ _ _ (fun c hc => ?_), memRead_append _ _ _ (fun c hc => ?_), memRead_cellsOf a bs i h]
  · have : c.1 < a := by simpa using (List.mem_filter.mp hc).2
    omega
  · have : a + bs.length ≤ c.1 := by simpa using (List.mem_filter.mp hc).2
    omega

/-- A write leaves every byte outside it as it was. -/
theorem memRead_memWrite_out (m : List Host.Cell) (a : Nat) (bs : List Byte) (b : Nat) (h : b < a ∨ a + bs.length ≤ b) :
    memRead (memWrite m a bs) b = memRead m b := by
  unfold memWrite
  have hc : ∀ c ∈ cellsOf a bs, c.1 ≠ b := fun c hc => by have := cellsOf_range a bs c hc; omega
  have f1 : (m.filter fun c => decide (c.1 < a)) = m.filter fun c => (fun x => decide (x < a)) c.1 := rfl
  have f2 : (m.filter fun c => decide (a + bs.length ≤ c.1)) = m.filter fun c => (fun x => decide (a + bs.length ≤ x)) c.1 := rfl
  rcases h with h | h
  · rw [memRead_append_left _ _ _ (fun c hc => ?_), memRead_append_left _ _ _ hc, f1, memRead_filter m fun x => decide (x < a)]
    · simp [h]
    · have : a + bs.length ≤ c.1 := by simpa using (List.mem_filter.mp hc).2
      omega
  · rw [List.append_assoc, memRead_append _ _ _ (fun c hc => ?_), memRead_append _ _ _ hc, f2,
      memRead_filter m fun x => decide (a + bs.length ≤ x)]
    · simp [h]
    · have : c.1 < a := by simpa using (List.mem_filter.mp hc).2
      omega

end Sys2Proof.Machine
end

