-- ==== Sys2Proof/Laws/Keep.lean ====
section
/-! SUPPORT. The canonical form of memory under the functions the meanings are built from: each keeps it. -/

namespace Sys2Proof.Machine

theorem memWf_memMove {m : List Host.Cell} (h : memWf m = true) (a b n : Nat) : memWf (memMove m a b n) = true := by
  have hr : memWf (memClear (memClear m a n) b n) = true := memWf_memClear (memWf_memClear h a n) b n
  have hm := (memWf_iff m).mp h
  have moved : memWf ((m.filter fun c => decide (a ≤ c.1 ∧ c.1 < a + n)).map fun c => (c.1 - a + b, c.2)) = true := by
    rw [memWf_iff, List.pairwise_map]
    refine ⟨(hm.1.filter _).imp_of_mem fun hc hd h1 => ?_, fun c hc => ?_⟩
    · have := (List.mem_filter.mp hc).2
      simp only [decide_eq_true_eq] at this
      omega
    · obtain ⟨d, hd, rfl⟩ := List.mem_map.mp hc
      exact hm.2 d (List.mem_filter.mp hd).1
  have range : ∀ c ∈ (m.filter fun c => decide (a ≤ c.1 ∧ c.1 < a + n)).map fun c => (c.1 - a + b, c.2), b ≤ c.1 ∧ c.1 < b + n := by
    intro c hc
    obtain ⟨d, hd, rfl⟩ := List.mem_map.mp hc
    have := (List.mem_filter.mp hd).2
    simp only [decide_eq_true_eq] at this
    show b ≤ d.1 - a + b ∧ d.1 - a + b < b + n
    omega
  refine memWf_append (b + n) (memWf_append b (memWf_filter _ hr) moved ?_ fun c hc => (range c hc).1) (memWf_filter _ hr) ?_ ?_
  · intro c hc; simpa using (List.mem_filter.mp hc).2
  · intro c hc
    rcases List.mem_append.mp hc with h | h
    · have : c.1 < b := by simpa using (List.mem_filter.mp h).2
      omega
    · exact (range c h).2
  · intro c hc; simpa using (List.mem_filter.mp hc).2

theorem memWf_memRestore {m : List Host.Cell} (h : memWf m = true) (a n : Nat) (cells : List Host.Cell) :
    memWf (memRestore m a n cells) = true := memWf_memWriteAll (memWf_memClear h a n) _

/-- A fold keeps what its step keeps. -/
theorem memWf_foldl {α : Type} {f : State → α → State} (hf : ∀ s x, memWf s.mem = true → memWf (f s x).mem = true) (l : List α) :
    ∀ {s : State}, memWf s.mem = true → memWf (l.foldl f s).mem = true := by
  induction l with
  | nil => exact fun h => h
  | cons x l ih => exact fun h => ih (hf _ x h)

theorem memWf_foldlMem {α : Type} {f : List Host.Cell → α → List Host.Cell} (hf : ∀ m x, memWf m = true → memWf (f m x) = true) (l : List α) :
    ∀ {m : List Host.Cell}, memWf m = true → memWf (l.foldl f m) = true := by
  induction l with
  | nil => exact fun h => h
  | cons x l ih => exact fun h => ih (hf _ x h)

variable {s : State}

theorem memWf_commit (h : memWf s.mem = true) (e : Eff) : memWf (s.commit e).mem = true := memWf_memWriteAll h _

theorem memWf_trapTo (h : memWf s.mem = true) (c : Chip) (pos : Nat) (cl : Cluster) (t : TrapReq) :
    memWf (s.trapTo c pos cl t).mem = true := memWf_commit h _

theorem memWf_settle (h : memWf s.mem = true) (o : Op) (r : Perf) : memWf (s.settle o r).mem = true := by
  unfold State.settle
  cases r <;> simp only <;> (repeat' split) <;>
    first
    | exact memWf_commit (memWf_commit h _) _
    | exact memWf_commit h _

theorem memWf_discard (h : memWf s.mem = true) (o : Op) (cause : BitVec 8) : memWf (s.discard o cause).mem = true := by
  unfold State.discard
  simp only
  split
  · exact memWf_commit h _
  · exact h

theorem memWf_afterEnd (h : memWf s.mem = true) (o : Op) : memWf (s.afterEnd o).mem = true := h

theorem memWf_countErrors (h : memWf s.mem = true) (o : Op) (r : Perf) : memWf (s.countErrors o r).mem = true := by
  unfold State.countErrors
  cases r <;> simp only <;> (try split) <;> exact h

theorem memWf_settleEntry (again : Nat → Bool) (s : State) (e : Score) (h : memWf s.mem = true) :
    memWf (settleEntry again s e).mem = true := by
  unfold settleEntry
  split
  · exact h
  · simp only
    split
    · exact h
    · show memWf (State.discard { mem := s.mem, ch := _ } _ _).mem = true
      refine memWf_discard ?_ _ _
      exact h

/-! What the meanings answer. -/

/-- An outcome whose next state, if it has one, has the canonical form. -/
def Kept (o : Host.Outcome State Fault Refusal) : Prop := ∀ t, o = .next t → memWf t.mem = true

theorem Kept.next {t : State} (h : memWf t.mem = true) : Kept (.next t) := fun _ e => by cases e; exact h
theorem Kept.fault (f : Fault) : Kept (.fault f) := fun _ e => by cases e
theorem Kept.refused (r : Refusal) : Kept (.refused r) := fun _ e => by cases e

theorem kept_finish (h : memWf s.mem = true) (r : Res) : Kept (finish s r) := by
  cases r <;> refine .next ?_
  · exact memWf_commit h _
  · exact memWf_trapTo h _ _ _ _
  · exact memWf_trapTo h _ _ _ _
  · exact h

/-- Whatever word issues, memory keeps its canonical form. -/
theorem kept_issue (h : memWf s.mem = true) (srcs : List RegName) (body : Strand → Res) : Kept (issue s srcs body) := by
  unfold issue
  split
  · exact .fault _
  · split
    · exact kept_finish h _
    · exact .next h

theorem kept_resume (h : memWf s.mem = true) (a : BitVec 5) : Kept (execResume a s) := by
  unfold execResume
  simp only
  split
  · exact .fault _
  · split
    · exact .next h
    · split
      · exact .next (memWf_trapTo h _ _ _ _)
      · split
        · exact .next (memWf_trapTo h _ _ _ _)
        · split
          · exact .next (memWf_trapTo h _ _ _ _)
          · exact .next (memWf_foldl (memWf_settleEntry _) _ h)

theorem kept_lsplit (h : memWf s.mem = true) (a b c : BitVec 8) : Kept (execLsplit a b c s) := by
  unfold execLsplit
  split
  · exact .fault _
  · dsimp only
    split
    · exact kept_issue h _ _
    · split
      · exact kept_issue h _ _
      · split
        · split
          · exact kept_issue h _ _
          · refine kept_issue ?_ _ _
            exact h
        · exact kept_issue h _ _

end Sys2Proof.Machine
end

