-- ==== Sys2Proof/Laws/Launch.lean ====
section
/-! SUPPORT. Putting an operation in flight: what the chip holds of it, and that the updates which go with it leave it so. -/

namespace Sys2Proof.Machine

variable {s : State} {σ : Strand} {o : Op} {c : Chip}

/-- The chip holds operation `o`, put in flight from `s` by the strand σ in its slot. -/
structure Put (s : State) (c : Chip) (σ : Strand) (o : Op) : Prop where
  ops : c.ops = s.ch.ops ++ [o]
  next : c.nextId = s.ch.nextId + 1
  turn : c.turn.pos = s.ch.turn.pos
  others : ∀ p, p ≠ s.ch.turn.pos → c.strand? p = s.ch.strand? p
  own : ∃ τ, c.strand? s.ch.turn.pos = some τ ∧ τ.s = σ.s ∧ τ.od = σ.od ∧ τ.gr.g = σ.gr.g ∧ τ.gr.gi = σ.gr.gi ∧
    τ.gr.ch = σ.gr.ch ∧ τ.mr = σ.mr ∧ τ.vr.v = σ.vr.v ∧ τ.vr.x = σ.vr.x ∧ τ.vr.vflags = σ.vr.vflags ∧ τ.trap = σ.trap ∧
    (∀ d, o.od = some d → ((τ.cl o.cl).stream (odStream d)).issued = o.seq ∧
      ((τ.cl o.cl).stream (odStream d)).completed = ((σ.cl o.cl).stream (odStream d)).completed) ∧
    (∀ r ∈ o.dest, r ≠ .s 0 → r ≠ .g 0 → r ≠ .m 0 → r ≠ .x 0 → (⟨r, o.id⟩ : Busy) ∈ τ.busy)

@[simp] theorem modStream_stream (k : ClusterSt) (n m : Nat) (f : Stream → Stream) :
    (k.modStream n f).stream m = if m = n then f (k.stream n) else k.stream m := nth_setNth _ _ _ _ _

theorem strand?_addOp (c : Chip) (o : Op) (p : Nat) : (c.addOp o).strand? p = (c.modStrand o.pos fun σ =>
    let σ1 := match o.od with
      | some d => σ.modCl o.cl fun k => k.modStream (odStream d) fun x => { x with issued := x.issued + 1, exh := false }
      | none => σ
    let ds := o.dest.filter fun r => match r with
      | .s 0 => false
      | .g 0 => false
      | .m 0 => false
      | .x 0 => false
      | _ => true
    { σ1 with busy := (ds.map fun r => { reg := r, op := o.id : Busy }) ++ σ1.busy.filter fun b => !ds.contains b.reg }).strand? p := rfl

theorem put_addOp (h : c.strand? s.ch.turn.pos = some σ) (hs : ∀ p, p ≠ s.ch.turn.pos → c.strand? p = s.ch.strand? p)
    (ho : c.ops = s.ch.ops) (hn : c.nextId = s.ch.nextId) (ht : c.turn.pos = s.ch.turn.pos) (hp : o.pos = s.ch.turn.pos)
    (hq : ∀ d, o.od = some d → o.seq = ((σ.cl o.cl).stream (odStream d)).issued + 1) : Put s (c.addOp o) σ o := by
  refine ⟨?_, ?_, ht, ?_, ?_⟩
  · simp [Chip.addOp, ho]
  · simp [Chip.addOp, hn]
  · intro p hne
    rw [strand?_addOp, strand?_modStrand _ _ _ _ (by intro τ; cases o.od <;> simp), hp]
    simp [hne, hs p hne]
  · rw [strand?_addOp, strand?_modStrand _ _ _ _ (by intro τ; cases o.od <;> simp), hp, h]
    simp only [if_true, Option.map_some]
    refine ⟨_, rfl, ?_⟩
    cases hod : o.od with
    | none =>
      refine ⟨rfl, rfl, rfl, rfl, rfl, rfl, rfl, rfl, rfl, rfl, by simp, ?_⟩
      intro r hr h1 h2 h3 h4
      simp only [List.mem_append, List.mem_map]
      refine .inl ⟨r, ?_, rfl⟩
      refine List.mem_filter.mpr ⟨hr, ?_⟩
      split <;> simp_all
    | some d =>
      refine ⟨?_, ?_, ?_, ?_, ?_, ?_, ?_, ?_, ?_, ?_, ?_, ?_⟩ <;> try (simp; done)
      · intro d' hd
        cases hd
        have hcl : ∀ (τ : Strand) (b : List Busy) k, ({ τ with busy := b } : Strand).cl k = τ.cl k := by intro τ b k; cases k <;> rfl
        simp only [hcl, modCl_cl, modStream_stream, if_true]
        exact ⟨(hq d hod).symm, trivial⟩
      · intro r hr h1 h2 h3 h4
        simp only [List.mem_append, List.mem_map]
        refine .inl ⟨r, ?_, rfl⟩
        refine List.mem_filter.mpr ⟨hr, ?_⟩
        split <;> simp_all

/-- An update that leaves strands, operations, the next name and the turn leaves an operation in flight. -/
theorem Put.of_eq {c2 : Chip} (h : Put s c σ o) (h1 : c2.strands = c.strands) (h2 : c2.ops = c.ops) (h3 : c2.nextId = c.nextId)
    (h4 : c2.turn = c.turn) : Put s c2 σ o := by
  have hs : ∀ p, c2.strand? p = c.strand? p := by intro p; unfold Chip.strand?; rw [h1]
  exact ⟨h2 ▸ h.ops, h3 ▸ h.next, h4 ▸ h.turn, fun p hp => hs p ▸ h.others p hp, by
    obtain ⟨τ, ht, hr⟩ := h.own; exact ⟨τ, (hs _).trans ht, hr⟩⟩

/-- A change of a cluster that leaves its streams. -/
theorem Put.modCl (h : Put s c σ o) (k : Cluster) (f : Strand → ClusterSt → ClusterSt) (hf : ∀ τ x, (f τ x).streams = x.streams) :
    Put s (c.modStrand s.ch.turn.pos fun τ => τ.modCl k (f τ)) σ o := by
  refine ⟨h.ops, h.next, h.turn, fun p hp => ?_, ?_⟩
  · rw [strand?_modStrand _ _ _ _ (by intro; simp)]; simp [hp, h.others p hp]
  · obtain ⟨τ, ht, hr⟩ := h.own
    refine ⟨τ.modCl k (f τ), by rw [strand?_modStrand _ _ _ _ (by intro; simp), ht]; simp, ?_⟩
    have hstr : ∀ j n, ((τ.modCl k (f τ)).cl j).stream n = (τ.cl j).stream n := by
      intro j n
      by_cases hj : j = k
      · subst hj; simp only [modCl_cl, ClusterSt.stream, hf]
      · rw [modCl_cl_ne _ _ _ hj]
    simpa [hstr] using hr

theorem Put.block (h : Put s c σ o) (hp : o.pos = s.ch.turn.pos) : Put s (c.block o) σ o := by
  unfold Chip.block; rw [hp]; exact h.modCl _ (fun _ _ => _) (fun _ _ => rfl)

theorem Put.modCore (h : Put s c σ o) (k : Nat) (f : Core → Core) : Put s (c.modCore k f) σ o :=
  h.of_eq (by simp) (by simp) (by simp) (by simp)

theorem Put.modQuad (h : Put s c σ o) (k : Nat) (f : Quad → Quad) : Put s (c.modQuad k f) σ o := by
  unfold Chip.modQuad; split <;> exact h.of_eq rfl rfl rfl rfl

theorem Put.wordIssued (h : Put s c σ o) (j : Option Nat) : Put s (c.wordIssued s.ch.turn j) σ o := by
  unfold Chip.wordIssued
  exact (h.modCl s.ch.turn.cl (fun τ k => k.issued s.ch.turn.size (wordHold s.ch.turn.lead) τ.trap.pend j) (fun _ _ => rfl)).modCore _ _

/-- A word whose effect puts an operation in flight. -/
theorem finish_launch (h : Put s c σ o) (hid : o.id = s.ch.nextId)
    (hq : ∀ d, o.od = some d → o.seq = ((σ.cl o.cl).stream (odStream d)).issued + 1) (j : Option Nat) :
    ∃ t, finish s (.go (Eff.quiet c) j) = .next t ∧ Launched s t σ o := by
  have hw := h.wordIssued j
  exact ⟨{ mem := s.mem, ch := c.wordIssued s.ch.turn j }, rfl, ⟨rfl, hw.ops, ⟨hid, hw.next⟩, hw.others, hq, hw.own⟩⟩

/-- A check that passes, with no walk waiting. -/
theorem onChk_ok {α : Type} {s : State} {σ : Strand} {cl : Cluster} {od : BitVec 14} {a : α} {f : α → Res} (h : s.NoWalk σ cl) :
    s.onChk σ cl od (.ok a) f = f a := by
  unfold State.onChk
  rw [if_neg]
  intro hw
  obtain ⟨w, hw, hc⟩ := List.any_eq_true.mp hw
  simp only [Bool.and_eq_true, beq_iff_eq] at hc
  exact h w hw hc

/-- An operation whose stream is not exhausted is put in flight (R101). -/
theorem launchOp_put {s : State} {σ : Strand} {o : Op} {d : BitVec 14} (leaves : List Page) (h : s.ch.strand? s.ch.turn.pos = some σ)
    (hod : o.od = some d) (hp : o.pos = s.ch.turn.pos) (hq : o.seq = ((σ.cl o.cl).stream (odStream d)).issued + 1)
    (he : σ.exhausted o.cl d = false) :
    ∃ c, s.launchOp σ o leaves = .go (Eff.quiet c) none ∧ Put s c σ o := by
  refine ⟨(s.ch.fillTlb σ leaves).addOp o, ?_, ?_⟩
  · unfold State.launchOp; simp [hod, he]
  · have ha := fillTlb_alike s.ch σ leaves
    refine put_addOp (ha.strand? _ ▸ h) (fun p _ => ha.strand? p) ha.ops ha.next (congrArg _ ha.turn) hp ?_
    intro d' hd; rw [hod] at hd; cases hd; exact hq

/-- The issue of a C memory operation (R271). -/
theorem cMemory_next {s : State} {σ : Strand} {i : Instr} {srcs : List (BitVec 5)} {dest : List RegName} {base : BitVec 5} {off : Int}
    {n : Nat} {allow : Allow} {acc : Access} {od : BitVec 3} {vals : Strand → List Reg} {f : Found}
    (h : AtIssue s σ (.s base.toNat :: srcs.map fun r => .s r.toNat)) (hcl : s.ch.turn.cl = .c) (hw : s.NoWalk σ .c)
    (hf : s.footprint σ allow acc (σ.getS base.toNat) off (off + n - 1) n [] = .ok f) (hm : s.ch.moving f.loc.segs = false)
    (he : σ.exhausted .c (σ.odOf .c od.toNat) = false) :
    ∃ t o, cMemory s i srcs dest base off n allow acc od vals = .next t ∧ Launched s t σ o ∧ o.instr = i ∧ o.pos = s.ch.turn.pos ∧ o.cl = .c ∧
      o.od = some (σ.odOf .c od.toNat) ∧ o.locs = [f.loc] ∧ o.dest = dest ∧ o.vals = vals σ := by
  unfold cMemory
  rw [issue_eq h, hf, onChk_ok hw]
  simp only [hm, Bool.false_eq_true, if_false]
  have hpos := strand_pos h.strand
  let o : Op := { s.opOf σ i (σ.odOf .c od.toNat) with vals := vals σ, locs := [f.loc], dest := dest }
  have hocl : o.cl = .c := hcl
  have hq : o.seq = ((σ.cl o.cl).stream (odStream (σ.odOf .c od.toNat))).issued + 1 := rfl
  have hseq : ∀ d, o.od = some d → o.seq = ((σ.cl o.cl).stream (odStream d)).issued + 1 := by intro d hd; cases hd; exact hq
  obtain ⟨c, hc, hput⟩ := launchOp_put (o := o) f.leaves h.strand rfl hpos hq (hocl ▸ he)
  obtain ⟨t, ht, hl⟩ := finish_launch hput rfl hseq none
  exact ⟨t, o, (congrArg (finish s) hc).trans ht, hl, rfl, hpos, hcl, rfl, rfl, rfl, rfl⟩

/-- What `Put` says of a strand does not speak of its streams' queues or its tokens. -/
theorem Put.of_strand {τ : Strand} {q : List (Option Binding)} {tk : List Token}
    (h : Put s c { τ with gr := { τ.gr with q := q }, tk := tk } o) : Put s c τ o :=
  ⟨h.ops, h.next, h.turn, h.others, by
    obtain ⟨u, hu, a1, a2, a3, a4, a5, a6, a7, a8, a9, a10, a11, a12⟩ := h.own
    refine ⟨u, hu, a1, a2, a3, a4, a5, a6, a7, a8, a9, a10, fun d hd => ?_, a12⟩
    obtain ⟨b1, b2⟩ := a11 d hd
    exact ⟨b1, b2.trans (by cases o.cl <;> rfl)⟩⟩

theorem addOp_keeps (h : c.strand? o.pos = some σ) :
    ∃ τ, (c.addOp o).strand? o.pos = some τ ∧ τ.gr = σ.gr ∧ τ.tk = σ.tk := by
  rw [strand?_addOp, strand?_modStrand _ _ _ _ (by intro τ; cases o.od <;> simp), h]
  refine ⟨_, if_pos rfl, ?_⟩
  cases o.od <;> simp

/-- A command without a prefix whose queue has room is put in flight (R110, R293, R319). -/
theorem launchCommand_put {od : BitVec 14} (fields : List (Nat × Nat × Dir)) (leaves : List Page)
    (h : s.ch.strand? s.ch.turn.pos = some σ) (hpfx : s.ch.turn.pfx = none) (hod : o.od = some od) (hp : o.pos = s.ch.turn.pos)
    (hcl : o.cl = s.ch.turn.cl) (hq : o.seq = ((σ.cl o.cl).stream (odStream od)).issued + 1)
    (hr : s.HasRoom σ o.instr od (o.locs.flatMap fun l => l.segs)) (hb : o.bar ≠ none → s.ch.exhausted σ.pos o.cl = false) :
    ∃ c ring, s.launchCommand σ o fields leaves = .go (Eff.quiet c) none ∧
      Put s c σ { o with was := none, prod := 0, waits := [], ring := ring, claims := (σ.claimAll fields).1 } ∧
      ∃ τ, c.strand? s.ch.turn.pos = some τ ∧ τ.gr.q = (σ.claimAll fields).2.gr.q ∧ τ.tk = σ.tk := by
  have hpos := strand_pos h
  have ha := fillTlb_alike s.ch σ leaves
  let ring := (s.ch.engineRoom o.instr σ.pos).2
  let o2 : Op := { o with was := none, prod := 0, waits := [], ring := ring, claims := (σ.claimAll fields).1 }
  let σ2 : Strand := { σ with gr := { σ.gr with q := (σ.claimAll fields).2.gr.q } }
  let c0 := ((s.ch.fillTlb σ leaves).modStrand σ.pos fun τ => τ).modStrand σ.pos
    fun τ => { τ with gr := { τ.gr with q := (σ.claimAll fields).2.gr.q } }
  have hc0 : c0.strand? s.ch.turn.pos = some σ2 := by
    rw [strand?_modStrand _ _ _ _ (by intro; rfl), strand?_modStrand _ _ _ _ (by intro; rfl), hpos]
    simp only [if_true]
    rw [(fillTlb_alike s.ch σ leaves).strand?, h]; rfl
  have hput2 : Put s (c0.addOp o2) σ2 o2 := by
    refine put_addOp hc0 (fun p hp' => ?_) ha.ops ha.next (congrArg _ ha.turn) hp ?_
    · rw [strand?_modStrand _ _ _ _ (by intro; rfl), hpos, if_neg hp', strand?_modStrand _ _ _ _ (by intro; rfl), if_neg hp', ha.strand?]
    · intro d hd
      cases (hod.symm.trans hd)
      exact hq.trans (by cases o.cl <;> rfl)
  have hput : Put s (c0.addOp o2) σ o2 := Put.of_strand (q := (σ.claimAll fields).2.gr.q) (tk := σ.tk) hput2
  have hown : ∃ τ, (c0.addOp o2).strand? s.ch.turn.pos = some τ ∧ τ.gr.q = (σ.claimAll fields).2.gr.q ∧ τ.tk = σ.tk := by
    obtain ⟨τ, h1, h2, h3⟩ := addOp_keeps (o := o2) (c := c0) (σ := σ2) (by rw [show o2.pos = s.ch.turn.pos from hp]; exact hc0)
    exact ⟨τ, (show o2.pos = s.ch.turn.pos from hp) ▸ h1, by rw [h2], h3⟩
  have hgod : o.od.getD odFresh = od := by rw [hod]; rfl
  have he : σ.exhausted o.cl od = false := hcl ▸ hr.stream
  have hpin : ¬ (o.cl = .g ∧ 1984 < s.ch.pinCount (quadOfPos σ.pos) σ.who.job (o.locs.flatMap fun l => l.segs)) := by
    rintro ⟨h1, h2⟩; have := hr.pins (hcl ▸ h1); omega
  have hrel : ((0 != 0 || o.bar.isSome) && s.ch.exhausted σ.pos o.cl) = false := by
    cases hbar : o.bar with
    | none => rfl
    | some b => simp [hb (by simp [hbar])]
  have key : ∀ (c : Chip) k f p, (c.modQuad k f).strand? p = c.strand? p := by
    intro c k f p; unfold Chip.modQuad; split <;> rfl
  unfold State.launchCommand
  simp only [Turn.tokens, hpfx, hgod, he, hr.queue, hr.still, hpin, hrel, Bool.false_eq_true, if_false, Bool.not_true, Bool.or_false,
    if_true, List.foldl_nil]
  have hb1 : ∀ {x : Chip}, Put s x σ o2 → ∀ a v, Put s (x.barRelease a v) σ o2 := by
    intro x h a v; unfold Chip.barRelease Chip.modBarClock; exact h.modQuad _ _
  have hb2 : ∀ {x : Chip}, Put s x σ o2 → ∀ p k, Put s (x.advanceClock p k) σ o2 := by
    intro x h p k; unfold Chip.advanceClock; exact h.modQuad _ _
  have hs1 : ∀ (x : Chip) a v p, (x.barRelease a v).strand? p = x.strand? p := by
    intro x a v p; unfold Chip.barRelease Chip.modBarClock; exact key _ _ _ _
  have hs2 : ∀ (x : Chip) q k p, (x.advanceClock q k).strand? p = x.strand? p := by
    intro x q k p; unfold Chip.advanceClock; exact key _ _ _ _
  refine ⟨_, ring, rfl, ?_, ?_⟩
  · split <;> split <;> (try apply hb2) <;> (try apply hb1) <;> exact hput
  · split <;> split <;> (try rw [hs2]) <;> (try rw [hs1]) <;> exact hown

/-- The issue of a command whose effect is that alone. -/
theorem finish_command {od : BitVec 14} {fields : List (Nat × Nat × Dir)} {leaves : List Page}
    (h : s.ch.strand? s.ch.turn.pos = some σ) (hpfx : s.ch.turn.pfx = none) (hod : o.od = some od) (hp : o.pos = s.ch.turn.pos)
    (hcl : o.cl = s.ch.turn.cl) (hq : o.seq = ((σ.cl o.cl).stream (odStream od)).issued + 1)
    (hr : s.HasRoom σ o.instr od (o.locs.flatMap fun l => l.segs)) (hb : o.bar ≠ none → s.ch.exhausted σ.pos o.cl = false)
    (hid : o.id = s.ch.nextId) (hst : o.status = .issued) :
    ∃ t, finish s (s.launchCommand σ o fields leaves) = .next t ∧ s.Commands t σ o.instr od o.locs o.bar fields := by
  obtain ⟨c, ring, hc, hput, τ, hτ, hgq, htk⟩ := launchCommand_put fields leaves h hpfx hod hp hcl hq hr hb
  obtain ⟨t, ht, hl⟩ := finish_launch hput hid (fun d hd => by cases hod.symm.trans hd; exact hq) none
  refine ⟨t, (congrArg (finish s) hc).trans ht, { o with was := none, prod := 0, waits := [], ring := ring, claims := (σ.claimAll fields).1 },
    τ.advanced s.ch.turn none, hl, rfl, hcl, hod, rfl, rfl, rfl, rfl, rfl, hst, ?_, ?_, ?_⟩
  · have : t = { mem := s.mem, ch := c.wordIssued s.ch.turn none } := by
      have := ht; simp only [finish, Eff.mapChip, Eff.quiet, State.commit, memWriteAll] at this; injection this with this; exact this.symm
    rw [this]; show (c.wordIssued s.ch.turn none).strand? s.ch.turn.pos = _
    rw [wordIssued_strand?, if_pos rfl, hτ]; rfl
  · unfold Strand.advanced; rw [modCl_gr]; exact hgq
  · unfold Strand.advanced; rw [modCl_tk]; exact htk

end Sys2Proof.Machine
end

