-- ==== Sys2Proof/Laws/PerInstr.lean ====
section
/-! SUPPORT. Lemmas made one for each constructor of `Instr`: an encoded well-formed instruction decodes to itself. -/

namespace Sys2Proof.Laws

set_option linter.unusedSimpArgs false

/-- A word whose raw decoding is the instruction, whatever its S and H bits, decodes to it when it is well formed. -/
theorem decode_of_raw (cl : Cluster) (i : Instr) (sync hold : Bool) (hb : encodeNat i < 1073741824)
    (hr : ∀ k, k < 4 → rawDecode cl (encodeNat i + k * 1073741824) = some i) (hw : i.wf cl = true) :
    decodeWord cl (encode sync hold i) = .ok i := by
  simp only [Instr.wf, Bool.and_eq_true] at hw
  have e : (encode sync hold i).toNat = encodeNat i + (cond sync 2 0 + cond hold 1 0) * 1073741824 := by
    cases sync <;> cases hold <;> simp only [encode, BitVec.toNat_ofNat, cond_true, cond_false] <;> omega
  have hk : (cond sync 2 0 + cond hold 1 0 : Nat) < 4 := by cases sync <;> cases hold <;> decide
  simp only [decodeWord, e, hr _ hk, hw.1.2, hw.2, if_true]

/-- Decoding the word of a well-formed instruction, with any S and H bits, gives the instruction back. -/
def RoundTrip.Statement (i : Instr) : Prop :=
  ∀ (cl : Cluster) (sync hold : Bool), i.wf cl = true → decodeWord cl (encode sync hold i) = .ok i

theorem RoundTrip.add (d : BitVec 5) (a : BitVec 5) (b : BitVec 5) : RoundTrip.Statement (.add d a b) := by
  intro cl sync hold h
  have key : ∀ (d' : Nat) (_ : d' < 32) (a' : Nat) (_ : a' < 32) (b' : Nat) (_ : b' < 32) (k_ n_ : Nat), n_ = 16777216 + d' * 524288 + a' * 16384 + b' * 512 + k_ * 1073741824 →
      16777216 + d' * 524288 + a' * 16384 + b' * 512 < 1073741824 ∧ n_ / 16777216 % 64 = 1 ∧ n_ % 512 = 0 ∧ n_ / 524288 % 32 = d' ∧ n_ / 16384 % 32 = a' ∧ n_ / 512 % 32 = b' := by
    intros; refine ⟨?_, ?_, ?_, ?_, ?_, ?_⟩ <;> omega
  refine decode_of_raw cl (.add d a b) sync hold (key d.toNat d.isLt a.toNat a.isLt b.toNat b.isLt 0 _ rfl).1 ?_ h
  intro k_ _
  obtain ⟨_, f0, f1, f2, f3, f4⟩ := key d.toNat d.isLt a.toNat a.isLt b.toNat b.isLt k_ _ rfl
  change rawDecode cl (16777216 + d.toNat * 524288 + a.toNat * 16384 + b.toNat * 512 + k_ * 1073741824) = _
  generalize (16777216 + d.toNat * 524288 + a.toNat * 16384 + b.toNat * 512 + k_ * 1073741824 : Nat) = n_ at *
  cases cl <;> first
    | exact Bool.noConfusion (show false = true from h)
    | (unfold rawDecode rawC; simp [f0, f1, f2, f3, f4])

theorem RoundTrip.sub (d : BitVec 5) (a : BitVec 5) (b : BitVec 5) : RoundTrip.Statement (.sub d a b) := by
  intro cl sync hold h
  have key : ∀ (d' : Nat) (_ : d' < 32) (a' : Nat) (_ : a' < 32) (b' : Nat) (_ : b' < 32) (k_ n_ : Nat), n_ = 16777224 + d' * 524288 + a' * 16384 + b' * 512 + k_ * 1073741824 →
      16777224 + d' * 524288 + a' * 16384 + b' * 512 < 1073741824 ∧ n_ / 16777216 % 64 = 1 ∧ n_ % 512 = 8 ∧ n_ / 524288 % 32 = d' ∧ n_ / 16384 % 32 = a' ∧ n_ / 512 % 32 = b' := by
    intros; refine ⟨?_, ?_, ?_, ?_, ?_, ?_⟩ <;> omega
  refine decode_of_raw cl (.sub d a b) sync hold (key d.toNat d.isLt a.toNat a.isLt b.toNat b.isLt 0 _ rfl).1 ?_ h
  intro k_ _
  obtain ⟨_, f0, f1, f2, f3, f4⟩ := key d.toNat d.isLt a.toNat a.isLt b.toNat b.isLt k_ _ rfl
  change rawDecode cl (16777224 + d.toNat * 524288 + a.toNat * 16384 + b.toNat * 512 + k_ * 1073741824) = _
  generalize (16777224 + d.toNat * 524288 + a.toNat * 16384 + b.toNat * 512 + k_ * 1073741824 : Nat) = n_ at *
  cases cl <;> first
    | exact Bool.noConfusion (show false = true from h)
    | (unfold rawDecode rawC; simp [f0, f1, f2, f3, f4])

theorem RoundTrip.mul (d : BitVec 5) (a : BitVec 5) (b : BitVec 5) : RoundTrip.Statement (.mul d a b) := by
  intro cl sync hold h
  have key : ∀ (d' : Nat) (_ : d' < 32) (a' : Nat) (_ : a' < 32) (b' : Nat) (_ : b' < 32) (k_ n_ : Nat), n_ = 16777232 + d' * 524288 + a' * 16384 + b' * 512 + k_ * 1073741824 →
      16777232 + d' * 524288 + a' * 16384 + b' * 512 < 1073741824 ∧ n_ / 16777216 % 64 = 1 ∧ n_ % 512 = 16 ∧ n_ / 524288 % 32 = d' ∧ n_ / 16384 % 32 = a' ∧ n_ / 512 % 32 = b' := by
    intros; refine ⟨?_, ?_, ?_, ?_, ?_, ?_⟩ <;> omega
  refine decode_of_raw cl (.mul d a b) sync hold (key d.toNat d.isLt a.toNat a.isLt b.toNat b.isLt 0 _ rfl).1 ?_ h
  intro k_ _
  obtain ⟨_, f0, f1, f2, f3, f4⟩ := key d.toNat d.isLt a.toNat a.isLt b.toNat b.isLt k_ _ rfl
  change rawDecode cl (16777232 + d.toNat * 524288 + a.toNat * 16384 + b.toNat * 512 + k_ * 1073741824) = _
  generalize (16777232 + d.toNat * 524288 + a.toNat * 16384 + b.toNat * 512 + k_ * 1073741824 : Nat) = n_ at *
  cases cl <;> first
    | exact Bool.noConfusion (show false = true from h)
    | (unfold rawDecode rawC; simp [f0, f1, f2, f3, f4])

theorem RoundTrip.mulh (d : BitVec 5) (a : BitVec 5) (b : BitVec 5) : RoundTrip.Statement (.mulh d a b) := by
  intro cl sync hold h
  have key : ∀ (d' : Nat) (_ : d' < 32) (a' : Nat) (_ : a' < 32) (b' : Nat) (_ : b' < 32) (k_ n_ : Nat), n_ = 16777240 + d' * 524288 + a' * 16384 + b' * 512 + k_ * 1073741824 →
      16777240 + d' * 524288 + a' * 16384 + b' * 512 < 1073741824 ∧ n_ / 16777216 % 64 = 1 ∧ n_ % 512 = 24 ∧ n_ / 524288 % 32 = d' ∧ n_ / 16384 % 32 = a' ∧ n_ / 512 % 32 = b' := by
    intros; refine ⟨?_, ?_, ?_, ?_, ?_, ?_⟩ <;> omega
  refine decode_of_raw cl (.mulh d a b) sync hold (key d.toNat d.isLt a.toNat a.isLt b.toNat b.isLt 0 _ rfl).1 ?_ h
  intro k_ _
  obtain ⟨_, f0, f1, f2, f3, f4⟩ := key d.toNat d.isLt a.toNat a.isLt b.toNat b.isLt k_ _ rfl
  change rawDecode cl (16777240 + d.toNat * 524288 + a.toNat * 16384 + b.toNat * 512 + k_ * 1073741824) = _
  generalize (16777240 + d.toNat * 524288 + a.toNat * 16384 + b.toNat * 512 + k_ * 1073741824 : Nat) = n_ at *
  cases cl <;> first
    | exact Bool.noConfusion (show false = true from h)
    | (unfold rawDecode rawC; simp [f0, f1, f2, f3, f4])

theorem RoundTrip.mulhn (d : BitVec 5) (a : BitVec 5) (b : BitVec 5) : RoundTrip.Statement (.mulhn d a b) := by
  intro cl sync hold h
  have key : ∀ (d' : Nat) (_ : d' < 32) (a' : Nat) (_ : a' < 32) (b' : Nat) (_ : b' < 32) (k_ n_ : Nat), n_ = 16777248 + d' * 524288 + a' * 16384 + b' * 512 + k_ * 1073741824 →
      16777248 + d' * 524288 + a' * 16384 + b' * 512 < 1073741824 ∧ n_ / 16777216 % 64 = 1 ∧ n_ % 512 = 32 ∧ n_ / 524288 % 32 = d' ∧ n_ / 16384 % 32 = a' ∧ n_ / 512 % 32 = b' := by
    intros; refine ⟨?_, ?_, ?_, ?_, ?_, ?_⟩ <;> omega
  refine decode_of_raw cl (.mulhn d a b) sync hold (key d.toNat d.isLt a.toNat a.isLt b.toNat b.isLt 0 _ rfl).1 ?_ h
  intro k_ _
  obtain ⟨_, f0, f1, f2, f3, f4⟩ := key d.toNat d.isLt a.toNat a.isLt b.toNat b.isLt k_ _ rfl
  change rawDecode cl (16777248 + d.toNat * 524288 + a.toNat * 16384 + b.toNat * 512 + k_ * 1073741824) = _
  generalize (16777248 + d.toNat * 524288 + a.toNat * 16384 + b.toNat * 512 + k_ * 1073741824 : Nat) = n_ at *
  cases cl <;> first
    | exact Bool.noConfusion (show false = true from h)
    | (unfold rawDecode rawC; simp [f0, f1, f2, f3, f4])

theorem RoundTrip.div (d : BitVec 5) (a : BitVec 5) (b : BitVec 5) : RoundTrip.Statement (.div d a b) := by
  intro cl sync hold h
  have key : ∀ (d' : Nat) (_ : d' < 32) (a' : Nat) (_ : a' < 32) (b' : Nat) (_ : b' < 32) (k_ n_ : Nat), n_ = 16777256 + d' * 524288 + a' * 16384 + b' * 512 + k_ * 1073741824 →
      16777256 + d' * 524288 + a' * 16384 + b' * 512 < 1073741824 ∧ n_ / 16777216 % 64 = 1 ∧ n_ % 512 = 40 ∧ n_ / 524288 % 32 = d' ∧ n_ / 16384 % 32 = a' ∧ n_ / 512 % 32 = b' := by
    intros; refine ⟨?_, ?_, ?_, ?_, ?_, ?_⟩ <;> omega
  refine decode_of_raw cl (.div d a b) sync hold (key d.toNat d.isLt a.toNat a.isLt b.toNat b.isLt 0 _ rfl).1 ?_ h
  intro k_ _
  obtain ⟨_, f0, f1, f2, f3, f4⟩ := key d.toNat d.isLt a.toNat a.isLt b.toNat b.isLt k_ _ rfl
  change rawDecode cl (16777256 + d.toNat * 524288 + a.toNat * 16384 + b.toNat * 512 + k_ * 1073741824) = _
  generalize (16777256 + d.toNat * 524288 + a.toNat * 16384 + b.toNat * 512 + k_ * 1073741824 : Nat) = n_ at *
  cases cl <;> first
    | exact Bool.noConfusion (show false = true from h)
    | (unfold rawDecode rawC; simp [f0, f1, f2, f3, f4])

theorem RoundTrip.divn (d : BitVec 5) (a : BitVec 5) (b : BitVec 5) : RoundTrip.Statement (.divn d a b) := by
  intro cl sync hold h
  have key : ∀ (d' : Nat) (_ : d' < 32) (a' : Nat) (_ : a' < 32) (b' : Nat) (_ : b' < 32) (k_ n_ : Nat), n_ = 16777264 + d' * 524288 + a' * 16384 + b' * 512 + k_ * 1073741824 →
      16777264 + d' * 524288 + a' * 16384 + b' * 512 < 1073741824 ∧ n_ / 16777216 % 64 = 1 ∧ n_ % 512 = 48 ∧ n_ / 524288 % 32 = d' ∧ n_ / 16384 % 32 = a' ∧ n_ / 512 % 32 = b' := by
    intros; refine ⟨?_, ?_, ?_, ?_, ?_, ?_⟩ <;> omega
  refine decode_of_raw cl (.divn d a b) sync hold (key d.toNat d.isLt a.toNat a.isLt b.toNat b.isLt 0 _ rfl).1 ?_ h
  intro k_ _
  obtain ⟨_, f0, f1, f2, f3, f4⟩ := key d.toNat d.isLt a.toNat a.isLt b.toNat b.isLt k_ _ rfl
  change rawDecode cl (16777264 + d.toNat * 524288 + a.toNat * 16384 + b.toNat * 512 + k_ * 1073741824) = _
  generalize (16777264 + d.toNat * 524288 + a.toNat * 16384 + b.toNat * 512 + k_ * 1073741824 : Nat) = n_ at *
  cases cl <;> first
    | exact Bool.noConfusion (show false = true from h)
    | (unfold rawDecode rawC; simp [f0, f1, f2, f3, f4])

theorem RoundTrip.rem (d : BitVec 5) (a : BitVec 5) (b : BitVec 5) : RoundTrip.Statement (.rem d a b) := by
  intro cl sync hold h
  have key : ∀ (d' : Nat) (_ : d' < 32) (a' : Nat) (_ : a' < 32) (b' : Nat) (_ : b' < 32) (k_ n_ : Nat), n_ = 16777272 + d' * 524288 + a' * 16384 + b' * 512 + k_ * 1073741824 →
      16777272 + d' * 524288 + a' * 16384 + b' * 512 < 1073741824 ∧ n_ / 16777216 % 64 = 1 ∧ n_ % 512 = 56 ∧ n_ / 524288 % 32 = d' ∧ n_ / 16384 % 32 = a' ∧ n_ / 512 % 32 = b' := by
    intros; refine ⟨?_, ?_, ?_, ?_, ?_, ?_⟩ <;> omega
  refine decode_of_raw cl (.rem d a b) sync hold (key d.toNat d.isLt a.toNat a.isLt b.toNat b.isLt 0 _ rfl).1 ?_ h
  intro k_ _
  obtain ⟨_, f0, f1, f2, f3, f4⟩ := key d.toNat d.isLt a.toNat a.isLt b.toNat b.isLt k_ _ rfl
  change rawDecode cl (16777272 + d.toNat * 524288 + a.toNat * 16384 + b.toNat * 512 + k_ * 1073741824) = _
  generalize (16777272 + d.toNat * 524288 + a.toNat * 16384 + b.toNat * 512 + k_ * 1073741824 : Nat) = n_ at *
  cases cl <;> first
    | exact Bool.noConfusion (show false = true from h)
    | (unfold rawDecode rawC; simp [f0, f1, f2, f3, f4])

theorem RoundTrip.remn (d : BitVec 5) (a : BitVec 5) (b : BitVec 5) : RoundTrip.Statement (.remn d a b) := by
  intro cl sync hold h
  have key : ∀ (d' : Nat) (_ : d' < 32) (a' : Nat) (_ : a' < 32) (b' : Nat) (_ : b' < 32) (k_ n_ : Nat), n_ = 16777280 + d' * 524288 + a' * 16384 + b' * 512 + k_ * 1073741824 →
      16777280 + d' * 524288 + a' * 16384 + b' * 512 < 1073741824 ∧ n_ / 16777216 % 64 = 1 ∧ n_ % 512 = 64 ∧ n_ / 524288 % 32 = d' ∧ n_ / 16384 % 32 = a' ∧ n_ / 512 % 32 = b' := by
    intros; refine ⟨?_, ?_, ?_, ?_, ?_, ?_⟩ <;> omega
  refine decode_of_raw cl (.remn d a b) sync hold (key d.toNat d.isLt a.toNat a.isLt b.toNat b.isLt 0 _ rfl).1 ?_ h
  intro k_ _
  obtain ⟨_, f0, f1, f2, f3, f4⟩ := key d.toNat d.isLt a.toNat a.isLt b.toNat b.isLt k_ _ rfl
  change rawDecode cl (16777280 + d.toNat * 524288 + a.toNat * 16384 + b.toNat * 512 + k_ * 1073741824) = _
  generalize (16777280 + d.toNat * 524288 + a.toNat * 16384 + b.toNat * 512 + k_ * 1073741824 : Nat) = n_ at *
  cases cl <;> first
    | exact Bool.noConfusion (show false = true from h)
    | (unfold rawDecode rawC; simp [f0, f1, f2, f3, f4])

theorem RoundTrip.and (d : BitVec 5) (a : BitVec 5) (b : BitVec 5) : RoundTrip.Statement (.and d a b) := by
  intro cl sync hold h
  have key : ∀ (d' : Nat) (_ : d' < 32) (a' : Nat) (_ : a' < 32) (b' : Nat) (_ : b' < 32) (k_ n_ : Nat), n_ = 16777288 + d' * 524288 + a' * 16384 + b' * 512 + k_ * 1073741824 →
      16777288 + d' * 524288 + a' * 16384 + b' * 512 < 1073741824 ∧ n_ / 16777216 % 64 = 1 ∧ n_ % 512 = 72 ∧ n_ / 524288 % 32 = d' ∧ n_ / 16384 % 32 = a' ∧ n_ / 512 % 32 = b' := by
    intros; refine ⟨?_, ?_, ?_, ?_, ?_, ?_⟩ <;> omega
  refine decode_of_raw cl (.and d a b) sync hold (key d.toNat d.isLt a.toNat a.isLt b.toNat b.isLt 0 _ rfl).1 ?_ h
  intro k_ _
  obtain ⟨_, f0, f1, f2, f3, f4⟩ := key d.toNat d.isLt a.toNat a.isLt b.toNat b.isLt k_ _ rfl
  change rawDecode cl (16777288 + d.toNat * 524288 + a.toNat * 16384 + b.toNat * 512 + k_ * 1073741824) = _
  generalize (16777288 + d.toNat * 524288 + a.toNat * 16384 + b.toNat * 512 + k_ * 1073741824 : Nat) = n_ at *
  cases cl <;> first
    | exact Bool.noConfusion (show false = true from h)
    | (unfold rawDecode rawC; simp [f0, f1, f2, f3, f4])

theorem RoundTrip.or (d : BitVec 5) (a : BitVec 5) (b : BitVec 5) : RoundTrip.Statement (.or d a b) := by
  intro cl sync hold h
  have key : ∀ (d' : Nat) (_ : d' < 32) (a' : Nat) (_ : a' < 32) (b' : Nat) (_ : b' < 32) (k_ n_ : Nat), n_ = 16777296 + d' * 524288 + a' * 16384 + b' * 512 + k_ * 1073741824 →
      16777296 + d' * 524288 + a' * 16384 + b' * 512 < 1073741824 ∧ n_ / 16777216 % 64 = 1 ∧ n_ % 512 = 80 ∧ n_ / 524288 % 32 = d' ∧ n_ / 16384 % 32 = a' ∧ n_ / 512 % 32 = b' := by
    intros; refine ⟨?_, ?_, ?_, ?_, ?_, ?_⟩ <;> omega
  refine decode_of_raw cl (.or d a b) sync hold (key d.toNat d.isLt a.toNat a.isLt b.toNat b.isLt 0 _ rfl).1 ?_ h
  intro k_ _
  obtain ⟨_, f0, f1, f2, f3, f4⟩ := key d.toNat d.isLt a.toNat a.isLt b.toNat b.isLt k_ _ rfl
  change rawDecode cl (16777296 + d.toNat * 524288 + a.toNat * 16384 + b.toNat * 512 + k_ * 1073741824) = _
  generalize (16777296 + d.toNat * 524288 + a.toNat * 16384 + b.toNat * 512 + k_ * 1073741824 : Nat) = n_ at *
  cases cl <;> first
    | exact Bool.noConfusion (show false = true from h)
    | (unfold rawDecode rawC; simp [f0, f1, f2, f3, f4])

theorem RoundTrip.xor (d : BitVec 5) (a : BitVec 5) (b : BitVec 5) : RoundTrip.Statement (.xor d a b) := by
  intro cl sync hold h
  have key : ∀ (d' : Nat) (_ : d' < 32) (a' : Nat) (_ : a' < 32) (b' : Nat) (_ : b' < 32) (k_ n_ : Nat), n_ = 16777304 + d' * 524288 + a' * 16384 + b' * 512 + k_ * 1073741824 →
      16777304 + d' * 524288 + a' * 16384 + b' * 512 < 1073741824 ∧ n_ / 16777216 % 64 = 1 ∧ n_ % 512 = 88 ∧ n_ / 524288 % 32 = d' ∧ n_ / 16384 % 32 = a' ∧ n_ / 512 % 32 = b' := by
    intros; refine ⟨?_, ?_, ?_, ?_, ?_, ?_⟩ <;> omega
  refine decode_of_raw cl (.xor d a b) sync hold (key d.toNat d.isLt a.toNat a.isLt b.toNat b.isLt 0 _ rfl).1 ?_ h
  intro k_ _
  obtain ⟨_, f0, f1, f2, f3, f4⟩ := key d.toNat d.isLt a.toNat a.isLt b.toNat b.isLt k_ _ rfl
  change rawDecode cl (16777304 + d.toNat * 524288 + a.toNat * 16384 + b.toNat * 512 + k_ * 1073741824) = _
  generalize (16777304 + d.toNat * 524288 + a.toNat * 16384 + b.toNat * 512 + k_ * 1073741824 : Nat) = n_ at *
  cases cl <;> first
    | exact Bool.noConfusion (show false = true from h)
    | (unfold rawDecode rawC; simp [f0, f1, f2, f3, f4])

theorem RoundTrip.andn (d : BitVec 5) (a : BitVec 5) (b : BitVec 5) : RoundTrip.Statement (.andn d a b) := by
  intro cl sync hold h
  have key : ∀ (d' : Nat) (_ : d' < 32) (a' : Nat) (_ : a' < 32) (b' : Nat) (_ : b' < 32) (k_ n_ : Nat), n_ = 16777312 + d' * 524288 + a' * 16384 + b' * 512 + k_ * 1073741824 →
      16777312 + d' * 524288 + a' * 16384 + b' * 512 < 1073741824 ∧ n_ / 16777216 % 64 = 1 ∧ n_ % 512 = 96 ∧ n_ / 524288 % 32 = d' ∧ n_ / 16384 % 32 = a' ∧ n_ / 512 % 32 = b' := by
    intros; refine ⟨?_, ?_, ?_, ?_, ?_, ?_⟩ <;> omega
  refine decode_of_raw cl (.andn d a b) sync hold (key d.toNat d.isLt a.toNat a.isLt b.toNat b.isLt 0 _ rfl).1 ?_ h
  intro k_ _
  obtain ⟨_, f0, f1, f2, f3, f4⟩ := key d.toNat d.isLt a.toNat a.isLt b.toNat b.isLt k_ _ rfl
  change rawDecode cl (16777312 + d.toNat * 524288 + a.toNat * 16384 + b.toNat * 512 + k_ * 1073741824) = _
  generalize (16777312 + d.toNat * 524288 + a.toNat * 16384 + b.toNat * 512 + k_ * 1073741824 : Nat) = n_ at *
  cases cl <;> first
    | exact Bool.noConfusion (show false = true from h)
    | (unfold rawDecode rawC; simp [f0, f1, f2, f3, f4])

theorem RoundTrip.shl (d : BitVec 5) (a : BitVec 5) (b : BitVec 5) : RoundTrip.Statement (.shl d a b) := by
  intro cl sync hold h
  have key : ∀ (d' : Nat) (_ : d' < 32) (a' : Nat) (_ : a' < 32) (b' : Nat) (_ : b' < 32) (k_ n_ : Nat), n_ = 16777320 + d' * 524288 + a' * 16384 + b' * 512 + k_ * 1073741824 →
      16777320 + d' * 524288 + a' * 16384 + b' * 512 < 1073741824 ∧ n_ / 16777216 % 64 = 1 ∧ n_ % 512 = 104 ∧ n_ / 524288 % 32 = d' ∧ n_ / 16384 % 32 = a' ∧ n_ / 512 % 32 = b' := by
    intros; refine ⟨?_, ?_, ?_, ?_, ?_, ?_⟩ <;> omega
  refine decode_of_raw cl (.shl d a b) sync hold (key d.toNat d.isLt a.toNat a.isLt b.toNat b.isLt 0 _ rfl).1 ?_ h
  intro k_ _
  obtain ⟨_, f0, f1, f2, f3, f4⟩ := key d.toNat d.isLt a.toNat a.isLt b.toNat b.isLt k_ _ rfl
  change rawDecode cl (16777320 + d.toNat * 524288 + a.toNat * 16384 + b.toNat * 512 + k_ * 1073741824) = _
  generalize (16777320 + d.toNat * 524288 + a.toNat * 16384 + b.toNat * 512 + k_ * 1073741824 : Nat) = n_ at *
  cases cl <;> first
    | exact Bool.noConfusion (show false = true from h)
    | (unfold rawDecode rawC; simp [f0, f1, f2, f3, f4])

theorem RoundTrip.shr (d : BitVec 5) (a : BitVec 5) (b : BitVec 5) : RoundTrip.Statement (.shr d a b) := by
  intro cl sync hold h
  have key : ∀ (d' : Nat) (_ : d' < 32) (a' : Nat) (_ : a' < 32) (b' : Nat) (_ : b' < 32) (k_ n_ : Nat), n_ = 16777328 + d' * 524288 + a' * 16384 + b' * 512 + k_ * 1073741824 →
      16777328 + d' * 524288 + a' * 16384 + b' * 512 < 1073741824 ∧ n_ / 16777216 % 64 = 1 ∧ n_ % 512 = 112 ∧ n_ / 524288 % 32 = d' ∧ n_ / 16384 % 32 = a' ∧ n_ / 512 % 32 = b' := by
    intros; refine ⟨?_, ?_, ?_, ?_, ?_, ?_⟩ <;> omega
  refine decode_of_raw cl (.shr d a b) sync hold (key d.toNat d.isLt a.toNat a.isLt b.toNat b.isLt 0 _ rfl).1 ?_ h
  intro k_ _
  obtain ⟨_, f0, f1, f2, f3, f4⟩ := key d.toNat d.isLt a.toNat a.isLt b.toNat b.isLt k_ _ rfl
  change rawDecode cl (16777328 + d.toNat * 524288 + a.toNat * 16384 + b.toNat * 512 + k_ * 1073741824) = _
  generalize (16777328 + d.toNat * 524288 + a.toNat * 16384 + b.toNat * 512 + k_ * 1073741824 : Nat) = n_ at *
  cases cl <;> first
    | exact Bool.noConfusion (show false = true from h)
    | (unfold rawDecode rawC; simp [f0, f1, f2, f3, f4])

theorem RoundTrip.sra (d : BitVec 5) (a : BitVec 5) (b : BitVec 5) : RoundTrip.Statement (.sra d a b) := by
  intro cl sync hold h
  have key : ∀ (d' : Nat) (_ : d' < 32) (a' : Nat) (_ : a' < 32) (b' : Nat) (_ : b' < 32) (k_ n_ : Nat), n_ = 16777336 + d' * 524288 + a' * 16384 + b' * 512 + k_ * 1073741824 →
      16777336 + d' * 524288 + a' * 16384 + b' * 512 < 1073741824 ∧ n_ / 16777216 % 64 = 1 ∧ n_ % 512 = 120 ∧ n_ / 524288 % 32 = d' ∧ n_ / 16384 % 32 = a' ∧ n_ / 512 % 32 = b' := by
    intros; refine ⟨?_, ?_, ?_, ?_, ?_, ?_⟩ <;> omega
  refine decode_of_raw cl (.sra d a b) sync hold (key d.toNat d.isLt a.toNat a.isLt b.toNat b.isLt 0 _ rfl).1 ?_ h
  intro k_ _
  obtain ⟨_, f0, f1, f2, f3, f4⟩ := key d.toNat d.isLt a.toNat a.isLt b.toNat b.isLt k_ _ rfl
  change rawDecode cl (16777336 + d.toNat * 524288 + a.toNat * 16384 + b.toNat * 512 + k_ * 1073741824) = _
  generalize (16777336 + d.toNat * 524288 + a.toNat * 16384 + b.toNat * 512 + k_ * 1073741824 : Nat) = n_ at *
  cases cl <;> first
    | exact Bool.noConfusion (show false = true from h)
    | (unfold rawDecode rawC; simp [f0, f1, f2, f3, f4])

theorem RoundTrip.rot (d : BitVec 5) (a : BitVec 5) (b : BitVec 5) : RoundTrip.Statement (.rot d a b) := by
  intro cl sync hold h
  have key : ∀ (d' : Nat) (_ : d' < 32) (a' : Nat) (_ : a' < 32) (b' : Nat) (_ : b' < 32) (k_ n_ : Nat), n_ = 16777344 + d' * 524288 + a' * 16384 + b' * 512 + k_ * 1073741824 →
      16777344 + d' * 524288 + a' * 16384 + b' * 512 < 1073741824 ∧ n_ / 16777216 % 64 = 1 ∧ n_ % 512 = 128 ∧ n_ / 524288 % 32 = d' ∧ n_ / 16384 % 32 = a' ∧ n_ / 512 % 32 = b' := by
    intros; refine ⟨?_, ?_, ?_, ?_, ?_, ?_⟩ <;> omega
  refine decode_of_raw cl (.rot d a b) sync hold (key d.toNat d.isLt a.toNat a.isLt b.toNat b.isLt 0 _ rfl).1 ?_ h
  intro k_ _
  obtain ⟨_, f0, f1, f2, f3, f4⟩ := key d.toNat d.isLt a.toNat a.isLt b.toNat b.isLt k_ _ rfl
  change rawDecode cl (16777344 + d.toNat * 524288 + a.toNat * 16384 + b.toNat * 512 + k_ * 1073741824) = _
  generalize (16777344 + d.toNat * 524288 + a.toNat * 16384 + b.toNat * 512 + k_ * 1073741824 : Nat) = n_ at *
  cases cl <;> first
    | exact Bool.noConfusion (show false = true from h)
    | (unfold rawDecode rawC; simp [f0, f1, f2, f3, f4])

theorem RoundTrip.min (d : BitVec 5) (a : BitVec 5) (b : BitVec 5) : RoundTrip.Statement (.min d a b) := by
  intro cl sync hold h
  have key : ∀ (d' : Nat) (_ : d' < 32) (a' : Nat) (_ : a' < 32) (b' : Nat) (_ : b' < 32) (k_ n_ : Nat), n_ = 16777352 + d' * 524288 + a' * 16384 + b' * 512 + k_ * 1073741824 →
      16777352 + d' * 524288 + a' * 16384 + b' * 512 < 1073741824 ∧ n_ / 16777216 % 64 = 1 ∧ n_ % 512 = 136 ∧ n_ / 524288 % 32 = d' ∧ n_ / 16384 % 32 = a' ∧ n_ / 512 % 32 = b' := by
    intros; refine ⟨?_, ?_, ?_, ?_, ?_, ?_⟩ <;> omega
  refine decode_of_raw cl (.min d a b) sync hold (key d.toNat d.isLt a.toNat a.isLt b.toNat b.isLt 0 _ rfl).1 ?_ h
  intro k_ _
  obtain ⟨_, f0, f1, f2, f3, f4⟩ := key d.toNat d.isLt a.toNat a.isLt b.toNat b.isLt k_ _ rfl
  change rawDecode cl (16777352 + d.toNat * 524288 + a.toNat * 16384 + b.toNat * 512 + k_ * 1073741824) = _
  generalize (16777352 + d.toNat * 524288 + a.toNat * 16384 + b.toNat * 512 + k_ * 1073741824 : Nat) = n_ at *
  cases cl <;> first
    | exact Bool.noConfusion (show false = true from h)
    | (unfold rawDecode rawC; simp [f0, f1, f2, f3, f4])

theorem RoundTrip.max (d : BitVec 5) (a : BitVec 5) (b : BitVec 5) : RoundTrip.Statement (.max d a b) := by
  intro cl sync hold h
  have key : ∀ (d' : Nat) (_ : d' < 32) (a' : Nat) (_ : a' < 32) (b' : Nat) (_ : b' < 32) (k_ n_ : Nat), n_ = 16777360 + d' * 524288 + a' * 16384 + b' * 512 + k_ * 1073741824 →
      16777360 + d' * 524288 + a' * 16384 + b' * 512 < 1073741824 ∧ n_ / 16777216 % 64 = 1 ∧ n_ % 512 = 144 ∧ n_ / 524288 % 32 = d' ∧ n_ / 16384 % 32 = a' ∧ n_ / 512 % 32 = b' := by
    intros; refine ⟨?_, ?_, ?_, ?_, ?_, ?_⟩ <;> omega
  refine decode_of_raw cl (.max d a b) sync hold (key d.toNat d.isLt a.toNat a.isLt b.toNat b.isLt 0 _ rfl).1 ?_ h
  intro k_ _
  obtain ⟨_, f0, f1, f2, f3, f4⟩ := key d.toNat d.isLt a.toNat a.isLt b.toNat b.isLt k_ _ rfl
  change rawDecode cl (16777360 + d.toNat * 524288 + a.toNat * 16384 + b.toNat * 512 + k_ * 1073741824) = _
  generalize (16777360 + d.toNat * 524288 + a.toNat * 16384 + b.toNat * 512 + k_ * 1073741824 : Nat) = n_ at *
  cases cl <;> first
    | exact Bool.noConfusion (show false = true from h)
    | (unfold rawDecode rawC; simp [f0, f1, f2, f3, f4])

theorem RoundTrip.minn (d : BitVec 5) (a : BitVec 5) (b : BitVec 5) : RoundTrip.Statement (.minn d a b) := by
  intro cl sync hold h
  have key : ∀ (d' : Nat) (_ : d' < 32) (a' : Nat) (_ : a' < 32) (b' : Nat) (_ : b' < 32) (k_ n_ : Nat), n_ = 16777368 + d' * 524288 + a' * 16384 + b' * 512 + k_ * 1073741824 →
      16777368 + d' * 524288 + a' * 16384 + b' * 512 < 1073741824 ∧ n_ / 16777216 % 64 = 1 ∧ n_ % 512 = 152 ∧ n_ / 524288 % 32 = d' ∧ n_ / 16384 % 32 = a' ∧ n_ / 512 % 32 = b' := by
    intros; refine ⟨?_, ?_, ?_, ?_, ?_, ?_⟩ <;> omega
  refine decode_of_raw cl (.minn d a b) sync hold (key d.toNat d.isLt a.toNat a.isLt b.toNat b.isLt 0 _ rfl).1 ?_ h
  intro k_ _
  obtain ⟨_, f0, f1, f2, f3, f4⟩ := key d.toNat d.isLt a.toNat a.isLt b.toNat b.isLt k_ _ rfl
  change rawDecode cl (16777368 + d.toNat * 524288 + a.toNat * 16384 + b.toNat * 512 + k_ * 1073741824) = _
  generalize (16777368 + d.toNat * 524288 + a.toNat * 16384 + b.toNat * 512 + k_ * 1073741824 : Nat) = n_ at *
  cases cl <;> first
    | exact Bool.noConfusion (show false = true from h)
    | (unfold rawDecode rawC; simp [f0, f1, f2, f3, f4])

theorem RoundTrip.maxn (d : BitVec 5) (a : BitVec 5) (b : BitVec 5) : RoundTrip.Statement (.maxn d a b) := by
  intro cl sync hold h
  have key : ∀ (d' : Nat) (_ : d' < 32) (a' : Nat) (_ : a' < 32) (b' : Nat) (_ : b' < 32) (k_ n_ : Nat), n_ = 16777376 + d' * 524288 + a' * 16384 + b' * 512 + k_ * 1073741824 →
      16777376 + d' * 524288 + a' * 16384 + b' * 512 < 1073741824 ∧ n_ / 16777216 % 64 = 1 ∧ n_ % 512 = 160 ∧ n_ / 524288 % 32 = d' ∧ n_ / 16384 % 32 = a' ∧ n_ / 512 % 32 = b' := by
    intros; refine ⟨?_, ?_, ?_, ?_, ?_, ?_⟩ <;> omega
  refine decode_of_raw cl (.maxn d a b) sync hold (key d.toNat d.isLt a.toNat a.isLt b.toNat b.isLt 0 _ rfl).1 ?_ h
  intro k_ _
  obtain ⟨_, f0, f1, f2, f3, f4⟩ := key d.toNat d.isLt a.toNat a.isLt b.toNat b.isLt k_ _ rfl
  change rawDecode cl (16777376 + d.toNat * 524288 + a.toNat * 16384 + b.toNat * 512 + k_ * 1073741824) = _
  generalize (16777376 + d.toNat * 524288 + a.toNat * 16384 + b.toNat * 512 + k_ * 1073741824 : Nat) = n_ at *
  cases cl <;> first
    | exact Bool.noConfusion (show false = true from h)
    | (unfold rawDecode rawC; simp [f0, f1, f2, f3, f4])

theorem RoundTrip.slt (d : BitVec 5) (a : BitVec 5) (b : BitVec 5) : RoundTrip.Statement (.slt d a b) := by
  intro cl sync hold h
  have key : ∀ (d' : Nat) (_ : d' < 32) (a' : Nat) (_ : a' < 32) (b' : Nat) (_ : b' < 32) (k_ n_ : Nat), n_ = 16777384 + d' * 524288 + a' * 16384 + b' * 512 + k_ * 1073741824 →
      16777384 + d' * 524288 + a' * 16384 + b' * 512 < 1073741824 ∧ n_ / 16777216 % 64 = 1 ∧ n_ % 512 = 168 ∧ n_ / 524288 % 32 = d' ∧ n_ / 16384 % 32 = a' ∧ n_ / 512 % 32 = b' := by
    intros; refine ⟨?_, ?_, ?_, ?_, ?_, ?_⟩ <;> omega
  refine decode_of_raw cl (.slt d a b) sync hold (key d.toNat d.isLt a.toNat a.isLt b.toNat b.isLt 0 _ rfl).1 ?_ h
  intro k_ _
  obtain ⟨_, f0, f1, f2, f3, f4⟩ := key d.toNat d.isLt a.toNat a.isLt b.toNat b.isLt k_ _ rfl
  change rawDecode cl (16777384 + d.toNat * 524288 + a.toNat * 16384 + b.toNat * 512 + k_ * 1073741824) = _
  generalize (16777384 + d.toNat * 524288 + a.toNat * 16384 + b.toNat * 512 + k_ * 1073741824 : Nat) = n_ at *
  cases cl <;> first
    | exact Bool.noConfusion (show false = true from h)
    | (unfold rawDecode rawC; simp [f0, f1, f2, f3, f4])

theorem RoundTrip.sltn (d : BitVec 5) (a : BitVec 5) (b : BitVec 5) : RoundTrip.Statement (.sltn d a b) := by
  intro cl sync hold h
  have key : ∀ (d' : Nat) (_ : d' < 32) (a' : Nat) (_ : a' < 32) (b' : Nat) (_ : b' < 32) (k_ n_ : Nat), n_ = 16777392 + d' * 524288 + a' * 16384 + b' * 512 + k_ * 1073741824 →
      16777392 + d' * 524288 + a' * 16384 + b' * 512 < 1073741824 ∧ n_ / 16777216 % 64 = 1 ∧ n_ % 512 = 176 ∧ n_ / 524288 % 32 = d' ∧ n_ / 16384 % 32 = a' ∧ n_ / 512 % 32 = b' := by
    intros; refine ⟨?_, ?_, ?_, ?_, ?_, ?_⟩ <;> omega
  refine decode_of_raw cl (.sltn d a b) sync hold (key d.toNat d.isLt a.toNat a.isLt b.toNat b.isLt 0 _ rfl).1 ?_ h
  intro k_ _
  obtain ⟨_, f0, f1, f2, f3, f4⟩ := key d.toNat d.isLt a.toNat a.isLt b.toNat b.isLt k_ _ rfl
  change rawDecode cl (16777392 + d.toNat * 524288 + a.toNat * 16384 + b.toNat * 512 + k_ * 1073741824) = _
  generalize (16777392 + d.toNat * 524288 + a.toNat * 16384 + b.toNat * 512 + k_ * 1073741824 : Nat) = n_ at *
  cases cl <;> first
    | exact Bool.noConfusion (show false = true from h)
    | (unfold rawDecode rawC; simp [f0, f1, f2, f3, f4])

theorem RoundTrip.seq (d : BitVec 5) (a : BitVec 5) (b : BitVec 5) : RoundTrip.Statement (.seq d a b) := by
  intro cl sync hold h
  have key : ∀ (d' : Nat) (_ : d' < 32) (a' : Nat) (_ : a' < 32) (b' : Nat) (_ : b' < 32) (k_ n_ : Nat), n_ = 16777400 + d' * 524288 + a' * 16384 + b' * 512 + k_ * 1073741824 →
      16777400 + d' * 524288 + a' * 16384 + b' * 512 < 1073741824 ∧ n_ / 16777216 % 64 = 1 ∧ n_ % 512 = 184 ∧ n_ / 524288 % 32 = d' ∧ n_ / 16384 % 32 = a' ∧ n_ / 512 % 32 = b' := by
    intros; refine ⟨?_, ?_, ?_, ?_, ?_, ?_⟩ <;> omega
  refine decode_of_raw cl (.seq d a b) sync hold (key d.toNat d.isLt a.toNat a.isLt b.toNat b.isLt 0 _ rfl).1 ?_ h
  intro k_ _
  obtain ⟨_, f0, f1, f2, f3, f4⟩ := key d.toNat d.isLt a.toNat a.isLt b.toNat b.isLt k_ _ rfl
  change rawDecode cl (16777400 + d.toNat * 524288 + a.toNat * 16384 + b.toNat * 512 + k_ * 1073741824) = _
  generalize (16777400 + d.toNat * 524288 + a.toNat * 16384 + b.toNat * 512 + k_ * 1073741824 : Nat) = n_ at *
  cases cl <;> first
    | exact Bool.noConfusion (show false = true from h)
    | (unfold rawDecode rawC; simp [f0, f1, f2, f3, f4])

theorem RoundTrip.sne (d : BitVec 5) (a : BitVec 5) (b : BitVec 5) : RoundTrip.Statement (.sne d a b) := by
  intro cl sync hold h
  have key : ∀ (d' : Nat) (_ : d' < 32) (a' : Nat) (_ : a' < 32) (b' : Nat) (_ : b' < 32) (k_ n_ : Nat), n_ = 16777408 + d' * 524288 + a' * 16384 + b' * 512 + k_ * 1073741824 →
      16777408 + d' * 524288 + a' * 16384 + b' * 512 < 1073741824 ∧ n_ / 16777216 % 64 = 1 ∧ n_ % 512 = 192 ∧ n_ / 524288 % 32 = d' ∧ n_ / 16384 % 32 = a' ∧ n_ / 512 % 32 = b' := by
    intros; refine ⟨?_, ?_, ?_, ?_, ?_, ?_⟩ <;> omega
  refine decode_of_raw cl (.sne d a b) sync hold (key d.toNat d.isLt a.toNat a.isLt b.toNat b.isLt 0 _ rfl).1 ?_ h
  intro k_ _
  obtain ⟨_, f0, f1, f2, f3, f4⟩ := key d.toNat d.isLt a.toNat a.isLt b.toNat b.isLt k_ _ rfl
  change rawDecode cl (16777408 + d.toNat * 524288 + a.toNat * 16384 + b.toNat * 512 + k_ * 1073741824) = _
  generalize (16777408 + d.toNat * 524288 + a.toNat * 16384 + b.toNat * 512 + k_ * 1073741824 : Nat) = n_ at *
  cases cl <;> first
    | exact Bool.noConfusion (show false = true from h)
    | (unfold rawDecode rawC; simp [f0, f1, f2, f3, f4])

theorem RoundTrip.clz (d : BitVec 5) (a : BitVec 5) : RoundTrip.Statement (.clz d a) := by
  intro cl sync hold h
  have key : ∀ (d' : Nat) (_ : d' < 32) (a' : Nat) (_ : a' < 32) (k_ n_ : Nat), n_ = 16777416 + d' * 524288 + a' * 16384 + k_ * 1073741824 →
      16777416 + d' * 524288 + a' * 16384 < 1073741824 ∧ n_ / 16777216 % 64 = 1 ∧ n_ % 512 = 200 ∧ n_ % 16384 = 200 ∧ n_ / 524288 % 32 = d' ∧ n_ / 16384 % 32 = a' := by
    intros; refine ⟨?_, ?_, ?_, ?_, ?_, ?_⟩ <;> omega
  refine decode_of_raw cl (.clz d a) sync hold (key d.toNat d.isLt a.toNat a.isLt 0 _ rfl).1 ?_ h
  intro k_ _
  obtain ⟨_, f0, f1, f2, f3, f4⟩ := key d.toNat d.isLt a.toNat a.isLt k_ _ rfl
  change rawDecode cl (16777416 + d.toNat * 524288 + a.toNat * 16384 + k_ * 1073741824) = _
  generalize (16777416 + d.toNat * 524288 + a.toNat * 16384 + k_ * 1073741824 : Nat) = n_ at *
  cases cl <;> first
    | exact Bool.noConfusion (show false = true from h)
    | (unfold rawDecode rawC; simp [f0, f1, f2, f3, f4])

theorem RoundTrip.ctz (d : BitVec 5) (a : BitVec 5) : RoundTrip.Statement (.ctz d a) := by
  intro cl sync hold h
  have key : ∀ (d' : Nat) (_ : d' < 32) (a' : Nat) (_ : a' < 32) (k_ n_ : Nat), n_ = 16777424 + d' * 524288 + a' * 16384 + k_ * 1073741824 →
      16777424 + d' * 524288 + a' * 16384 < 1073741824 ∧ n_ / 16777216 % 64 = 1 ∧ n_ % 512 = 208 ∧ n_ % 16384 = 208 ∧ n_ / 524288 % 32 = d' ∧ n_ / 16384 % 32 = a' := by
    intros; refine ⟨?_, ?_, ?_, ?_, ?_, ?_⟩ <;> omega
  refine decode_of_raw cl (.ctz d a) sync hold (key d.toNat d.isLt a.toNat a.isLt 0 _ rfl).1 ?_ h
  intro k_ _
  obtain ⟨_, f0, f1, f2, f3, f4⟩ := key d.toNat d.isLt a.toNat a.isLt k_ _ rfl
  change rawDecode cl (16777424 + d.toNat * 524288 + a.toNat * 16384 + k_ * 1073741824) = _
  generalize (16777424 + d.toNat * 524288 + a.toNat * 16384 + k_ * 1073741824 : Nat) = n_ at *
  cases cl <;> first
    | exact Bool.noConfusion (show false = true from h)
    | (unfold rawDecode rawC; simp [f0, f1, f2, f3, f4])

theorem RoundTrip.popc (d : BitVec 5) (a : BitVec 5) : RoundTrip.Statement (.popc d a) := by
  intro cl sync hold h
  have key : ∀ (d' : Nat) (_ : d' < 32) (a' : Nat) (_ : a' < 32) (k_ n_ : Nat), n_ = 16777432 + d' * 524288 + a' * 16384 + k_ * 1073741824 →
      16777432 + d' * 524288 + a' * 16384 < 1073741824 ∧ n_ / 16777216 % 64 = 1 ∧ n_ % 512 = 216 ∧ n_ % 16384 = 216 ∧ n_ / 524288 % 32 = d' ∧ n_ / 16384 % 32 = a' := by
    intros; refine ⟨?_, ?_, ?_, ?_, ?_, ?_⟩ <;> omega
  refine decode_of_raw cl (.popc d a) sync hold (key d.toNat d.isLt a.toNat a.isLt 0 _ rfl).1 ?_ h
  intro k_ _
  obtain ⟨_, f0, f1, f2, f3, f4⟩ := key d.toNat d.isLt a.toNat a.isLt k_ _ rfl
  change rawDecode cl (16777432 + d.toNat * 524288 + a.toNat * 16384 + k_ * 1073741824) = _
  generalize (16777432 + d.toNat * 524288 + a.toNat * 16384 + k_ * 1073741824 : Nat) = n_ at *
  cases cl <;> first
    | exact Bool.noConfusion (show false = true from h)
    | (unfold rawDecode rawC; simp [f0, f1, f2, f3, f4])

theorem RoundTrip.addi (d : BitVec 5) (a : BitVec 5) (im : BitVec 14) : RoundTrip.Statement (.addi d a im) := by
  intro cl sync hold h
  have key : ∀ (d' : Nat) (_ : d' < 32) (a' : Nat) (_ : a' < 32) (im' : Nat) (_ : im' < 16384) (k_ n_ : Nat), n_ = 33554432 + d' * 524288 + a' * 16384 + im' + k_ * 1073741824 →
      33554432 + d' * 524288 + a' * 16384 + im' < 1073741824 ∧ n_ / 16777216 % 64 = 2 ∧ n_ / 524288 % 32 = d' ∧ n_ / 16384 % 32 = a' ∧ n_ % 16384 = im' := by
    intros; refine ⟨?_, ?_, ?_, ?_, ?_⟩ <;> omega
  refine decode_of_raw cl (.addi d a im) sync hold (key d.toNat d.isLt a.toNat a.isLt im.toNat im.isLt 0 _ rfl).1 ?_ h
  intro k_ _
  obtain ⟨_, f0, f1, f2, f3⟩ := key d.toNat d.isLt a.toNat a.isLt im.toNat im.isLt k_ _ rfl
  change rawDecode cl (33554432 + d.toNat * 524288 + a.toNat * 16384 + im.toNat + k_ * 1073741824) = _
  generalize (33554432 + d.toNat * 524288 + a.toNat * 16384 + im.toNat + k_ * 1073741824 : Nat) = n_ at *
  cases cl <;> first
    | exact Bool.noConfusion (show false = true from h)
    | (unfold rawDecode rawC; simp [f0, f1, f2, f3])

theorem RoundTrip.andi (d : BitVec 5) (a : BitVec 5) (im : BitVec 14) : RoundTrip.Statement (.andi d a im) := by
  intro cl sync hold h
  have key : ∀ (d' : Nat) (_ : d' < 32) (a' : Nat) (_ : a' < 32) (im' : Nat) (_ : im' < 16384) (k_ n_ : Nat), n_ = 50331648 + d' * 524288 + a' * 16384 + im' + k_ * 1073741824 →
      50331648 + d' * 524288 + a' * 16384 + im' < 1073741824 ∧ n_ / 16777216 % 64 = 3 ∧ n_ / 524288 % 32 = d' ∧ n_ / 16384 % 32 = a' ∧ n_ % 16384 = im' := by
    intros; refine ⟨?_, ?_, ?_, ?_, ?_⟩ <;> omega
  refine decode_of_raw cl (.andi d a im) sync hold (key d.toNat d.isLt a.toNat a.isLt im.toNat im.isLt 0 _ rfl).1 ?_ h
  intro k_ _
  obtain ⟨_, f0, f1, f2, f3⟩ := key d.toNat d.isLt a.toNat a.isLt im.toNat im.isLt k_ _ rfl
  change rawDecode cl (50331648 + d.toNat * 524288 + a.toNat * 16384 + im.toNat + k_ * 1073741824) = _
  generalize (50331648 + d.toNat * 524288 + a.toNat * 16384 + im.toNat + k_ * 1073741824 : Nat) = n_ at *
  cases cl <;> first
    | exact Bool.noConfusion (show false = true from h)
    | (unfold rawDecode rawC; simp [f0, f1, f2, f3])

theorem RoundTrip.ori (d : BitVec 5) (a : BitVec 5) (im : BitVec 14) : RoundTrip.Statement (.ori d a im) := by
  intro cl sync hold h
  have key : ∀ (d' : Nat) (_ : d' < 32) (a' : Nat) (_ : a' < 32) (im' : Nat) (_ : im' < 16384) (k_ n_ : Nat), n_ = 67108864 + d' * 524288 + a' * 16384 + im' + k_ * 1073741824 →
      67108864 + d' * 524288 + a' * 16384 + im' < 1073741824 ∧ n_ / 16777216 % 64 = 4 ∧ n_ / 524288 % 32 = d' ∧ n_ / 16384 % 32 = a' ∧ n_ % 16384 = im' := by
    intros; refine ⟨?_, ?_, ?_, ?_, ?_⟩ <;> omega
  refine decode_of_raw cl (.ori d a im) sync hold (key d.toNat d.isLt a.toNat a.isLt im.toNat im.isLt 0 _ rfl).1 ?_ h
  intro k_ _
  obtain ⟨_, f0, f1, f2, f3⟩ := key d.toNat d.isLt a.toNat a.isLt im.toNat im.isLt k_ _ rfl
  change rawDecode cl (67108864 + d.toNat * 524288 + a.toNat * 16384 + im.toNat + k_ * 1073741824) = _
  generalize (67108864 + d.toNat * 524288 + a.toNat * 16384 + im.toNat + k_ * 1073741824 : Nat) = n_ at *
  cases cl <;> first
    | exact Bool.noConfusion (show false = true from h)
    | (unfold rawDecode rawC; simp [f0, f1, f2, f3])

theorem RoundTrip.xori (d : BitVec 5) (a : BitVec 5) (im : BitVec 14) : RoundTrip.Statement (.xori d a im) := by
  intro cl sync hold h
  have key : ∀ (d' : Nat) (_ : d' < 32) (a' : Nat) (_ : a' < 32) (im' : Nat) (_ : im' < 16384) (k_ n_ : Nat), n_ = 83886080 + d' * 524288 + a' * 16384 + im' + k_ * 1073741824 →
      83886080 + d' * 524288 + a' * 16384 + im' < 1073741824 ∧ n_ / 16777216 % 64 = 5 ∧ n_ / 524288 % 32 = d' ∧ n_ / 16384 % 32 = a' ∧ n_ % 16384 = im' := by
    intros; refine ⟨?_, ?_, ?_, ?_, ?_⟩ <;> omega
  refine decode_of_raw cl (.xori d a im) sync hold (key d.toNat d.isLt a.toNat a.isLt im.toNat im.isLt 0 _ rfl).1 ?_ h
  intro k_ _
  obtain ⟨_, f0, f1, f2, f3⟩ := key d.toNat d.isLt a.toNat a.isLt im.toNat im.isLt k_ _ rfl
  change rawDecode cl (83886080 + d.toNat * 524288 + a.toNat * 16384 + im.toNat + k_ * 1073741824) = _
  generalize (83886080 + d.toNat * 524288 + a.toNat * 16384 + im.toNat + k_ * 1073741824 : Nat) = n_ at *
  cases cl <;> first
    | exact Bool.noConfusion (show false = true from h)
    | (unfold rawDecode rawC; simp [f0, f1, f2, f3])

theorem RoundTrip.shli (d : BitVec 5) (a : BitVec 5) (n : BitVec 6) : RoundTrip.Statement (.shli d a n) := by
  intro cl sync hold h
  have key : ∀ (d' : Nat) (_ : d' < 32) (a' : Nat) (_ : a' < 32) (n' : Nat) (_ : n' < 64) (k_ n_ : Nat), n_ = 100663296 + d' * 524288 + a' * 16384 + n' + k_ * 1073741824 →
      100663296 + d' * 524288 + a' * 16384 + n' < 1073741824 ∧ n_ / 16777216 % 64 = 6 ∧ n_ / 64 % 256 = 0 ∧ n_ / 524288 % 32 = d' ∧ n_ / 16384 % 32 = a' ∧ n_ % 64 = n' := by
    intros; refine ⟨?_, ?_, ?_, ?_, ?_, ?_⟩ <;> omega
  refine decode_of_raw cl (.shli d a n) sync hold (key d.toNat d.isLt a.toNat a.isLt n.toNat n.isLt 0 _ rfl).1 ?_ h
  intro k_ _
  obtain ⟨_, f0, f1, f2, f3, f4⟩ := key d.toNat d.isLt a.toNat a.isLt n.toNat n.isLt k_ _ rfl
  change rawDecode cl (100663296 + d.toNat * 524288 + a.toNat * 16384 + n.toNat + k_ * 1073741824) = _
  generalize (100663296 + d.toNat * 524288 + a.toNat * 16384 + n.toNat + k_ * 1073741824 : Nat) = n_ at *
  cases cl <;> first
    | exact Bool.noConfusion (show false = true from h)
    | (unfold rawDecode rawC; simp [f0, f1, f2, f3, f4])

theorem RoundTrip.shri (d : BitVec 5) (a : BitVec 5) (n : BitVec 6) : RoundTrip.Statement (.shri d a n) := by
  intro cl sync hold h
  have key : ∀ (d' : Nat) (_ : d' < 32) (a' : Nat) (_ : a' < 32) (n' : Nat) (_ : n' < 64) (k_ n_ : Nat), n_ = 100667392 + d' * 524288 + a' * 16384 + n' + k_ * 1073741824 →
      100667392 + d' * 524288 + a' * 16384 + n' < 1073741824 ∧ n_ / 16777216 % 64 = 6 ∧ n_ / 64 % 256 = 64 ∧ n_ / 524288 % 32 = d' ∧ n_ / 16384 % 32 = a' ∧ n_ % 64 = n' := by
    intros; refine ⟨?_, ?_, ?_, ?_, ?_, ?_⟩ <;> omega
  refine decode_of_raw cl (.shri d a n) sync hold (key d.toNat d.isLt a.toNat a.isLt n.toNat n.isLt 0 _ rfl).1 ?_ h
  intro k_ _
  obtain ⟨_, f0, f1, f2, f3, f4⟩ := key d.toNat d.isLt a.toNat a.isLt n.toNat n.isLt k_ _ rfl
  change rawDecode cl (100667392 + d.toNat * 524288 + a.toNat * 16384 + n.toNat + k_ * 1073741824) = _
  generalize (100667392 + d.toNat * 524288 + a.toNat * 16384 + n.toNat + k_ * 1073741824 : Nat) = n_ at *
  cases cl <;> first
    | exact Bool.noConfusion (show false = true from h)
    | (unfold rawDecode rawC; simp [f0, f1, f2, f3, f4])

theorem RoundTrip.srai (d : BitVec 5) (a : BitVec 5) (n : BitVec 6) : RoundTrip.Statement (.srai d a n) := by
  intro cl sync hold h
  have key : ∀ (d' : Nat) (_ : d' < 32) (a' : Nat) (_ : a' < 32) (n' : Nat) (_ : n' < 64) (k_ n_ : Nat), n_ = 100671488 + d' * 524288 + a' * 16384 + n' + k_ * 1073741824 →
      100671488 + d' * 524288 + a' * 16384 + n' < 1073741824 ∧ n_ / 16777216 % 64 = 6 ∧ n_ / 64 % 256 = 128 ∧ n_ / 524288 % 32 = d' ∧ n_ / 16384 % 32 = a' ∧ n_ % 64 = n' := by
    intros; refine ⟨?_, ?_, ?_, ?_, ?_, ?_⟩ <;> omega
  refine decode_of_raw cl (.srai d a n) sync hold (key d.toNat d.isLt a.toNat a.isLt n.toNat n.isLt 0 _ rfl).1 ?_ h
  intro k_ _
  obtain ⟨_, f0, f1, f2, f3, f4⟩ := key d.toNat d.isLt a.toNat a.isLt n.toNat n.isLt k_ _ rfl
  change rawDecode cl (100671488 + d.toNat * 524288 + a.toNat * 16384 + n.toNat + k_ * 1073741824) = _
  generalize (100671488 + d.toNat * 524288 + a.toNat * 16384 + n.toNat + k_ * 1073741824 : Nat) = n_ at *
  cases cl <;> first
    | exact Bool.noConfusion (show false = true from h)
    | (unfold rawDecode rawC; simp [f0, f1, f2, f3, f4])

theorem RoundTrip.roti (d : BitVec 5) (a : BitVec 5) (n : BitVec 6) : RoundTrip.Statement (.roti d a n) := by
  intro cl sync hold h
  have key : ∀ (d' : Nat) (_ : d' < 32) (a' : Nat) (_ : a' < 32) (n' : Nat) (_ : n' < 64) (k_ n_ : Nat), n_ = 100675584 + d' * 524288 + a' * 16384 + n' + k_ * 1073741824 →
      100675584 + d' * 524288 + a' * 16384 + n' < 1073741824 ∧ n_ / 16777216 % 64 = 6 ∧ n_ / 64 % 256 = 192 ∧ n_ / 524288 % 32 = d' ∧ n_ / 16384 % 32 = a' ∧ n_ % 64 = n' := by
    intros; refine ⟨?_, ?_, ?_, ?_, ?_, ?_⟩ <;> omega
  refine decode_of_raw cl (.roti d a n) sync hold (key d.toNat d.isLt a.toNat a.isLt n.toNat n.isLt 0 _ rfl).1 ?_ h
  intro k_ _
  obtain ⟨_, f0, f1, f2, f3, f4⟩ := key d.toNat d.isLt a.toNat a.isLt n.toNat n.isLt k_ _ rfl
  change rawDecode cl (100675584 + d.toNat * 524288 + a.toNat * 16384 + n.toNat + k_ * 1073741824) = _
  generalize (100675584 + d.toNat * 524288 + a.toNat * 16384 + n.toNat + k_ * 1073741824 : Nat) = n_ at *
  cases cl <;> first
    | exact Bool.noConfusion (show false = true from h)
    | (unfold rawDecode rawC; simp [f0, f1, f2, f3, f4])

theorem RoundTrip.slti (d : BitVec 5) (a : BitVec 5) (im : BitVec 14) : RoundTrip.Statement (.slti d a im) := by
  intro cl sync hold h
  have key : ∀ (d' : Nat) (_ : d' < 32) (a' : Nat) (_ : a' < 32) (im' : Nat) (_ : im' < 16384) (k_ n_ : Nat), n_ = 117440512 + d' * 524288 + a' * 16384 + im' + k_ * 1073741824 →
      117440512 + d' * 524288 + a' * 16384 + im' < 1073741824 ∧ n_ / 16777216 % 64 = 7 ∧ n_ / 524288 % 32 = d' ∧ n_ / 16384 % 32 = a' ∧ n_ % 16384 = im' := by
    intros; refine ⟨?_, ?_, ?_, ?_, ?_⟩ <;> omega
  refine decode_of_raw cl (.slti d a im) sync hold (key d.toNat d.isLt a.toNat a.isLt im.toNat im.isLt 0 _ rfl).1 ?_ h
  intro k_ _
  obtain ⟨_, f0, f1, f2, f3⟩ := key d.toNat d.isLt a.toNat a.isLt im.toNat im.isLt k_ _ rfl
  change rawDecode cl (117440512 + d.toNat * 524288 + a.toNat * 16384 + im.toNat + k_ * 1073741824) = _
  generalize (117440512 + d.toNat * 524288 + a.toNat * 16384 + im.toNat + k_ * 1073741824 : Nat) = n_ at *
  cases cl <;> first
    | exact Bool.noConfusion (show false = true from h)
    | (unfold rawDecode rawC; simp [f0, f1, f2, f3])

theorem RoundTrip.sltni (d : BitVec 5) (a : BitVec 5) (im : BitVec 14) : RoundTrip.Statement (.sltni d a im) := by
  intro cl sync hold h
  have key : ∀ (d' : Nat) (_ : d' < 32) (a' : Nat) (_ : a' < 32) (im' : Nat) (_ : im' < 16384) (k_ n_ : Nat), n_ = 134217728 + d' * 524288 + a' * 16384 + im' + k_ * 1073741824 →
      134217728 + d' * 524288 + a' * 16384 + im' < 1073741824 ∧ n_ / 16777216 % 64 = 8 ∧ n_ / 524288 % 32 = d' ∧ n_ / 16384 % 32 = a' ∧ n_ % 16384 = im' := by
    intros; refine ⟨?_, ?_, ?_, ?_, ?_⟩ <;> omega
  refine decode_of_raw cl (.sltni d a im) sync hold (key d.toNat d.isLt a.toNat a.isLt im.toNat im.isLt 0 _ rfl).1 ?_ h
  intro k_ _
  obtain ⟨_, f0, f1, f2, f3⟩ := key d.toNat d.isLt a.toNat a.isLt im.toNat im.isLt k_ _ rfl
  change rawDecode cl (134217728 + d.toNat * 524288 + a.toNat * 16384 + im.toNat + k_ * 1073741824) = _
  generalize (134217728 + d.toNat * 524288 + a.toNat * 16384 + im.toNat + k_ * 1073741824 : Nat) = n_ at *
  cases cl <;> first
    | exact Bool.noConfusion (show false = true from h)
    | (unfold rawDecode rawC; simp [f0, f1, f2, f3])

theorem RoundTrip.lui (d : BitVec 5) (im : BitVec 19) : RoundTrip.Statement (.lui d im) := by
  intro cl sync hold h
  have key : ∀ (d' : Nat) (_ : d' < 32) (im' : Nat) (_ : im' < 524288) (k_ n_ : Nat), n_ = 150994944 + d' * 524288 + im' + k_ * 1073741824 →
      150994944 + d' * 524288 + im' < 1073741824 ∧ n_ / 16777216 % 64 = 9 ∧ n_ / 524288 % 32 = d' ∧ n_ % 524288 = im' := by
    intros; refine ⟨?_, ?_, ?_, ?_⟩ <;> omega
  refine decode_of_raw cl (.lui d im) sync hold (key d.toNat d.isLt im.toNat im.isLt 0 _ rfl).1 ?_ h
  intro k_ _
  obtain ⟨_, f0, f1, f2⟩ := key d.toNat d.isLt im.toNat im.isLt k_ _ rfl
  change rawDecode cl (150994944 + d.toNat * 524288 + im.toNat + k_ * 1073741824) = _
  generalize (150994944 + d.toNat * 524288 + im.toNat + k_ * 1073741824 : Nat) = n_ at *
  cases cl <;> first
    | exact Bool.noConfusion (show false = true from h)
    | (unfold rawDecode rawC; simp [f0, f1, f2])

theorem RoundTrip.lhi (d : BitVec 5) (im : BitVec 19) : RoundTrip.Statement (.lhi d im) := by
  intro cl sync hold h
  have key : ∀ (d' : Nat) (_ : d' < 32) (im' : Nat) (_ : im' < 524288) (k_ n_ : Nat), n_ = 167772160 + d' * 524288 + im' + k_ * 1073741824 →
      167772160 + d' * 524288 + im' < 1073741824 ∧ n_ / 16777216 % 64 = 10 ∧ n_ / 524288 % 32 = d' ∧ n_ % 524288 = im' := by
    intros; refine ⟨?_, ?_, ?_, ?_⟩ <;> omega
  refine decode_of_raw cl (.lhi d im) sync hold (key d.toNat d.isLt im.toNat im.isLt 0 _ rfl).1 ?_ h
  intro k_ _
  obtain ⟨_, f0, f1, f2⟩ := key d.toNat d.isLt im.toNat im.isLt k_ _ rfl
  change rawDecode cl (167772160 + d.toNat * 524288 + im.toNat + k_ * 1073741824) = _
  generalize (167772160 + d.toNat * 524288 + im.toNat + k_ * 1073741824 : Nat) = n_ at *
  cases cl <;> first
    | exact Bool.noConfusion (show false = true from h)
    | (unfold rawDecode rawC; simp [f0, f1, f2])

theorem RoundTrip.lea (d : BitVec 5) (a : BitVec 5) (b : BitVec 5) (k : BitVec 2) : RoundTrip.Statement (.lea d a b k) := by
  intro cl sync hold h
  have key : ∀ (d' : Nat) (_ : d' < 32) (a' : Nat) (_ : a' < 32) (b' : Nat) (_ : b' < 32) (k' : Nat) (_ : k' < 4) (k_ n_ : Nat), n_ = 184549376 + d' * 524288 + a' * 16384 + b' * 512 + k' * 8 + k_ * 1073741824 →
      184549376 + d' * 524288 + a' * 16384 + b' * 512 + k' * 8 < 1073741824 ∧ n_ / 16777216 % 64 = 11 ∧ n_ % 8 = 0 ∧ n_ / 32 % 16 = 0 ∧ n_ / 524288 % 32 = d' ∧ n_ / 16384 % 32 = a' ∧ n_ / 512 % 32 = b' ∧ n_ / 8 % 4 = k' := by
    intros; refine ⟨?_, ?_, ?_, ?_, ?_, ?_, ?_, ?_⟩ <;> omega
  refine decode_of_raw cl (.lea d a b k) sync hold (key d.toNat d.isLt a.toNat a.isLt b.toNat b.isLt k.toNat k.isLt 0 _ rfl).1 ?_ h
  intro k_ _
  obtain ⟨_, f0, f1, f2, f3, f4, f5, f6⟩ := key d.toNat d.isLt a.toNat a.isLt b.toNat b.isLt k.toNat k.isLt k_ _ rfl
  change rawDecode cl (184549376 + d.toNat * 524288 + a.toNat * 16384 + b.toNat * 512 + k.toNat * 8 + k_ * 1073741824) = _
  generalize (184549376 + d.toNat * 524288 + a.toNat * 16384 + b.toNat * 512 + k.toNat * 8 + k_ * 1073741824 : Nat) = n_ at *
  cases cl <;> first
    | exact Bool.noConfusion (show false = true from h)
    | (unfold rawDecode rawC; simp [f0, f1, f2, f3, f4, f5, f6])

theorem RoundTrip.bfx (d : BitVec 5) (a : BitVec 5) (p : BitVec 6) (w : BitVec 6) : RoundTrip.Statement (.bfx d a p w) := by
  intro cl sync hold h
  have key : ∀ (d' : Nat) (_ : d' < 32) (a' : Nat) (_ : a' < 32) (p' : Nat) (_ : p' < 64) (w' : Nat) (_ : w' < 64) (k_ n_ : Nat), n_ = 201326592 + d' * 524288 + a' * 16384 + p' * 256 + w' * 4 + k_ * 1073741824 →
      201326592 + d' * 524288 + a' * 16384 + p' * 256 + w' * 4 < 1073741824 ∧ n_ / 16777216 % 64 = 12 ∧ n_ % 4 = 0 ∧ n_ / 524288 % 32 = d' ∧ n_ / 16384 % 32 = a' ∧ n_ / 256 % 64 = p' ∧ n_ / 4 % 64 = w' := by
    intros; refine ⟨?_, ?_, ?_, ?_, ?_, ?_, ?_⟩ <;> omega
  refine decode_of_raw cl (.bfx d a p w) sync hold (key d.toNat d.isLt a.toNat a.isLt p.toNat p.isLt w.toNat w.isLt 0 _ rfl).1 ?_ h
  intro k_ _
  obtain ⟨_, f0, f1, f2, f3, f4, f5⟩ := key d.toNat d.isLt a.toNat a.isLt p.toNat p.isLt w.toNat w.isLt k_ _ rfl
  change rawDecode cl (201326592 + d.toNat * 524288 + a.toNat * 16384 + p.toNat * 256 + w.toNat * 4 + k_ * 1073741824) = _
  generalize (201326592 + d.toNat * 524288 + a.toNat * 16384 + p.toNat * 256 + w.toNat * 4 + k_ * 1073741824 : Nat) = n_ at *
  cases cl <;> first
    | exact Bool.noConfusion (show false = true from h)
    | (unfold rawDecode rawC; simp [f0, f1, f2, f3, f4, f5])

theorem RoundTrip.bfxn (d : BitVec 5) (a : BitVec 5) (p : BitVec 6) (w : BitVec 6) : RoundTrip.Statement (.bfxn d a p w) := by
  intro cl sync hold h
  have key : ∀ (d' : Nat) (_ : d' < 32) (a' : Nat) (_ : a' < 32) (p' : Nat) (_ : p' < 64) (w' : Nat) (_ : w' < 64) (k_ n_ : Nat), n_ = 201326593 + d' * 524288 + a' * 16384 + p' * 256 + w' * 4 + k_ * 1073741824 →
      201326593 + d' * 524288 + a' * 16384 + p' * 256 + w' * 4 < 1073741824 ∧ n_ / 16777216 % 64 = 12 ∧ n_ % 4 = 1 ∧ n_ / 524288 % 32 = d' ∧ n_ / 16384 % 32 = a' ∧ n_ / 256 % 64 = p' ∧ n_ / 4 % 64 = w' := by
    intros; refine ⟨?_, ?_, ?_, ?_, ?_, ?_, ?_⟩ <;> omega
  refine decode_of_raw cl (.bfxn d a p w) sync hold (key d.toNat d.isLt a.toNat a.isLt p.toNat p.isLt w.toNat w.isLt 0 _ rfl).1 ?_ h
  intro k_ _
  obtain ⟨_, f0, f1, f2, f3, f4, f5⟩ := key d.toNat d.isLt a.toNat a.isLt p.toNat p.isLt w.toNat w.isLt k_ _ rfl
  change rawDecode cl (201326593 + d.toNat * 524288 + a.toNat * 16384 + p.toNat * 256 + w.toNat * 4 + k_ * 1073741824) = _
  generalize (201326593 + d.toNat * 524288 + a.toNat * 16384 + p.toNat * 256 + w.toNat * 4 + k_ * 1073741824 : Nat) = n_ at *
  cases cl <;> first
    | exact Bool.noConfusion (show false = true from h)
    | (unfold rawDecode rawC; simp [f0, f1, f2, f3, f4, f5])

theorem RoundTrip.bfi (d : BitVec 5) (a : BitVec 5) (p : BitVec 6) (w : BitVec 6) : RoundTrip.Statement (.bfi d a p w) := by
  intro cl sync hold h
  have key : ∀ (d' : Nat) (_ : d' < 32) (a' : Nat) (_ : a' < 32) (p' : Nat) (_ : p' < 64) (w' : Nat) (_ : w' < 64) (k_ n_ : Nat), n_ = 201326594 + d' * 524288 + a' * 16384 + p' * 256 + w' * 4 + k_ * 1073741824 →
      201326594 + d' * 524288 + a' * 16384 + p' * 256 + w' * 4 < 1073741824 ∧ n_ / 16777216 % 64 = 12 ∧ n_ % 4 = 2 ∧ n_ / 524288 % 32 = d' ∧ n_ / 16384 % 32 = a' ∧ n_ / 256 % 64 = p' ∧ n_ / 4 % 64 = w' := by
    intros; refine ⟨?_, ?_, ?_, ?_, ?_, ?_, ?_⟩ <;> omega
  refine decode_of_raw cl (.bfi d a p w) sync hold (key d.toNat d.isLt a.toNat a.isLt p.toNat p.isLt w.toNat w.isLt 0 _ rfl).1 ?_ h
  intro k_ _
  obtain ⟨_, f0, f1, f2, f3, f4, f5⟩ := key d.toNat d.isLt a.toNat a.isLt p.toNat p.isLt w.toNat w.isLt k_ _ rfl
  change rawDecode cl (201326594 + d.toNat * 524288 + a.toNat * 16384 + p.toNat * 256 + w.toNat * 4 + k_ * 1073741824) = _
  generalize (201326594 + d.toNat * 524288 + a.toNat * 16384 + p.toNat * 256 + w.toNat * 4 + k_ * 1073741824 : Nat) = n_ at *
  cases cl <;> first
    | exact Bool.noConfusion (show false = true from h)
    | (unfold rawDecode rawC; simp [f0, f1, f2, f3, f4, f5])

theorem RoundTrip.ptagGet (d : BitVec 5) (a : BitVec 5) : RoundTrip.Statement (.ptagGet d a) := by
  intro cl sync hold h
  have key : ∀ (d' : Nat) (_ : d' < 32) (a' : Nat) (_ : a' < 32) (k_ n_ : Nat), n_ = 218103808 + d' * 524288 + a' * 16384 + k_ * 1073741824 →
      218103808 + d' * 524288 + a' * 16384 < 1073741824 ∧ n_ / 16777216 % 64 = 13 ∧ n_ % 16384 = 0 ∧ n_ / 524288 % 32 = d' ∧ n_ / 16384 % 32 = a' := by
    intros; refine ⟨?_, ?_, ?_, ?_, ?_⟩ <;> omega
  refine decode_of_raw cl (.ptagGet d a) sync hold (key d.toNat d.isLt a.toNat a.isLt 0 _ rfl).1 ?_ h
  intro k_ _
  obtain ⟨_, f0, f1, f2, f3⟩ := key d.toNat d.isLt a.toNat a.isLt k_ _ rfl
  change rawDecode cl (218103808 + d.toNat * 524288 + a.toNat * 16384 + k_ * 1073741824) = _
  generalize (218103808 + d.toNat * 524288 + a.toNat * 16384 + k_ * 1073741824 : Nat) = n_ at *
  cases cl <;> first
    | exact Bool.noConfusion (show false = true from h)
    | (unfold rawDecode rawC; simp [f0, f1, f2, f3])

theorem RoundTrip.ptagSet (d : BitVec 5) (a : BitVec 5) (b : BitVec 5) : RoundTrip.Statement (.ptagSet d a b) := by
  intro cl sync hold h
  have key : ∀ (d' : Nat) (_ : d' < 32) (a' : Nat) (_ : a' < 32) (b' : Nat) (_ : b' < 32) (k_ n_ : Nat), n_ = 218103816 + d' * 524288 + a' * 16384 + b' * 512 + k_ * 1073741824 →
      218103816 + d' * 524288 + a' * 16384 + b' * 512 < 1073741824 ∧ n_ / 16777216 % 64 = 13 ∧ n_ % 512 = 8 ∧ n_ / 524288 % 32 = d' ∧ n_ / 16384 % 32 = a' ∧ n_ / 512 % 32 = b' ∧ ¬ n_ % 16384 = 0 := by
    intros; refine ⟨?_, ?_, ?_, ?_, ?_, ?_, ?_⟩ <;> omega
  refine decode_of_raw cl (.ptagSet d a b) sync hold (key d.toNat d.isLt a.toNat a.isLt b.toNat b.isLt 0 _ rfl).1 ?_ h
  intro k_ _
  obtain ⟨_, f0, f1, f2, f3, f4, f5⟩ := key d.toNat d.isLt a.toNat a.isLt b.toNat b.isLt k_ _ rfl
  change rawDecode cl (218103816 + d.toNat * 524288 + a.toNat * 16384 + b.toNat * 512 + k_ * 1073741824) = _
  generalize (218103816 + d.toNat * 524288 + a.toNat * 16384 + b.toNat * 512 + k_ * 1073741824 : Nat) = n_ at *
  cases cl <;> first
    | exact Bool.noConfusion (show false = true from h)
    | (unfold rawDecode rawC; simp [f0, f1, f2, f3, f4, f5])

theorem RoundTrip.ldI8 (t : BitVec 5) (b : BitVec 5) (o : BitVec 11) (d : BitVec 3) : RoundTrip.Statement (.ldI8 t b o d) := by
  intro cl sync hold h
  have key : ∀ (t' : Nat) (_ : t' < 32) (b' : Nat) (_ : b' < 32) (o' : Nat) (_ : o' < 2048) (d' : Nat) (_ : d' < 8) (k_ n_ : Nat), n_ = 268435456 + t' * 524288 + b' * 16384 + o' * 8 + d' + k_ * 1073741824 →
      268435456 + t' * 524288 + b' * 16384 + o' * 8 + d' < 1073741824 ∧ n_ / 16777216 % 64 = 16 ∧ n_ / 524288 % 32 = t' ∧ n_ / 16384 % 32 = b' ∧ n_ / 8 % 2048 = o' ∧ n_ % 8 = d' := by
    intros; refine ⟨?_, ?_, ?_, ?_, ?_, ?_⟩ <;> omega
  refine decode_of_raw cl (.ldI8 t b o d) sync hold (key t.toNat t.isLt b.toNat b.isLt o.toNat o.isLt d.toNat d.isLt 0 _ rfl).1 ?_ h
  intro k_ _
  obtain ⟨_, f0, f1, f2, f3, f4⟩ := key t.toNat t.isLt b.toNat b.isLt o.toNat o.isLt d.toNat d.isLt k_ _ rfl
  change rawDecode cl (268435456 + t.toNat * 524288 + b.toNat * 16384 + o.toNat * 8 + d.toNat + k_ * 1073741824) = _
  generalize (268435456 + t.toNat * 524288 + b.toNat * 16384 + o.toNat * 8 + d.toNat + k_ * 1073741824 : Nat) = n_ at *
  cases cl <;> first
    | exact Bool.noConfusion (show false = true from h)
    | (unfold rawDecode rawC; simp [f0, f1, f2, f3, f4])

theorem RoundTrip.ldN8 (t : BitVec 5) (b : BitVec 5) (o : BitVec 11) (d : BitVec 3) : RoundTrip.Statement (.ldN8 t b o d) := by
  intro cl sync hold h
  have key : ∀ (t' : Nat) (_ : t' < 32) (b' : Nat) (_ : b' < 32) (o' : Nat) (_ : o' < 2048) (d' : Nat) (_ : d' < 8) (k_ n_ : Nat), n_ = 285212672 + t' * 524288 + b' * 16384 + o' * 8 + d' + k_ * 1073741824 →
      285212672 + t' * 524288 + b' * 16384 + o' * 8 + d' < 1073741824 ∧ n_ / 16777216 % 64 = 17 ∧ n_ / 524288 % 32 = t' ∧ n_ / 16384 % 32 = b' ∧ n_ / 8 % 2048 = o' ∧ n_ % 8 = d' := by
    intros; refine ⟨?_, ?_, ?_, ?_, ?_, ?_⟩ <;> omega
  refine decode_of_raw cl (.ldN8 t b o d) sync hold (key t.toNat t.isLt b.toNat b.isLt o.toNat o.isLt d.toNat d.isLt 0 _ rfl).1 ?_ h
  intro k_ _
  obtain ⟨_, f0, f1, f2, f3, f4⟩ := key t.toNat t.isLt b.toNat b.isLt o.toNat o.isLt d.toNat d.isLt k_ _ rfl
  change rawDecode cl (285212672 + t.toNat * 524288 + b.toNat * 16384 + o.toNat * 8 + d.toNat + k_ * 1073741824) = _
  generalize (285212672 + t.toNat * 524288 + b.toNat * 16384 + o.toNat * 8 + d.toNat + k_ * 1073741824 : Nat) = n_ at *
  cases cl <;> first
    | exact Bool.noConfusion (show false = true from h)
    | (unfold rawDecode rawC; simp [f0, f1, f2, f3, f4])

theorem RoundTrip.ldI16 (t : BitVec 5) (b : BitVec 5) (o : BitVec 11) (d : BitVec 3) : RoundTrip.Statement (.ldI16 t b o d) := by
  intro cl sync hold h
  have key : ∀ (t' : Nat) (_ : t' < 32) (b' : Nat) (_ : b' < 32) (o' : Nat) (_ : o' < 2048) (d' : Nat) (_ : d' < 8) (k_ n_ : Nat), n_ = 301989888 + t' * 524288 + b' * 16384 + o' * 8 + d' + k_ * 1073741824 →
      301989888 + t' * 524288 + b' * 16384 + o' * 8 + d' < 1073741824 ∧ n_ / 16777216 % 64 = 18 ∧ n_ / 524288 % 32 = t' ∧ n_ / 16384 % 32 = b' ∧ n_ / 8 % 2048 = o' ∧ n_ % 8 = d' := by
    intros; refine ⟨?_, ?_, ?_, ?_, ?_, ?_⟩ <;> omega
  refine decode_of_raw cl (.ldI16 t b o d) sync hold (key t.toNat t.isLt b.toNat b.isLt o.toNat o.isLt d.toNat d.isLt 0 _ rfl).1 ?_ h
  intro k_ _
  obtain ⟨_, f0, f1, f2, f3, f4⟩ := key t.toNat t.isLt b.toNat b.isLt o.toNat o.isLt d.toNat d.isLt k_ _ rfl
  change rawDecode cl (301989888 + t.toNat * 524288 + b.toNat * 16384 + o.toNat * 8 + d.toNat + k_ * 1073741824) = _
  generalize (301989888 + t.toNat * 524288 + b.toNat * 16384 + o.toNat * 8 + d.toNat + k_ * 1073741824 : Nat) = n_ at *
  cases cl <;> first
    | exact Bool.noConfusion (show false = true from h)
    | (unfold rawDecode rawC; simp [f0, f1, f2, f3, f4])

theorem RoundTrip.ldN16 (t : BitVec 5) (b : BitVec 5) (o : BitVec 11) (d : BitVec 3) : RoundTrip.Statement (.ldN16 t b o d) := by
  intro cl sync hold h
  have key : ∀ (t' : Nat) (_ : t' < 32) (b' : Nat) (_ : b' < 32) (o' : Nat) (_ : o' < 2048) (d' : Nat) (_ : d' < 8) (k_ n_ : Nat), n_ = 318767104 + t' * 524288 + b' * 16384 + o' * 8 + d' + k_ * 1073741824 →
      318767104 + t' * 524288 + b' * 16384 + o' * 8 + d' < 1073741824 ∧ n_ / 16777216 % 64 = 19 ∧ n_ / 524288 % 32 = t' ∧ n_ / 16384 % 32 = b' ∧ n_ / 8 % 2048 = o' ∧ n_ % 8 = d' := by
    intros; refine ⟨?_, ?_, ?_, ?_, ?_, ?_⟩ <;> omega
  refine decode_of_raw cl (.ldN16 t b o d) sync hold (key t.toNat t.isLt b.toNat b.isLt o.toNat o.isLt d.toNat d.isLt 0 _ rfl).1 ?_ h
  intro k_ _
  obtain ⟨_, f0, f1, f2, f3, f4⟩ := key t.toNat t.isLt b.toNat b.isLt o.toNat o.isLt d.toNat d.isLt k_ _ rfl
  change rawDecode cl (318767104 + t.toNat * 524288 + b.toNat * 16384 + o.toNat * 8 + d.toNat + k_ * 1073741824) = _
  generalize (318767104 + t.toNat * 524288 + b.toNat * 16384 + o.toNat * 8 + d.toNat + k_ * 1073741824 : Nat) = n_ at *
  cases cl <;> first
    | exact Bool.noConfusion (show false = true from h)
    | (unfold rawDecode rawC; simp [f0, f1, f2, f3, f4])

theorem RoundTrip.ldI32 (t : BitVec 5) (b : BitVec 5) (o : BitVec 11) (d : BitVec 3) : RoundTrip.Statement (.ldI32 t b o d) := by
  intro cl sync hold h
  have key : ∀ (t' : Nat) (_ : t' < 32) (b' : Nat) (_ : b' < 32) (o' : Nat) (_ : o' < 2048) (d' : Nat) (_ : d' < 8) (k_ n_ : Nat), n_ = 335544320 + t' * 524288 + b' * 16384 + o' * 8 + d' + k_ * 1073741824 →
      335544320 + t' * 524288 + b' * 16384 + o' * 8 + d' < 1073741824 ∧ n_ / 16777216 % 64 = 20 ∧ n_ / 524288 % 32 = t' ∧ n_ / 16384 % 32 = b' ∧ n_ / 8 % 2048 = o' ∧ n_ % 8 = d' := by
    intros; refine ⟨?_, ?_, ?_, ?_, ?_, ?_⟩ <;> omega
  refine decode_of_raw cl (.ldI32 t b o d) sync hold (key t.toNat t.isLt b.toNat b.isLt o.toNat o.isLt d.toNat d.isLt 0 _ rfl).1 ?_ h
  intro k_ _
  obtain ⟨_, f0, f1, f2, f3, f4⟩ := key t.toNat t.isLt b.toNat b.isLt o.toNat o.isLt d.toNat d.isLt k_ _ rfl
  change rawDecode cl (335544320 + t.toNat * 524288 + b.toNat * 16384 + o.toNat * 8 + d.toNat + k_ * 1073741824) = _
  generalize (335544320 + t.toNat * 524288 + b.toNat * 16384 + o.toNat * 8 + d.toNat + k_ * 1073741824 : Nat) = n_ at *
  cases cl <;> first
    | exact Bool.noConfusion (show false = true from h)
    | (unfold rawDecode rawC; simp [f0, f1, f2, f3, f4])

theorem RoundTrip.ldN32 (t : BitVec 5) (b : BitVec 5) (o : BitVec 11) (d : BitVec 3) : RoundTrip.Statement (.ldN32 t b o d) := by
  intro cl sync hold h
  have key : ∀ (t' : Nat) (_ : t' < 32) (b' : Nat) (_ : b' < 32) (o' : Nat) (_ : o' < 2048) (d' : Nat) (_ : d' < 8) (k_ n_ : Nat), n_ = 352321536 + t' * 524288 + b' * 16384 + o' * 8 + d' + k_ * 1073741824 →
      352321536 + t' * 524288 + b' * 16384 + o' * 8 + d' < 1073741824 ∧ n_ / 16777216 % 64 = 21 ∧ n_ / 524288 % 32 = t' ∧ n_ / 16384 % 32 = b' ∧ n_ / 8 % 2048 = o' ∧ n_ % 8 = d' := by
    intros; refine ⟨?_, ?_, ?_, ?_, ?_, ?_⟩ <;> omega
  refine decode_of_raw cl (.ldN32 t b o d) sync hold (key t.toNat t.isLt b.toNat b.isLt o.toNat o.isLt d.toNat d.isLt 0 _ rfl).1 ?_ h
  intro k_ _
  obtain ⟨_, f0, f1, f2, f3, f4⟩ := key t.toNat t.isLt b.toNat b.isLt o.toNat o.isLt d.toNat d.isLt k_ _ rfl
  change rawDecode cl (352321536 + t.toNat * 524288 + b.toNat * 16384 + o.toNat * 8 + d.toNat + k_ * 1073741824) = _
  generalize (352321536 + t.toNat * 524288 + b.toNat * 16384 + o.toNat * 8 + d.toNat + k_ * 1073741824 : Nat) = n_ at *
  cases cl <;> first
    | exact Bool.noConfusion (show false = true from h)
    | (unfold rawDecode rawC; simp [f0, f1, f2, f3, f4])

theorem RoundTrip.ld64 (t : BitVec 5) (b : BitVec 5) (o : BitVec 11) (d : BitVec 3) : RoundTrip.Statement (.ld64 t b o d) := by
  intro cl sync hold h
  have key : ∀ (t' : Nat) (_ : t' < 32) (b' : Nat) (_ : b' < 32) (o' : Nat) (_ : o' < 2048) (d' : Nat) (_ : d' < 8) (k_ n_ : Nat), n_ = 369098752 + t' * 524288 + b' * 16384 + o' * 8 + d' + k_ * 1073741824 →
      369098752 + t' * 524288 + b' * 16384 + o' * 8 + d' < 1073741824 ∧ n_ / 16777216 % 64 = 22 ∧ n_ / 524288 % 32 = t' ∧ n_ / 16384 % 32 = b' ∧ n_ / 8 % 2048 = o' ∧ n_ % 8 = d' := by
    intros; refine ⟨?_, ?_, ?_, ?_, ?_, ?_⟩ <;> omega
  refine decode_of_raw cl (.ld64 t b o d) sync hold (key t.toNat t.isLt b.toNat b.isLt o.toNat o.isLt d.toNat d.isLt 0 _ rfl).1 ?_ h
  intro k_ _
  obtain ⟨_, f0, f1, f2, f3, f4⟩ := key t.toNat t.isLt b.toNat b.isLt o.toNat o.isLt d.toNat d.isLt k_ _ rfl
  change rawDecode cl (369098752 + t.toNat * 524288 + b.toNat * 16384 + o.toNat * 8 + d.toNat + k_ * 1073741824) = _
  generalize (369098752 + t.toNat * 524288 + b.toNat * 16384 + o.toNat * 8 + d.toNat + k_ * 1073741824 : Nat) = n_ at *
  cases cl <;> first
    | exact Bool.noConfusion (show false = true from h)
    | (unfold rawDecode rawC; simp [f0, f1, f2, f3, f4])

theorem RoundTrip.st8 (t : BitVec 5) (b : BitVec 5) (o : BitVec 11) (d : BitVec 3) : RoundTrip.Statement (.st8 t b o d) := by
  intro cl sync hold h
  have key : ∀ (t' : Nat) (_ : t' < 32) (b' : Nat) (_ : b' < 32) (o' : Nat) (_ : o' < 2048) (d' : Nat) (_ : d' < 8) (k_ n_ : Nat), n_ = 385875968 + t' * 524288 + b' * 16384 + o' * 8 + d' + k_ * 1073741824 →
      385875968 + t' * 524288 + b' * 16384 + o' * 8 + d' < 1073741824 ∧ n_ / 16777216 % 64 = 23 ∧ n_ / 524288 % 32 = t' ∧ n_ / 16384 % 32 = b' ∧ n_ / 8 % 2048 = o' ∧ n_ % 8 = d' := by
    intros; refine ⟨?_, ?_, ?_, ?_, ?_, ?_⟩ <;> omega
  refine decode_of_raw cl (.st8 t b o d) sync hold (key t.toNat t.isLt b.toNat b.isLt o.toNat o.isLt d.toNat d.isLt 0 _ rfl).1 ?_ h
  intro k_ _
  obtain ⟨_, f0, f1, f2, f3, f4⟩ := key t.toNat t.isLt b.toNat b.isLt o.toNat o.isLt d.toNat d.isLt k_ _ rfl
  change rawDecode cl (385875968 + t.toNat * 524288 + b.toNat * 16384 + o.toNat * 8 + d.toNat + k_ * 1073741824) = _
  generalize (385875968 + t.toNat * 524288 + b.toNat * 16384 + o.toNat * 8 + d.toNat + k_ * 1073741824 : Nat) = n_ at *
  cases cl <;> first
    | exact Bool.noConfusion (show false = true from h)
    | (unfold rawDecode rawC; simp [f0, f1, f2, f3, f4])

theorem RoundTrip.st16 (t : BitVec 5) (b : BitVec 5) (o : BitVec 11) (d : BitVec 3) : RoundTrip.Statement (.st16 t b o d) := by
  intro cl sync hold h
  have key : ∀ (t' : Nat) (_ : t' < 32) (b' : Nat) (_ : b' < 32) (o' : Nat) (_ : o' < 2048) (d' : Nat) (_ : d' < 8) (k_ n_ : Nat), n_ = 402653184 + t' * 524288 + b' * 16384 + o' * 8 + d' + k_ * 1073741824 →
      402653184 + t' * 524288 + b' * 16384 + o' * 8 + d' < 1073741824 ∧ n_ / 16777216 % 64 = 24 ∧ n_ / 524288 % 32 = t' ∧ n_ / 16384 % 32 = b' ∧ n_ / 8 % 2048 = o' ∧ n_ % 8 = d' := by
    intros; refine ⟨?_, ?_, ?_, ?_, ?_, ?_⟩ <;> omega
  refine decode_of_raw cl (.st16 t b o d) sync hold (key t.toNat t.isLt b.toNat b.isLt o.toNat o.isLt d.toNat d.isLt 0 _ rfl).1 ?_ h
  intro k_ _
  obtain ⟨_, f0, f1, f2, f3, f4⟩ := key t.toNat t.isLt b.toNat b.isLt o.toNat o.isLt d.toNat d.isLt k_ _ rfl
  change rawDecode cl (402653184 + t.toNat * 524288 + b.toNat * 16384 + o.toNat * 8 + d.toNat + k_ * 1073741824) = _
  generalize (402653184 + t.toNat * 524288 + b.toNat * 16384 + o.toNat * 8 + d.toNat + k_ * 1073741824 : Nat) = n_ at *
  cases cl <;> first
    | exact Bool.noConfusion (show false = true from h)
    | (unfold rawDecode rawC; simp [f0, f1, f2, f3, f4])

theorem RoundTrip.st32 (t : BitVec 5) (b : BitVec 5) (o : BitVec 11) (d : BitVec 3) : RoundTrip.Statement (.st32 t b o d) := by
  intro cl sync hold h
  have key : ∀ (t' : Nat) (_ : t' < 32) (b' : Nat) (_ : b' < 32) (o' : Nat) (_ : o' < 2048) (d' : Nat) (_ : d' < 8) (k_ n_ : Nat), n_ = 419430400 + t' * 524288 + b' * 16384 + o' * 8 + d' + k_ * 1073741824 →
      419430400 + t' * 524288 + b' * 16384 + o' * 8 + d' < 1073741824 ∧ n_ / 16777216 % 64 = 25 ∧ n_ / 524288 % 32 = t' ∧ n_ / 16384 % 32 = b' ∧ n_ / 8 % 2048 = o' ∧ n_ % 8 = d' := by
    intros; refine ⟨?_, ?_, ?_, ?_, ?_, ?_⟩ <;> omega
  refine decode_of_raw cl (.st32 t b o d) sync hold (key t.toNat t.isLt b.toNat b.isLt o.toNat o.isLt d.toNat d.isLt 0 _ rfl).1 ?_ h
  intro k_ _
  obtain ⟨_, f0, f1, f2, f3, f4⟩ := key t.toNat t.isLt b.toNat b.isLt o.toNat o.isLt d.toNat d.isLt k_ _ rfl
  change rawDecode cl (419430400 + t.toNat * 524288 + b.toNat * 16384 + o.toNat * 8 + d.toNat + k_ * 1073741824) = _
  generalize (419430400 + t.toNat * 524288 + b.toNat * 16384 + o.toNat * 8 + d.toNat + k_ * 1073741824 : Nat) = n_ at *
  cases cl <;> first
    | exact Bool.noConfusion (show false = true from h)
    | (unfold rawDecode rawC; simp [f0, f1, f2, f3, f4])

theorem RoundTrip.st64 (t : BitVec 5) (b : BitVec 5) (o : BitVec 11) (d : BitVec 3) : RoundTrip.Statement (.st64 t b o d) := by
  intro cl sync hold h
  have key : ∀ (t' : Nat) (_ : t' < 32) (b' : Nat) (_ : b' < 32) (o' : Nat) (_ : o' < 2048) (d' : Nat) (_ : d' < 8) (k_ n_ : Nat), n_ = 436207616 + t' * 524288 + b' * 16384 + o' * 8 + d' + k_ * 1073741824 →
      436207616 + t' * 524288 + b' * 16384 + o' * 8 + d' < 1073741824 ∧ n_ / 16777216 % 64 = 26 ∧ n_ / 524288 % 32 = t' ∧ n_ / 16384 % 32 = b' ∧ n_ / 8 % 2048 = o' ∧ n_ % 8 = d' := by
    intros; refine ⟨?_, ?_, ?_, ?_, ?_, ?_⟩ <;> omega
  refine decode_of_raw cl (.st64 t b o d) sync hold (key t.toNat t.isLt b.toNat b.isLt o.toNat o.isLt d.toNat d.isLt 0 _ rfl).1 ?_ h
  intro k_ _
  obtain ⟨_, f0, f1, f2, f3, f4⟩ := key t.toNat t.isLt b.toNat b.isLt o.toNat o.isLt d.toNat d.isLt k_ _ rfl
  change rawDecode cl (436207616 + t.toNat * 524288 + b.toNat * 16384 + o.toNat * 8 + d.toNat + k_ * 1073741824) = _
  generalize (436207616 + t.toNat * 524288 + b.toNat * 16384 + o.toNat * 8 + d.toNat + k_ * 1073741824 : Nat) = n_ at *
  cases cl <;> first
    | exact Bool.noConfusion (show false = true from h)
    | (unfold rawDecode rawC; simp [f0, f1, f2, f3, f4])

theorem RoundTrip.sld (t : BitVec 5) (b : BitVec 5) (o : BitVec 11) (d : BitVec 3) : RoundTrip.Statement (.sld t b o d) := by
  intro cl sync hold h
  have key : ∀ (t' : Nat) (_ : t' < 32) (b' : Nat) (_ : b' < 32) (o' : Nat) (_ : o' < 2048) (d' : Nat) (_ : d' < 8) (k_ n_ : Nat), n_ = 452984832 + t' * 524288 + b' * 16384 + o' * 8 + d' + k_ * 1073741824 →
      452984832 + t' * 524288 + b' * 16384 + o' * 8 + d' < 1073741824 ∧ n_ / 16777216 % 64 = 27 ∧ n_ / 524288 % 32 = t' ∧ n_ / 16384 % 32 = b' ∧ n_ / 8 % 2048 = o' ∧ n_ % 8 = d' := by
    intros; refine ⟨?_, ?_, ?_, ?_, ?_, ?_⟩ <;> omega
  refine decode_of_raw cl (.sld t b o d) sync hold (key t.toNat t.isLt b.toNat b.isLt o.toNat o.isLt d.toNat d.isLt 0 _ rfl).1 ?_ h
  intro k_ _
  obtain ⟨_, f0, f1, f2, f3, f4⟩ := key t.toNat t.isLt b.toNat b.isLt o.toNat o.isLt d.toNat d.isLt k_ _ rfl
  change rawDecode cl (452984832 + t.toNat * 524288 + b.toNat * 16384 + o.toNat * 8 + d.toNat + k_ * 1073741824) = _
  generalize (452984832 + t.toNat * 524288 + b.toNat * 16384 + o.toNat * 8 + d.toNat + k_ * 1073741824 : Nat) = n_ at *
  cases cl <;> first
    | exact Bool.noConfusion (show false = true from h)
    | (unfold rawDecode rawC; simp [f0, f1, f2, f3, f4])

theorem RoundTrip.sst (t : BitVec 5) (b : BitVec 5) (o : BitVec 11) (d : BitVec 3) : RoundTrip.Statement (.sst t b o d) := by
  intro cl sync hold h
  have key : ∀ (t' : Nat) (_ : t' < 32) (b' : Nat) (_ : b' < 32) (o' : Nat) (_ : o' < 2048) (d' : Nat) (_ : d' < 8) (k_ n_ : Nat), n_ = 469762048 + t' * 524288 + b' * 16384 + o' * 8 + d' + k_ * 1073741824 →
      469762048 + t' * 524288 + b' * 16384 + o' * 8 + d' < 1073741824 ∧ n_ / 16777216 % 64 = 28 ∧ n_ / 524288 % 32 = t' ∧ n_ / 16384 % 32 = b' ∧ n_ / 8 % 2048 = o' ∧ n_ % 8 = d' := by
    intros; refine ⟨?_, ?_, ?_, ?_, ?_, ?_⟩ <;> omega
  refine decode_of_raw cl (.sst t b o d) sync hold (key t.toNat t.isLt b.toNat b.isLt o.toNat o.isLt d.toNat d.isLt 0 _ rfl).1 ?_ h
  intro k_ _
  obtain ⟨_, f0, f1, f2, f3, f4⟩ := key t.toNat t.isLt b.toNat b.isLt o.toNat o.isLt d.toNat d.isLt k_ _ rfl
  change rawDecode cl (469762048 + t.toNat * 524288 + b.toNat * 16384 + o.toNat * 8 + d.toNat + k_ * 1073741824) = _
  generalize (469762048 + t.toNat * 524288 + b.toNat * 16384 + o.toNat * 8 + d.toNat + k_ * 1073741824 : Nat) = n_ at *
  cases cl <;> first
    | exact Bool.noConfusion (show false = true from h)
    | (unfold rawDecode rawC; simp [f0, f1, f2, f3, f4])

theorem RoundTrip.bld (t : BitVec 5) (b : BitVec 5) (o : BitVec 9) (f : BitVec 2) (d : BitVec 3) : RoundTrip.Statement (.bld t b o f d) := by
  intro cl sync hold h
  have key : ∀ (t' : Nat) (_ : t' < 32) (b' : Nat) (_ : b' < 32) (o' : Nat) (_ : o' < 512) (f' : Nat) (_ : f' < 4) (d' : Nat) (_ : d' < 8) (k_ n_ : Nat), n_ = 486539264 + t' * 524288 + b' * 16384 + o' * 32 + f' * 8 + d' + k_ * 1073741824 →
      486539264 + t' * 524288 + b' * 16384 + o' * 32 + f' * 8 + d' < 1073741824 ∧ n_ / 16777216 % 64 = 29 ∧ n_ / 524288 % 32 = t' ∧ n_ / 16384 % 32 = b' ∧ n_ / 32 % 512 = o' ∧ n_ / 8 % 4 = f' ∧ n_ % 8 = d' := by
    intros; refine ⟨?_, ?_, ?_, ?_, ?_, ?_, ?_⟩ <;> omega
  refine decode_of_raw cl (.bld t b o f d) sync hold (key t.toNat t.isLt b.toNat b.isLt o.toNat o.isLt f.toNat f.isLt d.toNat d.isLt 0 _ rfl).1 ?_ h
  intro k_ _
  obtain ⟨_, f0, f1, f2, f3, f4, f5⟩ := key t.toNat t.isLt b.toNat b.isLt o.toNat o.isLt f.toNat f.isLt d.toNat d.isLt k_ _ rfl
  change rawDecode cl (486539264 + t.toNat * 524288 + b.toNat * 16384 + o.toNat * 32 + f.toNat * 8 + d.toNat + k_ * 1073741824) = _
  generalize (486539264 + t.toNat * 524288 + b.toNat * 16384 + o.toNat * 32 + f.toNat * 8 + d.toNat + k_ * 1073741824 : Nat) = n_ at *
  cases cl <;> first
    | exact Bool.noConfusion (show false = true from h)
    | (unfold rawDecode rawC; simp [f0, f1, f2, f3, f4, f5])

theorem RoundTrip.bst (t : BitVec 5) (b : BitVec 5) (o : BitVec 9) (f : BitVec 2) (d : BitVec 3) : RoundTrip.Statement (.bst t b o f d) := by
  intro cl sync hold h
  have key : ∀ (t' : Nat) (_ : t' < 32) (b' : Nat) (_ : b' < 32) (o' : Nat) (_ : o' < 512) (f' : Nat) (_ : f' < 4) (d' : Nat) (_ : d' < 8) (k_ n_ : Nat), n_ = 503316480 + t' * 524288 + b' * 16384 + o' * 32 + f' * 8 + d' + k_ * 1073741824 →
      503316480 + t' * 524288 + b' * 16384 + o' * 32 + f' * 8 + d' < 1073741824 ∧ n_ / 16777216 % 64 = 30 ∧ n_ / 524288 % 32 = t' ∧ n_ / 16384 % 32 = b' ∧ n_ / 32 % 512 = o' ∧ n_ / 8 % 4 = f' ∧ n_ % 8 = d' := by
    intros; refine ⟨?_, ?_, ?_, ?_, ?_, ?_, ?_⟩ <;> omega
  refine decode_of_raw cl (.bst t b o f d) sync hold (key t.toNat t.isLt b.toNat b.isLt o.toNat o.isLt f.toNat f.isLt d.toNat d.isLt 0 _ rfl).1 ?_ h
  intro k_ _
  obtain ⟨_, f0, f1, f2, f3, f4, f5⟩ := key t.toNat t.isLt b.toNat b.isLt o.toNat o.isLt f.toNat f.isLt d.toNat d.isLt k_ _ rfl
  change rawDecode cl (503316480 + t.toNat * 524288 + b.toNat * 16384 + o.toNat * 32 + f.toNat * 8 + d.toNat + k_ * 1073741824) = _
  generalize (503316480 + t.toNat * 524288 + b.toNat * 16384 + o.toNat * 32 + f.toNat * 8 + d.toNat + k_ * 1073741824 : Nat) = n_ at *
  cases cl <;> first
    | exact Bool.noConfusion (show false = true from h)
    | (unfold rawDecode rawC; simp [f0, f1, f2, f3, f4, f5])

theorem RoundTrip.aadd (d : BitVec 5) (a : BitVec 5) (v : BitVec 5) (z : BitVec 2) (p : BitVec 3) : RoundTrip.Statement (.aadd d a v z p) := by
  intro cl sync hold h
  have key : ∀ (d' : Nat) (_ : d' < 32) (a' : Nat) (_ : a' < 32) (v' : Nat) (_ : v' < 32) (z' : Nat) (_ : z' < 4) (p' : Nat) (_ : p' < 8) (k_ n_ : Nat), n_ = 536870912 + d' * 524288 + a' * 16384 + v' * 512 + z' * 8 + p' + k_ * 1073741824 →
      536870912 + d' * 524288 + a' * 16384 + v' * 512 + z' * 8 + p' < 1073741824 ∧ n_ / 16777216 % 64 = 32 ∧ n_ / 32 % 16 = 0 ∧ n_ / 524288 % 32 = d' ∧ n_ / 16384 % 32 = a' ∧ n_ / 512 % 32 = v' ∧ n_ / 8 % 4 = z' ∧ n_ % 8 = p' := by
    intros; refine ⟨?_, ?_, ?_, ?_, ?_, ?_, ?_, ?_⟩ <;> omega
  refine decode_of_raw cl (.aadd d a v z p) sync hold (key d.toNat d.isLt a.toNat a.isLt v.toNat v.isLt z.toNat z.isLt p.toNat p.isLt 0 _ rfl).1 ?_ h
  intro k_ _
  obtain ⟨_, f0, f1, f2, f3, f4, f5, f6⟩ := key d.toNat d.isLt a.toNat a.isLt v.toNat v.isLt z.toNat z.isLt p.toNat p.isLt k_ _ rfl
  change rawDecode cl (536870912 + d.toNat * 524288 + a.toNat * 16384 + v.toNat * 512 + z.toNat * 8 + p.toNat + k_ * 1073741824) = _
  generalize (536870912 + d.toNat * 524288 + a.toNat * 16384 + v.toNat * 512 + z.toNat * 8 + p.toNat + k_ * 1073741824 : Nat) = n_ at *
  cases cl <;> first
    | exact Bool.noConfusion (show false = true from h)
    | (unfold rawDecode rawC; simp [f0, f1, f2, f3, f4, f5, f6])

theorem RoundTrip.aand (d : BitVec 5) (a : BitVec 5) (v : BitVec 5) (z : BitVec 2) (p : BitVec 3) : RoundTrip.Statement (.aand d a v z p) := by
  intro cl sync hold h
  have key : ∀ (d' : Nat) (_ : d' < 32) (a' : Nat) (_ : a' < 32) (v' : Nat) (_ : v' < 32) (z' : Nat) (_ : z' < 4) (p' : Nat) (_ : p' < 8) (k_ n_ : Nat), n_ = 536870944 + d' * 524288 + a' * 16384 + v' * 512 + z' * 8 + p' + k_ * 1073741824 →
      536870944 + d' * 524288 + a' * 16384 + v' * 512 + z' * 8 + p' < 1073741824 ∧ n_ / 16777216 % 64 = 32 ∧ n_ / 32 % 16 = 1 ∧ n_ / 524288 % 32 = d' ∧ n_ / 16384 % 32 = a' ∧ n_ / 512 % 32 = v' ∧ n_ / 8 % 4 = z' ∧ n_ % 8 = p' := by
    intros; refine ⟨?_, ?_, ?_, ?_, ?_, ?_, ?_, ?_⟩ <;> omega
  refine decode_of_raw cl (.aand d a v z p) sync hold (key d.toNat d.isLt a.toNat a.isLt v.toNat v.isLt z.toNat z.isLt p.toNat p.isLt 0 _ rfl).1 ?_ h
  intro k_ _
  obtain ⟨_, f0, f1, f2, f3, f4, f5, f6⟩ := key d.toNat d.isLt a.toNat a.isLt v.toNat v.isLt z.toNat z.isLt p.toNat p.isLt k_ _ rfl
  change rawDecode cl (536870944 + d.toNat * 524288 + a.toNat * 16384 + v.toNat * 512 + z.toNat * 8 + p.toNat + k_ * 1073741824) = _
  generalize (536870944 + d.toNat * 524288 + a.toNat * 16384 + v.toNat * 512 + z.toNat * 8 + p.toNat + k_ * 1073741824 : Nat) = n_ at *
  cases cl <;> first
    | exact Bool.noConfusion (show false = true from h)
    | (unfold rawDecode rawC; simp [f0, f1, f2, f3, f4, f5, f6])

theorem RoundTrip.aor (d : BitVec 5) (a : BitVec 5) (v : BitVec 5) (z : BitVec 2) (p : BitVec 3) : RoundTrip.Statement (.aor d a v z p) := by
  intro cl sync hold h
  have key : ∀ (d' : Nat) (_ : d' < 32) (a' : Nat) (_ : a' < 32) (v' : Nat) (_ : v' < 32) (z' : Nat) (_ : z' < 4) (p' : Nat) (_ : p' < 8) (k_ n_ : Nat), n_ = 536870976 + d' * 524288 + a' * 16384 + v' * 512 + z' * 8 + p' + k_ * 1073741824 →
      536870976 + d' * 524288 + a' * 16384 + v' * 512 + z' * 8 + p' < 1073741824 ∧ n_ / 16777216 % 64 = 32 ∧ n_ / 32 % 16 = 2 ∧ n_ / 524288 % 32 = d' ∧ n_ / 16384 % 32 = a' ∧ n_ / 512 % 32 = v' ∧ n_ / 8 % 4 = z' ∧ n_ % 8 = p' := by
    intros; refine ⟨?_, ?_, ?_, ?_, ?_, ?_, ?_, ?_⟩ <;> omega
  refine decode_of_raw cl (.aor d a v z p) sync hold (key d.toNat d.isLt a.toNat a.isLt v.toNat v.isLt z.toNat z.isLt p.toNat p.isLt 0 _ rfl).1 ?_ h
  intro k_ _
  obtain ⟨_, f0, f1, f2, f3, f4, f5, f6⟩ := key d.toNat d.isLt a.toNat a.isLt v.toNat v.isLt z.toNat z.isLt p.toNat p.isLt k_ _ rfl
  change rawDecode cl (536870976 + d.toNat * 524288 + a.toNat * 16384 + v.toNat * 512 + z.toNat * 8 + p.toNat + k_ * 1073741824) = _
  generalize (536870976 + d.toNat * 524288 + a.toNat * 16384 + v.toNat * 512 + z.toNat * 8 + p.toNat + k_ * 1073741824 : Nat) = n_ at *
  cases cl <;> first
    | exact Bool.noConfusion (show false = true from h)
    | (unfold rawDecode rawC; simp [f0, f1, f2, f3, f4, f5, f6])

theorem RoundTrip.axor (d : BitVec 5) (a : BitVec 5) (v : BitVec 5) (z : BitVec 2) (p : BitVec 3) : RoundTrip.Statement (.axor d a v z p) := by
  intro cl sync hold h
  have key : ∀ (d' : Nat) (_ : d' < 32) (a' : Nat) (_ : a' < 32) (v' : Nat) (_ : v' < 32) (z' : Nat) (_ : z' < 4) (p' : Nat) (_ : p' < 8) (k_ n_ : Nat), n_ = 536871008 + d' * 524288 + a' * 16384 + v' * 512 + z' * 8 + p' + k_ * 1073741824 →
      536871008 + d' * 524288 + a' * 16384 + v' * 512 + z' * 8 + p' < 1073741824 ∧ n_ / 16777216 % 64 = 32 ∧ n_ / 32 % 16 = 3 ∧ n_ / 524288 % 32 = d' ∧ n_ / 16384 % 32 = a' ∧ n_ / 512 % 32 = v' ∧ n_ / 8 % 4 = z' ∧ n_ % 8 = p' := by
    intros; refine ⟨?_, ?_, ?_, ?_, ?_, ?_, ?_, ?_⟩ <;> omega
  refine decode_of_raw cl (.axor d a v z p) sync hold (key d.toNat d.isLt a.toNat a.isLt v.toNat v.isLt z.toNat z.isLt p.toNat p.isLt 0 _ rfl).1 ?_ h
  intro k_ _
  obtain ⟨_, f0, f1, f2, f3, f4, f5, f6⟩ := key d.toNat d.isLt a.toNat a.isLt v.toNat v.isLt z.toNat z.isLt p.toNat p.isLt k_ _ rfl
  change rawDecode cl (536871008 + d.toNat * 524288 + a.toNat * 16384 + v.toNat * 512 + z.toNat * 8 + p.toNat + k_ * 1073741824) = _
  generalize (536871008 + d.toNat * 524288 + a.toNat * 16384 + v.toNat * 512 + z.toNat * 8 + p.toNat + k_ * 1073741824 : Nat) = n_ at *
  cases cl <;> first
    | exact Bool.noConfusion (show false = true from h)
    | (unfold rawDecode rawC; simp [f0, f1, f2, f3, f4, f5, f6])

theorem RoundTrip.aswp (d : BitVec 5) (a : BitVec 5) (v : BitVec 5) (z : BitVec 2) (p : BitVec 3) : RoundTrip.Statement (.aswp d a v z p) := by
  intro cl sync hold h
  have key : ∀ (d' : Nat) (_ : d' < 32) (a' : Nat) (_ : a' < 32) (v' : Nat) (_ : v' < 32) (z' : Nat) (_ : z' < 4) (p' : Nat) (_ : p' < 8) (k_ n_ : Nat), n_ = 536871040 + d' * 524288 + a' * 16384 + v' * 512 + z' * 8 + p' + k_ * 1073741824 →
      536871040 + d' * 524288 + a' * 16384 + v' * 512 + z' * 8 + p' < 1073741824 ∧ n_ / 16777216 % 64 = 32 ∧ n_ / 32 % 16 = 4 ∧ n_ / 524288 % 32 = d' ∧ n_ / 16384 % 32 = a' ∧ n_ / 512 % 32 = v' ∧ n_ / 8 % 4 = z' ∧ n_ % 8 = p' := by
    intros; refine ⟨?_, ?_, ?_, ?_, ?_, ?_, ?_, ?_⟩ <;> omega
  refine decode_of_raw cl (.aswp d a v z p) sync hold (key d.toNat d.isLt a.toNat a.isLt v.toNat v.isLt z.toNat z.isLt p.toNat p.isLt 0 _ rfl).1 ?_ h
  intro k_ _
  obtain ⟨_, f0, f1, f2, f3, f4, f5, f6⟩ := key d.toNat d.isLt a.toNat a.isLt v.toNat v.isLt z.toNat z.isLt p.toNat p.isLt k_ _ rfl
  change rawDecode cl (536871040 + d.toNat * 524288 + a.toNat * 16384 + v.toNat * 512 + z.toNat * 8 + p.toNat + k_ * 1073741824) = _
  generalize (536871040 + d.toNat * 524288 + a.toNat * 16384 + v.toNat * 512 + z.toNat * 8 + p.toNat + k_ * 1073741824 : Nat) = n_ at *
  cases cl <;> first
    | exact Bool.noConfusion (show false = true from h)
    | (unfold rawDecode rawC; simp [f0, f1, f2, f3, f4, f5, f6])

theorem RoundTrip.amin (d : BitVec 5) (a : BitVec 5) (v : BitVec 5) (z : BitVec 2) (p : BitVec 3) : RoundTrip.Statement (.amin d a v z p) := by
  intro cl sync hold h
  have key : ∀ (d' : Nat) (_ : d' < 32) (a' : Nat) (_ : a' < 32) (v' : Nat) (_ : v' < 32) (z' : Nat) (_ : z' < 4) (p' : Nat) (_ : p' < 8) (k_ n_ : Nat), n_ = 536871072 + d' * 524288 + a' * 16384 + v' * 512 + z' * 8 + p' + k_ * 1073741824 →
      536871072 + d' * 524288 + a' * 16384 + v' * 512 + z' * 8 + p' < 1073741824 ∧ n_ / 16777216 % 64 = 32 ∧ n_ / 32 % 16 = 5 ∧ n_ / 524288 % 32 = d' ∧ n_ / 16384 % 32 = a' ∧ n_ / 512 % 32 = v' ∧ n_ / 8 % 4 = z' ∧ n_ % 8 = p' := by
    intros; refine ⟨?_, ?_, ?_, ?_, ?_, ?_, ?_, ?_⟩ <;> omega
  refine decode_of_raw cl (.amin d a v z p) sync hold (key d.toNat d.isLt a.toNat a.isLt v.toNat v.isLt z.toNat z.isLt p.toNat p.isLt 0 _ rfl).1 ?_ h
  intro k_ _
  obtain ⟨_, f0, f1, f2, f3, f4, f5, f6⟩ := key d.toNat d.isLt a.toNat a.isLt v.toNat v.isLt z.toNat z.isLt p.toNat p.isLt k_ _ rfl
  change rawDecode cl (536871072 + d.toNat * 524288 + a.toNat * 16384 + v.toNat * 512 + z.toNat * 8 + p.toNat + k_ * 1073741824) = _
  generalize (536871072 + d.toNat * 524288 + a.toNat * 16384 + v.toNat * 512 + z.toNat * 8 + p.toNat + k_ * 1073741824 : Nat) = n_ at *
  cases cl <;> first
    | exact Bool.noConfusion (show false = true from h)
    | (unfold rawDecode rawC; simp [f0, f1, f2, f3, f4, f5, f6])

theorem RoundTrip.amax (d : BitVec 5) (a : BitVec 5) (v : BitVec 5) (z : BitVec 2) (p : BitVec 3) : RoundTrip.Statement (.amax d a v z p) := by
  intro cl sync hold h
  have key : ∀ (d' : Nat) (_ : d' < 32) (a' : Nat) (_ : a' < 32) (v' : Nat) (_ : v' < 32) (z' : Nat) (_ : z' < 4) (p' : Nat) (_ : p' < 8) (k_ n_ : Nat), n_ = 536871104 + d' * 524288 + a' * 16384 + v' * 512 + z' * 8 + p' + k_ * 1073741824 →
      536871104 + d' * 524288 + a' * 16384 + v' * 512 + z' * 8 + p' < 1073741824 ∧ n_ / 16777216 % 64 = 32 ∧ n_ / 32 % 16 = 6 ∧ n_ / 524288 % 32 = d' ∧ n_ / 16384 % 32 = a' ∧ n_ / 512 % 32 = v' ∧ n_ / 8 % 4 = z' ∧ n_ % 8 = p' := by
    intros; refine ⟨?_, ?_, ?_, ?_, ?_, ?_, ?_, ?_⟩ <;> omega
  refine decode_of_raw cl (.amax d a v z p) sync hold (key d.toNat d.isLt a.toNat a.isLt v.toNat v.isLt z.toNat z.isLt p.toNat p.isLt 0 _ rfl).1 ?_ h
  intro k_ _
  obtain ⟨_, f0, f1, f2, f3, f4, f5, f6⟩ := key d.toNat d.isLt a.toNat a.isLt v.toNat v.isLt z.toNat z.isLt p.toNat p.isLt k_ _ rfl
  change rawDecode cl (536871104 + d.toNat * 524288 + a.toNat * 16384 + v.toNat * 512 + z.toNat * 8 + p.toNat + k_ * 1073741824) = _
  generalize (536871104 + d.toNat * 524288 + a.toNat * 16384 + v.toNat * 512 + z.toNat * 8 + p.toNat + k_ * 1073741824 : Nat) = n_ at *
  cases cl <;> first
    | exact Bool.noConfusion (show false = true from h)
    | (unfold rawDecode rawC; simp [f0, f1, f2, f3, f4, f5, f6])

theorem RoundTrip.aminn (d : BitVec 5) (a : BitVec 5) (v : BitVec 5) (z : BitVec 2) (p : BitVec 3) : RoundTrip.Statement (.aminn d a v z p) := by
  intro cl sync hold h
  have key : ∀ (d' : Nat) (_ : d' < 32) (a' : Nat) (_ : a' < 32) (v' : Nat) (_ : v' < 32) (z' : Nat) (_ : z' < 4) (p' : Nat) (_ : p' < 8) (k_ n_ : Nat), n_ = 536871136 + d' * 524288 + a' * 16384 + v' * 512 + z' * 8 + p' + k_ * 1073741824 →
      536871136 + d' * 524288 + a' * 16384 + v' * 512 + z' * 8 + p' < 1073741824 ∧ n_ / 16777216 % 64 = 32 ∧ n_ / 32 % 16 = 7 ∧ n_ / 524288 % 32 = d' ∧ n_ / 16384 % 32 = a' ∧ n_ / 512 % 32 = v' ∧ n_ / 8 % 4 = z' ∧ n_ % 8 = p' := by
    intros; refine ⟨?_, ?_, ?_, ?_, ?_, ?_, ?_, ?_⟩ <;> omega
  refine decode_of_raw cl (.aminn d a v z p) sync hold (key d.toNat d.isLt a.toNat a.isLt v.toNat v.isLt z.toNat z.isLt p.toNat p.isLt 0 _ rfl).1 ?_ h
  intro k_ _
  obtain ⟨_, f0, f1, f2, f3, f4, f5, f6⟩ := key d.toNat d.isLt a.toNat a.isLt v.toNat v.isLt z.toNat z.isLt p.toNat p.isLt k_ _ rfl
  change rawDecode cl (536871136 + d.toNat * 524288 + a.toNat * 16384 + v.toNat * 512 + z.toNat * 8 + p.toNat + k_ * 1073741824) = _
  generalize (536871136 + d.toNat * 524288 + a.toNat * 16384 + v.toNat * 512 + z.toNat * 8 + p.toNat + k_ * 1073741824 : Nat) = n_ at *
  cases cl <;> first
    | exact Bool.noConfusion (show false = true from h)
    | (unfold rawDecode rawC; simp [f0, f1, f2, f3, f4, f5, f6])

theorem RoundTrip.amaxn (d : BitVec 5) (a : BitVec 5) (v : BitVec 5) (z : BitVec 2) (p : BitVec 3) : RoundTrip.Statement (.amaxn d a v z p) := by
  intro cl sync hold h
  have key : ∀ (d' : Nat) (_ : d' < 32) (a' : Nat) (_ : a' < 32) (v' : Nat) (_ : v' < 32) (z' : Nat) (_ : z' < 4) (p' : Nat) (_ : p' < 8) (k_ n_ : Nat), n_ = 536871168 + d' * 524288 + a' * 16384 + v' * 512 + z' * 8 + p' + k_ * 1073741824 →
      536871168 + d' * 524288 + a' * 16384 + v' * 512 + z' * 8 + p' < 1073741824 ∧ n_ / 16777216 % 64 = 32 ∧ n_ / 32 % 16 = 8 ∧ n_ / 524288 % 32 = d' ∧ n_ / 16384 % 32 = a' ∧ n_ / 512 % 32 = v' ∧ n_ / 8 % 4 = z' ∧ n_ % 8 = p' := by
    intros; refine ⟨?_, ?_, ?_, ?_, ?_, ?_, ?_, ?_⟩ <;> omega
  refine decode_of_raw cl (.amaxn d a v z p) sync hold (key d.toNat d.isLt a.toNat a.isLt v.toNat v.isLt z.toNat z.isLt p.toNat p.isLt 0 _ rfl).1 ?_ h
  intro k_ _
  obtain ⟨_, f0, f1, f2, f3, f4, f5, f6⟩ := key d.toNat d.isLt a.toNat a.isLt v.toNat v.isLt z.toNat z.isLt p.toNat p.isLt k_ _ rfl
  change rawDecode cl (536871168 + d.toNat * 524288 + a.toNat * 16384 + v.toNat * 512 + z.toNat * 8 + p.toNat + k_ * 1073741824) = _
  generalize (536871168 + d.toNat * 524288 + a.toNat * 16384 + v.toNat * 512 + z.toNat * 8 + p.toNat + k_ * 1073741824 : Nat) = n_ at *
  cases cl <;> first
    | exact Bool.noConfusion (show false = true from h)
    | (unfold rawDecode rawC; simp [f0, f1, f2, f3, f4, f5, f6])

theorem RoundTrip.afadd (d : BitVec 5) (a : BitVec 5) (v : BitVec 5) (z : BitVec 2) (p : BitVec 3) : RoundTrip.Statement (.afadd d a v z p) := by
  intro cl sync hold h
  have key : ∀ (d' : Nat) (_ : d' < 32) (a' : Nat) (_ : a' < 32) (v' : Nat) (_ : v' < 32) (z' : Nat) (_ : z' < 4) (p' : Nat) (_ : p' < 8) (k_ n_ : Nat), n_ = 536871200 + d' * 524288 + a' * 16384 + v' * 512 + z' * 8 + p' + k_ * 1073741824 →
      536871200 + d' * 524288 + a' * 16384 + v' * 512 + z' * 8 + p' < 1073741824 ∧ n_ / 16777216 % 64 = 32 ∧ n_ / 32 % 16 = 9 ∧ n_ / 524288 % 32 = d' ∧ n_ / 16384 % 32 = a' ∧ n_ / 512 % 32 = v' ∧ n_ / 8 % 4 = z' ∧ n_ % 8 = p' := by
    intros; refine ⟨?_, ?_, ?_, ?_, ?_, ?_, ?_, ?_⟩ <;> omega
  refine decode_of_raw cl (.afadd d a v z p) sync hold (key d.toNat d.isLt a.toNat a.isLt v.toNat v.isLt z.toNat z.isLt p.toNat p.isLt 0 _ rfl).1 ?_ h
  intro k_ _
  obtain ⟨_, f0, f1, f2, f3, f4, f5, f6⟩ := key d.toNat d.isLt a.toNat a.isLt v.toNat v.isLt z.toNat z.isLt p.toNat p.isLt k_ _ rfl
  change rawDecode cl (536871200 + d.toNat * 524288 + a.toNat * 16384 + v.toNat * 512 + z.toNat * 8 + p.toNat + k_ * 1073741824) = _
  generalize (536871200 + d.toNat * 524288 + a.toNat * 16384 + v.toNat * 512 + z.toNat * 8 + p.toNat + k_ * 1073741824 : Nat) = n_ at *
  cases cl <;> first
    | exact Bool.noConfusion (show false = true from h)
    | (unfold rawDecode rawC; simp [f0, f1, f2, f3, f4, f5, f6])

theorem RoundTrip.afmax (d : BitVec 5) (a : BitVec 5) (v : BitVec 5) (z : BitVec 2) (p : BitVec 3) : RoundTrip.Statement (.afmax d a v z p) := by
  intro cl sync hold h
  have key : ∀ (d' : Nat) (_ : d' < 32) (a' : Nat) (_ : a' < 32) (v' : Nat) (_ : v' < 32) (z' : Nat) (_ : z' < 4) (p' : Nat) (_ : p' < 8) (k_ n_ : Nat), n_ = 536871232 + d' * 524288 + a' * 16384 + v' * 512 + z' * 8 + p' + k_ * 1073741824 →
      536871232 + d' * 524288 + a' * 16384 + v' * 512 + z' * 8 + p' < 1073741824 ∧ n_ / 16777216 % 64 = 32 ∧ n_ / 32 % 16 = 10 ∧ n_ / 524288 % 32 = d' ∧ n_ / 16384 % 32 = a' ∧ n_ / 512 % 32 = v' ∧ n_ / 8 % 4 = z' ∧ n_ % 8 = p' := by
    intros; refine ⟨?_, ?_, ?_, ?_, ?_, ?_, ?_, ?_⟩ <;> omega
  refine decode_of_raw cl (.afmax d a v z p) sync hold (key d.toNat d.isLt a.toNat a.isLt v.toNat v.isLt z.toNat z.isLt p.toNat p.isLt 0 _ rfl).1 ?_ h
  intro k_ _
  obtain ⟨_, f0, f1, f2, f3, f4, f5, f6⟩ := key d.toNat d.isLt a.toNat a.isLt v.toNat v.isLt z.toNat z.isLt p.toNat p.isLt k_ _ rfl
  change rawDecode cl (536871232 + d.toNat * 524288 + a.toNat * 16384 + v.toNat * 512 + z.toNat * 8 + p.toNat + k_ * 1073741824) = _
  generalize (536871232 + d.toNat * 524288 + a.toNat * 16384 + v.toNat * 512 + z.toNat * 8 + p.toNat + k_ * 1073741824 : Nat) = n_ at *
  cases cl <;> first
    | exact Bool.noConfusion (show false = true from h)
    | (unfold rawDecode rawC; simp [f0, f1, f2, f3, f4, f5, f6])

theorem RoundTrip.afmin (d : BitVec 5) (a : BitVec 5) (v : BitVec 5) (z : BitVec 2) (p : BitVec 3) : RoundTrip.Statement (.afmin d a v z p) := by
  intro cl sync hold h
  have key : ∀ (d' : Nat) (_ : d' < 32) (a' : Nat) (_ : a' < 32) (v' : Nat) (_ : v' < 32) (z' : Nat) (_ : z' < 4) (p' : Nat) (_ : p' < 8) (k_ n_ : Nat), n_ = 536871264 + d' * 524288 + a' * 16384 + v' * 512 + z' * 8 + p' + k_ * 1073741824 →
      536871264 + d' * 524288 + a' * 16384 + v' * 512 + z' * 8 + p' < 1073741824 ∧ n_ / 16777216 % 64 = 32 ∧ n_ / 32 % 16 = 11 ∧ n_ / 524288 % 32 = d' ∧ n_ / 16384 % 32 = a' ∧ n_ / 512 % 32 = v' ∧ n_ / 8 % 4 = z' ∧ n_ % 8 = p' := by
    intros; refine ⟨?_, ?_, ?_, ?_, ?_, ?_, ?_, ?_⟩ <;> omega
  refine decode_of_raw cl (.afmin d a v z p) sync hold (key d.toNat d.isLt a.toNat a.isLt v.toNat v.isLt z.toNat z.isLt p.toNat p.isLt 0 _ rfl).1 ?_ h
  intro k_ _
  obtain ⟨_, f0, f1, f2, f3, f4, f5, f6⟩ := key d.toNat d.isLt a.toNat a.isLt v.toNat v.isLt z.toNat z.isLt p.toNat p.isLt k_ _ rfl
  change rawDecode cl (536871264 + d.toNat * 524288 + a.toNat * 16384 + v.toNat * 512 + z.toNat * 8 + p.toNat + k_ * 1073741824) = _
  generalize (536871264 + d.toNat * 524288 + a.toNat * 16384 + v.toNat * 512 + z.toNat * 8 + p.toNat + k_ * 1073741824 : Nat) = n_ at *
  cases cl <;> first
    | exact Bool.noConfusion (show false = true from h)
    | (unfold rawDecode rawC; simp [f0, f1, f2, f3, f4, f5, f6])

theorem RoundTrip.acas (d : BitVec 5) (a : BitVec 5) (v : BitVec 5) (z : BitVec 2) (p : BitVec 3) : RoundTrip.Statement (.acas d a v z p) := by
  intro cl sync hold h
  have key : ∀ (d' : Nat) (_ : d' < 32) (a' : Nat) (_ : a' < 32) (v' : Nat) (_ : v' < 32) (z' : Nat) (_ : z' < 4) (p' : Nat) (_ : p' < 8) (k_ n_ : Nat), n_ = 536871296 + d' * 524288 + a' * 16384 + v' * 512 + z' * 8 + p' + k_ * 1073741824 →
      536871296 + d' * 524288 + a' * 16384 + v' * 512 + z' * 8 + p' < 1073741824 ∧ n_ / 16777216 % 64 = 32 ∧ n_ / 32 % 16 = 12 ∧ n_ / 524288 % 32 = d' ∧ n_ / 16384 % 32 = a' ∧ n_ / 512 % 32 = v' ∧ n_ / 8 % 4 = z' ∧ n_ % 8 = p' := by
    intros; refine ⟨?_, ?_, ?_, ?_, ?_, ?_, ?_, ?_⟩ <;> omega
  refine decode_of_raw cl (.acas d a v z p) sync hold (key d.toNat d.isLt a.toNat a.isLt v.toNat v.isLt z.toNat z.isLt p.toNat p.isLt 0 _ rfl).1 ?_ h
  intro k_ _
  obtain ⟨_, f0, f1, f2, f3, f4, f5, f6⟩ := key d.toNat d.isLt a.toNat a.isLt v.toNat v.isLt z.toNat z.isLt p.toNat p.isLt k_ _ rfl
  change rawDecode cl (536871296 + d.toNat * 524288 + a.toNat * 16384 + v.toNat * 512 + z.toNat * 8 + p.toNat + k_ * 1073741824) = _
  generalize (536871296 + d.toNat * 524288 + a.toNat * 16384 + v.toNat * 512 + z.toNat * 8 + p.toNat + k_ * 1073741824 : Nat) = n_ at *
  cases cl <;> first
    | exact Bool.noConfusion (show false = true from h)
    | (unfold rawDecode rawC; simp [f0, f1, f2, f3, f4, f5, f6])

theorem RoundTrip.ared (a : BitVec 5) (v : BitVec 5) (o : BitVec 4) (z : BitVec 2) (p : BitVec 3) : RoundTrip.Statement (.ared a v o z p) := by
  intro cl sync hold h
  have key : ∀ (a' : Nat) (_ : a' < 32) (v' : Nat) (_ : v' < 32) (o' : Nat) (_ : o' < 16) (z' : Nat) (_ : z' < 4) (p' : Nat) (_ : p' < 8) (k_ n_ : Nat), n_ = 553648128 + a' * 16384 + v' * 512 + o' * 32 + z' * 8 + p' + k_ * 1073741824 →
      553648128 + a' * 16384 + v' * 512 + o' * 32 + z' * 8 + p' < 1073741824 ∧ n_ / 16777216 % 64 = 33 ∧ n_ / 524288 % 32 = 0 ∧ n_ / 16384 % 32 = a' ∧ n_ / 512 % 32 = v' ∧ n_ / 32 % 16 = o' ∧ n_ / 8 % 4 = z' ∧ n_ % 8 = p' := by
    intros; refine ⟨?_, ?_, ?_, ?_, ?_, ?_, ?_, ?_⟩ <;> omega
  refine decode_of_raw cl (.ared a v o z p) sync hold (key a.toNat a.isLt v.toNat v.isLt o.toNat o.isLt z.toNat z.isLt p.toNat p.isLt 0 _ rfl).1 ?_ h
  intro k_ _
  obtain ⟨_, f0, f1, f2, f3, f4, f5, f6⟩ := key a.toNat a.isLt v.toNat v.isLt o.toNat o.isLt z.toNat z.isLt p.toNat p.isLt k_ _ rfl
  change rawDecode cl (553648128 + a.toNat * 16384 + v.toNat * 512 + o.toNat * 32 + z.toNat * 8 + p.toNat + k_ * 1073741824) = _
  generalize (553648128 + a.toNat * 16384 + v.toNat * 512 + o.toNat * 32 + z.toNat * 8 + p.toNat + k_ * 1073741824 : Nat) = n_ at *
  cases cl <;> first
    | exact Bool.noConfusion (show false = true from h)
    | (unfold rawDecode rawC; simp [f0, f1, f2, f3, f4, f5, f6])

theorem RoundTrip.odseti (o : BitVec 3) (sp : BitVec 3) (p : BitVec 8) (c : BitVec 3) : RoundTrip.Statement (.odseti o sp p c) := by
  intro cl sync hold h
  have key : ∀ (o' : Nat) (_ : o' < 8) (sp' : Nat) (_ : sp' < 8) (p' : Nat) (_ : p' < 256) (c' : Nat) (_ : c' < 8) (k_ n_ : Nat), n_ = 570425344 + o' * 2097152 + sp' * 262144 + p' * 1024 + c' * 128 + k_ * 1073741824 →
      570425344 + o' * 2097152 + sp' * 262144 + p' * 1024 + c' * 128 < 1073741824 ∧ n_ / 16777216 % 64 = 34 ∧ n_ % 128 = 0 ∧ n_ / 2097152 % 8 = o' ∧ n_ / 262144 % 8 = sp' ∧ n_ / 1024 % 256 = p' ∧ n_ / 128 % 8 = c' := by
    intros; refine ⟨?_, ?_, ?_, ?_, ?_, ?_, ?_⟩ <;> omega
  refine decode_of_raw cl (.odseti o sp p c) sync hold (key o.toNat o.isLt sp.toNat sp.isLt p.toNat p.isLt c.toNat c.isLt 0 _ rfl).1 ?_ h
  intro k_ _
  obtain ⟨_, f0, f1, f2, f3, f4, f5⟩ := key o.toNat o.isLt sp.toNat sp.isLt p.toNat p.isLt c.toNat c.isLt k_ _ rfl
  change rawDecode cl (570425344 + o.toNat * 2097152 + sp.toNat * 262144 + p.toNat * 1024 + c.toNat * 128 + k_ * 1073741824) = _
  generalize (570425344 + o.toNat * 2097152 + sp.toNat * 262144 + p.toNat * 1024 + c.toNat * 128 + k_ * 1073741824 : Nat) = n_ at *
  cases cl <;> first
    | exact Bool.noConfusion (show false = true from h)
    | (unfold rawDecode rawC; simp [f0, f1, f2, f3, f4, f5])

theorem RoundTrip.odset (o : BitVec 3) (a : BitVec 5) : RoundTrip.Statement (.odset o a) := by
  intro cl sync hold h
  have key : ∀ (o' : Nat) (_ : o' < 8) (a' : Nat) (_ : a' < 32) (k_ n_ : Nat), n_ = 587202560 + o' * 2097152 + a' * 16384 + k_ * 1073741824 →
      587202560 + o' * 2097152 + a' * 16384 < 1073741824 ∧ n_ / 16777216 % 64 = 35 ∧ n_ % 16384 = 0 ∧ n_ / 524288 % 4 = 0 ∧ n_ / 2097152 % 8 = o' ∧ n_ / 16384 % 32 = a' := by
    intros; refine ⟨?_, ?_, ?_, ?_, ?_, ?_⟩ <;> omega
  refine decode_of_raw cl (.odset o a) sync hold (key o.toNat o.isLt a.toNat a.isLt 0 _ rfl).1 ?_ h
  intro k_ _
  obtain ⟨_, f0, f1, f2, f3, f4⟩ := key o.toNat o.isLt a.toNat a.isLt k_ _ rfl
  change rawDecode cl (587202560 + o.toNat * 2097152 + a.toNat * 16384 + k_ * 1073741824) = _
  generalize (587202560 + o.toNat * 2097152 + a.toNat * 16384 + k_ * 1073741824 : Nat) = n_ at *
  cases cl <;> first
    | exact Bool.noConfusion (show false = true from h)
    | (unfold rawDecode rawC; simp [f0, f1, f2, f3, f4])

theorem RoundTrip.osq (d : BitVec 5) (c : BitVec 2) (sp : BitVec 3) : RoundTrip.Statement (.osq d c sp) := by
  intro cl sync hold h
  have key : ∀ (d' : Nat) (_ : d' < 32) (c' : Nat) (_ : c' < 4) (sp' : Nat) (_ : sp' < 8) (k_ n_ : Nat), n_ = 603979776 + d' * 524288 + c' * 131072 + sp' * 16384 + k_ * 1073741824 →
      603979776 + d' * 524288 + c' * 131072 + sp' * 16384 < 1073741824 ∧ n_ / 16777216 % 64 = 36 ∧ n_ % 16384 = 0 ∧ n_ / 524288 % 32 = d' ∧ n_ / 131072 % 4 = c' ∧ n_ / 16384 % 8 = sp' := by
    intros; refine ⟨?_, ?_, ?_, ?_, ?_, ?_⟩ <;> omega
  refine decode_of_raw cl (.osq d c sp) sync hold (key d.toNat d.isLt c.toNat c.isLt sp.toNat sp.isLt 0 _ rfl).1 ?_ h
  intro k_ _
  obtain ⟨_, f0, f1, f2, f3, f4⟩ := key d.toNat d.isLt c.toNat c.isLt sp.toNat sp.isLt k_ _ rfl
  change rawDecode cl (603979776 + d.toNat * 524288 + c.toNat * 131072 + sp.toNat * 16384 + k_ * 1073741824) = _
  generalize (603979776 + d.toNat * 524288 + c.toNat * 131072 + sp.toNat * 16384 + k_ * 1073741824 : Nat) = n_ at *
  cases cl <;> first
    | exact Bool.noConfusion (show false = true from h)
    | (unfold rawDecode rawC; simp [f0, f1, f2, f3, f4])

theorem RoundTrip.tkpost (t : BitVec 4) (c : BitVec 2) (m : BitVec 8) : RoundTrip.Statement (.tkpost t c m) := by
  intro cl sync hold h
  have key : ∀ (t' : Nat) (_ : t' < 16) (c' : Nat) (_ : c' < 4) (m' : Nat) (_ : m' < 256) (k_ n_ : Nat), n_ = 620756992 + t' * 1048576 + c' * 262144 + m' * 1024 + k_ * 1073741824 →
      620756992 + t' * 1048576 + c' * 262144 + m' * 1024 < 1073741824 ∧ n_ / 16777216 % 64 = 37 ∧ n_ % 1024 = 0 ∧ n_ / 1048576 % 16 = t' ∧ n_ / 262144 % 4 = c' ∧ n_ / 1024 % 256 = m' := by
    intros; refine ⟨?_, ?_, ?_, ?_, ?_, ?_⟩ <;> omega
  refine decode_of_raw cl (.tkpost t c m) sync hold (key t.toNat t.isLt c.toNat c.isLt m.toNat m.isLt 0 _ rfl).1 ?_ h
  intro k_ _
  obtain ⟨_, f0, f1, f2, f3, f4⟩ := key t.toNat t.isLt c.toNat c.isLt m.toNat m.isLt k_ _ rfl
  change rawDecode cl (620756992 + t.toNat * 1048576 + c.toNat * 262144 + m.toNat * 1024 + k_ * 1073741824) = _
  generalize (620756992 + t.toNat * 1048576 + c.toNat * 262144 + m.toNat * 1024 + k_ * 1073741824 : Nat) = n_ at *
  cases cl <;> first
    | exact Bool.noConfusion (show false = true from h)
    | (unfold rawDecode rawC; simp [f0, f1, f2, f3, f4])

theorem RoundTrip.tkwait (t : BitVec 4) : RoundTrip.Statement (.tkwait t) := by
  intro cl sync hold h
  have key : ∀ (t' : Nat) (_ : t' < 16) (k_ n_ : Nat), n_ = 637534208 + t' * 1048576 + k_ * 1073741824 →
      637534208 + t' * 1048576 < 1073741824 ∧ n_ / 16777216 % 64 = 38 ∧ n_ % 1048576 = 0 ∧ n_ / 1048576 % 16 = t' := by
    intros; refine ⟨?_, ?_, ?_, ?_⟩ <;> omega
  refine decode_of_raw cl (.tkwait t) sync hold (key t.toNat t.isLt 0 _ rfl).1 ?_ h
  intro k_ _
  obtain ⟨_, f0, f1, f2⟩ := key t.toNat t.isLt k_ _ rfl
  change rawDecode cl (637534208 + t.toNat * 1048576 + k_ * 1073741824) = _
  generalize (637534208 + t.toNat * 1048576 + k_ * 1073741824 : Nat) = n_ at *
  cases cl <;> first
    | exact Bool.noConfusion (show false = true from h)
    | (unfold rawDecode rawC; simp [f0, f1, f2])

theorem RoundTrip.tktest (d : BitVec 5) (t : BitVec 4) : RoundTrip.Statement (.tktest d t) := by
  intro cl sync hold h
  have key : ∀ (d' : Nat) (_ : d' < 32) (t' : Nat) (_ : t' < 16) (k_ n_ : Nat), n_ = 654311424 + d' * 524288 + t' * 32768 + k_ * 1073741824 →
      654311424 + d' * 524288 + t' * 32768 < 1073741824 ∧ n_ / 16777216 % 64 = 39 ∧ n_ % 32768 = 0 ∧ n_ / 524288 % 32 = d' ∧ n_ / 32768 % 16 = t' := by
    intros; refine ⟨?_, ?_, ?_, ?_, ?_⟩ <;> omega
  refine decode_of_raw cl (.tktest d t) sync hold (key d.toNat d.isLt t.toNat t.isLt 0 _ rfl).1 ?_ h
  intro k_ _
  obtain ⟨_, f0, f1, f2, f3⟩ := key d.toNat d.isLt t.toNat t.isLt k_ _ rfl
  change rawDecode cl (654311424 + d.toNat * 524288 + t.toNat * 32768 + k_ * 1073741824) = _
  generalize (654311424 + d.toNat * 524288 + t.toNat * 32768 + k_ * 1073741824 : Nat) = n_ at *
  cases cl <;> first
    | exact Bool.noConfusion (show false = true from h)
    | (unfold rawDecode rawC; simp [f0, f1, f2, f3])

theorem RoundTrip.tkclr (t : BitVec 4) : RoundTrip.Statement (.tkclr t) := by
  intro cl sync hold h
  have key : ∀ (t' : Nat) (_ : t' < 16) (k_ n_ : Nat), n_ = 671088640 + t' * 1048576 + k_ * 1073741824 →
      671088640 + t' * 1048576 < 1073741824 ∧ n_ / 16777216 % 64 = 40 ∧ n_ % 1048576 = 0 ∧ n_ / 1048576 % 16 = t' := by
    intros; refine ⟨?_, ?_, ?_, ?_⟩ <;> omega
  refine decode_of_raw cl (.tkclr t) sync hold (key t.toNat t.isLt 0 _ rfl).1 ?_ h
  intro k_ _
  obtain ⟨_, f0, f1, f2⟩ := key t.toNat t.isLt k_ _ rfl
  change rawDecode cl (671088640 + t.toNat * 1048576 + k_ * 1073741824) = _
  generalize (671088640 + t.toNat * 1048576 + k_ * 1073741824 : Nat) = n_ at *
  cases cl <;> first
    | exact Bool.noConfusion (show false = true from h)
    | (unfold rawDecode rawC; simp [f0, f1, f2])

theorem RoundTrip.barInit (b : BitVec 5) (a : BitVec 5) (o : BitVec 3) : RoundTrip.Statement (.barInit b a o) := by
  intro cl sync hold h
  have key : ∀ (b' : Nat) (_ : b' < 32) (a' : Nat) (_ : a' < 32) (o' : Nat) (_ : o' < 8) (k_ n_ : Nat), n_ = 687865856 + b' * 65536 + a' * 2048 + o' + k_ * 1073741824 →
      687865856 + b' * 65536 + a' * 2048 + o' < 1073741824 ∧ n_ / 16777216 % 64 = 41 ∧ n_ / 8 % 256 = 0 ∧ n_ / 2097152 % 8 = 0 ∧ n_ / 65536 % 32 = b' ∧ n_ / 2048 % 32 = a' ∧ n_ % 8 = o' := by
    intros; refine ⟨?_, ?_, ?_, ?_, ?_, ?_, ?_⟩ <;> omega
  refine decode_of_raw cl (.barInit b a o) sync hold (key b.toNat b.isLt a.toNat a.isLt o.toNat o.isLt 0 _ rfl).1 ?_ h
  intro k_ _
  obtain ⟨_, f0, f1, f2, f3, f4, f5⟩ := key b.toNat b.isLt a.toNat a.isLt o.toNat o.isLt k_ _ rfl
  change rawDecode cl (687865856 + b.toNat * 65536 + a.toNat * 2048 + o.toNat + k_ * 1073741824) = _
  generalize (687865856 + b.toNat * 65536 + a.toNat * 2048 + o.toNat + k_ * 1073741824 : Nat) = n_ at *
  cases cl <;> first
    | exact Bool.noConfusion (show false = true from h)
    | (unfold rawDecode rawC; simp [f0, f1, f2, f3, f4, f5])

theorem RoundTrip.barExpect (b : BitVec 5) (a : BitVec 5) (o : BitVec 3) : RoundTrip.Statement (.barExpect b a o) := by
  intro cl sync hold h
  have key : ∀ (b' : Nat) (_ : b' < 32) (a' : Nat) (_ : a' < 32) (o' : Nat) (_ : o' < 8) (k_ n_ : Nat), n_ = 689963008 + b' * 65536 + a' * 2048 + o' + k_ * 1073741824 →
      689963008 + b' * 65536 + a' * 2048 + o' < 1073741824 ∧ n_ / 16777216 % 64 = 41 ∧ n_ / 8 % 256 = 0 ∧ n_ / 2097152 % 8 = 1 ∧ n_ / 65536 % 32 = b' ∧ n_ / 2048 % 32 = a' ∧ n_ % 8 = o' := by
    intros; refine ⟨?_, ?_, ?_, ?_, ?_, ?_, ?_⟩ <;> omega
  refine decode_of_raw cl (.barExpect b a o) sync hold (key b.toNat b.isLt a.toNat a.isLt o.toNat o.isLt 0 _ rfl).1 ?_ h
  intro k_ _
  obtain ⟨_, f0, f1, f2, f3, f4, f5⟩ := key b.toNat b.isLt a.toNat a.isLt o.toNat o.isLt k_ _ rfl
  change rawDecode cl (689963008 + b.toNat * 65536 + a.toNat * 2048 + o.toNat + k_ * 1073741824) = _
  generalize (689963008 + b.toNat * 65536 + a.toNat * 2048 + o.toNat + k_ * 1073741824 : Nat) = n_ at *
  cases cl <;> first
    | exact Bool.noConfusion (show false = true from h)
    | (unfold rawDecode rawC; simp [f0, f1, f2, f3, f4, f5])

theorem RoundTrip.barArrive (b : BitVec 5) (o : BitVec 3) : RoundTrip.Statement (.barArrive b o) := by
  intro cl sync hold h
  have key : ∀ (b' : Nat) (_ : b' < 32) (o' : Nat) (_ : o' < 8) (k_ n_ : Nat), n_ = 692060160 + b' * 65536 + o' + k_ * 1073741824 →
      692060160 + b' * 65536 + o' < 1073741824 ∧ n_ / 16777216 % 64 = 41 ∧ n_ / 8 % 256 = 0 ∧ n_ / 2097152 % 8 = 2 ∧ n_ / 8 % 8192 = 0 ∧ n_ / 65536 % 32 = b' ∧ n_ % 8 = o' := by
    intros; refine ⟨?_, ?_, ?_, ?_, ?_, ?_, ?_⟩ <;> omega
  refine decode_of_raw cl (.barArrive b o) sync hold (key b.toNat b.isLt o.toNat o.isLt 0 _ rfl).1 ?_ h
  intro k_ _
  obtain ⟨_, f0, f1, f2, f3, f4, f5⟩ := key b.toNat b.isLt o.toNat o.isLt k_ _ rfl
  change rawDecode cl (692060160 + b.toNat * 65536 + o.toNat + k_ * 1073741824) = _
  generalize (692060160 + b.toNat * 65536 + o.toNat + k_ * 1073741824 : Nat) = n_ at *
  cases cl <;> first
    | exact Bool.noConfusion (show false = true from h)
    | (unfold rawDecode rawC; simp [f0, f1, f2, f3, f4, f5])

theorem RoundTrip.barWait (b : BitVec 5) (a : BitVec 5) (o : BitVec 3) : RoundTrip.Statement (.barWait b a o) := by
  intro cl sync hold h
  have key : ∀ (b' : Nat) (_ : b' < 32) (a' : Nat) (_ : a' < 32) (o' : Nat) (_ : o' < 8) (k_ n_ : Nat), n_ = 694157312 + b' * 65536 + a' * 2048 + o' + k_ * 1073741824 →
      694157312 + b' * 65536 + a' * 2048 + o' < 1073741824 ∧ n_ / 16777216 % 64 = 41 ∧ n_ / 8 % 256 = 0 ∧ n_ / 2097152 % 8 = 3 ∧ n_ / 65536 % 32 = b' ∧ n_ / 2048 % 32 = a' ∧ n_ % 8 = o' := by
    intros; refine ⟨?_, ?_, ?_, ?_, ?_, ?_, ?_⟩ <;> omega
  refine decode_of_raw cl (.barWait b a o) sync hold (key b.toNat b.isLt a.toNat a.isLt o.toNat o.isLt 0 _ rfl).1 ?_ h
  intro k_ _
  obtain ⟨_, f0, f1, f2, f3, f4, f5⟩ := key b.toNat b.isLt a.toNat a.isLt o.toNat o.isLt k_ _ rfl
  change rawDecode cl (694157312 + b.toNat * 65536 + a.toNat * 2048 + o.toNat + k_ * 1073741824) = _
  generalize (694157312 + b.toNat * 65536 + a.toNat * 2048 + o.toNat + k_ * 1073741824 : Nat) = n_ at *
  cases cl <;> first
    | exact Bool.noConfusion (show false = true from h)
    | (unfold rawDecode rawC; simp [f0, f1, f2, f3, f4, f5])

theorem RoundTrip.barTest (b : BitVec 5) (a : BitVec 5) (o : BitVec 3) : RoundTrip.Statement (.barTest b a o) := by
  intro cl sync hold h
  have key : ∀ (b' : Nat) (_ : b' < 32) (a' : Nat) (_ : a' < 32) (o' : Nat) (_ : o' < 8) (k_ n_ : Nat), n_ = 696254464 + b' * 65536 + a' * 2048 + o' + k_ * 1073741824 →
      696254464 + b' * 65536 + a' * 2048 + o' < 1073741824 ∧ n_ / 16777216 % 64 = 41 ∧ n_ / 8 % 256 = 0 ∧ n_ / 2097152 % 8 = 4 ∧ n_ / 65536 % 32 = b' ∧ n_ / 2048 % 32 = a' ∧ n_ % 8 = o' := by
    intros; refine ⟨?_, ?_, ?_, ?_, ?_, ?_, ?_⟩ <;> omega
  refine decode_of_raw cl (.barTest b a o) sync hold (key b.toNat b.isLt a.toNat a.isLt o.toNat o.isLt 0 _ rfl).1 ?_ h
  intro k_ _
  obtain ⟨_, f0, f1, f2, f3, f4, f5⟩ := key b.toNat b.isLt a.toNat a.isLt o.toNat o.isLt k_ _ rfl
  change rawDecode cl (696254464 + b.toNat * 65536 + a.toNat * 2048 + o.toNat + k_ * 1073741824) = _
  generalize (696254464 + b.toNat * 65536 + a.toNat * 2048 + o.toNat + k_ * 1073741824 : Nat) = n_ at *
  cases cl <;> first
    | exact Bool.noConfusion (show false = true from h)
    | (unfold rawDecode rawC; simp [f0, f1, f2, f3, f4, f5])

theorem RoundTrip.barInval (b : BitVec 5) (o : BitVec 3) : RoundTrip.Statement (.barInval b o) := by
  intro cl sync hold h
  have key : ∀ (b' : Nat) (_ : b' < 32) (o' : Nat) (_ : o' < 8) (k_ n_ : Nat), n_ = 698351616 + b' * 65536 + o' + k_ * 1073741824 →
      698351616 + b' * 65536 + o' < 1073741824 ∧ n_ / 16777216 % 64 = 41 ∧ n_ / 8 % 256 = 0 ∧ n_ / 2097152 % 8 = 5 ∧ n_ / 8 % 8192 = 0 ∧ n_ / 65536 % 32 = b' ∧ n_ % 8 = o' := by
    intros; refine ⟨?_, ?_, ?_, ?_, ?_, ?_, ?_⟩ <;> omega
  refine decode_of_raw cl (.barInval b o) sync hold (key b.toNat b.isLt o.toNat o.isLt 0 _ rfl).1 ?_ h
  intro k_ _
  obtain ⟨_, f0, f1, f2, f3, f4, f5⟩ := key b.toNat b.isLt o.toNat o.isLt k_ _ rfl
  change rawDecode cl (698351616 + b.toNat * 65536 + o.toNat + k_ * 1073741824) = _
  generalize (698351616 + b.toNat * 65536 + o.toNat + k_ * 1073741824 : Nat) = n_ at *
  cases cl <;> first
    | exact Bool.noConfusion (show false = true from h)
    | (unfold rawDecode rawC; simp [f0, f1, f2, f3, f4, f5])

theorem RoundTrip.hbarAw (c : BitVec 3) (o : BitVec 3) : RoundTrip.Statement (.hbarAw c o) := by
  intro cl sync hold h
  have key : ∀ (c' : Nat) (_ : c' < 8) (o' : Nat) (_ : o' < 8) (k_ n_ : Nat), n_ = 704643072 + c' * 524288 + o' + k_ * 1073741824 →
      704643072 + c' * 524288 + o' < 1073741824 ∧ n_ / 16777216 % 64 = 42 ∧ n_ / 8 % 65536 = 0 ∧ n_ / 4194304 % 4 = 0 ∧ n_ / 524288 % 8 = c' ∧ n_ % 8 = o' := by
    intros; refine ⟨?_, ?_, ?_, ?_, ?_, ?_⟩ <;> omega
  refine decode_of_raw cl (.hbarAw c o) sync hold (key c.toNat c.isLt o.toNat o.isLt 0 _ rfl).1 ?_ h
  intro k_ _
  obtain ⟨_, f0, f1, f2, f3, f4⟩ := key c.toNat c.isLt o.toNat o.isLt k_ _ rfl
  change rawDecode cl (704643072 + c.toNat * 524288 + o.toNat + k_ * 1073741824) = _
  generalize (704643072 + c.toNat * 524288 + o.toNat + k_ * 1073741824 : Nat) = n_ at *
  cases cl <;> first
    | exact Bool.noConfusion (show false = true from h)
    | (unfold rawDecode rawC; simp [f0, f1, f2, f3, f4])

theorem RoundTrip.hbarA (c : BitVec 3) (o : BitVec 3) : RoundTrip.Statement (.hbarA c o) := by
  intro cl sync hold h
  have key : ∀ (c' : Nat) (_ : c' < 8) (o' : Nat) (_ : o' < 8) (k_ n_ : Nat), n_ = 708837376 + c' * 524288 + o' + k_ * 1073741824 →
      708837376 + c' * 524288 + o' < 1073741824 ∧ n_ / 16777216 % 64 = 42 ∧ n_ / 8 % 65536 = 0 ∧ n_ / 4194304 % 4 = 1 ∧ n_ / 524288 % 8 = c' ∧ n_ % 8 = o' := by
    intros; refine ⟨?_, ?_, ?_, ?_, ?_, ?_⟩ <;> omega
  refine decode_of_raw cl (.hbarA c o) sync hold (key c.toNat c.isLt o.toNat o.isLt 0 _ rfl).1 ?_ h
  intro k_ _
  obtain ⟨_, f0, f1, f2, f3, f4⟩ := key c.toNat c.isLt o.toNat o.isLt k_ _ rfl
  change rawDecode cl (708837376 + c.toNat * 524288 + o.toNat + k_ * 1073741824) = _
  generalize (708837376 + c.toNat * 524288 + o.toNat + k_ * 1073741824 : Nat) = n_ at *
  cases cl <;> first
    | exact Bool.noConfusion (show false = true from h)
    | (unfold rawDecode rawC; simp [f0, f1, f2, f3, f4])

theorem RoundTrip.hbarW (c : BitVec 3) (o : BitVec 3) : RoundTrip.Statement (.hbarW c o) := by
  intro cl sync hold h
  have key : ∀ (c' : Nat) (_ : c' < 8) (o' : Nat) (_ : o' < 8) (k_ n_ : Nat), n_ = 713031680 + c' * 524288 + o' + k_ * 1073741824 →
      713031680 + c' * 524288 + o' < 1073741824 ∧ n_ / 16777216 % 64 = 42 ∧ n_ / 8 % 65536 = 0 ∧ n_ / 4194304 % 4 = 2 ∧ n_ / 524288 % 8 = c' ∧ n_ % 8 = o' := by
    intros; refine ⟨?_, ?_, ?_, ?_, ?_, ?_⟩ <;> omega
  refine decode_of_raw cl (.hbarW c o) sync hold (key c.toNat c.isLt o.toNat o.isLt 0 _ rfl).1 ?_ h
  intro k_ _
  obtain ⟨_, f0, f1, f2, f3, f4⟩ := key c.toNat c.isLt o.toNat o.isLt k_ _ rfl
  change rawDecode cl (713031680 + c.toNat * 524288 + o.toNat + k_ * 1073741824) = _
  generalize (713031680 + c.toNat * 524288 + o.toNat + k_ * 1073741824 : Nat) = n_ at *
  cases cl <;> first
    | exact Bool.noConfusion (show false = true from h)
    | (unfold rawDecode rawC; simp [f0, f1, f2, f3, f4])

theorem RoundTrip.sysRd (d : BitVec 5) (r : BitVec 12) : RoundTrip.Statement (.sysRd d r) := by
  intro cl sync hold h
  have key : ∀ (d' : Nat) (_ : d' < 32) (r' : Nat) (_ : r' < 4096) (k_ n_ : Nat), n_ = 805306368 + d' * 524288 + r' * 4 + k_ * 1073741824 →
      805306368 + d' * 524288 + r' * 4 < 1073741824 ∧ n_ / 16777216 % 64 = 48 ∧ n_ % 4 = 0 ∧ n_ / 16384 % 32 = 0 ∧ n_ / 524288 % 32 = d' ∧ n_ / 4 % 4096 = r' := by
    intros; refine ⟨?_, ?_, ?_, ?_, ?_, ?_⟩ <;> omega
  refine decode_of_raw cl (.sysRd d r) sync hold (key d.toNat d.isLt r.toNat r.isLt 0 _ rfl).1 ?_ h
  intro k_ _
  obtain ⟨_, f0, f1, f2, f3, f4⟩ := key d.toNat d.isLt r.toNat r.isLt k_ _ rfl
  change rawDecode cl (805306368 + d.toNat * 524288 + r.toNat * 4 + k_ * 1073741824) = _
  generalize (805306368 + d.toNat * 524288 + r.toNat * 4 + k_ * 1073741824 : Nat) = n_ at *
  cases cl <;> first
    | exact Bool.noConfusion (show false = true from h)
    | (unfold rawDecode rawC; simp [f0, f1, f2, f3, f4])

theorem RoundTrip.sysWr (a : BitVec 5) (r : BitVec 12) : RoundTrip.Statement (.sysWr a r) := by
  intro cl sync hold h
  have key : ∀ (a' : Nat) (_ : a' < 32) (r' : Nat) (_ : r' < 4096) (k_ n_ : Nat), n_ = 822083584 + a' * 16384 + r' * 4 + k_ * 1073741824 →
      822083584 + a' * 16384 + r' * 4 < 1073741824 ∧ n_ / 16777216 % 64 = 49 ∧ n_ % 4 = 0 ∧ n_ / 524288 % 32 = 0 ∧ n_ / 16384 % 32 = a' ∧ n_ / 4 % 4096 = r' := by
    intros; refine ⟨?_, ?_, ?_, ?_, ?_, ?_⟩ <;> omega
  refine decode_of_raw cl (.sysWr a r) sync hold (key a.toNat a.isLt r.toNat r.isLt 0 _ rfl).1 ?_ h
  intro k_ _
  obtain ⟨_, f0, f1, f2, f3, f4⟩ := key a.toNat a.isLt r.toNat r.isLt k_ _ rfl
  change rawDecode cl (822083584 + a.toNat * 16384 + r.toNat * 4 + k_ * 1073741824) = _
  generalize (822083584 + a.toNat * 16384 + r.toNat * 4 + k_ * 1073741824 : Nat) = n_ at *
  cases cl <;> first
    | exact Bool.noConfusion (show false = true from h)
    | (unfold rawDecode rawC; simp [f0, f1, f2, f3, f4])

theorem RoundTrip.trap (c : BitVec 16) : RoundTrip.Statement (.trap c) := by
  intro cl sync hold h
  have key : ∀ (c' : Nat) (_ : c' < 65536) (k_ n_ : Nat), n_ = 838860800 + c' + k_ * 1073741824 →
      838860800 + c' < 1073741824 ∧ n_ / 16777216 % 64 = 50 ∧ n_ / 65536 % 256 = 0 ∧ n_ % 65536 = c' := by
    intros; refine ⟨?_, ?_, ?_, ?_⟩ <;> omega
  refine decode_of_raw cl (.trap c) sync hold (key c.toNat c.isLt 0 _ rfl).1 ?_ h
  intro k_ _
  obtain ⟨_, f0, f1, f2⟩ := key c.toNat c.isLt k_ _ rfl
  change rawDecode cl (838860800 + c.toNat + k_ * 1073741824) = _
  generalize (838860800 + c.toNat + k_ * 1073741824 : Nat) = n_ at *
  cases cl <;> first
    | exact Bool.noConfusion (show false = true from h)
    | (unfold rawDecode rawC; simp [f0, f1, f2])

theorem RoundTrip.xgate : RoundTrip.Statement (.xgate) := by
  intro cl sync hold h
  have key : ∀ (k_ n_ : Nat), n_ = 855638016 + k_ * 1073741824 →
      855638016 < 1073741824 ∧ n_ / 16777216 % 64 = 51 ∧ n_ % 16777216 = 0 := by
    intros; refine ⟨?_, ?_, ?_⟩ <;> omega
  refine decode_of_raw cl (.xgate) sync hold (key 0 _ rfl).1 ?_ h
  intro k_ _
  obtain ⟨_, f0, f1⟩ := key k_ _ rfl
  change rawDecode cl (855638016 + k_ * 1073741824) = _
  generalize (855638016 + k_ * 1073741824 : Nat) = n_ at *
  cases cl <;> first
    | exact Bool.noConfusion (show false = true from h)
    | (unfold rawDecode rawC; simp [f0, f1])

theorem RoundTrip.resume (a : BitVec 5) : RoundTrip.Statement (.resume a) := by
  intro cl sync hold h
  have key : ∀ (a' : Nat) (_ : a' < 32) (k_ n_ : Nat), n_ = 872415232 + a' * 16384 + k_ * 1073741824 →
      872415232 + a' * 16384 < 1073741824 ∧ n_ / 16777216 % 64 = 52 ∧ n_ % 16384 = 0 ∧ n_ / 524288 % 32 = 0 ∧ n_ / 16384 % 32 = a' := by
    intros; refine ⟨?_, ?_, ?_, ?_, ?_⟩ <;> omega
  refine decode_of_raw cl (.resume a) sync hold (key a.toNat a.isLt 0 _ rfl).1 ?_ h
  intro k_ _
  obtain ⟨_, f0, f1, f2, f3⟩ := key a.toNat a.isLt k_ _ rfl
  change rawDecode cl (872415232 + a.toNat * 16384 + k_ * 1073741824) = _
  generalize (872415232 + a.toNat * 16384 + k_ * 1073741824 : Nat) = n_ at *
  cases cl <;> first
    | exact Bool.noConfusion (show false = true from h)
    | (unfold rawDecode rawC; simp [f0, f1, f2, f3])

theorem RoundTrip.rbase : RoundTrip.Statement (.rbase) := by
  intro cl sync hold h
  have key : ∀ (k_ n_ : Nat), n_ = 889192448 + k_ * 1073741824 →
      889192448 < 1073741824 ∧ n_ / 16777216 % 64 = 53 ∧ n_ % 16777216 = 0 := by
    intros; refine ⟨?_, ?_, ?_⟩ <;> omega
  refine decode_of_raw cl (.rbase) sync hold (key 0 _ rfl).1 ?_ h
  intro k_ _
  obtain ⟨_, f0, f1⟩ := key k_ _ rfl
  change rawDecode cl (889192448 + k_ * 1073741824) = _
  generalize (889192448 + k_ * 1073741824 : Nat) = n_ at *
  cases cl <;> first
    | exact Bool.noConfusion (show false = true from h)
    | (unfold rawDecode rawC; simp [f0, f1])

theorem RoundTrip.yield : RoundTrip.Statement (.yield) := by
  intro cl sync hold h
  have key : ∀ (k_ n_ : Nat), n_ = 905969664 + k_ * 1073741824 →
      905969664 < 1073741824 ∧ n_ / 16777216 % 64 = 54 ∧ n_ % 16777216 = 0 := by
    intros; refine ⟨?_, ?_, ?_⟩ <;> omega
  refine decode_of_raw cl (.yield) sync hold (key 0 _ rfl).1 ?_ h
  intro k_ _
  obtain ⟨_, f0, f1⟩ := key k_ _ rfl
  change rawDecode cl (905969664 + k_ * 1073741824) = _
  generalize (905969664 + k_ * 1073741824 : Nat) = n_ at *
  cases cl <;> first
    | exact Bool.noConfusion (show false = true from h)
    | (unfold rawDecode rawC; simp [f0, f1])

theorem RoundTrip.branch (a : BitVec 5) (b : BitVec 5) (c : BitVec 3) (o : BitVec 11) : RoundTrip.Statement (.branch a b c o) := by
  intro cl sync hold h
  have key : ∀ (a' : Nat) (_ : a' < 32) (b' : Nat) (_ : b' < 32) (c' : Nat) (_ : c' < 8) (o' : Nat) (_ : o' < 2048) (k_ n_ : Nat), n_ = 939524096 + a' * 524288 + b' * 16384 + c' * 2048 + o' + k_ * 1073741824 →
      939524096 + a' * 524288 + b' * 16384 + c' * 2048 + o' < 1073741824 ∧ n_ / 16777216 % 64 = 56 ∧ n_ / 524288 % 32 = a' ∧ n_ / 16384 % 32 = b' ∧ n_ / 2048 % 8 = c' ∧ n_ % 2048 = o' := by
    intros; refine ⟨?_, ?_, ?_, ?_, ?_, ?_⟩ <;> omega
  refine decode_of_raw cl (.branch a b c o) sync hold (key a.toNat a.isLt b.toNat b.isLt c.toNat c.isLt o.toNat o.isLt 0 _ rfl).1 ?_ h
  intro k_ _
  obtain ⟨_, f0, f1, f2, f3, f4⟩ := key a.toNat a.isLt b.toNat b.isLt c.toNat c.isLt o.toNat o.isLt k_ _ rfl
  change rawDecode cl (939524096 + a.toNat * 524288 + b.toNat * 16384 + c.toNat * 2048 + o.toNat + k_ * 1073741824) = _
  generalize (939524096 + a.toNat * 524288 + b.toNat * 16384 + c.toNat * 2048 + o.toNat + k_ * 1073741824 : Nat) = n_ at *
  cases cl <;> first
    | exact Bool.noConfusion (show false = true from h)
    | (unfold rawDecode rawCommon; simp [f0, f1, f2, f3, f4])

theorem RoundTrip.jal (d : BitVec 5) (o : BitVec 19) : RoundTrip.Statement (.jal d o) := by
  intro cl sync hold h
  have key : ∀ (d' : Nat) (_ : d' < 32) (o' : Nat) (_ : o' < 524288) (k_ n_ : Nat), n_ = 956301312 + d' * 524288 + o' + k_ * 1073741824 →
      956301312 + d' * 524288 + o' < 1073741824 ∧ n_ / 16777216 % 64 = 57 ∧ n_ / 524288 % 32 = d' ∧ n_ % 524288 = o' := by
    intros; refine ⟨?_, ?_, ?_, ?_⟩ <;> omega
  refine decode_of_raw cl (.jal d o) sync hold (key d.toNat d.isLt o.toNat o.isLt 0 _ rfl).1 ?_ h
  intro k_ _
  obtain ⟨_, f0, f1, f2⟩ := key d.toNat d.isLt o.toNat o.isLt k_ _ rfl
  change rawDecode cl (956301312 + d.toNat * 524288 + o.toNat + k_ * 1073741824) = _
  generalize (956301312 + d.toNat * 524288 + o.toNat + k_ * 1073741824 : Nat) = n_ at *
  cases cl <;> first
    | exact Bool.noConfusion (show false = true from h)
    | (unfold rawDecode rawCommon; simp [f0, f1, f2])

theorem RoundTrip.jr (a : BitVec 5) : RoundTrip.Statement (.jr a) := by
  intro cl sync hold h
  have key : ∀ (a' : Nat) (_ : a' < 32) (k_ n_ : Nat), n_ = 973078528 + a' * 524288 + k_ * 1073741824 →
      973078528 + a' * 524288 < 1073741824 ∧ n_ / 16777216 % 64 = 58 ∧ n_ % 524288 = 0 ∧ n_ / 524288 % 32 = a' := by
    intros; refine ⟨?_, ?_, ?_, ?_⟩ <;> omega
  refine decode_of_raw cl (.jr a) sync hold (key a.toNat a.isLt 0 _ rfl).1 ?_ h
  intro k_ _
  obtain ⟨_, f0, f1, f2⟩ := key a.toNat a.isLt k_ _ rfl
  change rawDecode cl (973078528 + a.toNat * 524288 + k_ * 1073741824) = _
  generalize (973078528 + a.toNat * 524288 + k_ * 1073741824 : Nat) = n_ at *
  cases cl <;> first
    | exact Bool.noConfusion (show false = true from h)
    | (unfold rawDecode rawCommon; simp [f0, f1, f2])

theorem RoundTrip.loop (l : BitVec 2) (c : BitVec 5) (n : BitVec 8) (t : BitVec 2) : RoundTrip.Statement (.loop l c n t) := by
  intro cl sync hold h
  have key : ∀ (l' : Nat) (_ : l' < 4) (c' : Nat) (_ : c' < 32) (n' : Nat) (_ : n' < 256) (t' : Nat) (_ : t' < 4) (k_ n_ : Nat), n_ = 989855744 + l' * 4194304 + c' * 131072 + n' * 512 + t' * 128 + k_ * 1073741824 →
      989855744 + l' * 4194304 + c' * 131072 + n' * 512 + t' * 128 < 1073741824 ∧ n_ / 16777216 % 64 = 59 ∧ n_ % 128 = 0 ∧ n_ / 4194304 % 4 = l' ∧ n_ / 131072 % 32 = c' ∧ n_ / 512 % 256 = n' ∧ n_ / 128 % 4 = t' := by
    intros; refine ⟨?_, ?_, ?_, ?_, ?_, ?_, ?_⟩ <;> omega
  refine decode_of_raw cl (.loop l c n t) sync hold (key l.toNat l.isLt c.toNat c.isLt n.toNat n.isLt t.toNat t.isLt 0 _ rfl).1 ?_ h
  intro k_ _
  obtain ⟨_, f0, f1, f2, f3, f4, f5⟩ := key l.toNat l.isLt c.toNat c.isLt n.toNat n.isLt t.toNat t.isLt k_ _ rfl
  change rawDecode cl (989855744 + l.toNat * 4194304 + c.toNat * 131072 + n.toNat * 512 + t.toNat * 128 + k_ * 1073741824) = _
  generalize (989855744 + l.toNat * 4194304 + c.toNat * 131072 + n.toNat * 512 + t.toNat * 128 + k_ * 1073741824 : Nat) = n_ at *
  cases cl <;> first
    | exact Bool.noConfusion (show false = true from h)
    | (unfold rawDecode rawCommon; simp [f0, f1, f2, f3, f4, f5])

theorem RoundTrip.lsplit (a : BitVec 8) (b : BitVec 8) (c : BitVec 8) : RoundTrip.Statement (.lsplit a b c) := by
  intro cl sync hold h
  have key : ∀ (a' : Nat) (_ : a' < 256) (b' : Nat) (_ : b' < 256) (c' : Nat) (_ : c' < 256) (k_ n_ : Nat), n_ = 1006632960 + a' * 65536 + b' * 256 + c' + k_ * 1073741824 →
      1006632960 + a' * 65536 + b' * 256 + c' < 1073741824 ∧ n_ / 16777216 % 64 = 60 ∧ n_ / 65536 % 256 = a' ∧ n_ / 256 % 256 = b' ∧ n_ % 256 = c' := by
    intros; refine ⟨?_, ?_, ?_, ?_, ?_⟩ <;> omega
  refine decode_of_raw cl (.lsplit a b c) sync hold (key a.toNat a.isLt b.toNat b.isLt c.toNat c.isLt 0 _ rfl).1 ?_ h
  intro k_ _
  obtain ⟨_, f0, f1, f2, f3⟩ := key a.toNat a.isLt b.toNat b.isLt c.toNat c.isLt k_ _ rfl
  change rawDecode cl (1006632960 + a.toNat * 65536 + b.toNat * 256 + c.toNat + k_ * 1073741824) = _
  generalize (1006632960 + a.toNat * 65536 + b.toNat * 256 + c.toNat + k_ * 1073741824 : Nat) = n_ at *
  cases cl <;> first
    | exact Bool.noConfusion (show false = true from h)
    | (unfold rawDecode rawCommon; simp [f0, f1, f2, f3])

theorem RoundTrip.lbrk : RoundTrip.Statement (.lbrk) := by
  intro cl sync hold h
  have key : ∀ (k_ n_ : Nat), n_ = 1023410176 + k_ * 1073741824 →
      1023410176 < 1073741824 ∧ n_ / 16777216 % 64 = 61 ∧ n_ % 16777216 = 0 := by
    intros; refine ⟨?_, ?_, ?_⟩ <;> omega
  refine decode_of_raw cl (.lbrk) sync hold (key 0 _ rfl).1 ?_ h
  intro k_ _
  obtain ⟨_, f0, f1⟩ := key k_ _ rfl
  change rawDecode cl (1023410176 + k_ * 1073741824) = _
  generalize (1023410176 + k_ * 1073741824 : Nat) = n_ at *
  cases cl <;> first
    | exact Bool.noConfusion (show false = true from h)
    | (unfold rawDecode rawCommon; simp [f0, f1])

theorem RoundTrip.done : RoundTrip.Statement (.done) := by
  intro cl sync hold h
  have key : ∀ (k_ n_ : Nat), n_ = 1040187392 + k_ * 1073741824 →
      1040187392 < 1073741824 ∧ n_ / 16777216 % 64 = 62 ∧ n_ % 16777216 = 0 := by
    intros; refine ⟨?_, ?_, ?_⟩ <;> omega
  refine decode_of_raw cl (.done) sync hold (key 0 _ rfl).1 ?_ h
  intro k_ _
  obtain ⟨_, f0, f1⟩ := key k_ _ rfl
  change rawDecode cl (1040187392 + k_ * 1073741824) = _
  generalize (1040187392 + k_ * 1073741824 : Nat) = n_ at *
  cases cl <;> first
    | exact Bool.noConfusion (show false = true from h)
    | (unfold rawDecode rawCommon; simp [f0, f1])

theorem RoundTrip.nop : RoundTrip.Statement (.nop) := by
  intro cl sync hold h
  have key : ∀ (k_ n_ : Nat), n_ = 1056964608 + k_ * 1073741824 →
      1056964608 < 1073741824 ∧ n_ / 16777216 % 64 = 63 ∧ n_ % 16777216 = 0 := by
    intros; refine ⟨?_, ?_, ?_⟩ <;> omega
  refine decode_of_raw cl (.nop) sync hold (key 0 _ rfl).1 ?_ h
  intro k_ _
  obtain ⟨_, f0, f1⟩ := key k_ _ rfl
  change rawDecode cl (1056964608 + k_ * 1073741824) = _
  generalize (1056964608 + k_ * 1073741824 : Nat) = n_ at *
  cases cl <;> first
    | exact Bool.noConfusion (show false = true from h)
    | (unfold rawDecode rawCommon; simp [f0, f1])

theorem RoundTrip.dep (p : BitVec 4) (a : BitVec 4) (b : BitVec 4) (c : BitVec 4) : RoundTrip.Statement (.dep p a b c) := by
  intro cl sync hold h
  have key : ∀ (p' : Nat) (_ : p' < 16) (a' : Nat) (_ : a' < 16) (b' : Nat) (_ : b' < 16) (c' : Nat) (_ : c' < 16) (k_ n_ : Nat), n_ = 16777216 + p' * 1048576 + a' * 65536 + b' * 4096 + c' * 256 + k_ * 1073741824 →
      16777216 + p' * 1048576 + a' * 65536 + b' * 4096 + c' * 256 < 1073741824 ∧ n_ / 16777216 % 64 = 1 ∧ n_ % 256 = 0 ∧ n_ / 1048576 % 16 = p' ∧ n_ / 65536 % 16 = a' ∧ n_ / 4096 % 16 = b' ∧ n_ / 256 % 16 = c' := by
    intros; refine ⟨?_, ?_, ?_, ?_, ?_, ?_, ?_⟩ <;> omega
  refine decode_of_raw cl (.dep p a b c) sync hold (key p.toNat p.isLt a.toNat a.isLt b.toNat b.isLt c.toNat c.isLt 0 _ rfl).1 ?_ h
  intro k_ _
  obtain ⟨_, f0, f1, f2, f3, f4, f5⟩ := key p.toNat p.isLt a.toNat a.isLt b.toNat b.isLt c.toNat c.isLt k_ _ rfl
  change rawDecode cl (16777216 + p.toNat * 1048576 + a.toNat * 65536 + b.toNat * 4096 + c.toNat * 256 + k_ * 1073741824) = _
  generalize (16777216 + p.toNat * 1048576 + a.toNat * 65536 + b.toNat * 4096 + c.toNat * 256 + k_ * 1073741824 : Nat) = n_ at *
  cases cl <;> first
    | exact Bool.noConfusion (show false = true from h)
    | (unfold rawDecode rawG; simp [f0, f1, f2, f3, f4, f5]; done)
    | (unfold rawDecode rawM; simp [f0, f1, f2, f3, f4, f5])

theorem RoundTrip.gmov (d : BitVec 3) (sp : BitVec 5) : RoundTrip.Statement (.gmov d sp) := by
  intro cl sync hold h
  have key : ∀ (d' : Nat) (_ : d' < 8) (sp' : Nat) (_ : sp' < 32) (k_ n_ : Nat), n_ = 33554432 + d' * 2097152 + sp' * 65536 + k_ * 1073741824 →
      33554432 + d' * 2097152 + sp' * 65536 < 1073741824 ∧ n_ / 16777216 % 64 = 2 ∧ n_ % 65536 = 0 ∧ n_ / 2097152 % 8 = d' ∧ n_ / 65536 % 32 = sp' := by
    intros; refine ⟨?_, ?_, ?_, ?_, ?_⟩ <;> omega
  refine decode_of_raw cl (.gmov d sp) sync hold (key d.toNat d.isLt sp.toNat sp.isLt 0 _ rfl).1 ?_ h
  intro k_ _
  obtain ⟨_, f0, f1, f2, f3⟩ := key d.toNat d.isLt sp.toNat sp.isLt k_ _ rfl
  change rawDecode cl (33554432 + d.toNat * 2097152 + sp.toNat * 65536 + k_ * 1073741824) = _
  generalize (33554432 + d.toNat * 2097152 + sp.toNat * 65536 + k_ * 1073741824 : Nat) = n_ at *
  cases cl <;> first
    | exact Bool.noConfusion (show false = true from h)
    | (unfold rawDecode rawG; simp [f0, f1, f2, f3])

theorem RoundTrip.gadd (d : BitVec 3) (a : BitVec 3) (im : BitVec 18) : RoundTrip.Statement (.gadd d a im) := by
  intro cl sync hold h
  have key : ∀ (d' : Nat) (_ : d' < 8) (a' : Nat) (_ : a' < 8) (im' : Nat) (_ : im' < 262144) (k_ n_ : Nat), n_ = 50331648 + d' * 2097152 + a' * 262144 + im' + k_ * 1073741824 →
      50331648 + d' * 2097152 + a' * 262144 + im' < 1073741824 ∧ n_ / 16777216 % 64 = 3 ∧ n_ / 2097152 % 8 = d' ∧ n_ / 262144 % 8 = a' ∧ n_ % 262144 = im' := by
    intros; refine ⟨?_, ?_, ?_, ?_, ?_⟩ <;> omega
  refine decode_of_raw cl (.gadd d a im) sync hold (key d.toNat d.isLt a.toNat a.isLt im.toNat im.isLt 0 _ rfl).1 ?_ h
  intro k_ _
  obtain ⟨_, f0, f1, f2, f3⟩ := key d.toNat d.isLt a.toNat a.isLt im.toNat im.isLt k_ _ rfl
  change rawDecode cl (50331648 + d.toNat * 2097152 + a.toNat * 262144 + im.toNat + k_ * 1073741824) = _
  generalize (50331648 + d.toNat * 2097152 + a.toNat * 262144 + im.toNat + k_ * 1073741824 : Nat) = n_ at *
  cases cl <;> first
    | exact Bool.noConfusion (show false = true from h)
    | (unfold rawDecode rawG; simp [f0, f1, f2, f3])

theorem RoundTrip.glea (d : BitVec 3) (a : BitVec 3) (b : BitVec 3) (k : BitVec 2) : RoundTrip.Statement (.glea d a b k) := by
  intro cl sync hold h
  have key : ∀ (d' : Nat) (_ : d' < 8) (a' : Nat) (_ : a' < 8) (b' : Nat) (_ : b' < 8) (k' : Nat) (_ : k' < 4) (k_ n_ : Nat), n_ = 67108864 + d' * 2097152 + a' * 262144 + b' * 32768 + k' * 8192 + k_ * 1073741824 →
      67108864 + d' * 2097152 + a' * 262144 + b' * 32768 + k' * 8192 < 1073741824 ∧ n_ / 16777216 % 64 = 4 ∧ n_ % 8192 = 0 ∧ n_ / 2097152 % 8 = d' ∧ n_ / 262144 % 8 = a' ∧ n_ / 32768 % 8 = b' ∧ n_ / 8192 % 4 = k' := by
    intros; refine ⟨?_, ?_, ?_, ?_, ?_, ?_, ?_⟩ <;> omega
  refine decode_of_raw cl (.glea d a b k) sync hold (key d.toNat d.isLt a.toNat a.isLt b.toNat b.isLt k.toNat k.isLt 0 _ rfl).1 ?_ h
  intro k_ _
  obtain ⟨_, f0, f1, f2, f3, f4, f5⟩ := key d.toNat d.isLt a.toNat a.isLt b.toNat b.isLt k.toNat k.isLt k_ _ rfl
  change rawDecode cl (67108864 + d.toNat * 2097152 + a.toNat * 262144 + b.toNat * 32768 + k.toNat * 8192 + k_ * 1073741824) = _
  generalize (67108864 + d.toNat * 2097152 + a.toNat * 262144 + b.toNat * 32768 + k.toNat * 8192 + k_ * 1073741824 : Nat) = n_ at *
  cases cl <;> first
    | exact Bool.noConfusion (show false = true from h)
    | (unfold rawDecode rawG; simp [f0, f1, f2, f3, f4, f5])

theorem RoundTrip.itld (g : BitVec 3) (a : BitVec 3) (o : BitVec 3) : RoundTrip.Statement (.itld g a o) := by
  intro cl sync hold h
  have key : ∀ (g' : Nat) (_ : g' < 8) (a' : Nat) (_ : a' < 8) (o' : Nat) (_ : o' < 8) (k_ n_ : Nat), n_ = 83886080 + g' * 2097152 + a' * 262144 + o' + k_ * 1073741824 →
      83886080 + g' * 2097152 + a' * 262144 + o' < 1073741824 ∧ n_ / 16777216 % 64 = 5 ∧ n_ / 8 % 32768 = 0 ∧ n_ / 2097152 % 8 = g' ∧ n_ / 262144 % 8 = a' ∧ n_ % 8 = o' := by
    intros; refine ⟨?_, ?_, ?_, ?_, ?_, ?_⟩ <;> omega
  refine decode_of_raw cl (.itld g a o) sync hold (key g.toNat g.isLt a.toNat a.isLt o.toNat o.isLt 0 _ rfl).1 ?_ h
  intro k_ _
  obtain ⟨_, f0, f1, f2, f3, f4⟩ := key g.toNat g.isLt a.toNat a.isLt o.toNat o.isLt k_ _ rfl
  change rawDecode cl (83886080 + g.toNat * 2097152 + a.toNat * 262144 + o.toNat + k_ * 1073741824) = _
  generalize (83886080 + g.toNat * 2097152 + a.toNat * 262144 + o.toNat + k_ * 1073741824 : Nat) = n_ at *
  cases cl <;> first
    | exact Bool.noConfusion (show false = true from h)
    | (unfold rawDecode rawG; simp [f0, f1, f2, f3, f4])

theorem RoundTrip.itst (g : BitVec 3) (a : BitVec 3) (o : BitVec 3) : RoundTrip.Statement (.itst g a o) := by
  intro cl sync hold h
  have key : ∀ (g' : Nat) (_ : g' < 8) (a' : Nat) (_ : a' < 8) (o' : Nat) (_ : o' < 8) (k_ n_ : Nat), n_ = 100663296 + g' * 2097152 + a' * 262144 + o' + k_ * 1073741824 →
      100663296 + g' * 2097152 + a' * 262144 + o' < 1073741824 ∧ n_ / 16777216 % 64 = 6 ∧ n_ / 8 % 32768 = 0 ∧ n_ / 2097152 % 8 = g' ∧ n_ / 262144 % 8 = a' ∧ n_ % 8 = o' := by
    intros; refine ⟨?_, ?_, ?_, ?_, ?_, ?_⟩ <;> omega
  refine decode_of_raw cl (.itst g a o) sync hold (key g.toNat g.isLt a.toNat a.isLt o.toNat o.isLt 0 _ rfl).1 ?_ h
  intro k_ _
  obtain ⟨_, f0, f1, f2, f3, f4⟩ := key g.toNat g.isLt a.toNat a.isLt o.toNat o.isLt k_ _ rfl
  change rawDecode cl (100663296 + g.toNat * 2097152 + a.toNat * 262144 + o.toNat + k_ * 1073741824) = _
  generalize (100663296 + g.toNat * 2097152 + a.toNat * 262144 + o.toNat + k_ * 1073741824 : Nat) = n_ at *
  cases cl <;> first
    | exact Bool.noConfusion (show false = true from h)
    | (unfold rawDecode rawG; simp [f0, f1, f2, f3, f4])

theorem RoundTrip.itmod (g : BitVec 3) (f : BitVec 4) (a : BitVec 3) : RoundTrip.Statement (.itmod g f a) := by
  intro cl sync hold h
  have key : ∀ (g' : Nat) (_ : g' < 8) (f' : Nat) (_ : f' < 16) (a' : Nat) (_ : a' < 8) (k_ n_ : Nat), n_ = 117440512 + g' * 2097152 + f' * 131072 + a' * 16384 + k_ * 1073741824 →
      117440512 + g' * 2097152 + f' * 131072 + a' * 16384 < 1073741824 ∧ n_ / 16777216 % 64 = 7 ∧ n_ % 16384 = 0 ∧ n_ / 2097152 % 8 = g' ∧ n_ / 131072 % 16 = f' ∧ n_ / 16384 % 8 = a' := by
    intros; refine ⟨?_, ?_, ?_, ?_, ?_, ?_⟩ <;> omega
  refine decode_of_raw cl (.itmod g f a) sync hold (key g.toNat g.isLt f.toNat f.isLt a.toNat a.isLt 0 _ rfl).1 ?_ h
  intro k_ _
  obtain ⟨_, f0, f1, f2, f3, f4⟩ := key g.toNat g.isLt f.toNat f.isLt a.toNat a.isLt k_ _ rfl
  change rawDecode cl (117440512 + g.toNat * 2097152 + f.toNat * 131072 + a.toNat * 16384 + k_ * 1073741824) = _
  generalize (117440512 + g.toNat * 2097152 + f.toNat * 131072 + a.toNat * 16384 + k_ * 1073741824 : Nat) = n_ at *
  cases cl <;> first
    | exact Bool.noConfusion (show false = true from h)
    | (unfold rawDecode rawG; simp [f0, f1, f2, f3, f4])

theorem RoundTrip.chld (c : BitVec 2) (a : BitVec 3) (o : BitVec 3) : RoundTrip.Statement (.chld c a o) := by
  intro cl sync hold h
  have key : ∀ (c' : Nat) (_ : c' < 4) (a' : Nat) (_ : a' < 8) (o' : Nat) (_ : o' < 8) (k_ n_ : Nat), n_ = 134217728 + c' * 4194304 + a' * 262144 + o' + k_ * 1073741824 →
      134217728 + c' * 4194304 + a' * 262144 + o' < 1073741824 ∧ n_ / 16777216 % 64 = 8 ∧ n_ / 8 % 32768 = 0 ∧ n_ / 2097152 % 2 = 0 ∧ n_ / 4194304 % 4 = c' ∧ n_ / 262144 % 8 = a' ∧ n_ % 8 = o' := by
    intros; refine ⟨?_, ?_, ?_, ?_, ?_, ?_, ?_⟩ <;> omega
  refine decode_of_raw cl (.chld c a o) sync hold (key c.toNat c.isLt a.toNat a.isLt o.toNat o.isLt 0 _ rfl).1 ?_ h
  intro k_ _
  obtain ⟨_, f0, f1, f2, f3, f4, f5⟩ := key c.toNat c.isLt a.toNat a.isLt o.toNat o.isLt k_ _ rfl
  change rawDecode cl (134217728 + c.toNat * 4194304 + a.toNat * 262144 + o.toNat + k_ * 1073741824) = _
  generalize (134217728 + c.toNat * 4194304 + a.toNat * 262144 + o.toNat + k_ * 1073741824 : Nat) = n_ at *
  cases cl <;> first
    | exact Bool.noConfusion (show false = true from h)
    | (unfold rawDecode rawG; simp [f0, f1, f2, f3, f4, f5])

theorem RoundTrip.sbind (q : BitVec 3) (g : BitVec 3) (c : BitVec 2) (d : BitVec 1) (n : BitVec 1) (o : BitVec 3) : RoundTrip.Statement (.sbind q g c d n o) := by
  intro cl sync hold h
  have key : ∀ (q' : Nat) (_ : q' < 8) (g' : Nat) (_ : g' < 8) (c' : Nat) (_ : c' < 4) (d' : Nat) (_ : d' < 2) (n' : Nat) (_ : n' < 2) (o' : Nat) (_ : o' < 8) (k_ n_ : Nat), n_ = 150994944 + q' * 2097152 + g' * 262144 + c' * 65536 + d' * 32768 + n' * 16384 + o' + k_ * 1073741824 →
      150994944 + q' * 2097152 + g' * 262144 + c' * 65536 + d' * 32768 + n' * 16384 + o' < 1073741824 ∧ n_ / 16777216 % 64 = 9 ∧ n_ / 8 % 2048 = 0 ∧ n_ / 2097152 % 8 = q' ∧ n_ / 262144 % 8 = g' ∧ n_ / 65536 % 4 = c' ∧ n_ / 32768 % 2 = d' ∧ n_ / 16384 % 2 = n' ∧ n_ % 8 = o' := by
    intros; refine ⟨?_, ?_, ?_, ?_, ?_, ?_, ?_, ?_, ?_⟩ <;> omega
  refine decode_of_raw cl (.sbind q g c d n o) sync hold (key q.toNat q.isLt g.toNat g.isLt c.toNat c.isLt d.toNat d.isLt n.toNat n.isLt o.toNat o.isLt 0 _ rfl).1 ?_ h
  intro k_ _
  obtain ⟨_, f0, f1, f2, f3, f4, f5, f6, f7⟩ := key q.toNat q.isLt g.toNat g.isLt c.toNat c.isLt d.toNat d.isLt n.toNat n.isLt o.toNat o.isLt k_ _ rfl
  change rawDecode cl (150994944 + q.toNat * 2097152 + g.toNat * 262144 + c.toNat * 65536 + d.toNat * 32768 + n.toNat * 16384 + o.toNat + k_ * 1073741824) = _
  generalize (150994944 + q.toNat * 2097152 + g.toNat * 262144 + c.toNat * 65536 + d.toNat * 32768 + n.toNat * 16384 + o.toNat + k_ * 1073741824 : Nat) = n_ at *
  cases cl <;> first
    | exact Bool.noConfusion (show false = true from h)
    | (unfold rawDecode rawG; simp [f0, f1, f2, f3, f4, f5, f6, f7])

theorem RoundTrip.sunbind (q : BitVec 3) : RoundTrip.Statement (.sunbind q) := by
  intro cl sync hold h
  have key : ∀ (q' : Nat) (_ : q' < 8) (k_ n_ : Nat), n_ = 167772160 + q' * 2097152 + k_ * 1073741824 →
      167772160 + q' * 2097152 < 1073741824 ∧ n_ / 16777216 % 64 = 10 ∧ n_ % 2097152 = 0 ∧ n_ / 2097152 % 8 = q' := by
    intros; refine ⟨?_, ?_, ?_, ?_⟩ <;> omega
  refine decode_of_raw cl (.sunbind q) sync hold (key q.toNat q.isLt 0 _ rfl).1 ?_ h
  intro k_ _
  obtain ⟨_, f0, f1, f2⟩ := key q.toNat q.isLt k_ _ rfl
  change rawDecode cl (167772160 + q.toNat * 2097152 + k_ * 1073741824) = _
  generalize (167772160 + q.toNat * 2097152 + k_ * 1073741824 : Nat) = n_ at *
  cases cl <;> first
    | exact Bool.noConfusion (show false = true from h)
    | (unfold rawDecode rawG; simp [f0, f1, f2])

theorem RoundTrip.sskip (q : BitVec 3) (a : BitVec 3) : RoundTrip.Statement (.sskip q a) := by
  intro cl sync hold h
  have key : ∀ (q' : Nat) (_ : q' < 8) (a' : Nat) (_ : a' < 8) (k_ n_ : Nat), n_ = 184549376 + q' * 2097152 + a' * 262144 + k_ * 1073741824 →
      184549376 + q' * 2097152 + a' * 262144 < 1073741824 ∧ n_ / 16777216 % 64 = 11 ∧ n_ % 262144 = 0 ∧ n_ / 2097152 % 8 = q' ∧ n_ / 262144 % 8 = a' := by
    intros; refine ⟨?_, ?_, ?_, ?_, ?_⟩ <;> omega
  refine decode_of_raw cl (.sskip q a) sync hold (key q.toNat q.isLt a.toNat a.isLt 0 _ rfl).1 ?_ h
  intro k_ _
  obtain ⟨_, f0, f1, f2, f3⟩ := key q.toNat q.isLt a.toNat a.isLt k_ _ rfl
  change rawDecode cl (184549376 + q.toNat * 2097152 + a.toNat * 262144 + k_ * 1073741824) = _
  generalize (184549376 + q.toNat * 2097152 + a.toNat * 262144 + k_ * 1073741824 : Nat) = n_ at *
  cases cl <;> first
    | exact Bool.noConfusion (show false = true from h)
    | (unfold rawDecode rawG; simp [f0, f1, f2, f3])

theorem RoundTrip.cp (d : BitVec 3) (sp : BitVec 3) (l : BitVec 3) (b : BitVec 3) (o : BitVec 3) (c : BitVec 1) (z : BitVec 2) : RoundTrip.Statement (.cp d sp l b o c z) := by
  intro cl sync hold h
  have key : ∀ (d' : Nat) (_ : d' < 8) (sp' : Nat) (_ : sp' < 8) (l' : Nat) (_ : l' < 8) (b' : Nat) (_ : b' < 8) (o' : Nat) (_ : o' < 8) (c' : Nat) (_ : c' < 2) (z' : Nat) (_ : z' < 4) (k_ n_ : Nat), n_ = 201326592 + d' * 2097152 + sp' * 262144 + l' * 32768 + b' * 4096 + o' * 512 + c' * 256 + z' * 64 + k_ * 1073741824 →
      201326592 + d' * 2097152 + sp' * 262144 + l' * 32768 + b' * 4096 + o' * 512 + c' * 256 + z' * 64 < 1073741824 ∧ n_ / 16777216 % 64 = 12 ∧ n_ % 64 = 0 ∧ n_ / 2097152 % 8 = d' ∧ n_ / 262144 % 8 = sp' ∧ n_ / 32768 % 8 = l' ∧ n_ / 4096 % 8 = b' ∧ n_ / 512 % 8 = o' ∧ n_ / 256 % 2 = c' ∧ n_ / 64 % 4 = z' := by
    intros; refine ⟨?_, ?_, ?_, ?_, ?_, ?_, ?_, ?_, ?_, ?_⟩ <;> omega
  refine decode_of_raw cl (.cp d sp l b o c z) sync hold (key d.toNat d.isLt sp.toNat sp.isLt l.toNat l.isLt b.toNat b.isLt o.toNat o.isLt c.toNat c.isLt z.toNat z.isLt 0 _ rfl).1 ?_ h
  intro k_ _
  obtain ⟨_, f0, f1, f2, f3, f4, f5, f6, f7, f8⟩ := key d.toNat d.isLt sp.toNat sp.isLt l.toNat l.isLt b.toNat b.isLt o.toNat o.isLt c.toNat c.isLt z.toNat z.isLt k_ _ rfl
  change rawDecode cl (201326592 + d.toNat * 2097152 + sp.toNat * 262144 + l.toNat * 32768 + b.toNat * 4096 + o.toNat * 512 + c.toNat * 256 + z.toNat * 64 + k_ * 1073741824) = _
  generalize (201326592 + d.toNat * 2097152 + sp.toNat * 262144 + l.toNat * 32768 + b.toNat * 4096 + o.toNat * 512 + c.toNat * 256 + z.toNat * 64 + k_ * 1073741824 : Nat) = n_ at *
  cases cl <;> first
    | exact Bool.noConfusion (show false = true from h)
    | (unfold rawDecode rawG; simp [f0, f1, f2, f3, f4, f5, f6, f7, f8])

theorem RoundTrip.cpCg (d : BitVec 3) (sp : BitVec 3) (p : BitVec 3) (b : BitVec 3) (o : BitVec 3) : RoundTrip.Statement (.cpCg d sp p b o) := by
  intro cl sync hold h
  have key : ∀ (d' : Nat) (_ : d' < 8) (sp' : Nat) (_ : sp' < 8) (p' : Nat) (_ : p' < 8) (b' : Nat) (_ : b' < 8) (o' : Nat) (_ : o' < 8) (k_ n_ : Nat), n_ = 218103808 + d' * 2097152 + sp' * 262144 + p' * 32768 + b' * 4096 + o' * 512 + k_ * 1073741824 →
      218103808 + d' * 2097152 + sp' * 262144 + p' * 32768 + b' * 4096 + o' * 512 < 1073741824 ∧ n_ / 16777216 % 64 = 13 ∧ n_ % 512 = 0 ∧ n_ / 2097152 % 8 = d' ∧ n_ / 262144 % 8 = sp' ∧ n_ / 32768 % 8 = p' ∧ n_ / 4096 % 8 = b' ∧ n_ / 512 % 8 = o' := by
    intros; refine ⟨?_, ?_, ?_, ?_, ?_, ?_, ?_, ?_⟩ <;> omega
  refine decode_of_raw cl (.cpCg d sp p b o) sync hold (key d.toNat d.isLt sp.toNat sp.isLt p.toNat p.isLt b.toNat b.isLt o.toNat o.isLt 0 _ rfl).1 ?_ h
  intro k_ _
  obtain ⟨_, f0, f1, f2, f3, f4, f5, f6⟩ := key d.toNat d.isLt sp.toNat sp.isLt p.toNat p.isLt b.toNat b.isLt o.toNat o.isLt k_ _ rfl
  change rawDecode cl (218103808 + d.toNat * 2097152 + sp.toNat * 262144 + p.toNat * 32768 + b.toNat * 4096 + o.toNat * 512 + k_ * 1073741824) = _
  generalize (218103808 + d.toNat * 2097152 + sp.toNat * 262144 + p.toNat * 32768 + b.toNat * 4096 + o.toNat * 512 + k_ * 1073741824 : Nat) = n_ at *
  cases cl <;> first
    | exact Bool.noConfusion (show false = true from h)
    | (unfold rawDecode rawG; simp [f0, f1, f2, f3, f4, f5, f6])

theorem RoundTrip.cpst (d : BitVec 3) (sp : BitVec 3) (p : BitVec 3) (b : BitVec 3) (o : BitVec 3) : RoundTrip.Statement (.cpst d sp p b o) := by
  intro cl sync hold h
  have key : ∀ (d' : Nat) (_ : d' < 8) (sp' : Nat) (_ : sp' < 8) (p' : Nat) (_ : p' < 8) (b' : Nat) (_ : b' < 8) (o' : Nat) (_ : o' < 8) (k_ n_ : Nat), n_ = 234881024 + d' * 2097152 + sp' * 262144 + p' * 32768 + b' * 4096 + o' * 512 + k_ * 1073741824 →
      234881024 + d' * 2097152 + sp' * 262144 + p' * 32768 + b' * 4096 + o' * 512 < 1073741824 ∧ n_ / 16777216 % 64 = 14 ∧ n_ % 512 = 0 ∧ n_ / 2097152 % 8 = d' ∧ n_ / 262144 % 8 = sp' ∧ n_ / 32768 % 8 = p' ∧ n_ / 4096 % 8 = b' ∧ n_ / 512 % 8 = o' := by
    intros; refine ⟨?_, ?_, ?_, ?_, ?_, ?_, ?_, ?_⟩ <;> omega
  refine decode_of_raw cl (.cpst d sp p b o) sync hold (key d.toNat d.isLt sp.toNat sp.isLt p.toNat p.isLt b.toNat b.isLt o.toNat o.isLt 0 _ rfl).1 ?_ h
  intro k_ _
  obtain ⟨_, f0, f1, f2, f3, f4, f5, f6⟩ := key d.toNat d.isLt sp.toNat sp.isLt p.toNat p.isLt b.toNat b.isLt o.toNat o.isLt k_ _ rfl
  change rawDecode cl (234881024 + d.toNat * 2097152 + sp.toNat * 262144 + p.toNat * 32768 + b.toNat * 4096 + o.toNat * 512 + k_ * 1073741824) = _
  generalize (234881024 + d.toNat * 2097152 + sp.toNat * 262144 + p.toNat * 32768 + b.toNat * 4096 + o.toNat * 512 + k_ * 1073741824 : Nat) = n_ at *
  cases cl <;> first
    | exact Bool.noConfusion (show false = true from h)
    | (unfold rawDecode rawG; simp [f0, f1, f2, f3, f4, f5, f6])

theorem RoundTrip.wsort (d : BitVec 3) (sp : BitVec 3) (p : BitVec 3) (b : BitVec 3) (o : BitVec 3) (c : BitVec 2) (l : BitVec 2) : RoundTrip.Statement (.wsort d sp p b o c l) := by
  intro cl sync hold h
  have key : ∀ (d' : Nat) (_ : d' < 8) (sp' : Nat) (_ : sp' < 8) (p' : Nat) (_ : p' < 8) (b' : Nat) (_ : b' < 8) (o' : Nat) (_ : o' < 8) (c' : Nat) (_ : c' < 4) (l' : Nat) (_ : l' < 4) (k_ n_ : Nat), n_ = 268435456 + d' * 2097152 + sp' * 262144 + p' * 32768 + b' * 4096 + o' * 512 + c' * 128 + l' * 32 + k_ * 1073741824 →
      268435456 + d' * 2097152 + sp' * 262144 + p' * 32768 + b' * 4096 + o' * 512 + c' * 128 + l' * 32 < 1073741824 ∧ n_ / 16777216 % 64 = 16 ∧ n_ % 32 = 0 ∧ n_ / 2097152 % 8 = d' ∧ n_ / 262144 % 8 = sp' ∧ n_ / 32768 % 8 = p' ∧ n_ / 4096 % 8 = b' ∧ n_ / 512 % 8 = o' ∧ n_ / 128 % 4 = c' ∧ n_ / 32 % 4 = l' := by
    intros; refine ⟨?_, ?_, ?_, ?_, ?_, ?_, ?_, ?_, ?_, ?_⟩ <;> omega
  refine decode_of_raw cl (.wsort d sp p b o c l) sync hold (key d.toNat d.isLt sp.toNat sp.isLt p.toNat p.isLt b.toNat b.isLt o.toNat o.isLt c.toNat c.isLt l.toNat l.isLt 0 _ rfl).1 ?_ h
  intro k_ _
  obtain ⟨_, f0, f1, f2, f3, f4, f5, f6, f7, f8⟩ := key d.toNat d.isLt sp.toNat sp.isLt p.toNat p.isLt b.toNat b.isLt o.toNat o.isLt c.toNat c.isLt l.toNat l.isLt k_ _ rfl
  change rawDecode cl (268435456 + d.toNat * 2097152 + sp.toNat * 262144 + p.toNat * 32768 + b.toNat * 4096 + o.toNat * 512 + c.toNat * 128 + l.toNat * 32 + k_ * 1073741824) = _
  generalize (268435456 + d.toNat * 2097152 + sp.toNat * 262144 + p.toNat * 32768 + b.toNat * 4096 + o.toNat * 512 + c.toNat * 128 + l.toNat * 32 + k_ * 1073741824 : Nat) = n_ at *
  cases cl <;> first
    | exact Bool.noConfusion (show false = true from h)
    | (unfold rawDecode rawG; simp [f0, f1, f2, f3, f4, f5, f6, f7, f8])

theorem RoundTrip.xsend (k : BitVec 3) (q : BitVec 3) (l : BitVec 3) (o : BitVec 3) : RoundTrip.Statement (.xsend k q l o) := by
  intro cl sync hold h
  have key : ∀ (k' : Nat) (_ : k' < 8) (q' : Nat) (_ : q' < 8) (l' : Nat) (_ : l' < 8) (o' : Nat) (_ : o' < 8) (k_ n_ : Nat), n_ = 301989888 + k' * 2097152 + q' * 262144 + l' * 32768 + o' * 512 + k_ * 1073741824 →
      301989888 + k' * 2097152 + q' * 262144 + l' * 32768 + o' * 512 < 1073741824 ∧ n_ / 16777216 % 64 = 18 ∧ n_ % 512 = 0 ∧ n_ / 4096 % 8 = 0 ∧ n_ / 2097152 % 8 = k' ∧ n_ / 262144 % 8 = q' ∧ n_ / 32768 % 8 = l' ∧ n_ / 512 % 8 = o' := by
    intros; refine ⟨?_, ?_, ?_, ?_, ?_, ?_, ?_, ?_⟩ <;> omega
  refine decode_of_raw cl (.xsend k q l o) sync hold (key k.toNat k.isLt q.toNat q.isLt l.toNat l.isLt o.toNat o.isLt 0 _ rfl).1 ?_ h
  intro k_ _
  obtain ⟨_, f0, f1, f2, f3, f4, f5, f6⟩ := key k.toNat k.isLt q.toNat q.isLt l.toNat l.isLt o.toNat o.isLt k_ _ rfl
  change rawDecode cl (301989888 + k.toNat * 2097152 + q.toNat * 262144 + l.toNat * 32768 + o.toNat * 512 + k_ * 1073741824) = _
  generalize (301989888 + k.toNat * 2097152 + q.toNat * 262144 + l.toNat * 32768 + o.toNat * 512 + k_ * 1073741824 : Nat) = n_ at *
  cases cl <;> first
    | exact Bool.noConfusion (show false = true from h)
    | (unfold rawDecode rawG; simp [f0, f1, f2, f3, f4, f5, f6])

theorem RoundTrip.xwait (k : BitVec 3) (o : BitVec 3) : RoundTrip.Statement (.xwait k o) := by
  intro cl sync hold h
  have key : ∀ (k' : Nat) (_ : k' < 8) (o' : Nat) (_ : o' < 8) (k_ n_ : Nat), n_ = 318767104 + k' * 2097152 + o' * 512 + k_ * 1073741824 →
      318767104 + k' * 2097152 + o' * 512 < 1073741824 ∧ n_ / 16777216 % 64 = 19 ∧ n_ % 512 = 0 ∧ n_ / 4096 % 512 = 0 ∧ n_ / 2097152 % 8 = k' ∧ n_ / 512 % 8 = o' := by
    intros; refine ⟨?_, ?_, ?_, ?_, ?_, ?_⟩ <;> omega
  refine decode_of_raw cl (.xwait k o) sync hold (key k.toNat k.isLt o.toNat o.isLt 0 _ rfl).1 ?_ h
  intro k_ _
  obtain ⟨_, f0, f1, f2, f3, f4⟩ := key k.toNat k.isLt o.toNat o.isLt k_ _ rfl
  change rawDecode cl (318767104 + k.toNat * 2097152 + o.toNat * 512 + k_ * 1073741824) = _
  generalize (318767104 + k.toNat * 2097152 + o.toNat * 512 + k_ * 1073741824 : Nat) = n_ at *
  cases cl <;> first
    | exact Bool.noConfusion (show false = true from h)
    | (unfold rawDecode rawG; simp [f0, f1, f2, f3, f4])

theorem RoundTrip.xgrant (k : BitVec 3) (o : BitVec 3) : RoundTrip.Statement (.xgrant k o) := by
  intro cl sync hold h
  have key : ∀ (k' : Nat) (_ : k' < 8) (o' : Nat) (_ : o' < 8) (k_ n_ : Nat), n_ = 335544320 + k' * 2097152 + o' * 512 + k_ * 1073741824 →
      335544320 + k' * 2097152 + o' * 512 < 1073741824 ∧ n_ / 16777216 % 64 = 20 ∧ n_ % 512 = 0 ∧ n_ / 4096 % 512 = 0 ∧ n_ / 2097152 % 8 = k' ∧ n_ / 512 % 8 = o' := by
    intros; refine ⟨?_, ?_, ?_, ?_, ?_, ?_⟩ <;> omega
  refine decode_of_raw cl (.xgrant k o) sync hold (key k.toNat k.isLt o.toNat o.isLt 0 _ rfl).1 ?_ h
  intro k_ _
  obtain ⟨_, f0, f1, f2, f3, f4⟩ := key k.toNat k.isLt o.toNat o.isLt k_ _ rfl
  change rawDecode cl (335544320 + k.toNat * 2097152 + o.toNat * 512 + k_ * 1073741824) = _
  generalize (335544320 + k.toNat * 2097152 + o.toNat * 512 + k_ * 1073741824 : Nat) = n_ at *
  cases cl <;> first
    | exact Bool.noConfusion (show false = true from h)
    | (unfold rawDecode rawG; simp [f0, f1, f2, f3, f4])

theorem RoundTrip.xstat (k : BitVec 3) (d : BitVec 3) (o : BitVec 3) : RoundTrip.Statement (.xstat k d o) := by
  intro cl sync hold h
  have key : ∀ (k' : Nat) (_ : k' < 8) (d' : Nat) (_ : d' < 8) (o' : Nat) (_ : o' < 8) (k_ n_ : Nat), n_ = 352321536 + k' * 2097152 + d' * 262144 + o' * 512 + k_ * 1073741824 →
      352321536 + k' * 2097152 + d' * 262144 + o' * 512 < 1073741824 ∧ n_ / 16777216 % 64 = 21 ∧ n_ % 512 = 0 ∧ n_ / 4096 % 64 = 0 ∧ n_ / 2097152 % 8 = k' ∧ n_ / 262144 % 8 = d' ∧ n_ / 512 % 8 = o' := by
    intros; refine ⟨?_, ?_, ?_, ?_, ?_, ?_, ?_⟩ <;> omega
  refine decode_of_raw cl (.xstat k d o) sync hold (key k.toNat k.isLt d.toNat d.isLt o.toNat o.isLt 0 _ rfl).1 ?_ h
  intro k_ _
  obtain ⟨_, f0, f1, f2, f3, f4, f5⟩ := key k.toNat k.isLt d.toNat d.isLt o.toNat o.isLt k_ _ rfl
  change rawDecode cl (352321536 + k.toNat * 2097152 + d.toNat * 262144 + o.toNat * 512 + k_ * 1073741824) = _
  generalize (352321536 + k.toNat * 2097152 + d.toNat * 262144 + o.toNat * 512 + k_ * 1073741824 : Nat) = n_ at *
  cases cl <;> first
    | exact Bool.noConfusion (show false = true from h)
    | (unfold rawDecode rawG; simp [f0, f1, f2, f3, f4, f5])

theorem RoundTrip.clAr (d : BitVec 3) (sp : BitVec 3) (l : BitVec 3) (r : BitVec 3) (o : BitVec 3) (c : BitVec 3) (p : BitVec 2) (t : BitVec 2) : RoundTrip.Statement (.clAr d sp l r o c p t) := by
  intro cl sync hold h
  have key : ∀ (d' : Nat) (_ : d' < 8) (sp' : Nat) (_ : sp' < 8) (l' : Nat) (_ : l' < 8) (r' : Nat) (_ : r' < 8) (o' : Nat) (_ : o' < 8) (c' : Nat) (_ : c' < 8) (p' : Nat) (_ : p' < 4) (t' : Nat) (_ : t' < 4) (k_ n_ : Nat), n_ = 369098752 + d' * 2097152 + sp' * 262144 + l' * 32768 + r' * 4096 + o' * 512 + c' * 64 + p' * 16 + t' * 4 + k_ * 1073741824 →
      369098752 + d' * 2097152 + sp' * 262144 + l' * 32768 + r' * 4096 + o' * 512 + c' * 64 + p' * 16 + t' * 4 < 1073741824 ∧ n_ / 16777216 % 64 = 22 ∧ n_ % 4 = 0 ∧ n_ / 2097152 % 8 = d' ∧ n_ / 262144 % 8 = sp' ∧ n_ / 32768 % 8 = l' ∧ n_ / 4096 % 8 = r' ∧ n_ / 512 % 8 = o' ∧ n_ / 64 % 8 = c' ∧ n_ / 16 % 4 = p' ∧ n_ / 4 % 4 = t' := by
    intros; refine ⟨?_, ?_, ?_, ?_, ?_, ?_, ?_, ?_, ?_, ?_, ?_⟩ <;> omega
  refine decode_of_raw cl (.clAr d sp l r o c p t) sync hold (key d.toNat d.isLt sp.toNat sp.isLt l.toNat l.isLt r.toNat r.isLt o.toNat o.isLt c.toNat c.isLt p.toNat p.isLt t.toNat t.isLt 0 _ rfl).1 ?_ h
  intro k_ _
  obtain ⟨_, f0, f1, f2, f3, f4, f5, f6, f7, f8, f9⟩ := key d.toNat d.isLt sp.toNat sp.isLt l.toNat l.isLt r.toNat r.isLt o.toNat o.isLt c.toNat c.isLt p.toNat p.isLt t.toNat t.isLt k_ _ rfl
  change rawDecode cl (369098752 + d.toNat * 2097152 + sp.toNat * 262144 + l.toNat * 32768 + r.toNat * 4096 + o.toNat * 512 + c.toNat * 64 + p.toNat * 16 + t.toNat * 4 + k_ * 1073741824) = _
  generalize (369098752 + d.toNat * 2097152 + sp.toNat * 262144 + l.toNat * 32768 + r.toNat * 4096 + o.toNat * 512 + c.toNat * 64 + p.toNat * 16 + t.toNat * 4 + k_ * 1073741824 : Nat) = n_ at *
  cases cl <;> first
    | exact Bool.noConfusion (show false = true from h)
    | (unfold rawDecode rawG; simp [f0, f1, f2, f3, f4, f5, f6, f7, f8, f9])

theorem RoundTrip.clBc (d : BitVec 3) (sp : BitVec 3) (l : BitVec 3) (r : BitVec 3) (o : BitVec 3) (c : BitVec 3) : RoundTrip.Statement (.clBc d sp l r o c) := by
  intro cl sync hold h
  have key : ∀ (d' : Nat) (_ : d' < 8) (sp' : Nat) (_ : sp' < 8) (l' : Nat) (_ : l' < 8) (r' : Nat) (_ : r' < 8) (o' : Nat) (_ : o' < 8) (c' : Nat) (_ : c' < 8) (k_ n_ : Nat), n_ = 385875968 + d' * 2097152 + sp' * 262144 + l' * 32768 + r' * 4096 + o' * 512 + c' * 64 + k_ * 1073741824 →
      385875968 + d' * 2097152 + sp' * 262144 + l' * 32768 + r' * 4096 + o' * 512 + c' * 64 < 1073741824 ∧ n_ / 16777216 % 64 = 23 ∧ n_ % 64 = 0 ∧ n_ / 2097152 % 8 = d' ∧ n_ / 262144 % 8 = sp' ∧ n_ / 32768 % 8 = l' ∧ n_ / 4096 % 8 = r' ∧ n_ / 512 % 8 = o' ∧ n_ / 64 % 8 = c' := by
    intros; refine ⟨?_, ?_, ?_, ?_, ?_, ?_, ?_, ?_, ?_⟩ <;> omega
  refine decode_of_raw cl (.clBc d sp l r o c) sync hold (key d.toNat d.isLt sp.toNat sp.isLt l.toNat l.isLt r.toNat r.isLt o.toNat o.isLt c.toNat c.isLt 0 _ rfl).1 ?_ h
  intro k_ _
  obtain ⟨_, f0, f1, f2, f3, f4, f5, f6, f7⟩ := key d.toNat d.isLt sp.toNat sp.isLt l.toNat l.isLt r.toNat r.isLt o.toNat o.isLt c.toNat c.isLt k_ _ rfl
  change rawDecode cl (385875968 + d.toNat * 2097152 + sp.toNat * 262144 + l.toNat * 32768 + r.toNat * 4096 + o.toNat * 512 + c.toNat * 64 + k_ * 1073741824) = _
  generalize (385875968 + d.toNat * 2097152 + sp.toNat * 262144 + l.toNat * 32768 + r.toNat * 4096 + o.toNat * 512 + c.toNat * 64 + k_ * 1073741824 : Nat) = n_ at *
  cases cl <;> first
    | exact Bool.noConfusion (show false = true from h)
    | (unfold rawDecode rawG; simp [f0, f1, f2, f3, f4, f5, f6, f7])

theorem RoundTrip.clAg (d : BitVec 3) (sp : BitVec 3) (l : BitVec 3) (o : BitVec 3) (c : BitVec 3) : RoundTrip.Statement (.clAg d sp l o c) := by
  intro cl sync hold h
  have key : ∀ (d' : Nat) (_ : d' < 8) (sp' : Nat) (_ : sp' < 8) (l' : Nat) (_ : l' < 8) (o' : Nat) (_ : o' < 8) (c' : Nat) (_ : c' < 8) (k_ n_ : Nat), n_ = 402653184 + d' * 2097152 + sp' * 262144 + l' * 32768 + o' * 512 + c' * 64 + k_ * 1073741824 →
      402653184 + d' * 2097152 + sp' * 262144 + l' * 32768 + o' * 512 + c' * 64 < 1073741824 ∧ n_ / 16777216 % 64 = 24 ∧ n_ % 64 = 0 ∧ n_ / 4096 % 8 = 0 ∧ n_ / 2097152 % 8 = d' ∧ n_ / 262144 % 8 = sp' ∧ n_ / 32768 % 8 = l' ∧ n_ / 512 % 8 = o' ∧ n_ / 64 % 8 = c' := by
    intros; refine ⟨?_, ?_, ?_, ?_, ?_, ?_, ?_, ?_, ?_⟩ <;> omega
  refine decode_of_raw cl (.clAg d sp l o c) sync hold (key d.toNat d.isLt sp.toNat sp.isLt l.toNat l.isLt o.toNat o.isLt c.toNat c.isLt 0 _ rfl).1 ?_ h
  intro k_ _
  obtain ⟨_, f0, f1, f2, f3, f4, f5, f6, f7⟩ := key d.toNat d.isLt sp.toNat sp.isLt l.toNat l.isLt o.toNat o.isLt c.toNat c.isLt k_ _ rfl
  change rawDecode cl (402653184 + d.toNat * 2097152 + sp.toNat * 262144 + l.toNat * 32768 + o.toNat * 512 + c.toNat * 64 + k_ * 1073741824) = _
  generalize (402653184 + d.toNat * 2097152 + sp.toNat * 262144 + l.toNat * 32768 + o.toNat * 512 + c.toNat * 64 + k_ * 1073741824 : Nat) = n_ at *
  cases cl <;> first
    | exact Bool.noConfusion (show false = true from h)
    | (unfold rawDecode rawG; simp [f0, f1, f2, f3, f4, f5, f6, f7])

theorem RoundTrip.clRs (d : BitVec 3) (sp : BitVec 3) (l : BitVec 3) (r : BitVec 3) (o : BitVec 3) (c : BitVec 3) (p : BitVec 2) (t : BitVec 2) : RoundTrip.Statement (.clRs d sp l r o c p t) := by
  intro cl sync hold h
  have key : ∀ (d' : Nat) (_ : d' < 8) (sp' : Nat) (_ : sp' < 8) (l' : Nat) (_ : l' < 8) (r' : Nat) (_ : r' < 8) (o' : Nat) (_ : o' < 8) (c' : Nat) (_ : c' < 8) (p' : Nat) (_ : p' < 4) (t' : Nat) (_ : t' < 4) (k_ n_ : Nat), n_ = 419430400 + d' * 2097152 + sp' * 262144 + l' * 32768 + r' * 4096 + o' * 512 + c' * 64 + p' * 16 + t' * 4 + k_ * 1073741824 →
      419430400 + d' * 2097152 + sp' * 262144 + l' * 32768 + r' * 4096 + o' * 512 + c' * 64 + p' * 16 + t' * 4 < 1073741824 ∧ n_ / 16777216 % 64 = 25 ∧ n_ % 4 = 0 ∧ n_ / 2097152 % 8 = d' ∧ n_ / 262144 % 8 = sp' ∧ n_ / 32768 % 8 = l' ∧ n_ / 4096 % 8 = r' ∧ n_ / 512 % 8 = o' ∧ n_ / 64 % 8 = c' ∧ n_ / 16 % 4 = p' ∧ n_ / 4 % 4 = t' := by
    intros; refine ⟨?_, ?_, ?_, ?_, ?_, ?_, ?_, ?_, ?_, ?_, ?_⟩ <;> omega
  refine decode_of_raw cl (.clRs d sp l r o c p t) sync hold (key d.toNat d.isLt sp.toNat sp.isLt l.toNat l.isLt r.toNat r.isLt o.toNat o.isLt c.toNat c.isLt p.toNat p.isLt t.toNat t.isLt 0 _ rfl).1 ?_ h
  intro k_ _
  obtain ⟨_, f0, f1, f2, f3, f4, f5, f6, f7, f8, f9⟩ := key d.toNat d.isLt sp.toNat sp.isLt l.toNat l.isLt r.toNat r.isLt o.toNat o.isLt c.toNat c.isLt p.toNat p.isLt t.toNat t.isLt k_ _ rfl
  change rawDecode cl (419430400 + d.toNat * 2097152 + sp.toNat * 262144 + l.toNat * 32768 + r.toNat * 4096 + o.toNat * 512 + c.toNat * 64 + p.toNat * 16 + t.toNat * 4 + k_ * 1073741824) = _
  generalize (419430400 + d.toNat * 2097152 + sp.toNat * 262144 + l.toNat * 32768 + r.toNat * 4096 + o.toNat * 512 + c.toNat * 64 + p.toNat * 16 + t.toNat * 4 + k_ * 1073741824 : Nat) = n_ at *
  cases cl <;> first
    | exact Bool.noConfusion (show false = true from h)
    | (unfold rawDecode rawG; simp [f0, f1, f2, f3, f4, f5, f6, f7, f8, f9])

theorem RoundTrip.mmov (d : BitVec 3) (sp : BitVec 5) : RoundTrip.Statement (.mmov d sp) := by
  intro cl sync hold h
  have key : ∀ (d' : Nat) (_ : d' < 8) (sp' : Nat) (_ : sp' < 32) (k_ n_ : Nat), n_ = 33554432 + d' * 2097152 + sp' * 65536 + k_ * 1073741824 →
      33554432 + d' * 2097152 + sp' * 65536 < 1073741824 ∧ n_ / 16777216 % 64 = 2 ∧ n_ % 65536 = 0 ∧ n_ / 2097152 % 8 = d' ∧ n_ / 65536 % 32 = sp' := by
    intros; refine ⟨?_, ?_, ?_, ?_, ?_⟩ <;> omega
  refine decode_of_raw cl (.mmov d sp) sync hold (key d.toNat d.isLt sp.toNat sp.isLt 0 _ rfl).1 ?_ h
  intro k_ _
  obtain ⟨_, f0, f1, f2, f3⟩ := key d.toNat d.isLt sp.toNat sp.isLt k_ _ rfl
  change rawDecode cl (33554432 + d.toNat * 2097152 + sp.toNat * 65536 + k_ * 1073741824) = _
  generalize (33554432 + d.toNat * 2097152 + sp.toNat * 65536 + k_ * 1073741824 : Nat) = n_ at *
  cases cl <;> first
    | exact Bool.noConfusion (show false = true from h)
    | (unfold rawDecode rawM; simp [f0, f1, f2, f3])

theorem RoundTrip.madd (d : BitVec 3) (a : BitVec 3) (im : BitVec 18) : RoundTrip.Statement (.madd d a im) := by
  intro cl sync hold h
  have key : ∀ (d' : Nat) (_ : d' < 8) (a' : Nat) (_ : a' < 8) (im' : Nat) (_ : im' < 262144) (k_ n_ : Nat), n_ = 50331648 + d' * 2097152 + a' * 262144 + im' + k_ * 1073741824 →
      50331648 + d' * 2097152 + a' * 262144 + im' < 1073741824 ∧ n_ / 16777216 % 64 = 3 ∧ n_ / 2097152 % 8 = d' ∧ n_ / 262144 % 8 = a' ∧ n_ % 262144 = im' := by
    intros; refine ⟨?_, ?_, ?_, ?_, ?_⟩ <;> omega
  refine decode_of_raw cl (.madd d a im) sync hold (key d.toNat d.isLt a.toNat a.isLt im.toNat im.isLt 0 _ rfl).1 ?_ h
  intro k_ _
  obtain ⟨_, f0, f1, f2, f3⟩ := key d.toNat d.isLt a.toNat a.isLt im.toNat im.isLt k_ _ rfl
  change rawDecode cl (50331648 + d.toNat * 2097152 + a.toNat * 262144 + im.toNat + k_ * 1073741824) = _
  generalize (50331648 + d.toNat * 2097152 + a.toNat * 262144 + im.toNat + k_ * 1073741824 : Nat) = n_ at *
  cases cl <;> first
    | exact Bool.noConfusion (show false = true from h)
    | (unfold rawDecode rawM; simp [f0, f1, f2, f3])

theorem RoundTrip.bktz (n : BitVec 3) (t : BitVec 3) (o : BitVec 3) : RoundTrip.Statement (.bktz n t o) := by
  intro cl sync hold h
  have key : ∀ (n' : Nat) (_ : n' < 8) (t' : Nat) (_ : t' < 8) (o' : Nat) (_ : o' < 8) (k_ n_ : Nat), n_ = 67108864 + n' * 2097152 + t' * 262144 + o' + k_ * 1073741824 →
      67108864 + n' * 2097152 + t' * 262144 + o' < 1073741824 ∧ n_ / 16777216 % 64 = 4 ∧ n_ / 8 % 32768 = 0 ∧ n_ / 2097152 % 8 = n' ∧ n_ / 262144 % 8 = t' ∧ n_ % 8 = o' := by
    intros; refine ⟨?_, ?_, ?_, ?_, ?_, ?_⟩ <;> omega
  refine decode_of_raw cl (.bktz n t o) sync hold (key n.toNat n.isLt t.toNat t.isLt o.toNat o.isLt 0 _ rfl).1 ?_ h
  intro k_ _
  obtain ⟨_, f0, f1, f2, f3, f4⟩ := key n.toNat n.isLt t.toNat t.isLt o.toNat o.isLt k_ _ rfl
  change rawDecode cl (67108864 + n.toNat * 2097152 + t.toNat * 262144 + o.toNat + k_ * 1073741824) = _
  generalize (67108864 + n.toNat * 2097152 + t.toNat * 262144 + o.toNat + k_ * 1073741824 : Nat) = n_ at *
  cases cl <;> first
    | exact Bool.noConfusion (show false = true from h)
    | (unfold rawDecode rawM; simp [f0, f1, f2, f3, f4])

theorem RoundTrip.bkt (a : BitVec 3) (l : BitVec 3) (r : BitVec 3) (t : BitVec 3) (c : BitVec 2) (sp : BitVec 2) (o : BitVec 3) : RoundTrip.Statement (.bkt a l r t c sp o) := by
  intro cl sync hold h
  have key : ∀ (a' : Nat) (_ : a' < 8) (l' : Nat) (_ : l' < 8) (r' : Nat) (_ : r' < 8) (t' : Nat) (_ : t' < 8) (c' : Nat) (_ : c' < 4) (sp' : Nat) (_ : sp' < 4) (o' : Nat) (_ : o' < 8) (k_ n_ : Nat), n_ = 83886080 + a' * 2097152 + l' * 262144 + r' * 32768 + t' * 4096 + c' * 1024 + sp' * 256 + o' + k_ * 1073741824 →
      83886080 + a' * 2097152 + l' * 262144 + r' * 32768 + t' * 4096 + c' * 1024 + sp' * 256 + o' < 1073741824 ∧ n_ / 16777216 % 64 = 5 ∧ n_ / 8 % 32 = 0 ∧ n_ / 2097152 % 8 = a' ∧ n_ / 262144 % 8 = l' ∧ n_ / 32768 % 8 = r' ∧ n_ / 4096 % 8 = t' ∧ n_ / 1024 % 4 = c' ∧ n_ / 256 % 4 = sp' ∧ n_ % 8 = o' := by
    intros; refine ⟨?_, ?_, ?_, ?_, ?_, ?_, ?_, ?_, ?_, ?_⟩ <;> omega
  refine decode_of_raw cl (.bkt a l r t c sp o) sync hold (key a.toNat a.isLt l.toNat l.isLt r.toNat r.isLt t.toNat t.isLt c.toNat c.isLt sp.toNat sp.isLt o.toNat o.isLt 0 _ rfl).1 ?_ h
  intro k_ _
  obtain ⟨_, f0, f1, f2, f3, f4, f5, f6, f7, f8⟩ := key a.toNat a.isLt l.toNat l.isLt r.toNat r.isLt t.toNat t.isLt c.toNat c.isLt sp.toNat sp.isLt o.toNat o.isLt k_ _ rfl
  change rawDecode cl (83886080 + a.toNat * 2097152 + l.toNat * 262144 + r.toNat * 32768 + t.toNat * 4096 + c.toNat * 1024 + sp.toNat * 256 + o.toNat + k_ * 1073741824) = _
  generalize (83886080 + a.toNat * 2097152 + l.toNat * 262144 + r.toNat * 32768 + t.toNat * 4096 + c.toNat * 1024 + sp.toNat * 256 + o.toNat + k_ * 1073741824 : Nat) = n_ at *
  cases cl <;> first
    | exact Bool.noConfusion (show false = true from h)
    | (unfold rawDecode rawM; simp [f0, f1, f2, f3, f4, f5, f6, f7, f8])

theorem RoundTrip.bfin (c : BitVec 3) (sp : BitVec 3) (a : BitVec 3) (r : BitVec 3) (o : BitVec 3) : RoundTrip.Statement (.bfin c sp a r o) := by
  intro cl sync hold h
  have key : ∀ (c' : Nat) (_ : c' < 8) (sp' : Nat) (_ : sp' < 8) (a' : Nat) (_ : a' < 8) (r' : Nat) (_ : r' < 8) (o' : Nat) (_ : o' < 8) (k_ n_ : Nat), n_ = 100663296 + c' * 2097152 + sp' * 262144 + a' * 32768 + r' * 4096 + o' + k_ * 1073741824 →
      100663296 + c' * 2097152 + sp' * 262144 + a' * 32768 + r' * 4096 + o' < 1073741824 ∧ n_ / 16777216 % 64 = 6 ∧ n_ / 8 % 512 = 0 ∧ n_ / 2097152 % 8 = c' ∧ n_ / 262144 % 8 = sp' ∧ n_ / 32768 % 8 = a' ∧ n_ / 4096 % 8 = r' ∧ n_ % 8 = o' := by
    intros; refine ⟨?_, ?_, ?_, ?_, ?_, ?_, ?_, ?_⟩ <;> omega
  refine decode_of_raw cl (.bfin c sp a r o) sync hold (key c.toNat c.isLt sp.toNat sp.isLt a.toNat a.isLt r.toNat r.isLt o.toNat o.isLt 0 _ rfl).1 ?_ h
  intro k_ _
  obtain ⟨_, f0, f1, f2, f3, f4, f5, f6⟩ := key c.toNat c.isLt sp.toNat sp.isLt a.toNat a.isLt r.toNat r.isLt o.toNat o.isLt k_ _ rfl
  change rawDecode cl (100663296 + c.toNat * 2097152 + sp.toNat * 262144 + a.toNat * 32768 + r.toNat * 4096 + o.toNat + k_ * 1073741824) = _
  generalize (100663296 + c.toNat * 2097152 + sp.toNat * 262144 + a.toNat * 32768 + r.toNat * 4096 + o.toNat + k_ * 1073741824 : Nat) = n_ at *
  cases cl <;> first
    | exact Bool.noConfusion (show false = true from h)
    | (unfold rawDecode rawM; simp [f0, f1, f2, f3, f4, f5, f6])

theorem RoundTrip.tmma (m : BitVec 2) (n : BitVec 6) (a : BitVec 3) (b : BitVec 3) (c : BitVec 3) (t : BitVec 4) (im : BitVec 1) : RoundTrip.Statement (.tmma m n a b c t im) := by
  intro cl sync hold h
  have key : ∀ (m' : Nat) (_ : m' < 4) (n' : Nat) (_ : n' < 64) (a' : Nat) (_ : a' < 8) (b' : Nat) (_ : b' < 8) (c' : Nat) (_ : c' < 8) (t' : Nat) (_ : t' < 16) (im' : Nat) (_ : im' < 2) (k_ n_ : Nat), n_ = 117440512 + m' * 4194304 + n' * 65536 + a' * 8192 + b' * 1024 + c' * 128 + t' * 8 + im' * 4 + k_ * 1073741824 →
      117440512 + m' * 4194304 + n' * 65536 + a' * 8192 + b' * 1024 + c' * 128 + t' * 8 + im' * 4 < 1073741824 ∧ n_ / 16777216 % 64 = 7 ∧ n_ % 4 = 0 ∧ n_ / 4194304 % 4 = m' ∧ n_ / 65536 % 64 = n' ∧ n_ / 8192 % 8 = a' ∧ n_ / 1024 % 8 = b' ∧ n_ / 128 % 8 = c' ∧ n_ / 8 % 16 = t' ∧ n_ / 4 % 2 = im' := by
    intros; refine ⟨?_, ?_, ?_, ?_, ?_, ?_, ?_, ?_, ?_, ?_⟩ <;> omega
  refine decode_of_raw cl (.tmma m n a b c t im) sync hold (key m.toNat m.isLt n.toNat n.isLt a.toNat a.isLt b.toNat b.isLt c.toNat c.isLt t.toNat t.isLt im.toNat im.isLt 0 _ rfl).1 ?_ h
  intro k_ _
  obtain ⟨_, f0, f1, f2, f3, f4, f5, f6, f7, f8⟩ := key m.toNat m.isLt n.toNat n.isLt a.toNat a.isLt b.toNat b.isLt c.toNat c.isLt t.toNat t.isLt im.toNat im.isLt k_ _ rfl
  change rawDecode cl (117440512 + m.toNat * 4194304 + n.toNat * 65536 + a.toNat * 8192 + b.toNat * 1024 + c.toNat * 128 + t.toNat * 8 + im.toNat * 4 + k_ * 1073741824) = _
  generalize (117440512 + m.toNat * 4194304 + n.toNat * 65536 + a.toNat * 8192 + b.toNat * 1024 + c.toNat * 128 + t.toNat * 8 + im.toNat * 4 + k_ * 1073741824 : Nat) = n_ at *
  cases cl <;> first
    | exact Bool.noConfusion (show false = true from h)
    | (unfold rawDecode rawM; simp [f0, f1, f2, f3, f4, f5, f6, f7, f8])

theorem RoundTrip.tmmaSp (m : BitVec 2) (n : BitVec 6) (a : BitVec 3) (b : BitVec 3) (c : BitVec 3) (q : BitVec 3) (t : BitVec 3) (im : BitVec 1) : RoundTrip.Statement (.tmmaSp m n a b c q t im) := by
  intro cl sync hold h
  have key : ∀ (m' : Nat) (_ : m' < 4) (n' : Nat) (_ : n' < 64) (a' : Nat) (_ : a' < 8) (b' : Nat) (_ : b' < 8) (c' : Nat) (_ : c' < 8) (q' : Nat) (_ : q' < 8) (t' : Nat) (_ : t' < 8) (im' : Nat) (_ : im' < 2) (k_ n_ : Nat), n_ = 134217728 + m' * 4194304 + n' * 65536 + a' * 8192 + b' * 1024 + c' * 128 + q' * 16 + t' * 2 + im' + k_ * 1073741824 →
      134217728 + m' * 4194304 + n' * 65536 + a' * 8192 + b' * 1024 + c' * 128 + q' * 16 + t' * 2 + im' < 1073741824 ∧ n_ / 16777216 % 64 = 8 ∧ n_ / 4194304 % 4 = m' ∧ n_ / 65536 % 64 = n' ∧ n_ / 8192 % 8 = a' ∧ n_ / 1024 % 8 = b' ∧ n_ / 128 % 8 = c' ∧ n_ / 16 % 8 = q' ∧ n_ / 2 % 8 = t' ∧ n_ % 2 = im' := by
    intros; refine ⟨?_, ?_, ?_, ?_, ?_, ?_, ?_, ?_, ?_, ?_⟩ <;> omega
  refine decode_of_raw cl (.tmmaSp m n a b c q t im) sync hold (key m.toNat m.isLt n.toNat n.isLt a.toNat a.isLt b.toNat b.isLt c.toNat c.isLt q.toNat q.isLt t.toNat t.isLt im.toNat im.isLt 0 _ rfl).1 ?_ h
  intro k_ _
  obtain ⟨_, f0, f1, f2, f3, f4, f5, f6, f7, f8⟩ := key m.toNat m.isLt n.toNat n.isLt a.toNat a.isLt b.toNat b.isLt c.toNat c.isLt q.toNat q.isLt t.toNat t.isLt im.toNat im.isLt k_ _ rfl
  change rawDecode cl (134217728 + m.toNat * 4194304 + n.toNat * 65536 + a.toNat * 8192 + b.toNat * 1024 + c.toNat * 128 + q.toNat * 16 + t.toNat * 2 + im.toNat + k_ * 1073741824) = _
  generalize (134217728 + m.toNat * 4194304 + n.toNat * 65536 + a.toNat * 8192 + b.toNat * 1024 + c.toNat * 128 + q.toNat * 16 + t.toNat * 2 + im.toNat + k_ * 1073741824 : Nat) = n_ at *
  cases cl <;> first
    | exact Bool.noConfusion (show false = true from h)
    | (unfold rawDecode rawM; simp [f0, f1, f2, f3, f4, f5, f6, f7, f8])

theorem RoundTrip.spc (im : BitVec 3) (v : BitVec 3) (m : BitVec 3) (n : BitVec 3) (t : BitVec 3) (o : BitVec 3) : RoundTrip.Statement (.spc im v m n t o) := by
  intro cl sync hold h
  have key : ∀ (im' : Nat) (_ : im' < 8) (v' : Nat) (_ : v' < 8) (m' : Nat) (_ : m' < 8) (n' : Nat) (_ : n' < 8) (t' : Nat) (_ : t' < 8) (o' : Nat) (_ : o' < 8) (k_ n_ : Nat), n_ = 150994944 + im' * 2097152 + v' * 262144 + m' * 32768 + n' * 4096 + t' * 512 + o' + k_ * 1073741824 →
      150994944 + im' * 2097152 + v' * 262144 + m' * 32768 + n' * 4096 + t' * 512 + o' < 1073741824 ∧ n_ / 16777216 % 64 = 9 ∧ n_ / 8 % 64 = 0 ∧ n_ / 2097152 % 8 = im' ∧ n_ / 262144 % 8 = v' ∧ n_ / 32768 % 8 = m' ∧ n_ / 4096 % 8 = n' ∧ n_ / 512 % 8 = t' ∧ n_ % 8 = o' := by
    intros; refine ⟨?_, ?_, ?_, ?_, ?_, ?_, ?_, ?_, ?_⟩ <;> omega
  refine decode_of_raw cl (.spc im v m n t o) sync hold (key im.toNat im.isLt v.toNat v.isLt m.toNat m.isLt n.toNat n.isLt t.toNat t.isLt o.toNat o.isLt 0 _ rfl).1 ?_ h
  intro k_ _
  obtain ⟨_, f0, f1, f2, f3, f4, f5, f6, f7⟩ := key im.toNat im.isLt v.toNat v.isLt m.toNat m.isLt n.toNat n.isLt t.toNat t.isLt o.toNat o.isLt k_ _ rfl
  change rawDecode cl (150994944 + im.toNat * 2097152 + v.toNat * 262144 + m.toNat * 32768 + n.toNat * 4096 + t.toNat * 512 + o.toNat + k_ * 1073741824) = _
  generalize (150994944 + im.toNat * 2097152 + v.toNat * 262144 + m.toNat * 32768 + n.toNat * 4096 + t.toNat * 512 + o.toNat + k_ * 1073741824 : Nat) = n_ at *
  cases cl <;> first
    | exact Bool.noConfusion (show false = true from h)
    | (unfold rawDecode rawM; simp [f0, f1, f2, f3, f4, f5, f6, f7])

theorem RoundTrip.accz (a : BitVec 3) (n : BitVec 3) (o : BitVec 3) : RoundTrip.Statement (.accz a n o) := by
  intro cl sync hold h
  have key : ∀ (a' : Nat) (_ : a' < 8) (n' : Nat) (_ : n' < 8) (o' : Nat) (_ : o' < 8) (k_ n_ : Nat), n_ = 167772160 + a' * 2097152 + n' * 262144 + o' + k_ * 1073741824 →
      167772160 + a' * 2097152 + n' * 262144 + o' < 1073741824 ∧ n_ / 16777216 % 64 = 10 ∧ n_ / 8 % 32768 = 0 ∧ n_ / 2097152 % 8 = a' ∧ n_ / 262144 % 8 = n' ∧ n_ % 8 = o' := by
    intros; refine ⟨?_, ?_, ?_, ?_, ?_, ?_⟩ <;> omega
  refine decode_of_raw cl (.accz a n o) sync hold (key a.toNat a.isLt n.toNat n.isLt o.toNat o.isLt 0 _ rfl).1 ?_ h
  intro k_ _
  obtain ⟨_, f0, f1, f2, f3, f4⟩ := key a.toNat a.isLt n.toNat n.isLt o.toNat o.isLt k_ _ rfl
  change rawDecode cl (167772160 + a.toNat * 2097152 + n.toNat * 262144 + o.toNat + k_ * 1073741824) = _
  generalize (167772160 + a.toNat * 2097152 + n.toNat * 262144 + o.toNat + k_ * 1073741824 : Nat) = n_ at *
  cases cl <;> first
    | exact Bool.noConfusion (show false = true from h)
    | (unfold rawDecode rawM; simp [f0, f1, f2, f3, f4])

theorem RoundTrip.adrain (d : BitVec 3) (a : BitVec 3) (sp : BitVec 3) (t : BitVec 4) (o : BitVec 3) : RoundTrip.Statement (.adrain d a sp t o) := by
  intro cl sync hold h
  have key : ∀ (d' : Nat) (_ : d' < 8) (a' : Nat) (_ : a' < 8) (sp' : Nat) (_ : sp' < 8) (t' : Nat) (_ : t' < 16) (o' : Nat) (_ : o' < 8) (k_ n_ : Nat), n_ = 184549376 + d' * 2097152 + a' * 262144 + sp' * 32768 + t' * 2048 + o' + k_ * 1073741824 →
      184549376 + d' * 2097152 + a' * 262144 + sp' * 32768 + t' * 2048 + o' < 1073741824 ∧ n_ / 16777216 % 64 = 11 ∧ n_ / 8 % 256 = 0 ∧ n_ / 2097152 % 8 = d' ∧ n_ / 262144 % 8 = a' ∧ n_ / 32768 % 8 = sp' ∧ n_ / 2048 % 16 = t' ∧ n_ % 8 = o' := by
    intros; refine ⟨?_, ?_, ?_, ?_, ?_, ?_, ?_, ?_⟩ <;> omega
  refine decode_of_raw cl (.adrain d a sp t o) sync hold (key d.toNat d.isLt a.toNat a.isLt sp.toNat sp.isLt t.toNat t.isLt o.toNat o.isLt 0 _ rfl).1 ?_ h
  intro k_ _
  obtain ⟨_, f0, f1, f2, f3, f4, f5, f6⟩ := key d.toNat d.isLt a.toNat a.isLt sp.toNat sp.isLt t.toNat t.isLt o.toNat o.isLt k_ _ rfl
  change rawDecode cl (184549376 + d.toNat * 2097152 + a.toNat * 262144 + sp.toNat * 32768 + t.toNat * 2048 + o.toNat + k_ * 1073741824) = _
  generalize (184549376 + d.toNat * 2097152 + a.toNat * 262144 + sp.toNat * 32768 + t.toNat * 2048 + o.toNat + k_ * 1073741824 : Nat) = n_ at *
  cases cl <;> first
    | exact Bool.noConfusion (show false = true from h)
    | (unfold rawDecode rawM; simp [f0, f1, f2, f3, f4, f5, f6])

theorem RoundTrip.qdrain (d : BitVec 3) (a : BitVec 3) (sp : BitVec 3) (m : BitVec 3) (t : BitVec 4) (c : BitVec 3) (o : BitVec 3) : RoundTrip.Statement (.qdrain d a sp m t c o) := by
  intro cl sync hold h
  have key : ∀ (d' : Nat) (_ : d' < 8) (a' : Nat) (_ : a' < 8) (sp' : Nat) (_ : sp' < 8) (m' : Nat) (_ : m' < 8) (t' : Nat) (_ : t' < 16) (c' : Nat) (_ : c' < 8) (o' : Nat) (_ : o' < 8) (k_ n_ : Nat), n_ = 201326592 + d' * 2097152 + a' * 262144 + sp' * 32768 + m' * 4096 + t' * 256 + c' * 32 + o' + k_ * 1073741824 →
      201326592 + d' * 2097152 + a' * 262144 + sp' * 32768 + m' * 4096 + t' * 256 + c' * 32 + o' < 1073741824 ∧ n_ / 16777216 % 64 = 12 ∧ n_ / 8 % 4 = 0 ∧ n_ / 2097152 % 8 = d' ∧ n_ / 262144 % 8 = a' ∧ n_ / 32768 % 8 = sp' ∧ n_ / 4096 % 8 = m' ∧ n_ / 256 % 16 = t' ∧ n_ / 32 % 8 = c' ∧ n_ % 8 = o' := by
    intros; refine ⟨?_, ?_, ?_, ?_, ?_, ?_, ?_, ?_, ?_, ?_⟩ <;> omega
  refine decode_of_raw cl (.qdrain d a sp m t c o) sync hold (key d.toNat d.isLt a.toNat a.isLt sp.toNat sp.isLt m.toNat m.isLt t.toNat t.isLt c.toNat c.isLt o.toNat o.isLt 0 _ rfl).1 ?_ h
  intro k_ _
  obtain ⟨_, f0, f1, f2, f3, f4, f5, f6, f7, f8⟩ := key d.toNat d.isLt a.toNat a.isLt sp.toNat sp.isLt m.toNat m.isLt t.toNat t.isLt c.toNat c.isLt o.toNat o.isLt k_ _ rfl
  change rawDecode cl (201326592 + d.toNat * 2097152 + a.toNat * 262144 + sp.toNat * 32768 + m.toNat * 4096 + t.toNat * 256 + c.toNat * 32 + o.toNat + k_ * 1073741824) = _
  generalize (201326592 + d.toNat * 2097152 + a.toNat * 262144 + sp.toNat * 32768 + m.toNat * 4096 + t.toNat * 256 + c.toNat * 32 + o.toNat + k_ * 1073741824 : Nat) = n_ at *
  cases cl <;> first
    | exact Bool.noConfusion (show false = true from h)
    | (unfold rawDecode rawM; simp [f0, f1, f2, f3, f4, f5, f6, f7, f8])

theorem RoundTrip.quant2 (d : BitVec 3) (a : BitVec 3) (sp : BitVec 3) (x : BitVec 3) (t : BitVec 4) (o : BitVec 3) : RoundTrip.Statement (.quant2 d a sp x t o) := by
  intro cl sync hold h
  have key : ∀ (d' : Nat) (_ : d' < 8) (a' : Nat) (_ : a' < 8) (sp' : Nat) (_ : sp' < 8) (x' : Nat) (_ : x' < 8) (t' : Nat) (_ : t' < 16) (o' : Nat) (_ : o' < 8) (k_ n_ : Nat), n_ = 218103808 + d' * 2097152 + a' * 262144 + sp' * 32768 + x' * 4096 + t' * 256 + o' + k_ * 1073741824 →
      218103808 + d' * 2097152 + a' * 262144 + sp' * 32768 + x' * 4096 + t' * 256 + o' < 1073741824 ∧ n_ / 16777216 % 64 = 13 ∧ n_ / 8 % 32 = 0 ∧ n_ / 2097152 % 8 = d' ∧ n_ / 262144 % 8 = a' ∧ n_ / 32768 % 8 = sp' ∧ n_ / 4096 % 8 = x' ∧ n_ / 256 % 16 = t' ∧ n_ % 8 = o' := by
    intros; refine ⟨?_, ?_, ?_, ?_, ?_, ?_, ?_, ?_, ?_⟩ <;> omega
  refine decode_of_raw cl (.quant2 d a sp x t o) sync hold (key d.toNat d.isLt a.toNat a.isLt sp.toNat sp.isLt x.toNat x.isLt t.toNat t.isLt o.toNat o.isLt 0 _ rfl).1 ?_ h
  intro k_ _
  obtain ⟨_, f0, f1, f2, f3, f4, f5, f6, f7⟩ := key d.toNat d.isLt a.toNat a.isLt sp.toNat sp.isLt x.toNat x.isLt t.toNat t.isLt o.toNat o.isLt k_ _ rfl
  change rawDecode cl (218103808 + d.toNat * 2097152 + a.toNat * 262144 + sp.toNat * 32768 + x.toNat * 4096 + t.toNat * 256 + o.toNat + k_ * 1073741824) = _
  generalize (218103808 + d.toNat * 2097152 + a.toNat * 262144 + sp.toNat * 32768 + x.toNat * 4096 + t.toNat * 256 + o.toNat + k_ * 1073741824 : Nat) = n_ at *
  cases cl <;> first
    | exact Bool.noConfusion (show false = true from h)
    | (unfold rawDecode rawM; simp [f0, f1, f2, f3, f4, f5, f6, f7])

theorem RoundTrip.accmv (d : BitVec 3) (a : BitVec 3) (n : BitVec 3) (o : BitVec 3) : RoundTrip.Statement (.accmv d a n o) := by
  intro cl sync hold h
  have key : ∀ (d' : Nat) (_ : d' < 8) (a' : Nat) (_ : a' < 8) (n' : Nat) (_ : n' < 8) (o' : Nat) (_ : o' < 8) (k_ n_ : Nat), n_ = 234881024 + d' * 2097152 + a' * 262144 + n' * 32768 + o' + k_ * 1073741824 →
      234881024 + d' * 2097152 + a' * 262144 + n' * 32768 + o' < 1073741824 ∧ n_ / 16777216 % 64 = 14 ∧ n_ / 8 % 4096 = 0 ∧ n_ / 2097152 % 8 = d' ∧ n_ / 262144 % 8 = a' ∧ n_ / 32768 % 8 = n' ∧ n_ % 8 = o' := by
    intros; refine ⟨?_, ?_, ?_, ?_, ?_, ?_, ?_⟩ <;> omega
  refine decode_of_raw cl (.accmv d a n o) sync hold (key d.toNat d.isLt a.toNat a.isLt n.toNat n.isLt o.toNat o.isLt 0 _ rfl).1 ?_ h
  intro k_ _
  obtain ⟨_, f0, f1, f2, f3, f4, f5⟩ := key d.toNat d.isLt a.toNat a.isLt n.toNat n.isLt o.toNat o.isLt k_ _ rfl
  change rawDecode cl (234881024 + d.toNat * 2097152 + a.toNat * 262144 + n.toNat * 32768 + o.toNat + k_ * 1073741824) = _
  generalize (234881024 + d.toNat * 2097152 + a.toNat * 262144 + n.toNat * 32768 + o.toNat + k_ * 1073741824 : Nat) = n_ at *
  cases cl <;> first
    | exact Bool.noConfusion (show false = true from h)
    | (unfold rawDecode rawM; simp [f0, f1, f2, f3, f4, f5])

theorem RoundTrip.mstat (d : BitVec 3) (sp : BitVec 4) : RoundTrip.Statement (.mstat d sp) := by
  intro cl sync hold h
  have key : ∀ (d' : Nat) (_ : d' < 8) (sp' : Nat) (_ : sp' < 16) (k_ n_ : Nat), n_ = 251658240 + d' * 2097152 + sp' * 131072 + k_ * 1073741824 →
      251658240 + d' * 2097152 + sp' * 131072 < 1073741824 ∧ n_ / 16777216 % 64 = 15 ∧ n_ % 131072 = 0 ∧ n_ / 2097152 % 8 = d' ∧ n_ / 131072 % 16 = sp' := by
    intros; refine ⟨?_, ?_, ?_, ?_, ?_⟩ <;> omega
  refine decode_of_raw cl (.mstat d sp) sync hold (key d.toNat d.isLt sp.toNat sp.isLt 0 _ rfl).1 ?_ h
  intro k_ _
  obtain ⟨_, f0, f1, f2, f3⟩ := key d.toNat d.isLt sp.toNat sp.isLt k_ _ rfl
  change rawDecode cl (251658240 + d.toNat * 2097152 + sp.toNat * 131072 + k_ * 1073741824) = _
  generalize (251658240 + d.toNat * 2097152 + sp.toNat * 131072 + k_ * 1073741824 : Nat) = n_ at *
  cases cl <;> first
    | exact Bool.noConfusion (show false = true from h)
    | (unfold rawDecode rawM; simp [f0, f1, f2, f3])

theorem RoundTrip.vsh (sp : BitVec 5) : RoundTrip.Statement (.vsh sp) := by
  intro cl sync hold h
  have key : ∀ (sp' : Nat) (_ : sp' < 32) (k_ n_ : Nat), n_ = 16777216 + sp' * 65536 + k_ * 1073741824 →
      16777216 + sp' * 65536 < 1073741824 ∧ n_ / 16777216 % 64 = 1 ∧ n_ % 65536 = 0 ∧ n_ / 2097152 % 8 = 0 ∧ n_ / 65536 % 32 = sp' := by
    intros; refine ⟨?_, ?_, ?_, ?_, ?_⟩ <;> omega
  refine decode_of_raw cl (.vsh sp) sync hold (key sp.toNat sp.isLt 0 _ rfl).1 ?_ h
  intro k_ _
  obtain ⟨_, f0, f1, f2, f3⟩ := key sp.toNat sp.isLt k_ _ rfl
  change rawDecode cl (16777216 + sp.toNat * 65536 + k_ * 1073741824) = _
  generalize (16777216 + sp.toNat * 65536 + k_ * 1073741824 : Nat) = n_ at *
  cases cl <;> first
    | exact Bool.noConfusion (show false = true from h)
    | (unfold rawDecode rawV; simp [f0, f1, f2, f3])

theorem RoundTrip.vadd (w : BitVec 1) (d : BitVec 5) (a : BitVec 6) (b : BitVec 6) (p : BitVec 3) (f : BitVec 1) (r : BitVec 2) : RoundTrip.Statement (.vadd w d a b p f r) := by
  intro cl sync hold h
  have key : ∀ (w' : Nat) (_ : w' < 2) (d' : Nat) (_ : d' < 32) (a' : Nat) (_ : a' < 64) (b' : Nat) (_ : b' < 64) (p' : Nat) (_ : p' < 8) (f' : Nat) (_ : f' < 2) (r' : Nat) (_ : r' < 4) (k_ n_ : Nat), n_ = 33554432 + w' * 8388608 + d' * 262144 + a' * 4096 + b' * 64 + p' * 8 + f' * 4 + r' + k_ * 1073741824 →
      33554432 + w' * 8388608 + d' * 262144 + a' * 4096 + b' * 64 + p' * 8 + f' * 4 + r' < 1073741824 ∧ n_ / 16777216 % 64 = 2 ∧ n_ / 8388608 % 2 = w' ∧ n_ / 262144 % 32 = d' ∧ n_ / 4096 % 64 = a' ∧ n_ / 64 % 64 = b' ∧ n_ / 8 % 8 = p' ∧ n_ / 4 % 2 = f' ∧ n_ % 4 = r' := by
    intros; refine ⟨?_, ?_, ?_, ?_, ?_, ?_, ?_, ?_, ?_⟩ <;> omega
  refine decode_of_raw cl (.vadd w d a b p f r) sync hold (key w.toNat w.isLt d.toNat d.isLt a.toNat a.isLt b.toNat b.isLt p.toNat p.isLt f.toNat f.isLt r.toNat r.isLt 0 _ rfl).1 ?_ h
  intro k_ _
  obtain ⟨_, f0, f1, f2, f3, f4, f5, f6, f7⟩ := key w.toNat w.isLt d.toNat d.isLt a.toNat a.isLt b.toNat b.isLt p.toNat p.isLt f.toNat f.isLt r.toNat r.isLt k_ _ rfl
  change rawDecode cl (33554432 + w.toNat * 8388608 + d.toNat * 262144 + a.toNat * 4096 + b.toNat * 64 + p.toNat * 8 + f.toNat * 4 + r.toNat + k_ * 1073741824) = _
  generalize (33554432 + w.toNat * 8388608 + d.toNat * 262144 + a.toNat * 4096 + b.toNat * 64 + p.toNat * 8 + f.toNat * 4 + r.toNat + k_ * 1073741824 : Nat) = n_ at *
  cases cl <;> first
    | exact Bool.noConfusion (show false = true from h)
    | (unfold rawDecode rawV; simp [f0, f1, f2, f3, f4, f5, f6, f7])

theorem RoundTrip.vsub (w : BitVec 1) (d : BitVec 5) (a : BitVec 6) (b : BitVec 6) (p : BitVec 3) (f : BitVec 1) (r : BitVec 2) : RoundTrip.Statement (.vsub w d a b p f r) := by
  intro cl sync hold h
  have key : ∀ (w' : Nat) (_ : w' < 2) (d' : Nat) (_ : d' < 32) (a' : Nat) (_ : a' < 64) (b' : Nat) (_ : b' < 64) (p' : Nat) (_ : p' < 8) (f' : Nat) (_ : f' < 2) (r' : Nat) (_ : r' < 4) (k_ n_ : Nat), n_ = 50331648 + w' * 8388608 + d' * 262144 + a' * 4096 + b' * 64 + p' * 8 + f' * 4 + r' + k_ * 1073741824 →
      50331648 + w' * 8388608 + d' * 262144 + a' * 4096 + b' * 64 + p' * 8 + f' * 4 + r' < 1073741824 ∧ n_ / 16777216 % 64 = 3 ∧ n_ / 8388608 % 2 = w' ∧ n_ / 262144 % 32 = d' ∧ n_ / 4096 % 64 = a' ∧ n_ / 64 % 64 = b' ∧ n_ / 8 % 8 = p' ∧ n_ / 4 % 2 = f' ∧ n_ % 4 = r' := by
    intros; refine ⟨?_, ?_, ?_, ?_, ?_, ?_, ?_, ?_, ?_⟩ <;> omega
  refine decode_of_raw cl (.vsub w d a b p f r) sync hold (key w.toNat w.isLt d.toNat d.isLt a.toNat a.isLt b.toNat b.isLt p.toNat p.isLt f.toNat f.isLt r.toNat r.isLt 0 _ rfl).1 ?_ h
  intro k_ _
  obtain ⟨_, f0, f1, f2, f3, f4, f5, f6, f7⟩ := key w.toNat w.isLt d.toNat d.isLt a.toNat a.isLt b.toNat b.isLt p.toNat p.isLt f.toNat f.isLt r.toNat r.isLt k_ _ rfl
  change rawDecode cl (50331648 + w.toNat * 8388608 + d.toNat * 262144 + a.toNat * 4096 + b.toNat * 64 + p.toNat * 8 + f.toNat * 4 + r.toNat + k_ * 1073741824) = _
  generalize (50331648 + w.toNat * 8388608 + d.toNat * 262144 + a.toNat * 4096 + b.toNat * 64 + p.toNat * 8 + f.toNat * 4 + r.toNat + k_ * 1073741824 : Nat) = n_ at *
  cases cl <;> first
    | exact Bool.noConfusion (show false = true from h)
    | (unfold rawDecode rawV; simp [f0, f1, f2, f3, f4, f5, f6, f7])

theorem RoundTrip.vmul (w : BitVec 1) (d : BitVec 5) (a : BitVec 6) (b : BitVec 6) (p : BitVec 3) (f : BitVec 1) (r : BitVec 2) : RoundTrip.Statement (.vmul w d a b p f r) := by
  intro cl sync hold h
  have key : ∀ (w' : Nat) (_ : w' < 2) (d' : Nat) (_ : d' < 32) (a' : Nat) (_ : a' < 64) (b' : Nat) (_ : b' < 64) (p' : Nat) (_ : p' < 8) (f' : Nat) (_ : f' < 2) (r' : Nat) (_ : r' < 4) (k_ n_ : Nat), n_ = 67108864 + w' * 8388608 + d' * 262144 + a' * 4096 + b' * 64 + p' * 8 + f' * 4 + r' + k_ * 1073741824 →
      67108864 + w' * 8388608 + d' * 262144 + a' * 4096 + b' * 64 + p' * 8 + f' * 4 + r' < 1073741824 ∧ n_ / 16777216 % 64 = 4 ∧ n_ / 8388608 % 2 = w' ∧ n_ / 262144 % 32 = d' ∧ n_ / 4096 % 64 = a' ∧ n_ / 64 % 64 = b' ∧ n_ / 8 % 8 = p' ∧ n_ / 4 % 2 = f' ∧ n_ % 4 = r' := by
    intros; refine ⟨?_, ?_, ?_, ?_, ?_, ?_, ?_, ?_, ?_⟩ <;> omega
  refine decode_of_raw cl (.vmul w d a b p f r) sync hold (key w.toNat w.isLt d.toNat d.isLt a.toNat a.isLt b.toNat b.isLt p.toNat p.isLt f.toNat f.isLt r.toNat r.isLt 0 _ rfl).1 ?_ h
  intro k_ _
  obtain ⟨_, f0, f1, f2, f3, f4, f5, f6, f7⟩ := key w.toNat w.isLt d.toNat d.isLt a.toNat a.isLt b.toNat b.isLt p.toNat p.isLt f.toNat f.isLt r.toNat r.isLt k_ _ rfl
  change rawDecode cl (67108864 + w.toNat * 8388608 + d.toNat * 262144 + a.toNat * 4096 + b.toNat * 64 + p.toNat * 8 + f.toNat * 4 + r.toNat + k_ * 1073741824) = _
  generalize (67108864 + w.toNat * 8388608 + d.toNat * 262144 + a.toNat * 4096 + b.toNat * 64 + p.toNat * 8 + f.toNat * 4 + r.toNat + k_ * 1073741824 : Nat) = n_ at *
  cases cl <;> first
    | exact Bool.noConfusion (show false = true from h)
    | (unfold rawDecode rawV; simp [f0, f1, f2, f3, f4, f5, f6, f7])

theorem RoundTrip.vfma (w : BitVec 1) (d : BitVec 5) (a : BitVec 6) (b : BitVec 6) (p : BitVec 3) (f : BitVec 1) (r : BitVec 2) : RoundTrip.Statement (.vfma w d a b p f r) := by
  intro cl sync hold h
  have key : ∀ (w' : Nat) (_ : w' < 2) (d' : Nat) (_ : d' < 32) (a' : Nat) (_ : a' < 64) (b' : Nat) (_ : b' < 64) (p' : Nat) (_ : p' < 8) (f' : Nat) (_ : f' < 2) (r' : Nat) (_ : r' < 4) (k_ n_ : Nat), n_ = 83886080 + w' * 8388608 + d' * 262144 + a' * 4096 + b' * 64 + p' * 8 + f' * 4 + r' + k_ * 1073741824 →
      83886080 + w' * 8388608 + d' * 262144 + a' * 4096 + b' * 64 + p' * 8 + f' * 4 + r' < 1073741824 ∧ n_ / 16777216 % 64 = 5 ∧ n_ / 8388608 % 2 = w' ∧ n_ / 262144 % 32 = d' ∧ n_ / 4096 % 64 = a' ∧ n_ / 64 % 64 = b' ∧ n_ / 8 % 8 = p' ∧ n_ / 4 % 2 = f' ∧ n_ % 4 = r' := by
    intros; refine ⟨?_, ?_, ?_, ?_, ?_, ?_, ?_, ?_, ?_⟩ <;> omega
  refine decode_of_raw cl (.vfma w d a b p f r) sync hold (key w.toNat w.isLt d.toNat d.isLt a.toNat a.isLt b.toNat b.isLt p.toNat p.isLt f.toNat f.isLt r.toNat r.isLt 0 _ rfl).1 ?_ h
  intro k_ _
  obtain ⟨_, f0, f1, f2, f3, f4, f5, f6, f7⟩ := key w.toNat w.isLt d.toNat d.isLt a.toNat a.isLt b.toNat b.isLt p.toNat p.isLt f.toNat f.isLt r.toNat r.isLt k_ _ rfl
  change rawDecode cl (83886080 + w.toNat * 8388608 + d.toNat * 262144 + a.toNat * 4096 + b.toNat * 64 + p.toNat * 8 + f.toNat * 4 + r.toNat + k_ * 1073741824) = _
  generalize (83886080 + w.toNat * 8388608 + d.toNat * 262144 + a.toNat * 4096 + b.toNat * 64 + p.toNat * 8 + f.toNat * 4 + r.toNat + k_ * 1073741824 : Nat) = n_ at *
  cases cl <;> first
    | exact Bool.noConfusion (show false = true from h)
    | (unfold rawDecode rawV; simp [f0, f1, f2, f3, f4, f5, f6, f7])

theorem RoundTrip.vfms (w : BitVec 1) (d : BitVec 5) (a : BitVec 6) (b : BitVec 6) (p : BitVec 3) (f : BitVec 1) (r : BitVec 2) : RoundTrip.Statement (.vfms w d a b p f r) := by
  intro cl sync hold h
  have key : ∀ (w' : Nat) (_ : w' < 2) (d' : Nat) (_ : d' < 32) (a' : Nat) (_ : a' < 64) (b' : Nat) (_ : b' < 64) (p' : Nat) (_ : p' < 8) (f' : Nat) (_ : f' < 2) (r' : Nat) (_ : r' < 4) (k_ n_ : Nat), n_ = 100663296 + w' * 8388608 + d' * 262144 + a' * 4096 + b' * 64 + p' * 8 + f' * 4 + r' + k_ * 1073741824 →
      100663296 + w' * 8388608 + d' * 262144 + a' * 4096 + b' * 64 + p' * 8 + f' * 4 + r' < 1073741824 ∧ n_ / 16777216 % 64 = 6 ∧ n_ / 8388608 % 2 = w' ∧ n_ / 262144 % 32 = d' ∧ n_ / 4096 % 64 = a' ∧ n_ / 64 % 64 = b' ∧ n_ / 8 % 8 = p' ∧ n_ / 4 % 2 = f' ∧ n_ % 4 = r' := by
    intros; refine ⟨?_, ?_, ?_, ?_, ?_, ?_, ?_, ?_, ?_⟩ <;> omega
  refine decode_of_raw cl (.vfms w d a b p f r) sync hold (key w.toNat w.isLt d.toNat d.isLt a.toNat a.isLt b.toNat b.isLt p.toNat p.isLt f.toNat f.isLt r.toNat r.isLt 0 _ rfl).1 ?_ h
  intro k_ _
  obtain ⟨_, f0, f1, f2, f3, f4, f5, f6, f7⟩ := key w.toNat w.isLt d.toNat d.isLt a.toNat a.isLt b.toNat b.isLt p.toNat p.isLt f.toNat f.isLt r.toNat r.isLt k_ _ rfl
  change rawDecode cl (100663296 + w.toNat * 8388608 + d.toNat * 262144 + a.toNat * 4096 + b.toNat * 64 + p.toNat * 8 + f.toNat * 4 + r.toNat + k_ * 1073741824) = _
  generalize (100663296 + w.toNat * 8388608 + d.toNat * 262144 + a.toNat * 4096 + b.toNat * 64 + p.toNat * 8 + f.toNat * 4 + r.toNat + k_ * 1073741824 : Nat) = n_ at *
  cases cl <;> first
    | exact Bool.noConfusion (show false = true from h)
    | (unfold rawDecode rawV; simp [f0, f1, f2, f3, f4, f5, f6, f7])

theorem RoundTrip.vnfma (w : BitVec 1) (d : BitVec 5) (a : BitVec 6) (b : BitVec 6) (p : BitVec 3) (f : BitVec 1) (r : BitVec 2) : RoundTrip.Statement (.vnfma w d a b p f r) := by
  intro cl sync hold h
  have key : ∀ (w' : Nat) (_ : w' < 2) (d' : Nat) (_ : d' < 32) (a' : Nat) (_ : a' < 64) (b' : Nat) (_ : b' < 64) (p' : Nat) (_ : p' < 8) (f' : Nat) (_ : f' < 2) (r' : Nat) (_ : r' < 4) (k_ n_ : Nat), n_ = 117440512 + w' * 8388608 + d' * 262144 + a' * 4096 + b' * 64 + p' * 8 + f' * 4 + r' + k_ * 1073741824 →
      117440512 + w' * 8388608 + d' * 262144 + a' * 4096 + b' * 64 + p' * 8 + f' * 4 + r' < 1073741824 ∧ n_ / 16777216 % 64 = 7 ∧ n_ / 8388608 % 2 = w' ∧ n_ / 262144 % 32 = d' ∧ n_ / 4096 % 64 = a' ∧ n_ / 64 % 64 = b' ∧ n_ / 8 % 8 = p' ∧ n_ / 4 % 2 = f' ∧ n_ % 4 = r' := by
    intros; refine ⟨?_, ?_, ?_, ?_, ?_, ?_, ?_, ?_, ?_⟩ <;> omega
  refine decode_of_raw cl (.vnfma w d a b p f r) sync hold (key w.toNat w.isLt d.toNat d.isLt a.toNat a.isLt b.toNat b.isLt p.toNat p.isLt f.toNat f.isLt r.toNat r.isLt 0 _ rfl).1 ?_ h
  intro k_ _
  obtain ⟨_, f0, f1, f2, f3, f4, f5, f6, f7⟩ := key w.toNat w.isLt d.toNat d.isLt a.toNat a.isLt b.toNat b.isLt p.toNat p.isLt f.toNat f.isLt r.toNat r.isLt k_ _ rfl
  change rawDecode cl (117440512 + w.toNat * 8388608 + d.toNat * 262144 + a.toNat * 4096 + b.toNat * 64 + p.toNat * 8 + f.toNat * 4 + r.toNat + k_ * 1073741824) = _
  generalize (117440512 + w.toNat * 8388608 + d.toNat * 262144 + a.toNat * 4096 + b.toNat * 64 + p.toNat * 8 + f.toNat * 4 + r.toNat + k_ * 1073741824 : Nat) = n_ at *
  cases cl <;> first
    | exact Bool.noConfusion (show false = true from h)
    | (unfold rawDecode rawV; simp [f0, f1, f2, f3, f4, f5, f6, f7])

theorem RoundTrip.vmin (w : BitVec 1) (d : BitVec 5) (a : BitVec 6) (b : BitVec 6) (p : BitVec 3) (f : BitVec 1) (r : BitVec 2) : RoundTrip.Statement (.vmin w d a b p f r) := by
  intro cl sync hold h
  have key : ∀ (w' : Nat) (_ : w' < 2) (d' : Nat) (_ : d' < 32) (a' : Nat) (_ : a' < 64) (b' : Nat) (_ : b' < 64) (p' : Nat) (_ : p' < 8) (f' : Nat) (_ : f' < 2) (r' : Nat) (_ : r' < 4) (k_ n_ : Nat), n_ = 134217728 + w' * 8388608 + d' * 262144 + a' * 4096 + b' * 64 + p' * 8 + f' * 4 + r' + k_ * 1073741824 →
      134217728 + w' * 8388608 + d' * 262144 + a' * 4096 + b' * 64 + p' * 8 + f' * 4 + r' < 1073741824 ∧ n_ / 16777216 % 64 = 8 ∧ n_ / 8388608 % 2 = w' ∧ n_ / 262144 % 32 = d' ∧ n_ / 4096 % 64 = a' ∧ n_ / 64 % 64 = b' ∧ n_ / 8 % 8 = p' ∧ n_ / 4 % 2 = f' ∧ n_ % 4 = r' := by
    intros; refine ⟨?_, ?_, ?_, ?_, ?_, ?_, ?_, ?_, ?_⟩ <;> omega
  refine decode_of_raw cl (.vmin w d a b p f r) sync hold (key w.toNat w.isLt d.toNat d.isLt a.toNat a.isLt b.toNat b.isLt p.toNat p.isLt f.toNat f.isLt r.toNat r.isLt 0 _ rfl).1 ?_ h
  intro k_ _
  obtain ⟨_, f0, f1, f2, f3, f4, f5, f6, f7⟩ := key w.toNat w.isLt d.toNat d.isLt a.toNat a.isLt b.toNat b.isLt p.toNat p.isLt f.toNat f.isLt r.toNat r.isLt k_ _ rfl
  change rawDecode cl (134217728 + w.toNat * 8388608 + d.toNat * 262144 + a.toNat * 4096 + b.toNat * 64 + p.toNat * 8 + f.toNat * 4 + r.toNat + k_ * 1073741824) = _
  generalize (134217728 + w.toNat * 8388608 + d.toNat * 262144 + a.toNat * 4096 + b.toNat * 64 + p.toNat * 8 + f.toNat * 4 + r.toNat + k_ * 1073741824 : Nat) = n_ at *
  cases cl <;> first
    | exact Bool.noConfusion (show false = true from h)
    | (unfold rawDecode rawV; simp [f0, f1, f2, f3, f4, f5, f6, f7])

theorem RoundTrip.vmax (w : BitVec 1) (d : BitVec 5) (a : BitVec 6) (b : BitVec 6) (p : BitVec 3) (f : BitVec 1) (r : BitVec 2) : RoundTrip.Statement (.vmax w d a b p f r) := by
  intro cl sync hold h
  have key : ∀ (w' : Nat) (_ : w' < 2) (d' : Nat) (_ : d' < 32) (a' : Nat) (_ : a' < 64) (b' : Nat) (_ : b' < 64) (p' : Nat) (_ : p' < 8) (f' : Nat) (_ : f' < 2) (r' : Nat) (_ : r' < 4) (k_ n_ : Nat), n_ = 150994944 + w' * 8388608 + d' * 262144 + a' * 4096 + b' * 64 + p' * 8 + f' * 4 + r' + k_ * 1073741824 →
      150994944 + w' * 8388608 + d' * 262144 + a' * 4096 + b' * 64 + p' * 8 + f' * 4 + r' < 1073741824 ∧ n_ / 16777216 % 64 = 9 ∧ n_ / 8388608 % 2 = w' ∧ n_ / 262144 % 32 = d' ∧ n_ / 4096 % 64 = a' ∧ n_ / 64 % 64 = b' ∧ n_ / 8 % 8 = p' ∧ n_ / 4 % 2 = f' ∧ n_ % 4 = r' := by
    intros; refine ⟨?_, ?_, ?_, ?_, ?_, ?_, ?_, ?_, ?_⟩ <;> omega
  refine decode_of_raw cl (.vmax w d a b p f r) sync hold (key w.toNat w.isLt d.toNat d.isLt a.toNat a.isLt b.toNat b.isLt p.toNat p.isLt f.toNat f.isLt r.toNat r.isLt 0 _ rfl).1 ?_ h
  intro k_ _
  obtain ⟨_, f0, f1, f2, f3, f4, f5, f6, f7⟩ := key w.toNat w.isLt d.toNat d.isLt a.toNat a.isLt b.toNat b.isLt p.toNat p.isLt f.toNat f.isLt r.toNat r.isLt k_ _ rfl
  change rawDecode cl (150994944 + w.toNat * 8388608 + d.toNat * 262144 + a.toNat * 4096 + b.toNat * 64 + p.toNat * 8 + f.toNat * 4 + r.toNat + k_ * 1073741824) = _
  generalize (150994944 + w.toNat * 8388608 + d.toNat * 262144 + a.toNat * 4096 + b.toNat * 64 + p.toNat * 8 + f.toNat * 4 + r.toNat + k_ * 1073741824 : Nat) = n_ at *
  cases cl <;> first
    | exact Bool.noConfusion (show false = true from h)
    | (unfold rawDecode rawV; simp [f0, f1, f2, f3, f4, f5, f6, f7])

theorem RoundTrip.vminm (w : BitVec 1) (d : BitVec 5) (a : BitVec 6) (b : BitVec 6) (p : BitVec 3) (f : BitVec 1) (r : BitVec 2) : RoundTrip.Statement (.vminm w d a b p f r) := by
  intro cl sync hold h
  have key : ∀ (w' : Nat) (_ : w' < 2) (d' : Nat) (_ : d' < 32) (a' : Nat) (_ : a' < 64) (b' : Nat) (_ : b' < 64) (p' : Nat) (_ : p' < 8) (f' : Nat) (_ : f' < 2) (r' : Nat) (_ : r' < 4) (k_ n_ : Nat), n_ = 167772160 + w' * 8388608 + d' * 262144 + a' * 4096 + b' * 64 + p' * 8 + f' * 4 + r' + k_ * 1073741824 →
      167772160 + w' * 8388608 + d' * 262144 + a' * 4096 + b' * 64 + p' * 8 + f' * 4 + r' < 1073741824 ∧ n_ / 16777216 % 64 = 10 ∧ n_ / 8388608 % 2 = w' ∧ n_ / 262144 % 32 = d' ∧ n_ / 4096 % 64 = a' ∧ n_ / 64 % 64 = b' ∧ n_ / 8 % 8 = p' ∧ n_ / 4 % 2 = f' ∧ n_ % 4 = r' := by
    intros; refine ⟨?_, ?_, ?_, ?_, ?_, ?_, ?_, ?_, ?_⟩ <;> omega
  refine decode_of_raw cl (.vminm w d a b p f r) sync hold (key w.toNat w.isLt d.toNat d.isLt a.toNat a.isLt b.toNat b.isLt p.toNat p.isLt f.toNat f.isLt r.toNat r.isLt 0 _ rfl).1 ?_ h
  intro k_ _
  obtain ⟨_, f0, f1, f2, f3, f4, f5, f6, f7⟩ := key w.toNat w.isLt d.toNat d.isLt a.toNat a.isLt b.toNat b.isLt p.toNat p.isLt f.toNat f.isLt r.toNat r.isLt k_ _ rfl
  change rawDecode cl (167772160 + w.toNat * 8388608 + d.toNat * 262144 + a.toNat * 4096 + b.toNat * 64 + p.toNat * 8 + f.toNat * 4 + r.toNat + k_ * 1073741824) = _
  generalize (167772160 + w.toNat * 8388608 + d.toNat * 262144 + a.toNat * 4096 + b.toNat * 64 + p.toNat * 8 + f.toNat * 4 + r.toNat + k_ * 1073741824 : Nat) = n_ at *
  cases cl <;> first
    | exact Bool.noConfusion (show false = true from h)
    | (unfold rawDecode rawV; simp [f0, f1, f2, f3, f4, f5, f6, f7])

theorem RoundTrip.vmaxm (w : BitVec 1) (d : BitVec 5) (a : BitVec 6) (b : BitVec 6) (p : BitVec 3) (f : BitVec 1) (r : BitVec 2) : RoundTrip.Statement (.vmaxm w d a b p f r) := by
  intro cl sync hold h
  have key : ∀ (w' : Nat) (_ : w' < 2) (d' : Nat) (_ : d' < 32) (a' : Nat) (_ : a' < 64) (b' : Nat) (_ : b' < 64) (p' : Nat) (_ : p' < 8) (f' : Nat) (_ : f' < 2) (r' : Nat) (_ : r' < 4) (k_ n_ : Nat), n_ = 184549376 + w' * 8388608 + d' * 262144 + a' * 4096 + b' * 64 + p' * 8 + f' * 4 + r' + k_ * 1073741824 →
      184549376 + w' * 8388608 + d' * 262144 + a' * 4096 + b' * 64 + p' * 8 + f' * 4 + r' < 1073741824 ∧ n_ / 16777216 % 64 = 11 ∧ n_ / 8388608 % 2 = w' ∧ n_ / 262144 % 32 = d' ∧ n_ / 4096 % 64 = a' ∧ n_ / 64 % 64 = b' ∧ n_ / 8 % 8 = p' ∧ n_ / 4 % 2 = f' ∧ n_ % 4 = r' := by
    intros; refine ⟨?_, ?_, ?_, ?_, ?_, ?_, ?_, ?_, ?_⟩ <;> omega
  refine decode_of_raw cl (.vmaxm w d a b p f r) sync hold (key w.toNat w.isLt d.toNat d.isLt a.toNat a.isLt b.toNat b.isLt p.toNat p.isLt f.toNat f.isLt r.toNat r.isLt 0 _ rfl).1 ?_ h
  intro k_ _
  obtain ⟨_, f0, f1, f2, f3, f4, f5, f6, f7⟩ := key w.toNat w.isLt d.toNat d.isLt a.toNat a.isLt b.toNat b.isLt p.toNat p.isLt f.toNat f.isLt r.toNat r.isLt k_ _ rfl
  change rawDecode cl (184549376 + w.toNat * 8388608 + d.toNat * 262144 + a.toNat * 4096 + b.toNat * 64 + p.toNat * 8 + f.toNat * 4 + r.toNat + k_ * 1073741824) = _
  generalize (184549376 + w.toNat * 8388608 + d.toNat * 262144 + a.toNat * 4096 + b.toNat * 64 + p.toNat * 8 + f.toNat * 4 + r.toNat + k_ * 1073741824 : Nat) = n_ at *
  cases cl <;> first
    | exact Bool.noConfusion (show false = true from h)
    | (unfold rawDecode rawV; simp [f0, f1, f2, f3, f4, f5, f6, f7])

theorem RoundTrip.vabs (w : BitVec 1) (d : BitVec 5) (a : BitVec 6) (p : BitVec 3) (f : BitVec 1) (r : BitVec 2) : RoundTrip.Statement (.vabs w d a p f r) := by
  intro cl sync hold h
  have key : ∀ (w' : Nat) (_ : w' < 2) (d' : Nat) (_ : d' < 32) (a' : Nat) (_ : a' < 64) (p' : Nat) (_ : p' < 8) (f' : Nat) (_ : f' < 2) (r' : Nat) (_ : r' < 4) (k_ n_ : Nat), n_ = 201326592 + w' * 8388608 + d' * 262144 + a' * 4096 + p' * 8 + f' * 4 + r' + k_ * 1073741824 →
      201326592 + w' * 8388608 + d' * 262144 + a' * 4096 + p' * 8 + f' * 4 + r' < 1073741824 ∧ n_ / 16777216 % 64 = 12 ∧ n_ / 64 % 64 = 0 ∧ n_ / 8388608 % 2 = w' ∧ n_ / 262144 % 32 = d' ∧ n_ / 4096 % 64 = a' ∧ n_ / 8 % 8 = p' ∧ n_ / 4 % 2 = f' ∧ n_ % 4 = r' := by
    intros; refine ⟨?_, ?_, ?_, ?_, ?_, ?_, ?_, ?_, ?_⟩ <;> omega
  refine decode_of_raw cl (.vabs w d a p f r) sync hold (key w.toNat w.isLt d.toNat d.isLt a.toNat a.isLt p.toNat p.isLt f.toNat f.isLt r.toNat r.isLt 0 _ rfl).1 ?_ h
  intro k_ _
  obtain ⟨_, f0, f1, f2, f3, f4, f5, f6, f7⟩ := key w.toNat w.isLt d.toNat d.isLt a.toNat a.isLt p.toNat p.isLt f.toNat f.isLt r.toNat r.isLt k_ _ rfl
  change rawDecode cl (201326592 + w.toNat * 8388608 + d.toNat * 262144 + a.toNat * 4096 + p.toNat * 8 + f.toNat * 4 + r.toNat + k_ * 1073741824) = _
  generalize (201326592 + w.toNat * 8388608 + d.toNat * 262144 + a.toNat * 4096 + p.toNat * 8 + f.toNat * 4 + r.toNat + k_ * 1073741824 : Nat) = n_ at *
  cases cl <;> first
    | exact Bool.noConfusion (show false = true from h)
    | (unfold rawDecode rawV; simp [f0, f1, f2, f3, f4, f5, f6, f7])

theorem RoundTrip.vneg (w : BitVec 1) (d : BitVec 5) (a : BitVec 6) (p : BitVec 3) (f : BitVec 1) (r : BitVec 2) : RoundTrip.Statement (.vneg w d a p f r) := by
  intro cl sync hold h
  have key : ∀ (w' : Nat) (_ : w' < 2) (d' : Nat) (_ : d' < 32) (a' : Nat) (_ : a' < 64) (p' : Nat) (_ : p' < 8) (f' : Nat) (_ : f' < 2) (r' : Nat) (_ : r' < 4) (k_ n_ : Nat), n_ = 201326656 + w' * 8388608 + d' * 262144 + a' * 4096 + p' * 8 + f' * 4 + r' + k_ * 1073741824 →
      201326656 + w' * 8388608 + d' * 262144 + a' * 4096 + p' * 8 + f' * 4 + r' < 1073741824 ∧ n_ / 16777216 % 64 = 12 ∧ n_ / 64 % 64 = 1 ∧ n_ / 8388608 % 2 = w' ∧ n_ / 262144 % 32 = d' ∧ n_ / 4096 % 64 = a' ∧ n_ / 8 % 8 = p' ∧ n_ / 4 % 2 = f' ∧ n_ % 4 = r' := by
    intros; refine ⟨?_, ?_, ?_, ?_, ?_, ?_, ?_, ?_, ?_⟩ <;> omega
  refine decode_of_raw cl (.vneg w d a p f r) sync hold (key w.toNat w.isLt d.toNat d.isLt a.toNat a.isLt p.toNat p.isLt f.toNat f.isLt r.toNat r.isLt 0 _ rfl).1 ?_ h
  intro k_ _
  obtain ⟨_, f0, f1, f2, f3, f4, f5, f6, f7⟩ := key w.toNat w.isLt d.toNat d.isLt a.toNat a.isLt p.toNat p.isLt f.toNat f.isLt r.toNat r.isLt k_ _ rfl
  change rawDecode cl (201326656 + w.toNat * 8388608 + d.toNat * 262144 + a.toNat * 4096 + p.toNat * 8 + f.toNat * 4 + r.toNat + k_ * 1073741824) = _
  generalize (201326656 + w.toNat * 8388608 + d.toNat * 262144 + a.toNat * 4096 + p.toNat * 8 + f.toNat * 4 + r.toNat + k_ * 1073741824 : Nat) = n_ at *
  cases cl <;> first
    | exact Bool.noConfusion (show false = true from h)
    | (unfold rawDecode rawV; simp [f0, f1, f2, f3, f4, f5, f6, f7])

theorem RoundTrip.vand (w : BitVec 1) (d : BitVec 5) (a : BitVec 6) (b : BitVec 6) (p : BitVec 3) (f : BitVec 1) (r : BitVec 2) : RoundTrip.Statement (.vand w d a b p f r) := by
  intro cl sync hold h
  have key : ∀ (w' : Nat) (_ : w' < 2) (d' : Nat) (_ : d' < 32) (a' : Nat) (_ : a' < 64) (b' : Nat) (_ : b' < 64) (p' : Nat) (_ : p' < 8) (f' : Nat) (_ : f' < 2) (r' : Nat) (_ : r' < 4) (k_ n_ : Nat), n_ = 218103808 + w' * 8388608 + d' * 262144 + a' * 4096 + b' * 64 + p' * 8 + f' * 4 + r' + k_ * 1073741824 →
      218103808 + w' * 8388608 + d' * 262144 + a' * 4096 + b' * 64 + p' * 8 + f' * 4 + r' < 1073741824 ∧ n_ / 16777216 % 64 = 13 ∧ n_ / 8388608 % 2 = w' ∧ n_ / 262144 % 32 = d' ∧ n_ / 4096 % 64 = a' ∧ n_ / 64 % 64 = b' ∧ n_ / 8 % 8 = p' ∧ n_ / 4 % 2 = f' ∧ n_ % 4 = r' := by
    intros; refine ⟨?_, ?_, ?_, ?_, ?_, ?_, ?_, ?_, ?_⟩ <;> omega
  refine decode_of_raw cl (.vand w d a b p f r) sync hold (key w.toNat w.isLt d.toNat d.isLt a.toNat a.isLt b.toNat b.isLt p.toNat p.isLt f.toNat f.isLt r.toNat r.isLt 0 _ rfl).1 ?_ h
  intro k_ _
  obtain ⟨_, f0, f1, f2, f3, f4, f5, f6, f7⟩ := key w.toNat w.isLt d.toNat d.isLt a.toNat a.isLt b.toNat b.isLt p.toNat p.isLt f.toNat f.isLt r.toNat r.isLt k_ _ rfl
  change rawDecode cl (218103808 + w.toNat * 8388608 + d.toNat * 262144 + a.toNat * 4096 + b.toNat * 64 + p.toNat * 8 + f.toNat * 4 + r.toNat + k_ * 1073741824) = _
  generalize (218103808 + w.toNat * 8388608 + d.toNat * 262144 + a.toNat * 4096 + b.toNat * 64 + p.toNat * 8 + f.toNat * 4 + r.toNat + k_ * 1073741824 : Nat) = n_ at *
  cases cl <;> first
    | exact Bool.noConfusion (show false = true from h)
    | (unfold rawDecode rawV; simp [f0, f1, f2, f3, f4, f5, f6, f7])

theorem RoundTrip.vor (w : BitVec 1) (d : BitVec 5) (a : BitVec 6) (b : BitVec 6) (p : BitVec 3) (f : BitVec 1) (r : BitVec 2) : RoundTrip.Statement (.vor w d a b p f r) := by
  intro cl sync hold h
  have key : ∀ (w' : Nat) (_ : w' < 2) (d' : Nat) (_ : d' < 32) (a' : Nat) (_ : a' < 64) (b' : Nat) (_ : b' < 64) (p' : Nat) (_ : p' < 8) (f' : Nat) (_ : f' < 2) (r' : Nat) (_ : r' < 4) (k_ n_ : Nat), n_ = 234881024 + w' * 8388608 + d' * 262144 + a' * 4096 + b' * 64 + p' * 8 + f' * 4 + r' + k_ * 1073741824 →
      234881024 + w' * 8388608 + d' * 262144 + a' * 4096 + b' * 64 + p' * 8 + f' * 4 + r' < 1073741824 ∧ n_ / 16777216 % 64 = 14 ∧ n_ / 8388608 % 2 = w' ∧ n_ / 262144 % 32 = d' ∧ n_ / 4096 % 64 = a' ∧ n_ / 64 % 64 = b' ∧ n_ / 8 % 8 = p' ∧ n_ / 4 % 2 = f' ∧ n_ % 4 = r' := by
    intros; refine ⟨?_, ?_, ?_, ?_, ?_, ?_, ?_, ?_, ?_⟩ <;> omega
  refine decode_of_raw cl (.vor w d a b p f r) sync hold (key w.toNat w.isLt d.toNat d.isLt a.toNat a.isLt b.toNat b.isLt p.toNat p.isLt f.toNat f.isLt r.toNat r.isLt 0 _ rfl).1 ?_ h
  intro k_ _
  obtain ⟨_, f0, f1, f2, f3, f4, f5, f6, f7⟩ := key w.toNat w.isLt d.toNat d.isLt a.toNat a.isLt b.toNat b.isLt p.toNat p.isLt f.toNat f.isLt r.toNat r.isLt k_ _ rfl
  change rawDecode cl (234881024 + w.toNat * 8388608 + d.toNat * 262144 + a.toNat * 4096 + b.toNat * 64 + p.toNat * 8 + f.toNat * 4 + r.toNat + k_ * 1073741824) = _
  generalize (234881024 + w.toNat * 8388608 + d.toNat * 262144 + a.toNat * 4096 + b.toNat * 64 + p.toNat * 8 + f.toNat * 4 + r.toNat + k_ * 1073741824 : Nat) = n_ at *
  cases cl <;> first
    | exact Bool.noConfusion (show false = true from h)
    | (unfold rawDecode rawV; simp [f0, f1, f2, f3, f4, f5, f6, f7])

theorem RoundTrip.vxor (w : BitVec 1) (d : BitVec 5) (a : BitVec 6) (b : BitVec 6) (p : BitVec 3) (f : BitVec 1) (r : BitVec 2) : RoundTrip.Statement (.vxor w d a b p f r) := by
  intro cl sync hold h
  have key : ∀ (w' : Nat) (_ : w' < 2) (d' : Nat) (_ : d' < 32) (a' : Nat) (_ : a' < 64) (b' : Nat) (_ : b' < 64) (p' : Nat) (_ : p' < 8) (f' : Nat) (_ : f' < 2) (r' : Nat) (_ : r' < 4) (k_ n_ : Nat), n_ = 251658240 + w' * 8388608 + d' * 262144 + a' * 4096 + b' * 64 + p' * 8 + f' * 4 + r' + k_ * 1073741824 →
      251658240 + w' * 8388608 + d' * 262144 + a' * 4096 + b' * 64 + p' * 8 + f' * 4 + r' < 1073741824 ∧ n_ / 16777216 % 64 = 15 ∧ n_ / 8388608 % 2 = w' ∧ n_ / 262144 % 32 = d' ∧ n_ / 4096 % 64 = a' ∧ n_ / 64 % 64 = b' ∧ n_ / 8 % 8 = p' ∧ n_ / 4 % 2 = f' ∧ n_ % 4 = r' := by
    intros; refine ⟨?_, ?_, ?_, ?_, ?_, ?_, ?_, ?_, ?_⟩ <;> omega
  refine decode_of_raw cl (.vxor w d a b p f r) sync hold (key w.toNat w.isLt d.toNat d.isLt a.toNat a.isLt b.toNat b.isLt p.toNat p.isLt f.toNat f.isLt r.toNat r.isLt 0 _ rfl).1 ?_ h
  intro k_ _
  obtain ⟨_, f0, f1, f2, f3, f4, f5, f6, f7⟩ := key w.toNat w.isLt d.toNat d.isLt a.toNat a.isLt b.toNat b.isLt p.toNat p.isLt f.toNat f.isLt r.toNat r.isLt k_ _ rfl
  change rawDecode cl (251658240 + w.toNat * 8388608 + d.toNat * 262144 + a.toNat * 4096 + b.toNat * 64 + p.toNat * 8 + f.toNat * 4 + r.toNat + k_ * 1073741824) = _
  generalize (251658240 + w.toNat * 8388608 + d.toNat * 262144 + a.toNat * 4096 + b.toNat * 64 + p.toNat * 8 + f.toNat * 4 + r.toNat + k_ * 1073741824 : Nat) = n_ at *
  cases cl <;> first
    | exact Bool.noConfusion (show false = true from h)
    | (unfold rawDecode rawV; simp [f0, f1, f2, f3, f4, f5, f6, f7])

theorem RoundTrip.vshl (w : BitVec 1) (d : BitVec 5) (a : BitVec 6) (b : BitVec 6) (p : BitVec 3) (f : BitVec 1) (r : BitVec 2) : RoundTrip.Statement (.vshl w d a b p f r) := by
  intro cl sync hold h
  have key : ∀ (w' : Nat) (_ : w' < 2) (d' : Nat) (_ : d' < 32) (a' : Nat) (_ : a' < 64) (b' : Nat) (_ : b' < 64) (p' : Nat) (_ : p' < 8) (f' : Nat) (_ : f' < 2) (r' : Nat) (_ : r' < 4) (k_ n_ : Nat), n_ = 268435456 + w' * 8388608 + d' * 262144 + a' * 4096 + b' * 64 + p' * 8 + f' * 4 + r' + k_ * 1073741824 →
      268435456 + w' * 8388608 + d' * 262144 + a' * 4096 + b' * 64 + p' * 8 + f' * 4 + r' < 1073741824 ∧ n_ / 16777216 % 64 = 16 ∧ n_ / 8388608 % 2 = w' ∧ n_ / 262144 % 32 = d' ∧ n_ / 4096 % 64 = a' ∧ n_ / 64 % 64 = b' ∧ n_ / 8 % 8 = p' ∧ n_ / 4 % 2 = f' ∧ n_ % 4 = r' := by
    intros; refine ⟨?_, ?_, ?_, ?_, ?_, ?_, ?_, ?_, ?_⟩ <;> omega
  refine decode_of_raw cl (.vshl w d a b p f r) sync hold (key w.toNat w.isLt d.toNat d.isLt a.toNat a.isLt b.toNat b.isLt p.toNat p.isLt f.toNat f.isLt r.toNat r.isLt 0 _ rfl).1 ?_ h
  intro k_ _
  obtain ⟨_, f0, f1, f2, f3, f4, f5, f6, f7⟩ := key w.toNat w.isLt d.toNat d.isLt a.toNat a.isLt b.toNat b.isLt p.toNat p.isLt f.toNat f.isLt r.toNat r.isLt k_ _ rfl
  change rawDecode cl (268435456 + w.toNat * 8388608 + d.toNat * 262144 + a.toNat * 4096 + b.toNat * 64 + p.toNat * 8 + f.toNat * 4 + r.toNat + k_ * 1073741824) = _
  generalize (268435456 + w.toNat * 8388608 + d.toNat * 262144 + a.toNat * 4096 + b.toNat * 64 + p.toNat * 8 + f.toNat * 4 + r.toNat + k_ * 1073741824 : Nat) = n_ at *
  cases cl <;> first
    | exact Bool.noConfusion (show false = true from h)
    | (unfold rawDecode rawV; simp [f0, f1, f2, f3, f4, f5, f6, f7])

theorem RoundTrip.vshr (w : BitVec 1) (d : BitVec 5) (a : BitVec 6) (b : BitVec 6) (p : BitVec 3) (f : BitVec 1) (r : BitVec 2) : RoundTrip.Statement (.vshr w d a b p f r) := by
  intro cl sync hold h
  have key : ∀ (w' : Nat) (_ : w' < 2) (d' : Nat) (_ : d' < 32) (a' : Nat) (_ : a' < 64) (b' : Nat) (_ : b' < 64) (p' : Nat) (_ : p' < 8) (f' : Nat) (_ : f' < 2) (r' : Nat) (_ : r' < 4) (k_ n_ : Nat), n_ = 285212672 + w' * 8388608 + d' * 262144 + a' * 4096 + b' * 64 + p' * 8 + f' * 4 + r' + k_ * 1073741824 →
      285212672 + w' * 8388608 + d' * 262144 + a' * 4096 + b' * 64 + p' * 8 + f' * 4 + r' < 1073741824 ∧ n_ / 16777216 % 64 = 17 ∧ n_ / 8388608 % 2 = w' ∧ n_ / 262144 % 32 = d' ∧ n_ / 4096 % 64 = a' ∧ n_ / 64 % 64 = b' ∧ n_ / 8 % 8 = p' ∧ n_ / 4 % 2 = f' ∧ n_ % 4 = r' := by
    intros; refine ⟨?_, ?_, ?_, ?_, ?_, ?_, ?_, ?_, ?_⟩ <;> omega
  refine decode_of_raw cl (.vshr w d a b p f r) sync hold (key w.toNat w.isLt d.toNat d.isLt a.toNat a.isLt b.toNat b.isLt p.toNat p.isLt f.toNat f.isLt r.toNat r.isLt 0 _ rfl).1 ?_ h
  intro k_ _
  obtain ⟨_, f0, f1, f2, f3, f4, f5, f6, f7⟩ := key w.toNat w.isLt d.toNat d.isLt a.toNat a.isLt b.toNat b.isLt p.toNat p.isLt f.toNat f.isLt r.toNat r.isLt k_ _ rfl
  change rawDecode cl (285212672 + w.toNat * 8388608 + d.toNat * 262144 + a.toNat * 4096 + b.toNat * 64 + p.toNat * 8 + f.toNat * 4 + r.toNat + k_ * 1073741824) = _
  generalize (285212672 + w.toNat * 8388608 + d.toNat * 262144 + a.toNat * 4096 + b.toNat * 64 + p.toNat * 8 + f.toNat * 4 + r.toNat + k_ * 1073741824 : Nat) = n_ at *
  cases cl <;> first
    | exact Bool.noConfusion (show false = true from h)
    | (unfold rawDecode rawV; simp [f0, f1, f2, f3, f4, f5, f6, f7])

theorem RoundTrip.vsra (w : BitVec 1) (d : BitVec 5) (a : BitVec 6) (b : BitVec 6) (p : BitVec 3) (f : BitVec 1) (r : BitVec 2) : RoundTrip.Statement (.vsra w d a b p f r) := by
  intro cl sync hold h
  have key : ∀ (w' : Nat) (_ : w' < 2) (d' : Nat) (_ : d' < 32) (a' : Nat) (_ : a' < 64) (b' : Nat) (_ : b' < 64) (p' : Nat) (_ : p' < 8) (f' : Nat) (_ : f' < 2) (r' : Nat) (_ : r' < 4) (k_ n_ : Nat), n_ = 301989888 + w' * 8388608 + d' * 262144 + a' * 4096 + b' * 64 + p' * 8 + f' * 4 + r' + k_ * 1073741824 →
      301989888 + w' * 8388608 + d' * 262144 + a' * 4096 + b' * 64 + p' * 8 + f' * 4 + r' < 1073741824 ∧ n_ / 16777216 % 64 = 18 ∧ n_ / 8388608 % 2 = w' ∧ n_ / 262144 % 32 = d' ∧ n_ / 4096 % 64 = a' ∧ n_ / 64 % 64 = b' ∧ n_ / 8 % 8 = p' ∧ n_ / 4 % 2 = f' ∧ n_ % 4 = r' := by
    intros; refine ⟨?_, ?_, ?_, ?_, ?_, ?_, ?_, ?_, ?_⟩ <;> omega
  refine decode_of_raw cl (.vsra w d a b p f r) sync hold (key w.toNat w.isLt d.toNat d.isLt a.toNat a.isLt b.toNat b.isLt p.toNat p.isLt f.toNat f.isLt r.toNat r.isLt 0 _ rfl).1 ?_ h
  intro k_ _
  obtain ⟨_, f0, f1, f2, f3, f4, f5, f6, f7⟩ := key w.toNat w.isLt d.toNat d.isLt a.toNat a.isLt b.toNat b.isLt p.toNat p.isLt f.toNat f.isLt r.toNat r.isLt k_ _ rfl
  change rawDecode cl (301989888 + w.toNat * 8388608 + d.toNat * 262144 + a.toNat * 4096 + b.toNat * 64 + p.toNat * 8 + f.toNat * 4 + r.toNat + k_ * 1073741824) = _
  generalize (301989888 + w.toNat * 8388608 + d.toNat * 262144 + a.toNat * 4096 + b.toNat * 64 + p.toNat * 8 + f.toNat * 4 + r.toNat + k_ * 1073741824 : Nat) = n_ at *
  cases cl <;> first
    | exact Bool.noConfusion (show false = true from h)
    | (unfold rawDecode rawV; simp [f0, f1, f2, f3, f4, f5, f6, f7])

theorem RoundTrip.vcmp (w : BitVec 1) (d : BitVec 5) (a : BitVec 6) (b : BitVec 6) (c : BitVec 3) (f : BitVec 1) (r : BitVec 2) : RoundTrip.Statement (.vcmp w d a b c f r) := by
  intro cl sync hold h
  have key : ∀ (w' : Nat) (_ : w' < 2) (d' : Nat) (_ : d' < 32) (a' : Nat) (_ : a' < 64) (b' : Nat) (_ : b' < 64) (c' : Nat) (_ : c' < 8) (f' : Nat) (_ : f' < 2) (r' : Nat) (_ : r' < 4) (k_ n_ : Nat), n_ = 318767104 + w' * 8388608 + d' * 262144 + a' * 4096 + b' * 64 + c' * 8 + f' * 4 + r' + k_ * 1073741824 →
      318767104 + w' * 8388608 + d' * 262144 + a' * 4096 + b' * 64 + c' * 8 + f' * 4 + r' < 1073741824 ∧ n_ / 16777216 % 64 = 19 ∧ n_ / 8388608 % 2 = w' ∧ n_ / 262144 % 32 = d' ∧ n_ / 4096 % 64 = a' ∧ n_ / 64 % 64 = b' ∧ n_ / 8 % 8 = c' ∧ n_ / 4 % 2 = f' ∧ n_ % 4 = r' := by
    intros; refine ⟨?_, ?_, ?_, ?_, ?_, ?_, ?_, ?_, ?_⟩ <;> omega
  refine decode_of_raw cl (.vcmp w d a b c f r) sync hold (key w.toNat w.isLt d.toNat d.isLt a.toNat a.isLt b.toNat b.isLt c.toNat c.isLt f.toNat f.isLt r.toNat r.isLt 0 _ rfl).1 ?_ h
  intro k_ _
  obtain ⟨_, f0, f1, f2, f3, f4, f5, f6, f7⟩ := key w.toNat w.isLt d.toNat d.isLt a.toNat a.isLt b.toNat b.isLt c.toNat c.isLt f.toNat f.isLt r.toNat r.isLt k_ _ rfl
  change rawDecode cl (318767104 + w.toNat * 8388608 + d.toNat * 262144 + a.toNat * 4096 + b.toNat * 64 + c.toNat * 8 + f.toNat * 4 + r.toNat + k_ * 1073741824) = _
  generalize (318767104 + w.toNat * 8388608 + d.toNat * 262144 + a.toNat * 4096 + b.toNat * 64 + c.toNat * 8 + f.toNat * 4 + r.toNat + k_ * 1073741824 : Nat) = n_ at *
  cases cl <;> first
    | exact Bool.noConfusion (show false = true from h)
    | (unfold rawDecode rawV; simp [f0, f1, f2, f3, f4, f5, f6, f7])

theorem RoundTrip.vsel (w : BitVec 1) (d : BitVec 5) (a : BitVec 6) (b : BitVec 6) (p : BitVec 3) (f : BitVec 1) (r : BitVec 2) : RoundTrip.Statement (.vsel w d a b p f r) := by
  intro cl sync hold h
  have key : ∀ (w' : Nat) (_ : w' < 2) (d' : Nat) (_ : d' < 32) (a' : Nat) (_ : a' < 64) (b' : Nat) (_ : b' < 64) (p' : Nat) (_ : p' < 8) (f' : Nat) (_ : f' < 2) (r' : Nat) (_ : r' < 4) (k_ n_ : Nat), n_ = 335544320 + w' * 8388608 + d' * 262144 + a' * 4096 + b' * 64 + p' * 8 + f' * 4 + r' + k_ * 1073741824 →
      335544320 + w' * 8388608 + d' * 262144 + a' * 4096 + b' * 64 + p' * 8 + f' * 4 + r' < 1073741824 ∧ n_ / 16777216 % 64 = 20 ∧ n_ / 8388608 % 2 = w' ∧ n_ / 262144 % 32 = d' ∧ n_ / 4096 % 64 = a' ∧ n_ / 64 % 64 = b' ∧ n_ / 8 % 8 = p' ∧ n_ / 4 % 2 = f' ∧ n_ % 4 = r' := by
    intros; refine ⟨?_, ?_, ?_, ?_, ?_, ?_, ?_, ?_, ?_⟩ <;> omega
  refine decode_of_raw cl (.vsel w d a b p f r) sync hold (key w.toNat w.isLt d.toNat d.isLt a.toNat a.isLt b.toNat b.isLt p.toNat p.isLt f.toNat f.isLt r.toNat r.isLt 0 _ rfl).1 ?_ h
  intro k_ _
  obtain ⟨_, f0, f1, f2, f3, f4, f5, f6, f7⟩ := key w.toNat w.isLt d.toNat d.isLt a.toNat a.isLt b.toNat b.isLt p.toNat p.isLt f.toNat f.isLt r.toNat r.isLt k_ _ rfl
  change rawDecode cl (335544320 + w.toNat * 8388608 + d.toNat * 262144 + a.toNat * 4096 + b.toNat * 64 + p.toNat * 8 + f.toNat * 4 + r.toNat + k_ * 1073741824) = _
  generalize (335544320 + w.toNat * 8388608 + d.toNat * 262144 + a.toNat * 4096 + b.toNat * 64 + p.toNat * 8 + f.toNat * 4 + r.toNat + k_ * 1073741824 : Nat) = n_ at *
  cases cl <;> first
    | exact Bool.noConfusion (show false = true from h)
    | (unfold rawDecode rawV; simp [f0, f1, f2, f3, f4, f5, f6, f7])

theorem RoundTrip.vcvt (w : BitVec 1) (d : BitVec 5) (a : BitVec 6) (t : BitVec 4) (p : BitVec 3) (f : BitVec 1) (r : BitVec 2) : RoundTrip.Statement (.vcvt w d a t p f r) := by
  intro cl sync hold h
  have key : ∀ (w' : Nat) (_ : w' < 2) (d' : Nat) (_ : d' < 32) (a' : Nat) (_ : a' < 64) (t' : Nat) (_ : t' < 16) (p' : Nat) (_ : p' < 8) (f' : Nat) (_ : f' < 2) (r' : Nat) (_ : r' < 4) (k_ n_ : Nat), n_ = 352321536 + w' * 8388608 + d' * 262144 + a' * 4096 + t' * 64 + p' * 8 + f' * 4 + r' + k_ * 1073741824 →
      352321536 + w' * 8388608 + d' * 262144 + a' * 4096 + t' * 64 + p' * 8 + f' * 4 + r' < 1073741824 ∧ n_ / 16777216 % 64 = 21 ∧ n_ / 1024 % 4 = 0 ∧ n_ / 8388608 % 2 = w' ∧ n_ / 262144 % 32 = d' ∧ n_ / 4096 % 64 = a' ∧ n_ / 64 % 16 = t' ∧ n_ / 8 % 8 = p' ∧ n_ / 4 % 2 = f' ∧ n_ % 4 = r' := by
    intros; refine ⟨?_, ?_, ?_, ?_, ?_, ?_, ?_, ?_, ?_, ?_⟩ <;> omega
  refine decode_of_raw cl (.vcvt w d a t p f r) sync hold (key w.toNat w.isLt d.toNat d.isLt a.toNat a.isLt t.toNat t.isLt p.toNat p.isLt f.toNat f.isLt r.toNat r.isLt 0 _ rfl).1 ?_ h
  intro k_ _
  obtain ⟨_, f0, f1, f2, f3, f4, f5, f6, f7, f8⟩ := key w.toNat w.isLt d.toNat d.isLt a.toNat a.isLt t.toNat t.isLt p.toNat p.isLt f.toNat f.isLt r.toNat r.isLt k_ _ rfl
  change rawDecode cl (352321536 + w.toNat * 8388608 + d.toNat * 262144 + a.toNat * 4096 + t.toNat * 64 + p.toNat * 8 + f.toNat * 4 + r.toNat + k_ * 1073741824) = _
  generalize (352321536 + w.toNat * 8388608 + d.toNat * 262144 + a.toNat * 4096 + t.toNat * 64 + p.toNat * 8 + f.toNat * 4 + r.toNat + k_ * 1073741824 : Nat) = n_ at *
  cases cl <;> first
    | exact Bool.noConfusion (show false = true from h)
    | (unfold rawDecode rawV; simp [f0, f1, f2, f3, f4, f5, f6, f7, f8])

theorem RoundTrip.vred (w : BitVec 1) (d : BitVec 5) (a : BitVec 6) (x : BitVec 1) (o : BitVec 2) (p : BitVec 3) (f : BitVec 1) (r : BitVec 2) : RoundTrip.Statement (.vred w d a x o p f r) := by
  intro cl sync hold h
  have key : ∀ (w' : Nat) (_ : w' < 2) (d' : Nat) (_ : d' < 32) (a' : Nat) (_ : a' < 64) (x' : Nat) (_ : x' < 2) (o' : Nat) (_ : o' < 4) (p' : Nat) (_ : p' < 8) (f' : Nat) (_ : f' < 2) (r' : Nat) (_ : r' < 4) (k_ n_ : Nat), n_ = 369098752 + w' * 8388608 + d' * 262144 + a' * 4096 + x' * 256 + o' * 64 + p' * 8 + f' * 4 + r' + k_ * 1073741824 →
      369098752 + w' * 8388608 + d' * 262144 + a' * 4096 + x' * 256 + o' * 64 + p' * 8 + f' * 4 + r' < 1073741824 ∧ n_ / 16777216 % 64 = 22 ∧ n_ / 512 % 8 = 0 ∧ n_ / 8388608 % 2 = w' ∧ n_ / 262144 % 32 = d' ∧ n_ / 4096 % 64 = a' ∧ n_ / 256 % 2 = x' ∧ n_ / 64 % 4 = o' ∧ n_ / 8 % 8 = p' ∧ n_ / 4 % 2 = f' ∧ n_ % 4 = r' := by
    intros; refine ⟨?_, ?_, ?_, ?_, ?_, ?_, ?_, ?_, ?_, ?_, ?_⟩ <;> omega
  refine decode_of_raw cl (.vred w d a x o p f r) sync hold (key w.toNat w.isLt d.toNat d.isLt a.toNat a.isLt x.toNat x.isLt o.toNat o.isLt p.toNat p.isLt f.toNat f.isLt r.toNat r.isLt 0 _ rfl).1 ?_ h
  intro k_ _
  obtain ⟨_, f0, f1, f2, f3, f4, f5, f6, f7, f8, f9⟩ := key w.toNat w.isLt d.toNat d.isLt a.toNat a.isLt x.toNat x.isLt o.toNat o.isLt p.toNat p.isLt f.toNat f.isLt r.toNat r.isLt k_ _ rfl
  change rawDecode cl (369098752 + w.toNat * 8388608 + d.toNat * 262144 + a.toNat * 4096 + x.toNat * 256 + o.toNat * 64 + p.toNat * 8 + f.toNat * 4 + r.toNat + k_ * 1073741824) = _
  generalize (369098752 + w.toNat * 8388608 + d.toNat * 262144 + a.toNat * 4096 + x.toNat * 256 + o.toNat * 64 + p.toNat * 8 + f.toNat * 4 + r.toNat + k_ * 1073741824 : Nat) = n_ at *
  cases cl <;> first
    | exact Bool.noConfusion (show false = true from h)
    | (unfold rawDecode rawV; simp [f0, f1, f2, f3, f4, f5, f6, f7, f8, f9])

theorem RoundTrip.vscan (w : BitVec 1) (d : BitVec 5) (a : BitVec 6) (x : BitVec 1) (o : BitVec 2) (p : BitVec 3) (f : BitVec 1) (r : BitVec 2) : RoundTrip.Statement (.vscan w d a x o p f r) := by
  intro cl sync hold h
  have key : ∀ (w' : Nat) (_ : w' < 2) (d' : Nat) (_ : d' < 32) (a' : Nat) (_ : a' < 64) (x' : Nat) (_ : x' < 2) (o' : Nat) (_ : o' < 4) (p' : Nat) (_ : p' < 8) (f' : Nat) (_ : f' < 2) (r' : Nat) (_ : r' < 4) (k_ n_ : Nat), n_ = 385875968 + w' * 8388608 + d' * 262144 + a' * 4096 + x' * 256 + o' * 64 + p' * 8 + f' * 4 + r' + k_ * 1073741824 →
      385875968 + w' * 8388608 + d' * 262144 + a' * 4096 + x' * 256 + o' * 64 + p' * 8 + f' * 4 + r' < 1073741824 ∧ n_ / 16777216 % 64 = 23 ∧ n_ / 512 % 8 = 0 ∧ n_ / 8388608 % 2 = w' ∧ n_ / 262144 % 32 = d' ∧ n_ / 4096 % 64 = a' ∧ n_ / 256 % 2 = x' ∧ n_ / 64 % 4 = o' ∧ n_ / 8 % 8 = p' ∧ n_ / 4 % 2 = f' ∧ n_ % 4 = r' := by
    intros; refine ⟨?_, ?_, ?_, ?_, ?_, ?_, ?_, ?_, ?_, ?_, ?_⟩ <;> omega
  refine decode_of_raw cl (.vscan w d a x o p f r) sync hold (key w.toNat w.isLt d.toNat d.isLt a.toNat a.isLt x.toNat x.isLt o.toNat o.isLt p.toNat p.isLt f.toNat f.isLt r.toNat r.isLt 0 _ rfl).1 ?_ h
  intro k_ _
  obtain ⟨_, f0, f1, f2, f3, f4, f5, f6, f7, f8, f9⟩ := key w.toNat w.isLt d.toNat d.isLt a.toNat a.isLt x.toNat x.isLt o.toNat o.isLt p.toNat p.isLt f.toNat f.isLt r.toNat r.isLt k_ _ rfl
  change rawDecode cl (385875968 + w.toNat * 8388608 + d.toNat * 262144 + a.toNat * 4096 + x.toNat * 256 + o.toNat * 64 + p.toNat * 8 + f.toNat * 4 + r.toNat + k_ * 1073741824) = _
  generalize (385875968 + w.toNat * 8388608 + d.toNat * 262144 + a.toNat * 4096 + x.toNat * 256 + o.toNat * 64 + p.toNat * 8 + f.toNat * 4 + r.toNat + k_ * 1073741824 : Nat) = n_ at *
  cases cl <;> first
    | exact Bool.noConfusion (show false = true from h)
    | (unfold rawDecode rawV; simp [f0, f1, f2, f3, f4, f5, f6, f7, f8, f9])

theorem RoundTrip.vperm (w : BitVec 1) (d : BitVec 5) (a : BitVec 6) (b : BitVec 6) (p : BitVec 3) (f : BitVec 1) (r : BitVec 2) : RoundTrip.Statement (.vperm w d a b p f r) := by
  intro cl sync hold h
  have key : ∀ (w' : Nat) (_ : w' < 2) (d' : Nat) (_ : d' < 32) (a' : Nat) (_ : a' < 64) (b' : Nat) (_ : b' < 64) (p' : Nat) (_ : p' < 8) (f' : Nat) (_ : f' < 2) (r' : Nat) (_ : r' < 4) (k_ n_ : Nat), n_ = 402653184 + w' * 8388608 + d' * 262144 + a' * 4096 + b' * 64 + p' * 8 + f' * 4 + r' + k_ * 1073741824 →
      402653184 + w' * 8388608 + d' * 262144 + a' * 4096 + b' * 64 + p' * 8 + f' * 4 + r' < 1073741824 ∧ n_ / 16777216 % 64 = 24 ∧ n_ / 8388608 % 2 = w' ∧ n_ / 262144 % 32 = d' ∧ n_ / 4096 % 64 = a' ∧ n_ / 64 % 64 = b' ∧ n_ / 8 % 8 = p' ∧ n_ / 4 % 2 = f' ∧ n_ % 4 = r' := by
    intros; refine ⟨?_, ?_, ?_, ?_, ?_, ?_, ?_, ?_, ?_⟩ <;> omega
  refine decode_of_raw cl (.vperm w d a b p f r) sync hold (key w.toNat w.isLt d.toNat d.isLt a.toNat a.isLt b.toNat b.isLt p.toNat p.isLt f.toNat f.isLt r.toNat r.isLt 0 _ rfl).1 ?_ h
  intro k_ _
  obtain ⟨_, f0, f1, f2, f3, f4, f5, f6, f7⟩ := key w.toNat w.isLt d.toNat d.isLt a.toNat a.isLt b.toNat b.isLt p.toNat p.isLt f.toNat f.isLt r.toNat r.isLt k_ _ rfl
  change rawDecode cl (402653184 + w.toNat * 8388608 + d.toNat * 262144 + a.toNat * 4096 + b.toNat * 64 + p.toNat * 8 + f.toNat * 4 + r.toNat + k_ * 1073741824) = _
  generalize (402653184 + w.toNat * 8388608 + d.toNat * 262144 + a.toNat * 4096 + b.toNat * 64 + p.toNat * 8 + f.toNat * 4 + r.toNat + k_ * 1073741824 : Nat) = n_ at *
  cases cl <;> first
    | exact Bool.noConfusion (show false = true from h)
    | (unfold rawDecode rawV; simp [f0, f1, f2, f3, f4, f5, f6, f7])

theorem RoundTrip.vbcast (w : BitVec 1) (d : BitVec 5) (a : BitVec 6) (im : BitVec 6) (p : BitVec 3) (f : BitVec 1) (r : BitVec 2) : RoundTrip.Statement (.vbcast w d a im p f r) := by
  intro cl sync hold h
  have key : ∀ (w' : Nat) (_ : w' < 2) (d' : Nat) (_ : d' < 32) (a' : Nat) (_ : a' < 64) (im' : Nat) (_ : im' < 64) (p' : Nat) (_ : p' < 8) (f' : Nat) (_ : f' < 2) (r' : Nat) (_ : r' < 4) (k_ n_ : Nat), n_ = 419430400 + w' * 8388608 + d' * 262144 + a' * 4096 + im' * 64 + p' * 8 + f' * 4 + r' + k_ * 1073741824 →
      419430400 + w' * 8388608 + d' * 262144 + a' * 4096 + im' * 64 + p' * 8 + f' * 4 + r' < 1073741824 ∧ n_ / 16777216 % 64 = 25 ∧ n_ / 8388608 % 2 = w' ∧ n_ / 262144 % 32 = d' ∧ n_ / 4096 % 64 = a' ∧ n_ / 64 % 64 = im' ∧ n_ / 8 % 8 = p' ∧ n_ / 4 % 2 = f' ∧ n_ % 4 = r' := by
    intros; refine ⟨?_, ?_, ?_, ?_, ?_, ?_, ?_, ?_, ?_⟩ <;> omega
  refine decode_of_raw cl (.vbcast w d a im p f r) sync hold (key w.toNat w.isLt d.toNat d.isLt a.toNat a.isLt im.toNat im.isLt p.toNat p.isLt f.toNat f.isLt r.toNat r.isLt 0 _ rfl).1 ?_ h
  intro k_ _
  obtain ⟨_, f0, f1, f2, f3, f4, f5, f6, f7⟩ := key w.toNat w.isLt d.toNat d.isLt a.toNat a.isLt im.toNat im.isLt p.toNat p.isLt f.toNat f.isLt r.toNat r.isLt k_ _ rfl
  change rawDecode cl (419430400 + w.toNat * 8388608 + d.toNat * 262144 + a.toNat * 4096 + im.toNat * 64 + p.toNat * 8 + f.toNat * 4 + r.toNat + k_ * 1073741824) = _
  generalize (419430400 + w.toNat * 8388608 + d.toNat * 262144 + a.toNat * 4096 + im.toNat * 64 + p.toNat * 8 + f.toNat * 4 + r.toNat + k_ * 1073741824 : Nat) = n_ at *
  cases cl <;> first
    | exact Bool.noConfusion (show false = true from h)
    | (unfold rawDecode rawV; simp [f0, f1, f2, f3, f4, f5, f6, f7])

theorem RoundTrip.vtrn (w : BitVec 1) (d : BitVec 5) (a : BitVec 6) (p : BitVec 3) (f : BitVec 1) (r : BitVec 2) : RoundTrip.Statement (.vtrn w d a p f r) := by
  intro cl sync hold h
  have key : ∀ (w' : Nat) (_ : w' < 2) (d' : Nat) (_ : d' < 32) (a' : Nat) (_ : a' < 64) (p' : Nat) (_ : p' < 8) (f' : Nat) (_ : f' < 2) (r' : Nat) (_ : r' < 4) (k_ n_ : Nat), n_ = 436207616 + w' * 8388608 + d' * 262144 + a' * 4096 + p' * 8 + f' * 4 + r' + k_ * 1073741824 →
      436207616 + w' * 8388608 + d' * 262144 + a' * 4096 + p' * 8 + f' * 4 + r' < 1073741824 ∧ n_ / 16777216 % 64 = 26 ∧ n_ / 64 % 64 = 0 ∧ n_ / 8388608 % 2 = w' ∧ n_ / 262144 % 32 = d' ∧ n_ / 4096 % 64 = a' ∧ n_ / 8 % 8 = p' ∧ n_ / 4 % 2 = f' ∧ n_ % 4 = r' := by
    intros; refine ⟨?_, ?_, ?_, ?_, ?_, ?_, ?_, ?_, ?_⟩ <;> omega
  refine decode_of_raw cl (.vtrn w d a p f r) sync hold (key w.toNat w.isLt d.toNat d.isLt a.toNat a.isLt p.toNat p.isLt f.toNat f.isLt r.toNat r.isLt 0 _ rfl).1 ?_ h
  intro k_ _
  obtain ⟨_, f0, f1, f2, f3, f4, f5, f6, f7⟩ := key w.toNat w.isLt d.toNat d.isLt a.toNat a.isLt p.toNat p.isLt f.toNat f.isLt r.toNat r.isLt k_ _ rfl
  change rawDecode cl (436207616 + w.toNat * 8388608 + d.toNat * 262144 + a.toNat * 4096 + p.toNat * 8 + f.toNat * 4 + r.toNat + k_ * 1073741824) = _
  generalize (436207616 + w.toNat * 8388608 + d.toNat * 262144 + a.toNat * 4096 + p.toNat * 8 + f.toNat * 4 + r.toNat + k_ * 1073741824 : Nat) = n_ at *
  cases cl <;> first
    | exact Bool.noConfusion (show false = true from h)
    | (unfold rawDecode rawV; simp [f0, f1, f2, f3, f4, f5, f6, f7])

theorem RoundTrip.vrcp (w : BitVec 1) (d : BitVec 5) (a : BitVec 6) (p : BitVec 3) (f : BitVec 1) (r : BitVec 2) : RoundTrip.Statement (.vrcp w d a p f r) := by
  intro cl sync hold h
  have key : ∀ (w' : Nat) (_ : w' < 2) (d' : Nat) (_ : d' < 32) (a' : Nat) (_ : a' < 64) (p' : Nat) (_ : p' < 8) (f' : Nat) (_ : f' < 2) (r' : Nat) (_ : r' < 4) (k_ n_ : Nat), n_ = 452984832 + w' * 8388608 + d' * 262144 + a' * 4096 + p' * 8 + f' * 4 + r' + k_ * 1073741824 →
      452984832 + w' * 8388608 + d' * 262144 + a' * 4096 + p' * 8 + f' * 4 + r' < 1073741824 ∧ n_ / 16777216 % 64 = 27 ∧ n_ / 64 % 64 = 0 ∧ n_ / 8388608 % 2 = w' ∧ n_ / 262144 % 32 = d' ∧ n_ / 4096 % 64 = a' ∧ n_ / 8 % 8 = p' ∧ n_ / 4 % 2 = f' ∧ n_ % 4 = r' := by
    intros; refine ⟨?_, ?_, ?_, ?_, ?_, ?_, ?_, ?_, ?_⟩ <;> omega
  refine decode_of_raw cl (.vrcp w d a p f r) sync hold (key w.toNat w.isLt d.toNat d.isLt a.toNat a.isLt p.toNat p.isLt f.toNat f.isLt r.toNat r.isLt 0 _ rfl).1 ?_ h
  intro k_ _
  obtain ⟨_, f0, f1, f2, f3, f4, f5, f6, f7⟩ := key w.toNat w.isLt d.toNat d.isLt a.toNat a.isLt p.toNat p.isLt f.toNat f.isLt r.toNat r.isLt k_ _ rfl
  change rawDecode cl (452984832 + w.toNat * 8388608 + d.toNat * 262144 + a.toNat * 4096 + p.toNat * 8 + f.toNat * 4 + r.toNat + k_ * 1073741824) = _
  generalize (452984832 + w.toNat * 8388608 + d.toNat * 262144 + a.toNat * 4096 + p.toNat * 8 + f.toNat * 4 + r.toNat + k_ * 1073741824 : Nat) = n_ at *
  cases cl <;> first
    | exact Bool.noConfusion (show false = true from h)
    | (unfold rawDecode rawV; simp [f0, f1, f2, f3, f4, f5, f6, f7])

theorem RoundTrip.vrsq (w : BitVec 1) (d : BitVec 5) (a : BitVec 6) (p : BitVec 3) (f : BitVec 1) (r : BitVec 2) : RoundTrip.Statement (.vrsq w d a p f r) := by
  intro cl sync hold h
  have key : ∀ (w' : Nat) (_ : w' < 2) (d' : Nat) (_ : d' < 32) (a' : Nat) (_ : a' < 64) (p' : Nat) (_ : p' < 8) (f' : Nat) (_ : f' < 2) (r' : Nat) (_ : r' < 4) (k_ n_ : Nat), n_ = 469762048 + w' * 8388608 + d' * 262144 + a' * 4096 + p' * 8 + f' * 4 + r' + k_ * 1073741824 →
      469762048 + w' * 8388608 + d' * 262144 + a' * 4096 + p' * 8 + f' * 4 + r' < 1073741824 ∧ n_ / 16777216 % 64 = 28 ∧ n_ / 64 % 64 = 0 ∧ n_ / 8388608 % 2 = w' ∧ n_ / 262144 % 32 = d' ∧ n_ / 4096 % 64 = a' ∧ n_ / 8 % 8 = p' ∧ n_ / 4 % 2 = f' ∧ n_ % 4 = r' := by
    intros; refine ⟨?_, ?_, ?_, ?_, ?_, ?_, ?_, ?_, ?_⟩ <;> omega
  refine decode_of_raw cl (.vrsq w d a p f r) sync hold (key w.toNat w.isLt d.toNat d.isLt a.toNat a.isLt p.toNat p.isLt f.toNat f.isLt r.toNat r.isLt 0 _ rfl).1 ?_ h
  intro k_ _
  obtain ⟨_, f0, f1, f2, f3, f4, f5, f6, f7⟩ := key w.toNat w.isLt d.toNat d.isLt a.toNat a.isLt p.toNat p.isLt f.toNat f.isLt r.toNat r.isLt k_ _ rfl
  change rawDecode cl (469762048 + w.toNat * 8388608 + d.toNat * 262144 + a.toNat * 4096 + p.toNat * 8 + f.toNat * 4 + r.toNat + k_ * 1073741824) = _
  generalize (469762048 + w.toNat * 8388608 + d.toNat * 262144 + a.toNat * 4096 + p.toNat * 8 + f.toNat * 4 + r.toNat + k_ * 1073741824 : Nat) = n_ at *
  cases cl <;> first
    | exact Bool.noConfusion (show false = true from h)
    | (unfold rawDecode rawV; simp [f0, f1, f2, f3, f4, f5, f6, f7])

theorem RoundTrip.vrfix (w : BitVec 1) (d : BitVec 5) (a : BitVec 6) (b : BitVec 6) (p : BitVec 3) (f : BitVec 1) (r : BitVec 2) : RoundTrip.Statement (.vrfix w d a b p f r) := by
  intro cl sync hold h
  have key : ∀ (w' : Nat) (_ : w' < 2) (d' : Nat) (_ : d' < 32) (a' : Nat) (_ : a' < 64) (b' : Nat) (_ : b' < 64) (p' : Nat) (_ : p' < 8) (f' : Nat) (_ : f' < 2) (r' : Nat) (_ : r' < 4) (k_ n_ : Nat), n_ = 486539264 + w' * 8388608 + d' * 262144 + a' * 4096 + b' * 64 + p' * 8 + f' * 4 + r' + k_ * 1073741824 →
      486539264 + w' * 8388608 + d' * 262144 + a' * 4096 + b' * 64 + p' * 8 + f' * 4 + r' < 1073741824 ∧ n_ / 16777216 % 64 = 29 ∧ n_ / 8388608 % 2 = w' ∧ n_ / 262144 % 32 = d' ∧ n_ / 4096 % 64 = a' ∧ n_ / 64 % 64 = b' ∧ n_ / 8 % 8 = p' ∧ n_ / 4 % 2 = f' ∧ n_ % 4 = r' := by
    intros; refine ⟨?_, ?_, ?_, ?_, ?_, ?_, ?_, ?_, ?_⟩ <;> omega
  refine decode_of_raw cl (.vrfix w d a b p f r) sync hold (key w.toNat w.isLt d.toNat d.isLt a.toNat a.isLt b.toNat b.isLt p.toNat p.isLt f.toNat f.isLt r.toNat r.isLt 0 _ rfl).1 ?_ h
  intro k_ _
  obtain ⟨_, f0, f1, f2, f3, f4, f5, f6, f7⟩ := key w.toNat w.isLt d.toNat d.isLt a.toNat a.isLt b.toNat b.isLt p.toNat p.isLt f.toNat f.isLt r.toNat r.isLt k_ _ rfl
  change rawDecode cl (486539264 + w.toNat * 8388608 + d.toNat * 262144 + a.toNat * 4096 + b.toNat * 64 + p.toNat * 8 + f.toNat * 4 + r.toNat + k_ * 1073741824) = _
  generalize (486539264 + w.toNat * 8388608 + d.toNat * 262144 + a.toNat * 4096 + b.toNat * 64 + p.toNat * 8 + f.toNat * 4 + r.toNat + k_ * 1073741824 : Nat) = n_ at *
  cases cl <;> first
    | exact Bool.noConfusion (show false = true from h)
    | (unfold rawDecode rawV; simp [f0, f1, f2, f3, f4, f5, f6, f7])

theorem RoundTrip.vrsfix (w : BitVec 1) (d : BitVec 5) (a : BitVec 6) (b : BitVec 6) (p : BitVec 3) (f : BitVec 1) (r : BitVec 2) : RoundTrip.Statement (.vrsfix w d a b p f r) := by
  intro cl sync hold h
  have key : ∀ (w' : Nat) (_ : w' < 2) (d' : Nat) (_ : d' < 32) (a' : Nat) (_ : a' < 64) (b' : Nat) (_ : b' < 64) (p' : Nat) (_ : p' < 8) (f' : Nat) (_ : f' < 2) (r' : Nat) (_ : r' < 4) (k_ n_ : Nat), n_ = 503316480 + w' * 8388608 + d' * 262144 + a' * 4096 + b' * 64 + p' * 8 + f' * 4 + r' + k_ * 1073741824 →
      503316480 + w' * 8388608 + d' * 262144 + a' * 4096 + b' * 64 + p' * 8 + f' * 4 + r' < 1073741824 ∧ n_ / 16777216 % 64 = 30 ∧ n_ / 8388608 % 2 = w' ∧ n_ / 262144 % 32 = d' ∧ n_ / 4096 % 64 = a' ∧ n_ / 64 % 64 = b' ∧ n_ / 8 % 8 = p' ∧ n_ / 4 % 2 = f' ∧ n_ % 4 = r' := by
    intros; refine ⟨?_, ?_, ?_, ?_, ?_, ?_, ?_, ?_, ?_⟩ <;> omega
  refine decode_of_raw cl (.vrsfix w d a b p f r) sync hold (key w.toNat w.isLt d.toNat d.isLt a.toNat a.isLt b.toNat b.isLt p.toNat p.isLt f.toNat f.isLt r.toNat r.isLt 0 _ rfl).1 ?_ h
  intro k_ _
  obtain ⟨_, f0, f1, f2, f3, f4, f5, f6, f7⟩ := key w.toNat w.isLt d.toNat d.isLt a.toNat a.isLt b.toNat b.isLt p.toNat p.isLt f.toNat f.isLt r.toNat r.isLt k_ _ rfl
  change rawDecode cl (503316480 + w.toNat * 8388608 + d.toNat * 262144 + a.toNat * 4096 + b.toNat * 64 + p.toNat * 8 + f.toNat * 4 + r.toNat + k_ * 1073741824) = _
  generalize (503316480 + w.toNat * 8388608 + d.toNat * 262144 + a.toNat * 4096 + b.toNat * 64 + p.toNat * 8 + f.toNat * 4 + r.toNat + k_ * 1073741824 : Nat) = n_ at *
  cases cl <;> first
    | exact Bool.noConfusion (show false = true from h)
    | (unfold rawDecode rawV; simp [f0, f1, f2, f3, f4, f5, f6, f7])

theorem RoundTrip.vexp2 (w : BitVec 1) (d : BitVec 5) (a : BitVec 6) (p : BitVec 3) (f : BitVec 1) (r : BitVec 2) : RoundTrip.Statement (.vexp2 w d a p f r) := by
  intro cl sync hold h
  have key : ∀ (w' : Nat) (_ : w' < 2) (d' : Nat) (_ : d' < 32) (a' : Nat) (_ : a' < 64) (p' : Nat) (_ : p' < 8) (f' : Nat) (_ : f' < 2) (r' : Nat) (_ : r' < 4) (k_ n_ : Nat), n_ = 520093696 + w' * 8388608 + d' * 262144 + a' * 4096 + p' * 8 + f' * 4 + r' + k_ * 1073741824 →
      520093696 + w' * 8388608 + d' * 262144 + a' * 4096 + p' * 8 + f' * 4 + r' < 1073741824 ∧ n_ / 16777216 % 64 = 31 ∧ n_ / 64 % 64 = 0 ∧ n_ / 8388608 % 2 = w' ∧ n_ / 262144 % 32 = d' ∧ n_ / 4096 % 64 = a' ∧ n_ / 8 % 8 = p' ∧ n_ / 4 % 2 = f' ∧ n_ % 4 = r' := by
    intros; refine ⟨?_, ?_, ?_, ?_, ?_, ?_, ?_, ?_, ?_⟩ <;> omega
  refine decode_of_raw cl (.vexp2 w d a p f r) sync hold (key w.toNat w.isLt d.toNat d.isLt a.toNat a.isLt p.toNat p.isLt f.toNat f.isLt r.toNat r.isLt 0 _ rfl).1 ?_ h
  intro k_ _
  obtain ⟨_, f0, f1, f2, f3, f4, f5, f6, f7⟩ := key w.toNat w.isLt d.toNat d.isLt a.toNat a.isLt p.toNat p.isLt f.toNat f.isLt r.toNat r.isLt k_ _ rfl
  change rawDecode cl (520093696 + w.toNat * 8388608 + d.toNat * 262144 + a.toNat * 4096 + p.toNat * 8 + f.toNat * 4 + r.toNat + k_ * 1073741824) = _
  generalize (520093696 + w.toNat * 8388608 + d.toNat * 262144 + a.toNat * 4096 + p.toNat * 8 + f.toNat * 4 + r.toNat + k_ * 1073741824 : Nat) = n_ at *
  cases cl <;> first
    | exact Bool.noConfusion (show false = true from h)
    | (unfold rawDecode rawV; simp [f0, f1, f2, f3, f4, f5, f6, f7])

theorem RoundTrip.vlog2 (w : BitVec 1) (d : BitVec 5) (a : BitVec 6) (p : BitVec 3) (f : BitVec 1) (r : BitVec 2) : RoundTrip.Statement (.vlog2 w d a p f r) := by
  intro cl sync hold h
  have key : ∀ (w' : Nat) (_ : w' < 2) (d' : Nat) (_ : d' < 32) (a' : Nat) (_ : a' < 64) (p' : Nat) (_ : p' < 8) (f' : Nat) (_ : f' < 2) (r' : Nat) (_ : r' < 4) (k_ n_ : Nat), n_ = 536870912 + w' * 8388608 + d' * 262144 + a' * 4096 + p' * 8 + f' * 4 + r' + k_ * 1073741824 →
      536870912 + w' * 8388608 + d' * 262144 + a' * 4096 + p' * 8 + f' * 4 + r' < 1073741824 ∧ n_ / 16777216 % 64 = 32 ∧ n_ / 64 % 64 = 0 ∧ n_ / 8388608 % 2 = w' ∧ n_ / 262144 % 32 = d' ∧ n_ / 4096 % 64 = a' ∧ n_ / 8 % 8 = p' ∧ n_ / 4 % 2 = f' ∧ n_ % 4 = r' := by
    intros; refine ⟨?_, ?_, ?_, ?_, ?_, ?_, ?_, ?_, ?_⟩ <;> omega
  refine decode_of_raw cl (.vlog2 w d a p f r) sync hold (key w.toNat w.isLt d.toNat d.isLt a.toNat a.isLt p.toNat p.isLt f.toNat f.isLt r.toNat r.isLt 0 _ rfl).1 ?_ h
  intro k_ _
  obtain ⟨_, f0, f1, f2, f3, f4, f5, f6, f7⟩ := key w.toNat w.isLt d.toNat d.isLt a.toNat a.isLt p.toNat p.isLt f.toNat f.isLt r.toNat r.isLt k_ _ rfl
  change rawDecode cl (536870912 + w.toNat * 8388608 + d.toNat * 262144 + a.toNat * 4096 + p.toNat * 8 + f.toNat * 4 + r.toNat + k_ * 1073741824) = _
  generalize (536870912 + w.toNat * 8388608 + d.toNat * 262144 + a.toNat * 4096 + p.toNat * 8 + f.toNat * 4 + r.toNat + k_ * 1073741824 : Nat) = n_ at *
  cases cl <;> first
    | exact Bool.noConfusion (show false = true from h)
    | (unfold rawDecode rawV; simp [f0, f1, f2, f3, f4, f5, f6, f7])

theorem RoundTrip.vsin (w : BitVec 1) (d : BitVec 5) (a : BitVec 6) (p : BitVec 3) (f : BitVec 1) (r : BitVec 2) : RoundTrip.Statement (.vsin w d a p f r) := by
  intro cl sync hold h
  have key : ∀ (w' : Nat) (_ : w' < 2) (d' : Nat) (_ : d' < 32) (a' : Nat) (_ : a' < 64) (p' : Nat) (_ : p' < 8) (f' : Nat) (_ : f' < 2) (r' : Nat) (_ : r' < 4) (k_ n_ : Nat), n_ = 553648128 + w' * 8388608 + d' * 262144 + a' * 4096 + p' * 8 + f' * 4 + r' + k_ * 1073741824 →
      553648128 + w' * 8388608 + d' * 262144 + a' * 4096 + p' * 8 + f' * 4 + r' < 1073741824 ∧ n_ / 16777216 % 64 = 33 ∧ n_ / 64 % 64 = 0 ∧ n_ / 8388608 % 2 = w' ∧ n_ / 262144 % 32 = d' ∧ n_ / 4096 % 64 = a' ∧ n_ / 8 % 8 = p' ∧ n_ / 4 % 2 = f' ∧ n_ % 4 = r' := by
    intros; refine ⟨?_, ?_, ?_, ?_, ?_, ?_, ?_, ?_, ?_⟩ <;> omega
  refine decode_of_raw cl (.vsin w d a p f r) sync hold (key w.toNat w.isLt d.toNat d.isLt a.toNat a.isLt p.toNat p.isLt f.toNat f.isLt r.toNat r.isLt 0 _ rfl).1 ?_ h
  intro k_ _
  obtain ⟨_, f0, f1, f2, f3, f4, f5, f6, f7⟩ := key w.toNat w.isLt d.toNat d.isLt a.toNat a.isLt p.toNat p.isLt f.toNat f.isLt r.toNat r.isLt k_ _ rfl
  change rawDecode cl (553648128 + w.toNat * 8388608 + d.toNat * 262144 + a.toNat * 4096 + p.toNat * 8 + f.toNat * 4 + r.toNat + k_ * 1073741824) = _
  generalize (553648128 + w.toNat * 8388608 + d.toNat * 262144 + a.toNat * 4096 + p.toNat * 8 + f.toNat * 4 + r.toNat + k_ * 1073741824 : Nat) = n_ at *
  cases cl <;> first
    | exact Bool.noConfusion (show false = true from h)
    | (unfold rawDecode rawV; simp [f0, f1, f2, f3, f4, f5, f6, f7])

theorem RoundTrip.vcos (w : BitVec 1) (d : BitVec 5) (a : BitVec 6) (p : BitVec 3) (f : BitVec 1) (r : BitVec 2) : RoundTrip.Statement (.vcos w d a p f r) := by
  intro cl sync hold h
  have key : ∀ (w' : Nat) (_ : w' < 2) (d' : Nat) (_ : d' < 32) (a' : Nat) (_ : a' < 64) (p' : Nat) (_ : p' < 8) (f' : Nat) (_ : f' < 2) (r' : Nat) (_ : r' < 4) (k_ n_ : Nat), n_ = 570425344 + w' * 8388608 + d' * 262144 + a' * 4096 + p' * 8 + f' * 4 + r' + k_ * 1073741824 →
      570425344 + w' * 8388608 + d' * 262144 + a' * 4096 + p' * 8 + f' * 4 + r' < 1073741824 ∧ n_ / 16777216 % 64 = 34 ∧ n_ / 64 % 64 = 0 ∧ n_ / 8388608 % 2 = w' ∧ n_ / 262144 % 32 = d' ∧ n_ / 4096 % 64 = a' ∧ n_ / 8 % 8 = p' ∧ n_ / 4 % 2 = f' ∧ n_ % 4 = r' := by
    intros; refine ⟨?_, ?_, ?_, ?_, ?_, ?_, ?_, ?_, ?_⟩ <;> omega
  refine decode_of_raw cl (.vcos w d a p f r) sync hold (key w.toNat w.isLt d.toNat d.isLt a.toNat a.isLt p.toNat p.isLt f.toNat f.isLt r.toNat r.isLt 0 _ rfl).1 ?_ h
  intro k_ _
  obtain ⟨_, f0, f1, f2, f3, f4, f5, f6, f7⟩ := key w.toNat w.isLt d.toNat d.isLt a.toNat a.isLt p.toNat p.isLt f.toNat f.isLt r.toNat r.isLt k_ _ rfl
  change rawDecode cl (570425344 + w.toNat * 8388608 + d.toNat * 262144 + a.toNat * 4096 + p.toNat * 8 + f.toNat * 4 + r.toNat + k_ * 1073741824) = _
  generalize (570425344 + w.toNat * 8388608 + d.toNat * 262144 + a.toNat * 4096 + p.toNat * 8 + f.toNat * 4 + r.toNat + k_ * 1073741824 : Nat) = n_ at *
  cases cl <;> first
    | exact Bool.noConfusion (show false = true from h)
    | (unfold rawDecode rawV; simp [f0, f1, f2, f3, f4, f5, f6, f7])

theorem RoundTrip.vsplat (w : BitVec 1) (d : BitVec 5) (k : BitVec 1) (sp : BitVec 5) (p : BitVec 3) : RoundTrip.Statement (.vsplat w d k sp p) := by
  intro cl sync hold h
  have key : ∀ (w' : Nat) (_ : w' < 2) (d' : Nat) (_ : d' < 32) (k' : Nat) (_ : k' < 2) (sp' : Nat) (_ : sp' < 32) (p' : Nat) (_ : p' < 8) (k_ n_ : Nat), n_ = 587202560 + w' * 8388608 + d' * 262144 + k' * 131072 + sp' * 4096 + p' * 8 + k_ * 1073741824 →
      587202560 + w' * 8388608 + d' * 262144 + k' * 131072 + sp' * 4096 + p' * 8 < 1073741824 ∧ n_ / 16777216 % 64 = 35 ∧ n_ % 8 = 0 ∧ n_ / 64 % 64 = 0 ∧ n_ / 8388608 % 2 = w' ∧ n_ / 262144 % 32 = d' ∧ n_ / 131072 % 2 = k' ∧ n_ / 4096 % 32 = sp' ∧ n_ / 8 % 8 = p' := by
    intros; refine ⟨?_, ?_, ?_, ?_, ?_, ?_, ?_, ?_, ?_⟩ <;> omega
  refine decode_of_raw cl (.vsplat w d k sp p) sync hold (key w.toNat w.isLt d.toNat d.isLt k.toNat k.isLt sp.toNat sp.isLt p.toNat p.isLt 0 _ rfl).1 ?_ h
  intro k_ _
  obtain ⟨_, f0, f1, f2, f3, f4, f5, f6, f7⟩ := key w.toNat w.isLt d.toNat d.isLt k.toNat k.isLt sp.toNat sp.isLt p.toNat p.isLt k_ _ rfl
  change rawDecode cl (587202560 + w.toNat * 8388608 + d.toNat * 262144 + k.toNat * 131072 + sp.toNat * 4096 + p.toNat * 8 + k_ * 1073741824) = _
  generalize (587202560 + w.toNat * 8388608 + d.toNat * 262144 + k.toNat * 131072 + sp.toNat * 4096 + p.toNat * 8 + k_ * 1073741824 : Nat) = n_ at *
  cases cl <;> first
    | exact Bool.noConfusion (show false = true from h)
    | (unfold rawDecode rawV; simp [f0, f1, f2, f3, f4, f5, f6, f7])

theorem RoundTrip.vomov (w : BitVec 1) (d : BitVec 5) (a : BitVec 6) (p : BitVec 3) (f : BitVec 1) (r : BitVec 2) : RoundTrip.Statement (.vomov w d a p f r) := by
  intro cl sync hold h
  have key : ∀ (w' : Nat) (_ : w' < 2) (d' : Nat) (_ : d' < 32) (a' : Nat) (_ : a' < 64) (p' : Nat) (_ : p' < 8) (f' : Nat) (_ : f' < 2) (r' : Nat) (_ : r' < 4) (k_ n_ : Nat), n_ = 603979776 + w' * 8388608 + d' * 262144 + a' * 4096 + p' * 8 + f' * 4 + r' + k_ * 1073741824 →
      603979776 + w' * 8388608 + d' * 262144 + a' * 4096 + p' * 8 + f' * 4 + r' < 1073741824 ∧ n_ / 16777216 % 64 = 36 ∧ n_ / 64 % 64 = 0 ∧ n_ / 8388608 % 2 = w' ∧ n_ / 262144 % 32 = d' ∧ n_ / 4096 % 64 = a' ∧ n_ / 8 % 8 = p' ∧ n_ / 4 % 2 = f' ∧ n_ % 4 = r' := by
    intros; refine ⟨?_, ?_, ?_, ?_, ?_, ?_, ?_, ?_, ?_⟩ <;> omega
  refine decode_of_raw cl (.vomov w d a p f r) sync hold (key w.toNat w.isLt d.toNat d.isLt a.toNat a.isLt p.toNat p.isLt f.toNat f.isLt r.toNat r.isLt 0 _ rfl).1 ?_ h
  intro k_ _
  obtain ⟨_, f0, f1, f2, f3, f4, f5, f6, f7⟩ := key w.toNat w.isLt d.toNat d.isLt a.toNat a.isLt p.toNat p.isLt f.toNat f.isLt r.toNat r.isLt k_ _ rfl
  change rawDecode cl (603979776 + w.toNat * 8388608 + d.toNat * 262144 + a.toNat * 4096 + p.toNat * 8 + f.toNat * 4 + r.toNat + k_ * 1073741824) = _
  generalize (603979776 + w.toNat * 8388608 + d.toNat * 262144 + a.toNat * 4096 + p.toNat * 8 + f.toNat * 4 + r.toNat + k_ * 1073741824 : Nat) = n_ at *
  cases cl <;> first
    | exact Bool.noConfusion (show false = true from h)
    | (unfold rawDecode rawV; simp [f0, f1, f2, f3, f4, f5, f6, f7])

theorem RoundTrip.vmov (w : BitVec 1) (d : BitVec 5) (a : BitVec 6) (p : BitVec 3) (f : BitVec 1) (r : BitVec 2) : RoundTrip.Statement (.vmov w d a p f r) := by
  intro cl sync hold h
  have key : ∀ (w' : Nat) (_ : w' < 2) (d' : Nat) (_ : d' < 32) (a' : Nat) (_ : a' < 64) (p' : Nat) (_ : p' < 8) (f' : Nat) (_ : f' < 2) (r' : Nat) (_ : r' < 4) (k_ n_ : Nat), n_ = 620756992 + w' * 8388608 + d' * 262144 + a' * 4096 + p' * 8 + f' * 4 + r' + k_ * 1073741824 →
      620756992 + w' * 8388608 + d' * 262144 + a' * 4096 + p' * 8 + f' * 4 + r' < 1073741824 ∧ n_ / 16777216 % 64 = 37 ∧ n_ / 64 % 64 = 0 ∧ n_ / 8388608 % 2 = w' ∧ n_ / 262144 % 32 = d' ∧ n_ / 4096 % 64 = a' ∧ n_ / 8 % 8 = p' ∧ n_ / 4 % 2 = f' ∧ n_ % 4 = r' := by
    intros; refine ⟨?_, ?_, ?_, ?_, ?_, ?_, ?_, ?_, ?_⟩ <;> omega
  refine decode_of_raw cl (.vmov w d a p f r) sync hold (key w.toNat w.isLt d.toNat d.isLt a.toNat a.isLt p.toNat p.isLt f.toNat f.isLt r.toNat r.isLt 0 _ rfl).1 ?_ h
  intro k_ _
  obtain ⟨_, f0, f1, f2, f3, f4, f5, f6, f7⟩ := key w.toNat w.isLt d.toNat d.isLt a.toNat a.isLt p.toNat p.isLt f.toNat f.isLt r.toNat r.isLt k_ _ rfl
  change rawDecode cl (620756992 + w.toNat * 8388608 + d.toNat * 262144 + a.toNat * 4096 + p.toNat * 8 + f.toNat * 4 + r.toNat + k_ * 1073741824) = _
  generalize (620756992 + w.toNat * 8388608 + d.toNat * 262144 + a.toNat * 4096 + p.toNat * 8 + f.toNat * 4 + r.toNat + k_ * 1073741824 : Nat) = n_ at *
  cases cl <;> first
    | exact Bool.noConfusion (show false = true from h)
    | (unfold rawDecode rawV; simp [f0, f1, f2, f3, f4, f5, f6, f7])

theorem RoundTrip.vld (d : BitVec 5) (im : BitVec 3) (o : BitVec 3) (p : BitVec 3) : RoundTrip.Statement (.vld d im o p) := by
  intro cl sync hold h
  have key : ∀ (d' : Nat) (_ : d' < 32) (im' : Nat) (_ : im' < 8) (o' : Nat) (_ : o' < 8) (p' : Nat) (_ : p' < 8) (k_ n_ : Nat), n_ = 637534208 + d' * 262144 + im' * 32768 + o' * 4096 + p' * 8 + k_ * 1073741824 →
      637534208 + d' * 262144 + im' * 32768 + o' * 4096 + p' * 8 < 1073741824 ∧ n_ / 16777216 % 64 = 38 ∧ n_ % 8 = 0 ∧ n_ / 64 % 64 = 0 ∧ n_ / 8388608 % 2 = 0 ∧ n_ / 262144 % 32 = d' ∧ n_ / 32768 % 8 = im' ∧ n_ / 4096 % 8 = o' ∧ n_ / 8 % 8 = p' := by
    intros; refine ⟨?_, ?_, ?_, ?_, ?_, ?_, ?_, ?_, ?_⟩ <;> omega
  refine decode_of_raw cl (.vld d im o p) sync hold (key d.toNat d.isLt im.toNat im.isLt o.toNat o.isLt p.toNat p.isLt 0 _ rfl).1 ?_ h
  intro k_ _
  obtain ⟨_, f0, f1, f2, f3, f4, f5, f6, f7⟩ := key d.toNat d.isLt im.toNat im.isLt o.toNat o.isLt p.toNat p.isLt k_ _ rfl
  change rawDecode cl (637534208 + d.toNat * 262144 + im.toNat * 32768 + o.toNat * 4096 + p.toNat * 8 + k_ * 1073741824) = _
  generalize (637534208 + d.toNat * 262144 + im.toNat * 32768 + o.toNat * 4096 + p.toNat * 8 + k_ * 1073741824 : Nat) = n_ at *
  cases cl <;> first
    | exact Bool.noConfusion (show false = true from h)
    | (unfold rawDecode rawV; simp [f0, f1, f2, f3, f4, f5, f6, f7])

theorem RoundTrip.vst (d : BitVec 5) (im : BitVec 3) (o : BitVec 3) (p : BitVec 3) : RoundTrip.Statement (.vst d im o p) := by
  intro cl sync hold h
  have key : ∀ (d' : Nat) (_ : d' < 32) (im' : Nat) (_ : im' < 8) (o' : Nat) (_ : o' < 8) (p' : Nat) (_ : p' < 8) (k_ n_ : Nat), n_ = 654311424 + d' * 262144 + im' * 32768 + o' * 4096 + p' * 8 + k_ * 1073741824 →
      654311424 + d' * 262144 + im' * 32768 + o' * 4096 + p' * 8 < 1073741824 ∧ n_ / 16777216 % 64 = 39 ∧ n_ % 8 = 0 ∧ n_ / 64 % 64 = 0 ∧ n_ / 8388608 % 2 = 0 ∧ n_ / 262144 % 32 = d' ∧ n_ / 32768 % 8 = im' ∧ n_ / 4096 % 8 = o' ∧ n_ / 8 % 8 = p' := by
    intros; refine ⟨?_, ?_, ?_, ?_, ?_, ?_, ?_, ?_, ?_⟩ <;> omega
  refine decode_of_raw cl (.vst d im o p) sync hold (key d.toNat d.isLt im.toNat im.isLt o.toNat o.isLt p.toNat p.isLt 0 _ rfl).1 ?_ h
  intro k_ _
  obtain ⟨_, f0, f1, f2, f3, f4, f5, f6, f7⟩ := key d.toNat d.isLt im.toNat im.isLt o.toNat o.isLt p.toNat p.isLt k_ _ rfl
  change rawDecode cl (654311424 + d.toNat * 262144 + im.toNat * 32768 + o.toNat * 4096 + p.toNat * 8 + k_ * 1073741824) = _
  generalize (654311424 + d.toNat * 262144 + im.toNat * 32768 + o.toNat * 4096 + p.toNat * 8 + k_ * 1073741824 : Nat) = n_ at *
  cases cl <;> first
    | exact Bool.noConfusion (show false = true from h)
    | (unfold rawDecode rawV; simp [f0, f1, f2, f3, f4, f5, f6, f7])

theorem RoundTrip.vbld (d : BitVec 5) (im : BitVec 3) (o : BitVec 3) (p : BitVec 3) : RoundTrip.Statement (.vbld d im o p) := by
  intro cl sync hold h
  have key : ∀ (d' : Nat) (_ : d' < 32) (im' : Nat) (_ : im' < 8) (o' : Nat) (_ : o' < 8) (p' : Nat) (_ : p' < 8) (k_ n_ : Nat), n_ = 671088640 + d' * 262144 + im' * 32768 + o' * 4096 + p' * 8 + k_ * 1073741824 →
      671088640 + d' * 262144 + im' * 32768 + o' * 4096 + p' * 8 < 1073741824 ∧ n_ / 16777216 % 64 = 40 ∧ n_ % 8 = 0 ∧ n_ / 64 % 64 = 0 ∧ n_ / 8388608 % 2 = 0 ∧ n_ / 262144 % 32 = d' ∧ n_ / 32768 % 8 = im' ∧ n_ / 4096 % 8 = o' ∧ n_ / 8 % 8 = p' := by
    intros; refine ⟨?_, ?_, ?_, ?_, ?_, ?_, ?_, ?_, ?_⟩ <;> omega
  refine decode_of_raw cl (.vbld d im o p) sync hold (key d.toNat d.isLt im.toNat im.isLt o.toNat o.isLt p.toNat p.isLt 0 _ rfl).1 ?_ h
  intro k_ _
  obtain ⟨_, f0, f1, f2, f3, f4, f5, f6, f7⟩ := key d.toNat d.isLt im.toNat im.isLt o.toNat o.isLt p.toNat p.isLt k_ _ rfl
  change rawDecode cl (671088640 + d.toNat * 262144 + im.toNat * 32768 + o.toNat * 4096 + p.toNat * 8 + k_ * 1073741824) = _
  generalize (671088640 + d.toNat * 262144 + im.toNat * 32768 + o.toNat * 4096 + p.toNat * 8 + k_ * 1073741824 : Nat) = n_ at *
  cases cl <;> first
    | exact Bool.noConfusion (show false = true from h)
    | (unfold rawDecode rawV; simp [f0, f1, f2, f3, f4, f5, f6, f7])

theorem RoundTrip.vbst (d : BitVec 5) (im : BitVec 3) (o : BitVec 3) (p : BitVec 3) : RoundTrip.Statement (.vbst d im o p) := by
  intro cl sync hold h
  have key : ∀ (d' : Nat) (_ : d' < 32) (im' : Nat) (_ : im' < 8) (o' : Nat) (_ : o' < 8) (p' : Nat) (_ : p' < 8) (k_ n_ : Nat), n_ = 687865856 + d' * 262144 + im' * 32768 + o' * 4096 + p' * 8 + k_ * 1073741824 →
      687865856 + d' * 262144 + im' * 32768 + o' * 4096 + p' * 8 < 1073741824 ∧ n_ / 16777216 % 64 = 41 ∧ n_ % 8 = 0 ∧ n_ / 64 % 64 = 0 ∧ n_ / 8388608 % 2 = 0 ∧ n_ / 262144 % 32 = d' ∧ n_ / 32768 % 8 = im' ∧ n_ / 4096 % 8 = o' ∧ n_ / 8 % 8 = p' := by
    intros; refine ⟨?_, ?_, ?_, ?_, ?_, ?_, ?_, ?_, ?_⟩ <;> omega
  refine decode_of_raw cl (.vbst d im o p) sync hold (key d.toNat d.isLt im.toNat im.isLt o.toNat o.isLt p.toNat p.isLt 0 _ rfl).1 ?_ h
  intro k_ _
  obtain ⟨_, f0, f1, f2, f3, f4, f5, f6, f7⟩ := key d.toNat d.isLt im.toNat im.isLt o.toNat o.isLt p.toNat p.isLt k_ _ rfl
  change rawDecode cl (687865856 + d.toNat * 262144 + im.toNat * 32768 + o.toNat * 4096 + p.toNat * 8 + k_ * 1073741824) = _
  generalize (687865856 + d.toNat * 262144 + im.toNat * 32768 + o.toNat * 4096 + p.toNat * 8 + k_ * 1073741824 : Nat) = n_ at *
  cases cl <;> first
    | exact Bool.noConfusion (show false = true from h)
    | (unfold rawDecode rawV; simp [f0, f1, f2, f3, f4, f5, f6, f7])

theorem RoundTrip.vsld (d : BitVec 5) (im : BitVec 3) (o : BitVec 3) (p : BitVec 3) : RoundTrip.Statement (.vsld d im o p) := by
  intro cl sync hold h
  have key : ∀ (d' : Nat) (_ : d' < 32) (im' : Nat) (_ : im' < 8) (o' : Nat) (_ : o' < 8) (p' : Nat) (_ : p' < 8) (k_ n_ : Nat), n_ = 704643072 + d' * 262144 + im' * 32768 + o' * 4096 + p' * 8 + k_ * 1073741824 →
      704643072 + d' * 262144 + im' * 32768 + o' * 4096 + p' * 8 < 1073741824 ∧ n_ / 16777216 % 64 = 42 ∧ n_ % 8 = 0 ∧ n_ / 64 % 64 = 0 ∧ n_ / 8388608 % 2 = 0 ∧ n_ / 262144 % 32 = d' ∧ n_ / 32768 % 8 = im' ∧ n_ / 4096 % 8 = o' ∧ n_ / 8 % 8 = p' := by
    intros; refine ⟨?_, ?_, ?_, ?_, ?_, ?_, ?_, ?_, ?_⟩ <;> omega
  refine decode_of_raw cl (.vsld d im o p) sync hold (key d.toNat d.isLt im.toNat im.isLt o.toNat o.isLt p.toNat p.isLt 0 _ rfl).1 ?_ h
  intro k_ _
  obtain ⟨_, f0, f1, f2, f3, f4, f5, f6, f7⟩ := key d.toNat d.isLt im.toNat im.isLt o.toNat o.isLt p.toNat p.isLt k_ _ rfl
  change rawDecode cl (704643072 + d.toNat * 262144 + im.toNat * 32768 + o.toNat * 4096 + p.toNat * 8 + k_ * 1073741824) = _
  generalize (704643072 + d.toNat * 262144 + im.toNat * 32768 + o.toNat * 4096 + p.toNat * 8 + k_ * 1073741824 : Nat) = n_ at *
  cases cl <;> first
    | exact Bool.noConfusion (show false = true from h)
    | (unfold rawDecode rawV; simp [f0, f1, f2, f3, f4, f5, f6, f7])

theorem RoundTrip.vsst (d : BitVec 5) (im : BitVec 3) (o : BitVec 3) (p : BitVec 3) : RoundTrip.Statement (.vsst d im o p) := by
  intro cl sync hold h
  have key : ∀ (d' : Nat) (_ : d' < 32) (im' : Nat) (_ : im' < 8) (o' : Nat) (_ : o' < 8) (p' : Nat) (_ : p' < 8) (k_ n_ : Nat), n_ = 721420288 + d' * 262144 + im' * 32768 + o' * 4096 + p' * 8 + k_ * 1073741824 →
      721420288 + d' * 262144 + im' * 32768 + o' * 4096 + p' * 8 < 1073741824 ∧ n_ / 16777216 % 64 = 43 ∧ n_ % 8 = 0 ∧ n_ / 64 % 64 = 0 ∧ n_ / 8388608 % 2 = 0 ∧ n_ / 262144 % 32 = d' ∧ n_ / 32768 % 8 = im' ∧ n_ / 4096 % 8 = o' ∧ n_ / 8 % 8 = p' := by
    intros; refine ⟨?_, ?_, ?_, ?_, ?_, ?_, ?_, ?_, ?_⟩ <;> omega
  refine decode_of_raw cl (.vsst d im o p) sync hold (key d.toNat d.isLt im.toNat im.isLt o.toNat o.isLt p.toNat p.isLt 0 _ rfl).1 ?_ h
  intro k_ _
  obtain ⟨_, f0, f1, f2, f3, f4, f5, f6, f7⟩ := key d.toNat d.isLt im.toNat im.isLt o.toNat o.isLt p.toNat p.isLt k_ _ rfl
  change rawDecode cl (721420288 + d.toNat * 262144 + im.toNat * 32768 + o.toNat * 4096 + p.toNat * 8 + k_ * 1073741824) = _
  generalize (721420288 + d.toNat * 262144 + im.toNat * 32768 + o.toNat * 4096 + p.toNat * 8 + k_ * 1073741824 : Nat) = n_ at *
  cases cl <;> first
    | exact Bool.noConfusion (show false = true from h)
    | (unfold rawDecode rawV; simp [f0, f1, f2, f3, f4, f5, f6, f7])

theorem RoundTrip.vgth (w : BitVec 1) (d : BitVec 5) (a : BitVec 6) (o : BitVec 3) (p : BitVec 3) : RoundTrip.Statement (.vgth w d a o p) := by
  intro cl sync hold h
  have key : ∀ (w' : Nat) (_ : w' < 2) (d' : Nat) (_ : d' < 32) (a' : Nat) (_ : a' < 64) (o' : Nat) (_ : o' < 8) (p' : Nat) (_ : p' < 8) (k_ n_ : Nat), n_ = 738197504 + w' * 8388608 + d' * 262144 + a' * 4096 + o' * 512 + p' * 8 + k_ * 1073741824 →
      738197504 + w' * 8388608 + d' * 262144 + a' * 4096 + o' * 512 + p' * 8 < 1073741824 ∧ n_ / 16777216 % 64 = 44 ∧ n_ % 8 = 0 ∧ n_ / 64 % 8 = 0 ∧ n_ / 8388608 % 2 = w' ∧ n_ / 262144 % 32 = d' ∧ n_ / 4096 % 64 = a' ∧ n_ / 512 % 8 = o' ∧ n_ / 8 % 8 = p' := by
    intros; refine ⟨?_, ?_, ?_, ?_, ?_, ?_, ?_, ?_, ?_⟩ <;> omega
  refine decode_of_raw cl (.vgth w d a o p) sync hold (key w.toNat w.isLt d.toNat d.isLt a.toNat a.isLt o.toNat o.isLt p.toNat p.isLt 0 _ rfl).1 ?_ h
  intro k_ _
  obtain ⟨_, f0, f1, f2, f3, f4, f5, f6, f7⟩ := key w.toNat w.isLt d.toNat d.isLt a.toNat a.isLt o.toNat o.isLt p.toNat p.isLt k_ _ rfl
  change rawDecode cl (738197504 + w.toNat * 8388608 + d.toNat * 262144 + a.toNat * 4096 + o.toNat * 512 + p.toNat * 8 + k_ * 1073741824) = _
  generalize (738197504 + w.toNat * 8388608 + d.toNat * 262144 + a.toNat * 4096 + o.toNat * 512 + p.toNat * 8 + k_ * 1073741824 : Nat) = n_ at *
  cases cl <;> first
    | exact Bool.noConfusion (show false = true from h)
    | (unfold rawDecode rawV; simp [f0, f1, f2, f3, f4, f5, f6, f7])

theorem RoundTrip.vsct (d : BitVec 5) (a : BitVec 6) (o : BitVec 3) (p : BitVec 3) : RoundTrip.Statement (.vsct d a o p) := by
  intro cl sync hold h
  have key : ∀ (d' : Nat) (_ : d' < 32) (a' : Nat) (_ : a' < 64) (o' : Nat) (_ : o' < 8) (p' : Nat) (_ : p' < 8) (k_ n_ : Nat), n_ = 754974720 + d' * 262144 + a' * 4096 + o' * 512 + p' * 8 + k_ * 1073741824 →
      754974720 + d' * 262144 + a' * 4096 + o' * 512 + p' * 8 < 1073741824 ∧ n_ / 16777216 % 64 = 45 ∧ n_ % 8 = 0 ∧ n_ / 64 % 8 = 0 ∧ n_ / 8388608 % 2 = 0 ∧ n_ / 262144 % 32 = d' ∧ n_ / 4096 % 64 = a' ∧ n_ / 512 % 8 = o' ∧ n_ / 8 % 8 = p' := by
    intros; refine ⟨?_, ?_, ?_, ?_, ?_, ?_, ?_, ?_, ?_⟩ <;> omega
  refine decode_of_raw cl (.vsct d a o p) sync hold (key d.toNat d.isLt a.toNat a.isLt o.toNat o.isLt p.toNat p.isLt 0 _ rfl).1 ?_ h
  intro k_ _
  obtain ⟨_, f0, f1, f2, f3, f4, f5, f6, f7⟩ := key d.toNat d.isLt a.toNat a.isLt o.toNat o.isLt p.toNat p.isLt k_ _ rfl
  change rawDecode cl (754974720 + d.toNat * 262144 + a.toNat * 4096 + o.toNat * 512 + p.toNat * 8 + k_ * 1073741824) = _
  generalize (754974720 + d.toNat * 262144 + a.toNat * 4096 + o.toNat * 512 + p.toNat * 8 + k_ * 1073741824 : Nat) = n_ at *
  cases cl <;> first
    | exact Bool.noConfusion (show false = true from h)
    | (unfold rawDecode rawV; simp [f0, f1, f2, f3, f4, f5, f6, f7])

theorem RoundTrip.viset (im : BitVec 3) (sp : BitVec 5) (o : BitVec 3) : RoundTrip.Statement (.viset im sp o) := by
  intro cl sync hold h
  have key : ∀ (im' : Nat) (_ : im' < 8) (sp' : Nat) (_ : sp' < 32) (o' : Nat) (_ : o' < 8) (k_ n_ : Nat), n_ = 771751936 + im' * 2097152 + sp' * 4096 + o' * 512 + k_ * 1073741824 →
      771751936 + im' * 2097152 + sp' * 4096 + o' * 512 < 1073741824 ∧ n_ / 16777216 % 64 = 46 ∧ n_ % 512 = 0 ∧ n_ / 131072 % 16 = 0 ∧ n_ / 2097152 % 8 = im' ∧ n_ / 4096 % 32 = sp' ∧ n_ / 512 % 8 = o' := by
    intros; refine ⟨?_, ?_, ?_, ?_, ?_, ?_, ?_⟩ <;> omega
  refine decode_of_raw cl (.viset im sp o) sync hold (key im.toNat im.isLt sp.toNat sp.isLt o.toNat o.isLt 0 _ rfl).1 ?_ h
  intro k_ _
  obtain ⟨_, f0, f1, f2, f3, f4, f5⟩ := key im.toNat im.isLt sp.toNat sp.isLt o.toNat o.isLt k_ _ rfl
  change rawDecode cl (771751936 + im.toNat * 2097152 + sp.toNat * 4096 + o.toNat * 512 + k_ * 1073741824) = _
  generalize (771751936 + im.toNat * 2097152 + sp.toNat * 4096 + o.toNat * 512 + k_ * 1073741824 : Nat) = n_ at *
  cases cl <;> first
    | exact Bool.noConfusion (show false = true from h)
    | (unfold rawDecode rawV; simp [f0, f1, f2, f3, f4, f5])

theorem RoundTrip.pset (p : BitVec 3) (a : BitVec 3) (e : BitVec 2) : RoundTrip.Statement (.pset p a e) := by
  intro cl sync hold h
  have key : ∀ (p' : Nat) (_ : p' < 8) (a' : Nat) (_ : a' < 8) (e' : Nat) (_ : e' < 4) (k_ n_ : Nat), n_ = 788529152 + p' * 2097152 + a' * 262144 + e' * 65536 + k_ * 1073741824 →
      788529152 + p' * 2097152 + a' * 262144 + e' * 65536 < 1073741824 ∧ n_ / 16777216 % 64 = 47 ∧ n_ % 65536 = 0 ∧ n_ / 2097152 % 8 = p' ∧ n_ / 262144 % 8 = a' ∧ n_ / 65536 % 4 = e' := by
    intros; refine ⟨?_, ?_, ?_, ?_, ?_, ?_⟩ <;> omega
  refine decode_of_raw cl (.pset p a e) sync hold (key p.toNat p.isLt a.toNat a.isLt e.toNat e.isLt 0 _ rfl).1 ?_ h
  intro k_ _
  obtain ⟨_, f0, f1, f2, f3, f4⟩ := key p.toNat p.isLt a.toNat a.isLt e.toNat e.isLt k_ _ rfl
  change rawDecode cl (788529152 + p.toNat * 2097152 + a.toNat * 262144 + e.toNat * 65536 + k_ * 1073741824) = _
  generalize (788529152 + p.toNat * 2097152 + a.toNat * 262144 + e.toNat * 65536 + k_ * 1073741824 : Nat) = n_ at *
  cases cl <;> first
    | exact Bool.noConfusion (show false = true from h)
    | (unfold rawDecode rawV; simp [f0, f1, f2, f3, f4])

theorem RoundTrip.pfirst (p : BitVec 3) (a : BitVec 6) : RoundTrip.Statement (.pfirst p a) := by
  intro cl sync hold h
  have key : ∀ (p' : Nat) (_ : p' < 8) (a' : Nat) (_ : a' < 64) (k_ n_ : Nat), n_ = 805306368 + p' * 2097152 + a' * 4096 + k_ * 1073741824 →
      805306368 + p' * 2097152 + a' * 4096 < 1073741824 ∧ n_ / 16777216 % 64 = 48 ∧ n_ % 4096 = 0 ∧ n_ / 262144 % 8 = 0 ∧ n_ / 2097152 % 8 = p' ∧ n_ / 4096 % 64 = a' := by
    intros; refine ⟨?_, ?_, ?_, ?_, ?_, ?_⟩ <;> omega
  refine decode_of_raw cl (.pfirst p a) sync hold (key p.toNat p.isLt a.toNat a.isLt 0 _ rfl).1 ?_ h
  intro k_ _
  obtain ⟨_, f0, f1, f2, f3, f4⟩ := key p.toNat p.isLt a.toNat a.isLt k_ _ rfl
  change rawDecode cl (805306368 + p.toNat * 2097152 + a.toNat * 4096 + k_ * 1073741824) = _
  generalize (805306368 + p.toNat * 2097152 + a.toNat * 4096 + k_ * 1073741824 : Nat) = n_ at *
  cases cl <;> first
    | exact Bool.noConfusion (show false = true from h)
    | (unfold rawDecode rawV; simp [f0, f1, f2, f3, f4])

theorem RoundTrip.pminmax (d : BitVec 3) (a : BitVec 3) (b : BitVec 3) (o : BitVec 1) : RoundTrip.Statement (.pminmax d a b o) := by
  intro cl sync hold h
  have key : ∀ (d' : Nat) (_ : d' < 8) (a' : Nat) (_ : a' < 8) (b' : Nat) (_ : b' < 8) (o' : Nat) (_ : o' < 2) (k_ n_ : Nat), n_ = 822083584 + d' * 2097152 + a' * 262144 + b' * 32768 + o' * 16384 + k_ * 1073741824 →
      822083584 + d' * 2097152 + a' * 262144 + b' * 32768 + o' * 16384 < 1073741824 ∧ n_ / 16777216 % 64 = 49 ∧ n_ % 16384 = 0 ∧ n_ / 2097152 % 8 = d' ∧ n_ / 262144 % 8 = a' ∧ n_ / 32768 % 8 = b' ∧ n_ / 16384 % 2 = o' := by
    intros; refine ⟨?_, ?_, ?_, ?_, ?_, ?_, ?_⟩ <;> omega
  refine decode_of_raw cl (.pminmax d a b o) sync hold (key d.toNat d.isLt a.toNat a.isLt b.toNat b.isLt o.toNat o.isLt 0 _ rfl).1 ?_ h
  intro k_ _
  obtain ⟨_, f0, f1, f2, f3, f4, f5⟩ := key d.toNat d.isLt a.toNat a.isLt b.toNat b.isLt o.toNat o.isLt k_ _ rfl
  change rawDecode cl (822083584 + d.toNat * 2097152 + a.toNat * 262144 + b.toNat * 32768 + o.toNat * 16384 + k_ * 1073741824) = _
  generalize (822083584 + d.toNat * 2097152 + a.toNat * 262144 + b.toNat * 32768 + o.toNat * 16384 + k_ * 1073741824 : Nat) = n_ at *
  cases cl <;> first
    | exact Bool.noConfusion (show false = true from h)
    | (unfold rawDecode rawV; simp [f0, f1, f2, f3, f4, f5])

theorem RoundTrip.vfr (x : BitVec 3) (im : BitVec 2) : RoundTrip.Statement (.vfr x im) := by
  intro cl sync hold h
  have key : ∀ (x' : Nat) (_ : x' < 8) (im' : Nat) (_ : im' < 4) (k_ n_ : Nat), n_ = 838860800 + x' * 2097152 + im' + k_ * 1073741824 →
      838860800 + x' * 2097152 + im' < 1073741824 ∧ n_ / 16777216 % 64 = 50 ∧ n_ / 4 % 524288 = 0 ∧ n_ / 2097152 % 8 = x' ∧ n_ % 4 = im' := by
    intros; refine ⟨?_, ?_, ?_, ?_, ?_⟩ <;> omega
  refine decode_of_raw cl (.vfr x im) sync hold (key x.toNat x.isLt im.toNat im.isLt 0 _ rfl).1 ?_ h
  intro k_ _
  obtain ⟨_, f0, f1, f2, f3⟩ := key x.toNat x.isLt im.toNat im.isLt k_ _ rfl
  change rawDecode cl (838860800 + x.toNat * 2097152 + im.toNat + k_ * 1073741824) = _
  generalize (838860800 + x.toNat * 2097152 + im.toNat + k_ * 1073741824 : Nat) = n_ at *
  cases cl <;> first
    | exact Bool.noConfusion (show false = true from h)
    | (unfold rawDecode rawV; simp [f0, f1, f2, f3])

theorem RoundTrip.vfc (x : BitVec 3) : RoundTrip.Statement (.vfc x) := by
  intro cl sync hold h
  have key : ∀ (x' : Nat) (_ : x' < 8) (k_ n_ : Nat), n_ = 855638016 + x' * 2097152 + k_ * 1073741824 →
      855638016 + x' * 2097152 < 1073741824 ∧ n_ / 16777216 % 64 = 51 ∧ n_ % 2097152 = 0 ∧ n_ / 2097152 % 8 = x' := by
    intros; refine ⟨?_, ?_, ?_, ?_⟩ <;> omega
  refine decode_of_raw cl (.vfc x) sync hold (key x.toNat x.isLt 0 _ rfl).1 ?_ h
  intro k_ _
  obtain ⟨_, f0, f1, f2⟩ := key x.toNat x.isLt k_ _ rfl
  change rawDecode cl (855638016 + x.toNat * 2097152 + k_ * 1073741824) = _
  generalize (855638016 + x.toNat * 2097152 + k_ * 1073741824 : Nat) = n_ at *
  cases cl <;> first
    | exact Bool.noConfusion (show false = true from h)
    | (unfold rawDecode rawV; simp [f0, f1, f2])

theorem RoundTrip.vmode (x : BitVec 3) (im : BitVec 2) : RoundTrip.Statement (.vmode x im) := by
  intro cl sync hold h
  have key : ∀ (x' : Nat) (_ : x' < 8) (im' : Nat) (_ : im' < 4) (k_ n_ : Nat), n_ = 872415232 + x' * 2097152 + im' + k_ * 1073741824 →
      872415232 + x' * 2097152 + im' < 1073741824 ∧ n_ / 16777216 % 64 = 52 ∧ n_ / 4 % 524288 = 0 ∧ n_ / 2097152 % 8 = x' ∧ n_ % 4 = im' := by
    intros; refine ⟨?_, ?_, ?_, ?_, ?_⟩ <;> omega
  refine decode_of_raw cl (.vmode x im) sync hold (key x.toNat x.isLt im.toNat im.isLt 0 _ rfl).1 ?_ h
  intro k_ _
  obtain ⟨_, f0, f1, f2, f3⟩ := key x.toNat x.isLt im.toNat im.isLt k_ _ rfl
  change rawDecode cl (872415232 + x.toNat * 2097152 + im.toNat + k_ * 1073741824) = _
  generalize (872415232 + x.toNat * 2097152 + im.toNat + k_ * 1073741824 : Nat) = n_ at *
  cases cl <;> first
    | exact Bool.noConfusion (show false = true from h)
    | (unfold rawDecode rawV; simp [f0, f1, f2, f3])

theorem RoundTrip.vpop (d : BitVec 5) (q : BitVec 3) (p : BitVec 3) : RoundTrip.Statement (.vpop d q p) := by
  intro cl sync hold h
  have key : ∀ (d' : Nat) (_ : d' < 32) (q' : Nat) (_ : q' < 8) (p' : Nat) (_ : p' < 8) (k_ n_ : Nat), n_ = 905969664 + d' * 262144 + q' * 32768 + p' * 8 + k_ * 1073741824 →
      905969664 + d' * 262144 + q' * 32768 + p' * 8 < 1073741824 ∧ n_ / 16777216 % 64 = 54 ∧ n_ % 8 = 0 ∧ n_ / 64 % 512 = 0 ∧ n_ / 8388608 % 2 = 0 ∧ n_ / 262144 % 32 = d' ∧ n_ / 32768 % 8 = q' ∧ n_ / 8 % 8 = p' := by
    intros; refine ⟨?_, ?_, ?_, ?_, ?_, ?_, ?_, ?_⟩ <;> omega
  refine decode_of_raw cl (.vpop d q p) sync hold (key d.toNat d.isLt q.toNat q.isLt p.toNat p.isLt 0 _ rfl).1 ?_ h
  intro k_ _
  obtain ⟨_, f0, f1, f2, f3, f4, f5, f6⟩ := key d.toNat d.isLt q.toNat q.isLt p.toNat p.isLt k_ _ rfl
  change rawDecode cl (905969664 + d.toNat * 262144 + q.toNat * 32768 + p.toNat * 8 + k_ * 1073741824) = _
  generalize (905969664 + d.toNat * 262144 + q.toNat * 32768 + p.toNat * 8 + k_ * 1073741824 : Nat) = n_ at *
  cases cl <;> first
    | exact Bool.noConfusion (show false = true from h)
    | (unfold rawDecode rawV; simp [f0, f1, f2, f3, f4, f5, f6])

theorem RoundTrip.vpush (d : BitVec 5) (q : BitVec 3) (p : BitVec 3) : RoundTrip.Statement (.vpush d q p) := by
  intro cl sync hold h
  have key : ∀ (d' : Nat) (_ : d' < 32) (q' : Nat) (_ : q' < 8) (p' : Nat) (_ : p' < 8) (k_ n_ : Nat), n_ = 922746880 + d' * 262144 + q' * 32768 + p' * 8 + k_ * 1073741824 →
      922746880 + d' * 262144 + q' * 32768 + p' * 8 < 1073741824 ∧ n_ / 16777216 % 64 = 55 ∧ n_ % 8 = 0 ∧ n_ / 64 % 512 = 0 ∧ n_ / 8388608 % 2 = 0 ∧ n_ / 262144 % 32 = d' ∧ n_ / 32768 % 8 = q' ∧ n_ / 8 % 8 = p' := by
    intros; refine ⟨?_, ?_, ?_, ?_, ?_, ?_, ?_, ?_⟩ <;> omega
  refine decode_of_raw cl (.vpush d q p) sync hold (key d.toNat d.isLt q.toNat q.isLt p.toNat p.isLt 0 _ rfl).1 ?_ h
  intro k_ _
  obtain ⟨_, f0, f1, f2, f3, f4, f5, f6⟩ := key d.toNat d.isLt q.toNat q.isLt p.toNat p.isLt k_ _ rfl
  change rawDecode cl (922746880 + d.toNat * 262144 + q.toNat * 32768 + p.toNat * 8 + k_ * 1073741824) = _
  generalize (922746880 + d.toNat * 262144 + q.toNat * 32768 + p.toNat * 8 + k_ * 1073741824 : Nat) = n_ at *
  cases cl <;> first
    | exact Bool.noConfusion (show false = true from h)
    | (unfold rawDecode rawV; simp [f0, f1, f2, f3, f4, f5, f6])

theorem RoundTrip.commandStart (op : Nat) : RoundTrip.Statement (.commandStart op) := by
  intro cl _ _ h; cases cl <;> exact Bool.noConfusion (show false = true from h)

theorem RoundTrip.operationPerformed (op : Nat) : RoundTrip.Statement (.operationPerformed op) := by
  intro cl _ _ h; cases cl <;> exact Bool.noConfusion (show false = true from h)

theorem RoundTrip.lateFault (op : Nat) : RoundTrip.Statement (.lateFault op) := by
  intro cl _ _ h; cases cl <;> exact Bool.noConfusion (show false = true from h)

theorem RoundTrip.fullEmptyRelease (op : Nat) : RoundTrip.Statement (.fullEmptyRelease op) := by
  intro cl _ _ h; cases cl <;> exact Bool.noConfusion (show false = true from h)

theorem RoundTrip.streamGatherEntry (core : Nat) (slot : Nat) (q : BitVec 3) : RoundTrip.Statement (.streamGatherEntry core slot q) := by
  intro cl _ _ h; cases cl <;> exact Bool.noConfusion (show false = true from h)

theorem RoundTrip.streamScatterWrite (core : Nat) (slot : Nat) (q : BitVec 3) : RoundTrip.Statement (.streamScatterWrite core slot q) := by
  intro cl _ _ h; cases cl <;> exact Bool.noConfusion (show false = true from h)

theorem RoundTrip.rendezvous (core : Nat) (slot : Nat) : RoundTrip.Statement (.rendezvous core slot) := by
  intro cl _ _ h; cases cl <;> exact Bool.noConfusion (show false = true from h)

theorem RoundTrip.hbarRelease (job : BitVec 64) (scope : Nat) (site : Nat) : RoundTrip.Statement (.hbarRelease job scope site) := by
  intro cl _ _ h; cases cl <;> exact Bool.noConfusion (show false = true from h)

theorem RoundTrip.xsendDelivery (job : BitVec 64) (link : BitVec 16) (far : Bool) : RoundTrip.Statement (.xsendDelivery job link far) := by
  intro cl _ _ h; cases cl <;> exact Bool.noConfusion (show false = true from h)

theorem RoundTrip.permitReturn (job : BitVec 64) (link : BitVec 16) (far : Bool) : RoundTrip.Statement (.permitReturn job link far) := by
  intro cl _ _ h; cases cl <;> exact Bool.noConfusion (show false = true from h)

theorem RoundTrip.linkFailure (link : BitVec 16) : RoundTrip.Statement (.linkFailure link) := by
  intro cl _ _ h; cases cl <;> exact Bool.noConfusion (show false = true from h)

theorem RoundTrip.correctionFreezeEnd (core : Nat) : RoundTrip.Statement (.correctionFreezeEnd core) := by
  intro cl _ _ h; cases cl <;> exact Bool.noConfusion (show false = true from h)

theorem RoundTrip.patrolScrub (core : Nat) (addr : Nat) : RoundTrip.Statement (.patrolScrub core addr) := by
  intro cl _ _ h; cases cl <;> exact Bool.noConfusion (show false = true from h)

theorem RoundTrip.columnMigrationHold (die : Nat) (src : Nat) (dst : Nat) : RoundTrip.Statement (.columnMigrationHold die src dst) := by
  intro cl _ _ h; cases cl <;> exact Bool.noConfusion (show false = true from h)

theorem RoundTrip.columnMigrationMove (die : Nat) : RoundTrip.Statement (.columnMigrationMove die) := by
  intro cl _ _ h; cases cl <;> exact Bool.noConfusion (show false = true from h)

theorem RoundTrip.columnMigrationResume (die : Nat) : RoundTrip.Statement (.columnMigrationResume die) := by
  intro cl _ _ h; cases cl <;> exact Bool.noConfusion (show false = true from h)

theorem RoundTrip.hotQuadTimeout (die : Nat) (quad : Nat) : RoundTrip.Statement (.hotQuadTimeout die quad) := by
  intro cl _ _ h; cases cl <;> exact Bool.noConfusion (show false = true from h)

theorem RoundTrip.temperatureRead (die : Nat) (channel : Nat) (temp : BitVec 8) : RoundTrip.Statement (.temperatureRead die channel temp) := by
  intro cl _ _ h; cases cl <;> exact Bool.noConfusion (show false = true from h)

theorem RoundTrip.refreshStateChange (die : Nat) (channel : Nat) : RoundTrip.Statement (.refreshStateChange die channel) := by
  intro cl _ _ h; cases cl <;> exact Bool.noConfusion (show false = true from h)

theorem RoundTrip.walkComplete (walk : Nat) : RoundTrip.Statement (.walkComplete walk) := by
  intro cl _ _ h; cases cl <;> exact Bool.noConfusion (show false = true from h)

theorem RoundTrip.holdRetry (walk : Nat) : RoundTrip.Statement (.holdRetry walk) := by
  intro cl _ _ h; cases cl <;> exact Bool.noConfusion (show false = true from h)

theorem RoundTrip.homeRequest (req : PeerReq) : RoundTrip.Statement (.homeRequest req) := by
  intro cl _ _ h; cases cl <;> exact Bool.noConfusion (show false = true from h)

theorem RoundTrip.peerResponse (op : Nat) (err : BitVec 8) (data : List (BitVec 8)) : RoundTrip.Statement (.peerResponse op err data) := by
  intro cl _ _ h; cases cl <;> exact Bool.noConfusion (show false = true from h)

theorem RoundTrip.movedResponse (op : Nat) (home : BitVec 12) : RoundTrip.Statement (.movedResponse op home) := by
  intro cl _ _ h; cases cl <;> exact Bool.noConfusion (show false = true from h)

theorem RoundTrip.migrateAsk (pod : BitVec 32) (va : BitVec 56) (pkg : BitVec 12) : RoundTrip.Statement (.migrateAsk pod va pkg) := by
  intro cl _ _ h; cases cl <;> exact Bool.noConfusion (show false = true from h)

theorem RoundTrip.migrateNewHome (pod : BitVec 32) (va : BitVec 56) (leaf : BitVec 64) (data : List (BitVec 8)) : RoundTrip.Statement (.migrateNewHome pod va leaf data) := by
  intro cl _ _ h; cases cl <;> exact Bool.noConfusion (show false = true from h)

theorem RoundTrip.migrateRelease (pod : BitVec 32) (va : BitVec 56) : RoundTrip.Statement (.migrateRelease pod va) := by
  intro cl _ _ h; cases cl <;> exact Bool.noConfusion (show false = true from h)

theorem RoundTrip.pageMove (asr : Nat) (va : BitVec 56) (die : Nat) : RoundTrip.Statement (.pageMove asr va die) := by
  intro cl _ _ h; cases cl <;> exact Bool.noConfusion (show false = true from h)

theorem RoundTrip.pageMoveFinish (asr : Nat) (va : BitVec 56) : RoundTrip.Statement (.pageMoveFinish asr va) := by
  intro cl _ _ h; cases cl <;> exact Bool.noConfusion (show false = true from h)

theorem RoundTrip.inval (q : Nat) : RoundTrip.Statement (.inval q) := by
  intro cl _ _ h; cases cl <;> exact Bool.noConfusion (show false = true from h)

theorem RoundTrip.invalComplete (inv : Nat) : RoundTrip.Statement (.invalComplete inv) := by
  intro cl _ _ h; cases cl <;> exact Bool.noConfusion (show false = true from h)

theorem RoundTrip.launch (q : Nat) : RoundTrip.Statement (.launch q) := by
  intro cl _ _ h; cases cl <;> exact Bool.noConfusion (show false = true from h)

theorem RoundTrip.replay (q : Nat) : RoundTrip.Statement (.replay q) := by
  intro cl _ _ h; cases cl <;> exact Bool.noConfusion (show false = true from h)

theorem RoundTrip.replayNodeLaunch (rep : Nat) (node : Nat) : RoundTrip.Statement (.replayNodeLaunch rep node) := by
  intro cl _ _ h; cases cl <;> exact Bool.noConfusion (show false = true from h)

theorem RoundTrip.alloc (q : Nat) : RoundTrip.Statement (.alloc q) := by
  intro cl _ _ h; cases cl <;> exact Bool.noConfusion (show false = true from h)

theorem RoundTrip.free (q : Nat) : RoundTrip.Statement (.free q) := by
  intro cl _ _ h; cases cl <;> exact Bool.noConfusion (show false = true from h)

theorem RoundTrip.signal (q : Nat) : RoundTrip.Statement (.signal q) := by
  intro cl _ _ h; cases cl <;> exact Bool.noConfusion (show false = true from h)

theorem RoundTrip.queueDescriptorWrite (port : BitVec 3) (q : Nat) (off : Nat) (data : List (BitVec 8)) : RoundTrip.Statement (.queueDescriptorWrite port q off data) := by
  intro cl _ _ h; cases cl <;> exact Bool.noConfusion (show false = true from h)

theorem RoundTrip.queueTailWrite (port : BitVec 3) (q : Nat) (tail : BitVec 64) : RoundTrip.Statement (.queueTailWrite port q tail) := by
  intro cl _ _ h; cases cl <;> exact Bool.noConfusion (show false = true from h)

theorem RoundTrip.queueErrorClear (port : BitVec 3) (q : Nat) : RoundTrip.Statement (.queueErrorClear port q) := by
  intro cl _ _ h; cases cl <;> exact Bool.noConfusion (show false = true from h)

theorem RoundTrip.unitPlacement (die : Nat) : RoundTrip.Statement (.unitPlacement die) := by
  intro cl _ _ h; cases cl <;> exact Bool.noConfusion (show false = true from h)

theorem RoundTrip.corRelease (job : BitVec 64) : RoundTrip.Statement (.corRelease job) := by
  intro cl _ _ h; cases cl <;> exact Bool.noConfusion (show false = true from h)

theorem RoundTrip.strandStart (core : Nat) (slot : Nat) : RoundTrip.Statement (.strandStart core slot) := by
  intro cl _ _ h; cases cl <;> exact Bool.noConfusion (show false = true from h)

theorem RoundTrip.strandEnd (core : Nat) (slot : Nat) : RoundTrip.Statement (.strandEnd core slot) := by
  intro cl _ _ h; cases cl <;> exact Bool.noConfusion (show false = true from h)

theorem RoundTrip.jobComplete (job : BitVec 64) : RoundTrip.Statement (.jobComplete job) := by
  intro cl _ _ h; cases cl <;> exact Bool.noConfusion (show false = true from h)

theorem RoundTrip.spillRingFaultResolved (quad : Nat) : RoundTrip.Statement (.spillRingFaultResolved quad) := by
  intro cl _ _ h; cases cl <;> exact Bool.noConfusion (show false = true from h)

theorem RoundTrip.spillRingTimeout (quad : Nat) : RoundTrip.Statement (.spillRingTimeout quad) := by
  intro cl _ _ h; cases cl <;> exact Bool.noConfusion (show false = true from h)

theorem RoundTrip.faultFreezeEnd (core : Nat) : RoundTrip.Statement (.faultFreezeEnd core) := by
  intro cl _ _ h; cases cl <;> exact Bool.noConfusion (show false = true from h)

theorem RoundTrip.trapHandlerEntry (core : Nat) (slot : Nat) : RoundTrip.Statement (.trapHandlerEntry core slot) := by
  intro cl _ _ h; cases cl <;> exact Bool.noConfusion (show false = true from h)

theorem RoundTrip.watchdogExpiry (core : Nat) (slot : Nat) (cluster : Cluster) : RoundTrip.Statement (.watchdogExpiry core slot cluster) := by
  intro cl _ _ h; cases cl <;> exact Bool.noConfusion (show false = true from h)

theorem RoundTrip.preemptRequest (job : BitVec 64) (unit : BitVec 24) : RoundTrip.Statement (.preemptRequest job unit) := by
  intro cl _ _ h; cases cl <;> exact Bool.noConfusion (show false = true from h)

theorem RoundTrip.saveStart (core : Nat) (slot : Nat) : RoundTrip.Statement (.saveStart core slot) := by
  intro cl _ _ h; cases cl <;> exact Bool.noConfusion (show false = true from h)

theorem RoundTrip.saveWrite (core : Nat) (slot : Nat) : RoundTrip.Statement (.saveWrite core slot) := by
  intro cl _ _ h; cases cl <;> exact Bool.noConfusion (show false = true from h)

theorem RoundTrip.saveTimeout (core : Nat) (slot : Nat) : RoundTrip.Statement (.saveTimeout core slot) := by
  intro cl _ _ h; cases cl <;> exact Bool.noConfusion (show false = true from h)

theorem RoundTrip.restore (job : BitVec 64) (unit : BitVec 24) : RoundTrip.Statement (.restore job unit) := by
  intro cl _ _ h; cases cl <;> exact Bool.noConfusion (show false = true from h)

theorem RoundTrip.jobkill (port : BitVec 3) (job : BitVec 64) : RoundTrip.Statement (.jobkill port job) := by
  intro cl _ _ h; cases cl <;> exact Bool.noConfusion (show false = true from h)

theorem RoundTrip.killDrained (job : BitVec 64) : RoundTrip.Statement (.killDrained job) := by
  intro cl _ _ h; cases cl <;> exact Bool.noConfusion (show false = true from h)

theorem RoundTrip.killCertificate (job : BitVec 64) : RoundTrip.Statement (.killCertificate job) := by
  intro cl _ _ h; cases cl <;> exact Bool.noConfusion (show false = true from h)

theorem RoundTrip.claim (port : BitVec 3) : RoundTrip.Statement (.claim port) := by
  intro cl _ _ h; cases cl <;> exact Bool.noConfusion (show false = true from h)

theorem RoundTrip.handover (port : BitVec 3) (value : BitVec 64) : RoundTrip.Statement (.handover port value) := by
  intro cl _ _ h; cases cl <;> exact Bool.noConfusion (show false = true from h)

theorem RoundTrip.ownerLinkTimeout : RoundTrip.Statement (.ownerLinkTimeout) := by
  intro cl _ _ h; cases cl <;> exact Bool.noConfusion (show false = true from h)

theorem RoundTrip.portLinkChange (port : BitVec 3) (up : Bool) : RoundTrip.Statement (.portLinkChange port up) := by
  intro cl _ _ h; cases cl <;> exact Bool.noConfusion (show false = true from h)

theorem RoundTrip.bar4Read (port : BitVec 3) (off : Nat) (len : Nat) : RoundTrip.Statement (.bar4Read port off len) := by
  intro cl _ _ h; cases cl <;> exact Bool.noConfusion (show false = true from h)

theorem RoundTrip.bar4Write (port : BitVec 3) (off : Nat) (data : List (BitVec 8)) : RoundTrip.Statement (.bar4Write port off data) := by
  intro cl _ _ h; cases cl <;> exact Bool.noConfusion (show false = true from h)

theorem RoundTrip.registerWrite (port : BitVec 3) (off : Nat) (value : BitVec 64) : RoundTrip.Statement (.registerWrite port off value) := by
  intro cl _ _ h; cases cl <;> exact Bool.noConfusion (show false = true from h)

theorem RoundTrip.firmwareLoad (port : BitVec 3) (img : List (BitVec 8)) : RoundTrip.Statement (.firmwareLoad port img) := by
  intro cl _ _ h; cases cl <;> exact Bool.noConfusion (show false = true from h)

theorem RoundTrip.coldStart : RoundTrip.Statement (.coldStart) := by
  intro cl _ _ h; cases cl <;> exact Bool.noConfusion (show false = true from h)

theorem RoundTrip.warmStart (port : Option (BitVec 3)) : RoundTrip.Statement (.warmStart port) := by
  intro cl _ _ h; cases cl <;> exact Bool.noConfusion (show false = true from h)

theorem RoundTrip.status : RoundTrip.Statement (.status) := by
  intro cl _ _ h; cases cl <;> exact Bool.noConfusion (show false = true from h)

theorem RoundTrip.lease : RoundTrip.Statement (.lease) := by
  intro cl _ _ h; cases cl <;> exact Bool.noConfusion (show false = true from h)

theorem RoundTrip.scrub : RoundTrip.Statement (.scrub) := by
  intro cl _ _ h; cases cl <;> exact Bool.noConfusion (show false = true from h)

theorem RoundTrip.attest (port : Option (BitVec 3)) (nonce : List (BitVec 8)) : RoundTrip.Statement (.attest port nonce) := by
  intro cl _ _ h; cases cl <;> exact Bool.noConfusion (show false = true from h)

theorem RoundTrip.portmode (modes : BitVec 5) : RoundTrip.Statement (.portmode modes) := by
  intro cl _ _ h; cases cl <;> exact Bool.noConfusion (show false = true from h)

theorem RoundTrip.fabric (cmd : FabricCmd) : RoundTrip.Statement (.fabric cmd) := by
  intro cl _ _ h; cases cl <;> exact Bool.noConfusion (show false = true from h)

theorem RoundTrip.image (img : List (BitVec 8)) : RoundTrip.Statement (.image img) := by
  intro cl _ _ h; cases cl <;> exact Bool.noConfusion (show false = true from h)

theorem RoundTrip.svnraise : RoundTrip.Statement (.svnraise) := by
  intro cl _ _ h; cases cl <;> exact Bool.noConfusion (show false = true from h)

theorem RoundTrip.release : RoundTrip.Statement (.release) := by
  intro cl _ _ h; cases cl <;> exact Bool.noConfusion (show false = true from h)

theorem RoundTrip.routingReport (member : BitVec 12) (count : Nat) : RoundTrip.Statement (.routingReport member count) := by
  intro cl _ _ h; cases cl <;> exact Bool.noConfusion (show false = true from h)

theorem RoundTrip.deliveryPacket (epoch : BitVec 32) (seq : BitVec 16) (req : PeerReq) : RoundTrip.Statement (.deliveryPacket epoch seq req) := by
  intro cl _ _ h; cases cl <;> exact Bool.noConfusion (show false = true from h)

theorem RoundTrip.deliveryAck (ctx : Nat) (seq : BitVec 16) : RoundTrip.Statement (.deliveryAck ctx seq) := by
  intro cl _ _ h; cases cl <;> exact Bool.noConfusion (show false = true from h)

theorem RoundTrip.retransmitTimeout (ctx : Nat) : RoundTrip.Statement (.retransmitTimeout ctx) := by
  intro cl _ _ h; cases cl <;> exact Bool.noConfusion (show false = true from h)

theorem RoundTrip.contextTeardown (ctx : Nat) : RoundTrip.Statement (.contextTeardown ctx) := by
  intro cl _ _ h; cases cl <;> exact Bool.noConfusion (show false = true from h)

theorem RoundTrip.contextClose (pkg : BitVec 12) (pod : BitVec 32) (epoch : BitVec 32) : RoundTrip.Statement (.contextClose pkg pod epoch) := by
  intro cl _ _ h; cases cl <;> exact Bool.noConfusion (show false = true from h)

theorem RoundTrip.closeAbandon (ctx : Nat) : RoundTrip.Statement (.closeAbandon ctx) := by
  intro cl _ _ h; cases cl <;> exact Bool.noConfusion (show false = true from h)

theorem RoundTrip.allowanceUpdate (levels : List (BitVec 4)) : RoundTrip.Statement (.allowanceUpdate levels) := by
  intro cl _ _ h; cases cl <;> exact Bool.noConfusion (show false = true from h)

theorem RoundTrip.malformedHeader (q : Nat) : RoundTrip.Statement (.malformedHeader q) := by
  intro cl _ _ h; cases cl <;> exact Bool.noConfusion (show false = true from h)

theorem RoundTrip.migrationRefused (pod : BitVec 32) (va : BitVec 56) : RoundTrip.Statement (.migrationRefused pod va) := by
  intro cl _ _ h; cases cl <;> exact Bool.noConfusion (show false = true from h)

theorem RoundTrip.fibreDown (fibre : Nat) : RoundTrip.Statement (.fibreDown fibre) := by
  intro cl _ _ h; cases cl <;> exact Bool.noConfusion (show false = true from h)

theorem RoundTrip.powerFailure : RoundTrip.Statement (.powerFailure) := by
  intro cl _ _ h; cases cl <;> exact Bool.noConfusion (show false = true from h)

end Sys2Proof.Laws
end

