-- ==== Sys2Proof/Tests/Slice0.lean ====
section
/-! SUPPORT. Tests: the checks of well-formedness, words written out from the spec, one step of single instructions on small states,
and, for every statement with hypotheses, states that meet them. -/

set_option Elab.async false

namespace Sys2Proof.Tests

open Sys2Proof.Machine

/-! Every check of `Instr.minorOk` and `Instr.regsOk` refuses a term (R223, steps 1 and 3). -/

theorem test_wf_fe : (Instr.bld 1 2 0 3 0).wf .c = false ∧ (Instr.bst 1 2 0 3 0).wf .c = false := by decide
theorem test_wf_ared_op : (Instr.ared 1 2 12 0 0).wf .c = false := by decide
theorem test_wf_ared_size : (Instr.ared 1 2 0 2 0).wf .c = false := by decide
theorem test_wf_atomic_size : ∀ i ∈ [Instr.aadd 1 2 3 2 0, .aand 1 2 3 2 0, .aor 1 2 3 2 0, .axor 1 2 3 2 0, .aswp 1 2 3 2 0,
    .amin 1 2 3 2 0, .amax 1 2 3 2 0, .aminn 1 2 3 2 0, .amaxn 1 2 3 2 0, .afadd 1 2 3 2 0, .afmax 1 2 3 2 0, .afmin 1 2 3 2 0,
    .acas 1 2 3 2 0], i.wf .c = false := by decide
theorem test_wf_condition : (Instr.branch 1 2 6 0).wf .c = false := by decide
theorem test_wf_itmod_field : (Instr.itmod 1 9 2).wf .g = false := by decide
theorem test_wf_sbind_chain : (Instr.sbind 1 2 1 0 0 0).wf .g = false := by decide
theorem test_wf_cp_compress : (Instr.cp 1 2 3 4 0 0 3).wf .g = false := by decide
theorem test_wf_wsort_size : (Instr.wsort 1 2 3 4 0 3 0).wf .g = false := by decide
theorem test_wf_collective_op : (Instr.clAr 1 2 3 0 0 2 3 0).wf .g = false ∧ (Instr.clRs 1 2 3 0 0 2 0 3).wf .g = false := by decide
theorem test_wf_collective_root : (Instr.clAr 1 2 3 1 0 2 0 0).wf .g = false ∧ (Instr.clRs 1 2 3 1 0 2 0 0).wf .g = false := by decide
theorem test_wf_bkt : (Instr.bkt 1 2 3 0 3 0 0).wf .m = false := by decide
theorem test_wf_tmma_shape : (Instr.tmma 3 0 1 2 3 0 0).wf .m = false ∧ (Instr.tmmaSp 3 0 1 2 3 4 0 0).wf .m = false := by decide
theorem test_wf_mstat : (Instr.mstat 1 3).wf .m = false := by decide
theorem test_wf_vcmp : (Instr.vcmp 0 1 2 3 7 0 0).wf .v = false := by decide
theorem test_wf_vred_op : (Instr.vred 0 1 2 0 3 0 0 0).wf .v = false ∧ (Instr.vscan 0 1 2 0 3 0 0 0).wf .v = false := by decide
theorem test_wf_vsplat : (Instr.vsplat 0 1 0 8 0).wf .v = false := by decide
theorem test_wf_vfr : (Instr.vfr 1 2).wf .v = false := by decide
theorem test_wf_vmode : (Instr.vmode 1 1).wf .v = false := by decide
theorem test_wf_common_register : (Instr.branch 8 0 0 0).wf .g = false ∧ (Instr.jal 8 0).wf .m = false ∧ (Instr.jr 8).wf .v = false ∧
    (Instr.loop 0 8 0 0).wf .g = false := by decide
theorem test_wf_vector_source : (Instr.vadd 0 1 45 0 0 0 0).wf .v = false ∧ (Instr.vsel 0 1 0 45 0 0 0).wf .v = false ∧
    (Instr.vgth 0 1 45 0 0).wf .v = false ∧ (Instr.vsct 1 45 0 0).wf .v = false ∧ (Instr.pfirst 1 45).wf .v = false := by decide
theorem test_wf_cluster : (Instr.add 1 2 3).wf .g = false ∧ (Instr.itld 1 2 0).wf .c = false ∧ (Instr.tmma 0 0 1 2 3 0 0).wf .v = false ∧
    (Instr.vtrn 0 1 2 0 0 0).wf .m = false := by decide
theorem test_wf_event : ∀ cl, Instr.status.wf cl = false := fun cl => by cases cl <;> rfl

/-! Words written out from the encodings and examples of the spec, and what they decode to. -/

theorem test_word_acas : decodeWord .c 0x20228B8A = .ok (.acas 4 10 5 1 2) := rfl
theorem test_word_addi : decodeWord .c 0x02280001 = .ok (.addi 5 0 1) := rfl
theorem test_word_lhi : decodeWord .c 0x0A280142 = .ok (.lhi 5 0x142) := rfl
theorem test_word_loop : decodeWord .c 0x3B0E0400 = .ok (.loop 0 7 2 0) := rfl
theorem test_word_branch : decodeWord .c 0x3808C802 = .ok (.branch 1 3 1 2) := rfl
theorem test_word_resume : decodeWord .c 0x34000000 = .ok (.resume 0) := rfl
theorem test_word_sysrd : decodeWord .c 0x30080400 = .ok (.sysRd 1 0x100) := rfl
theorem test_word_cp : decodeWord .g 0x0CBB8780 = .ok (.cp 5 6 7 0 3 1 2) := rfl
theorem test_word_dep : decodeWord .g 0x01523000 = .ok (.dep 5 2 3 0) ∧ decodeWord .m 0x01523000 = .ok (.dep 5 2 3 0) := ⟨rfl, rfl⟩
theorem test_word_gmov : decodeWord .g 0x022C0000 = .ok (.gmov 1 12) := rfl
theorem test_word_gadd : decodeWord .g 0x036FFFC0 = .ok (.gadd 3 3 (-64)) := rfl
theorem test_word_sbind : decodeWord .g 0x09474001 = .ok (.sbind 2 1 3 0 1 1) := rfl
theorem test_word_wsort : decodeWord .g 0x1029C480 = .ok (.wsort 1 2 3 4 2 1 0) := rfl
theorem test_word_xsend : decodeWord .g 0x12458800 = .ok (.xsend 2 1 3 4) := rfl
theorem test_word_xgrant : decodeWord .g 0x14400A00 = .ok (.xgrant 2 5) := rfl
theorem test_word_clar : decodeWord .g 0x16250100 = .ok (.clAr 1 1 2 0 0 4 0 0) := rfl
theorem test_word_bktz : decodeWord .m 0x04480001 = .ok (.bktz 2 2 1) := rfl
theorem test_word_bkt : decodeWord .m 0x0529AB01 = .ok (.bkt 1 2 3 2 2 3 1) := rfl
theorem test_word_bfin : decodeWord .m 0x0672B001 = .ok (.bfin 3 4 5 3 1) := rfl
theorem test_word_spc : decodeWord .m 0x0929C002 = .ok (.spc 1 2 3 4 0 2) := rfl
theorem test_word_tmmasp : decodeWord .m 0x08012A35 = .ok (.tmmaSp 0 1 1 2 4 3 2 1) := rfl
theorem test_word_quant2 : decodeWord .m 0x0D377900 = .ok (.quant2 1 5 6 7 9 0) := rfl
theorem test_word_mstat : decodeWord .m 0x0F420000 = .ok (.mstat 2 1) := rfl
theorem test_word_vsh : decodeWord .v 0x01070000 = .ok (.vsh 7) := rfl
theorem test_word_pset : decodeWord .v 0x2F2A0000 = .ok (.pset 1 2 2) := rfl
theorem test_word_vred : decodeWord .v 0x56A01008 = .ok (.vred 1 8 1 0 0 1 0 0) ∧ wordHold 0x56A01008 = true := ⟨rfl, rfl⟩
theorem test_word_vmul : decodeWord .v 0x04268080 = .ok (.vmul 0 9 40 2 0 0 0) := rfl
theorem test_word_vld : decodeWord .v 0x2600A008 = .ok (.vld 0 1 2 1) := rfl
theorem test_word_zero : ∀ cl, decodeWord cl 0 = .error .illegalInstruction := fun cl => by cases cl <;> rfl
theorem test_word_bad_register : decodeWord .g 0x3A400000 = .error .illegalOperand := rfl
/-- The table's numbering: the word's bits from bit 0 up. -/
theorem test_table_word : decodeTableWord 32 0x02280001 = some (.addi 5 0 1) := rfl


/-! Small states: one job with one unit of one strand in slot 0 of core 0, whose word is at issue. -/

/-- The strand's identity. -/
def who : Ident := { job := 5, unit := 0, strand := 0, nstr := 1, role := 0, quadpos := 0, arg := 7, weight := 8 }

/-- A unit with a bench window of 64 KiB and an accumulator window of 1 MiB. -/
def unit0 : UnitRec :=
  { job := 5, num := 0, core := 0, benchBase := 0, benchSize := 0x10000, accBase := 0, accSize := 0x100000, member := 0, gsize := 1,
    col := 0, quadpos := 0, live := [0], placed := true, ended := false, saved := false, released := true, restoring := false, colls := [] }

/-- Its job, which has started; no page is mapped. -/
def job0 : Job :=
  { id := 5, queue := 3, ticket := 0, sigctr := 0, irq := false, asr := 0, root := 0, arg := 7, nunits := 1, nstr := 1, gsize := 1, klass := 0,
    corFlag := true, dies := 1, age := 64, weights := [8], benchw := 0x10000, stratw := 0x10000, accw := 0x100000, migThr := 0, waits := [],
    pod := 0, podN := 0, podIdx := 0, links := [], roles := [0], prog := 0, level := 0, streams := [], bimg := (0, 0), simg := (0, 0),
    descs := [], cols := [{ die := 0, col := 0, core := 0, base := 0 }], started := true, killStep := 0, killFlags := 0, cancelled := 0,
    contexts := 0, status := 0, errTok := 0, errBar := 0, slots := [(0, 0)], signalled := false, parts := [] }

/-- A strand whose cluster `cl` has an image of one word and whose other clusters have ended. -/
def strandOf (cl : Cluster) (w : Word) : Strand :=
  let img (k : Cluster) : List Word := if k = cl then [w, 0, 0, 0] else [0]
  let σ := Strand.fresh 0 who (img .c) (img .g) (img .m) (img .v) (List.replicate 8 odFresh)
  [Cluster.c, .g, .m, .v].foldl (fun σ k => σ.modCl k fun x => { x with ended := decide (k ≠ cl) }) σ

/-- The state in which the word of a strand is at issue. -/
def rigOf (cl : Cluster) (w : Word) (σ : Strand) : State :=
  let r := State.reset
  { r with ch := { r.ch with strands := [σ], units := [unit0], jobs := [job0], turn := turnOf 0 cl w } }

def rig (cl : Cluster) (f : Strand → Strand) : State := rigOf cl 0 (f (strandOf cl 0))

/-- The outcome is a next state of which `p` holds. -/
def leads (o : Host.Outcome State Fault Refusal) (p : State → Bool) : Bool :=
  match o with
  | .next t => p t
  | _ => false

/-- The next state's strand in slot 0. -/
def gives (o : Host.Outcome State Fault Refusal) (p : Strand → Bool) : Bool := leads o fun t => (t.ch.strand? 0).any p

/-- Two scalar registers of C written. -/
def two (a b : Reg) (σ : Strand) : Strand := (σ.setS 1 a).setS 2 b

/-- An instruction of C on s1 and s2 leaves a value in s3. -/
def alu (i : Instr) (a b r : Reg) : Bool := gives (exec i (rig .c (two a b))) fun τ => τ.getS 3 == r && τ.c.pc == 4

/-- The strand is frozen with a cause. -/
def trapsWith (o : Host.Outcome State Fault Refusal) (cause : BitVec 8) : Bool :=
  gives o fun τ => τ.trap.phase == .frozen && τ.trap.info.cause == cause

/-! One step each; the expected values are calculated from the rules by hand. -/

theorem test_add_wraps : alu (.add 3 1 2) 0xFFFFFFFFFFFFFFFF 2 1 = true := by decide
theorem test_sub : alu (.sub 3 1 2) 0 1 0xFFFFFFFFFFFFFFFF = true := by decide
theorem test_div_least : alu (.div 3 1 2) 0x8000000000000000 0xFFFFFFFFFFFFFFFF 0x8000000000000000 = true := by decide

theorem test_mul_wraps : alu (.mul 3 1 2) 0x8000000000000001 2 2 = true := by decide
theorem test_mulh_floor : alu (.mulh 3 1 2) 0xFFFFFFFFFFFFFFFF 1 0xFFFFFFFFFFFFFFFF = true := by decide
theorem test_mulhn : alu (.mulhn 3 1 2) 0xFFFFFFFFFFFFFFFF 0xFFFFFFFFFFFFFFFF 0xFFFFFFFFFFFFFFFE = true := by decide
theorem test_div_zero : gives (exec (.div 3 1 2) (rig .c (two 7 0))) (fun τ => τ.getS 3 == 0xFFFFFFFFFFFFFFFF && τ.trap.dzi) = true := by
  decide
theorem test_divn : alu (.divn 3 1 2) 0xFFFFFFFFFFFFFFFF 2 0x7FFFFFFFFFFFFFFF = true := by decide
theorem test_rem_sign : alu (.rem 3 1 2) 0xFFFFFFFFFFFFFFF9 2 0xFFFFFFFFFFFFFFFF = true := by decide
theorem test_remn_zero : gives (exec (.remn 3 1 2) (rig .c (two 7 0))) (fun τ => τ.getS 3 == 7 && τ.trap.dzi) = true := by decide
theorem test_andn : alu (.andn 3 1 2) 0xFF 0x0F 0xF0 = true := by decide
theorem test_sra : alu (.sra 3 1 2) 0xFFFFFFFFFFFFFFF8 1 0xFFFFFFFFFFFFFFFC = true := by decide
theorem test_shl_six_bits : alu (.shl 3 1 2) 5 64 5 = true := by decide
theorem test_shr : alu (.shr 3 1 2) 0xFFFFFFFFFFFFFFFF 63 1 = true := by decide
theorem test_rot : alu (.rot 3 1 2) 0x8000000000000001 1 3 = true := by decide
theorem test_min_signed : alu (.min 3 1 2) 0xFFFFFFFFFFFFFFFF 1 0xFFFFFFFFFFFFFFFF = true := by decide
theorem test_minn : alu (.minn 3 1 2) 0xFFFFFFFFFFFFFFFF 1 1 = true := by decide
theorem test_slt : alu (.slt 3 1 2) 0xFFFFFFFFFFFFFFFF 1 1 = true := by decide
theorem test_sltn : alu (.sltn 3 1 2) 0xFFFFFFFFFFFFFFFF 1 0 = true := by decide
theorem test_sne : alu (.sne 3 1 2) 4 4 0 = true := by decide
theorem test_clz_zero : alu (.clz 3 1) 0 0 64 = true := by decide
theorem test_ctz : alu (.ctz 3 1) 0x10 0 4 = true := by decide
theorem test_popc : alu (.popc 3 1) 0xF0F 0 8 = true := by decide
theorem test_addi_negative : alu (.addi 3 1 0x3FFF) 0 0 0xFFFFFFFFFFFFFFFF = true := by decide
theorem test_andi_zero_extends : alu (.andi 3 1 0x3FFF) 0xFFFFFFFFFFFFFFFF 0 0x3FFF = true := by decide
theorem test_sltni_extends_sign : alu (.sltni 3 1 0x3FFF) 5 0 1 = true := by decide
theorem test_srai : alu (.srai 3 1 63) 0x8000000000000000 0 0xFFFFFFFFFFFFFFFF = true := by decide
theorem test_lui : alu (.lui 3 0x40000) 0 0 0xFFFFFFFF00000000 = true := by decide
theorem test_lhi : gives (exec (.lhi 1 5) (rig .c (two 1 0))) (fun τ => τ.getS 1 == 0x80005) = true := by decide
theorem test_lea : alu (.lea 3 1 2 3) 1 3 25 = true := by decide
theorem test_bfx_sign : alu (.bfx 3 1 4 3) 0xF0 0 0xFFFFFFFFFFFFFFFF = true := by decide
theorem test_bfxn : alu (.bfxn 3 1 4 3) 0xF0 0 15 = true := by decide
theorem test_bfi : gives (exec (.bfi 2 1 8 7) (rig .c (two 0x12 0xFFFFFF))) (fun τ => τ.getS 2 == 0xFF12FF) = true := by decide
theorem test_bfx_leaves : trapsWith (exec (.bfx 3 1 60 4) (rig .c id)) 0x02 = true := by decide
theorem test_ptag_set : alu (.ptagSet 3 1 2) 0x0123456789ABCDEF 0x1F 0xF123456789ABCDEF = true := by decide
theorem test_ptag_get : alu (.ptagGet 3 1) 0x3FFFFFFFFFFFFFFF 0 3 = true := by decide
theorem test_s0_discards : gives (exec (.addi 0 0 5) (rig .c id)) (fun τ => τ.getS 0 == 0 && τ.c.pc == 4) = true := by decide

theorem test_jal_link : gives (exec (.jal 4 2) (rig .c id)) (fun τ => τ.getS 4 == 4 && τ.c.pc == 8) = true := by decide
theorem test_jal_outside : trapsWith (exec (.jal 4 4) (rig .c id)) 0x14 = true := by decide
theorem test_jr_misaligned : trapsWith (exec (.jr 1) (rig .c (two 6 0))) 0x13 = true := by decide
theorem test_branch_taken : gives (exec (.branch 1 2 2 3) (rig .c (two 0xFFFFFFFFFFFFFFFF 0))) (fun τ => τ.c.pc == 12) = true := by decide
theorem test_branch_unsigned : gives (exec (.branch 1 2 4 3) (rig .c (two 0xFFFFFFFFFFFFFFFF 0))) (fun τ => τ.c.pc == 4) = true := by decide
theorem test_loop_zero : gives (exec (.loop 0 1 1 0) (rig .c (two 0 0))) (fun τ => τ.c.pc == 12 && τ.c.loops == []) = true := by decide
theorem test_loop_starts : gives (exec (.loop 0 1 1 0) (rig .c (two 9 0))) (fun τ => τ.c.pc == 4 && (τ.c.loops.map (·.n)) == [9]) = true := by
  decide
theorem test_lbrk_outside : trapsWith (exec .lbrk (rig .c id)) 0x01 = true := by decide
theorem test_done : gives (exec .done (rig .m id)) (fun τ => τ.m.ended) = true := by decide
theorem test_nop : gives (exec .nop (rig .v id)) (fun τ => τ.v.pc == 4) = true := by decide

theorem test_sysrd_arg : gives (exec (.sysRd 3 3) (rig .c id)) (fun τ => τ.getS 3 == 7) = true := by decide
theorem test_sysrd_privileged : trapsWith (exec (.sysRd 3 0x100) (rig .c id)) 0x04 = true := by decide
theorem test_syswr_trapen : gives (exec (.sysWr 1 0x22) (rig .c (two 0xFF 0))) (fun τ => τ.trap.trapen == 0x3F) = true := by decide
theorem test_trap_code : gives (exec (.trap 0xBEEF) (rig .c id))
    (fun τ => τ.trap.info.cause == 0x3D && τ.trap.info.code == 0xBEEF && τ.c.pc == 4) = true := by decide
theorem test_xgate_divide : gives (exec .xgate (rig .c fun σ => { σ with trap := { σ.trap with dzi := true } }))
    (fun τ => τ.trap.info.cause == 0x21 && !τ.trap.dzi) = true := by decide
theorem test_rbase_user : trapsWith (exec .rbase (rig .c id)) 0x04 = true := by decide
theorem test_resume_user : trapsWith (exec (.resume 0) (rig .c id)) 0x04 = true := by decide
theorem test_yield : gives (exec .yield (rig .c id)) (fun τ => τ.c.yielded && τ.c.pc == 4) = true := by decide

theorem test_odseti : gives (exec (.odseti 2 1 0x0F 3) (rig .c id)) (fun τ => nth 0 τ.od 2 == 0x87B) = true := by decide
theorem test_odseti_scope : trapsWith (exec (.odseti 2 1 0x0F 5) (rig .c id)) 0x02 = true := by decide
theorem test_tktest : gives (exec (.tktest 3 4) (rig .c fun σ => σ.setToken 4 { Token.fresh with st := 3, cause := 0x31 }))
    (fun τ => τ.getS 3 == 0x3103) = true := by decide
theorem test_tkwait_error : trapsWith (exec (.tkwait 4) (rig .c fun σ => σ.setToken 4 { Token.fresh with st := 3, cause := 0x31 })) 0x31 = true := by
  decide
theorem test_tkpost_zero : trapsWith (exec (.tkpost 0 0 1) (rig .c id)) 0x02 = true := by decide

/-- A bench pointer: tag 1 in bits [63:60] (R10, R13). -/
theorem test_load_issues : leads (exec (.bld 3 1 0 0 0) (rig .c (two 0x1000000000000010 0)))
    (fun t => (t.ch.ops.map fun o => (o.locs.flatMap fun l => l.segs.map fun g => (g.phys, g.len))) == [[(0x20000000010, 8)]]) = true := by decide
theorem test_load_misaligned : trapsWith (exec (.bld 3 1 0 0 0) (rig .c (two 0x1000000000000014 0))) 0x13 = true := by decide
theorem test_load_past_window : trapsWith (exec (.bld 3 1 0 0 0) (rig .c (two 0x1000000000010000 0))) 0x14 = true := by decide
theorem test_load_bad_tag : trapsWith (exec (.bld 3 1 0 0 0) (rig .c (two 0x5000000000000000 0))) 0x12 = true := by decide
theorem test_load_other_space : trapsWith (exec (.ld64 3 1 0 0) (rig .c (two 0x1000000000000010 0))) 0x12 = true := by decide
theorem test_store_reads_data : leads (exec (.bst 2 1 0 0 0) (rig .c (two 0x1000000000000008 42)))
    (fun t => (t.ch.ops.map fun o => nth 0 o.vals 0) == [42]) = true := by decide
theorem test_bar_count_zero : trapsWith (exec (.barInit 1 2 0) (rig .c (two 0x1000000000000000 0))) 0x02 = true := by decide
theorem test_hbar_scope : trapsWith (exec (.hbarAw 5 0) (rig .c id)) 0x02 = true := by decide

theorem test_gmov_zero : gives (exec (.gmov 1 0) (rig .g fun σ => { σ with gr := { σ.gr with snap := { σ.gr.snap with s := List.replicate 32 9 } } }))
    (fun τ => τ.getG 1 == 0) = true := by decide
theorem test_gadd_negative : gives (exec (.gadd 3 3 (-64)) (rig .g fun σ => σ.setG 3 64)) (fun τ => τ.getG 3 == 0) = true := by decide
theorem test_glea : gives (exec (.glea 1 2 3 2) (rig .g fun σ => (σ.setG 2 1).setG 3 5)) (fun τ => τ.getG 1 == 21) = true := by decide
theorem test_itmod_unloaded : trapsWith (exec (.itmod 1 0 2) (rig .g id)) 0x02 = true := by decide
theorem test_sunbind_unbound : trapsWith (exec (.sunbind 1) (rig .g id)) 0x02 = true := by decide
theorem test_mstat_file : gives (exec (.mstat 1 1) (rig .m id)) (fun τ => τ.getM 1 == 0) = true := by decide
theorem test_madd : gives (exec (.madd 1 2 (-1)) (rig .m id)) (fun τ => τ.getM 1 == 0xFFFFFFFFFFFFFFFF) = true := by decide
theorem test_bktz_zero : trapsWith (exec (.bktz 1 0 0) (rig .m id)) 0x02 = true := by decide

/-- A V strand with shape f32, one row of one column, and one value in v1 and v2. -/
def vrig (a b : BitVec 8192) : State :=
  rig .v fun σ => { σ with vr := { σ.vr with vsh := 0x00801000, v := [0, a, b] ++ List.replicate 29 0 } }

theorem test_vadd_float : gives (exec (.vadd 0 3 1 2 0 0 0) (vrig 0x3F800000 0x40000000)) (fun τ => nth 0 τ.vr.v 3 == 0x40400000) = true := by
  decide +kernel
theorem test_vmin_zero_sign : gives (exec (.vmin 0 3 1 2 0 0 0) (vrig 0x80000000 0)) (fun τ => nth 0 τ.vr.v 3 == 0x80000000) = true := by
  decide +kernel
theorem test_vsh_reserved : trapsWith (exec (.vsh 3) (rig .v fun σ => { σ with vr := { σ.vr with snap :=
    { σ.vr.snap with s := List.replicate 32 0x01801000 } } })) 0x02 = true := by decide
theorem test_pset : gives (exec (.pset 2 1 1) (rig .v fun σ => σ.setX 1 0x10000)) (fun τ => nth 0 τ.vr.p 2 == 0x7FFF) = true := by decide
theorem test_vmode : gives (exec (.vmode 0 3) (rig .v id)) (fun τ => τ.vr.vmode == 3) = true := by decide
theorem test_vfr : gives (exec (.vfr 1 1) (rig .v fun σ => { σ with vr := { σ.vr with vflags := [0, 4] ++ List.replicate 62 0 } }))
    (fun τ => τ.getX 1 == 2) = true := by decide

theorem test_claim : leads (exec (.claim 2) State.reset) (fun t => t.ch.plat.ownValid && t.ch.plat.owner == 2 && t.ch.out == [.irq none 0]) = true := by
  decide
theorem test_release : leads (exec .release { State.reset with ch := { State.reset.ch with plat := { Platform.fresh with ownValid := true } } })
    (fun t => !t.ch.plat.ownValid) = true := by decide
theorem test_portmode : leads (exec (.portmode 4) State.reset) (fun t => t.ch.plat.portsNext == [0, 0, 0, 1, 0, 0]) = true := by decide

/-- SHA-384 of no bytes begins 38 b0 60 a7 (FIPS 180-4's value for the empty message). -/
theorem test_sha384_empty : (sha384 []).take 4 = [0x38, 0xB0, 0x60, 0xA7] := by decide +kernel

/-- The next step after reset runs the word that is placed (R223). -/
theorem test_step_runs_word : gives (step (State.reset.withFetchWord 32 0x02280001)) (fun τ => τ.getS 5 == 1) = true := by decide


/-! For each statement with hypotheses, states and operands that meet them together, and each clause's own at the ends of its range. -/

/-- A strand and the state in which its cluster's word is at issue. -/
def cs (a b : Reg) : Strand := two a b (strandOf .c 0)
def at_ (cl : Cluster) (σ : Strand) : State := rigOf cl 0 σ

theorem meets_IntegerResults : AtIssue (at_ .c (cs 7 64)) (cs 7 64) [.s 1, .s 2] ∧ AtIssue (at_ .c (cs 7 64)) (cs 7 64) [.s 1] :=
  ⟨⟨rfl, rfl⟩, ⟨rfl, rfl⟩⟩

theorem meets_IntegerResults_immediate : AtIssue (at_ .c (cs 7 0)) (cs 7 0) [.s 1] ∧ AtIssue (at_ .c (cs 7 0)) (cs 7 0) [] := ⟨⟨rfl, rfl⟩, ⟨rfl, rfl⟩⟩

theorem meets_IntegerResults_division : (AtIssue (at_ .c (cs 7 1)) (cs 7 1) [.s 1, .s 2] ∧ (cs 7 1).getS 2 ≠ 0) ∧
    AtIssue (at_ .c (cs 7 0)) (cs 7 0) [.s 1, .s 2] ∧ (cs 7 0).getS 2 = 0 := ⟨⟨⟨rfl, rfl⟩, by decide⟩, ⟨rfl, rfl⟩, by decide⟩

theorem meets_BitFieldResults : AtIssue (at_ .c (cs 7 0)) (cs 7 0) [.s 1, .s 2] ∧ (60#6).toNat + ((3#6).toNat + 1) ≤ 64 ∧
    64 < (60#6).toNat + ((4#6).toNat + 1) ∧ (cs 7 0).inProgram := ⟨⟨rfl, rfl⟩, by decide, by decide, rfl⟩

theorem meets_ScaledSum : AtIssue (at_ .c (cs 7 0)) (cs 7 0) [.s 1, .s 2] := ⟨rfl, rfl⟩

theorem meets_RegisterFiles : (31 : Nat) ≠ 0 ∧ (0 : Nat) ≠ 31 := by decide

/-- A strand whose s1 awaits operation 9. -/
def waiting : Strand := { cs 7 0 with busy := [⟨.s 1, 9⟩] }
theorem meets_ArithmeticWaits : (at_ .c waiting).ch.strand? (at_ .c waiting).ch.turn.pos = some waiting ∧ waiting.free [.s 1, .s 2] = false ∧
    waiting.free [.s 1] = false ∧ waiting.free [.s 1, .s 3] = false := ⟨rfl, rfl, rfl, rfl⟩

/-- A strand in a loop of one word at byte 4 of an image of four, the second of which is a prefix before `tkclr`-like words. -/
def level0 : LoopLevel :=
  { ctr := 0, n := 3, start := 0, stop := 3, p := 0, body := 4, len := 2, stages := 1, b1 := 2, b2 := 2, b3 := 2, brk := false, broken := false, drained := false }
def looping : Strand := (cs 8 0).modCl .c fun k => { k with pc := 4, loops := [level0] }

theorem meets_JumpTargets :
    (AtIssue (at_ .c (cs 8 8)) (cs 8 8) [localName .c 1, localName .c 2] ∧ Taken 0 ((cs 8 8).local .c 1) ((cs 8 8).local .c 2) ∧
      ¬ Taken 1 ((cs 8 8).local .c 1) ((cs 8 8).local .c 2) ∧ Taken 5 ((cs 8 8).local .c 1) ((cs 8 8).local .c 2)) ∧
    (cs 8 0).c.InImage 12 ∧ ¬ (cs 8 0).c.InImage 16 ∧ ¬ (cs 8 0).c.InImage (-4) ∧ ¬ (cs 8 0).c.SecondOfPair .c 12 ∧ (cs 8 0).c.InBody 12 ∧
    looping.c.InBody 4 ∧ looping.c.InBody 8 ∧ ¬ looping.c.InBody 12 ∧ ¬ looping.c.InBody 0 ∧ (cs 8 0).inProgram := by
  refine ⟨⟨⟨rfl, rfl⟩, ?_, ?_, ?_⟩, ?_, ?_, ?_, ?_, ?_, ?_, ?_, ?_, ?_, rfl⟩
  · show (cs 8 8).getS 1 = (cs 8 8).getS 2; decide
  · show ¬ (cs 8 8).getS 1 ≠ (cs 8 8).getS 2; decide
  · show ((cs 8 8).getS 2).toNat ≤ ((cs 8 8).getS 1).toNat; decide
  · exact ⟨by decide, by decide⟩
  · rintro ⟨_, h⟩; revert h; decide
  · rintro ⟨h, _⟩; revert h; decide
  · rintro ⟨_, h⟩; revert h; decide
  · intro l ls h; cases h
  · intro l ls h; cases h; decide
  · intro l ls h; cases h; decide
  · intro h; have := h level0 [] rfl; revert this; decide
  · intro h; have := h level0 [] rfl; revert this; decide

/-- An image whose second word is the second word of a pair: `lsplit` stands before a `loop`. -/
def paired : Strand := (cs 8 0).modCl .c fun k => { k with image := [0x3C020202, encode false false (.loop 0 1 1 0), 0x3F000000, 0x3F000000] }
theorem meets_JumpTargets_pair : paired.c.InImage 4 ∧ paired.c.SecondOfPair .c 4 ∧ paired.inProgram :=
  ⟨⟨by decide, by decide⟩, ⟨by decide, by decide⟩, rfl⟩

theorem meets_LoopsAndControl :
    (AtIssue (at_ .c (cs 8 0)) (cs 8 0) [localName .c 1] ∧ ((cs 8 0).local .c 1).toNat ≠ 0 ∧ ((cs 8 0).local .c 2).toNat = 0 ∧
      ((cs 8 0).local .c 1).toNat < 2 ^ 32 ∧ (cs 8 0).c.loops = [] ∧ (cs 8 0).c.pc + 4 + 4 * 3 ≤ 4 * (cs 8 0).c.image.length ∧
      (at_ .c (cs 8 0)).ch.turn.pfx = none) ∧
    (AtIssue (at_ .c paired) paired [localName .c 1] ∧ paired.c.wordAt (paired.c.pc + 4) = some (encode false false (.loop 0 1 1 0)) ∧
      decodeWord .c (encode false false (.loop 0 1 1 0)) = .ok (.loop 0 1 1 0) ∧ wordSync (encode false false (.loop 0 1 1 0)) = false ∧
      wordHold (encode false false (.loop 0 1 1 0)) = false ∧ (paired.local .c 1).toNat ≠ 0 ∧
      paired.c.pc + 8 + 4 * ((1#8).toNat + 1) ≤ 4 * paired.c.image.length) := by
  refine ⟨⟨⟨rfl, rfl⟩, ?_, ?_, ?_, rfl, ?_, rfl⟩, ⟨rfl, rfl⟩, rfl, rfl, rfl, rfl, ?_, ?_⟩ <;> decide

/-- What a `loop` and a pair trap on: a counter in use, a body that leaves the enclosing one, a fourth level, too many stages, an image too short, boundaries
out of order, a barred word in a pipelined body, no iterations, and no `loop` after the `lsplit`. -/
def deep : Strand := (cs 8 0).modCl .c fun k => { k with loops := [level0, { level0 with ctr := 1 }, { level0 with ctr := 2 }] }
def unpaired : Strand := (cs 8 0).modCl .c fun k => { k with image := [0x3C020202, 0x3F000000, 0x3808C802, 0x3F000000] }
theorem meets_LoopsAndControl_traps : AtIssue (at_ .c looping) looping [localName .c 1] ∧ looping.inProgram ∧ (looping.local .c 1).toNat < 2 ^ 32 ∧
    (∃ x ∈ looping.c.loops, x.ctr = (0#2).toNat) ∧ (∀ x ∈ looping.c.loops, x.ctr ≠ (1#2).toNat) ∧ looping.c.loops.length < 3 ∧
    looping.c.loops = [level0] ∧ level0.body + 4 * level0.len < looping.c.pc + 4 + 4 * ((255#8).toNat + 1) ∧
    AtIssue (at_ .c deep) deep [localName .c 1] ∧ ¬ deep.c.loops.length < 3 ∧ (1#2) ≠ 0 ∧
    (cs 8 0).c.loops = [] ∧ 4 * (cs 8 0).c.image.length < (cs 8 0).c.pc + 4 + 4 * ((255#8).toNat + 1) ∧
    ¬ (2#8).toNat ≤ (1#8).toNat ∧ (∃ x, unpaired.c.wordAt (0 + 8 + 4 * 0) = some x ∧ barredInPipeline .c x = true) ∧
    ((cs 0 0).local .c 1).toNat = 0 ∧ AtIssue (at_ .c unpaired) unpaired [] ∧
    (∀ w, unpaired.c.wordAt (unpaired.c.pc + 4) = some w → decodeWord .c w = .ok .nop ∧ wordSync w = false) := by
  refine ⟨⟨rfl, rfl⟩, rfl, ?_, ?_, ?_, ?_, rfl, ?_, ⟨rfl, rfl⟩, ?_, ?_, rfl, ?_, ?_, ⟨0x3808C802, rfl, rfl⟩, ?_, ⟨rfl, rfl⟩, ?_⟩
  · decide
  · decide
  · decide
  · decide
  · decide
  · decide
  · decide
  · decide
  · decide
  · decide
  · rintro w h; cases h; exact ⟨rfl, rfl⟩

theorem meets_LoopsAndControl_end : AtIssue (at_ .c looping) looping [] ∧ looping.c.loops = level0 :: [] ∧ looping.inProgram ∧
    AtIssue (at_ .c (cs 0 0)) (cs 0 0) [] ∧ (cs 0 0).c.loops = [] ∧ wordHold (at_ .c (cs 0 0)).ch.turn.word = false ∧
    wordHold (0x7E000000 : Word) = true := ⟨⟨rfl, rfl⟩, rfl, rfl, ⟨rfl, rfl⟩, rfl, rfl, rfl⟩

theorem meets_WordFlow : (cs 0 0).c.loops = [] ∧ looping.c.loops = level0 :: [] ∧ looping.c.pc = level0.body + 4 * 0 ∧ 0 < level0.len ∧
    level0.start + level0.stageOf 1 ≤ level0.p ∧ level0.p < level0.stop + level0.stageOf 1 ∧ level0.p + 1 < level0.n ∧
    ({ level0 with p := 2 } : LoopLevel).p + 1 = level0.n := by decide

/-- A strand whose s1 points to byte 16 of the bench window. -/
def ptrs : Strand := cs 0x1000000000000010 0x40
def segAt (a n : Nat) : Seg := { phys := 0x20000000000 + a, len := n, va := a, peer := none, mode := 0, cmp := false, page := 0, size := 0 }
def foundAt (a n : Nat) : Found := { loc := { ptr := BitVec.ofNat 64 (2 ^ 60 + a), tag := 1, segs := [segAt a n] }, pages := [], leaves := [] }
theorem noWalk (σ : Strand) (cl k : Cluster) : (at_ cl σ).NoWalk σ k := fun _ h => by cases h

theorem meets_MemoryAccessIssues : cAccess (.bld 3 1 0 0 0) = some ⟨1, 0, 8, benchOnly, .load, 0, [], [.s 3]⟩ ∧
    AtIssue (at_ .c ptrs) ptrs [.s 1] ∧ (at_ .c ptrs).NoWalk ptrs .c ∧
    (at_ .c ptrs).footprint ptrs benchOnly .load (ptrs.getS 1) 0 7 8 [] = .ok (foundAt 16 8) ∧ (at_ .c ptrs).ch.moving (foundAt 16 8).loc.segs = false ∧
    ptrs.exhausted .c (ptrs.odOf .c 0) = false ∧ (at_ .c ptrs).ch.turn.cl = .c :=
  ⟨rfl, ⟨rfl, rfl⟩, noWalk _ _ _, rfl, rfl, rfl, rfl⟩

/-- The state an outcome leads to. -/
def nextOf (o : Host.Outcome State Fault Refusal) : State :=
  match o with
  | .next t => t
  | _ => State.reset

/-- A strand of C whose one operation is in flight. -/
def flight (i : Instr) (a b : Reg) : State := nextOf (exec i (at_ .c (cs a b)))
def opOf (s : State) : Op := s.ch.ops.headD
  { id := 0, pos := 0, job := 0, cl := .c, was := none, word := 0, pfx := none,
    instr := .nop, od := none, seq := 0, need := [], prod := 0, waits := [], bar := none, vec := [], vals := [], locs := [], data := [],
    claims := [], taken := [], credited := 0, progress := 0, dest := [], ring := false, stale := false, cycle := 0,
    resolved := none, lost := false, status := .issued }
def strandOf0 (s : State) : Strand := s.ch.strands.headD (strandOf .c 0)

/-- A load of eight bytes of the bench. -/
def loading : State := flight (.bld 3 1 0 0 0) 0x1000000000000010 0
theorem meets_LoadPerformed : let s := loading
    let o := opOf s
    s.ch.op? o.id = some o ∧ s.ch.strand? o.pos = some (strandOf0 s) ∧ cForm o.instr = some (.load 3 8 false .plain) ∧ s.ch.progresses o = true ∧
    o.bar = none ∧ o.prod = 0 ∧ o.run.peer = none ∧ o.run.size = 0 ∧ o.run.cmp = false ∧ o.run.len = 8 ∧ s.ch.side.faulty = [] ∧
    s.ch.side.checkRun (o.check o.run) o.run.phys 8 = none ∧ (⟨.s 3, o.id⟩ : Busy) ∈ (strandOf0 s).busy := by
  refine ⟨rfl, rfl, rfl, rfl, rfl, rfl, rfl, rfl, rfl, rfl, rfl, rfl, ?_⟩
  decide

/-- A load of local global memory in a cached page, whose quad holds the sector. -/
def globalSeg (a n : Nat) : Seg := { phys := 2 ^ 39 + a, len := n, va := a, peer := none, mode := 0, cmp := false, page := 0, size := 0x200000 }
def caching : State :=
  let o := { opOf loading with locs := [{ ptr := 8, tag := 0, segs := [globalSeg 8 8] }] }
  { loading with ch := { loading.ch with ops := [o], xl := { loading.ch.xl with lines :=
      [{ quad := 0, job := 5, home := none, line := 2 ^ 32, va := 0, sectors := [some 0xABCD0000000000000000, none, none, none] }] } } }
theorem meets_LoadPerformed_cached : let s := caching
    let o := opOf s
    s.ch.op? o.id = some o ∧ s.ch.strand? o.pos = some (strandOf0 s) ∧ cForm o.instr = some (.load 3 8 false .plain) ∧ s.ch.progresses o = true ∧
    o.run.phys % 32 + 8 ≤ 32 ∧ o.run.len = 8 ∧ o.run.size ≠ 0 ∧ o.run.mayHit o.scope = true ∧
    s.ch.sector? (quadOfPos o.pos) o.job none (o.run.phys / 32) = some 0xABCD0000000000000000 ∧
    s.ch.side.checkRun (o.check o.run) o.run.phys 8 = none := by refine ⟨?_, ?_, ?_, ?_, ?_, ?_, ?_, ?_, ?_, ?_⟩ <;> decide +kernel
/-- The load takes the sector's bytes (R67). -/
theorem test_load_hits : gives (exec (.operationPerformed (opOf caching).id) caching) (fun τ => τ.getS 3 == 0xABCD) = true := by decide +kernel

def storing : State := flight (.bst 2 1 0 0 0) 0x1000000000000010 0xABCD
theorem meets_StorePerformed : let s := storing
    let o := opOf s
    s.ch.op? o.id = some o ∧ s.ch.strand? o.pos = some (strandOf0 s) ∧ cForm o.instr = some (.store 8 .plain) ∧ s.ch.progresses o = true ∧
    o.bar = none ∧ o.prod = 0 ∧ o.run.peer = none ∧ o.run.size = 0 ∧ o.run.cmp = false ∧ o.run.len = 8 ∧ s.ch.side.faulty = [] ∧
    s.ch.side.checkRun (o.check o.run) o.run.phys 8 = none := ⟨rfl, rfl, rfl, rfl, rfl, rfl, rfl, rfl, rfl, rfl, rfl, rfl⟩
/-- The store performed: its lowest byte stands at the lowest address (R35). -/
theorem test_store_bytes : leads (exec (.operationPerformed (opOf storing).id) storing)
    (fun t => t.byte 0x20000000010 == 0xCD && t.byte 0x20000000011 == 0xAB && t.byte 0x20000000012 == 0 && t.ch.ops.isEmpty) = true := by decide

def adding : State := flight (.aadd 3 1 2 1 0) 0x1000000000000010 5
theorem meets_AtomicPerformed : let s := adding
    let o := opOf s
    s.ch.op? o.id = some o ∧ s.ch.strand? o.pos = some (strandOf0 s) ∧ cForm o.instr = some (.atomic 0 true (some 3)) ∧
    s.ch.progresses o = true ∧ o.bar = none ∧ o.prod = 0 ∧ o.run.peer = none ∧ o.run.size = 0 ∧ o.run.cmp = false ∧ o.run.len = 8 ∧
    s.ch.side.faulty = [] ∧ (⟨.s 3, o.id⟩ : Busy) ∈ (strandOf0 s).busy := by
  refine ⟨rfl, rfl, rfl, rfl, rfl, rfl, rfl, rfl, rfl, rfl, rfl, ?_⟩
  decide

theorem meets_DescriptorAndTokenResults : AtIssue (at_ .c (cs 0x27FC 0)) (cs 0x27FC 0) [.s 1] ∧ ((cs 0x27FC 0).getS 1).toNat < 2 ^ 14 ∧
    ((cs 0x27FC 0).getS 1).toNat % 8 ≤ 4 ∧ (4#3).toNat ≤ 4 ∧ 4 < (5#3).toNat ∧ 2 ^ 14 ≤ ((cs 0x4000 0).getS 1).toNat ∧
    4 < ((cs 5 0).getS 1).toNat % 8 ∧ (cs 5 0).inProgram := by refine ⟨⟨rfl, rfl⟩, ?_, ?_, ?_, ?_, ?_, ?_, rfl⟩ <;> decide

/-- A strand with a token in a state. -/
def tok (st : BitVec 2) : Strand := (cs 0 0).setToken 15 { Token.fresh with st := st }
theorem meets_DescriptorAndTokenResults_token : (∀ st, AtIssue (at_ .c (tok st)) (tok st) []) ∧ (15#4) ≠ 0 ∧ (∀ st, ((tok st).token 15).st = st) ∧
    (∀ st, (tok st).inProgram) ∧ (at_ .c (tok 0)).ch.exhausted (tok 0).pos .c = false ∧ (0x80#8) ≠ 0 ∧
    (at_ .c (tok 0)).ch.faultFrozen (coreOf (tok 0).pos) = false := by
  refine ⟨fun st => ⟨rfl, rfl⟩, by decide, fun st => rfl, fun st => rfl, rfl, by decide, rfl⟩

/-- A barrier of two arrivals expected; its fields at the ends of their ranges. -/
def bar0 : Bar := Bar.read [] 0
theorem meets_BarrierArrival :
    let b : Bar := { bar0 with expected := 65535, pendArr := 65535, pendBytes := -2147483648, phase := 255, upper := 2 ^ 53 - 1 }
    b.expected < 65536 ∧ b.pendArr < 65536 ∧ -2147483648 ≤ b.pendBytes ∧ b.pendBytes ≤ 2147483647 ∧ b.phase < 256 ∧ b.upper < 2 ^ 53 ∧
    1 < b.pendArr ∧ ({ bar0 with pendArr := 1, pendBytes := 0 } : Bar).pendArr = 1 ∧ 0 < ({ bar0 with pendBytes := 1 } : Bar).pendBytes ∧
    bar0.pendArr = 0 ∧ (-1 : Int) ≤ 0 ∧ b.pendBytes - (1 : Nat) < -2147483648 ∧ b.pendArr ≠ 0 ∧
    2147483647 < ({ bar0 with pendBytes := 2147483647 } : Bar).pendBytes + (1 : Nat) ∧
    (let z : Bar := { bar0 with pendBytes := 6 }
     0 < z.pendBytes - (5 : Nat) ∧ z.pendBytes - (6 : Nat) ≤ 0 ∧ z.pendBytes - (7 : Nat) < 0 ∧ z.pendArr = 0 ∧ z.pendBytes ≤ 2147483647) := by decide

theorem meets_BarrierIssues :
    (AtIssue (at_ .c ptrs) ptrs [.s 1, .s 2] ∧ (at_ .c ptrs).ch.turn.cl = .c ∧ (at_ .c ptrs).NoWalk ptrs .c ∧
      (at_ .c ptrs).footprint ptrs benchOnly .store (ptrs.getS 1) 0 15 16 [] = .ok (foundAt 16 16) ∧
      (at_ .c ptrs).ch.moving (foundAt 16 16).loc.segs = false ∧ (at_ .c ptrs).ch.exhausted ptrs.pos .c = false ∧
      ptrs.exhausted .c (ptrs.odOf .c 7) = false ∧ 1 ≤ (ptrs.getS 2).toNat ∧
      (ptrs.getS 2).toNat < 65536) ∧
    AtIssue (at_ .c ptrs) ptrs [] ∧ (at_ .c ptrs).ch.unitOf? ptrs = some unit0 ∧ (at_ .c ptrs).ch.job? ptrs.who.job = some job0 ∧
    job0.corFlag = true ∧ ((at_ .c ptrs).ch.hbar 5 4 (hbarSite unit0 4)).hasArrived 0 = false ∧
    (({ (at_ .c ptrs).ch.hbar 5 4 (hbarSite unit0 4) with arrived := [0] } : Hbar).hasArrived 0 = true) := by
  refine ⟨⟨⟨rfl, rfl⟩, rfl, noWalk _ _ _, rfl, rfl, rfl, rfl, ?_, ?_⟩, ⟨rfl, rfl⟩, rfl, rfl, rfl, rfl, rfl⟩ <;> decide

/-- A strand whose `hbar.aw` was taken back after its arrival in phase 3 (R133). -/
def cameBack : Strand := { cs 0 0 with trap := { (cs 0 0).trap with arrived := some (0, 3, 0) } }
theorem meets_BarrierIssues_back : cameBack.cameBack true true = some 3 ∧ (cs 0 0).cameBack true true = none := ⟨rfl, rfl⟩

theorem meets_SystemReads : AtIssue (at_ .c (cs 0 0)) (cs 0 0) [] := ⟨rfl, rfl⟩

/-- A strand in its handler. -/
def handling (a b : Reg) : Strand := { cs a b with trap := { TrapSt.fresh with phase := .handler, savedC := some (ClusterSt.fresh [0]) } }
theorem meets_SystemReads_privileged : AtIssue (at_ .c (handling 0 0)) (handling 0 0) [.s 3] ∧ (handling 0 0).privileged = true ∧
    AtIssue (at_ .c (cs 0 0)) (cs 0 0) [.s 3] ∧ (cs 0 0).inProgram ∧ 0x100 ≤ (0x100#12).toNat ∧ 0x100 ≤ (0xFFF#12).toNat ∧
    (0xFF#12).toNat ∉ [0, 1, 2, 3, 4, 5, 0x10, 0x11, 0x12, 0x20, 0x21, 0x22, 0x30, 0x40] := by
  refine ⟨⟨rfl, rfl⟩, rfl, ⟨rfl, rfl⟩, rfl, ?_, ?_, ?_⟩ <;> decide

theorem meets_SystemWrites : let σ := handling 0x100000001 16
    AtIssue (at_ .c σ) σ [.s 1] ∧ AtIssue (at_ .c σ) σ [.s 2] ∧ σ.privileged = true ∧ (σ.getS 1).toNat % 2 ^ 32 ≠ 0 ∧
    (σ.getS 1).toNat / 2 ^ 32 % 2 ^ 16 ≠ 0 ∧ 16 ≤ (σ.getS 2).toNat ∧ (σ.getS 2).toNat ≤ 4095 := by
  refine ⟨⟨rfl, rfl⟩, ⟨rfl, rfl⟩, rfl, ?_, ?_, ?_, ?_⟩ <;> decide

theorem meets_SystemWrites_refused : let s (a : Reg) := at_ .c (handling a 0)
    (∀ a, AtIssue (s a) (handling a 0) [.s 1]) ∧ (∀ a, (handling a 0).privileged = true) ∧ (∀ a, (s a).ch.job? (handling a 0).who.job = some job0) ∧
    job0.killStep = 0 ∧ ((handling 15 0).getS 1).toNat < 16 ∧ 4095 < ((handling 4096 0).getS 1).toNat ∧
    ((handling (2 ^ 32) 0).getS 1).toNat % 2 ^ 32 = 0 ∧ ((handling 1 0).getS 1).toNat / 2 ^ 32 % 2 ^ 16 = 0 := by
  refine ⟨fun _ => ⟨rfl, rfl⟩, fun _ => rfl, fun _ => rfl, rfl, ?_, ?_, ?_, ?_⟩ <;> decide

theorem meets_SoftwareTraps : let σ : Strand := cs 0 0
    let z : Strand := { σ with trap := { σ.trap with dzi := true } }
    let f : Strand := { σ with trap := { σ.trap with trapen := 1 }, mr := { σ.mr with mflags := 1 } }
    AtIssue (at_ .c σ) σ [] ∧ σ.inProgram ∧ (at_ .c σ).ch.ops = [] ∧ σ.trap.dzi = false ∧
    (σ.mr.mflags ||| σ.vr.vflags.foldl (· ||| ·) 0) &&& σ.trap.trapen = 0 ∧ AtIssue (at_ .c z) z [] ∧ z.trap.dzi = true ∧
    AtIssue (at_ .c f) f [] ∧ (f.mr.mflags ||| f.vr.vflags.foldl (· ||| ·) 0) &&& f.trap.trapen ≠ 0 ∧
    (at_ .c (handling 0 0)).ch.strand? (handling 0 0).pos = some (handling 0 0) ∧ (handling 0 0).privileged = true ∧
    (at_ .c (handling 0 0)).ch.job? (handling 0 0).who.job = some job0 ∧ job0.killStep = 0 := by
  refine ⟨⟨rfl, rfl⟩, rfl, rfl, rfl, ?_, ⟨rfl, rfl⟩, rfl, ⟨rfl, rfl⟩, ?_, rfl, rfl, rfl, rfl⟩ <;> decide

theorem meets_YieldAndRebase : AtIssue (at_ .c (cs 0 0)) (cs 0 0) [.s 1] ∧ (at_ .c (cs 0 0)).ch.turn.cl = .c ∧
    wordHold (at_ .c (cs 0 0)).ch.turn.word = false ∧ (cs 0 0).inProgram ∧ AtIssue (at_ .c (handling 0 0)) (handling 0 0) [.s 1] ∧
    (handling 0 0).privileged = true ∧ (at_ .c (handling 0 0)).ch.rebaseWaits (quadOfPos (handling 0 0).pos) = false ∧
    ((at_ .c (handling 0 0)).ch.quad 0).rebased.contains 0 = false ∧
    (let s : State := { at_ .c (handling 0 0) with ch := { (at_ .c (handling 0 0)).ch with ops := loading.ch.ops } }
     AtIssue s (handling 0 0) [.s 1] ∧ s.ch.rebaseWaits 0 = true ∧ (s.ch.quad 0).rebased.contains 0 = false) :=
  ⟨⟨rfl, rfl⟩, rfl, rfl, rfl, ⟨rfl, rfl⟩, rfl, rfl, rfl, ⟨rfl, rfl⟩, by decide +kernel, rfl⟩

theorem meets_ResumeRestores : let σ := handling 0 0
    let s := at_ .c σ
    let k0 (k : Cluster) : ClusterSt := if k = .c then σ.trap.savedC.getD σ.c else σ.cl k
    AtIssue s σ [.s 1] ∧ σ.privileged = true ∧ σ.trap.score = [] ∧ (∀ i, i < 64 → (σ.getS 1).getLsbD i = false) ∧
    ∀ k, pointCheck (k0 k) k (s.ch.returnPoint (k0 k)) (nth 0 (frameRegs s.mem (ctxArea σ.pos + 0x40) 8 4) (clNum k)) = none := by
  refine ⟨⟨rfl, rfl⟩, rfl, rfl, by decide, fun k => by cases k <;> rfl⟩

theorem meets_ClusterScalarResults : let g := strandOf .g 0
    let m := strandOf .m 0
    AtIssue (at_ .g g) g [] ∧ AtIssue (at_ .g g) g [.g 1, .g 2] ∧ AtIssue (at_ .m m) m [.m 1] ∧
    ((at_ .m m).ch.core (coreOf m.pos)).bucket.owner = none := ⟨⟨rfl, rfl⟩, ⟨rfl, rfl⟩, ⟨rfl, rfl⟩, rfl⟩

/-- A strand of G with an iterator of one dimension over 16 words of the bench, loaded in gi1, and g1 a pointer to it. -/
def iter0 : BitVec 512 := BitVec.ofNat 512 (0x1000000000000000 + 8 * 2 ^ 64 + 2 * 2 ^ 72 + 1 * 2 ^ 80 + 16 * 2 ^ 128 + 4 * 2 ^ 160)
def gs : Strand :=
  let σ := ((strandOf .g 0).setG 1 0x1000000000000040).setG 2 3
  { σ with gr := { σ.gr with gi := setNth none σ.gr.gi 1 (some iter0) } }

theorem meets_RecordAccessIssues : gs.inProgram ∧ (at_ .g gs).ch.turn.cl = .g ∧ (at_ .g gs).NoWalk gs .g ∧
    (at_ .g gs).ch.moving (foundAt 64 64).loc.segs = false ∧ gs.exhausted .g (gs.odOf .g 1) = false ∧
    AtIssue (at_ .g gs) gs [.g 1, .gi 1] ∧ (at_ .g gs).footprint gs benchOnly .load (gs.getG 1) 0 63 64 [] = .ok (foundAt 64 64) ∧
    (at_ .g gs).footprint gs benchOnly .store (gs.getG 1) 0 63 64 [] = .ok (foundAt 64 64) ∧
    (at_ .g gs).footprint gs benchOnly .load (gs.getG 1) 0 31 32 [] = .ok (foundAt 64 32) := by
  exact ⟨rfl, rfl, noWalk _ _ _, rfl, rfl, ⟨rfl, rfl⟩, rfl, rfl, rfl⟩

theorem meets_IteratorFields : AtIssue (at_ .g gs) gs [.g 2, .gi 1] ∧ nth none gs.gr.gi 1 = some iter0 ∧ nth none gs.gr.gi 2 = none ∧
    iterDims iter0 = 1 ∧ (gs.getG 2).toNat < 2 ^ 32 ∧ (gs.getG 2).toNat ≠ 0 ∧ ¬ (2 - 1 < iterDims iter0 ↔ (gs.getG 2).toNat ≠ 0) ∧
    gs.inProgram := by
  refine ⟨⟨rfl, rfl⟩, rfl, rfl, ?_, ?_, ?_, ?_, rfl⟩ <;> decide +kernel


/-- The value of a check that passes, and back. -/
def okOf {α : Type} (x : Chk α) : Option α :=
  match x with
  | .ok a => some a
  | _ => none
theorem of_okOf {α : Type} {x : Chk α} {a : α} (h : okOf x = some a) : x = .ok a := by
  cases x <;> simp_all [okOf]

theorem meets_StreamBindings : AtIssue (at_ .g gs) gs [.gi 1] ∧ (at_ .g gs).ch.turn.cl = .g ∧ (at_ .g gs).NoWalk gs .g ∧
    gs.binding? 7 = none ∧ nth none gs.gr.gi 1 = some iter0 ∧ chainOk 0 iter0 .input = true ∧ chainOk 0 iter0 .output = true ∧
    (at_ .g gs).ch.checkPtr gs { bench := true, stratumOwn := true, slot := true } (iterBase iter0) (iterRange iter0).1 (iterRange iter0).2 1
      = .ok (0x20000000000, 0, 63) ∧
    (at_ .g gs).ch.checkPtr gs { bench := true, stratumOwn := true, slot := false } (iterBase iter0) (iterRange iter0).1 (iterRange iter0).2 1
      = .ok (0x20000000000, 0, 63) ∧ iterAligned iter0 = true ∧ gs.exhausted .g (gs.odOf .g 0) = false := by
  refine ⟨⟨rfl, rfl⟩, rfl, noWalk _ _ _, rfl, rfl, ?_, ?_, of_okOf ?_, of_okOf ?_, ?_, rfl⟩ <;> decide +kernel

/-- A strand of G with an input stream of four entries, none yet read, bound to q2 by operation 0. -/
def bound (claimed : Nat) : Strand :=
  gs.setBinding 2 (some
    { dir := .input, iter := iter0, chain := 0, op := 0, total := 4, pos := 0, bytePos := 0, queue := [], claimed := claimed, skips := [], bad := none,
      packed := [], stuck := none, leaving := false })
theorem meets_StreamBindings_bound : AtIssue (at_ .g (bound 1)) (bound 1) [.g 2] ∧ AtIssue (at_ .g (bound 1)) (bound 1) [] ∧
    ((bound 1).binding? 2).isSome = true ∧ ((bound 1).getG 2).toNat < 2 ^ 32 ∧ 1 + ((bound 1).getG 2).toNat ≤ 4 ∧
    4 < 2 + ((bound 2).getG 2).toNat ∧ (∀ b, (bound 1).binding? 2 = some b → (at_ .g (bound 1)).ch.awaited 0 2 b = false) := by
  refine ⟨⟨rfl, rfl⟩, ⟨rfl, rfl⟩, rfl, ?_, ?_, ?_, fun b _ => rfl⟩ <;> decide
/-- A consumer that has issued and not taken its entry, and a stream that an `sunbind` of this cycle leaves. -/
def consuming : State :=
  let s := at_ .g (bound 1)
  { s with ch := { s.ch with ops := [{ opOf s with id := 3, claims := [(2, 0, 1)] }] } }
def leaving : Strand := (bound 1).setBinding 2 (((bound 1).binding? 2).map fun b => { b with leaving := true })
theorem meets_StreamBindings_leaving : AtIssue consuming (bound 1) [] ∧
    (∀ b, (bound 1).binding? 2 = some b → consuming.ch.awaited 0 2 b = true) ∧ (at_ .g leaving).ch.strand? leaving.pos = some leaving ∧
    ((leaving.binding? 2).map (·.leaving)) = some true := by
  refine ⟨⟨rfl, rfl⟩, ?_, rfl, rfl⟩
  intro b h; cases h; decide

/-- A strand of M whose first word is a prefix that produces token 1 and waits for token 2, before `accz`. -/
def prefixed : Strand :=
  let σ := ((strandOf .m 0x01120000).setM 1 0x3000000000000000).setM 2 524288
  σ.modCl .m fun k => { k with image := [0x01120000, encode false false (.accz 1 3 0), 0x3F000000] }
def ms : State := at_ .m prefixed
def prefixedState : State := rigOf .m 0x01120000 prefixed
def accFound (a n : Nat) : Found :=
  { loc :=
      { ptr := BitVec.ofNat 64 (3 * 2 ^ 60 + a), tag := 3, segs := (if n = 0 then [] else
        [{ phys := 0x80000000000 + a, len := n, va := a, peer := none, mode := 0, cmp := false, page := 0, size := 0 }]) },
    pages := [], leaves := [] }
theorem meets_PrefixedCommands : let s := prefixedState
    let σ := prefixed
    let w := encode false false (.accz 1 3 0)
    AtIssue s σ [] ∧ σ.m.wordAt (σ.m.pc + 4) = some w ∧ decodeWord .m w = .ok (.accz 1 3 0) ∧ wordSync w = false ∧ wordHold w = false ∧
    engineOf (.accz 1 3 0) ≠ none ∧ (1#4) ≠ 2 ∧ (1#4) ≠ 0 ∧ (σ.token 1).st ≠ 1 ∧ ((tok 1).token 15).st = 1 ∧ bits s.ch.turn.word.toNat 20 4 = 1 ∧
    bits s.ch.turn.word.toNat 16 4 = 2 ∧ bits s.ch.turn.word.toNat 12 4 = 0 ∧ bits s.ch.turn.word.toNat 8 4 = 0 ∧
    σ.free [.m 1, .m 3] = true ∧ s.NoWalk σ .m ∧ (σ.getM 3).toNat ≤ 524288 ∧ (σ.getM 2).toNat = 524288 ∧
    (s.paired w).accAtPtr σ (σ.getM 1) (4 * (σ.getM 3).toNat) .store = .ok (accFound 0 0) ∧ s.ch.exhausted σ.pos .m = false ∧
    engineOf .nop = none ∧ σ.inProgram ∧ σ.m.endsBody = false := by
  refine ⟨⟨rfl, rfl⟩, rfl, rfl, rfl, rfl, ?_, ?_, ?_, ?_, rfl, ?_, ?_, ?_, ?_, rfl, (fun _ h => nomatch h), ?_, ?_, rfl, rfl, rfl, rfl, rfl⟩ <;> decide
theorem meets_PrefixedCommands_room : (prefixedState.paired (encode false false (.accz 1 3 0))).HasRoom prefixed (.accz 1 3 0)
    (prefixed.odOf .m 0) (accFound 0 0).loc.segs := ⟨rfl, rfl, rfl, fun h => by cases h⟩

/-- The same prefix as the whole body of a loop. -/
def endingBody : Strand := prefixed.modCl .m fun k => { k with loops := [{ level0 with body := 0, len := 1 }] }
theorem meets_PrefixedCommands_loop : AtIssue (rigOf .m 0x01120000 endingBody) endingBody [] ∧ endingBody.inProgram ∧
    endingBody.m.endsBody = true := ⟨⟨rfl, rfl⟩, rfl, rfl⟩

/-- A strand of G for copies: g1 and g2 point to byte 0 and byte 4096 of the bench window, g3 holds a length or a shape. -/
def cps (v : Reg) : Strand := (((strandOf .g 0).setG 1 0x1000000000000000).setG 2 0x1000000000001000).setG 3 v
theorem room_g (σ : Strand) (i : Instr) (od : BitVec 14) (segs : List Seg) (h1 : σ.exhausted .g od = false)
    (h2 : ((at_ .g σ).ch.engineRoom i σ.pos).1 = true) (h3 : (at_ .g σ).ch.moving segs = false)
    (h4 : (at_ .g σ).ch.pinCount (quadOfPos σ.pos) σ.who.job segs ≤ 1984) : (at_ .g σ).HasRoom σ i od segs := ⟨h1, h2, h3, fun _ => h4⟩

theorem meets_CopiesIssue_cp : let σ := cps 128
    AtIssue (at_ .g σ) σ [.g 1, .g 2, .g 3, .g 0] ∧ (at_ .g σ).NoWalk σ .g ∧
    CopyOk (at_ .g σ) σ (.cp 1 2 3 0 0 0 0) (σ.odOf .g 0) copyDest copySource ⟨σ.getG 1, 0, 128, 1⟩ ⟨σ.getG 2, 0, 128, 1⟩ 0
      (foundAt 0 128) (foundAt 4096 128) none ∧
    CopyOk (at_ .g σ) σ (.cp 1 2 3 0 0 1 1) (σ.odOf .g 0) copyDest copySource ⟨σ.getG 1, 0, 129, 1⟩ ⟨σ.getG 2, 0, 132, 1⟩ 0
      (foundAt 0 129) (foundAt 4096 132) none :=
  ⟨⟨rfl, rfl⟩, noWalk _ _ _, ⟨rfl, rfl, rfl, rfl, rfl, fun h => absurd rfl h, room_g _ _ _ _ rfl rfl rfl (by decide)⟩,
    ⟨rfl, rfl, rfl, rfl, rfl, fun h => absurd rfl h, room_g _ _ _ _ rfl rfl rfl (by decide)⟩⟩

theorem meets_CopiesIssue_expand : let σ := cps (64 * 2 ^ 32 + 128)
    CopyOk (at_ .g σ) σ (.cp 1 2 3 0 0 0 2) (σ.odOf .g 0) copyDest copySource ⟨σ.getG 1, 0, 128, 1⟩ ⟨σ.getG 2, 0, 64, 1⟩ 0
      (foundAt 0 128) (foundAt 4096 64) none ∧ (σ.getG 3).toNat / 2 ^ 32 = 64 ∧ (σ.getG 3).toNat % 2 ^ 32 % 128 = 0 :=
  ⟨⟨rfl, rfl, rfl, rfl, rfl, fun h => absurd rfl h, room_g _ _ _ _ rfl rfl rfl (by decide)⟩, by decide, by decide⟩

theorem meets_CopiesIssue_cpst : let σ := (cps (2 * 2 ^ 32 + 64)).setG 4 (128 * 2 ^ 32 + 256)
    AtIssue (at_ .g σ) σ [.g 1, .g 2, .g 3, .g 4, .g 0] ∧
    rowsExtent ((σ.getG 3).toNat / 2 ^ 32) ((σ.getG 3).toNat % 2 ^ 32) (signed 32 ((σ.getG 4).toNat / 2 ^ 32)) = (0, 192) ∧
    rowsExtent ((σ.getG 3).toNat / 2 ^ 32) ((σ.getG 3).toNat % 2 ^ 32) (signed 32 ((σ.getG 4).toNat % 2 ^ 32)) = (0, 320) ∧
    CopyOk (at_ .g σ) σ (.cpst 1 2 3 0 0) (σ.odOf .g 0) copyDest copySource ⟨σ.getG 1, 0, 192, 1⟩ ⟨σ.getG 2, 0, 320, 1⟩ 0
      (foundAt 0 192) (foundAt 4096 320) none :=
  ⟨⟨rfl, rfl⟩, by decide, by decide, ⟨rfl, rfl, rfl, rfl, rfl, fun h => absurd rfl h, room_g _ _ _ _ rfl rfl rfl (by decide)⟩⟩

theorem meets_CopiesIssue_wsort : let σ := cps (64 + 32 * 2 ^ 24)
    AtIssue (at_ .g σ) σ [.g 1, .g 2, .g 3, .g 0] ∧ (σ.getG 3).toNat % 2 ^ 24 = 64 ∧ (σ.getG 3).toNat / 2 ^ 24 % 2 ^ 24 = 32 ∧
    (σ.getG 3).toNat < 2 ^ 48 ∧
    CopyOk (at_ .g σ) σ (.wsort 1 2 3 0 0 0 0) (σ.odOf .g 0) sortDest sortSource ⟨σ.getG 1, 0, 3072, 16⟩ ⟨σ.getG 2, 0, 256, 4⟩ 0
      (foundAt 0 3072) (foundAt 4096 256) none :=
  ⟨⟨rfl, rfl⟩, by decide, by decide, by decide,
    ⟨rfl, rfl, rfl, rfl, rfl, fun h => absurd rfl h, room_g _ _ _ _ rfl rfl rfl (by decide)⟩⟩

/-- A program of one axis and one dimension of four bytes, at byte 8192 of the bench window (R156). -/
def cgWords : List Nat := [2 ^ 60, 2 * 2 ^ 60 + 4, 3 * 2 ^ 60 + 1, 4 * 2 ^ 60 + 2 ^ 42 + 3 * 2 ^ 22 + 1, 15 * 2 ^ 60]
def cgState : State := { at_ .g (cps 0x1000000000002000) with mem := memWrite [] 0x20000002000 (cgWords.flatMap (leBytes 8)) }
theorem meets_CopiesIssue_cg : let σ := cps 0x1000000000002000
    let s := cgState
    AtIssue s σ [.g 1, .g 2, .g 3, .g 0] ∧
    okOf (s.readProgram σ { s.opOf σ (.cpCg 1 2 3 0 0) (σ.odOf .g 0) with vals := [σ.getG 1, σ.getG 2, σ.getG 3, σ.getG 0] } (σ.getG 3) 16 0 [])
      = some cgWords ∧
    (match cgParse cgWords with
      | some prog => prog.aligned && prog.sourceRange == some (0, 3) && prog.destRange == (0, 3)
      | none => false) = true ∧
    CopyOk s σ (.cpCg 1 2 3 0 0) (σ.odOf .g 0) copyDest copySource ⟨σ.getG 1, 0, 4, 1⟩ ⟨σ.getG 2, 0, 4, 1⟩ 0 (foundAt 0 4) (foundAt 4096 4) none :=
  ⟨⟨rfl, rfl⟩, by decide +kernel, by decide +kernel,
    ⟨rfl, rfl, rfl, rfl, rfl, fun h => absurd rfl h, ⟨rfl, rfl, rfl, fun _ => by decide⟩⟩⟩

theorem meets_ExchangeIssues_fields : AtIssue (at_ .g (cps 64)) (cps 64) [.g 1, .g 3] ∧ ((cps 64).getG 3).toNat ≠ 0 ∧
    ((cps 64).getG 3).toNat < 2 ^ 32 ∧ (cps 64).inProgram := ⟨⟨rfl, rfl⟩, by decide, by decide, rfl⟩

/-- A state with a link of the job at its near end, and g1 its pointer. -/
def linkEnd0 (permits : Nat) (lerr : Bool) (tags : List (Nat × BitVec 16 × Nat)) (full : List Nat) : LinkEnd :=
  { job := 5, link := 0x10, far := false, slots := 2, slotSize := 4096, quad := 0, txseq := 0, rxseq := 0, permits := permits, full := full,
    tags := tags, arriving := [], lerr := lerr, placed := true }
def linked (σ : Strand) (l : LinkEnd) : State :=
  let s := at_ .g σ
  { s with ch := { s.ch with links := [l] } }
def sender : Strand := ((bound 1).setG 1 0x4000001000000000).setG 3 64
theorem meets_ExchangeIssues : let σ := sender
    AtIssue (linked σ (linkEnd0 1 false [] [])) σ [.g 1, .g 3] ∧
    ((linked σ (linkEnd0 1 false [] [])).ch.linkOf σ (σ.getG 1) = .ok (linkEnd0 1 false [] [])) ∧
    ((linked σ (linkEnd0 1 true [] [])).ch.linkOf σ (σ.getG 1) = .ok (linkEnd0 1 true [] [])) ∧ (σ.getG 3).toNat ≠ 0 ∧
    (σ.getG 3).toNat < 2 ^ 32 ∧ (σ.getG 3).toNat ≤ 4096 ∧ ((σ.binding? 2).map (·.dir)) = some .input ∧
    (linked σ (linkEnd0 1 false [] [])).HasRoom σ (.xsend 1 2 3 0) (σ.odOf .g 0) [] ∧ σ.exhausted .g (σ.odOf .g 0) = false ∧
    (linkEnd0 0 false [(1, 0, 64)] [0]).tagAt ((linkEnd0 0 false [(1, 0, 64)] [0]).slotOf 0) ≠ none ∧
    (linked σ (linkEnd0 0 false [] [0])).ch.pendingGrants (linkEnd0 0 false [] [0]) < 1 ∧
    (linkEnd0 0 false [] []).tagAt ((linkEnd0 0 false [] []).slotOf 0) = none ∧ σ.inProgram := by
  refine ⟨⟨rfl, rfl⟩, rfl, rfl, ?_, ?_, ?_, rfl, ⟨rfl, rfl, rfl, fun _ => ?_⟩, rfl, ?_, ?_, rfl, rfl⟩ <;> decide

/-- g1 and g2 point to bytes 0 and 4096 of the bench window, g3 holds a length of 4 and g4 the root 0 or 1. -/
def coll (root : Reg) : Strand := (cps 4).setG 4 root
theorem meets_CollectivesIssue : let σ := coll 0
    AtIssue (at_ .g σ) σ [.g 1, .g 2, .g 3, .g 4] ∧ (at_ .g σ).ch.unitOf? σ = some unit0 ∧ (at_ .g σ).ch.job? σ.who.job = some job0 ∧
    job0.corFlag = true ∧ (at_ .g σ).ch.collSize job0 2 (hbarSite unit0 2) = 1 ∧ (at_ .g σ).ch.rankOf job0 2 (hbarSite unit0 2) unit0 = 0 ∧
    (at_ .g σ).footprint σ { global := true, bench := true } .store (σ.getG 1) 0 3 1 [] = .ok (foundAt 0 4) ∧
    (at_ .g σ).footprint σ { global := true, bench := true } .load (σ.getG 2) 0 3 1 (foundAt 0 4).pages = .ok (foundAt 4096 4) ∧
    (foundAt 0 4).loc.overlaps (foundAt 4096 4).loc = false ∧
    (at_ .g σ).HasRoom σ (.clAr 1 2 3 0 0 2 0 0) (σ.odOf .g 0) ((foundAt 0 4).loc.segs ++ (foundAt 4096 4).loc.segs) ∧
    (at_ .g σ).HasRoom σ (.clBc 1 2 3 4 0 2) (σ.odOf .g 0) (foundAt 0 4).loc.segs :=
  ⟨⟨rfl, rfl⟩, rfl, rfl, rfl, rfl, rfl, rfl, rfl, rfl, room_g _ _ _ _ rfl rfl rfl (by decide), room_g _ _ _ _ rfl rfl rfl (by decide)⟩
/-- Two units, the second of rank 1: a broadcast from rank 1 to unit 0 reads no source. -/
def pairState : State :=
  let s := at_ .g (coll 1)
  { s with ch := { s.ch with units := [unit0, { unit0 with num := 1, core := 1, benchBase := 0 }] } }
theorem meets_CollectivesIssue_receiver : ((coll 1).getG 4).toNat < pairState.ch.collSize job0 2 (hbarSite unit0 2) ∧
    pairState.ch.rankOf job0 2 (hbarSite unit0 2) unit0 ≠ ((coll 1).getG 4).toNat ∧
    pairState.footprint (coll 1) { global := true, bench := true } .store ((coll 1).getG 1) 0 3 1 [] = .ok (foundAt 0 4) := by
  refine ⟨?_, ?_, rfl⟩ <;> decide

def okEx {α : Type} (x : Except (BitVec 8) α) : Option α :=
  match x with
  | .ok a => some a
  | _ => none
theorem of_okEx {α : Type} {x : Except (BitVec 8) α} {a : α} (h : okEx x = some a) : x = .ok a := by
  cases x <;> simp_all [okEx]

theorem meets_TileCommandsIssue : let σ := (((strandOf .m 0).setM 1 0x3000000000000000).setM 2 64)
    let s := at_ .m σ
    AtIssue s σ [.m 2] ∧ s.NoWalk σ .m ∧ (σ.getM 2).toNat ≠ 0 ∧ (σ.getM 2).toNat < 65536 ∧ (s.ch.core 0).bucket.owner = none ∧
    s.HasRoom σ (.bktz 2 5 0) (σ.odOf .m 0) [] ∧ AtIssue s σ [.m 1] ∧
    s.accAtPtr σ (σ.getM 1) (4 * (16 * 2 ^ (2#2).toNat) * (16 * ((63#6).toNat + 1))) .store = .ok (accFound 0 262144) ∧
    s.HasRoom σ (.tmma 2 63 1 2 1 13 0) (σ.odOf .m 0) (accFound 0 262144).loc.segs ∧
    s.HasRoom σ (.tmmaSp 2 63 1 2 1 3 4 0) (σ.odOf .m 0) (accFound 0 262144).loc.segs ∧
    s.HasRoom σ (.spc 1 2 3 2 4 0) (σ.odOf .m 0) [] ∧ (σ.getM 2).toNat < 2 ^ 24 :=
  ⟨⟨rfl, rfl⟩, noWalk _ _ _, by decide, by decide, rfl, ⟨rfl, rfl, rfl, nofun⟩, ⟨rfl, rfl⟩, rfl, ⟨rfl, rfl, rfl, nofun⟩,
    ⟨rfl, rfl, rfl, nofun⟩, ⟨rfl, rfl, rfl, nofun⟩, by decide⟩

/-- The bucket file is the strand's, with T = 5 and one `bfin` to come. -/
def owning : State :=
  let s := at_ .m (((strandOf .m 0).setM 1 0x3000000000000000).setM 2 64)
  { s with ch := { s.ch with cores := [{ Core.fresh 0 with bucket := { owner := some 0, t := 5, left := 1 } }] } }
theorem meets_TileCommandsIssue_owner : let σ := (((strandOf .m 0).setM 1 0x3000000000000000).setM 2 64)
    let s := owning
    AtIssue s σ [.m 2] ∧ AtIssue s σ [.m 1, .m 2] ∧ rowsOf (σ.getM 2) false = some { r := 64, pitch := 64 } ∧
    rowsOf (σ.getM 2) true = some { r := 64, pitch := 64 } ∧ (s.ch.core 0).bucket = { owner := some 0, t := 5, left := 1 } ∧
    s.HasRoom σ (.bkt 1 2 2 5 0 3 0) (σ.odOf .m 0) [] ∧ s.accAtPtr σ (σ.getM 1) (4 * ((2 ^ 5 - 1) * 64 + 64)) .store = .ok (accFound 0 8192) ∧
    s.HasRoom σ (.bfin 1 2 1 2 0) (σ.odOf .m 0) (accFound 0 8192).loc.segs :=
  ⟨⟨rfl, rfl⟩, ⟨rfl, rfl⟩, by decide, by decide, rfl, ⟨rfl, rfl, rfl, nofun⟩, rfl, ⟨rfl, rfl, rfl, nofun⟩⟩

/-- m1 and m4 point to the accumulator, m2 to the bench, m3 holds a tile of 32 rows of 32, m5 an atomic's word, m6 the scales. -/
def drains : Strand :=
  ((((((strandOf .m 0).setM 1 0x3000000000000000).setM 2 0x1000000000000000).setM 3 (128 * 2 ^ 48 + 32 * 2 ^ 32 + 32 * 2 ^ 16 + 32)).setM 4
    0x3000000000002000).setM 5 0x1000000000008000).setM 6 524288
theorem meets_DrainCommandsIssue : let σ := drains
    let s := at_ .m σ
    AtIssue s σ [.m 2, .m 1, .m 3, .m 5] ∧ s.NoWalk σ .m ∧ (σ.getM 6).toNat ≤ 524288 ∧ (σ.getM 0).toNat ≤ 524288 ∧
    s.accAtPtr σ (σ.getM 1) (4 * (σ.getM 0).toNat) .store = .ok (accFound 0 0) ∧
    s.HasRoom σ (.accz 1 0 0) (σ.odOf .m 0) (accFound 0 0).loc.segs ∧
    s.accAtPtr σ (σ.getM 4) (4 * (σ.getM 0).toNat) .store = .ok (accFound 0x2000 0) ∧
    (accFound 0x2000 0).loc.overlaps (accFound 0 0).loc = false ∧
    tileShape (σ.getM 3) 4 = some { dp := 128, sp := 32, r := 32, c := 32 } ∧ tileShape (σ.getM 3) 1 = some { dp := 128, sp := 32, r := 32, c := 32 } ∧
    s.footprint σ drainDest .store (σ.getM 2) 0 (31 * 128 + 32 * 4 - 1) 4 [] = .ok (foundAt 0 4096) ∧
    s.accAtPtr σ (σ.getM 1) (4 * (31 * 32 + 32)) .load = .ok (accFound 0 4096) ∧
    s.footprint σ atomicSpaces .atomic (σ.getM 5) 0 3 4 [] = .ok (foundAt 0x8000 4) ∧
    s.HasRoom σ (.qdrain 2 1 3 5 6 4 0) (σ.odOf .m 0) ((foundAt 0 4096).loc.segs ++ ((accFound 0 4096).loc.segs ++ (foundAt 0x8000 4).loc.segs)) ∧
    s.footprint σ drainDest .store (σ.getM 2) 0 (32 * 128 + 32 * 32 - 1) 1 [] = .ok (foundAt 0 5120) ∧
    s.footprint σ drainDest .store (σ.getM 5) 0 (32 * 32 / 16 - 1) 1 [] = .ok (foundAt 0x8000 64) ∧
    (foundAt 0 5120).loc.overlaps (foundAt 0x8000 64).loc = false :=
  ⟨⟨rfl, rfl⟩, noWalk _ _ _, by decide, by decide, rfl, ⟨rfl, rfl, rfl, nofun⟩, rfl, rfl, by decide, by decide, rfl, rfl, rfl,
    ⟨rfl, rfl, rfl, nofun⟩, rfl, rfl, rfl⟩

/-- A V strand with one f32 element in v1 and v2. -/
def vs : Strand := { strandOf .v 0 with vr := { (strandOf .v 0).vr with vsh := 0x00801000 } }
theorem meets_VectorResults : vOp (.vadd 0 3 1 2 0 0 0) = some (.arith .add clsBoth (binForm 0 3 1 2 0 0) 0) ∧
    AtIssue (at_ .v vs) vs ((binForm 0 3 1 2 0 0).names (vshapeOf vs.vr.vsh) ++ []) ∧ VReads (at_ .v vs) vs (binForm 0 3 1 2 0 0) 1 [0] [0] [0] ∧
    clsBoth (vshapeOf vs.vr.vsh).ty = true :=
  ⟨rfl, ⟨rfl, rfl⟩,
    { shape := rfl, active := rfl, d := of_okEx (by decide +kernel), a := fun f h => by cases h; exact ⟨of_okEx (by decide +kernel), rfl⟩, noA := nofun,
      b := fun f h => by cases h; exact ⟨of_okEx (by decide +kernel), rfl⟩, noB := nofun }, rfl⟩

theorem meets_ReductionResults : AtIssue (at_ .v vs) vs ((unForm 0 3 1 0 0).names (vshapeOf vs.vr.vsh)) ∧
    VReads (at_ .v vs) vs (unForm 0 3 1 0 0) 1 [0] [] [0] ∧ clsBoth (vshapeOf vs.vr.vsh).ty = true :=
  ⟨⟨rfl, rfl⟩,
    { shape := rfl, active := rfl, d := of_okEx (by decide +kernel), a := fun f h => by cases h; exact ⟨of_okEx (by decide +kernel), rfl⟩, noA := nofun,
      b := nofun, noB := fun _ => rfl }, rfl⟩

/-- The snapshot holds a legal shape in s1 and one with a reserved bit in s2; p1 and p2 have one element width, p3 another. -/
def vctl : Strand :=
  { vs with vr := { vs.vr with snap := { vs.vr.snap with s := [0, 0x0080178F, 0x0180178F] }, p := [0, 3, 5, 0x4003] } }
theorem meets_VectorControl : AtIssue (at_ .v vctl) vctl [] ∧ vshOk (vctl.snapS .v 1) = true ∧ vshOk (vctl.snapS .v 2) = false ∧
    predEw (vctl.pred 1) = predEw (vctl.pred 2) ∧ predEw (vctl.pred 1) ≠ predEw (vctl.pred 3) ∧ vctl.inProgram ∧
    AtIssue (at_ .v vctl) vctl [.x 7] ∧ AtIssue (at_ .v vctl) vctl (srcNames 1 1) ∧ (at_ .v vctl).ch.latchBusy vctl 1 = false ∧
    (at_ .v vctl).ch.fetchV vctl 1 1 = .ok [0] :=
  ⟨⟨rfl, rfl⟩, by decide, by decide, by decide, by decide, rfl, ⟨rfl, rfl⟩, ⟨rfl, rfl⟩, rfl, of_okEx (by decide +kernel)⟩

/-- A V strand of shape f32, one row of two, with an iterator over the bench in vi1 and pointers into it in v2. -/
def viter : BitVec 512 := BitVec.ofNat 512 (0x1000000000000000 + 8 * 2 ^ 64 + 2 * 2 ^ 72 + 1 * 2 ^ 80 + 16 * 2 ^ 128 + 4 * 2 ^ 160)
def vsw : Strand :=
  { vs with vr := { vs.vr with vsh := 0x00801001, vi := [none, some viter] ++ List.replicate 6 none,
                               v := [0, 0, BitVec.ofNat 8192 (0x1000000000000040 + 0x1000000000000080 * 2 ^ 64)] ++ List.replicate 29 0,
                               snap := { vs.vr.snap with s := [0, 0x1000000000000100] } } }
def bseg (a : Nat) : Seg := segAt a 4
theorem meets_VectorAccessIssues : let σ := vsw
    let s := at_ .v σ
    s.ch.turn.cl = .v ∧ s.NoWalk σ .v ∧ σ.exhausted .v (σ.odOf .v 0) = false ∧ AtIssue s σ [] ∧
    s.footprint σ benchOnly .load (σ.snapS .v 1) 0 63 64 [] = .ok (foundAt 256 64) ∧ clsByte 8 = true ∧ σ.active 0 8 2 = some 2 ∧
    s.ch.fetchV σ 3 1 = .ok [0] ∧ AtIssue s σ (.vi 1 :: srcNames 3 1) ∧ nth none σ.vr.vi 1 = some viter ∧ σ.skip = 0 := by
  exact ⟨rfl, noWalk _ _ _, rfl, ⟨rfl, rfl⟩, rfl, rfl, rfl, of_okEx (by decide +kernel), ⟨rfl, rfl⟩, rfl, rfl⟩
theorem meets_VectorAccessIssues_sweep : let σ := vsw
    let s := at_ .v σ
    2 ^ iterLog viter = 4 ∧ 0 + 2 ≤ iterTotal viter ∧ ([0, 1].map fun e => iterOff viter (0 + e)) = [0, 4] ∧
    (∀ x ∈ ([0, 4] : List Int), ((ptrOff (iterBase viter) : Int) + x) % ((4 : Nat) : Int) = 0) ∧
    okOf (s.ch.checkPtr σ benchOnly (iterBase viter) 0 7 1) = some (0x20000000000, 0, 7) ∧
    s.ch.moving ((List.range' 0 2).map fun e => streamSeg 0x20000000000 ((ptrOff (iterBase viter) : Int) + iterOff viter (0 + e)) 4) = false := by
  refine ⟨?_, ?_, ?_, ?_, ?_, ?_⟩ <;> decide +kernel
theorem meets_VectorAccessIssues_gather : let σ := vsw
    let s := at_ .v σ
    AtIssue s σ (srcNames 2 1 ++ srcNames 3 1) ∧ σ.pointers 2 2 = some [0x1000000000000040, 0x1000000000000080] ∧
    (okOf (s.footprint σ atomicSpaces .load 0x1000000000000080 0 3 4 [])).isSome = true := by
  refine ⟨⟨rfl, rfl⟩, ?_, ?_⟩ <;> decide +kernel

/-- A gather that has issued and whose elements are not found yet. -/
def gathering : State := nextOf (exec (.vgth 0 3 2 0 0) (at_ .v vsw))
theorem meets_VectorAccessIssues_find : let s := gathering
    let q := opOf s
    let σ := strandOf0 s
    s.ch.op? q.id = some q ∧ s.ch.strand? q.pos = some σ ∧ s.ch.xl.walks = [] ∧ sweepForm q.instr = some false ∧ s.ch.progresses q = true ∧
    q.status ≠ .sent ∧ q.bar = none ∧ q.sweepTodo = [] ∧ q.progress < q.sweepElems.length ∧
    (let r := s.findElements σ q false q.sweepRest none
     r.1.map (·.phys) = [0x20000000040, 0x20000000080] ∧ r.2.2.isNone = true ∧ s.ch.moving r.1 = false) := by
  refine ⟨?_, ?_, ?_, ?_, ?_, ?_, ?_, ?_, ?_, ?_, ?_, ?_⟩ <;> decide +kernel

/-- A V strand of shape f32, 16 rows, with a stream of four entries in the queue of q1, or an output stream with room for two. -/
def vst (dir : Dir) (rows claimed : Nat) (queue : List (Nat × BitVec 512)) : Strand :=
  ({ vs with vr := { vs.vr with vsh := BitVec.ofNat 64 (0x00801000 + (rows - 1) * 128) } } : Strand).setBinding 1 (some
    { dir := dir, iter := viter, chain := 0, op := 0, total := 40, pos := 0, bytePos := 0, queue := queue, claimed := claimed, skips := [],
      bad := none, packed := [], stuck := none, leaving := false })
theorem meets_StreamRows : let σ := vst .input 2 0 [(0, 7), (1, 8)]
    AtIssue (at_ .v σ) σ (srcNames 3 1) ∧ (at_ .v σ).ch.fetchV σ 3 1 = .ok [0] ∧ (σ.binding? 1).isSome = true ∧
    (∀ b, σ.binding? 1 = some b → b.dir = .input ∧ b.claimed + 2 ≤ b.total ∧ (∀ k, k < 2 → k < 16 → b.badAt (b.claimed + k) = none) ∧
      (∀ k, k < 2 → k < 16 → b.entry? (b.claimed + k) = some (if k = 0 then 7 else 8))) ∧
    (∀ b, (vst .input 2 0 []).binding? 1 = some b → ∃ k, k < 2 ∧ k < 16 ∧ b.entry? (b.claimed + k) = none) ∧
    (∀ b, (vst .output 16 0 []).binding? 1 = some b → b.claimed + min 16 16 ≤ b.pos + 16) ∧
    (∀ b, (vst .output 16 1 []).binding? 1 = some b → b.pos + 16 < b.claimed + min 16 16) := by
  refine ⟨⟨rfl, rfl⟩, of_okEx (by decide +kernel), rfl, ?_, ?_, ?_, ?_⟩
  · rintro b hb; cases hb
    refine ⟨rfl, ?_, ?_, ?_⟩ <;> decide +kernel
  · rintro b hb; cases hb
    exact ⟨0, by decide⟩
  · rintro b hb; cases hb; decide
  · rintro b hb; cases hb; decide
/-- A stream with EXPAND whose queue holds the header of a block of zeros, of two entries. -/
theorem meets_StreamRows_expand : let b : Binding :=
      { dir := .input, iter := viter, chain := BitVec.ofNat 256 (2 ^ 56 + 256), op := 0, total := 40, pos := 0, bytePos := 1, queue := [],
        claimed := 0, skips := [], bad := none, packed := [0], stuck := none, leaving := false }
    let x := (List.range' b.claimed (min 2 16)).foldl Binding.wanted b
    b.expands = true ∧ x ≠ b ∧ b.claimed + 2 ≤ b.total ∧ (∀ k, k < 2 → k < 16 → x.badAt (b.claimed + k) = none) ∧
    ∀ k, k < 2 → k < 16 → x.entry? (b.claimed + k) = some 0 := by
  refine ⟨?_, ?_, ?_, ?_, ?_⟩ <;> decide +kernel
/-- A group of two registers of 16 rows: 32 entries, the first sixteen of which are there. -/
def vlong : Strand :=
  ({ vs with vr := { vs.vr with vsh := 0x00802780 } } : Strand).setBinding 1 (some
    { dir := .input, iter := viter, chain := 0, op := 0, total := 40, pos := 16, bytePos := 0, queue := (List.range 16).map fun k => (k, 0),
      claimed := 0, skips := [], bad := none, packed := [], stuck := none, leaving := false })
theorem meets_StreamRows_long : AtIssue (at_ .v vlong) vlong (srcNames 3 2) ∧ (at_ .v vlong).ch.fetchV vlong 3 2 = .ok [0, 0] ∧
    (vshapeOf vlong.vr.vsh).rows * (vshapeOf vlong.vr.vsh).gs = 32 ∧ ∀ b, vlong.binding? 1 = some b → b.claimed + 32 ≤ b.total ∧
      ∀ k, k < 32 → k < 16 → b.badAt (b.claimed + k) = none ∧ b.entry? (b.claimed + k) = some 0 := by
  refine ⟨⟨rfl, rfl⟩, of_okEx (by decide +kernel), by decide, ?_⟩
  rintro b hb; cases hb
  exact ⟨by decide, by decide +kernel⟩


/-! Operations to be performed. -/

/-- The state in which an instruction has been put in flight, over bytes of memory. -/
def flightOf (cl : Cluster) (i : Instr) (σ : Strand) (mem : List Host.Cell) : State := { nextOf (exec i (at_ cl σ)) with mem := mem }
theorem performable {s : State} {o : Op} (h : s.ch.ops = [o]) (hs : s.ch.strand? o.pos = some (strandOf0 s)) (ht : s.ch.progresses o = true)
    (hf : s.ch.side.faulty = []) (hb : o.bar = none) : s.Performable (strandOf0 s) o :=
  { op := by simp [Chip.op?, h], only := fun p hp _ => by simpa [h] using hp, own := hs, turn := ht, sound := hf, noBar := hb }
theorem clear_of_unmarked {d : Side} (hm : d.marks = []) (hf : d.faulty = []) (k : Check) (a n : Nat) : d.checkRun k a n = none := by
  have h (ag : Nat) (v : Vec) : ∀ gs, d.firstRace ag v gs = none := by
    intro gs
    induction gs with
    | nil => rfl
    | cons g gs ih => simp [Side.firstRace, Side.conflict?, Side.mark?, hm, ih]
  cases k with
  | agent ag v =>
    have hb : d.markBad (granules a n) = none := List.find?_eq_none.2 fun g _ => by simp [hf]
    simp [Side.checkRun, hb, h]
  | _ => rfl
theorem usable {s : State} {o : Op} {g : Seg} (hm : s.ch.side.marks = []) (hf : s.ch.side.faulty = []) (hp : g.peer = none) (hc : g.cmp = false) :
    s.Usable o g := { here := hp, plain := hc, clear := fun _ _ _ _ => clear_of_unmarked hm hf _ _ _ }
/-- What a witness of a performance asks of its state, as one check. -/
def ready (s : State) : Bool :=
  let o := opOf s
  s.ch.ops == [o] && s.ch.strand? o.pos == some (strandOf0 s) && s.ch.progresses o && s.ch.side.faulty == [] && o.bar == none && s.ch.side.marks == []
theorem ready_performable {s : State} (h : ready s = true) : s.Performable (strandOf0 s) (opOf s) ∧
    ∀ g : Seg, g.peer = none → g.cmp = false → s.Usable (opOf s) g := by
  simp only [ready, Bool.and_eq_true, beq_iff_eq] at h
  obtain ⟨⟨⟨⟨⟨h1, h2⟩, h3⟩, h4⟩, h5⟩, h6⟩ := h
  exact ⟨performable h1 h2 h3 h4 h5, fun g => usable h6 h4⟩

/-- A record of a legal iterator at byte 64 of the bench, and bytes that are none. -/
def recordMem : List Host.Cell := memWrite [] 0x20000000040 (leBytes 64 iter0.toNat)
def badMem : List Host.Cell := memWrite [] 0x20000000040 (List.replicate 64 0xFF)
theorem meets_RecordsAndSweepsPerformed_itld : let s := flightOf .g (.itld 1 1 0) gs recordMem
    let t := flightOf .g (.itld 1 1 0) gs badMem
    s.Performable (strandOf0 s) (opOf s) ∧ s.Usable (opOf s) (opOf s).run ∧ (opOf s).instr = .itld 1 1 0 ∧ (opOf s).run.len = 64 ∧
    iterOk (BitVec.ofNat 512 (memNat s.mem (opOf s).run.phys 64)) = true ∧ (⟨.gi 1, (opOf s).id⟩ : Busy) ∈ (strandOf0 s).busy ∧
    t.Performable (strandOf0 t) (opOf t) ∧ t.Usable (opOf t) (opOf t).run ∧
    iterOk (BitVec.ofNat 512 (memNat t.mem (opOf t).run.phys 64)) = false ∧ (strandOf0 t).inProgram := by
  refine ⟨(ready_performable ?_).1, (ready_performable ?_).2 _ ?_ ?_, ?_, ?_, ?_, ?_, (ready_performable ?_).1, (ready_performable ?_).2 _ ?_ ?_, ?_, rfl⟩
    <;> decide +kernel
theorem meets_RecordsAndSweepsPerformed_records : let s := flightOf .g (.itst 1 1 0) gs []
    let t := flightOf .g (.chld 1 1 0) gs recordMem
    let u := flightOf .v (.viset 2 1 0) vsw (memWrite [] 0x20000000100 (leBytes 64 iter0.toNat))
    (s.Performable (strandOf0 s) (opOf s) ∧ s.Usable (opOf s) (opOf s).run ∧ (opOf s).instr = .itst 1 1 0 ∧ (opOf s).run.len = 64) ∧
    (t.Performable (strandOf0 t) (opOf t) ∧ t.Usable (opOf t) (opOf t).run ∧ (opOf t).instr = .chld 1 1 0 ∧ (opOf t).run.len = 32 ∧
      (⟨.ch 1, (opOf t).id⟩ : Busy) ∈ (strandOf0 t).busy) ∧
    (u.Performable (strandOf0 u) (opOf u) ∧ u.Usable (opOf u) (opOf u).run ∧ (opOf u).instr = .viset 2 1 0 ∧ (opOf u).run.len = 64 ∧
      (⟨.vi 2, (opOf u).id⟩ : Busy) ∈ (strandOf0 u).busy ∧ iterOk (BitVec.ofNat 512 (memNat u.mem (opOf u).run.phys 64)) = true) := by
  refine ⟨⟨(ready_performable ?_).1, (ready_performable ?_).2 _ ?_ ?_, ?_, ?_⟩, ⟨(ready_performable ?_).1, (ready_performable ?_).2 _ ?_ ?_, ?_, ?_, ?_⟩,
    (ready_performable ?_).1, (ready_performable ?_).2 _ ?_ ?_, ?_, ?_, ?_, ?_⟩ <;> decide +kernel
/-- A sweep whose elements are found, with what the statement asks of each. -/
def swept (s : State) (store : Bool) : Bool :=
  let o := opOf s
  let sh := vshapeOf (nth 0 o.vals 0)
  ready s && sweepForm o.instr == some store && o.progress == 0 && o.sweepTodo.length == o.sweepElems.length && !o.sweepTodo.isEmpty &&
    vshOk (nth 0 o.vals 0) && (strandOf0 s).vr.v.length == 32 && decide (o.val 4 + sh.gs ≤ 32) &&
    o.sweepTodo.all fun x => x.2.2.peer.isNone && !x.2.2.cmp && x.2.2.size == 0 && 8 * x.2.2.len == sh.w
theorem meets_RecordsAndSweepsPerformed_sweeps : swept (flightOf .v (.vbld 3 1 0 0) vsw []) false = true ∧
    (let s := flightOf .v (.vbst 3 1 0 0) vsw []
     swept s true = true ∧ ((opOf s).sweepTodo.map fun x => (x.2.2.phys, x.2.2.len)) = [(0x20000000000, 4), (0x20000000004, 4)]) := by
  refine ⟨?_, ?_, ?_⟩ <;> decide +kernel

/-- A barrier of the granule at byte 16, in a state. -/
def barMem (error overrun : Bool) : List Host.Cell :=
  memWrite [] 0x20000000010 ({ bar0 with expected := 2, pendArr := 2, phase := 7, init := true, error := error, overrun := overrun } : Bar).bytes
def barAt (s : State) : Bar := Bar.read s.mem (opOf s).run.phys
theorem meets_BarriersPerformed_bar :
    (let s := flightOf .c (.barInit 1 2 0) ptrs []
     s.Performable (strandOf0 s) (opOf s) ∧ barForm (opOf s).instr = some .init ∧ (barAt s).init = false ∧
       (s.ch.quad (quadOfBench (opOf s).run.phys)).bars.length < 1024) ∧
    (∀ i ∈ [Instr.barExpect 1 2 0, .barArrive 1 0, .barWait 1 2 0, .barInval 1 0], let s := flightOf .c i ptrs (barMem false false)
      ready s = true ∧ (barForm (opOf s).instr).isSome = true ∧ (barAt s).init = true ∧ (barAt s).error = false ∧ (barAt s).overrun = false ∧
        (barAt s).phase ≠ (nth 0 (opOf s).vals 0).toNat % 256) ∧
    (let s := flightOf .c (.barWait 1 2 0) (ptrs.setS 2 0x107) (barMem false false)
     ready s = true ∧ (barAt s).phase = (nth 0 (opOf s).vals 0).toNat % 256) ∧
    (let s := flightOf .c (.barTest 1 2 0) ptrs (barMem true true)
     ready s = true ∧ barForm (opOf s).instr = some (.test 2) ∧ (⟨.s 2, (opOf s).id⟩ : Busy) ∈ (strandOf0 s).busy) := by
  refine ⟨⟨(ready_performable ?_).1, ?_, ?_, ?_⟩, ?_, ⟨?_, ?_⟩, ?_, ?_, ?_⟩ <;> decide +kernel
theorem meets_BarriersPerformed_faults :
    (∀ i ∈ [Instr.barExpect 1 2 0, .barWait 1 2 0, .barArrive 1 0, .barTest 1 2 0, .barInval 1 0], let s := flightOf .c i ptrs []
      ready s = true ∧ (barAt s).init = false ∧ (strandOf0 s).trap.phase = .run) ∧
    (let s := flightOf .c (.barInit 1 2 0) ptrs (barMem false false)
     ready s = true ∧ (barAt s).init = true) ∧
    (let s := flightOf .c (.barExpect 1 2 0) ptrs (barMem true false)
     ready s = true ∧ (barAt s).error = true) ∧
    ∀ i ∈ [Instr.barExpect 1 2 0, .barWait 1 2 0], let s := flightOf .c i ptrs (barMem false true)
      ready s = true ∧ (barAt s).error = false ∧ (barAt s).overrun = true := by
  refine ⟨?_, ⟨?_, ?_⟩, ⟨?_, ?_⟩, ?_⟩ <;> decide +kernel
/-- An `hbar` of the unit in flight, and what its barrier and its own progress have come to. -/
def hbarState (i : Instr) (progress : Nat) (taken : List (Nat × BitVec 512)) (h : Hbar → Hbar) : State :=
  let s := flightOf .c i (cs 0 0) []
  { s with ch := (s.ch.modOp (opOf s).id fun o => { o with progress := progress, taken := taken }).setHbar (h (s.ch.hbar 5 4 (hbarSite unit0 4))) }
theorem meets_BarriersPerformed_hbar :
    (∀ i ∈ [Instr.hbarA 4 0, .hbarAw 4 0], let s := hbarState i 0 [] id
      ready s = true ∧ ((hbarForm (opOf s).instr).map (·.1)) = some 4 ∧ s.ch.unitOf? (strandOf0 s) = some unit0 ∧ (opOf s).progress = 0 ∧
        (s.ch.hbar 5 4 (hbarSite unit0 4)).hasArrived 0 = false) ∧
    (let s := hbarState (.hbarAw 4 0) 0 [] fun h => { h with arrived := [0] }
     ready s = true ∧ (opOf s).progress = 0 ∧ (s.ch.hbar 5 4 (hbarSite unit0 4)).hasArrived 0 = true) ∧
    (let s := hbarState (.hbarW 4 0) 1 [] id
     ready s = true ∧ (opOf s).progress = 1 ∧ (s.ch.hbar 5 4 (hbarSite unit0 4)).awaited (opOf s) unit0 = none) ∧
    (let s := hbarState (.hbarAw 4 0) 1 [(0, 3)] fun h => { h with phase := 4, last := [(0, 3)] }
     ready s = true ∧ (s.ch.hbar 5 4 (hbarSite unit0 4)).awaited (opOf s) unit0 = some 3 ∧ 3 < (s.ch.hbar 5 4 (hbarSite unit0 4)).phase) ∧
    (let s := hbarState (.hbarAw 4 0) 1 [(0, 3)] fun h => { h with phase := 3, last := [(0, 3)] }
     ready s = true ∧ (s.ch.hbar 5 4 (hbarSite unit0 4)).phase ≤ 3 ∧ (opOf s).taken ≠ []) := by
  refine ⟨?_, ⟨?_, ?_, ?_⟩, ⟨?_, ?_, ?_⟩, ⟨?_, ?_, ?_⟩, ?_, ?_, ?_⟩ <;> decide +kernel

/-- An operation that has started. -/
def startedOf (s : State) (mem : List Host.Cell) : State := { nextOf (exec (.commandStart (opOf s).id) s) with mem := mem }
/-- The only run of each of an operation's footprints, and whether they are apart. -/
def runOf (s : State) (k : Nat) : Seg := (nth Loc.none (opOf s).locs k).segs.headD { phys := 0, len := 0, va := 0, peer := none, mode := 0, cmp := false, page := 0, size := 0 }
def oneRun (s : State) (k : Nat) : Bool :=
  let l := nth Loc.none (opOf s).locs k
  let g := runOf s k
  l.segs == [g] && g.peer.isNone && !g.cmp
def apart (g h : Seg) : Bool := decide (g.phys + g.len ≤ h.phys ∨ h.phys + h.len ≤ g.phys)
/-- A copy that has started between two runs of the bench. -/
def copyReady (s : State) (n m : Nat) : Bool :=
  ready s && oneRun s 0 && oneRun s 1 && apart (runOf s 0) (runOf s 1) && (runOf s 0).len == n && (runOf s 1).len == m
theorem copyReady_use {s : State} {n m : Nat} (h : copyReady s n m = true) : s.Performable (strandOf0 s) (opOf s) ∧
    s.OneRun (opOf s) (nth Loc.none (opOf s).locs 0) (runOf s 0) ∧ s.OneRun (opOf s) (nth Loc.none (opOf s).locs 1) (runOf s 1) ∧
    (runOf s 0).Apart (runOf s 1) ∧ (runOf s 0).len = n ∧ (runOf s 1).len = m := by
  simp only [copyReady, oneRun, Bool.and_eq_true, beq_iff_eq, apart, decide_eq_true_eq, Bool.not_eq_true', Option.isNone_iff_eq_none] at h
  obtain ⟨⟨⟨⟨⟨hr, ⟨⟨a1, a2⟩, a3⟩⟩, ⟨⟨b1, b2⟩, b3⟩⟩, hab⟩, hn⟩, hm⟩ := h
  obtain ⟨p, u⟩ := ready_performable hr
  exact ⟨p, ⟨.inl a1, u _ a2 a3⟩, ⟨.inl b1, u _ b2 b3⟩, hab, hn, hm⟩
/-- Four bytes at byte 4096 of the bench with their CRC-32C, and with another. -/
def crcMem (good : Bool) : List Host.Cell :=
  memWrite [] 0x20000001000 ([1, 2, 3, 4] ++ leBytes 4 (crc32c [1, 2, 3, 4] + if good then 0 else 1))
theorem meets_CopiesPerformed : copyReady (startedOf (flightOf .g (.cp 1 2 3 0 0 0 0) (cps 128) []) []) 128 128 = true ∧
    (∀ good, let s := startedOf (flightOf .g (.cp 1 2 3 0 0 1 0) (cps 4) []) (crcMem good)
      copyReady s 4 8 = true ∧ decide (memNat s.mem ((runOf s 1).phys + 4) 4 = crc32c (memBytes s.mem (runOf s 1).phys 4)) = good) ∧
    copyReady (startedOf (flightOf .g (.cpst 1 2 3 0 0) ((cps (2 * 2 ^ 32 + 64)).setG 4 (128 * 2 ^ 32 + 256)) []) []) 192 320 = true ∧
    copyReady (startedOf (flightOf .g (.wsort 1 2 3 0 0 0 0) (cps (64 + 32 * 2 ^ 24)) []) []) 3072 256 = true := by
  refine ⟨?_, ?_, ?_, ?_⟩ <;> decide +kernel
/-- The copy of a program of one dimension of four bytes. -/
def cgStarted : State := startedOf (nextOf (exec (.cpCg 1 2 3 0 0) cgState)) []
theorem meets_CopiesPerformed_cg : copyReady cgStarted 4 4 = true ∧
    (match cgParse (unpackWords (nth 0 (opOf cgStarted).data 0)) with
      | some p => p.destRange.1 == 0 && (p.sourceRange.getD (0, 0)).1 == 0 && p.elements == [(some 0, 0), (some 1, 1), (some 2, 2), (some 3, 3)] && p.loge == 0
      | none => false) = true := by
  refine ⟨?_, ?_⟩ <;> decide +kernel

/-- A broadcast of the quad's one unit that has started. -/
def gathered : State := startedOf (flightOf .g (.clAr 1 2 3 0 0 2 0 0) (coll 0) []) []
theorem meets_CollectivesPerformed : let s := gathered
    let o := opOf s
    s.ch.op? o.id = some o ∧ s.ch.progresses o = true ∧ s.ch.side.faulty = [] ∧ collScope o.instr = some 2 ∧ s.ch.job? o.job = some job0 ∧
    ((s.ch.strand? o.pos).bind s.ch.unitOf?).map (·.num) = some 0 ∧ job0.podN ≤ 1 ∧
    (s.ch.ranked 5 2 (hbarSite unit0 2)).map (fun w => s.ch.collOp? w 2 (nth 0 o.data 0).toNat) = [some o] ∧
    o.status = .started ∧ o.bar = none ∧ s.ch.frozenOut o = false ∧ oneRun s 0 = true ∧ oneRun s 1 = true ∧
    (collResult o.instr (nth 0 o.vals 2).toNat (nth 0 o.vals 3).toNat [memBytes s.mem (runOf s 1).phys 4] 0).length = (runOf s 0).len := by
  refine ⟨?_, ?_, ?_, ?_, ?_, ?_, ?_, ?_, ?_, ?_, ?_, ?_, ?_, ?_⟩ <;> decide +kernel

/-- A command of M that has started, with entries for its claims, all alike in each. -/
def supplied (i : Instr) (vals : List Reg) (locs : List Loc) (claims : List (Nat × BitVec 512)) : State :=
  let s := startedOf (flightOf .m (.bktz 2 5 0) (((strandOf .m 0).setM 1 0x3000000000000000).setM 2 64) []) []
  { s with ch := s.ch.modOp (opOf s).id fun o =>
      { o with instr := i, vals := vals, locs := locs, claims := claims.zipIdx.map fun c => (c.2, 0, c.1.1),
               taken := claims.zipIdx.flatMap fun c => (List.range c.1.1).map fun k => (takenKey c.2 k, c.1.2) } }
/-- What a witness of an M command asks. -/
def mReady (s : State) : Bool := ready s && (s.ch.claimFault (opOf s)).isNone && (opOf s).wants.isNone
theorem mReady_use {s : State} (h : mReady s = true) : s.Performable (strandOf0 s) (opOf s) ∧ s.ch.claimFault (opOf s) = none ∧
    (opOf s).wants = none ∧ ∀ g : Seg, g.peer = none → g.cmp = false → s.Usable (opOf s) g := by
  simp only [mReady, Bool.and_eq_true, Option.isNone_iff_eq_none] at h
  exact ⟨(ready_performable h.1.1).1, h.1.2, h.2, (ready_performable h.1.1).2⟩
/-- A row record of 32 columns, all in bucket 0, and the activations 0 to 31 (R209). -/
def record0 : BitVec 512 := BitVec.ofNat 512 (leNat ((List.range 32).map (BitVec.ofNat 8) ++ (List.replicate 8 (leBytes 2 32)).flatten))
theorem meets_MatrixPerformed_bucket :
    (let s := startedOf (flightOf .m (.bktz 2 5 0) (((strandOf .m 0).setM 1 0x3000000000000000).setM 2 64) []) []
     mReady s = true ∧ (opOf s).instr = .bktz 2 5 0) ∧
    (let s := supplied (.bkt 0 1 2 0 0 0 0) [1] [] [(1, record0), (1, record0)]
     mReady s = true ∧ (rowsOf (nth 0 (opOf s).vals 0) false).map (·.r) = some 1 ∧ segLen 0 = 32 ∧
      (rowRecordOf 32 (((opOf s).claimBytes 1).take 48)).ok 1 32 = true) ∧
    (let s := supplied (.bfin 0 1 1 2 0) [0, 1, 0] [(accFound 0 4).loc] [(1, 5), (1, 7)]
     mReady s = true ∧ oneRun s 0 = true ∧ (rowsOf (nth 0 (opOf s).vals 1) true).map (·.r) = some 1 ∧ (runOf s 0).len = 4 ∧
      (runOf s 0).phys + 4 ≤ bucketAt (coreOf (opOf s).pos) ∧ leNat ((((opOf s).claimBytes 0).take 16).drop 12) = 0) := by
  refine ⟨⟨?_, ?_⟩, ⟨?_, ?_, ?_, ?_⟩, ?_, ?_, ?_, ?_, ?_, ?_⟩ <;> decide +kernel
/-- The columns of R219 join their bucket: 0 + 1 + … + 31. -/
theorem test_bkt_sums : leads (exec (.operationPerformed (opOf (supplied (.bkt 0 1 2 0 0 0 0) [1] [] [(1, record0), (1, record0)])).id)
    (supplied (.bkt 0 1 2 0 0 0 0) [1] [] [(1, record0), (1, record0)])) (fun t => memNat t.mem (bucketAt 0) 4 == 496) = true := by decide +kernel
/-- A metadata halfword that keeps elements 0 to 3 (R330), in every place of an entry. -/
def meta0 : BitVec 512 := BitVec.ofNat 512 (leNat (List.replicate 32 (leBytes 2 0x688)).flatten)
theorem meets_MatrixPerformed_tile :
    (∀ im, let s := supplied (.tmma 0 0 0 1 1 0 im) [0] [(accFound 0 1024).loc] [(16, 1), (16, 2)]
     mReady s = true ∧ oneRun s 0 = true ∧ (runOf s 0).len = 4 * (tileM 0 * tileN 0) ∧ tap6Ok 0 ((opOf s).entries 0) = true) ∧
    (let s := supplied (.tmmaSp 0 0 0 1 1 2 0 1) [0] [(accFound 0 1024).loc] [(16, 1), (32, 2), (8, meta0)]
     mReady s = true ∧ oneRun s 0 = true ∧ (runOf s 0).len = 4 * (tileM 0 * tileN 0) ∧
      ∀ i, i < tileM 0 → ∀ h ∈ metaRow (opOf s) i, metaOk h = true) := by
  refine ⟨?_, ?_, ?_, ?_, ?_⟩ <;> decide +kernel
/-- Drains of a tile of two rows of two, and of one of 32 rows of 32, from the accumulator to the bench. -/
def tileReg (r c dp : Nat) : Reg := BitVec.ofNat 64 (dp * 2 ^ 48 + c * 2 ^ 32 + r * 2 ^ 16 + c)
def drained (i : Instr) (vals : List Reg) (locs : List Loc) : State := supplied i vals locs []
def drainReady (s : State) (n m : Nat) : Bool :=
  mReady s && oneRun s 0 && oneRun s 1 && apart (runOf s 0) (runOf s 1) && (runOf s 0).len == n && (runOf s 1).len == m
theorem meets_MatrixPerformed_drain :
    (let s := drained (.accz 1 2 0) [0, 4] [(accFound 0 16).loc]
     mReady s = true ∧ oneRun s 0 = true ∧ (runOf s 0).len = 16) ∧
    drainReady (drained (.accmv 1 2 3 0) [0, 0, 4] [(accFound 0 16).loc, (accFound 64 16).loc]) 16 16 = true ∧
    drainReady (drained (.adrain 1 2 3 8 0) [0, 0, tileReg 2 2 8] [(foundAt 0 16).loc, (accFound 0 16).loc]) 16 16 = true ∧
    tileShape (tileReg 2 2 8) 4 = some { dp := 8, sp := 2, r := 2, c := 2 } ∧ drainType 8 = true ∧ drainFloat 8 = true ∧ tyBits 8 / 8 = 4 ∧
    (let s := drained (.qdrain 1 2 3 4 8 0 0) [0, 0, tileReg 2 2 8, 0] [(foundAt 0 16).loc, (accFound 0 16).loc, (foundAt 64 4).loc]
     drainReady s 16 16 = true ∧ ({ opOf s with locs := (opOf s).locs.drop 2 } : Op).run = runOf s 2 ∧ (runOf s 2).peer = none ∧
      (runOf s 2).cmp = false ∧ (runOf s 2).len = 4 ∧ apart (runOf s 0) (runOf s 2) = true) ∧
    (let s := drained (.quant2 1 2 3 4 9 0) [0, 0, tileReg 32 32 32, 0] [(foundAt 0 2048).loc, (accFound 0 4096).loc, (foundAt 4096 64).loc]
     drainReady s 2048 4096 = true ∧ oneRun s 2 = true ∧ (runOf s 2).len = 64 ∧ apart (runOf s 0) (runOf s 2) = true ∧
      apart (runOf s 1) (runOf s 2) = true ∧ tileShape (tileReg 32 32 32) 1 = some { dp := 32, sp := 32, r := 32, c := 32 }) := by
  refine ⟨⟨?_, ?_, ?_⟩, ?_, ?_, ?_, ?_, ?_, ?_, ⟨?_, ?_, ?_, ?_, ?_, ?_⟩, ?_, ?_, ?_, ?_, ?_, ?_⟩ <;> decide +kernel

/-! The events. -/

/-- A copy of 128 bytes in flight, and an accumulator command that waits for a token in error. -/
def copying : State := nextOf (exec (.cp 1 2 3 0 0 0 0) (at_ .g (cps 128)))
def accWaits : State :=
  let σ := prefixed.setToken 2 { Token.fresh with st := 3, cause := 0x31 }
  nextOf (exec (.dep 1 2 0 0) (rigOf .m 0x01120000 σ))
/-- A move inside the accumulator that has started, of a word with an uncorrectable error (R333). -/
def badWord : State :=
  let σ := (((strandOf .m 0).setM 1 0x3000000000000000).setM 2 0x3000000000002000).setM 3 16
  let s := nextOf (exec (.accmv 1 2 3 0) (at_ .m σ))
  let t := nextOf (exec (.commandStart (opOf s).id) s)
  { t with ch := { t.ch with side := { t.ch.side with faulty := [(0x80000002000, false)] } } }
/-- The outcome is a late fault that has changed nothing yet. -/
def isLate (s : State) (p : Perf) : Option TrapReq :=
  match p with
  | .late e r => if e.chip = s.ch ∧ e.writes = [] then some r else none
  | _ => none
theorem of_isLate {s : State} {p : Perf} {r : TrapReq} (h : isLate s p = some r) : p = .late (Eff.quiet s.ch) r := by
  unfold isLate at h
  split at h
  · rename_i e _
    obtain ⟨c, w⟩ := e
    simp_all [Eff.quiet]
  · simp at h
/-- Two strands of weight 1 with copies: 8,192 and 128 bytes in slot 0, 128 bytes in slot 1. -/
def rounds : State :=
  let σ := { strandOf0 copying with who := { (strandOf0 copying).who with weight := 1 } }
  let o (id pos n : Nat) : Op := { opOf copying with id := id, pos := pos, vals := [0, 0, BitVec.ofNat 64 n] }
  { copying with ch := { copying.ch with strands := [σ, { σ with pos := 1 }], ops := [o 0 0 8192, o 1 0 128, o 2 1 128] } }
def starts (s : State) : List Nat := (s.ch.ops.filter fun o => o.status == .started).map (·.id)
/-- R149: slot 0 starts its first copy, which takes two rounds of 4 KiB; slot 1 starts in the first of them, slot 0's second copy after. -/
theorem test_round_robin :
    let s1 := nextOf (exec (.commandStart 0) rounds)
    let s2 := nextOf (exec (.commandStart 2) s1)
    starts (nextOf (exec (.commandStart 2) rounds)) = [] ∧ starts s1 = [0] ∧ starts (nextOf (exec (.commandStart 1) s1)) = [0] ∧
    starts s2 = [0, 2] ∧ starts (nextOf (exec (.commandStart 1) s2)) = [0, 1, 2] := by decide +kernel
/-- An access that waited for the granule's bit, and the bit as it wants it. -/
def waited (i : Instr) (full : List Nat) : State :=
  let s := flight i 0x1000000000000010 0xABCD
  { s with ch := { (s.ch.modOp 0 fun o => { o with progress := 1 }) with side := { s.ch.side with full := full } } }
theorem meets_CommandEvents_start : (let s := copying
    let o := opOf s
    s.ch.op? o.id = some o ∧ s.ch.strand? o.pos = some (strandOf0 s) ∧ o.bar = none ∧ (engineOf o.instr).isSome = true ∧
    o.status = .issued ∧ s.ch.mayBegin o = true ∧ s.ch.engineLive o = true ∧ s.ch.unitFree o = true ∧
    s.ch.moving (o.locs.flatMap fun l => l.segs) = false ∧ o.resolved = none ∧ (strandOf0 s).resolved o = true ∧
    (strandOf0 s).waitError o = none) ∧
    (let s := accWaits
     let o := opOf s
     s.ch.op? o.id = some o ∧ s.ch.strand? o.pos = some (strandOf0 s) ∧ o.bar = none ∧ (engineOf o.instr).isSome = true ∧
     o.status = .issued ∧ s.ch.mayBegin o = true ∧ s.ch.engineLive o = true ∧ o.resolved = none ∧ (strandOf0 s).resolved o = true ∧
     (strandOf0 s).waitError o = some 0x31 ∧ o.prod ≠ 0) := by
  refine ⟨⟨?_, ?_, ?_, ?_, ?_, ?_, ?_, ?_, ?_, ?_, ?_, ?_⟩, ?_, ?_, ?_, ?_, ?_, ?_, ?_, ?_, ?_, ?_, ?_⟩ <;> decide +kernel
theorem meets_CommandEvents_fault : let s := badWord
    let o := opOf s
    s.ch.op? o.id = some o ∧ s.ch.strand? o.pos = some (strandOf0 s) ∧ o.bar = none ∧ s.ch.progresses o = true ∧
    engineOf o.instr ≠ some .collective ∧ (∃ r, performOp s o = .late (Eff.quiet s.ch) r) ∧ (strandOf0 s).inProgram :=
  ⟨rfl, rfl, rfl, rfl, nofun, ⟨_, of_isLate (r := { cause := 0x38, value := 0x2000 }) (by decide +kernel)⟩, rfl⟩
theorem meets_CommandEvents_release :
    (let s := waited (.bld 3 1 0 2 0) [0x20000000010 / 16]
     let o := opOf s
     s.ch.op? o.id = some o ∧ s.ch.strand? o.pos = some (strandOf0 s) ∧ o.bar = none ∧ s.ch.progresses o = true ∧ o.progress ≠ 0 ∧
     o.run.peer = none ∧ o.run.size = 0 ∧ o.run.cmp = false ∧ o.run.len = 8 ∧ s.ch.side.faulty = [] ∧
     cForm o.instr = some (.load 3 8 false .fullSwap) ∧ qualReady s.ch o true .fullSwap = true ∧ (⟨.s 3, o.id⟩ : Busy) ∈ (strandOf0 s).busy) ∧
    (let s := waited (.bst 2 1 0 2 0) []
     let o := opOf s
     s.ch.op? o.id = some o ∧ s.ch.strand? o.pos = some (strandOf0 s) ∧ o.bar = none ∧ s.ch.progresses o = true ∧ o.progress ≠ 0 ∧
     o.run.peer = none ∧ o.run.size = 0 ∧ o.run.cmp = false ∧ o.run.len = 8 ∧ s.ch.side.faulty = [] ∧
     cForm o.instr = some (.store 8 .fullSwap) ∧ qualReady s.ch o false .fullSwap = true) := by
  refine ⟨⟨rfl, rfl, rfl, rfl, ?_, rfl, rfl, rfl, rfl, rfl, rfl, rfl, ?_⟩, rfl, rfl, rfl, rfl, ?_, rfl, rfl, rfl, rfl, rfl, rfl, rfl⟩ <;> decide

/-- The binding of an input or an output stream of the bench in flight, made by `sbind`, with pushed entries. -/
def binds (dirBit : BitVec 1) (q : List (Nat × BitVec 512)) : State :=
  let s := nextOf (exec (.sbind 2 1 0 dirBit 0 0) (at_ .g gs))
  { s with ch := s.ch.modStrand 0 fun τ => { τ with gr := { τ.gr with q := τ.gr.q.map fun b => b.map fun x =>
      { x with queue := q, claimed := q.length } } } }
/-- The binding of q2. -/
def bindingOf (s : State) : Binding :=
  ((strandOf0 s).binding? 2).getD
    { dir := .input, iter := 0, chain := 0, op := 0, total := 0, pos := 0, bytePos := 0, queue := [], claimed := 0, skips := [], bad := none,
      packed := [], stuck := none, leaving := false }
theorem meets_StreamAndRendezvousEvents_gather : let s := binds 0 []
    let b := bindingOf s
    s.ch.strand? (4 * 0 + 0) = some (strandOf0 s) ∧ (strandOf0 s).binding? (2#3).toNat = some b ∧ s.ch.op? b.op = some (opOf s) ∧
    s.ch.streamBase (strandOf0 s) (iterBase b.iter) = some 0x20000000000 ∧ s.ch.mayBegin (opOf s) = true ∧ s.ch.coreMoves 0 = true ∧
    s.ch.segFrozen (streamSeg 0x20000000000 0 1) = false ∧
    b.skipped b.pos = false ∧ b.dir = .input ∧ b.pos < b.total ∧ b.bad = none ∧ b.expands = false ∧
    b.queue.length < 16 ∧ (∀ p ∈ s.ch.ops, p.pos = 0 → p.wants = none) ∧ s.ch.entryTurn 0x20000000000 0 = true ∧
    (let r := readElements (opOf s) 0x20000000000 b.iter (List.range' 0 16) (Run.start s)
     r.1 = List.replicate 16 0 ∧ r.2.2.isNone = true) ∧
    (let x : Binding := { b with chain := BitVec.ofNat 256 (2 ^ 56 + 256) }
     x.bytePos < iterTotal x.iter ∧ x.stuck = none ∧ x.expands = true ∧ x.packed.length ≤ 960) := by
  refine ⟨?_, ?_, ?_, ?_, ?_, ?_, ?_, ?_, ?_, ?_, ?_, ?_, ?_, ?_, ?_, ⟨?_, ?_⟩, ?_, ?_, ?_, ?_⟩ <;> decide +kernel
theorem meets_StreamAndRendezvousEvents_scatter : let s := binds 1 [(0, 7)]
    let b := bindingOf s
    s.ch.strand? (4 * 0 + 0) = some (strandOf0 s) ∧ (strandOf0 s).binding? (2#3).toNat = some b ∧ s.ch.op? b.op = some (opOf s) ∧
    s.ch.streamBase (strandOf0 s) (iterBase b.iter) = some 0x20000000000 ∧ s.ch.mayBegin (opOf s) = true ∧ s.ch.coreMoves 0 = true ∧
    b.skipped b.pos = false ∧ b.dir = .output ∧ (opOf s).status ≠ .held ∧ b.entry? b.pos = some 7 ∧
    (scatterEntry (opOf s) 0x20000000000 b.iter b.pos 7 b.bytePos (Run.start s)).2.2.isNone = true := by
  refine ⟨?_, ?_, ?_, ?_, ?_, ?_, ?_, ?_, ?_, ?_, ?_⟩ <;> decide +kernel

/-- C and G stand at `nop`s with S set, M and V have ended. -/
def meeting : Strand :=
  let σ := strandOf .c 0xBF000000
  { σ with g := { σ.g with ended := false, image := [0xBF000000] }, vr := { σ.vr with vmodeC := some 3 } }
theorem meets_StreamAndRendezvousEvents_rendezvous : let s := at_ .c meeting
    s.ch.strand? (4 * 0 + 0) = some meeting ∧ meeting.live = [.c, .g] ∧ s.rendezvousReady meeting = true ∧
    (∀ k ∈ meeting.live, s.chosen meeting k = true ∧ s.ch.spentNow 0 k = false) ∧
    ∀ k ∈ meeting.live, (meeting.cl k).wordAt (meeting.cl k).pc = some 0xBF000000 ∧ decodeWord k 0xBF000000 = .ok .nop := by
  refine ⟨rfl, rfl, by decide, by decide, ?_⟩
  have h : meeting.live = [.c, .g] := rfl
  rw [h]
  intro k hk
  simp only [List.mem_cons, List.not_mem_nil, or_false] at hk
  rcases hk with rfl | rfl <;> exact ⟨rfl, rfl⟩
/-- The rendezvous: both words issue and VMODE is written (R115, R180, R264). -/
theorem test_rendezvous : gives (exec (.rendezvous 0 0) (at_ .c meeting)) (fun τ => τ.c.pc == 4 && τ.g.pc == 4 && τ.vr.vmode == 3) = true := by
  decide

/-- Unit 0 has arrived at the barrier of its quad; no other unit takes part. -/
def arrived : State :=
  let s := at_ .c (cs 0 0)
  { s with ch := s.ch.setHbar { s.ch.hbar 5 1 (hbarSite unit0 1) with arrived := [0] } }
theorem meets_LinkEvents_hbar : let s := arrived
    let h := s.ch.hbar 5 1 (hbarSite unit0 1)
    (s.ch.job? 5).isSome = true ∧ h.arrived ≠ [] ∧
    (∀ u ∈ s.ch.participants 5 1 (hbarSite unit0 1), u.ended = true ∨ h.hasArrived u.num = true) ∧
    (s.ch.hbar 5 2 (hbarSite unit0 2)).arrived = [] := by refine ⟨?_, ?_, ?_, ?_⟩ <;> decide
/-- The pod barrier of a part whose units have all arrived, of a pod of two parts. -/
def podArrived (phases : List (BitVec 32 × Nat × Option Nat)) : State :=
  let s := at_ .c (cs 0 0)
  { s with ch := { s.ch.setHbar { s.ch.hbar 5 4 (hbarSite unit0 4) with arrived := [0] } with
      jobs := [{ job0 with pod := 77, podN := 2 }], phases := phases, plat := { s.ch.plat with pkgNum := some 7 } } }
theorem meets_LinkEvents_pod : ((podArrived []).ch.job? 5).map (·.podN) = some 2 ∧ ((podArrived []).ch.hbar 5 4 (hbarSite unit0 4)).arrived ≠ [] ∧
    (∀ u ∈ (podArrived []).ch.participants 5 4 (hbarSite unit0 4), u.ended = true ∨ ((podArrived []).ch.hbar 5 4 (hbarSite unit0 4)).hasArrived u.num = true) ∧
    (podArrived []).ch.partArrived 77 0 0 = false ∧ (podArrived []).ch.plat.pkgNum = some 7 ∧
    (let t := podArrived [(77, 0, some 1)]
     t.ch.partArrived 77 0 0 = true ∧ t.ch.partArrived 77 1 0 = false) ∧
    ∀ n, n < 2 → (podArrived [(77, 0, some 1), (77, 1, none)]).ch.partArrived 77 n 0 = true := by
  refine ⟨?_, ?_, ?_, ?_, ?_, ⟨?_, ?_⟩, ?_⟩ <;> decide +kernel
/-- The near end of a link with a send and a permit on their way to it. -/
def coming : LinkEnd := { linkEnd0 1 false [] [] with arriving := [.send 0 [1, 2, 3] none, .permit none] }
theorem meets_LinkEvents_delivery : let s := linked sender coming
    s.ch.endOf 5 0x10 false = some coming ∧ coming.lerr = false ∧ coming.placed = true ∧ coming.arriving = .send 0 [1, 2, 3] none :: [.permit none] ∧
    (coming.toPeer && false) = false ∧ s.ch.segFrozen (streamSeg (slotAt coming (coming.slotOf 0)) 0 1) = false ∧ s.ch.senderMoves none = true := by
  refine ⟨?_, ?_, ?_, ?_, ?_, ?_, ?_⟩ <;> decide +kernel
theorem meets_LinkEvents_permit : let l : LinkEnd := { coming with arriving := [.permit none] }
    let s := linked sender l
    s.ch.endOf 5 0x10 false = some l ∧ l.lerr = false ∧ l.arriving = .permit none :: [] ∧ s.ch.senderMoves none = true := by
  refine ⟨?_, ?_, ?_, ?_⟩ <;> decide +kernel
/-- A send in flight on the link. -/
def sending : State :=
  let s := nextOf (exec (.xsend 1 2 3 0) (linked sender (linkEnd0 1 false [] [])))
  { s with ch := s.ch.modOp (opOf s).id fun o => { o with status := .sent, prod := 1 } }
theorem meets_LinkEvents_failure : let s := sending
    let o := opOf s
    s.ch.ops = [o] ∧ o.instr = .xsend 1 2 3 0 ∧ o.status = .sent ∧ o.bar = none ∧ o.prod ≠ 0 ∧ s.ch.coreMoves o.pos = true ∧
    s.ch.strand? o.pos = some (strandOf0 s) ∧ (s.ch.linkOfOp o).map (·.link) = some 0x10 ∧
    (∀ o ∈ (linked sender coming).ch.ops, (linked sender coming).ch.linkOfOp o = none) := by
  refine ⟨?_, ?_, ?_, ?_, ?_, ?_, ?_, ?_, ?_⟩ <;> decide +kernel

/-- A strand in a phase of its trap or save. -/
def phased (p : Phase) (f : TrapSt → TrapSt) : Strand := { cs 7 8 with trap := f { TrapSt.fresh with phase := p } }
/-- A state with the strand, and its core changed. -/
def coreOf0 (σ : Strand) (f : Core → Core) : State :=
  let s := at_ .c σ
  { s with ch := s.ch.modCore 0 f }
/-- A cluster that has stalled as long as WDOG lets it. -/
def stalled (σ : Strand) : Strand := { σ with c := { σ.c with stall := 0x0B72 * 1024 } }
theorem meets_TrapEvents_frozen : let σ := phased .frozen id
    let s := at_ .c σ
    s.ch.strand? (4 * 0 + 0) = some σ ∧ (s.ch.strands.filter fun τ => coreOf τ.pos == 0 && τ.trap.phase == .frozen) = [σ] ∧
    (s.ch.core 0).freeze = 0 ∧ σ.s.length = 32 := by
  refine ⟨?_, ?_, ?_, ?_⟩ <;> decide +kernel
theorem meets_TrapEvents_framed : let σ := phased .framed id
    let s := at_ .c σ
    s.ch.strand? (4 * 0 + 0) = some σ ∧ σ.trap.phase = .framed ∧ s.ch.killing σ.who.job = false ∧
    ∀ o ∈ s.ch.ops, o.pos = 0 → s.atRest o = true := by
  refine ⟨?_, ?_, ?_, ?_⟩ <;> decide +kernel
theorem meets_TrapEvents_watchdog : (let σ := stalled (cs 7 8)
    let s := at_ .c σ
    s.ch.strand? (4 * 0 + 0) = some σ ∧ σ.expired .c = true ∧ s.ch.killing σ.who.job = false ∧ σ.inProgram ∧ σ.trap.pend = false) ∧
    (let σ := stalled (phased .run fun t => { t with pend := true })
     (at_ .c σ).ch.strand? (4 * 0 + 0) = some σ ∧ σ.expired .c = true ∧ σ.inProgram ∧ σ.trap.pend = true) ∧
    (let σ := stalled (handling 0 0)
     (at_ .c σ).ch.strand? (4 * 0 + 0) = some σ ∧ σ.expired .c = true ∧ σ.privileged = true ∧ (at_ .c σ).ch.job? σ.who.job = some job0) ∧
    (let σ := stalled (phased .framed id)
     (at_ .c σ).ch.strand? (4 * 0 + 0) = some σ ∧ σ.expired .c = true ∧ σ.trap.phase = .framed) ∧
    (let σ := stalled (phased .saving id)
     (at_ .c σ).ch.strand? (4 * 0 + 0) = some σ ∧ σ.expired .c = true ∧ σ.trap.phase = .saving) ∧
    (let σ := { handling 0 0 with g := { (handling 0 0).g with ended := false, stall := 0xB72 * 1024 } }
     (at_ .c σ).ch.strand? (4 * 0 + 0) = some σ ∧ σ.expired .g = true ∧ σ.privileged = true) := by
  refine ⟨⟨?_, ?_, ?_, rfl, ?_⟩, ⟨?_, ?_, rfl, ?_⟩, ⟨?_, ?_, ?_, ?_⟩, ⟨?_, ?_, ?_⟩, ⟨?_, ?_, ?_⟩, ?_, ?_, ?_⟩ <;> decide +kernel
/-- A freeze whose record is captured, with two faults of the strand's core. -/
def recorded : State := coreOf0 (phased .frozen id) fun k =>
  { k with record := List.replicate 1024 7, faults := [{ slot := 0, cause := 2, kind := 0, cycle := 0 }, { slot := 3, cause := 0x18, kind := 0, cycle := 5 }] }
theorem meets_TrapEvents_record : (recorded.ch.core 0).record.length = 1024 ∧ (recorded.ch.core 0).freeze = 0 ∧
    ((recorded.ch.core 0).faults.map Noted.slot).Nodup ∧ (∀ f ∈ (recorded.ch.core 0).faults, f.slot < 4) ∧
    (recorded.ch.strands.filter fun τ => coreOf τ.pos == 0 && τ.trap.phase == .frozen) = [phased .frozen id] := by
  refine ⟨?_, ?_, ?_, ?_, ?_⟩ <;> decide +kernel
theorem meets_TrapEvents_correction : ((coreOf0 (cs 7 8) fun k => { k with corr := 1 }).ch.core 0).corr = 1 := rfl

/-- The strand stands at a sync-marked word, where it may be saved. -/
def pausing : Strand := let σ := strandOf .c 0xBF000000; { σ with trap := { σ.trap with pend := true } }
def savingAt (start : Option Nat) : Strand := phased .saving fun t => { t with saveStart := start, wdog := 0 }
theorem meets_SaveEvents_save : (at_ .c pausing).ch.unit? 5 0 = some unit0 ∧ (at_ .c pausing).ch.strand? (4 * 0 + 0) = some pausing ∧
    (at_ .c pausing).ch.killing pausing.who.job = false ∧ pausing.inProgram ∧ pausing.trap.pend = true ∧
    (at_ .c pausing).ch.coreHeld 0 = false ∧ (∀ k, pausing.atPoint k = true) ∧ pausing.live ≠ [] ∧
    (let σ := savingAt (some 0)
     let s := at_ .c σ
     s.ch.strand? (4 * 0 + 0) = some σ ∧ σ.trap.phase = .saving ∧ s.ch.coreMoves 0 = true ∧ s.ch.migrates 0 = false ∧
     (∀ o ∈ s.ch.ops, o.pos ≠ 0) ∧ memWf s.mem = true ∧ freeFrame s (dieOf 0) [] = some 0 ∧
     s.ch.unitOf? σ = some unit0 ∧ s.ch.groupOf unit0 = [unit0] ∧ unit0.placed = true ∧ (∀ τ ∈ s.ch.strands, τ.pos = 0) ∧
     σ.saveLate s.ch.cycle = true ∧
     (∀ τ ∈ s.ch.strands, coreOf τ.pos = 0 → τ.saveLate s.ch.cycle = true) ∧ s.ch.job? σ.who.job = some job0) := by
  refine ⟨?_, ?_, ?_, rfl, ?_, ?_, fun k => by cases k <;> decide +kernel, ?_, ?_, ?_, ?_, ?_, ?_, ?_, ?_, ?_, ?_, ?_, ?_, ?_, ?_, ?_⟩ <;> decide +kernel
/-- The last strand of the unit has left: the windows have frames to go to. -/
theorem meets_SaveEvents_windows : let σ := savingAt (some 0)
    let s := at_ .c σ
    (((s.saveStrand 0 0 0 σ).leaveQuad unit0).isSome = true) ∧ unit0.core = 0 ∧ unit0.live ≠ [] ∧ s.ch.saved = [] ∧
    (∀ τ ∈ s.ch.strands, τ.pos ≠ 0 → τ.who.job = unit0.job → τ.who.unit ≠ unit0.num) := by
  refine ⟨?_, ?_, ?_, ?_, ?_⟩ <;> decide +kernel
/-- A late save beside a strand of the core that runs. -/
def lateCore : State :=
  let s := at_ .c (savingAt (some 0))
  { s with ch := { s.ch with strands := s.ch.strands ++ [{ cs 7 8 with pos := 1 }] } }
/-- Beside it the save of the first strand leaves the unit on the core. -/
theorem meets_SaveEvents_beside : let τ : Strand := { cs 7 8 with pos := 1 }
    τ ∈ lateCore.ch.strands ∧ τ.pos ≠ 0 ∧ τ.who = (savingAt (some 0)).who ∧ lateCore.ch.unitOf? τ = some unit0 ∧ unit0.ended = false := by
  refine ⟨?_, ?_, ?_, ?_, ?_⟩ <;> decide +kernel
theorem meets_SaveEvents_timeout : (savingAt (some 0)).saveLate lateCore.ch.cycle = true ∧ lateCore.ch.migrates (quadOf 0) = false ∧
    lateCore.ch.strand? 1 = some { cs 7 8 with pos := 1 } ∧ ({ cs 7 8 with pos := 1 } : Strand).saveLate lateCore.ch.cycle = false ∧
    ({ cs 7 8 with pos := 1 } : Strand).inProgram := by refine ⟨?_, ?_, ?_, ?_, rfl⟩ <;> decide +kernel
/-- A saved unit of one strand. -/
def savedUnit : UnitRec := { unit0 with placed := false, saved := true }
def savedCtx : Saved := { strand := savingAt (some 0), ops := [], area := 0x200000, bucket := none, windows := [], full := [], bars := [], bad := [] }
def restorable : State :=
  let s := at_ .c (cs 0 0)
  { s with ch := { s.ch with strands := [], units := [savedUnit], saved := [savedCtx], jobs := [{ job0 with cols := [] }], plat := { s.ch.plat with run := true } } }
theorem meets_SaveEvents_restore : let s := restorable
    let j : Job := { job0 with cols := [] }
    let u : State := { s with ch := s.ch.askRestore [savedUnit] }
    let big : Job := { job0 with cols := [], benchw := 2 ^ 21 }
    big.fitsEmpty (bits savedUnit.quadpos.toNat 20 3) = false ∧ u.ch.holdsRestore j savedUnit (bits savedUnit.quadpos.toNat 20 3) = false ∧
    u.ch.holdsRestore j { savedUnit with num := 1 } (bits savedUnit.quadpos.toNat 20 3) = true ∧
    (u.ch.placeSaved j (bits savedUnit.quadpos.toNat 20 3) [savedUnit]).map (·.map (·.2)) = some [0] ∧
    s.ch.unit? 5 0 = some savedUnit ∧ s.ch.job? 5 = some j ∧ s.ch.plat.run = true ∧ s.ch.killing 5 = false ∧ s.ch.groupOf savedUnit = [savedUnit] ∧
    s.ch.allSaved savedUnit = true ∧ s.ch.savedOf savedUnit = [savedCtx] ∧ savedCtx.ops = [] ∧ savedCtx.bucket = none ∧
    savedUnit.live = [savedCtx.strand.who.strand] ∧ j.fitsEmpty (bits savedUnit.quadpos.toNat 20 3) = true ∧ s.ch.entryDue (quadOf 0) 1 = false ∧
    (s.ch.placeSaved j (bits savedUnit.quadpos.toNat 20 3) [savedUnit]).map (·.map (·.2)) = some [0] ∧
    ((s.ch.room { j with nstr := 1 } 0).map fun r => (r.bench, r.acc)) = some (0, 0) ∧ s.ch.freeSlots 0 = [0, 1, 2, 3] := by
  refine ⟨?_, ?_, ?_, ?_, ?_, ?_, ?_, ?_, ?_, ?_, ?_, ?_, ?_, ?_, ?_, ?_, ?_, ?_, ?_⟩ <;> decide +kernel

/-- The job being killed at a step. -/
def killed (n : Nat) (ops : List Op) : State :=
  let s := at_ .c (cs 7 8)
  { s with ch := { s.ch with jobs := [{ job0 with killStep := n }], ops := ops } }
theorem meets_KillEvents : (killed 0 []).ch.job? 5 = some { job0 with killStep := 0 } ∧ (killed 0 []).ch.hears 2 ∧
    (killed 0 []).ch.killWaits 5 = false ∧ (killed 2 []).ch.job? 5 = some { job0 with killStep := 2 } ∧
    (∀ o ∈ (killed 2 []).ch.ops, o.job = 5 → (killed 2 []).inFlight o = false) ∧
    (killed 3 []).ch.job? 5 = some { job0 with killStep := 3 } ∧
    (∀ e ∈ (killed 2 []).ch.xl.egress, e.job ≠ 5) ∧
    (∀ x ∈ (killed 3 []).ch.plat.ctxs, x.closing = true → x.closed = false → x.job ≠ some 5) ∧ (killed 3 []).endHeld job0 = false ∧
    (killed 3 []).ch.plat.pending = 0 := by
  refine ⟨?_, ⟨rfl, rfl, rfl⟩, ?_, ?_, ?_, ?_, ?_, ?_, ?_, ?_⟩ <;> decide +kernel
/-- While the job's quad moves its kill waits; a port that does not own the package is not heard. -/
def movingQuad : State :=
  let s := killed 0 []
  { s with ch := { s.ch with moves := [{ die := 0, src := 0, dst := 1, phase := 1 }],
                             plat := { s.ch.plat with ownValid := true, owner := 1 } } }
theorem meets_KillEvents_waits : movingQuad.ch.killWaits 5 = true ∧ movingQuad.ch.hears 1 ∧ movingQuad.ch.served = true ∧
    movingQuad.ch.hostPort 2 = true ∧ movingQuad.ch.mayWrite 2 = false := ⟨rfl, ⟨rfl, rfl, rfl⟩, rfl, rfl, rfl⟩

/-! Tables of the job on die 1: an address-space record, three tables, and a leaf of 2 MiB for address 0. -/
def die1 : Nat := 2 ^ 38
def leafRw (peer : Nat) (hold : Bool) : Nat := mkLeaf peer (if peer = 0xFFF then 0 else 3) (if peer = 0xFFF then 2 ^ 39 else 0) false 7 hold
def tables (leaf : Nat) : List Host.Cell :=
  memWriteAll [] [(die1 + 0x1000, leBytes 8 (die1 + 0x10000)), (die1 + 0x10000, leBytes 8 (1 + die1 + 0x20000)),
    (die1 + 0x20000, leBytes 8 (1 + die1 + 0x30000)), (die1 + 0x30000, leBytes 8 leaf)]
/-- A job of a pod with these tables, in package 7, with routes to package 9. -/
def podJob : Job := { job0 with asr := die1 + 0x1000, root := die1 + 0x10000, pod := 77 }
def mapped (leaf : Nat) (xl : Xlate → Xlate) : State :=
  let s := at_ .c (cs 0 0)
  { mem := tables leaf,
    ch := { s.ch with jobs := [podJob], xl := xl s.ch.xl, cycle := 10000,
                      plat := { s.ch.plat with run := true, pkgNum := some 7, routes := [(9, 0)] } } }
def walk0 : Walk := { id := 3, pos := 0, cl := .c, job := 5, va := 0, since := 10 }
def inval0 : Inval :=
  { id := 4, queue := none, ticket := 0, root := none, jobs := [5], va := 0, pages := 32, drop := true, ops := [], sigctr := 0, irq := false,
    frames := [1, 2] }
def moving0 (home : Bool) (phase : Nat) : Motion :=
  { asr := die1 + 0x1000, job := 5, pod := 77, va := 0, size := 0x200000, leafAt := die1 + 0x30000, dst := 0x200000, phase := phase, asHome := home,
    pkg := 9 }
theorem meets_PageEvents_walk : let s := mapped (leafRw 0xFFF false) fun x => { x with walks := [walk0] }
    let t := mapped (leafRw 0xFFF true) fun x => { x with walks := [walk0] }
    s.ch.xl.walks.find? (fun x => x.id == 3) = some walk0 ∧ s.ch.walkDue walk0 = true ∧ isHeld (s.rewalk walk0) = false ∧
    t.ch.walkDue walk0 = true ∧ isHeld (t.rewalk walk0) = true := by
  refine ⟨?_, ?_, ?_, ?_, ?_⟩ <;> decide +kernel
theorem meets_PageEvents_inval : let s := mapped (leafRw 0xFFF false) fun x => { x with invals := [inval0] }
    s.ch.xl.invals.find? (fun x => x.id == 4) = some inval0 ∧ (∀ k ∈ inval0.ops, s.ch.op? k.1 = none) ∧
    (∀ e ∈ s.ch.xl.egress, ∀ k ∈ inval0.ops, e.op ≠ k.1) ∧ inval0.queue = none ∧ inval0.drop = true := by refine ⟨?_, ?_, ?_, ?_, ?_⟩ <;> decide +kernel
theorem meets_PageEvents_move : let s := mapped (leafRw 0xFFF false) id
    asrRoot s.mem (die1 + 0x1000) = some (die1 + 0x10000) ∧ leafPlace s.mem (die1 + 0x10000) 0 = some (die1 + 0x30000, 0x200000) ∧
    leafValid (leafOf s.mem (die1 + 0x30000)) 0x200000 = true ∧ leafPeer (leafOf s.mem (die1 + 0x30000)) = 0xFFF ∧
    leafHold (leafOf s.mem (die1 + 0x30000)) = false ∧ s.ch.xl.motions = [] ∧ freeFrame s 0 [] = some 0 ∧ s.ch.plat.curators = true := by
  refine ⟨?_, ?_, ?_, ?_, ?_, ?_, ?_, ?_⟩ <;> decide +kernel
theorem meets_PageEvents_finish : let s := mapped (leafRw 0xFFF true) fun x => { x with motions := [moving0 false 4] }
    let m := moving0 false 4
    s.ch.plat.curators = true ∧ s.ch.xl.motions.find? (fun m => m.phase == 4 && m.asr == die1 + 0x1000 && decide (m.va ≤ 0x1FFFFF ∧ 0x1FFFFF < m.va + m.size)) = some m ∧
    s.ch.invalDone m.leafAt = true ∧ leafCmp (leafOf s.mem m.leafAt) = false ∧ m.dst + m.size ≤ m.leafAt ∧
    m.dst + m.size ≤ leafFrame (leafOf s.mem m.leafAt) := by
  refine ⟨?_, ?_, ?_, ?_, ?_, ?_⟩ <;> decide +kernel

/-! Requests of package 9 for the pod job's memory: performed, refused, moved, held. -/
def ask (k : PeerKind) : PeerReq := { pkg := 9, pod := 77, va := 8, scope := 4, kind := k }
def ansOf (a : HomeAns) : Nat :=
  match a with
  | .ok .. => 0
  | .err .. => 1
  | .moved _ => 2
  | .hold => 3
theorem meets_FabricEvents_home : let s := mapped (leafRw 0xFFF false) id
    s.ch.plat.pkgNum.isSome = true ∧ s.ch.headCtx (ask (.load 8)) = none ∧ ansOf (homeServe s (ask (.load 8))) = 0 ∧
    ansOf (homeServe s (ask (.store [1, 2]))) = 0 ∧ ansOf (homeServe s { ask (.load 8) with va := 0x200000 }) = 1 ∧
    ansOf (homeServe (mapped (leafRw 9 false) id) (ask (.load 8))) = 2 ∧
    ansOf (homeServe (mapped (leafRw 0xFFF true) id) (ask (.load 8))) = 3 := by
  refine ⟨?_, ?_, ?_, ?_, ?_, ?_, ?_⟩ <;> decide +kernel
/-- A load of peer memory at package 9 whose request has left. -/
def asking : State :=
  let s := loading
  let o := { opOf s with status := OpStatus.sent }
  let e : Egress := { op := o.id, job := 5, quad := 0, pkg := 9, req := { pkg := 7, pod := 77, va := 8, scope := 4, kind := .load 8 }, part := 0, answered := false }
  { mem := tables (leafRw 9 false),
    ch := { s.ch with ops := [o], jobs := [podJob], xl := { s.ch.xl with egress := [e] },
                      plat := { s.ch.plat with pkgNum := some 7, routes := [(8, 0), (9, 0)] } } }
theorem meets_FabricEvents_response : let s := asking
    let o := opOf s
    (s.ch.xl.egress.find? (fun x => x.op == o.id)).isSome = true ∧ s.ch.op? o.id = some o ∧ s.ch.answerHeld o.id = false ∧
    s.ch.strand? o.pos = some (strandOf0 s) ∧ cForm o.instr = some (.load 3 8 false .plain) ∧ o.bar = none ∧ o.run.cacheable = false ∧
    (⟨.s 3, o.id⟩ : Busy) ∈ (strandOf0 s).busy := by
  refine ⟨?_, ?_, ?_, ?_, ?_, ?_, ?_, ?_⟩ <;> decide +kernel
theorem meets_FabricEvents_moved : let s := asking
    let o := opOf s
    let s1 := s.pointLeaf podJob.root 8 8
    (s.ch.xl.egress.find? (fun x => x.op == o.id)).isSome = true ∧ s.ch.op? o.id = some o ∧ s.ch.answerHeld o.id = false ∧
    s.ch.job? o.job = some podJob ∧ s.ch.plat.pkgNum ≠ some 8 ∧ ansOf (homeAt s1 podJob.root { pkg := 7, pod := 77, va := 8, scope := 4, kind := .load 8 }) = 2 ∧
    s1.ch.reachable 8 = true ∧ s1.ch.ctxRoom 8 77 = true := by
  refine ⟨?_, ?_, ?_, ?_, ?_, ?_, ?_, ?_⟩ <;> decide +kernel
theorem meets_FabricEvents_ask : let s := mapped (leafRw 0xFFF false) id
    let t := mapped (leafRw 0xFFF true) id
    s.podLeaf 77 0 = some (podJob, die1 + 0x30000, 0x200000) ∧ leafValid (leafOf s.mem (die1 + 0x30000)) 0x200000 = true ∧
    leafPeer (leafOf s.mem (die1 + 0x30000)) = 0xFFF ∧ leafHold (leafOf s.mem (die1 + 0x30000)) = false ∧ s.ch.xl.motions = [] ∧
    t.podLeaf 77 0 = some (podJob, die1 + 0x30000, 0x200000) ∧ leafHold (leafOf t.mem (die1 + 0x30000)) = true := by
  refine ⟨?_, ?_, ?_, ?_, ?_, ?_, ?_⟩ <;> decide +kernel
theorem meets_FabricEvents_newHome : let s := mapped (leafRw 9 false) id
    s.podLeaf 77 0 = some (podJob, die1 + 0x30000, 0x200000) ∧ leafValid (leafOf s.mem (die1 + 0x30000)) 0x200000 = true ∧
    leafPeer (leafOf s.mem (die1 + 0x30000)) ≠ 0xFFF ∧ leafCmp (BitVec.ofNat 64 (leafRw 0xFFF false)) = false ∧
    (classDies podJob.klass).findSome? (fun d => freeFrame s d []) = some 0 ∧ 0 + 0x200000 ≤ die1 + 0x30000 ∧ s.ch.xl.motions = [] ∧
    (let m := moving0 false 1
     let t := mapped (leafRw 9 false) fun x => { x with motions := [m] }
     t.ch.xl.motions.find? (fun m => !m.asHome && m.pod == 77 && decide (0 ≤ m.va ∧ m.va < 0 + 0x200000)) = some m ∧ m.phase = 1 ∧
     m.size = 0x200000 ∧ m.dst = 0x200000) := by
  refine ⟨?_, ?_, ?_, ?_, ?_, ?_, ?_, ?_, ?_, ?_, ?_⟩ <;> decide +kernel
theorem meets_FabricEvents_curators (leaf : Nat) (xl : Xlate → Xlate) : (mapped leaf xl).ch.plat.curators = true := rfl
theorem meets_FabricEvents_release : let s := mapped (leafRw 0xFFF true) fun x => { x with motions := [moving0 true 3] }
    let t := mapped (leafRw 9 false) fun x => { x with motions := [moving0 false 1] }
    s.ch.xl.motions.find? (fun m => m.asHome && m.phase == 3 && m.pod == 77 && decide (m.va ≤ 8 ∧ 8 < m.va + m.size)) = some (moving0 true 3) ∧
    t.ch.xl.motions.find? (fun m => !m.asHome && m.pod == 77 && m.va / 65536 == 8 / 65536) = some (moving0 false 1) := by
  refine ⟨?_, ?_⟩ <;> decide +kernel

/-! A delivery context of each side. -/
def ctx0 (sender : Bool) (w : List (BitVec 16 × PeerReq × Nat × Nat)) (closing : Bool) : Ctx :=
  { id := 6, pkg := 9, pod := 77, job := if sender then some 5 else none, sender := sender, epoch := 1, next := 5, window := w, ackAt := 0,
    closing := closing, closeAt := 0, closed := false }
def fabric (x : Option Ctx) (cycle : Nat) : State :=
  let s := mapped (leafRw 0xFFF false) id
  { s with ch := { s.ch with cycle := cycle, plat := { s.ch.plat with ctxs := x.toList } } }
theorem meets_DeliveryEvents_open : let s := fabric none 10
    s.ch.plat.pkgNum.isSome = true ∧ s.ch.plat.ctxs = [] ∧ (s.ch.lastEpoch 9).1 < (1#32).toNat ∧ 1 < (2#16).toNat ∧ 1 < (32768#16).toNat ∧
    (32768#16).toNat ≤ 32768 := by refine ⟨?_, ?_, ?_, ?_, ?_, ?_⟩ <;> decide +kernel
theorem meets_DeliveryEvents_home : let x := ctx0 false [] false
    let s := fabric (some x) 12000
    s.ch.ctxById 6 = some x ∧ (∀ z ∈ s.ch.plat.ctxs, z.id = 6 → z = x) ∧
    s.ch.plat.ctxs.find? (fun x => !x.sender && !x.closed && x.pkg == (ask (.load 8)).pkg && x.pod == (ask (.load 8)).pod && x.epoch == 1) = some x ∧
    x.performed 4 = true ∧ x.performed 6 = false ∧ x.window = [] ∧ x.next ≠ 1 ∧ x.ackAt + 12000 ≤ s.ch.cycle ∧
    ansOf (homeServe (s.setPlat fun p => { p with ctxs := [{ x with window := [(5, ask (.load 8), 12000, 0)] }] }) (ask (.load 8))) = 0 := by
  refine ⟨?_, ?_, ?_, ?_, ?_, ?_, ?_, ?_, ?_⟩ <;> decide +kernel
theorem meets_DeliveryEvents_sender : let w : BitVec 16 × PeerReq × Nat × Nat := (4, ask (.load 8), 0, 7)
    let x := ctx0 true [w] false
    let s := fabric (some x) 6000
    s.ch.ctxById 6 = some x ∧ (∀ z ∈ s.ch.plat.ctxs, z.id = 6 → z = x) ∧ x.sender = true ∧ x.closed = false ∧ x.closing = false ∧
    x.window = [w] ∧ w.2.2.1 + 6000 ≤ s.ch.cycle ∧ w.2.2.2 < 8 ∧ 8 ≤ ((4, ask (.load 8), 0, 8) : BitVec 16 × PeerReq × Nat × Nat).2.2.2 ∧
    (let y := ctx0 true [w] true
     (fabric (some y) 150000).ch.ctxById 6 = some y ∧ y.closing = true ∧ y.closeAt + 150000 ≤ (fabric (some y) 150000).ch.cycle ∧
      ∀ e ∈ (fabric (some y) 150000).ch.xl.egress, y.awaits e = false) := by
  refine ⟨?_, ?_, ?_, ?_, ?_, ?_, ?_, ?_, ?_, ?_, ?_, ?_, ?_⟩ <;> decide +kernel

/-! A queue whose ring, records, packets and graph lie in the page the tables map. -/
def pageAt : Nat := 2 ^ 39
def desc0 : List Byte := leBytes 8 0x1000 ++ leBytes 8 (die1 + 0x1000) ++ leBytes 4 64 ++ [1, 0, 0, 0] ++ leBytes 8 0x2000 ++ List.replicate 32 0
def packet0 : List Byte :=
  leBytes 8 0x4000 ++ leBytes 8 7 ++ leBytes 4 0 ++ [0, 0] ++ leBytes 2 64 ++ leBytes 2 8 ++ leBytes 2 1 ++ leBytes 2 1 ++ leBytes 2 1 ++
  leBytes 4 64 ++ leBytes 4 0 ++ leBytes 16 0 ++ leBytes 4 0 ++ leBytes 2 1 ++ leBytes 2 0 ++ (List.replicate 9 (leBytes 4 0xFF)).flatten ++
  List.replicate 156 0
/-- A graph of one node, whose packet is at 0x5000, and its node at 0x7000. -/
def graph0 : List Byte := leBytes 4 1 ++ leBytes 4 0 ++ leBytes 8 0x7000 ++ List.replicate 48 0
def node0 : List Byte := leBytes 8 0x5000 ++ leBytes 2 0xFFFF ++ leBytes 2 0xFFFF ++ leBytes 4 0
def entryOf (kind : Nat) (body : List Byte) : List Byte := leBytes 8 kind ++ body ++ List.replicate (56 - body.length) 0
def queued (e : List Byte) : State :=
  let s := mapped (leafRw 0xFFF false) id
  let q : Queue := { Queue.fresh 3 with desc := desc0, tail := 1 }
  { mem := memWriteAll s.mem [(pageAt + 0x1000, e), (pageAt + 0x5000, packet0), (pageAt + 0x6000, graph0), (pageAt + 0x7000, node0)],
    ch := { s.ch with queues := [q], jobs := [], units := [], strands := [] } }
def peekOf (x : Peek) : Option (Option Nat × Bool × List Byte) :=
  match x with
  | .entry r ok e => some (r, ok, e)
  | _ => none
theorem of_peekOf {x : Peek} {r : Option Nat} {ok : Bool} {e : List Byte} (h : peekOf x = some (r, ok, e)) : x = .entry r ok e := by
  cases x <;> simp_all [peekOf]
def root0 : Nat := die1 + 0x10000
def signalE : List Byte := entryOf 6 []
def badE : List Byte := entryOf 0 []
def invalE : List Byte := entryOf 2 (leBytes 8 0x10000 ++ leBytes 4 3 ++ leBytes 4 0 ++ leBytes 8 5 ++ [1])
def allocE : List Byte := entryOf 4 (leBytes 8 0x200000 ++ leBytes 8 0x200000 ++ [14, 7])
def freeE : List Byte := entryOf 5 (leBytes 8 0 ++ leBytes 8 0x200000)
def launchE (pkt : Nat) : List Byte := entryOf 1 (leBytes 8 pkt)
def replayE : List Byte := entryOf 3 (leBytes 8 0x6000 ++ leBytes 8 0x8000)
theorem takes0 (e : List Byte) (k : Nat) (h1 : peekOf ((queued e).peek ((queued e).ch.queue 3)) = some (some root0, true, e))
    (h2 : entryKind e = k ∧ (queued e).mayTake ((queued e).ch.queue 3) = true ∧ (queued e).picks ((queued e).ch.queue 3) = true ∧
      (queued e).recordHeld 3 ((queued e).ch.queue 3).takenN (some root0) = false ∧ bodyOk ((queued e).ch.queue 3) e = true) :
    (queued e).Takes 3 k root0 e :=
  { peek := of_peekOf h1, kind := h2.1, may := h2.2.1, picks := h2.2.2.1, free := h2.2.2.2.1, body := h2.2.2.2.2 }
theorem meets_QueueEvents_takes : (queued signalE).Takes 3 6 root0 signalE ∧ (queued badE).Takes 3 0 root0 badE ∧
    ((queued invalE).Takes 3 2 root0 invalE ∧ field invalE 8 8 % 65536 = 0 ∧ field invalE 8 8 < 2 ^ 56) :=
  ⟨takes0 _ _ (by decide +kernel) (by decide +kernel), takes0 _ _ (by decide +kernel) (by decide +kernel),
    takes0 _ _ (by decide +kernel) (by decide +kernel), by decide, by decide⟩
theorem meets_QueueEvents_alloc : let u := (queued allocE).entered 3 root0 0
    (queued allocE).Takes 3 4 root0 allocE ∧ field allocE 8 8 % 0x200000 = 0 ∧ field allocE 16 8 = 0x200000 ∧
    field allocE 8 8 + 0x200000 ≤ 2 ^ 56 ∧ levelTwoAt u.mem root0 (field allocE 8 8) = some (die1 + 0x30008) ∧ field allocE 24 1 < 32 ∧
    field allocE 25 1 < 8 ∧ (memRead u.mem (die1 + 0x30008)).getLsbD 0 = false ∧
    chooseFrames u (hintDies (field allocE 24 1 % 4) (field allocE 24 1 / 4)) 1 0 [] false = some ([3 * 2 ^ 38], false) := by
  refine ⟨takes0 _ _ ?_ ?_, ?_, ?_, ?_, ?_, ?_, ?_, ?_, ?_⟩ <;> decide +kernel
theorem meets_QueueEvents_free : let u := (queued freeE).entered 3 root0 0
    let l := BitVec.ofNat 64 (memNat u.mem (die1 + 0x30000) 8)
    (queued freeE).Takes 3 5 root0 freeE ∧ field freeE 16 8 = 0x200000 ∧ levelTwoAt u.mem root0 (field freeE 8 8) = some (die1 + 0x30000) ∧
    freeable l = true ∧ leafHold l = false := by
  refine ⟨takes0 _ _ ?_ ?_, ?_, ?_, ?_, ?_⟩ <;> decide +kernel
theorem meets_QueueEvents_host : let s := queued signalE
    let x := s.ch.queue 3
    (3 : Nat) < 32768 ∧ s.ch.hears 5 ∧ x.devsub = false ∧ x.tail ≤ (64#64).toNat ∧ (64#64).toNat ≤ x.takenN + x.size ∧
    (0#64).toNat < x.tail ∧ x.takenN + x.size < (65#64).toNat ∧ x.enabled = true ∧ (60 + [0, 0, 0, 0].length ≤ 64) ∧
    (s.ch.queue 4).enabled = false ∧ descOk desc0 = true ∧ (field desc0 20 1).testBit 0 = true ∧ descOk (desc0.set 0 1) = false := by
  refine ⟨?_, ⟨rfl, rfl, rfl⟩, ?_, ?_, ?_, ?_, ?_, ?_, ?_, ?_, ?_, ?_, ?_⟩ <;> decide +kernel
theorem meets_QueueEvents_complete : let s := queued signalE
    let d : Done := { q := 3, ticket := 0, root := some root0, job := 5, status := 4, errTok := 70000, errBar := 1, sigctr := 9, irq := true }
    (match s.devWrite root0 ((s.ch.queue 3).cpl + 16 * (d.ticket % (s.ch.queue 3).size)) (leBytes 8 d.job ++ leBytes 1 d.status ++ [1] ++
        leBytes 2 (min d.errTok 0xFFFF) ++ leBytes 2 (min d.errBar 0xFFFF) ++ [0, 0]) with
      | .ok _ => true
      | _ => false) = true := by decide +kernel

/-- What reading a packet comes to, as data. -/
def parsedOf (p : Parsed) : Option Job ⊕ Nat :=
  match p with
  | .ok j => .inl (some j)
  | .hold => .inl none
  | .refuse n => .inr n
theorem meets_JobEvents_launch : let u := (queued (launchE 0x5000)).entered 3 root0 1
    (queued (launchE 0x5000)).Takes 3 1 root0 (launchE 0x5000) ∧
    (match parsedOf (u.parsePacket (u.ch.queue 3) root0 0x5000 (3 * 2 ^ 32) (launchE 0x5000) 0) with
      | .inl (some j) => j.id == 0x300000000
      | _ => false) = true ∧
    (queued (launchE 0x5001)).Takes 3 1 root0 (launchE 0x5001) ∧
    parsedOf (((queued (launchE 0x5001)).entered 3 root0 1).parsePacket ((queued (launchE 0x5001)).ch.queue 3) root0 0x5001 (3 * 2 ^ 32)
      (launchE 0x5001) 0) = .inr 0x02 := by
  refine ⟨takes0 _ _ ?_ ?_, ?_, takes0 _ _ ?_ ?_, ?_⟩ <;> decide +kernel
/-- The state in which the graph and its node have been read. -/
def packetsRead (v : State) : State := (v.seen .load root0 (field replayE 8 8) 64).seen .load root0 (field graph0 8 8) 16
/-- The state in which the node's packet has been copied to the frame. -/
def copied : State :=
  let v := (queued replayE).entered 3 root0 1
  match copyPackets root0 0x8000 [(0x5000, 0xFFFF, 0xFFFF)] 0 (packetsRead v) with
  | .ok u => u
  | _ => v
theorem meets_JobEvents_replay : let s := queued replayE
    let v := s.entered 3 root0 1
    s.Takes 3 3 root0 replayE ∧ s.graphNodes root0 replayE = 1 ∧ v.graphNodes root0 replayE = 1 ∧ field replayE 8 8 % 64 = 0 ∧
    field replayE 16 8 % 256 = 0 ∧ okOf (v.devRead root0 (field replayE 8 8) 64) = some graph0 ∧ field graph0 4 4 = 0 ∧ field graph0 16 48 = 0 ∧
    okOf ((v.seen .load root0 (field replayE 8 8) 64).devRead root0 (field graph0 8 8) 16) = some node0 ∧ parseNodes 1 node0 = some [(0x5000, 0xFFFF, 0xFFFF)] ∧
    okOf (copyPackets root0 0x8000 [(0x5000, 0xFFFF, 0xFFFF)] 0 (packetsRead v)) = some copied ∧
    (match parsedOf (copied.parsePacket (s.ch.queue 3) root0 0x8000 (jobIdFrom (3 * 2 ^ 32) 0) replayE 0) with
      | .inl (some _) => true
      | _ => false) = true := by
  refine ⟨takes0 _ _ ?_ ?_, ?_, ?_, ?_, ?_, ?_, ?_, ?_, ?_, ?_, ?_, ?_⟩ <;> decide +kernel
def replay0 : Replay :=
  { id := 8, queue := 3, ticket := 0, sigctr := 0, irq := false, asr := die1 + 0x1000, root := root0, level := 0, va := 0x8000, nodes := [(0, 0)],
    preds := [(0xFFFF, 0xFFFF)], jobs := [0x300000000], dies := [0], errTok := 0, errBar := 0 }
def replaying : State := { copied with ch := { copied.ch with replays := [replay0] } }
theorem meets_JobEvents_node : replaying.ch.replays.find? (fun r => r.id == 8) = some replay0 ∧ replay0.nodes.lookup 0 = some 0 ∧
    (∀ i ∈ replay0.predsOf 0, 0x100 ≤ replay0.status i) ∧
    (match parsedOf (replaying.parsePacket (replaying.ch.queue 3) root0 (0x8000 + 256 * 0) (nth 0 replay0.jobs 0).toNat [] 0) with
      | .inl (some j) => (List.range 8).all fun d => (j.share d).2 == 0 || (replaying.ch.freeIndex d).isSome
      | _ => false) = true := by
  refine ⟨?_, ?_, ?_, ?_⟩ <;> decide +kernel
/-- The job has been taken and its unit is to be placed. -/
def placing : State :=
  let s := queued signalE
  { s with ch := { s.ch with jobs := [{ podJob with prog := 0x4000, streams := List.replicate 16 (0, 0), cols := [] }] } }
theorem meets_JobEvents_placement : let s := placing
    let j : Job := { podJob with prog := 0x4000, streams := List.replicate 16 (0, 0), cols := [] }
    s.ch.plat.run = true ∧ s.ch.served = true ∧ s.ch.reserveEnds 0 = s.ch ∧ s.ch.nextJob 0 = some j ∧ s.ch.nextGroup j 0 = some 0 ∧ s.ch.reserveSlots j 0 = some s.ch ∧
    j.gsize = 1 ∧ s.ch.restoresFirst j 0 0 = false ∧ bestQuad s.ch 0 1 (fun k => (s.ch.room j k).isSome) = some [0] ∧ (s.ch.room j 0).isSome = true ∧
    (okOf (s.readImages j)).isSome = true := by
  refine ⟨?_, ?_, ?_, ?_, ?_, ?_, ?_, ?_, ?_, ?_, ?_⟩ <;> decide +kernel
theorem meets_JobEvents_job : (let s : State := { at_ .c (cs 0 0) with ch := { (at_ .c (cs 0 0)).ch with jobs := [{ job0 with started := false }] } }
    s.ch.job? 5 = some { job0 with started := false } ∧ (s.ch.units.filter fun u => u.job == 5).length = 1 ∧ job0.corFlag = true ∧
    ¬ 1 < job0.podN ∧ ∀ n, n < job0.podN → n = job0.podIdx) ∧
    (let j : Job := { podJob with started := false, podN := 2 }
     let s : State := { mapped 0 id with ch := { (mapped 0 id).ch with jobs := [j] } }
     let t : State := { s with ch := { s.ch with jobs := [{ j with signalled := true }], signals := [(77, 1, 9)] } }
     s.ch.job? 5 = some j ∧ (s.ch.units.filter fun u => u.job == 5).length = 1 ∧ 1 < j.podN ∧ j.signalled = false ∧ s.ch.plat.pkgNum = some 7 ∧
     (t.ch.job? 5).map Job.signalled = some true ∧ t.ch.partsPlaced j = [(1, 9)]) ∧
    (let s : State := { at_ .c (cs 0 0) with ch := { (at_ .c (cs 0 0)).ch with units := [{ unit0 with ended := true }] } }
     s.ch.job? 5 = some job0 ∧ job0.killStep = 0 ∧ (s.ch.units.filter fun u => u.job == 5).length = job0.nunits ∧
     (∀ u ∈ s.ch.units, u.job = 5 → u.ended = true) ∧ s.endHeld job0 = false ∧ s.ch.replays = [] ∧
     (let r : Replay := { replay0 with nodes := [(0, 1), (1, 1)], jobs := [5, 6] }
      r.jobs.findIdx? (fun x => x == 5) = some 0 ∧ (r.nodes.lookup 0).isSome = true ∧ (1 : Nat) ≠ 0 ∧ r.nodes.lookup 1 = some 1)) := by
  refine ⟨⟨?_, ?_, ?_, ?_, ?_⟩, ⟨?_, ?_, ?_, ?_, ?_, ?_, ?_⟩, ?_, ?_, ?_, ?_, ?_, ?_, ?_, ?_, ?_, ?_⟩ <;> decide +kernel
/-- The bind record of slot 0, for an entry of the job table. -/
def bind0 (jslot : Nat) (s : State) : State := { s with ch := s.ch.putBind { bindFor job0 unit0 0 0 8 true with jslot := jslot } }
theorem meets_JobEvents_strand : (let σ := phased .bound id
    let s := bind0 0 (at_ .c σ)
    s.ch.strand? (4 * 0 + 0) = some σ ∧ s.ch.unitOf? σ = some unit0 ∧ σ.trap.phase = .bound ∧ unit0.released = true ∧
    (s.ch.bindAt 0).valid = true ∧ s.ch.coreHeld 0 = false ∧ s.ch.jobRuns σ.who.job = true ∧
    (s.ch.jobEntry? (dieOf 0) (s.ch.bindAt 0).jslot).isSome = true ∧ s.ch.entryWaits 0 = false ∧
    ((bind0 9 (at_ .c σ)).ch.jobEntry? (dieOf 0) ((bind0 9 (at_ .c σ)).ch.bindAt 0).jslot).isNone = true) ∧
    (let σ : Strand := { cs 0 0 with c := { (cs 0 0).c with ended := true } }
     let s := at_ .c σ
     s.ch.strand? (4 * 0 + 0) = some σ ∧ s.ch.unitOf? σ = some unit0 ∧ σ.live = [] ∧ σ.inProgram ∧ s.ch.killing σ.who.job = false ∧
     (∀ n, n < 8 → σ.binding? n = none) ∧ s.ch.ops = [] ∧ s.ch.saved = [] ∧ unit0.live = [σ.who.strand]) := by
  refine ⟨⟨?_, ?_, ?_, ?_, ?_, ?_, ?_, ?_, ?_, ?_⟩, ?_, ?_, ?_, rfl, ?_, ?_, ?_, ?_, ?_⟩ <;> decide +kernel

/-! The host, management and upkeep. -/

/-- Port 2 owns the package; its aperture leads through the tables to the page. -/
def hosted : State :=
  let s := queued signalE
  { s with ch := { s.ch with plat := { s.ch.plat with ownValid := true, owner := 2, apasr := BitVec.ofNat 64 (die1 + 0x1000), linkDown := some 0, run := true },
                             cycle := 3000000000 } }
theorem meets_HostEvents : (let s := queued signalE
    s.ch.served = true ∧ s.ch.hostPort 5 = true ∧ s.ch.plat.ownValid = false) ∧
    hosted.ch.hears 2 ∧ hosted.ch.owns 2 = true ∧ (5#64).toNat < 8 ∧ hosted.ch.hostPort ((5#64).setWidth 3) = true ∧
    hosted.ch.plat.linkDown = some 0 ∧ hosted.ch.plat.ownValid = true ∧ 0 + 3000000000 ≤ hosted.ch.cycle ∧
    (5#3).toNat < 6 ∧ hosted.ch.plat.links.length = 6 ∧ nth 0 hosted.ch.plat.ports 5 ≠ 1 ∧
    hosted.aperture 0x1000 = some (root0, 0x1000) ∧ (okOf (hosted.devRead root0 0x1000 64)).isSome = true ∧
    (okOf (hosted.devRead root0 0x400000 64)).isNone = true ∧ (okOf (hosted.devWrite root0 0x9000 [1, 2])).isSome = true ∧
    hosted.ch.mayWrite 2 = true ∧ hosted.ch.mayWrite 3 = false ∧ hosted.ch.hostPort 3 = true ∧ hosted.ch.plat.powered = true ∧
    hosted.ch.plat.leaseOpen = false ∧ hosted.ch.plat.recovery = false := by
  refine ⟨⟨?_, ?_, ?_⟩, ⟨rfl, rfl, rfl⟩, ?_, ?_, ?_, ?_, ?_, ?_, ?_, ?_, ?_, ?_, ?_, ?_, ?_, ?_, ?_, ?_, ?_, ?_, ?_⟩ <;> decide +kernel
/-- Accesses that lie in the aperture of a port and meet no HOLD: of this package, of a peer, and beyond the tables; the reads of a register and of a tail. -/
def hostedPeer : State := { hosted with mem := tables (leafRw 9 false), ch := { hosted.ch with plat := { hosted.ch.plat with routes := [(9, 0)] } } }
/-- No address-space record stands where APASR points. -/
def rootless : State := { hosted with ch := { hosted.ch with plat := { hosted.ch.plat with apasr := 8 } } }
theorem meets_HostEvents_accesses : hosted.ch.inAperture 2 0x1000 64 = true ∧ hosted.apHeld .load 0x1000 64 = false ∧
    hosted.apHeld .load 0x400000 64 = false ∧ (okOf ((devSegs hosted.ch.side hosted.mem root0 .load 0x400000 64).bind (localBytes hosted))).isNone = true ∧
    (match devSegs hosted.ch.side hosted.mem root0 .load 0x1000 64 with
      | .ok gs => gs.all (fun g => g.peer.isNone) && (okOf (localBytes hosted gs)).isSome
      | _ => false) = true ∧ hosted.ch.xl.egress = [] ∧
    rootless.aperture 0x1000 = none ∧ rootless.apHeld .load 0x1000 64 = false ∧
    (match hostedPeer.aperture 0x1000, devSegs hostedPeer.ch.side hostedPeer.mem root0 .load 0x1000 64 with
      | some _, .ok [g] => g.peer == some 9 && decide (0 < g.len)
      | _, _ => false) = true ∧ hostedPeer.ch.reachable 9 = true ∧ hostedPeer.apHeld .load 0x1000 64 = false ∧
    hosted.apHeld .store 0x9000 2 = false ∧ hosted.ch.inAperture 2 0x9000 2 = true ∧
    (match devSegs hosted.ch.side hosted.mem root0 .store 0x9000 2 with
      | .ok gs => (writeRuns (some hosted.ch.nextId) gs [1, 2] hosted).2
      | _ => false) = true ∧
    hosted.ch.portWrites 2 = false ∧ hosted.ch.plat.answersRead 0x2000008 = true ∧ hosted.ch.served = true ∧ (0x1FFFC0 : Nat) % 64 = 0 := by
  refine ⟨?_, ?_, ?_, ?_, ?_, ?_, ?_, ?_, ?_, ?_, ?_, ?_, ?_, ?_, ?_, ?_, ?_, ?_⟩ <;> decide +kernel
/-- What `img` must be for FIRMWARE_LOAD and IMAGE is open (log entry 2): an image either verifies or does not. -/
theorem meets_HostEvents_image (p : Platform) (img : List Byte) : p.verifies img = true ∨ p.verifies img = false := by
  cases p.verifies img <;> simp
def leasing : State := { State.reset with ch := { State.reset.ch with plat := { Platform.fresh with leaseOpen := true, retiring := true, reports := [(9, 4)] } } }
theorem meets_ManagementEvents : leasing.ch.plat.powered = true ∧ leasing.ch.plat.leaseOpen = true ∧ leasing.ch.plat.retiring = true ∧
    State.reset.ch.manages ∧ State.reset.ch.jobs = [] ∧ State.reset.ch.replays = [] ∧ State.reset.ch.plat.pending = 0 ∧
    State.reset.ch.plat.retiring = false ∧ hosted.ch.manages ∧ hosted.ch.plat.ownValid = true ∧ 1 ≤ [(7 : Byte)].length ∧
    (List.replicate 32 (0 : Byte)).length ≤ 32 := by
  refine ⟨?_, ?_, ?_, ⟨?_, ?_⟩, ?_, ?_, ?_, ?_, ⟨?_, ?_⟩, ?_, ?_, ?_⟩ <;> decide +kernel

/-- A package with a faulty word, a quad that can move, and a quad whose spill ring has met a fault. -/
def upkeep (ms : List ColMove) : State :=
  let s := at_ .c (cs 7 8)
  { s with ch := { (s.ch.modQuad 3 fun q => { q with ringStall := some 0 }) with
      moves := ms, cycle := 300000, side := { s.ch.side with faulty := [(0x20000000010, true)] },
      plat := { s.ch.plat with run := true, tar := List.replicate 24 0xF77 } } }
def move0 (phase : Nat) : ColMove := { die := 0, src := 0, dst := 63, phase := phase }
/-- No quad of die 0 is in service. -/
def allOut : State := { upkeep [] with ch := { (upkeep []).ch with quads := (List.range 64).map fun q => { Quad.fresh q with out := true } } }
theorem meets_UpkeepEvents_scrub : let s := upkeep []
    protectedWord 0x2000000001F = 0x20000000010 ∧ ownerCore 0x20000000010 = some 0 ∧ storeOf 0x20000000010 ≠ .bucket ∧
    s.ch.side.faulty.lookup 0x20000000010 = some true := by refine ⟨?_, ?_, ?_, ?_⟩ <;> decide +kernel
theorem meets_UpkeepEvents_move : (upkeep []).ch.freeQuad 0 1 = true ∧ (upkeep []).ch.canMigrate 0 0 = true ∧ 1 < Config.quadsOf 0 ∧
    (upkeep [move0 1]).ch.moves = [move0 1] ∧ (upkeep [move0 1]).ch.holdsMove 0 = false ∧
    (∀ k, k < 4 → (upkeep [move0 1]).ch.faultFrozen (4 * 0 + k) = false) ∧ (upkeep [move0 1]).ch.ringHoldsMove 0 = false ∧
    (upkeep [move0 4]).ch.moves = [move0 4] ∧
    (upkeep []).ch.plat.curators = true ∧
    (∀ v, v < Config.quadsOf 0 → v ≠ 0 → allOut.ch.freeQuad 0 v = false) ∧ allOut.ch.plat.tar.length = 24 ∧ allOut.ch.plat.curators = true ∧
    (upkeep []).ch.plat.lowered = [] := by refine ⟨?_, ?_, ?_, ?_, ?_, ?_, ?_, ?_, ?_, ?_, ?_, ?_, ?_⟩ <;> decide +kernel
theorem meets_UpkeepEvents_hot : bits (nth 0 (upkeep []).ch.plat.tar (islandOf 0)).toNat 0 8 < 120 ∧ 0 < (upkeep []).ch.allow (islandOf 0) := by
  unfold islandOf
  split <;> decide +kernel
theorem meets_UpkeepEvents_rest : let s := upkeep []
    s.ch.plat.memStatus.length = 256 ∧ (31 : Nat) < (if 7 < 4 then 8 else 32) ∧ (7 : Nat) < (if 0 < 4 then 8 else 32) ∧
    (nth 0 ({ s with ch := { s.ch with plat := { s.ch.plat with memStatus := [86] } } } : State).ch.plat.memStatus 0).toNat / 256 % 4 ≠ 1 ∧
    s.ch.plat.tar.length = 24 ∧ (List.replicate 24 (3 : BitVec 4)).length = 24 ∧ (s.ch.quad 3).ringStall = some 0 ∧
    0 + 300000 ≤ s.ch.cycle ∧ (127 : Nat) < 128 ∧ 127 ∉ s.ch.plat.fibres := by
  refine ⟨?_, ?_, ?_, ?_, ?_, ?_, ?_, ?_, ?_, ?_⟩ <;> decide +kernel

theorem meets_EncodingRoundTrip : (Instr.addi 31 31 0x3FFF).wf .c = true ∧ (Instr.xgrant 7 7).wf .g = true ∧ (Instr.mstat 7 2).wf .m = true ∧
    (Instr.vfr 7 1).wf .v = true ∧ (Instr.branch 7 7 5 0).wf .v = true := by decide
theorem meets_StepKeepsMemory : memWf hosted.mem = true ∧ memWf State.reset.mem = true := by refine ⟨?_, ?_⟩ <;> decide +kernel
/-- The strand with its C cluster ended. -/
def paused : Strand := strandOf .g 0
/-- A strand whose word is next in the agenda, and one that would leave its image; a sync-marked word waits. -/
def next0 (w : Word) : State :=
  let s := at_ .c (strandOf .c w)
  { s with ch := { s.ch with agenda := [.issue 0 .c] } }
theorem meets_StepRunsDecodedWord : let s := next0 0x02280001
    let s1 : State := { s with ch := { s.ch with agenda := [] } }
    let σ := strandOf .c 0x02280001
    s.ch.agenda = .issue 0 .c :: [] ∧ s.ch.strand? 0 = some σ ∧ s1.ch.turnGone 0 .c = false ∧ s1.chosen σ .c = true ∧
    s1.ch.mayIssue σ .c = true ∧ (σ.cl .c).image[(σ.cl .c).pc / 4]? = some 0x02280001 ∧ wordSync 0x02280001 = false ∧
    wordHold 0x02280001 = false ∧ wordSync 0xBF000000 = true ∧ (σ.cl .c).group = 0 ∧ (σ.cl .c).released = false ∧
    s1.ch.mayIssue paused .c = false ∧ ((σ.modCl .c fun k => { k with pc := 16 }).cl .c).image[16 / 4]? = none ∧
    ((s1.ch.modCore 0 fun k => { k with spent := [(.c, 0)] })).turnGone 0 .c = true ∧
    (σ.modCl .c fun k => { k with past := 1, image := [0xBF000000] }).c.issuesAlone = true ∧ σ.trap.phase = .run ∧
    (phased .frozen id).trap.phase = .frozen ∧ (phased .frozen id).trap.info.kind ≠ 1 ∧ (s.ch.core 0).freeze ≠ 16 := by
  refine ⟨?_, ?_, ?_, ?_, ?_, ?_, ?_, ?_, ?_, ?_, ?_, ?_, ?_, ?_, ?_, ?_, ?_, ?_, ?_⟩ <;> decide +kernel

end Sys2Proof.Tests
end

namespace Sys2Proof.Machine

/-! The layout of an instruction word (R222): its S and H bits, its major and the 24 bits below it. -/

section
variable (sync hold : Bool) {major fields : Nat}

theorem wordOf_toNat (hm : major < 64) (hf : fields < 2 ^ 24) :
    (wordOf sync hold major fields).toNat =
      (if sync then 2 ^ 31 else 0) + (if hold then 2 ^ 30 else 0) + major * 2 ^ 24 + fields := by
  refine (BitVec.toNat_ofNat _ _).trans (Nat.mod_eq_of_lt ?_)
  split <;> split <;> omega

theorem wordSync_wordOf (hm : major < 64) (hf : fields < 2 ^ 24) : wordSync (wordOf sync hold major fields) = sync := by
  have h := wordOf_toNat sync hold hm hf
  rw [wordSync, ← BitVec.testBit_toNat, h, Nat.testBit_eq_decide_div_mod_eq]
  cases sync <;> cases hold <;> simp <;> omega

theorem wordHold_wordOf (hm : major < 64) (hf : fields < 2 ^ 24) : wordHold (wordOf sync hold major fields) = hold := by
  have h := wordOf_toNat sync hold hm hf
  rw [wordHold, ← BitVec.testBit_toNat, h, Nat.testBit_eq_decide_div_mod_eq]
  cases sync <;> cases hold <;> simp <;> omega

theorem wordOf_major (hm : major < 64) (hf : fields < 2 ^ 24) : (wordOf sync hold major fields).toNat / 16777216 % 64 = major := by
  rw [wordOf_toNat sync hold hm hf]
  split <;> split <;> omega

theorem wordOf_low (hm : major < 64) (hf : fields < 2 ^ 24) : (wordOf sync hold major fields).toNat % 16777216 = fields := by
  rw [wordOf_toNat sync hold hm hf]
  split <;> split <;> omega

end

/-! Decoding of the C cluster's majors 0x0B and 0x0C, from the fields of a word (R227, R250, R251). -/

theorem decodeWord_of_raw {cl : Cluster} {w : Word} {i : Instr} (h : rawDecode cl w.toNat = some i) (hm : i.minorOk = true)
    (hr : i.regsOk cl = true) : decodeWord cl w = .ok i := by
  simp [decodeWord, h, hm, hr]

theorem decodeWord_of_raw_none {cl : Cluster} {w : Word} (h : rawDecode cl w.toNat = none) :
    decodeWord cl w = .error .illegalInstruction := by
  simp [decodeWord, h]

/-- Major 0x0B holds `lea` alone, in the words whose fn is below 4 and whose od is zero. -/
theorem decodeWord_lea {w : Word} {d a b : BitVec 5} {fn : BitVec 6} {od : BitVec 3} (hmajor : w.toNat / 16777216 % 64 = 0x0B)
    (hlow : w.toNat % 16777216 = d.toNat * 2 ^ 19 + a.toNat * 2 ^ 14 + b.toNat * 2 ^ 9 + fn.toNat * 8 + od.toNat) :
    decodeWord .c w = if fn.toNat < 4 ∧ od = 0 then .ok (.lea d a b (fn.setWidth 2)) else .error .illegalInstruction := by
  have hd : w.toNat / 524288 % 32 = d.toNat := by omega
  have ha : w.toNat / 16384 % 32 = a.toNat := by omega
  have hb : w.toNat / 512 % 32 = b.toNat := by omega
  have hk : BitVec.ofNat 2 (w.toNat / 8 % 4) = fn.setWidth 2 := BitVec.eq_of_toNat_eq (by simp; omega)
  have hfn : w.toNat % 8 = 0 ∧ w.toNat / 32 % 16 = 0 ↔ fn.toNat < 4 ∧ od = 0 := by
    have hod : od = 0 ↔ od.toNat = 0 := BitVec.toNat_eq
    rw [hod]; omega
  have hraw : rawDecode .c w.toNat = if fn.toNat < 4 ∧ od = 0 then some (.lea d a b (fn.setWidth 2)) else none := by
    simp only [rawDecode, rawC, hmajor, hd, ha, hb, hk, hfn, BitVec.ofNat_toNat, BitVec.setWidth_eq]; rfl
  split
  · next h => exact decodeWord_of_raw (hraw.trans (if_pos h)) rfl rfl
  · next h => exact decodeWord_of_raw_none (hraw.trans (if_neg h))

/-- Major 0x0C holds the three bit-field instructions, told apart by its lowest two bits. -/
theorem decodeWord_bitField {w : Word} {d a : BitVec 5} {p w1 : BitVec 6} {op : BitVec 2} (hmajor : w.toNat / 16777216 % 64 = 0x0C)
    (hlow : w.toNat % 16777216 = d.toNat * 2 ^ 19 + a.toNat * 2 ^ 14 + p.toNat * 2 ^ 8 + w1.toNat * 4 + op.toNat) :
    (op.toNat = 0 → decodeWord .c w = .ok (.bfx d a p w1)) ∧ (op.toNat = 1 → decodeWord .c w = .ok (.bfxn d a p w1)) ∧
    (op.toNat = 2 → decodeWord .c w = .ok (.bfi d a p w1)) ∧ (op.toNat = 3 → decodeWord .c w = .error .illegalInstruction) := by
  have hd : w.toNat / 524288 % 32 = d.toNat := by omega
  have ha : w.toNat / 16384 % 32 = a.toNat := by omega
  have hp : w.toNat / 256 % 64 = p.toNat := by omega
  have hw : w.toNat / 4 % 64 = w1.toNat := by omega
  have hop : w.toNat % 4 = op.toNat := by omega
  have hraw : rawDecode .c w.toNat = if op.toNat = 0 then some (.bfx d a p w1) else if op.toNat = 1 then some (.bfxn d a p w1)
      else if op.toNat = 2 then some (.bfi d a p w1) else none := by
    simp only [rawDecode, rawC, hmajor, hd, ha, hp, hw, hop, BitVec.ofNat_toNat, BitVec.setWidth_eq]; rfl
  refine ⟨fun h => decodeWord_of_raw ?_ rfl rfl, fun h => decodeWord_of_raw ?_ rfl rfl, fun h => decodeWord_of_raw ?_ rfl rfl,
    fun h => decodeWord_of_raw_none ?_⟩ <;> rw [hraw, h] <;> rfl

/-! The values of `lea` and of the bit fields. -/

theorem add_shiftLeft_eq_ofNat (x y : Reg) (k : Nat) : x + y <<< k = BitVec.ofNat 64 (x.toNat + y.toNat * 2 ^ k) := by
  apply BitVec.eq_of_toNat_eq
  simp [Nat.shiftLeft_eq]

theorem testBit_bits (v lo n j : Nat) : (bits v lo n).testBit j = (decide (j < n) && v.testBit (lo + j)) := by
  simp [bits, Nat.testBit_mod_two_pow, Nat.testBit_div_two_pow, Nat.add_comm]

/-- A field extended by zeros. -/
theorem getLsbD_ofNat_bits (x : Reg) (p w j : Nat) (hj : j < 64) :
    (BitVec.ofNat 64 (bits x.toNat p w)).getLsbD j = (decide (j < w) && x.getLsbD (p + j)) := by
  rw [BitVec.getLsbD_ofNat, testBit_bits, BitVec.testBit_toNat, decide_eq_true hj, Bool.true_and]

/-- A field extended by its highest bit. -/
theorem getLsbD_ofInt_signed_bits (x : Reg) (p j : Nat) {w : Nat} (hw : 0 < w) (hj : j < 64) :
    (BitVec.ofInt 64 (signed w (bits x.toNat p w))).getLsbD j = if j < w then x.getLsbD (p + j) else x.getLsbD (p + w - 1) := by
  have hbit : ∀ i, i < w → (BitVec.ofNat w (bits x.toNat p w)).getLsbD i = x.getLsbD (p + i) := fun i hi => by
    simp only [BitVec.getLsbD_ofNat, testBit_bits, hi, BitVec.testBit_toNat, decide_true, Bool.true_and]
  change ((BitVec.ofNat w (bits x.toNat p w)).signExtend 64).getLsbD j = _
  rw [BitVec.getLsbD_signExtend, BitVec.msb_eq_getLsbD_last, hbit (w - 1) (by omega), Nat.add_sub_assoc hw]
  split
  · next h => simp [hj, hbit j h]
  · simp [hj]

/-- The mask of `w` ones from bit `p` on. -/
theorem getLsbD_fieldMask (p w j : Nat) (hj : j < 64) :
    (BitVec.ofNat 64 ((2 ^ w - 1) * 2 ^ p)).getLsbD j = decide (p ≤ j ∧ j < p + w) := by
  simp only [BitVec.getLsbD_ofNat, Nat.testBit_mul_two_pow, Nat.testBit_two_pow_sub_one, hj, decide_true, Bool.true_and,
    ← Bool.decide_and]
  exact decide_eq_decide.mpr (by omega)

/-- The value of `bfi`: `y` with its `w` bits from bit `p` on taken from the low bits of `x` (R251). -/
def insertField (x y : Reg) (p w : Nat) : Reg :=
  let mask : Reg := BitVec.ofNat 64 ((2 ^ w - 1) * 2 ^ p)
  (y &&& ~~~mask) ||| ((x <<< p) &&& mask)

theorem getLsbD_insertField (x y : Reg) (p w j : Nat) (hj : j < 64) :
    (insertField x y p w).getLsbD j = if p ≤ j ∧ j < p + w then x.getLsbD (j - p) else y.getLsbD j := by
  simp only [insertField, BitVec.getLsbD_or, BitVec.getLsbD_and, BitVec.getLsbD_not, BitVec.getLsbD_shiftLeft, getLsbD_fieldMask p w j hj]
  split
  · next h => simp [h, hj, Nat.not_lt.mpr h.1]
  · next h => simp [h, hj]

/-! The issue of `lea` and of a bit-field instruction. -/

section
variable {s : State} {σ : Strand} {d : BitVec 5} {rs : List (BitVec 5)} {p w : BitVec 6} {f : Strand → Nat → Reg}

theorem AtIssue.of_subset {srcs srcs' : List RegName} (h : AtIssue s σ srcs) (hs : srcs' ⊆ srcs) : AtIssue s σ srcs' :=
  ⟨h.strand, List.all_eq_true.mpr fun r hr => List.all_eq_true.mp h.free r (hs hr)⟩

theorem exec_lea (d a b : BitVec 5) (k : BitVec 2) (s : State) :
    exec (.lea d a b k) s = alu s d [a, b] fun σ => σ.rs a + σ.rs b <<< k.toNat := rfl

theorem exec_bfx (d a : BitVec 5) (p w : BitVec 6) (s : State) :
    exec (.bfx d a p w) s = bitField s d [a] p w fun σ n => BitVec.ofInt 64 (signed n (bits (σ.rs a).toNat p.toNat n)) := rfl

theorem exec_bfxn (d a : BitVec 5) (p w : BitVec 6) (s : State) :
    exec (.bfxn d a p w) s = bitField s d [a] p w fun σ n => BitVec.ofNat 64 (bits (σ.rs a).toNat p.toNat n) := rfl

theorem exec_bfi (d a : BitVec 5) (p w : BitVec 6) (s : State) :
    exec (.bfi d a p w) s = bitField s d [a, d] p w fun σ n => insertField (σ.rs a) (σ.rs d) p.toNat n := rfl

/-- A field inside the register: the value goes to d (R251). -/
theorem bitField_next (h : AtIssue s σ (rs.map fun r => .s r.toNat)) (hp : p.toNat + (w.toNat + 1) ≤ 64) :
    ∃ t, bitField s d rs p w f = .next t ∧ Issued s t (σ.setS d.toNat (f σ (w.toNat + 1))) none :=
  issue_onStrand h (fun τ => τ.setS d.toNat (f σ (w.toNat + 1))) (by intro; simp) (if_neg (Nat.not_lt.mpr hp))

/-- A field that leaves the register: a precise fault of cause 0x02 (R251). -/
theorem bitField_trapped (h : AtIssue s σ (rs.map fun r => .s r.toNat)) (hrun : σ.inProgram) (hp : 64 < p.toNat + (w.toNat + 1)) :
    ∃ t, bitField s d rs p w f = .next t ∧ Trapped s t σ { cause := 0x02 } := by
  rw [bitField, issue_eq h, if_pos hp]
  exact finish_trap _ rfl h.strand hrun

end

/-- Settles O3: the layout field by field, and the sum as R245's shared form gives it. -/
theorem scaledSum : Obligations.ScaledSum := by
  refine ⟨fun d a b fn od sync hold => ?_, fun s σ d a b k h => ?_⟩
  · have hf : d.toNat * 2 ^ 19 + a.toNat * 2 ^ 14 + b.toNat * 2 ^ 9 + fn.toNat * 8 + od.toNat < 2 ^ 24 := by omega
    exact ⟨wordSync_wordOf _ _ (by decide) hf, wordHold_wordOf _ _ (by decide) hf,
      decodeWord_lea (wordOf_major _ _ (by decide) hf) (wordOf_low _ _ (by decide) hf)⟩
  · rw [exec_lea, ← add_shiftLeft_eq_ofNat]
    exact alu_next (rs := [a, b]) h

/-- Settles O2: the layout field by field; inside the register the result bit by bit, and otherwise the trap. -/
theorem bitFieldResults : Obligations.BitFieldResults := by
  refine ⟨fun d a p w1 op sync hold => ?_, fun s σ d a p w1 => ⟨fun h hp => ⟨?_, ?_⟩, fun h hp => ?_, fun hp hrun h => ?_⟩⟩
  · intro w
    have hf : d.toNat * 2 ^ 19 + a.toNat * 2 ^ 14 + p.toNat * 2 ^ 8 + w1.toNat * 4 + op.toNat < 2 ^ 24 := by omega
    refine ⟨wordSync_wordOf _ _ (by decide) hf, wordHold_wordOf _ _ (by decide) hf, ?_⟩
    obtain ⟨h0, h1, h2, h3⟩ := decodeWord_bitField (w := w) (wordOf_major sync hold (by decide) hf) (wordOf_low sync hold (by decide) hf)
    clear_value w
    have hop : op.toNat = 0 ∨ op.toNat = 1 ∨ op.toNat = 2 ∨ op.toNat = 3 := by omega
    obtain hop | hop | hop | hop := hop <;> rw [hop]
    · exact h0 hop
    · exact h1 hop
    · exact h2 hop
    · exact h3 hop
  · obtain ⟨t, ht, hi⟩ := bitField_next (rs := [a]) h hp
    exact ⟨t, _, (exec_bfx ..).trans ht, hi, fun j hj => getLsbD_ofInt_signed_bits (σ.rs a) p.toNat j (Nat.succ_pos w1.toNat) hj⟩
  · obtain ⟨t, ht, hi⟩ := bitField_next (rs := [a]) h hp
    exact ⟨t, _, (exec_bfxn ..).trans ht, hi, fun j hj => getLsbD_ofNat_bits (σ.rs a) p.toNat (w1.toNat + 1) j hj⟩
  · obtain ⟨t, ht, hi⟩ := bitField_next (rs := [a, d]) h hp
    exact ⟨t, _, (exec_bfi ..).trans ht, hi, fun j hj => getLsbD_insertField (σ.rs a) (σ.rs d) p.toNat (w1.toNat + 1) j hj⟩
  · have ha : AtIssue s σ [.s a.toNat] := h.of_subset (by simp)
    simp only [List.forall_mem_cons, exec_bfx, exec_bfxn, exec_bfi]
    exact ⟨bitField_trapped (rs := [a]) ha hrun hp, bitField_trapped (rs := [a]) ha hrun hp,
      bitField_trapped (rs := [a, d]) h hrun hp, by simp⟩

end Sys2Proof.Machine

namespace Sys2Proof.Machine

/-! The layout of `itmod` (R230, R299). -/

/-- Step 1 of R223 for a word whose fixed bits are those of an instruction with accepted registers. -/
theorem decodeWord_of_raw_minor {cl : Cluster} {w : Word} {i : Instr} (h : rawDecode cl w.toNat = some i) (hr : i.regsOk cl = true) :
    decodeWord cl w = if i.minorOk = true then .ok i else .error .illegalInstruction := by
  simp [decodeWord, h, hr]

/-- Major 0x07 of the G cluster holds `itmod` alone, in the words whose fld names one of the nine fields. -/
theorem decodeWord_itmod {w : Word} {g a : BitVec 3} {f : BitVec 4} (hmajor : w.toNat / 16777216 % 64 = 0x07)
    (hlow : w.toNat % 16777216 = g.toNat * 2 ^ 21 + f.toNat * 2 ^ 17 + a.toNat * 2 ^ 14) :
    decodeWord .g w = if f.toNat ≤ 8 then .ok (.itmod g f a) else .error .illegalInstruction := by
  have hg : w.toNat / 2097152 % 8 = g.toNat := by omega
  have hf : w.toNat / 131072 % 16 = f.toNat := by omega
  have ha : w.toNat / 16384 % 8 = a.toNat := by omega
  have hz : w.toNat % 16384 = 0 := by omega
  have hraw : rawDecode .g w.toNat = some (.itmod g f a) := by
    simp only [rawDecode, rawG, hmajor, hg, hf, ha, hz, BitVec.ofNat_toNat, BitVec.setWidth_eq]; rfl
  rw [decodeWord_of_raw_minor hraw rfl]
  simp only [Instr.minorOk, decide_eq_true_eq]

/-! A record with one field replaced (R160, R299). -/

/-- A number split at a field, with the field's digits replaced. -/
theorem sub_bits_add_eq (x lo n u : Nat) :
    x - bits x lo n * 2 ^ lo + u * 2 ^ lo = 2 ^ lo * (2 ^ n * (x / 2 ^ lo / 2 ^ n) + u) + x % 2 ^ lo := by
  have hlow := Nat.div_add_mod x (2 ^ lo)
  have hmid := Nat.div_add_mod (x / 2 ^ lo) (2 ^ n)
  have hsplit : x = 2 ^ lo * (2 ^ n * (x / 2 ^ lo / 2 ^ n)) + 2 ^ lo * bits x lo n + x % 2 ^ lo := by
    rw [bits, ← Nat.mul_add, hmid, hlow]
  rw [Nat.mul_add, Nat.mul_comm (bits x lo n), Nat.mul_comm u]
  omega

theorem getLsbD_putBits (r : BitVec 512) (lo n v i : Nat) (hi : i < 512) :
    (putBits r lo n v).getLsbD i = if lo ≤ i ∧ i < lo + n then v.testBit (i - lo) else r.getLsbD i := by
  rw [putBits, BitVec.getLsbD_ofNat, decide_eq_true hi, Bool.true_and, sub_bits_add_eq,
    Nat.testBit_two_pow_mul_add _ (Nat.mod_lt _ (Nat.two_pow_pos lo)), ← BitVec.testBit_toNat]
  by_cases hlo : i < lo
  · simp [hlo, Nat.not_le.mpr hlo, Nat.testBit_mod_two_pow]
  · rw [if_neg hlo, Nat.testBit_two_pow_mul_add _ (Nat.mod_lt _ (Nat.two_pow_pos n))]
    by_cases hn : i < lo + n
    · have hin : i - lo < n := by omega
      simp [hin, hn, Nat.not_lt.mp hlo, Nat.testBit_mod_two_pow]
    · have hin : ¬ i - lo < n := by omega
      have hpos : i - lo - n + n + lo = i := by omega
      simp [hin, hn, Nat.testBit_div_two_pow, hpos]

/-- Where field `n` of a record begins: BASE, the four counts, the four strides (R160, R299). -/
def recordFieldLo (n : Nat) : Nat := if n = 0 then 0 else if n ≤ 4 then 128 + 96 * (n - 1) else 160 + 96 * (n - 5)

/-- How many bits field `n` of a record has. -/
def recordFieldWidth (n : Nat) : Nat := if 1 ≤ n ∧ n ≤ 4 then 32 else 64

/-- The limits of R299: a count fits its field and is zero exactly where the record has no such dimension, and a stride is zero there. -/
def RecordFieldLegal (r : BitVec 512) (n v : Nat) : Prop :=
  (1 ≤ n → n ≤ 4 → v < 2 ^ 32 ∧ (n - 1 < iterDims r ↔ v ≠ 0)) ∧ (5 ≤ n → n - 5 < iterDims r ∨ v = 0)

/-- The model's check of a value against the limits of its field. -/
def recordFieldOk (r : BitVec 512) (n v : Nat) : Bool :=
  let live := decide ((n - 1) % 4 < iterDims r)
  if n = 0 then true else if n ≤ 4 then decide (v < 2 ^ 32) && (live == (v != 0)) else live || v == 0

/-- The model's record with field `n` replaced. -/
def withRecordField (r : BitVec 512) (n v : Nat) : BitVec 512 :=
  if n = 0 then putBits r 0 64 v
  else if n ≤ 4 then putBits r (128 + 96 * ((n - 1) % 4)) 32 v
  else putBits r (160 + 96 * ((n - 1) % 4)) 64 v

theorem recordFieldOk_iff (r : BitVec 512) {n : Nat} (v : Nat) (hn : n ≤ 8) : recordFieldOk r n v = true ↔ RecordFieldLegal r n v := by
  unfold recordFieldOk RecordFieldLegal
  obtain rfl | ⟨h1, h4⟩ | h5 : n = 0 ∨ (1 ≤ n ∧ n ≤ 4) ∨ 5 ≤ n := by omega
  · simp
  · have hk : (n - 1) % 4 = n - 1 := by omega
    have h0 : n ≠ 0 := by omega
    have hlive : (decide (n - 1 < iterDims r) == (v != 0)) = true ↔ (n - 1 < iterDims r ↔ v ≠ 0) := by
      rw [beq_iff_eq, Bool.eq_iff_iff, decide_eq_true_iff, bne_iff_ne]
    have h5 : ¬ 5 ≤ n := by omega
    rw [if_neg h0, if_pos h4, hk, Bool.and_eq_true, decide_eq_true_eq, hlive]
    simp only [h1, h4, h5, forall_const, false_imp_iff, and_true]
  · have hk : (n - 1) % 4 = n - 5 := by omega
    have h0 : n ≠ 0 := by omega
    have h4 : ¬ n ≤ 4 := by omega
    simp [h0, h4, h5, hk]

theorem withRecordField_eq_putBits (r : BitVec 512) {n : Nat} (v : Nat) (hn : n ≤ 8) :
    withRecordField r n v = putBits r (recordFieldLo n) (recordFieldWidth n) v := by
  unfold withRecordField recordFieldLo recordFieldWidth
  obtain rfl | ⟨h1, h4⟩ | h5 : n = 0 ∨ (1 ≤ n ∧ n ≤ 4) ∨ 5 ≤ n := by omega
  · simp
  · have hk : (n - 1) % 4 = n - 1 := by omega
    have h0 : n ≠ 0 := by omega
    simp [h0, h1, h4, hk]
  · have hk : (n - 1) % 4 = n - 5 := by omega
    have h0 : n ≠ 0 := by omega
    have h4 : ¬ n ≤ 4 := by omega
    simp [h0, h4, hk]

/-! The issue of `itmod`. -/

section
variable {s : State} {σ : Strand} {g a : BitVec 3} {f : BitVec 4} {r : BitVec 512}

/-- A strand with record `r` in iterator register `n`. -/
def Strand.setGi (σ : Strand) (n : Nat) (r : BitVec 512) : Strand :=
  { σ with gr := { σ.gr with gi := setNth none σ.gr.gi n (some r) } }

/-- On an unloaded register: a precise fault of cause 0x02. -/
theorem exec_itmod_unloaded (h : AtIssue s σ [.g a.toNat, .gi g.toNat]) (hr : nth none σ.gr.gi g.toNat = none) :
    exec (.itmod g f a) s = finish s (faulty 0x02) := by
  change gIssue s [a] [.gi g.toNat] _ = _
  rw [gIssue, List.map_singleton, List.singleton_append, issue_eq h, hr]

/-- On a loaded register: the record with its field replaced, or the same fault. -/
theorem exec_itmod_loaded (h : AtIssue s σ [.g a.toNat, .gi g.toNat]) (hr : nth none σ.gr.gi g.toNat = some r) :
    exec (.itmod g f a) s = finish s
      (if recordFieldOk r f.toNat (σ.getG a.toNat).toNat = true then
        onStrand s fun τ => τ.setGi g.toNat (withRecordField r f.toNat (σ.getG a.toNat).toNat)
      else faulty 0x02) := by
  change gIssue s [a] [.gi g.toNat] _ = _
  rw [gIssue, List.map_singleton, List.singleton_append, issue_eq h, hr]
  rfl

theorem exec_itmod_legal (h : AtIssue s σ [.g a.toNat, .gi g.toNat]) (hf : f.toNat ≤ 8) (hr : nth none σ.gr.gi g.toNat = some r)
    (hv : RecordFieldLegal r f.toNat (σ.getG a.toNat).toNat) :
    ∃ t, exec (.itmod g f a) s = .next t ∧ Issued s t (σ.setGi g.toNat
      (putBits r (recordFieldLo f.toNat) (recordFieldWidth f.toNat) (σ.getG a.toNat).toNat)) none := by
  rw [exec_itmod_loaded h hr, if_pos ((recordFieldOk_iff _ _ hf).mpr hv), withRecordField_eq_putBits _ _ hf]
  exact finish_onStrand _ h.strand fun _ => rfl

theorem exec_itmod_illegal (h : AtIssue s σ [.g a.toNat, .gi g.toNat]) (hf : f.toNat ≤ 8) (hr : nth none σ.gr.gi g.toNat = some r)
    (hv : ¬ RecordFieldLegal r f.toNat (σ.getG a.toNat).toNat) (hrun : σ.inProgram) :
    ∃ t, exec (.itmod g f a) s = .next t ∧ Trapped s t σ { cause := 0x02 } := by
  rw [exec_itmod_loaded h hr, if_neg fun hok => hv ((recordFieldOk_iff _ _ hf).mp hok)]
  exact finish_trap _ rfl h.strand hrun

end

/-- Settles O25: the layout field by field; a value within the limits replaces the bits of its field and no others, and any other
value, like an unloaded register, is the trap. -/
theorem iteratorFields : Obligations.IteratorFields := by
  refine ⟨fun g a f sync hold => ?_, fun s σ g a f h hf => ⟨fun hr hrun => ?_, fun r hr => ⟨fun hv => ?_, fun hrun hv => ?_⟩⟩⟩
  · have hfields : g.toNat * 2 ^ 21 + f.toNat * 2 ^ 17 + a.toNat * 2 ^ 14 < 2 ^ 24 := by omega
    exact ⟨wordSync_wordOf _ _ (by decide) hfields, wordHold_wordOf _ _ (by decide) hfields,
      decodeWord_itmod (wordOf_major _ _ (by decide) hfields) (wordOf_low _ _ (by decide) hfields)⟩
  · rw [exec_itmod_unloaded h hr]
    exact finish_trap _ rfl h.strand hrun
  · obtain ⟨t, ht, hi⟩ := exec_itmod_legal h hf hr hv
    refine ⟨t, _, ht, hi, fun i hlt => ?_⟩
    have hf0 : f = 0 ↔ f.toNat = 0 := BitVec.toNat_eq
    rw [getLsbD_putBits _ _ _ _ _ hlt, BitVec.testBit_toNat]
    simp only [hf0]
    rfl
  · exact exec_itmod_illegal h hf hr hv hrun

end Sys2Proof.Machine
